-- ==== Sys2Proof/Word.lean ====
section
/-! DEFINITION. Bytes, texts, fixed tables and the plainest arithmetic of the model. -/

/-- The entry of a table at an index. -/
def Vector.at {α : Type} {n : Nat} (t : Vector α n) (i : Fin n) : α := t[i.val]

/-- The table with the entry at one index replaced. -/
def Vector.put {α : Type} {n : Nat} (t : Vector α n) (i : Fin n) (x : α) : Vector α n := t.set i.val x

@[simp] theorem Vector.at_put_same {α : Type} {n : Nat} (t : Vector α n) (i : Fin n) (x : α) :
    (t.put i x).at i = x := by
  simp [Vector.at, Vector.put]

theorem Vector.at_put {α : Type} {n : Nat} (t : Vector α n) (i j : Fin n) (x : α) :
    (t.put i x).at j = if i = j then x else t.at j := by
  simp [Vector.at, Vector.put, Vector.getElem_set, Fin.ext_iff]

@[simp] theorem Vector.at_put_other {α : Type} {n : Nat} (t : Vector α n) {i j : Fin n} (x : α)
    (h : i ≠ j) : (t.put i x).at j = t.at j := by
  rw [Vector.at_put, if_neg h]

namespace Sys2Proof

/-- One byte of a frame, of a text or of journal memory. -/
abbrev Byte := BitVec 8

/-- A text: character codes, one byte each (R199). -/
abbrev Text := List Byte

/-- A table of `n` entries, one for each index. -/
abbrev Tab (α : Type) (n : Nat) := Vector α n

/-- The index of a table that a number names, when it is in range. -/
def index? (n k : Nat) : Option (Fin n) := if h : k < n then some ⟨k, h⟩ else none

end Sys2Proof
end

