-- ==== Sys2Proof/Config.lean ====
section
/-! DEFINITION. What the part fixes (sizes, durations, limits) and the one free value the manual leaves open. -/

namespace Sys2Proof.Config

/-- Places of the journal write queue (R154). -/
def journalPlaces : Nat := 32

/-- The last journal sequence number (R153). -/
def lastSequence : Nat := 4294967295

/-- The last fault sequence number (R141). -/
def lastFaultSequence : Nat := 4294967295

/-- Bytes of a journal slot and of a page (R148). -/
def slotBytes : Nat := 32

def pageBytes : Nat := 512

/-- Longest body of a frame (Table 11-1). -/
def maxBody : Nat := 1200

/-- Frames a receive buffer holds (R185). -/
def bufferFrames : Nat := 2

/-- Unanswered requests a port may have (R186). -/
def creditLimit : Nat := 4

/-- NOTICE frames a send list takes (R189). -/
def noticeLimit : Nat := 4

/-- Records of the store list (R75). -/
def storePlaces : Nat := 32

/-- Entries of the issue log (R100). -/
def logEntries : Nat := 2048

/-- Limits of a session total and of a session count (R97). -/
def totalLimit : Nat := 999999999

def countLimit : Nat := 65535

/-- Lines of an audit queue whose source is not marked "audit required" (R64), and the audit load at which a
required source gains AUDIT (R66). -/
def auditQueueLines : Nat := 64

/-- The audit load at which a required source loses AUDIT (R66). -/
def auditLoadLow : Nat := 48

/-- Slips of a slip queue (R67). -/
def slipQueueSlips : Nat := 4

/-- Columns of a print row (Section 2.2). -/
def printColumns : Nat := 48

/-- The absent repeat time in milliseconds (R44). -/
def absentRepeatMs : Nat := 5000

/-- FREE VALUE (log 7): what the byte at an address of journal memory holds after a write or an erase that a restart
cut short (R173 "may be torn"). The first argument counts the cuts, so that two cuts need not leave the same byte. -/
opaque tornByte : Nat → Nat → Byte

end Sys2Proof.Config
end

