-- ==== Sys2Proof/Syntax.lean ====
section
/-! DEFINITION. The commands of the controller: one constructor for each row of spec/opcode_table.json. -/

namespace Sys2Proof

/-- An office-link port and its window, W0 to W7. -/
abbrev Window := Fin 8

/-- A printer port, P0 to P11. -/
abbrev Printer := Fin 12

/-- What reaches the controller, one indivisible step each. A request command names the port whose receive buffer
holds the request at its head: the request's contents are the frame's (R186; log 1). A report command carries the body of
the printer's message. The end of a non-volatile write carries what its read-back finds: `none` when memory holds
what was written, otherwise the bytes found (R151, R162; log 8). Durations and partial frames are not simulated (log 5,
log 6). -/
inductive Instr where
  /-- A well-formed frame completes at a port (R185). -/
  | frameReceived (w : Window) (kind tag : Byte) (body : List Byte)
  /-- A frame is discarded at a port; whether a byte of it had a parity error, a framing error (R132, R184). -/
  | frameDiscarded (w : Window) (parity framing : Bool)
  /-- More than 5 ms pass between two bytes of a frame (R184). -/
  | gapTimerExpiry (w : Window)
  /-- The last byte of the frame at the head of a send list has been sent (R188). -/
  | frameTransmitted (w : Window)
  | signon (w : Window)
  | signoff (w : Window)
  | issue (w : Window)
  | testprint (w : Window)
  | cancel (w : Window)
  | void (w : Window)
  | refund (w : Window)
  | tableload (w : Window)
  | tableread (w : Window)
  | stockin (w : Window)
  | stockload (w : Window)
  | stockout (w : Window)
  | stockcount (w : Window)
  | stockread (w : Window)
  | hold (w : Window)
  | release (w : Window)
  | declare (w : Window)
  | close (w : Window)
  | sessionread (w : Window)
  | faultread (w : Window)
  | faultclear (w : Window)
  | reporting (w : Window)
  | journalread (w : Window)
  | statusread (w : Window)
  | causeclear (w : Window)
  | resetFull (w : Window)
  | resetPath (w : Window)
  | caps (p : Printer) (body : List Byte)
  | fed (p : Printer) (body : List Byte)
  | doublefed (p : Printer) (body : List Byte)
  | printed (p : Printer) (body : List Byte)
  | presented (p : Printer) (body : List Byte)
  | jammed (p : Printer) (body : List Byte)
  | status (p : Printer) (body : List Byte)
  /-- A printer message with a line error is discarded (R41). -/
  | printerMessageDiscarded (p : Printer)
  /-- A gap of more than 5 ms within a printer message (R41). -/
  | printerGapTimerExpiry (p : Printer)
  | attachTimerExpiry (p : Printer)
  | absentRepeatTimerExpiry (p : Printer)
  | pollIntervalTimerExpiry (p : Printer)
  | pollReplyTimerExpiry (p : Printer)
  /-- The write of a queued record ends (R151). -/
  | recordWriteEnds (found : Option (List Byte))
  /-- The erase and header write of the page the head entered ends (R150). -/
  | eraseEnds (found : Option (List Byte))
  /-- The write of a record of a checkpoint ends (R159). -/
  | checkpointRecordWriteEnds (found : Option (List Byte))
  | tableloadWriteEnds
  | reportingWriteEnds
  | causeclearWriteEnds
  /-- The cause write of recovery ends (R176). -/
  | causeWriteEnds
  | warningCrossingDown
  | warningCrossingUp
  | restartCrossingDown
  | powerOn
  | resetLineAsserted
  /-- The supply has stood above the warning threshold and the reset line is released (R174). -/
  | recoveryBegins
  /-- A well-formed printer-line message whose kind is not a report kind (R45). -/
  | nonReportMessage (p : Printer) (kind : Byte)
  /-- A frame whose kind is not a request kind is taken from a receive buffer (R187). -/
  | nonRequestFrame (w : Window)
  deriving DecidableEq, Repr

end Sys2Proof
end

