-- ==== Sys2Proof/Machine/Types.lean ====
section
/-! DEFINITION. The records of the controller's blocks, as plain data. -/

namespace Sys2Proof.Machine

/-! ### Names -/

/-- A stock type, 0 to 15. -/
abbrev StockType := Fin 16

/-- An image number (R41). -/
abbrev ImageNumber := Fin 16

/-- A job number of the pool (R1). -/
abbrev JobNumber := Fin 32

inductive Tender where
  | cash | card | warrant
  deriving DecidableEq, Repr

/-- The function of a printer port (Table 10-3). -/
inductive PortFunction where
  | ticket | audit | report | off
  deriving DecidableEq, Repr

/-- Printer port states (Table 3-3). -/
inductive PortState where
  | unused | attaching | absent | active | held | failed
  deriving DecidableEq, Repr

/-- The kind a printer reports in CAPS (Table 3-2). -/
inductive DeviceKind where
  | ticket | roll
  deriving DecidableEq, Repr

/-- Batch record states (Table 4-2). -/
inductive BatchState where
  | store | loaded | unverified | exhausted
  deriving DecidableEq, Repr

/-- Session states (Table 5-2); a free record is no session. -/
inductive SessionState where
  | opening | open_ | closing | awaiting | declared | finishing
  deriving DecidableEq, Repr

/-- Issue-log entry states (Table 5-6). -/
inductive LogState where
  | issued | voidPending | voided | refunded
  deriving DecidableEq, Repr

/-- Cash-up bands, from least to worst (R119). -/
inductive Band where
  | balanced | over | short | referred
  deriving DecidableEq, Repr

/-- Causes of a SPOIL record (Table 11-10). -/
inductive SpoilCause where
  | jam | doubleFeed | protocol | lost | reset
  deriving DecidableEq, Repr

/-- Restart causes (Table 9-1). -/
inductive RestartCause where
  | powerOn | supplyFail | resetLine | resetFrame
  deriving DecidableEq, Repr

inductive Supply where
  | normal | warning
  deriving DecidableEq, Repr

inductive Priority where
  | urgent | routine
  deriving DecidableEq, Repr

/-- Hold reasons (Table 3-5). -/
inductive HoldReason where
  | supervisor | noStock | stockUnverified | paperOut | coverOpen | headHot | jam | cutter | audit
  deriving DecidableEq, Repr

/-- The conditions a printer senses, in the order in which they are taken (R135). -/
inductive Sensed where
  | paperLow | paperOut | coverOpen | headHot | jam | cutter
  deriving DecidableEq, Repr

/-- The conditions of a printer that the monitor does not filter (Table 7-1). -/
inductive PrinterFault where
  | noAnswer | protocol | overrun | linkCheck | stockLow | stockMismatch
  deriving DecidableEq, Repr

/-- The conditions of an office-link port (Table 7-1). -/
inductive LineFault where
  | parity | framing | check | overrun
  deriving DecidableEq, Repr

/-- The conditions of the office (Table 7-1). -/
inductive OfficeFault where
  | journalFault | supplyDip | restart
  deriving DecidableEq, Repr

/-- A condition under its source: the 179 pairs of R130. -/
inductive Condition where
  | sensed (p : Printer) (c : Sensed)
  | printer (p : Printer) (c : PrinterFault)
  | window (w : Window) (c : LineFault)
  | office (c : OfficeFault)
  deriving DecidableEq, Repr

/-- Answer codes, in the order of Table 10-2. -/
inductive AnswerCode where
  | done | issued | voided | refunded | busy | windowFull | noSession | noRoute | noStock | printerUnavailable
  | jammed | cancelled | notCancellable | unknownSerial | notVoidable | notRefundable | notPermitted | badValue
  | wrongState | tableFull | referred | reset | journalStopped
  deriving DecidableEq, Repr

/-- Request kinds (Table 10-1). -/
inductive RequestKind where
  | signon | signoff | issue | testprint | cancel | void | refund | tableload | tableread | stockin | stockload
  | stockout | stockcount | stockread | hold | release | declare | close | sessionread | faultread | faultclear
  | reporting | journalread | statusread | causeclear | reset
  deriving DecidableEq, Repr

/-- One figure for each tender. -/
structure PerTender (α : Type) where
  cash : α
  card : α
  warrant : α
  deriving DecidableEq, Repr

/-! ### Tables of the table store (Table 10-3) -/

structure PortEntry where
  enabled : Bool
  supervisor : Bool
  notices : Bool
  deriving DecidableEq, Repr

structure PrinterEntry where
  function : PortFunction
  auditSource : Printer
  windowCode : Nat
  filterDepth : Nat
  retryLimit : Nat
  pollInterval : Nat
  selectTimeout : Nat
  auditRequired : Bool
  lowStock : Nat
  deriving DecidableEq, Repr

structure RouteEntry where
  primary : Option Printer
  alternate : Option Printer
  deriving DecidableEq, Repr

structure DiscountEntry where
  enabled : Bool
  rate : Nat
  unit : Nat
  floor : Nat
  deriving DecidableEq, Repr

/-- What a layout segment yields (Table 2-4). -/
inductive SegmentKind where
  | fixed (text : Text)
  | field (n : Nat)
  | serial | net | gross | discount | window | clerk | batch
  deriving DecidableEq, Repr

structure Segment where
  row : Nat
  column : Nat
  kind : SegmentKind
  deriving DecidableEq, Repr

/-- A tolerance entry; the fixed allowance is `none` when UNSET (Table 6-1). -/
structure ToleranceEntry where
  fixed : Option Nat
  proportion : Nat
  ceiling : Nat
  referral : Nat
  deriving DecidableEq, Repr

structure ConditionEntry where
  priority : Priority
  notify : Bool
  deriving DecidableEq, Repr

/-- Indexed entries of one table: a TABLELOAD's load, and what TABLEREAD returns (R191, R196). -/
inductive TableEntries where
  | ports (es : List (Fin 8 × PortEntry))
  | printers (es : List (Printer × PrinterEntry))
  | routes (es : List (Fin 128 × RouteEntry))
  | discounts (es : List (Fin 64 × DiscountEntry))
  | layouts (es : List (Fin 16 × List Segment))
  | tolerances (es : List (Fin 3 × ToleranceEntry))
  | conditions (es : List (Fin 18 × ConditionEntry))
  deriving DecidableEq, Repr

/-- The seven tables. -/
structure Tables where
  ports : Tab PortEntry 8
  printers : Tab PrinterEntry 12
  routes : Tab RouteEntry 128
  discounts : Tab DiscountEntry 64
  layouts : Tab (List Segment) 16
  tolerances : Tab ToleranceEntry 3
  conditions : Tab ConditionEntry 18
  deriving DecidableEq, Repr

/-! ### Jobs (Table 1-1) -/

/-- The request that an answer ends: its port, its tag and the number it was admitted under. The number is `none` for
a request that holds no unit of credit (R186). -/
structure Reply where
  window : Window
  tag : Byte
  number : Option Nat
  deriving DecidableEq, Repr

inductive JobKind where
  | ticket | test
  deriving DecidableEq, Repr

inductive JobState where
  | queued | sent | fed | printed | presented
  deriving DecidableEq, Repr

structure Job where
  kind : JobKind
  origin : Reply
  session : Nat
  stockType : StockType
  tender : Option Tender
  discount : Fin 64
  gross : Nat
  net : Nat
  fields : List Text
  printer : Printer
  image : Option ImageNumber
  /-- Serial and batch identifier; absent until fed. -/
  serial : Option (Nat × Nat)
  spare : Option Nat
  retry : Nat
  state : JobState
  deriving DecidableEq, Repr

/-! ### Printer ports (Table 3-1) -/

/-- A set of hold reasons, one place for each of `HoldReason`. -/
abbrev HoldSet := Tab Bool 9

/-- A set of sensed conditions, one place for each of `Sensed`, as the bits of a STATUS (Table 11-5). -/
abbrev SensedSet := Tab Bool 6

/-- A STATUS as the port keeps it (Table 3-2); the image numbers are bytes, `none` for 0xFF. -/
structure StatusReport where
  sensed : SensedSet
  fedThrough : Option Nat
  presentedThrough : Option Nat
  held : Nat
  deriving DecidableEq, Repr

inductive EntryPhase where
  | sent | fed | printed
  deriving DecidableEq, Repr

/-- The part of an image-window entry that a ticket image has (R40). -/
structure TicketPart where
  job : JobNumber
  doubleFed : Bool
  places : Nat
  deriving DecidableEq, Repr

/-- An entry of the image window; a line or slip entry has no ticket part (R40). -/
structure Entry where
  image : ImageNumber
  phase : EntryPhase
  ticket : Option TicketPart
  deriving DecidableEq, Repr

structure Port where
  state : PortState
  hold : HoldSet
  jamLatch : Bool
  /-- Printer kind and buffer depth; absent before the first CAPS. -/
  device : Option (DeviceKind × Nat)
  window : Nat
  entries : List Entry
  nextImage : ImageNumber
  unanswered : Nat
  /-- The timers: `none` when stopped, else the milliseconds the timer was started with. -/
  attachTimer : Option Nat
  pollTimer : Option Nat
  replyTimer : Option Nat
  absentTimer : Option Nat
  lastStatus : Option StatusReport
  audit : List Text
  /-- Each slip is its 24 lines (R38). -/
  slips : List (List Text)
  deriving DecidableEq, Repr

/-- One printed item of an image (R31). -/
structure Item where
  row : Nat
  column : Nat
  text : Text
  deriving DecidableEq, Repr

/-- The messages the controller sends a printer (Table 3-2). -/
inductive Message where
  | enquire
  | image (n : ImageNumber) (items : List Item)
  | line (n : ImageNumber) (text : Text)
  | slip (n : ImageNumber) (lines : List Text)
  | poll
  | serial (n : ImageNumber) (serial : Nat)
  deriving DecidableEq, Repr

/-! ### Stock (Table 4-1) -/

/-- A batch record. The printer of Table 4-1 is not a field: it is the port whose loaded batch the record is. -/
structure Batch where
  id : Nat
  stockType : StockType
  first : Nat
  last : Nat
  next : Nat
  issued : Nat
  spoiled : Nat
  unaccounted : Nat
  test : Nat
  inHand : Nat
  unrecorded : Nat
  state : BatchState
  closingOwed : Bool
  deriving DecidableEq, Repr

/-- The store list and the loaded batch of each printer (R72, R75). -/
structure Stock where
  store : List Batch
  loaded : Tab (Option Batch) 12
  deriving DecidableEq, Repr

/-! ### Sessions (Table 5-1) and declarations (Table 6-2) -/

structure Declaration where
  count : Nat
  declared : PerTender Nat
  expected : PerTender Int
  variance : PerTender Int
  allowance : PerTender Nat
  band : PerTender Band
  sessionBand : Band
  deriving DecidableEq, Repr

structure Session where
  number : Nat
  clerk : Nat
  window : Window
  state : SessionState
  float : Nat
  issueTotal : PerTender Nat
  voidTotal : PerTender Nat
  refundTotal : PerTender Nat
  unmatched : Nat
  issued : Nat
  voided : Nat
  refunds : Nat
  spoiled : Nat
  test : Nat
  saturated : Bool
  recovered : Bool
  jobs : Nat
  pendingRecords : Nat
  signOffOwed : Bool
  part : Option Declaration
  pendingPart : Option Declaration
  /-- The SIGNOFF that the written SIGN_OFF record will answer. -/
  signOff : Option Reply
  deriving DecidableEq, Repr

/-- An issue-log entry (Table 5-6). -/
structure LogEntry where
  serial : Nat
  stockType : StockType
  batch : Nat
  session : Nat
  tender : Tender
  net : Nat
  state : LogState
  deriving DecidableEq, Repr

structure SessionUnit where
  table : Tab (Option Session) 24
  nextNumber : Nat
  log : List LogEntry
  deriving DecidableEq, Repr

/-! ### The condition monitor -/

/-- A filter: its filtered state and its contrary run (R134). -/
structure Filter where
  present : Bool
  run : Nat
  deriving DecidableEq, Repr

/-- Which lasting unfiltered conditions of a printer are present (R131, R146). -/
structure Lasting where
  noAnswer : Bool
  protocol : Bool
  overrun : Bool
  stockLow : Bool
  stockMismatch : Bool
  deriving DecidableEq, Repr

/-- A fault record (Table 7-4). -/
structure FaultRecord where
  condition : Condition
  priority : Priority
  present : Bool
  occurrences : Nat
  first : Nat
  last : Nat
  deriving DecidableEq, Repr

/-- What is reported to the monitor. -/
inductive Report where
  | occurred (c : Condition)
  | ended (c : Condition)
  deriving DecidableEq, Repr

structure Monitor where
  filters : Tab (Tab Filter 6) 12
  lasting : Tab Lasting 12
  faults : List FaultRecord
  nextSequence : Nat
  /-- Reports that recovery has not yet recorded (R178 step 2). -/
  waiting : List Report
  deriving DecidableEq, Repr

/-! ### The journal -/

/-- Journal records (Table 8-1), with the contents that their slots carry (R202). -/
inductive JRecord where
  | batchIn (id : Nat) (stockType : StockType) (first last : Nat)
  | batchLoad (id : Nat) (printer : Printer)
  /-- BATCH_OUT with cause STOCKOUT. -/
  | batchOut (id : Nat) (printer : Printer) (next issued spoiled unaccounted test : Nat)
  /-- BATCH_OUT with cause EXHAUSTED. -/
  | batchEnd (id : Nat) (printer : Printer)
  | count (id : Nat) (printer : Printer) (next counted : Nat) (state : BatchState)
  | issue (session : Nat) (window : Window) (printer : Printer) (serial batch : Nat) (stockType : StockType)
      (tender : Tender) (discount : Fin 64) (gross net : Nat)
  | test (session : Nat) (window : Window) (printer : Printer) (serial batch : Nat) (stockType : StockType)
  | spoil (cause : SpoilCause) (session : Nat) (printer : Printer) (serial batch : Nat) (stockType : StockType)
  | void (serial : Nat) (stockType : StockType) (batch session : Nat) (tender : Tender) (net : Nat)
  /-- A REFUND; when matched, the serial, stock type and session of the entry. -/
  | refund (session : Nat) (window : Window) (tender : Tender) (amount : Nat)
      (matched : Option (Nat × StockType × Nat))
  | signOn (session clerk : Nat) (window : Window) (float : Nat)
  | signOff (session issued voided refunds spoiled test : Nat) (saturated recovered : Bool) (net : PerTender Int)
  | declare (session count : Nat) (declared allowance : PerTender Nat) (band : PerTender Band) (sessionBand : Band)
  | close (session : Nat) (band : Band) (acknowledged : Bool)
  | restart (cause : RestartCause) (lastReplayed : Nat)
  | checkpointBegin (nextSession following : Nat)
  | sessionA (session clerk : Nat) (window : Window) (state : SessionState) (float : Nat)
      (issued voided refunds spoiled test : Nat) (saturated recovered : Bool)
  | sessionB (session : Nat) (issueTotal voidTotal : PerTender Nat)
  | sessionC (session : Nat) (refundTotal : PerTender Nat) (unmatched : Nat)
  /-- SESSION_D; the count is 0 when the declaration part is absent. -/
  | sessionD (session count : Nat) (declared allowance : PerTender Nat) (band : PerTender Band) (sessionBand : Band)
  /-- BATCH_STATE; the printer is absent for a batch in the store list. -/
  | batchState (id : Nat) (stockType : StockType) (first last next issued spoiled unaccounted test : Nat)
      (state : BatchState) (printer : Option Printer) (position : Nat)
  | checkpointEnd (beginSequence between : Nat)
  deriving DecidableEq, Repr

/-- A claim on free room (R157). -/
inductive Claim where
  | engine (p : Printer)
  | batch (id : Nat)
  | session (number : Nat)
  deriving DecidableEq, Repr

/-- Writer states (Table 8-2). In CHECKPOINT the writer holds the records still to write (the one being written first),
whether the head's page is being erased, and whether the checkpoint has been abandoned (R161). -/
inductive Writer where
  | idle
  | writing
  | erasing
  | checkpoint (records : List JRecord) (erasing abandoned : Bool)
  | stopped
  deriving DecidableEq, Repr

/-! ### Answers -/

/-- A batch record as STOCKREAD shows it, with the printer it is loaded in. -/
structure BatchFigures where
  batch : Batch
  printer : Option Printer
  deriving DecidableEq, Repr

/-- A good journal record as JOURNALREAD returns it. -/
structure SlotFigures where
  kind : Nat
  sequence : Nat
  body : List Byte
  deriving DecidableEq, Repr

/-- The set of restart causes, one place for each of `RestartCause`. -/
abbrev CauseSet := Tab Bool 4

/-- A set of line conditions, one place for each of `LineFault`. -/
abbrev LineSet := Tab Bool 4

/-- What STATUSREAD shows of a printer (Table 10-5). -/
structure PrinterFigures where
  function : PortFunction
  supervisorHold : Bool
  state : PortState
  /-- The hold-reason set without SUPERVISOR. -/
  hold : HoldSet
  jamLatch : Bool
  /-- The sensed set of the last observed status; absent before the first STATUS. -/
  sensed : Option SensedSet
  window : Nat
  outstanding : Nat
  queued : Nat
  batch : Option (Nat × BatchState)
  queueLength : Nat
  deriving DecidableEq, Repr

/-- The writer's state as STATUSREAD shows it. -/
inductive WriterState where
  | idle | writing | erasing | checkpoint | stopped
  deriving DecidableEq, Repr

/-- The STATUSREAD answer (Table 10-5). -/
structure StatusFigures where
  printers : Tab PrinterFigures 12
  ports : Tab (Nat × LineSet) 8
  supply : Supply
  causes : CauseSet
  storeBusy : Bool
  reporting : Bool
  writer : WriterState
  headPage : Nat
  headSlot : Nat
  queued : Nat
  reserved : Nat
  claims : Nat
  nextSequence : Nat
  freeSessions : Nat
  nextSession : Nat
  freeStore : Nat
  faults : Nat
  urgentFaults : Nat
  deriving DecidableEq, Repr

/-- The figures an ANSWER carries after its code, as the owners' rules name them. -/
inductive Figures where
  | nothing
  /-- SIGNON, SIGNOFF: the session number (R96, R108). -/
  | session (number : Nat)
  /-- ISSUED (R19). -/
  | issued (serial batch : Nat) (printer : Printer) (net : Nat)
  /-- DONE of a TEST job (R20). -/
  | tested (serial batch : Nat) (printer : Printer)
  /-- RESET of a job that holds a serial (R22). -/
  | resetSerial (serial batch : Nat)
  /-- VOIDED (R103). -/
  | voided (serial : Nat) (tender : Tender) (net : Nat)
  /-- REFUNDED (R106). -/
  | refunded (amount : Nat) (matched : Bool)
  /-- STOCKIN: the store position (R77). -/
  | storePosition (n : Nat)
  /-- STOCKLOAD: the batch's remaining count (R78). -/
  | remaining (n : Nat)
  /-- STOCKOUT: the remainder's size (R79). -/
  | remainder (n : Nat)
  /-- STOCKCOUNT: the number counted (R80). -/
  | counted (n : Nat)
  /-- STOCKREAD: the records and the length of the store list (R81). -/
  | batches (records : List BatchFigures) (storeLength : Nat)
  /-- DECLARE (R122). -/
  | declared (number : Nat) (d : Declaration) (unmatched : Nat) (saturated recovered slipKept : Bool)
  /-- CLOSE (R126). -/
  | closed (number : Nat) (band : Band)
  /-- SESSIONREAD by number (R109). -/
  | sessionRecord (s : Session)
  /-- SESSIONREAD by window (R109). -/
  | windowSessions (current : Option Session) (others : List (Nat × SessionState))
  /-- FAULTREAD (R144). -/
  | faults (records : List FaultRecord) (total urgent nextSequence : Nat)
  /-- FAULTCLEAR (R145). -/
  | cleared (removed : Nat) (stillPresent : List Condition)
  /-- JOURNALREAD (R164). -/
  | journal (records : List SlotFigures) (newest : Nat) (gap : Bool)
  /-- TABLEREAD (R196). -/
  | table (entries : TableEntries) (total : Nat)
  /-- STATUSREAD (R197). -/
  | status (f : StatusFigures)
  deriving DecidableEq, Repr

/-- A frame of a send list (R188, R189). The mark of an ANSWER says that the controller restarts when the frame has
been sent (R181). -/
inductive OutFrame where
  | answer (tag : Byte) (code : AnswerCode) (figures : Figures) (restarts : Bool)
  | notice (c : Condition) (priority : Priority) (occurrences : Nat)
  deriving DecidableEq, Repr

/-- A received frame (Table 11-1). -/
structure Frame where
  kind : Byte
  tag : Byte
  body : List Byte
  deriving DecidableEq, Repr

/-- An unanswered request of a port, under the number it was admitted with. -/
structure OpenRequest where
  number : Nat
  tag : Byte
  deriving DecidableEq, Repr

structure OfficePort where
  buffer : List Frame
  /-- The unanswered requests in the order in which they arrived; the credit is their number (R186). -/
  unanswered : List OpenRequest
  conditions : LineSet
  sendList : List OutFrame
  deriving DecidableEq, Repr

/-- What a written record answers. -/
inductive Link where
  | nothing
  | job (j : JobNumber)
  | request (r : Reply) (code : AnswerCode) (figures : Figures)
  /-- A DECLARE, whose answer is made when its record is written (R121). -/
  | declare (r : Reply)
  deriving DecidableEq, Repr

structure Queued where
  record : JRecord
  link : Link
  deriving DecidableEq, Repr

structure Journal where
  /-- Journal memory: the bytes that are not 0xFF, addresses strictly rising. -/
  memory : List Host.Cell
  page : Fin 128
  slot : Fin 16
  pageSequence : Nat
  nextSequence : Nat
  queue : List Queued
  reserved : Nat
  claims : List Claim
  writer : Writer
  checkpointDue : Bool
  deriving DecidableEq, Repr

/-- A table-store write in progress and the request it will answer (R190). -/
inductive StoreWrite where
  | tableload (load : TableEntries) (reply : Option Reply)
  | reporting (on : Bool) (reply : Option Reply)
  | causeclear (reply : Option Reply)
  | cause (c : RestartCause)
  deriving DecidableEq, Repr

structure TableStore where
  /-- The store holds valid contents (R176, R195). -/
  valid : Bool
  tables : Tables
  reporting : Bool
  causes : CauseSet
  write : Option StoreWrite
  deriving DecidableEq, Repr

/-- Held in restart with the cause that recovery will take (R174); RECOVERING, and whether the port table has been
loaded (R176); RUNNING (R178). -/
inductive Phase where
  | restarting (cause : RestartCause)
  | recovering (cause : RestartCause) (tablesLoaded : Bool)
  | running
  deriving DecidableEq, Repr

end Sys2Proof.Machine
end

