-- ==== Sys2Proof/Machine/Fare.lean ====
section
/-! DEFINITION. The fare adjuster: the net fare of a gross fare under a discount entry (R26, R27). -/

namespace Sys2Proof.Machine

/-- The discounted amount q: the product P divided by 10,000 with the fraction discarded (R26). -/
def discounted (g : Nat) (e : DiscountEntry) : Nat := g * (10000 - e.rate) / 10000

/-- The rounded amount n1: the largest multiple of the unit that does not exceed q (R26). -/
def rounded (g : Nat) (e : DiscountEntry) : Nat := discounted g e - discounted g e % e.unit

/-- The net fare (R27). -/
def netFare (g : Nat) (e : DiscountEntry) : Nat := if g ≤ e.floor then g else max (rounded g e) e.floor

end Sys2Proof.Machine
end

