-- ==== Sys2Proof/Machine/Factory.lean ====
section
/-! DEFINITION. Factory contents of the table store (Table 10-4) and the empty record of each block. -/

namespace Sys2Proof.Machine

/-! ### Places in sets and tables -/

/-- All windows and all printers, in order. -/
def allWindows : List Window := [0, 1, 2, 3, 4, 5, 6, 7]

def allPrinters : List Printer := [0, 1, 2, 3, 4, 5, 6, 7, 8, 9, 10, 11]

def allJobs : List JobNumber :=
  [0, 1, 2, 3, 4, 5, 6, 7, 8, 9, 10, 11, 12, 13, 14, 15, 16, 17, 18, 19, 20, 21, 22, 23, 24, 25, 26, 27, 28, 29, 30, 31]

def allRecords : List (Fin 24) :=
  [0, 1, 2, 3, 4, 5, 6, 7, 8, 9, 10, 11, 12, 13, 14, 15, 16, 17, 18, 19, 20, 21, 22, 23]

def allPages : List Nat := List.range 128

/-- The place of a hold reason in a `HoldSet`, in the order of Table 3-1. -/
def HoldReason.place : HoldReason → Fin 9
  | .supervisor => 0
  | .noStock => 1
  | .stockUnverified => 2
  | .paperOut => 3
  | .coverOpen => 4
  | .headHot => 5
  | .jam => 6
  | .cutter => 7
  | .audit => 8

/-- The bit of a sensed condition in a STATUS (Table 11-5), and its place in Table 7-3. -/
def Sensed.place : Sensed → Fin 6
  | .paperLow => 0
  | .paperOut => 1
  | .coverOpen => 2
  | .headHot => 3
  | .jam => 4
  | .cutter => 5

/-- The sensed conditions in the order in which one STATUS's beginnings and endings are taken (R135). -/
def allSensed : List Sensed := [.paperLow, .paperOut, .coverOpen, .headHot, .jam, .cutter]

def LineFault.place : LineFault → Fin 4
  | .parity => 0
  | .framing => 1
  | .check => 2
  | .overrun => 3

def allLineFaults : List LineFault := [.parity, .framing, .check, .overrun]

/-- The code of a restart cause (Table 11-10). -/
def RestartCause.place : RestartCause → Fin 4
  | .powerOn => 0
  | .supplyFail => 1
  | .resetLine => 2
  | .resetFrame => 3

/-- The place of a condition in Table 7-3; RESTART has none there. -/
def Condition.place : Condition → Option (Fin 18)
  | .sensed _ .paperLow => some 0
  | .sensed _ .paperOut => some 1
  | .sensed _ .coverOpen => some 2
  | .sensed _ .headHot => some 3
  | .sensed _ .jam => some 4
  | .sensed _ .cutter => some 5
  | .printer _ .noAnswer => some 6
  | .printer _ .protocol => some 7
  | .printer _ .overrun => some 8
  | .printer _ .linkCheck => some 9
  | .printer _ .stockLow => some 10
  | .printer _ .stockMismatch => some 11
  | .window _ .parity => some 12
  | .window _ .framing => some 13
  | .window _ .check => some 14
  | .window _ .overrun => some 15
  | .office .journalFault => some 16
  | .office .supplyDip => some 17
  | .office .restart => none

def noHolds : HoldSet := Vector.replicate 9 false

def noLines : LineSet := Vector.replicate 4 false

def noCauses : CauseSet := Vector.replicate 4 false

/-! ### Factory contents (Table 10-4) -/

/-- Factory port table: W0 enabled, supervisor-capable and notice receiver, the others enabled only. -/
def factoryPorts : Tab PortEntry 8 :=
  (Vector.replicate 8 { enabled := true, supervisor := false, notices := false }).put 0
    { enabled := true, supervisor := true, notices := true }

def factoryPrinter : PrinterEntry :=
  { function := .off, auditSource := 0, windowCode := 0, filterDepth := 1, retryLimit := 0, pollInterval := 1000,
    selectTimeout := 200, auditRequired := false, lowStock := 0 }

/-- Factory discount table (R24): code 0 enabled, the others disabled. -/
def factoryDiscounts : Tab DiscountEntry 64 :=
  (Vector.replicate 64 { enabled := false, rate := 0, unit := 1, floor := 0 }).put 0
    { enabled := true, rate := 0, unit := 1, floor := 0 }

def factoryTolerance : ToleranceEntry := { fixed := none, proportion := 0, ceiling := 0, referral := 1 }

/-- Factory condition table (Table 7-3). -/
def factoryConditions : Tab ConditionEntry 18 :=
  let urgent : ConditionEntry := ⟨.urgent, true⟩
  let routine : ConditionEntry := ⟨.routine, true⟩
  let quiet : ConditionEntry := ⟨.routine, false⟩
  #v[routine, urgent, routine, urgent, urgent, urgent, urgent, urgent, urgent, quiet, routine, urgent, quiet, quiet, quiet,
     routine, urgent, urgent]

def factoryTables : Tables :=
  { ports := factoryPorts
    printers := Vector.replicate 12 factoryPrinter
    routes := Vector.replicate 128 { primary := none, alternate := none }
    discounts := factoryDiscounts
    layouts := Vector.replicate 16 []
    tolerances := Vector.replicate 3 factoryTolerance
    conditions := factoryConditions }

/-! ### Empty records -/

/-- An office-link port after a restart (R198). -/
def emptyOfficePort : OfficePort := { buffer := [], unanswered := [], conditions := noLines, sendList := [] }

/-- A printer port after power-on with empty stores (Table 3-1). -/
def emptyPort : Port :=
  { state := .unused, hold := noHolds, jamLatch := false, device := none, window := 1, entries := [], nextImage := 0,
    unanswered := 0, attachTimer := none, pollTimer := none, replyTimer := none, absentTimer := none,
    lastStatus := none, audit := [], slips := [] }

def emptyStock : Stock := { store := [], loaded := Vector.replicate 12 none }

def emptySessions : SessionUnit := { table := Vector.replicate 24 none, nextNumber := 1, log := [] }

/-- Filters all absent with run 0 (R136). -/
def emptyFilters : Tab (Tab Filter 6) 12 := Vector.replicate 12 (Vector.replicate 6 { present := false, run := 0 })

def noLasting : Lasting :=
  { noAnswer := false, protocol := false, overrun := false, stockLow := false, stockMismatch := false }

/-- The monitor with nothing recorded. -/
def emptyMonitor : Monitor :=
  { filters := emptyFilters, lasting := Vector.replicate 12 noLasting, faults := [], nextSequence := 1, waiting := [] }

/-- The RESTART fault record (R147). -/
def restartFault : FaultRecord :=
  { condition := .office .restart, priority := .urgent, present := false, occurrences := 1, first := 1, last := 1 }

end Sys2Proof.Machine
end

