-- ==== Sys2Proof/Machine/State.lean ====
section
/-! DEFINITION. The whole state of the controller, the ways a step can stop, and the state after reset. -/

namespace Sys2Proof.Machine

/-- Why the machine would stop. The spec gives the controller no event that stops it (a request is answered, a bad
report fails its port, a failed write puts the journal in STOPPED), so there is no constructor and no step faults. -/
inductive Fault where
  deriving DecidableEq, Repr

/-- Why a command would have no meaning. -/
inductive Refusal where
  /-- Raised by an arm of `exec` whose command has no meaning yet; safe. No arm raises it. -/
  | notModelled (mnemonic : String)
  deriving DecidableEq, Repr

/-- The state of the Arbeth 5120, block by block (Table 0-1). -/
structure State where
  phase : Phase
  supply : Supply
  office : Tab OfficePort 8
  store : TableStore
  jobs : Tab (Option Job) 32
  queues : Tab (List JobNumber) 12
  ports : Tab Port 12
  stock : Stock
  /-- The batches as the written records leave them (R160), begun at a restart from the recovered ones (log 60). -/
  standing : Stock
  sessions : SessionUnit
  monitor : Monitor
  journal : Journal
  /-- The model's own (log 25): the messages sent on the printer lines, in order. -/
  sent : List (Printer × Message)
  /-- The model's own (log 25): the number the next admitted request takes. -/
  nextRequest : Nat
  /-- The model's own (log 7): how many cut-short writes have drawn free bytes. -/
  draws : Nat
  /-- The model's own (log 25): the commands that wait, first in first out. -/
  pending : List Instr
  deriving DecidableEq, Repr

/-- DEDUCED (log 3): the controller at the moment it enters RUNNING after POWER_ON with empty stores (R178; the
chapters' tables of reset values, third column): factory tables, the cause set POWER_ON, one RESTART fault record, the
head entering page 0 with a checkpoint due (R167), and the RESTART record in the write queue (R178 step 1). -/
def State.reset : State :=
  { phase := .running
    supply := .normal
    office := Vector.replicate 8 emptyOfficePort
    store :=
      { valid := true, tables := factoryTables, reporting := false
        causes := noCauses.put RestartCause.powerOn.place true, write := none }
    jobs := Vector.replicate 32 none
    queues := Vector.replicate 12 []
    ports := Vector.replicate 12 emptyPort
    stock := emptyStock
    standing := emptyStock
    sessions := emptySessions
    monitor := { emptyMonitor with faults := [restartFault], nextSequence := 2 }
    journal :=
      { memory := [], page := 0, slot := 0, pageSequence := 1, nextSequence := 1
        queue := [{ record := .restart .powerOn 0, link := .nothing }]
        reserved := 0, claims := [], writer := .erasing, checkpointDue := true }
    sent := []
    nextRequest := 0
    draws := 0
    pending := [] }

end Sys2Proof.Machine
end

