-- ==== Sys2Proof/Machine/Codes.lean ====
section
/-! DEFINITION. The codes of enumerated values (Tables 10-2, 11-2, 11-4, 11-10) and back. -/

namespace Sys2Proof.Machine

/-- An either-or value: its first option is 0 (R199; log 9). -/
def firstIsZero (first : Bool) : Nat := if first then 0 else 1

/-- A yes-or-no value: 1 for yes (R199). -/
def yesIsOne (yes : Bool) : Nat := if yes then 1 else 0

/-- A two-valued code; no other code is in its list (R199). -/
def eitherOf (n : Nat) : Option Bool :=
  match n with
  | 0 => some true
  | 1 => some false
  | _ => none

def yesOf (n : Nat) : Option Bool :=
  match n with
  | 0 => some false
  | 1 => some true
  | _ => none

def Tender.code : Tender → Nat
  | .cash => 0
  | .card => 1
  | .warrant => 2

def tenderOf (n : Nat) : Option Tender :=
  match n with
  | 0 => some .cash
  | 1 => some .card
  | 2 => some .warrant
  | _ => none

def PortFunction.code : PortFunction → Nat
  | .ticket => 0
  | .audit => 1
  | .report => 2
  | .off => 3

def functionOf (n : Nat) : Option PortFunction :=
  match n with
  | 0 => some .ticket
  | 1 => some .audit
  | 2 => some .report
  | 3 => some .off
  | _ => none

def PortState.code : PortState → Nat
  | .unused => 0
  | .attaching => 1
  | .absent => 2
  | .active => 3
  | .held => 4
  | .failed => 5

def deviceKindOf (n : Nat) : Option DeviceKind :=
  match n with
  | 0 => some .ticket
  | 1 => some .roll
  | _ => none

def BatchState.code : BatchState → Nat
  | .store => 0
  | .loaded => 1
  | .unverified => 2
  | .exhausted => 3

def batchStateOf (n : Nat) : Option BatchState :=
  match n with
  | 0 => some .store
  | 1 => some .loaded
  | 2 => some .unverified
  | 3 => some .exhausted
  | _ => none

def SessionState.code : SessionState → Nat
  | .opening => 0
  | .open_ => 1
  | .closing => 2
  | .awaiting => 3
  | .declared => 4
  | .finishing => 5

def sessionStateOf (n : Nat) : Option SessionState :=
  match n with
  | 0 => some .opening
  | 1 => some .open_
  | 2 => some .closing
  | 3 => some .awaiting
  | 4 => some .declared
  | 5 => some .finishing
  | _ => none

def Band.code : Band → Nat
  | .balanced => 0
  | .over => 1
  | .short => 2
  | .referred => 3

def bandOf (n : Nat) : Option Band :=
  match n with
  | 0 => some .balanced
  | 1 => some .over
  | 2 => some .short
  | 3 => some .referred
  | _ => none

def SpoilCause.code : SpoilCause → Nat
  | .jam => 0
  | .doubleFeed => 1
  | .protocol => 2
  | .lost => 3
  | .reset => 4

def spoilCauseOf (n : Nat) : Option SpoilCause :=
  match n with
  | 0 => some .jam
  | 1 => some .doubleFeed
  | 2 => some .protocol
  | 3 => some .lost
  | 4 => some .reset
  | _ => none

def RestartCause.code (c : RestartCause) : Nat := c.place.val

def restartCauseOf (n : Nat) : Option RestartCause :=
  match n with
  | 0 => some .powerOn
  | 1 => some .supplyFail
  | 2 => some .resetLine
  | 3 => some .resetFrame
  | _ => none

def WriterState.code : WriterState → Nat
  | .idle => 0
  | .writing => 1
  | .erasing => 2
  | .checkpoint => 3
  | .stopped => 4

def Supply.code : Supply → Nat
  | .normal => 0
  | .warning => 1

def Priority.code : Priority → Nat
  | .urgent => 0
  | .routine => 1

def priorityOf (n : Nat) : Option Priority :=
  match n with
  | 0 => some .urgent
  | 1 => some .routine
  | _ => none

/-- Answer codes 0 to 22 in the order of Table 10-2 (Table 11-4). -/
def AnswerCode.code : AnswerCode → Nat
  | .done => 0
  | .issued => 1
  | .voided => 2
  | .refunded => 3
  | .busy => 4
  | .windowFull => 5
  | .noSession => 6
  | .noRoute => 7
  | .noStock => 8
  | .printerUnavailable => 9
  | .jammed => 10
  | .cancelled => 11
  | .notCancellable => 12
  | .unknownSerial => 13
  | .notVoidable => 14
  | .notRefundable => 15
  | .notPermitted => 16
  | .badValue => 17
  | .wrongState => 18
  | .tableFull => 19
  | .referred => 20
  | .reset => 21
  | .journalStopped => 22

/-- The request kind a frame kind names (Table 11-2); ANSWER, NOTICE and every other code name none. -/
def requestKindOf (kind : Byte) : Option RequestKind :=
  match kind.toNat with
  | 0x10 => some .signon
  | 0x11 => some .signoff
  | 0x12 => some .issue
  | 0x13 => some .testprint
  | 0x14 => some .cancel
  | 0x15 => some .void
  | 0x16 => some .refund
  | 0x17 => some .tableload
  | 0x18 => some .tableread
  | 0x19 => some .stockin
  | 0x1A => some .stockload
  | 0x1B => some .stockout
  | 0x1C => some .stockcount
  | 0x1D => some .stockread
  | 0x1E => some .hold
  | 0x1F => some .release
  | 0x20 => some .declare
  | 0x21 => some .close
  | 0x22 => some .sessionread
  | 0x23 => some .faultread
  | 0x24 => some .faultclear
  | 0x25 => some .reporting
  | 0x26 => some .journalread
  | 0x27 => some .statusread
  | 0x28 => some .causeclear
  | 0x29 => some .reset
  | _ => none

/-- The frame kinds of ANSWER and NOTICE. -/
def answerKind : Byte := 0x01

def noticeKind : Byte := 0x02

/-- Clerk kinds are taken from every enabled port, management kinds from supervisor-capable ports (Table 10-1). -/
def RequestKind.management : RequestKind → Bool
  | .signon | .signoff | .issue | .testprint | .cancel | .void | .refund => false
  | _ => true

/-- The source code of a condition (Table 11-4). -/
def Condition.sourceCode : Condition → Nat
  | .sensed p _ => p.val
  | .printer p _ => p.val
  | .window w _ => 0x20 + w.val
  | .office _ => 0x40

/-- The condition code: its place in Table 7-3; RESTART is 18 (Table 11-4). -/
def Condition.conditionCode (c : Condition) : Nat :=
  match c.place with
  | some i => i.val
  | none => 18

/-- The condition that a source code and a condition code name, if Table 7-1 gives it for that source (R145). -/
def conditionOf (source condition : Nat) : Option Condition :=
  if source = 0x40 then
    match condition with
    | 16 => some (.office .journalFault)
    | 17 => some (.office .supplyDip)
    | 18 => some (.office .restart)
    | _ => none
  else if h : source < 12 then
    match condition with
    | 0 => some (.sensed ⟨source, h⟩ .paperLow)
    | 1 => some (.sensed ⟨source, h⟩ .paperOut)
    | 2 => some (.sensed ⟨source, h⟩ .coverOpen)
    | 3 => some (.sensed ⟨source, h⟩ .headHot)
    | 4 => some (.sensed ⟨source, h⟩ .jam)
    | 5 => some (.sensed ⟨source, h⟩ .cutter)
    | 6 => some (.printer ⟨source, h⟩ .noAnswer)
    | 7 => some (.printer ⟨source, h⟩ .protocol)
    | 8 => some (.printer ⟨source, h⟩ .overrun)
    | 9 => some (.printer ⟨source, h⟩ .linkCheck)
    | 10 => some (.printer ⟨source, h⟩ .stockLow)
    | 11 => some (.printer ⟨source, h⟩ .stockMismatch)
    | _ => none
  else if h : 0x20 ≤ source ∧ source < 0x28 then
    match condition with
    | 12 => some (.window ⟨source - 0x20, by omega⟩ .parity)
    | 13 => some (.window ⟨source - 0x20, by omega⟩ .framing)
    | 14 => some (.window ⟨source - 0x20, by omega⟩ .check)
    | 15 => some (.window ⟨source - 0x20, by omega⟩ .overrun)
    | _ => none
  else none

end Sys2Proof.Machine
end

