-- ==== Sys2Proof/Machine/Compose.lean ====
section
/-! DEFINITION. The ticket composer: figures, ticket images, audit lines and cash-up slips (Chapter 2). -/

namespace Sys2Proof.Machine

/-! ### Figures (R30) -/

/-- Characters as the codes that stand on a line (R199). -/
def chars (cs : List Char) : Text := cs.map fun c => BitVec.ofNat 8 c.toNat

/-- The low `k` decimal digits of a number, with leading zeros. -/
def fixedDigits : Nat → Nat → Text
  | 0, _ => []
  | k + 1, n => BitVec.ofNat 8 (48 + n / 10 ^ k % 10) :: fixedDigits k n

/-- Whole units without leading zeros, one digit when they are 0. -/
def wholeUnits (n : Nat) : Text :=
  match (fixedDigits 12 n).dropWhile (· == 0x30#8) with
  | [] => [0x30#8]
  | t => t

/-- An amount in pence: units, a decimal point, two digits. -/
def amountText (n : Nat) : Text := wholeUnits (n / 100) ++ chars ['.'] ++ fixedDigits 2 (n % 100)

/-- A signed amount: a minus sign before the units when it is negative. -/
def signedText (i : Int) : Text := (if i < 0 then chars ['-'] else []) ++ amountText i.natAbs

/-- A window: W and its digit. -/
def windowText (w : Window) : Text := chars ['W'] ++ fixedDigits 1 w.val

/-- A text set to end at the last of `n` columns. -/
def setRight (n : Nat) (t : Text) : Text := List.replicate (n - t.length) 0x20#8 ++ t

/-- A text filled with spaces to `n` columns. -/
def fillTo (n : Nat) (t : Text) : Text := t ++ List.replicate (n - t.length) 0x20#8

/-! ### Ticket images (R29, R31 to R33) -/

/-- The serial placeholder: six placeholder characters of code 0x1F (R33, R200). -/
def serialPlaceholder : Text := List.replicate 6 0x1F#8

/-- The text a segment yields for a job, given the clerk of its session and the batch loaded at its printer (Table
2-4); a FIELD the job does not have yields the empty text, which produces no item (R31). -/
def segmentText (j : Job) (clerk batch : Nat) : SegmentKind → Text
  | .fixed t => t
  | .field n => j.fields.getD n []
  | .serial => serialPlaceholder
  | .net => amountText j.net
  | .gross => amountText j.gross
  | .discount => fixedDigits 2 j.discount.val
  | .window => windowText j.origin.window
  | .clerk => fixedDigits 4 clerk
  | .batch => fixedDigits 5 batch

/-- The item of a segment: its text cut at column 47, and no item when the text is empty (R32). -/
def itemOf (j : Job) (clerk batch : Nat) (g : Segment) : Option Item :=
  let text := (segmentText j clerk batch g.kind).take (Config.printColumns - g.column)
  if text.isEmpty then none else some { row := g.row, column := g.column, text }

/-- The image: the items in the order of the segments (R31). -/
def composeImage (layout : List Segment) (j : Job) (clerk batch : Nat) : List Item :=
  layout.filterMap (itemOf j clerk batch)

/-! ### Audit lines (R36) -/

/-- CASH, CARD or WARR by the tender; TEST for a TEST job (Table 2-7). -/
def tenderText : Option Tender → Text
  | some .cash => chars ['C', 'A', 'S', 'H']
  | some .card => chars ['C', 'A', 'R', 'D']
  | some .warrant => chars ['W', 'A', 'R', 'R']
  | none => chars ['T', 'E', 'S', 'T']

/-- The 33 characters of a job's audit line. -/
def auditLine (j : Job) (clerk serial : Nat) : Text :=
  fixedDigits 6 serial ++ chars [' '] ++ windowText j.origin.window ++ chars [' '] ++ fixedDigits 4 clerk ++
    chars [' '] ++ fixedDigits 2 j.stockType.val ++ chars [' '] ++ tenderText j.tender ++ chars [' '] ++
    fixedDigits 2 j.discount.val ++ chars [' '] ++ setRight 7 (amountText j.net)

/-! ### Cash-up slips (R38) -/

def bandText : Band → Text
  | .balanced => chars ['B', 'A', 'L', 'A', 'N', 'C', 'E', 'D']
  | .over => chars ['O', 'V', 'E', 'R']
  | .short => chars ['S', 'H', 'O', 'R', 'T']
  | .referred => chars ['R', 'E', 'F', 'E', 'R', 'R', 'E', 'D']

/-- A slip line: a label from column 0 and a figure from column 14, padded to 26 characters (R38, Table 11-5). -/
def slipLine (label : List Char) (figure : Text) : Text := fillTo 26 (fillTo 14 (chars label) ++ figure)

/-- The six lines of one tender (Table 2-8). -/
def tenderLines (name : List Char) (expected : Int) (declared : Nat) (variance : Int) (allowance : Nat) (band : Band) :
    List Text :=
  [slipLine name [],
   slipLine ['E', 'X', 'P', 'E', 'C', 'T', 'E', 'D'] (signedText expected),
   slipLine ['D', 'E', 'C', 'L', 'A', 'R', 'E', 'D'] (amountText declared),
   slipLine ['V', 'A', 'R', 'I', 'A', 'N', 'C', 'E'] (signedText variance),
   slipLine ['A', 'L', 'L', 'O', 'W', 'A', 'N', 'C', 'E'] (amountText allowance),
   slipLine ['B', 'A', 'N', 'D'] (bandText band)]

/-- The 24 lines of a cash-up slip (Table 2-8). -/
def composeSlip (x : Session) (d : Declaration) : List Text :=
  [slipLine ['S', 'E', 'S', 'S', 'I', 'O', 'N'] (fixedDigits 5 x.number),
   slipLine ['C', 'L', 'E', 'R', 'K'] (fixedDigits 4 x.clerk),
   slipLine ['W', 'I', 'N', 'D', 'O', 'W'] (windowText x.window),
   slipLine ['F', 'L', 'O', 'A', 'T'] (amountText x.float)] ++
  tenderLines ['C', 'A', 'S', 'H'] d.expected.cash d.declared.cash d.variance.cash d.allowance.cash d.band.cash ++
  tenderLines ['C', 'A', 'R', 'D'] d.expected.card d.declared.card d.variance.card d.allowance.card d.band.card ++
  tenderLines ['W', 'A', 'R', 'R', 'A', 'N', 'T'] d.expected.warrant d.declared.warrant d.variance.warrant
    d.allowance.warrant d.band.warrant ++
  [slipLine ['S', 'E', 'S', 'S', 'I', 'O', 'N', ' ', 'B', 'A', 'N', 'D'] (bandText d.sessionBand),
   slipLine ['D', 'E', 'C', 'L', 'A', 'R', 'A', 'T', 'I', 'O', 'N'] (fixedDigits 1 d.count)]

end Sys2Proof.Machine
end

