-- ==== Sys2Proof/Machine/Memory.lean ====
section
/-! DEFINITION. Journal memory: 65,536 bytes held as the bytes that are not erased (R148, R202). -/

namespace Sys2Proof.Machine

/-- What an address that nothing has written reads as: erased memory reads 0xFF in every byte (R202). -/
def Memory.erased : Byte := 0xFF

/-- Bytes of journal memory (R148). -/
def Memory.size : Nat := 65536

/-- The byte at an address. -/
def Memory.read : List Host.Cell → Nat → Byte
  | [], _ => Memory.erased
  | c :: m, a => if c.1 = a then c.2 else if a < c.1 then Memory.erased else Memory.read m a

/-- The memory with one byte written; writing 0xFF removes the entry, so that equal memories are equal lists. -/
def Memory.write : List Host.Cell → Nat → Byte → List Host.Cell
  | [], a, b => if b = Memory.erased then [] else [(a, b)]
  | c :: m, a, b =>
    if a < c.1 then (if b = Memory.erased then c :: m else (a, b) :: c :: m)
    else if a = c.1 then (if b = Memory.erased then m else (a, b) :: m)
    else c :: Memory.write m a b

/-- Bytes written one after another from an address on. -/
def Memory.writeAll : List Host.Cell → Nat → List Byte → List Host.Cell
  | m, _, [] => m
  | m, a, b :: bs => Memory.writeAll (Memory.write m a b) (a + 1) bs

/-- `n` bytes from an address on. -/
def Memory.readAll (m : List Host.Cell) (a n : Nat) : List Byte := (List.range n).map fun i => Memory.read m (a + i)

/-- The memory with `n` bytes from an address on erased. -/
def Memory.erase (m : List Host.Cell) (a n : Nat) : List Host.Cell := m.filter fun c => !(a ≤ c.1 && c.1 < a + n)

/-- The canonical form: addresses strictly rising and inside memory, no entry equal to what an unlisted address
reads as. -/
abbrev Memory.wf (m : List Host.Cell) : Prop :=
  m.Pairwise (fun c d => c.1 < d.1) ∧ ∀ c ∈ m, c.2 ≠ Memory.erased ∧ c.1 < Memory.size

/-- The address of a slot of a page (R148). -/
def slotAddress (page : Fin 128) (slot : Fin 16) : Nat := page.val * Config.pageBytes + slot.val * Config.slotBytes

/-- The 32 bytes of a slot. -/
def readSlot (m : List Host.Cell) (page : Fin 128) (slot : Fin 16) : List Byte :=
  Memory.readAll m (slotAddress page slot) Config.slotBytes

end Sys2Proof.Machine
end

