-- ==== Sys2Proof/Machine/Wire.lean ====
section
/-! DEFINITION. Numbers as bytes, the CRC-16 and the frames of both kinds of line (Section 11.1). -/

namespace Sys2Proof.Machine

/-- The low `n` bytes of a number, high byte first (R199). -/
def numberBytes : Nat → Nat → List Byte
  | 0, _ => []
  | n + 1, v => BitVec.ofNat 8 (v / 256 ^ n) :: numberBytes n v

/-- The number that bytes spell, high byte first (R199). -/
def numberOf (bs : List Byte) : Nat := bs.foldl (fun n b => n * 256 + b.toNat) 0

/-- A signed number in `n` bytes of two's complement (R199). -/
def signedBytes (n : Nat) (i : Int) : List Byte := numberBytes n (i % (256 ^ n : Nat)).toNat

/-- One bit of the CRC register: generator x^16 + x^12 + x^5 + 1 (R199). -/
def crcBit (r : BitVec 16) : BitVec 16 := if r.msb then (r <<< 1) ^^^ 0x1021#16 else r <<< 1

/-- One byte fed most significant bit first (R199). -/
def crcByte (r : BitVec 16) (b : Byte) : BitVec 16 :=
  crcBit (crcBit (crcBit (crcBit (crcBit (crcBit (crcBit (crcBit (r ^^^ (b.zeroExtend 16 <<< 8)))))))))

/-- The CRC-16 of R199: the register starts at 0xFFFF and no final value is added. -/
def crc16 (bs : List Byte) : Nat := (bs.foldl crcByte 0xFFFF#16).toNat

/-- A line's start byte (Table 11-1). -/
def officeStart : Byte := 0xA5

def printerStart : Byte := 0x5A

/-- The bytes of a frame (Table 11-1). -/
def frameBytes (start : Byte) (f : Frame) : List Byte :=
  let checked := numberBytes 2 f.body.length ++ f.kind :: f.tag :: f.body
  start :: (checked ++ numberBytes 2 (crc16 checked))

/-! ### What the bytes of a line spell (R184, R199)

The commands of the table are whole frames; these functions say which command a run of line bytes is. -/

/-- A byte as a receiver finds it. -/
structure LineByte where
  byte : Byte
  parityError : Bool
  framingError : Bool
  deriving DecidableEq, Repr

/-- What a receiver finds on its line. -/
inductive LineEvent where
  /-- A well-formed frame. -/
  | frame (f : Frame)
  /-- A frame discarded, and whether the byte at fault had a parity error, a framing error. -/
  | discarded (parity framing : Bool)
  deriving DecidableEq, Repr

/-- Whether the bytes after a start byte, none of them in error, end a frame: `none` when more bytes are needed. -/
def frameEnds (bs : List Byte) : Option LineEvent :=
  if bs.length < 2 then none
  else
    let n := numberOf (bs.take 2)
    if Config.maxBody < n then some (.discarded false false)
    else if bs.length < n + 6 then none
    else
      let checked := bs.take (n + 4)
      if crc16 checked = numberOf (bs.drop (n + 4)) then
        some (.frame { kind := bs.getD 2 0, tag := bs.getD 3 0, body := (bs.drop 4).take n })
      else some (.discarded false false)

/-- The events of a run of line bytes: the receiver's bytes of the frame in progress (none while it waits for a start
byte), then the bytes that arrive (R184). -/
def lineEvents (start : Byte) : Option (List Byte) → List LineByte → List LineEvent
  | _, [] => []
  | none, b :: rest =>
    if b.byte = start && !b.parityError && !b.framingError then lineEvents start (some []) rest
    else lineEvents start none rest
  | some got, b :: rest =>
    if b.parityError || b.framingError then .discarded b.parityError b.framingError :: lineEvents start none rest
    else
      match frameEnds (got ++ [b.byte]) with
      | none => lineEvents start (some (got ++ [b.byte])) rest
      | some e => e :: lineEvents start none rest

/-- The command that an event of an office-link line is. -/
def officeCommand (w : Window) : LineEvent → Instr
  | .frame f => .frameReceived w f.kind f.tag f.body
  | .discarded parity framing => .frameDiscarded w parity framing

/-- The command that an event of a printer line is; the tag is ignored (Table 11-2, R41, R199). -/
def printerCommand (p : Printer) : LineEvent → Instr
  | .discarded _ _ => .printerMessageDiscarded p
  | .frame f =>
    match f.kind.toNat with
    | 0xC1 => .caps p f.body
    | 0xC2 => .fed p f.body
    | 0xC3 => .doublefed p f.body
    | 0xC4 => .printed p f.body
    | 0xC5 => .presented p f.body
    | 0xC6 => .jammed p f.body
    | 0xC7 => .status p f.body
    | _ => .nonReportMessage p f.kind

end Sys2Proof.Machine
end

