-- ==== Sys2Proof/Machine/Operands.lean ====
section
/-! DEFINITION. Operand forms: the bodies of requests and of printer reports, read from their bytes (R199, R201).

A reader answers `none` when the body fails the shape check of R187. A value that has the right shape and lies
outside its range is left to the owner's checks; for a TABLELOAD the readers note it (R192). -/

namespace Sys2Proof.Machine

/-! ### Readers -/

/-- A number of `n` bytes at the head of a body, and the rest. -/
def readNumber (n : Nat) (bs : List Byte) : Option (Nat × List Byte) :=
  if bs.length < n then none else some (numberOf (bs.take n), bs.drop n)

/-- A body ends here. -/
def readEnd (bs : List Byte) : Option Unit := if bs.isEmpty then some () else none

/-- A character of a text: 0x20 to 0x7E (R199). -/
def isCharacter (b : Byte) : Bool := 0x20 ≤ b.toNat && b.toNat ≤ 0x7E

/-- A text: a length byte and that many characters (R199). -/
def readText (bs : List Byte) : Option (Text × List Byte) := do
  let (n, bs) ← readNumber 1 bs
  if bs.length < n then none
  else if (bs.take n).all isCharacter then some (bs.take n, bs.drop n) else none

/-- `n` things, one after another. -/
def readMany {α : Type} (read : List Byte → Option (α × List Byte)) : Nat → List Byte → Option (List α × List Byte)
  | 0, bs => some ([], bs)
  | n + 1, bs => do
    let (x, bs) ← read bs
    let (xs, bs) ← readMany read n bs
    return (x :: xs, bs)

/-! ### Clerk requests -/

/-- SIGNON: clerk number and float (R95). -/
def readSignon (bs : List Byte) : Option (Nat × Nat) := do
  let (clerk, bs) ← readNumber 2 bs
  let (float, bs) ← readNumber 4 bs
  readEnd bs
  return (clerk, float)

/-- A request with no arguments. -/
def readNothing (bs : List Byte) : Option Unit := readEnd bs

structure IssueBody where
  stockType : Nat
  tender : Tender
  discount : Nat
  gross : Nat
  fields : List Text
  deriving DecidableEq, Repr

/-- ISSUE (Table 11-3). -/
def readIssue (bs : List Byte) : Option IssueBody := do
  let (stockType, bs) ← readNumber 1 bs
  let (tender, bs) ← readNumber 1 bs
  let tender ← tenderOf tender
  let (discount, bs) ← readNumber 1 bs
  let (gross, bs) ← readNumber 4 bs
  let (count, bs) ← readNumber 1 bs
  let (fields, bs) ← readMany readText count bs
  readEnd bs
  return { stockType, tender, discount, gross, fields }

/-- A request whose body is one number of one byte: TESTPRINT's stock type, CANCEL's tag, a printer, FAULTREAD's
position. -/
def readByte (bs : List Byte) : Option Nat := do
  let (n, bs) ← readNumber 1 bs
  readEnd bs
  return n

/-- VOID: stock type and serial (R102). -/
def readVoid (bs : List Byte) : Option (Nat × Nat) := do
  let (stockType, bs) ← readNumber 1 bs
  let (serial, bs) ← readNumber 4 bs
  readEnd bs
  return (stockType, serial)

structure RefundBody where
  stockType : Nat
  serial : Option Nat
  tender : Tender
  amount : Nat
  deriving DecidableEq, Repr

/-- REFUND: a serial that is none is 0xFFFFFFFF (R104, R201). -/
def readRefund (bs : List Byte) : Option RefundBody := do
  let (stockType, bs) ← readNumber 1 bs
  let (serial, bs) ← readNumber 4 bs
  let (tender, bs) ← readNumber 1 bs
  let tender ← tenderOf tender
  let (amount, bs) ← readNumber 4 bs
  readEnd bs
  return { stockType, serial := if serial = 0xFFFFFFFF then none else some serial, tender, amount }

/-! ### Table loads -/

/-- A table entry read with its index; `none` when a value lies outside its range (R192). -/
abbrev Read (α : Type) := Nat × Option α

def readYes (bs : List Byte) : Option (Bool × List Byte) := do
  let (n, bs) ← readNumber 1 bs
  let b ← yesOf n
  return (b, bs)

/-- Port table entry. Table 10-3 names Enabled, supervisor-capable and notice receiver and does not say of which form they
are: DEDUCED, yes-or-no values, 1 for a port that is enabled, capable or a receiver (R199; log 9). -/
def readPortEntry (bs : List Byte) : Option (Read PortEntry × List Byte) := do
  let (index, bs) ← readNumber 1 bs
  let (enabled, bs) ← readYes bs
  let (supervisor, bs) ← readYes bs
  let (notices, bs) ← readYes bs
  return ((index, some { enabled, supervisor, notices }), bs)

/-- Filter depth clamped to 1 to 4 (R192). -/
def clampDepth (n : Nat) : Nat := if n < 1 then 1 else if 4 < n then 4 else n

/-- Poll interval clamped to 100 to 2,000 ms and rounded down to a multiple of 100 ms (R192). -/
def clampPoll (n : Nat) : Nat := if n < 100 then 100 else if 2000 < n then 2000 else n - n % 100

/-- The values of a printer table entry checked; an AUDIT port must not name itself as its source (R192). -/
def checkedPrinter (index source : Nat) (e : PrinterEntry) : Option PrinterEntry :=
  if e.windowCode ≤ 15 ∧ e.retryLimit ≤ 3 ∧ 50 ≤ e.selectTimeout ∧ e.selectTimeout ≤ 1000 ∧ e.lowStock ≤ 500 ∧
      ¬ (e.function = .audit ∧ source = index) then
    (index? 12 source).map fun auditSource => { e with auditSource }
  else none

/-- Printer table entry; its audit source port is settled by the check. -/
def readPrinterEntry (bs : List Byte) : Option (Read PrinterEntry × List Byte) := do
  let (index, bs) ← readNumber 1 bs
  let (function, bs) ← readNumber 1 bs
  let function ← functionOf function
  let (source, bs) ← readNumber 1 bs
  let (windowCode, bs) ← readNumber 1 bs
  let (depth, bs) ← readNumber 1 bs
  let (retryLimit, bs) ← readNumber 1 bs
  let (poll, bs) ← readNumber 2 bs
  let (selectTimeout, bs) ← readNumber 2 bs
  let (auditRequired, bs) ← readYes bs
  let (lowStock, bs) ← readNumber 2 bs
  let entry : PrinterEntry :=
    { function, auditSource := 0, windowCode, filterDepth := clampDepth depth, retryLimit
      pollInterval := clampPoll poll, selectTimeout, auditRequired, lowStock }
  return ((index, checkedPrinter index source entry), bs)

/-- A place of a route: a printer or none (R199). -/
def placeOf (n : Nat) : Option (Option Printer) := if n = 0xFF then some none else (index? 12 n).map some

/-- Route table entry. -/
def readRouteEntry (bs : List Byte) : Option (Read RouteEntry × List Byte) := do
  let (index, bs) ← readNumber 1 bs
  let (primary, bs) ← readNumber 1 bs
  let (alternate, bs) ← readNumber 1 bs
  let entry : Option RouteEntry := do return { primary := ← placeOf primary, alternate := ← placeOf alternate }
  return ((index, entry), bs)

/-- Discount table entry; code 0 is fixed (R24, R192). -/
def readDiscountEntry (bs : List Byte) : Option (Read DiscountEntry × List Byte) := do
  let (index, bs) ← readNumber 1 bs
  let (enabled, bs) ← readYes bs
  let (rate, bs) ← readNumber 2 bs
  let (unit, bs) ← readNumber 1 bs
  let (floor, bs) ← readNumber 4 bs
  let entry : DiscountEntry := { enabled, rate, unit, floor }
  let fixed : DiscountEntry := { enabled := true, rate := 0, unit := 1, floor := 0 }
  let good := rate ≤ 10000 ∧ (unit = 1 ∨ unit = 5 ∨ unit = 10) ∧ floor ≤ 99999 ∧ (index = 0 → entry = fixed)
  return ((index, if good then some entry else none), bs)

/-- A layout segment; the inner `none` when a value is out of range (R28, R201). -/
def readSegment (bs : List Byte) : Option (Option Segment × List Byte) := do
  let (row, bs) ← readNumber 1 bs
  let (column, bs) ← readNumber 1 bs
  let (kind, bs) ← readNumber 1 bs
  let placed := row ≤ 11 ∧ column ≤ 47
  let plain (k : SegmentKind) : Option Segment := if placed then some { row, column, kind := k } else none
  match kind with
  | 0 => do
    let (text, bs) ← readText bs
    return (if text.length ≤ 24 then plain (.fixed text) else none, bs)
  | 1 => do
    let (n, bs) ← readNumber 1 bs
    return (if n ≤ 7 then plain (.field n) else none, bs)
  | 2 => some (plain .serial, bs)
  | 3 => some (plain .net, bs)
  | 4 => some (plain .gross, bs)
  | 5 => some (plain .discount, bs)
  | 6 => some (plain .window, bs)
  | 7 => some (plain .clerk, bs)
  | 8 => some (plain .batch, bs)
  | _ => none

/-- Every member is there. -/
def allSome {α : Type} : List (Option α) → Option (List α)
  | [] => some []
  | none :: _ => none
  | some x :: xs => (allSome xs).map (x :: ·)

/-- Layout table entry. -/
def readLayoutEntry (bs : List Byte) : Option (Read (List Segment) × List Byte) := do
  let (index, bs) ← readNumber 1 bs
  let (count, bs) ← readNumber 1 bs
  let (segments, bs) ← readMany readSegment count bs
  return ((index, if count ≤ 16 then allSome segments else none), bs)

/-- Tolerance table entry; an UNSET fixed allowance is 0xFFFFFFFF and counts as 0 against the ceiling (R192, R201). -/
def readToleranceEntry (bs : List Byte) : Option (Read ToleranceEntry × List Byte) := do
  let (index, bs) ← readNumber 1 bs
  let (fixed, bs) ← readNumber 4 bs
  let (proportion, bs) ← readNumber 2 bs
  let (ceiling, bs) ← readNumber 4 bs
  let (referral, bs) ← readNumber 4 bs
  let allowance : Option Nat := if fixed = 0xFFFFFFFF then none else some fixed
  let good := allowance.getD 0 ≤ 99999 ∧ proportion ≤ 1000 ∧ ceiling ≤ 999999 ∧ 1 ≤ referral ∧ referral ≤ 9999999 ∧
    (ceiling = 0 ∨ allowance.getD 0 ≤ ceiling)
  return ((index, if good then some { fixed := allowance, proportion, ceiling, referral } else none), bs)

/-- Condition table entry; notify enable is set or clear (log 9). -/
def readConditionEntry (bs : List Byte) : Option (Read ConditionEntry × List Byte) := do
  let (index, bs) ← readNumber 1 bs
  let (priority, bs) ← readNumber 1 bs
  let priority ← priorityOf priority
  let (notify, bs) ← readNumber 1 bs
  let notify ← eitherOf notify
  return ((index, some { priority, notify }), bs)

/-- The entries of a load when every value check of R192 that needs no stored entry holds: 1 to 8 of them, indexes in
the table's range and no index twice. -/
def indexedEntries {α : Type} (n : Nat) (es : List (Read α)) : Option (List (Fin n × α)) :=
  if 1 ≤ es.length ∧ es.length ≤ 8 ∧ (es.map (·.1)).Nodup then
    allSome (es.map fun e => do return (← index? n e.1, ← e.2))
  else none

/-- The entries of one table in a TABLELOAD body. -/
def readEntries {α : Type} (read : List Byte → Option (Read α × List Byte)) (n : Nat)
    (make : List (Fin n × α) → TableEntries) (count : Nat) (bs : List Byte) : Option (Option TableEntries) := do
  let (es, bs) ← readMany read count bs
  readEnd bs
  return (indexedEntries n es).map make

/-- TABLELOAD (R201); the inner `none` when a value check of R192 fails. -/
def readTableload (bs : List Byte) : Option (Option TableEntries) := do
  let (table, bs) ← readNumber 1 bs
  let (count, bs) ← readNumber 1 bs
  match table with
  | 0 => readEntries readPortEntry 8 .ports count bs
  | 1 => readEntries readPrinterEntry 12 .printers count bs
  | 2 => readEntries readRouteEntry 128 .routes count bs
  | 3 => readEntries readDiscountEntry 64 .discounts count bs
  | 4 => readEntries readLayoutEntry 16 .layouts count bs
  | 5 => readEntries readToleranceEntry 3 .tolerances count bs
  | 6 => readEntries readConditionEntry 18 .conditions count bs
  | _ => some none

/-- TABLEREAD: table identifier, first index, count (R196). -/
def readTableread (bs : List Byte) : Option (Nat × Nat × Nat) := do
  let (table, bs) ← readNumber 1 bs
  let (first, bs) ← readNumber 1 bs
  let (count, bs) ← readNumber 1 bs
  readEnd bs
  return (table, first, count)

/-! ### Other management requests -/

structure StockinBody where
  id : Nat
  stockType : Nat
  first : Nat
  last : Nat
  deriving DecidableEq, Repr

/-- STOCKIN (R77). -/
def readStockin (bs : List Byte) : Option StockinBody := do
  let (id, bs) ← readNumber 2 bs
  let (stockType, bs) ← readNumber 1 bs
  let (first, bs) ← readNumber 4 bs
  let (last, bs) ← readNumber 4 bs
  readEnd bs
  return { id, stockType, first, last }

/-- STOCKLOAD: batch identifier and printer (R78). -/
def readStockload (bs : List Byte) : Option (Nat × Nat) := do
  let (id, bs) ← readNumber 2 bs
  let (p, bs) ← readNumber 1 bs
  readEnd bs
  return (id, p)

/-- STOCKCOUNT: printer and observed next serial (R80). -/
def readStockcount (bs : List Byte) : Option (Nat × Nat) := do
  let (p, bs) ← readNumber 1 bs
  let (n, bs) ← readNumber 4 bs
  readEnd bs
  return (p, n)

/-- The selector of a STOCKREAD, its forms numbered from 0 (R81, R201). -/
inductive StockSelector where
  | printer (n : Nat)
  | batch (n : Nat)
  | position (n : Nat)
  deriving DecidableEq, Repr

def readStockread (bs : List Byte) : Option StockSelector := do
  let (form, bs) ← readNumber 1 bs
  match form with
  | 0 => (readByte bs).map .printer
  | 1 => do
    let (n, bs) ← readNumber 2 bs
    readEnd bs
    return .batch n
  | 2 => (readByte bs).map .position
  | _ => none

/-- DECLARE: session number and the three declared amounts (R115). -/
def readDeclare (bs : List Byte) : Option (Nat × PerTender Nat) := do
  let (session, bs) ← readNumber 2 bs
  let (cash, bs) ← readNumber 4 bs
  let (card, bs) ← readNumber 4 bs
  let (warrant, bs) ← readNumber 4 bs
  readEnd bs
  return (session, { cash, card, warrant })

/-- CLOSE: session number and the acknowledgement, given or not given (R124; log 9). -/
def readClose (bs : List Byte) : Option (Nat × Bool) := do
  let (session, bs) ← readNumber 2 bs
  let (given, bs) ← readNumber 1 bs
  let given ← eitherOf given
  readEnd bs
  return (session, given)

/-- The selector of a SESSIONREAD (R109, R201). -/
inductive SessionSelector where
  | number (n : Nat)
  | window (n : Nat)
  deriving DecidableEq, Repr

def readSessionread (bs : List Byte) : Option SessionSelector := do
  let (form, bs) ← readNumber 1 bs
  match form with
  | 0 => do
    let (n, bs) ← readNumber 2 bs
    readEnd bs
    return .number n
  | 1 => (readByte bs).map .window
  | _ => none

/-- A pair of source code and condition code. -/
def readPair (bs : List Byte) : Option ((Nat × Nat) × List Byte) := do
  let (source, bs) ← readNumber 1 bs
  let (condition, bs) ← readNumber 1 bs
  return ((source, condition), bs)

/-- FAULTCLEAR: a count and the pairs (R145; log 10). -/
def readFaultclear (bs : List Byte) : Option (List (Nat × Nat)) := do
  let (count, bs) ← readNumber 1 bs
  let (pairs, bs) ← readMany readPair count bs
  readEnd bs
  return pairs

/-- A body of one either-or byte: REPORTING on or off, RESET FULL or PATH (R143, R180; log 9). -/
def readEither (bs : List Byte) : Option Bool := do
  let n ← readByte bs
  eitherOf n

/-- JOURNALREAD: starting sequence number and count (R164). -/
def readJournalread (bs : List Byte) : Option (Nat × Nat) := do
  let (start, bs) ← readNumber 4 bs
  let (count, bs) ← readNumber 1 bs
  readEnd bs
  return (start, count)

/-! ### Printer reports (Table 11-5) -/

/-- CAPS: kind and buffer depth. -/
def readCaps (bs : List Byte) : Option (DeviceKind × Nat) := do
  let (kind, bs) ← readNumber 1 bs
  let kind ← deviceKindOf kind
  let (depth, bs) ← readNumber 1 bs
  readEnd bs
  return (kind, depth)

/-- STATUS; bits 6 and 7 of the sensed set are zero (log 31). Table 3-2 gives the held count 0 to 8, and no rule calls a
greater one malformed: DESIGN CHOICE, it is taken as it comes (log 46). -/
def readStatus (bs : List Byte) : Option StatusReport := do
  let (sensed, bs) ← readNumber 1 bs
  let (fed, bs) ← readNumber 1 bs
  let (presented, bs) ← readNumber 1 bs
  let (held, bs) ← readNumber 1 bs
  readEnd bs
  if sensed < 64 then
    return { sensed := #v[sensed.testBit 0, sensed.testBit 1, sensed.testBit 2, sensed.testBit 3, sensed.testBit 4,
                          sensed.testBit 5]
             fedThrough := if fed = 0xFF then none else some fed
             presentedThrough := if presented = 0xFF then none else some presented
             held }
  else none

end Sys2Proof.Machine
end

