-- ==== Sys2Proof/Machine/Ops.lean ====
section
/-! DEFINITION. Access to the state's records, answers and printer-line messages. -/

namespace Sys2Proof.Machine

/-! ### Records of the state -/

def State.setPort (s : State) (p : Printer) (x : Port) : State := { s with ports := s.ports.put p x }

def State.setOffice (s : State) (w : Window) (x : OfficePort) : State := { s with office := s.office.put w x }

def State.setJob (s : State) (j : JobNumber) (x : Option Job) : State := { s with jobs := s.jobs.put j x }

def State.setQueue (s : State) (p : Printer) (q : List JobNumber) : State := { s with queues := s.queues.put p q }

def State.setLoaded (s : State) (p : Printer) (b : Option Batch) : State :=
  { s with stock := { s.stock with loaded := s.stock.loaded.put p b } }

/-- The stored entries of a printer, of a port, of a window and stock type (R190). -/
def State.printerEntry (s : State) (p : Printer) : PrinterEntry := s.store.tables.printers.at p

def State.portEntry (s : State) (w : Window) : PortEntry := s.store.tables.ports.at w

def routeIndex (w : Window) (ty : StockType) : Fin 128 := ⟨w.val * 16 + ty.val, by omega⟩

def State.routeEntry (s : State) (w : Window) (ty : StockType) : RouteEntry :=
  s.store.tables.routes.at (routeIndex w ty)

/-- A printer's function in the printer table. -/
def State.function (s : State) (p : Printer) : PortFunction := (s.printerEntry p).function

def State.loaded (s : State) (p : Printer) : Option Batch := s.stock.loaded.at p

/-- A port's credit: the number of its unanswered requests (R186). -/
def OfficePort.credit (o : OfficePort) : Nat := o.unanswered.length

def Journal.stopped (j : Journal) : Bool := j.writer == .stopped

/-! ### Frames and messages that leave -/

/-- A frame joins the tail of a port's send list (R188, R189). -/
def State.queueFrame (s : State) (w : Window) (f : OutFrame) : State :=
  let o := s.office.at w
  s.setOffice w { o with sendList := o.sendList ++ [f] }

/-- The request's unit of credit is returned; a request that holds none returns none (R186). -/
def OfficePort.close (o : OfficePort) (number : Option Nat) : OfficePort :=
  match number with
  | some n => { o with unanswered := o.unanswered.filter fun r => r.number != n }
  | none => o

/-- The request is answered: its ANSWER joins the send list and its unit of credit is returned (R188). -/
def State.answer (s : State) (r : Reply) (code : AnswerCode) (figures : Figures) : State :=
  let o := (s.office.at r.window).close r.number
  s.setOffice r.window { o with sendList := o.sendList ++ [.answer r.tag code figures false] }

/-- An answer with a code alone. -/
def State.refuse (s : State) (r : Reply) (code : AnswerCode) : State := s.answer r code .nothing

/-- An answer to a request that may have been ended by a path reset already. -/
def State.answerIf (s : State) (r : Option Reply) (code : AnswerCode) (figures : Figures) : State :=
  match r with
  | some r => s.answer r code figures
  | none => s

/-- A message is sent on a printer line (R41). -/
def State.transmit (s : State) (p : Printer) (m : Message) : State := { s with sent := s.sent ++ [(p, m)] }

/-! ### Sums per tender -/

def PerTender.get {α : Type} (x : PerTender α) : Tender → α
  | .cash => x.cash
  | .card => x.card
  | .warrant => x.warrant

def PerTender.set {α : Type} (x : PerTender α) (t : Tender) (a : α) : PerTender α :=
  match t with
  | .cash => { x with cash := a }
  | .card => { x with card := a }
  | .warrant => { x with warrant := a }

def PerTender.zip {α β γ : Type} (f : α → β → γ) (x : PerTender α) (y : PerTender β) : PerTender γ :=
  { cash := f x.cash y.cash, card := f x.card y.card, warrant := f x.warrant y.warrant }

end Sys2Proof.Machine
end

