-- ==== Sys2Proof/Machine/Flags.lean ====
section
/-! DEFINITION. Hold-reason bits, the presence of conditions, fault records and notices (Chapter 7). -/

namespace Sys2Proof.Machine

/-! ### Hold-reason bits -/

def Port.holds (x : Port) (r : HoldReason) : Bool := x.hold.at r.place

def Port.setHold (x : Port) (r : HoldReason) (on : Bool) : Port := { x with hold := x.hold.put r.place on }

/-- The set is empty (R49). -/
def Port.free (x : Port) : Bool := x.hold == noHolds

/-- The hold reason of a sensed condition; PAPER_LOW is none (R135). -/
def Sensed.holdReason : Sensed → Option HoldReason
  | .paperLow => none
  | .paperOut => some .paperOut
  | .coverOpen => some .coverOpen
  | .headHot => some .headHot
  | .jam => some .jam
  | .cutter => some .cutter

/-! ### Presence -/

/-- Conditions whose every occurrence ends in the event that raises it (R130, R133). -/
def Condition.momentary : Condition → Bool
  | .printer _ .linkCheck => true
  | .office _ => true
  | _ => false

def Lasting.set (x : Lasting) (c : PrinterFault) (on : Bool) : Lasting :=
  match c with
  | .noAnswer => { x with noAnswer := on }
  | .protocol => { x with protocol := on }
  | .overrun => { x with overrun := on }
  | .linkCheck => x
  | .stockLow => { x with stockLow := on }
  | .stockMismatch => { x with stockMismatch := on }

/-- Whether a condition is present, as the block that raises it keeps it: the lasting conditions of a printer, the
latched line conditions of a port. A sensed condition's presence is its filter's (R134), a momentary one has none. -/
def State.markPresent (s : State) (c : Condition) (on : Bool) : State :=
  match c with
  | .printer p k =>
    { s with monitor := { s.monitor with lasting := s.monitor.lasting.put p ((s.monitor.lasting.at p).set k on) } }
  | .window w k =>
    let o := s.office.at w
    s.setOffice w { o with conditions := o.conditions.put k.place on }
  | .sensed _ _ => s
  | .office _ => s

/-! ### Fault records and notices -/

/-- The condition table's priority for a condition; RESTART's records are URGENT (R133, R137). -/
def State.priorityOf (s : State) (c : Condition) : Priority :=
  match c.place with
  | some i => (s.store.tables.conditions.at i).priority
  | none => .urgent

/-- The condition table's notify enable; RESTART sends no NOTICE (R133, R142). -/
def State.notifies (s : State) (c : Condition) : Bool :=
  match c.place with
  | some i => (s.store.tables.conditions.at i).notify
  | none => false

def nextFaultSequence (n : Nat) : Nat := if n = Config.lastFaultSequence then 1 else n + 1

/-- The fault queue after an occurrence that takes number `n` (R139). -/
def recordedFaults (faults : List FaultRecord) (c : Condition) (priority : Priority) (n : Nat) : List FaultRecord :=
  let present := !c.momentary
  if faults.any (fun f => f.condition == c) then
    faults.map fun f =>
      if f.condition = c then
        { f with priority := priority, present := present, occurrences := min 255 (f.occurrences + 1), last := n }
      else f
  else
    faults ++ [{ condition := c, priority := priority, present := present, occurrences := 1, first := n, last := n }]

/-- The occurrences a queued record of the condition shows. -/
def occurrencesOf (faults : List FaultRecord) (c : Condition) : Nat :=
  match faults.find? (fun f => f.condition == c) with
  | some f => f.occurrences
  | none => 0

def OutFrame.isNotice : OutFrame → Bool
  | .notice .. => true
  | .answer .. => false

/-- A NOTICE joins a port's send list when the port is enabled and a notice receiver and its list holds fewer than 4
NOTICE frames (R189). -/
def State.queueNotice (s : State) (f : OutFrame) (w : Window) : State :=
  let e := s.portEntry w
  if e.enabled && e.notices && ((s.office.at w).sendList.countP OutFrame.isNotice < Config.noticeLimit : Bool) then
    s.queueFrame w f
  else s

/-- The NOTICE of an occurrence just recorded (R142). -/
def State.notice (s : State) (c : Condition) : State :=
  if s.store.reporting && s.notifies c then
    allWindows.foldl (fun s w =>
      s.queueNotice (.notice c (s.priorityOf c) (occurrencesOf s.monitor.faults c)) w) s
  else s

/-- An occurrence is recorded and noticed (R139, R141, R142). -/
def State.recordOccurrence (s : State) (c : Condition) : State :=
  let n := s.monitor.nextSequence
  let m := { s.monitor with
    faults := recordedFaults s.monitor.faults c (s.priorityOf c) n, nextSequence := nextFaultSequence n }
  State.notice { s with monitor := m } c

/-- An ending is recorded (R140). -/
def State.recordEnding (s : State) (c : Condition) : State :=
  let faults := s.monitor.faults.map fun f => if f.condition = c then { f with present := false } else f
  { s with monitor := { s.monitor with faults := faults } }

def State.recordReport (s : State) (r : Report) : State :=
  match r with
  | .occurred c => s.recordOccurrence c
  | .ended c => s.recordEnding c

/-- A report reaches the monitor: recorded at once when RUNNING, kept for step 2 of R178 during recovery. -/
def State.report (s : State) (r : Report) : State :=
  match s.phase with
  | .running => s.recordReport r
  | .recovering _ _ => { s with monitor := { s.monitor with waiting := s.monitor.waiting ++ [r] } }
  | .restarting _ => s

/-- A condition is raised: one occurrence (R130). -/
def State.raise (s : State) (c : Condition) : State := (s.markPresent c true).report (.occurred c)

/-- A condition ends. -/
def State.endCondition (s : State) (c : Condition) : State := (s.markPresent c false).report (.ended c)

/-- Every window condition of a port that is present ends (R132, R185). -/
def State.endLineConditions (s : State) (w : Window) : State :=
  allLineFaults.foldl (fun s k =>
    if (s.office.at w).conditions.at k.place then s.endCondition (.window w k) else s) s

end Sys2Proof.Machine
end

