-- ==== Sys2Proof/Machine/Record.lean ====
section
/-! DEFINITION. Journal records as the bytes of a slot and back (R149, R202, Tables 11-6 and 11-7). -/

namespace Sys2Proof.Machine

/-! ### Packing fields into a body -/

/-- Bits of a record body (R202). -/
def bodyBits : Nat := 200

/-- Fields, each a width in bits and a value, packed most significant first into `bits` bits, zeros after the last. -/
def packFields : Nat → List (Nat × Nat) → Nat
  | _, [] => 0
  | bits, f :: fs => (f.2 % 2 ^ f.1) * 2 ^ (bits - f.1) + packFields (bits - f.1) fs

/-- The values of fields of the given widths. -/
def unpackFields : Nat → List Nat → Nat → List Nat
  | _, [], _ => []
  | bits, w :: ws, v => v / 2 ^ (bits - w) :: unpackFields (bits - w) ws (v % 2 ^ (bits - w))

/-- A signed figure in `w` bits of two's complement. -/
def signedField (w : Nat) (i : Int) : Nat := (i % (2 ^ w : Nat)).toNat

/-- The signed figure that a two's complement field holds. -/
def signedOf (w n : Nat) : Int := if n < 2 ^ (w - 1) then n else (n : Int) - (2 ^ w : Nat)

/-! ### Kinds and fields -/

/-- The record kind code (Table 11-7). -/
def JRecord.code : JRecord → Nat
  | .batchIn .. => 0x01
  | .batchLoad .. => 0x02
  | .batchOut .. => 0x03
  | .batchEnd .. => 0x03
  | .count .. => 0x04
  | .issue .. => 0x05
  | .test .. => 0x06
  | .spoil .. => 0x07
  | .void .. => 0x08
  | .refund .. => 0x09
  | .signOn .. => 0x0A
  | .signOff .. => 0x0B
  | .declare .. => 0x0C
  | .close .. => 0x0D
  | .restart .. => 0x0E
  | .checkpointBegin .. => 0x0F
  | .sessionA .. => 0x10
  | .sessionB .. => 0x11
  | .sessionC .. => 0x12
  | .sessionD .. => 0x13
  | .batchState .. => 0x14
  | .checkpointEnd .. => 0x15

/-- The widths of a kind's fields in the order of Table 8-1, each the fewest bits that hold its range (R202). A code
that Table 11-7 does not give has none. -/
def fieldWidths (code : Nat) : Option (List Nat) :=
  match code with
  | 0x01 => some [16, 4, 20, 20]
  | 0x02 => some [16, 4]
  | 0x03 => some [1, 16, 4, 20, 11, 11, 11, 11]
  | 0x04 => some [16, 4, 20, 11, 2]
  | 0x05 => some [16, 3, 4, 20, 16, 4, 2, 6, 20, 20]
  | 0x06 => some [16, 3, 4, 20, 16, 4]
  | 0x07 => some [3, 16, 4, 20, 16, 4]
  | 0x08 => some [20, 4, 16, 16, 2, 20]
  | 0x09 => some [16, 3, 2, 20, 1, 20, 4, 16]
  | 0x0A => some [16, 14, 3, 24]
  | 0x0B => some [16, 16, 16, 16, 16, 16, 1, 1, 32, 32, 32]
  | 0x0C => some [16, 2, 30, 30, 30, 28, 28, 28, 2, 2, 2, 2]
  | 0x0D => some [16, 2, 1]
  | 0x0E => some [2, 32]
  | 0x0F => some [16, 8]
  | 0x10 => some [16, 14, 3, 3, 24, 16, 16, 16, 16, 16, 1, 1]
  | 0x11 => some [16, 30, 30, 30, 30, 30, 30]
  | 0x12 => some [16, 30, 30, 30, 30]
  | 0x13 => some [16, 2, 30, 30, 30, 28, 28, 28, 2, 2, 2, 2]
  | 0x14 => some [16, 4, 20, 20, 20, 11, 11, 11, 11, 2, 4, 5]
  | 0x15 => some [32, 8]
  | _ => none

/-- The values of a record's fields in the order of Table 8-1. A printer that is absent is 15 (R202); the fields that
a BATCH_OUT of cause EXHAUSTED and an unmatched REFUND do not have are zeros. -/
def JRecord.values : JRecord → List Nat
  | .batchIn id ty first last => [id, ty.val, first, last]
  | .batchLoad id p => [id, p.val]
  | .batchOut id p next issued spoiled unaccounted tests => [0, id, p.val, next, issued, spoiled, unaccounted, tests]
  | .batchEnd id p => [1, id, p.val, 0, 0, 0, 0, 0]
  | .count id p next counted st => [id, p.val, next, counted, st.code]
  | .issue session w p serial batch ty tender discount gross net =>
    [session, w.val, p.val, serial, batch, ty.val, tender.code, discount.val, gross, net]
  | .test session w p serial batch ty => [session, w.val, p.val, serial, batch, ty.val]
  | .spoil cause session p serial batch ty => [cause.code, session, p.val, serial, batch, ty.val]
  | .void serial ty batch session tender net => [serial, ty.val, batch, session, tender.code, net]
  | .refund session w tender amount (some (serial, ty, entry)) =>
    [session, w.val, tender.code, amount, firstIsZero true, serial, ty.val, entry]
  | .refund session w tender amount none => [session, w.val, tender.code, amount, firstIsZero false, 0, 0, 0]
  | .signOn session clerk w float => [session, clerk, w.val, float]
  | .signOff session issued voided refunds spoiled tests sat rec net =>
    [session, issued, voided, refunds, spoiled, tests, firstIsZero sat, firstIsZero rec,
     signedField 32 net.cash, signedField 32 net.card, signedField 32 net.warrant]
  | .declare session n d a b sb =>
    [session, n, d.cash, d.card, d.warrant, a.cash, a.card, a.warrant, b.cash.code, b.card.code, b.warrant.code,
     sb.code]
  | .close session band ack => [session, band.code, firstIsZero ack]
  | .restart cause last => [cause.code, last]
  | .checkpointBegin next following => [next, following]
  | .sessionA session clerk w st float issued voided refunds spoiled tests sat rec =>
    [session, clerk, w.val, st.code, float, issued, voided, refunds, spoiled, tests, firstIsZero sat, firstIsZero rec]
  | .sessionB session i v => [session, i.cash, i.card, i.warrant, v.cash, v.card, v.warrant]
  | .sessionC session r unmatched => [session, r.cash, r.card, r.warrant, unmatched]
  | .sessionD session n d a b sb =>
    [session, n, d.cash, d.card, d.warrant, a.cash, a.card, a.warrant, b.cash.code, b.card.code, b.warrant.code,
     sb.code]
  | .batchState id ty first last next issued spoiled unaccounted tests st p position =>
    [id, ty.val, first, last, next, issued, spoiled, unaccounted, tests, st.code,
     match p with
     | some q => q.val
     | none => 15,
     position]
  | .checkpointEnd begin between => [begin, between]

/-- The record that a kind code and field values spell; `none` when a value is no code of its enumeration (a printer of
12 to 14 among them, and 15 but in BATCH_STATE), which R166 calls a good record still: DESIGN CHOICE, replay hands it to
no block (log 50). -/
def recordOf (code : Nat) (vs : List Nat) : Option JRecord :=
  match code, vs with
  | 0x01, [id, ty, first, last] => do return .batchIn id (← index? 16 ty) first last
  | 0x02, [id, p] => do return .batchLoad id (← index? 12 p)
  | 0x03, [cause, id, p, next, issued, spoiled, unaccounted, tests] => do
    let p ← index? 12 p
    if cause = 0 then return .batchOut id p next issued spoiled unaccounted tests else return .batchEnd id p
  | 0x04, [id, p, next, counted, st] => do return .count id (← index? 12 p) next counted (← batchStateOf st)
  | 0x05, [session, w, p, serial, batch, ty, tender, discount, gross, net] => do
    return .issue session (← index? 8 w) (← index? 12 p) serial batch (← index? 16 ty) (← tenderOf tender)
      (← index? 64 discount) gross net
  | 0x06, [session, w, p, serial, batch, ty] => do
    return .test session (← index? 8 w) (← index? 12 p) serial batch (← index? 16 ty)
  | 0x07, [cause, session, p, serial, batch, ty] => do
    return .spoil (← spoilCauseOf cause) session (← index? 12 p) serial batch (← index? 16 ty)
  | 0x08, [serial, ty, batch, session, tender, net] => do
    return .void serial (← index? 16 ty) batch session (← tenderOf tender) net
  | 0x09, [session, w, tender, amount, mark, serial, ty, entry] => do
    let w ← index? 8 w
    let tender ← tenderOf tender
    if mark = 0 then return .refund session w tender amount (some (serial, ← index? 16 ty, entry))
    else return .refund session w tender amount none
  | 0x0A, [session, clerk, w, float] => do return .signOn session clerk (← index? 8 w) float
  | 0x0B, [session, issued, voided, refunds, spoiled, tests, sat, rec, cash, card, warrant] => do
    return .signOff session issued voided refunds spoiled tests (← eitherOf sat) (← eitherOf rec)
      { cash := signedOf 32 cash, card := signedOf 32 card, warrant := signedOf 32 warrant }
  | 0x0C, [session, n, d0, d1, d2, a0, a1, a2, b0, b1, b2, sb] => do
    return .declare session n ⟨d0, d1, d2⟩ ⟨a0, a1, a2⟩ ⟨← bandOf b0, ← bandOf b1, ← bandOf b2⟩ (← bandOf sb)
  | 0x0D, [session, band, ack] => do return .close session (← bandOf band) (← eitherOf ack)
  | 0x0E, [cause, last] => do return .restart (← restartCauseOf cause) last
  | 0x0F, [next, following] => some (.checkpointBegin next following)
  | 0x10, [session, clerk, w, st, float, issued, voided, refunds, spoiled, tests, sat, rec] => do
    return .sessionA session clerk (← index? 8 w) (← sessionStateOf st) float issued voided refunds spoiled tests
      (← eitherOf sat) (← eitherOf rec)
  | 0x11, [session, i0, i1, i2, v0, v1, v2] => some (.sessionB session ⟨i0, i1, i2⟩ ⟨v0, v1, v2⟩)
  | 0x12, [session, r0, r1, r2, unmatched] => some (.sessionC session ⟨r0, r1, r2⟩ unmatched)
  | 0x13, [session, n, d0, d1, d2, a0, a1, a2, b0, b1, b2, sb] => do
    return .sessionD session n ⟨d0, d1, d2⟩ ⟨a0, a1, a2⟩ ⟨← bandOf b0, ← bandOf b1, ← bandOf b2⟩ (← bandOf sb)
  | 0x14, [id, ty, first, last, next, issued, spoiled, unaccounted, tests, st, p, position] => do
    let printer ← if p = 15 then some none else (index? 12 p).map some
    return .batchState id (← index? 16 ty) first last next issued spoiled unaccounted tests (← batchStateOf st) printer
      position
  | 0x15, [begin, between] => some (.checkpointEnd begin between)
  | _, _ => none

/-! ### Slots -/

/-- The 25 body bytes of a record (R202). -/
def JRecord.body (r : JRecord) : List Byte :=
  numberBytes 25 (packFields bodyBits (((fieldWidths r.code).getD []).zip r.values))

/-- The 32 bytes of a record's slot (Table 11-6). -/
def recordSlot (sequence : Nat) (r : JRecord) : List Byte :=
  let checked := BitVec.ofNat 8 r.code :: (numberBytes 4 sequence ++ r.body)
  checked ++ numberBytes 2 (crc16 checked)

/-- The record that a kind code and a body spell, if any (log 50). -/
def recordOfBody (code : Nat) (body : List Byte) : Option JRecord := do
  let widths ← fieldWidths code
  recordOf code (unpackFields bodyBits widths (numberOf body))

/-- The 512 bytes of a page just erased, with its header (R150, Table 11-6). -/
def freshPage (sequence : Nat) : List Byte :=
  let s := numberBytes 4 sequence
  s ++ numberBytes 2 (crc16 s) ++ List.replicate 506 Memory.erased

/-- What replay finds in a slot (R149, R166, R202). -/
inductive SlotContents where
  | erased
  /-- The check fails or the kind is not a record kind: a torn write. -/
  | torn
  | good (kind sequence : Nat) (body : List Byte)
  deriving DecidableEq, Repr

/-- A slot whose 32 bytes are all 0xFF is erased whatever its check would give (R202). -/
def slotContents (bs : List Byte) : SlotContents :=
  if bs.all (· == Memory.erased) then .erased
  else
    let kind := (bs.headD 0).toNat
    if crc16 (bs.take 30) = numberOf (bs.drop 30) && (fieldWidths kind).isSome then
      .good kind (numberOf ((bs.drop 1).take 4)) ((bs.drop 5).take 25)
    else .torn

/-- The page sequence number of a header that holds (R148). -/
def headerSequence (bs : List Byte) : Option Nat :=
  if bs.all (· == Memory.erased) then none
  else if crc16 (bs.take 4) = numberOf ((bs.drop 4).take 2) then some (numberOf (bs.take 4))
  else none

end Sys2Proof.Machine
end

