-- ==== Sys2Proof/Machine/Session.lean ====
section
/-! DEFINITION. Session records: finding them, their totals and counts, and the cash-up figures (Chapters 5 and 6). -/

namespace Sys2Proof.Machine

/-! ### Finding sessions -/

/-- A window's current session is OPENING, OPEN or CLOSING (R94). -/
def Session.current (x : Session) : Bool := x.state == .opening || x.state == .open_ || x.state == .closing

/-- The lowest record of the table that holds a session with a property. -/
def SessionUnit.find (u : SessionUnit) (q : Session → Bool) : Option (Fin 24) :=
  allRecords.find? fun i => (u.table.at i).any q

def SessionUnit.get (u : SessionUnit) (q : Session → Bool) : Option Session := (u.find q).bind u.table.at

/-- The live session with a number. -/
def State.session (s : State) (number : Nat) : Option Session := s.sessions.get fun x => x.number == number

/-- The window's current session (R94). -/
def State.currentSession (s : State) (w : Window) : Option Session :=
  s.sessions.get fun x => x.window == w && x.current

/-- The window's OPEN session. -/
def State.openSession (s : State) (w : Window) : Option Session :=
  s.sessions.get fun x => x.window == w && x.state == .open_

/-- The lowest free record (R92). -/
def SessionUnit.freeRecord (u : SessionUnit) : Option (Fin 24) := allRecords.find? fun i => (u.table.at i).isNone

/-- The live sessions in increasing order of session number. -/
def insertByNumber (x : Session) : List Session → List Session
  | [] => [x]
  | y :: ys => if x.number ≤ y.number then x :: y :: ys else y :: insertByNumber x ys

def SessionUnit.live (u : SessionUnit) : List Session :=
  (allRecords.filterMap u.table.at).foldr insertByNumber []

/-- A change of the live session with a number. Outside replay a number used here is that of a live session; a replayed
record may name one that replay does not hold, and R111 and R129 do not speak of it: DESIGN CHOICE, it changes nothing
(log 49). -/
def SessionUnit.modify (u : SessionUnit) (number : Nat) (f : Session → Session) : SessionUnit :=
  match u.find fun x => x.number == number with
  | some i => { u with table := u.table.put i ((u.table.at i).map f) }
  | none => u

def State.modifySession (s : State) (number : Nat) (f : Session → Session) : State :=
  { s with sessions := s.sessions.modify number f }

/-! ### Session numbers (R93) -/

def nextSessionNumber (n : Nat) : Nat := if n = 65535 then 1 else n + 1

/-- The first number from `n` on that no live record holds. With 24 records it is among the first 25. -/
def freeSessionNumber (u : SessionUnit) : Nat → Nat → Nat
  | 0, n => n
  | fuel + 1, n =>
    if (u.find fun x => x.number == n).isSome then freeSessionNumber u fuel (nextSessionNumber n) else n

/-- A record just signed on (R95). -/
def newSession (number clerk : Nat) (w : Window) (float : Nat) (state : SessionState) : Session :=
  { number, clerk, window := w, state, float
    issueTotal := ⟨0, 0, 0⟩, voidTotal := ⟨0, 0, 0⟩, refundTotal := ⟨0, 0, 0⟩, unmatched := 0
    issued := 0, voided := 0, refunds := 0, spoiled := 0, test := 0, saturated := false, recovered := false
    jobs := 0, pendingRecords := 0, signOffOwed := false, part := none, pendingPart := none, signOff := none }

/-! ### Totals and counts (R97, R98) -/

/-- An addition that stops at a limit (R97). -/
def capped (limit a b : Nat) : Nat := min limit (a + b)

/-- An addition would pass its limit (R97). -/
def passes (limit a b : Nat) : Bool := limit < a + b

/-- A total and a count raised, SATURATED set when either passes its limit (R97). -/
def Session.addIssued (x : Session) (t : Tender) (net : Nat) : Session :=
  { x with
    issueTotal := x.issueTotal.set t (capped Config.totalLimit (x.issueTotal.get t) net)
    issued := capped Config.countLimit x.issued 1
    saturated := x.saturated || passes Config.totalLimit (x.issueTotal.get t) net ||
      passes Config.countLimit x.issued 1 }

def Session.addVoided (x : Session) (t : Tender) (net : Nat) : Session :=
  { x with
    voidTotal := x.voidTotal.set t (capped Config.totalLimit (x.voidTotal.get t) net)
    voided := capped Config.countLimit x.voided 1
    saturated := x.saturated || passes Config.totalLimit (x.voidTotal.get t) net ||
      passes Config.countLimit x.voided 1 }

def Session.addRefund (x : Session) (t : Tender) (amount : Nat) (matched : Bool) : Session :=
  let extra := if matched then 0 else amount
  { x with
    refundTotal := x.refundTotal.set t (capped Config.totalLimit (x.refundTotal.get t) amount)
    refunds := capped Config.countLimit x.refunds 1
    unmatched := capped Config.totalLimit x.unmatched extra
    saturated := x.saturated || passes Config.totalLimit (x.refundTotal.get t) amount ||
      passes Config.countLimit x.refunds 1 || passes Config.totalLimit x.unmatched extra }

def Session.addSpoiled (x : Session) : Session :=
  { x with spoiled := capped Config.countLimit x.spoiled 1
           saturated := x.saturated || passes Config.countLimit x.spoiled 1 }

def Session.addTest (x : Session) : Session :=
  { x with test := capped Config.countLimit x.test 1
           saturated := x.saturated || passes Config.countLimit x.test 1 }

/-- What a written record adds to the figures of the session it names (Table 5-4). -/
def SessionUnit.addFigures (u : SessionUnit) (r : JRecord) : SessionUnit :=
  match r with
  | .issue session _ _ _ _ _ tender _ _ net => u.modify session fun x => x.addIssued tender net
  | .test session _ _ _ _ _ => u.modify session Session.addTest
  | .spoil _ session _ _ _ _ => u.modify session Session.addSpoiled
  | .void _ _ _ session tender net => u.modify session fun x => x.addVoided tender net
  | .refund session _ tender amount matched =>
    u.modify session fun x => x.addRefund tender amount matched.isSome
  | _ => u

/-- The session a record names among those whose unwritten records R99 counts as pending. -/
def JRecord.pendingFor : JRecord → Option Nat
  | .issue session .. => some session
  | .test session .. => some session
  | .spoil _ session .. => some session
  | .void _ _ _ session .. => some session
  | .refund session .. => some session
  | .declare session .. => some session
  | .close session .. => some session
  | _ => none

/-! ### The issue log (R100, R101) -/

def LogEntry.isFor (e : LogEntry) (serial : Nat) (ty : StockType) : Bool := e.serial == serial && e.stockType == ty

def SessionUnit.logEntry (u : SessionUnit) (serial : Nat) (ty : StockType) : Option LogEntry :=
  u.log.find? fun e => e.isFor serial ty

/-- An entry added at the newest end: an entry of the pair goes first, then the oldest of a full log (R100). -/
def addLogEntry (log : List LogEntry) (e : LogEntry) : List LogEntry :=
  let rest := log.filter fun x => !x.isFor e.serial e.stockType
  let rest := if Config.logEntries ≤ rest.length then rest.tail else rest
  rest ++ [e]

/-- The state of the entry of a pair changed; nothing when the log no longer holds it (R101). -/
def SessionUnit.setLogState (u : SessionUnit) (serial : Nat) (ty : StockType) (st : LogState) : SessionUnit :=
  { u with log := u.log.map fun e => if e.isFor serial ty then { e with state := st } else e }

/-- A record is the VOID of a pair. -/
def JRecord.voids (serial : Nat) (ty : StockType) : JRecord → Bool
  | .void n t _ _ _ _ => n == serial && t == ty
  | _ => false

/-- A written VOID makes its entry VOIDED (R103). DEDUCED (log 41): its entry is the pair's when that one is VOID_PENDING
and no later VOID of the pair waits; else a later ISSUE of the pair has replaced the entry, and nothing changes (R101). -/
def SessionUnit.settleVoid (u : SessionUnit) (rest : List Queued) (serial : Nat) (ty : StockType) : SessionUnit :=
  if rest.any fun q => q.record.voids serial ty then u
  else
    { u with log := u.log.map fun e =>
        if e.isFor serial ty ∧ e.state = .voidPending then { e with state := .voided } else e }

/-! ### Cash-up (R116 to R119) -/

/-- The expected amount of a tender (R116). -/
def Session.expected (x : Session) : PerTender Int :=
  { cash := (x.float : Int) + x.issueTotal.cash - x.voidTotal.cash - x.refundTotal.cash
    card := (x.issueTotal.card : Int) - x.voidTotal.card - x.refundTotal.card
    warrant := (x.issueTotal.warrant : Int) - x.voidTotal.warrant - x.refundTotal.warrant }

/-- The allowance of a tender whose expected amount is E (R117). -/
def allowanceOf (e : ToleranceEntry) (expected : Int) : Nat :=
  match e.fixed with
  | none => 0
  | some fixed =>
    let proportional := (expected.natAbs * e.proportion + 5000) / 10000
    let t := max fixed proportional
    if e.ceiling = 0 then t else min t e.ceiling

/-- The referral limit used for a tender: 0 under an UNSET entry (R117). -/
def referralOf (e : ToleranceEntry) : Nat := if e.fixed.isNone then 0 else e.referral

/-- The band of a tender, by the first line of Table 6-4 that holds (R118). -/
def bandFor (variance : Int) (allowance referral : Nat) : Band :=
  if variance.natAbs ≤ allowance then .balanced
  else if referral < variance.natAbs then .referred
  else if 0 < variance then .over
  else .short

/-- The worse of two bands (R119). -/
def Band.worse (a b : Band) : Band :=
  match a, b with
  | .referred, _ => .referred
  | _, .referred => .referred
  | .short, _ => .short
  | _, .short => .short
  | .over, _ => .over
  | _, .over => .over
  | .balanced, .balanced => .balanced

/-- The session band (R119). -/
def sessionBandOf (bands : PerTender Band) (saturated : Bool) (count : Nat) : Band :=
  let worst := (bands.cash.worse bands.card).worse bands.warrant
  let worst := if saturated then .referred else worst
  if count = 3 ∧ worst ≠ .balanced then .referred else worst

/-- Expected amounts and variances of declared amounts (R116). -/
def Session.variance (x : Session) (declared : PerTender Nat) : PerTender Int :=
  PerTender.zip (fun (d : Nat) (e : Int) => (d : Int) - e) declared x.expected

/-- The tolerance table's entries per tender (Table 10-3). -/
def tolerances (t : Tab ToleranceEntry 3) : PerTender ToleranceEntry :=
  { cash := t.at 0, card := t.at 1, warrant := t.at 2 }

/-- The figures of a declaration (R116 to R120). -/
def Session.declaration (x : Session) (t : Tab ToleranceEntry 3) (declared : PerTender Nat) : Declaration :=
  let count := match x.part with
    | some d => d.count + 1
    | none => 1
  let expected := x.expected
  let variance := x.variance declared
  let allowance := (tolerances t).zip allowanceOf expected
  let band := ((variance.zip (fun v a => (v, a)) allowance).zip
    (fun va e => bandFor va.1 va.2 (referralOf e)) (tolerances t))
  { count, declared, expected, variance, allowance, band
    sessionBand := sessionBandOf band x.saturated count }

/-- A declaration part rebuilt from a record; expected amounts and variances are computed again (R129). -/
def Session.rebuiltPart (x : Session) (count : Nat) (declared allowance : PerTender Nat) (band : PerTender Band)
    (sessionBand : Band) : Declaration :=
  { count, declared, expected := x.expected, variance := x.variance declared, allowance, band, sessionBand }

/-- The session band in force: the pending declaration's when there is one (R124). -/
def Session.bandInForce (x : Session) : Option Band :=
  match x.pendingPart with
  | some d => some d.sessionBand
  | none => x.part.map (·.sessionBand)

end Sys2Proof.Machine
end

