-- ==== Sys2Proof/Machine/Stock.lean ====
section
/-! DEFINITION. Batch records and what written records make of them (Chapter 4). -/

namespace Sys2Proof.Machine

/-- The number of serials not yet given (R72). -/
def Batch.remaining (b : Batch) : Nat := b.last + 1 - b.next

/-- A record just entered (R77), and the remainder of a withdrawn one (R79). -/
def newBatch (id : Nat) (ty : StockType) (first last : Nat) : Batch :=
  { id, stockType := ty, first, last, next := first, issued := 0, spoiled := 0, unaccounted := 0, test := 0
    inHand := 0, unrecorded := 0, state := .store, closingOwed := false }

/-- The next serial is given: next and in hand rise by one (R82). -/
def Batch.give (b : Batch) : Batch := { b with next := b.next + 1, inHand := b.inHand + 1 }

/-- The batch can number a blank: LOADED or UNVERIFIED with a serial remaining (R82). -/
def Batch.gives (b : Batch) : Bool := (b.state == .loaded || b.state == .unverified) && (0 < b.remaining : Bool)

/-- The loaded records in printer order, each with its printer. -/
def Stock.loadedBatches (k : Stock) : List (Printer × Batch) :=
  allPrinters.filterMap fun p => (k.loaded.at p).map fun b => (p, b)

/-- Every store and loaded record. -/
def Stock.batches (k : Stock) : List Batch := k.store ++ k.loadedBatches.map (·.2)

/-- The store or loaded record with an identifier (R72). -/
def Stock.find (k : Stock) (id : Nat) : Option Batch := k.batches.find? fun b => b.id == id

/-- The records with an identifier changed, wherever they stand. -/
def Stock.modify (k : Stock) (id : Nat) (f : Batch → Batch) : Stock :=
  { store := k.store.map fun b => if b.id = id then f b else b
    loaded := k.loaded.map (Option.map fun b => if b.id = id then f b else b) }

/-- The store position of a record: its place from the head (R75). -/
def Stock.position (k : Stock) (id : Nat) : Nat := k.store.findIdx fun b => b.id == id

/-- Table 4-5: what a written record adds to the counts of the batch it names. -/
def Batch.account (r : JRecord) (b : Batch) : Batch :=
  match r with
  | .issue .. => { b with issued := b.issued + 1 }
  | .test .. => { b with test := b.test + 1 }
  | .spoil .. => { b with spoiled := b.spoiled + 1 }
  | .count _ _ _ counted _ =>
    { b with spoiled := b.spoiled + counted, unaccounted := b.unaccounted + counted }
  | _ => b

/-- The batch a record accounts for and the number of serials it takes from in hand (R84). -/
def JRecord.accounts : JRecord → Option (Nat × Nat)
  | .issue _ _ _ _ batch .. => some (batch, 1)
  | .test _ _ _ _ batch _ => some (batch, 1)
  | .spoil _ _ _ _ batch _ => some (batch, 1)
  | .count id _ _ counted _ => some (id, counted)
  | _ => none

/-- The live records after a record is reported written (R84). -/
def Stock.written (k : Stock) (r : JRecord) : Stock :=
  match r.accounts with
  | some (id, n) => k.modify id fun b => { Batch.account r b with inHand := b.inHand - n }
  | none => k

/-- Next raised to one past a serial when it is not already beyond it (R89). -/
def Batch.passSerial (serial : Nat) (b : Batch) : Batch := { b with next := max b.next (serial + 1) }

/-- What a written record makes of the batches, as replay applies it in journal order (R89 step 2). A record that names a
batch replay does not hold, which replay from no snapshot can meet, is not spoken of: DESIGN CHOICE, it changes nothing,
except that a BATCH_LOAD leaves its printer with no loaded record and a BATCH_OUT with cause STOCKOUT withdraws whichever
record is loaded there (log 48). -/
def Stock.apply (k : Stock) (r : JRecord) : Stock :=
  match r with
  | .batchIn id ty first last => { k with store := k.store ++ [newBatch id ty first last] }
  | .batchLoad id p =>
    match k.store.find? fun b => b.id == id with
    | some b =>
      { store := k.store.filter fun x => x.id != id
        loaded := k.loaded.put p (some { b with state := .loaded }) }
    | none => { k with loaded := k.loaded.put p none }
  | .batchOut id p next _ _ _ _ =>
    match k.loaded.at p with
    | some b =>
      let k' := { k with loaded := k.loaded.put p none }
      if next ≤ b.last then { k' with store := k.store ++ [newBatch id b.stockType next b.last] } else k'
    | none => k
  | .batchEnd id _ => k.modify id fun b => { b with state := .exhausted }
  | .issue _ _ _ serial id .. => k.modify id fun b => Batch.passSerial serial (Batch.account r b)
  | .test _ _ _ serial id _ => k.modify id fun b => Batch.passSerial serial (Batch.account r b)
  | .spoil _ _ _ serial id _ => k.modify id fun b => Batch.passSerial serial (Batch.account r b)
  | .count id _ next _ st => k.modify id fun b => { Batch.account r b with next := next, state := st }
  | _ => k

/-- The end of replay: serials given out with no written record become unrecorded, loaded records become UNVERIFIED
(R89 step 3, R90). -/
def Batch.recovered (b : Batch) : Batch :=
  { b with unrecorded := b.next - b.first - (b.issued + b.spoiled + b.test), inHand := 0, closingOwed := false }

def Stock.recovered (k : Stock) : Stock :=
  { store := k.store.map Batch.recovered
    loaded := k.loaded.map (Option.map fun b => { b.recovered with state := .unverified }) }

end Sys2Proof.Machine
end

