-- ==== Sys2Proof/Machine/Journal.lean ====
section
/-! DEFINITION. The journal unit: places and claims, the write queue, the writer and the checkpoint (Chapter 8). -/

namespace Sys2Proof.Machine

/-! ### Places and claims (R154 to R158) -/

/-- Free room: 32 less the queued records and the reservation count (R154). -/
def Journal.freeRoom (j : Journal) : Nat := Config.journalPlaces - j.queue.length - j.reserved

/-- The places a claim asks for (R157). -/
def Claim.places : Claim → Nat
  | .engine _ => 2
  | .batch _ => 1
  | .session _ => 1

/-- The places wanted by the claims on the list (R156). -/
def Journal.wanted (j : Journal) : Nat := (j.claims.map Claim.places).sum

/-- Whether the journal grants a request its one place (R156). -/
def Journal.grantsRequest (j : Journal) : Bool := !j.stopped && (j.wanted + 1 ≤ j.freeRoom : Bool)

def State.updateJournal (s : State) (f : Journal → Journal) : State := { s with journal := f s.journal }

/-- A claim joins the list unless its claimant has one there (R157). -/
def State.addClaim (s : State) (c : Claim) : State :=
  s.updateJournal fun j => if j.claims.contains c then j else { j with claims := j.claims ++ [c] }

/-- A claim leaves the list without a grant (R158). -/
def State.withdrawClaim (s : State) (c : Claim) : State :=
  s.updateJournal fun j => { j with claims := j.claims.filter fun x => x != c }

/-- Places that an entry has not spent come back (R60, R155). -/
def State.releasePlaces (s : State) (n : Nat) : State :=
  s.updateJournal fun j => { j with reserved := j.reserved - n }

/-! ### The snapshot (R160) -/

/-- The state of a session as its written records leave it; an OPENING session is not carried (R160). -/
def SessionState.carried : SessionState → Option SessionState
  | .opening => none
  | .open_ => some .open_
  | .closing => some .open_
  | .awaiting => some .awaiting
  | .declared => some .declared
  | .finishing => some .declared

/-- The SESSION_D record of a session (R202). The spec gives its count, 0, when the declaration part is absent and no
value for its other fields: DESIGN CHOICE, amounts and allowances 0 and every band BALANCED (log 42). -/
def Session.partRecord (x : Session) : JRecord :=
  match x.part with
  | some d => .sessionD x.number d.count d.declared d.allowance d.band d.sessionBand
  | none => .sessionD x.number 0 ⟨0, 0, 0⟩ ⟨0, 0, 0⟩ ⟨.balanced, .balanced, .balanced⟩ .balanced

/-- The four SESSION records of a session of the snapshot (R159, R202). -/
def Session.snapshot (x : Session) : List JRecord :=
  match x.state.carried with
  | none => []
  | some st =>
    [.sessionA x.number x.clerk x.window st x.float x.issued x.voided x.refunds x.spoiled x.test x.saturated x.recovered,
     .sessionB x.number x.issueTotal x.voidTotal,
     .sessionC x.number x.refundTotal x.unmatched,
     x.partRecord]

/-- The stock request of an unwritten record has raised the next serial of a batch, withdrawn the batch or discarded it:
a STOCKCOUNT or STOCKOUT of its identifier, or a STOCKLOAD at the printer it stands at. -/
def JRecord.unsettles (standing : Stock) (b : Batch) : JRecord → Bool
  | .count id _ _ _ _ => id == b.id
  | .batchOut id _ _ _ _ _ _ => id == b.id
  | .batchLoad _ p => (standing.loaded.at p).any fun x => x.id == b.id
  | _ => false

/-- The next serial that a snapshot carries for a batch: as it stands, feeds included, in the live record that runs to
the same last serial; as it stood before an unwritten stock request that unsettles it (R160; log 20). -/
def Batch.carriedNext (live standing : Stock) (queue : List Queued) (b : Batch) : Nat :=
  if queue.any fun q => q.record.unsettles standing b then b.next
  else
    match live.batches.find? fun x => x.id == b.id && x.stockType == b.stockType && x.last == b.last with
    | some x => x.next
    | none => b.next

def Batch.stateRecord (b : Batch) (next : Nat) (p : Option Printer) (position : Nat) : JRecord :=
  .batchState b.id b.stockType b.first b.last next b.issued b.spoiled b.unaccounted b.test b.state p position

/-- The BATCH_STATE records: store batches in list order, then loaded batches in printer order (R159). A loaded
batch's store position is 0 (log 21). The state carried is that of the written records, UNVERIFIED after a restart and not
after a live mismatch: DESIGN CHOICE (log 60). -/
def Stock.snapshot (live standing : Stock) (queue : List Queued) : List JRecord :=
  standing.store.mapIdx (fun i b => b.stateRecord (b.carriedNext live standing queue) none i) ++
    standing.loadedBatches.map fun pb => pb.2.stateRecord (pb.2.carriedNext live standing queue) (some pb.1) 0

/-- The records of a checkpoint begun now, CHECKPOINT_BEGIN to CHECKPOINT_END (R159). -/
def State.checkpointRecords (s : State) : List JRecord :=
  let body := s.sessions.live.flatMap Session.snapshot ++ Stock.snapshot s.stock s.standing s.journal.queue
  .checkpointBegin s.sessions.nextNumber body.length :: body ++
    [.checkpointEnd s.journal.nextSequence body.length]

/-! ### The writer (R150, R151, R159, R162) -/

/-- The checkpoint that is due begins, with its snapshot (R159, R160). -/
def State.beginCheckpoint (s : State) : State :=
  let records := s.checkpointRecords
  s.updateJournal fun j => { j with checkpointDue := false, writer := .checkpoint records false false }

/-- What a writer that has nothing in progress does next: a due checkpoint when the supply is NORMAL, else the oldest
queued record, else nothing (R151, R159, R161). -/
def State.startNext (s : State) : State :=
  if s.journal.checkpointDue && s.supply == .normal then s.beginCheckpoint
  else s.updateJournal fun j => { j with writer := if j.queue.isEmpty then .idle else .writing }

/-- A record is handed: it joins the tail of the queue, its session counts it as pending, and an IDLE writer takes it
(R99, R151, R154). -/
def State.hand (s : State) (r : JRecord) (link : Link) : State :=
  let s := s.updateJournal fun j => { j with queue := j.queue ++ [{ record := r, link }] }
  let s := match r.pendingFor with
    | some n => s.modifySession n fun x => { x with pendingRecords := x.pendingRecords + 1 }
    | none => s
  if s.journal.writer = .idle then s.startNext else s

/-- A record is handed on a reserved place (R155). -/
def State.handOnPlace (s : State) (r : JRecord) (link : Link) : State := (s.releasePlaces 1).hand r link

/-- The journal enters STOPPED and JOURNAL_FAULT is raised (R162). -/
def State.stopJournal (s : State) : State :=
  (s.updateJournal fun j => { j with writer := .stopped }).raise (.office .journalFault)

/-- The page after a page, in a ring (R150). -/
def nextPage (p : Fin 128) : Fin 128 := ⟨(p.val + 1) % 128, Nat.mod_lt _ (by decide)⟩

/-- A checkpoint falls due at page 0 and at page 64 (R150). -/
def makesDue (p : Fin 128) : Bool := p.val == 0 || p.val == 64

/-- The head enters the next page, whose erase and header write begin; outside a checkpoint this may make a checkpoint
due (R150, R159). The slot is 0 until the erase ends (log 19). -/
def Journal.enterPage (j : Journal) (writer : Writer) (checkpoint : Bool) : Journal :=
  { j with page := nextPage j.page, slot := 0, pageSequence := j.pageSequence + 1, writer := writer,
           checkpointDue := j.checkpointDue || (!checkpoint && makesDue (nextPage j.page)) }

/-- The bytes that stand in memory after a write, and whether the read-back finds what was written (R151, R162). -/
def readBack (written : List Byte) (found : Option (List Byte)) : List Byte × Bool :=
  match found with
  | none => (written, true)
  | some bs => (bs, bs == written)

/-- Journal memory after a slot's write. -/
def Journal.putSlot (j : Journal) (bs : List Byte) : Journal :=
  { j with memory := Memory.writeAll j.memory (slotAddress j.page j.slot) bs }

/-- Journal memory after a page's erase and header write. -/
def Journal.putPage (j : Journal) (bs : List Byte) : Journal :=
  let a := slotAddress j.page 0
  { j with memory := Memory.writeAll (Memory.erase j.memory a Config.pageBytes) a bs }

/-- The next sequence number and slot after a good write; slot 15 stays until the next page is entered, and for good when
the write took the last sequence number (log 43); the next number is then one past the last (log 57). -/
def Journal.advance (j : Journal) : Journal :=
  { j with nextSequence := j.nextSequence + 1
           slot := if h : j.slot.val < 15 then ⟨j.slot.val + 1, by omega⟩ else j.slot }

/-- The write just made took the last journal sequence number (R153). -/
def Journal.exhausted (j : Journal) : Bool := j.nextSequence == Config.lastSequence

/-- Where the writer goes after a queued record's good write, given the journal before it (R150, R151, R153). When the
last sequence number fills slot 15 the spec states no new head: DESIGN CHOICE, it stays there (log 43). -/
def State.afterRecord (s : State) (before : Journal) : State :=
  if before.exhausted then s.stopJournal
  else if before.slot = 15 then s.updateJournal fun j => j.enterPage .erasing false
  else s.startNext

/-- Where the writer goes after a checkpoint record's good write: the records that remain, the next page, or, when the
checkpoint is complete or abandoned, what is next (R159, R161; log 18). -/
def State.afterCheckpointRecord (s : State) (before : Journal) (rest : List JRecord) (abandoned : Bool) : State :=
  if before.exhausted then s.stopJournal
  else if rest.isEmpty || abandoned then
    if before.slot = 15 then s.updateJournal fun j => j.enterPage .erasing false else s.startNext
  else if before.slot = 15 then s.updateJournal fun j => j.enterPage (.checkpoint rest true false) true
  else s.updateJournal fun j => { j with writer := .checkpoint rest false false }

/-- WARNING at the writer: a checkpoint being written is abandoned and due again, unless the record being written is
its CHECKPOINT_END (R161; log 18). While its page is being erased R161 names no moment at which the writer leaves it:
DESIGN CHOICE, the erase ends first, the writer in CHECKPOINT until then (log 56). -/
def Journal.warned (j : Journal) : Journal :=
  match j.writer with
  | .checkpoint [_] false _ => j
  | .checkpoint rs erasing _ => { j with writer := .checkpoint rs erasing true, checkpointDue := true }
  | _ => j

/-! ### Sign-off (R108) -/

/-- The sign-off test of a session: CLOSING with no jobs in flight and no pending records (R108). -/
def Session.finished (x : Session) : Bool := x.state == .closing && x.jobs == 0 && x.pendingRecords == 0

/-- The test of R108: a finished session owes a sign-off and claims a place. -/
def State.signOffTest (s : State) (number : Nat) : State :=
  match s.session number with
  | some x =>
    if x.finished && !x.signOffOwed then
      (s.modifySession number fun x => { x with signOffOwed := true }).addClaim (.session number)
    else s
  | none => s

/-- A job of a session has ended (R21, R99). -/
def State.jobEnded (s : State) (number : Nat) : State :=
  (s.modifySession number fun x => { x with jobs := x.jobs - 1 }).signOffTest number

/-- A pending record of a session has been written (R99). -/
def State.recordEnded (s : State) (number : Nat) : State :=
  (s.modifySession number fun x => { x with pendingRecords := x.pendingRecords - 1 }).signOffTest number

/-- The SIGN_OFF record of a session (Table 8-1). -/
def Session.signOffRecord (x : Session) : JRecord :=
  let net (t : Tender) : Int := (x.issueTotal.get t : Int) - x.voidTotal.get t - x.refundTotal.get t
  .signOff x.number x.issued x.voided x.refunds x.spoiled x.test x.saturated x.recovered
    { cash := net .cash, card := net .card, warrant := net .warrant }

end Sys2Proof.Machine
end

