-- ==== Sys2Proof/Machine/Engine.lean ====
section
/-! DEFINITION. The printer port engines with the issue controller's queues and the blanks they number (Chapters 1, 3
and 4). The operations here change records; `State.settle` at the end tests what the changes may have opened. -/

namespace Sys2Proof.Machine

def State.updatePort (s : State) (p : Printer) (f : Port → Port) : State := s.setPort p (f (s.ports.at p))

/-- ACTIVE or HELD: the states in which reports are taken (R45). -/
def Port.attached (x : Port) : Bool := x.state == .active || x.state == .held

/-! ### Moving and refusing queued jobs (R12 to R17) -/

/-- The alternate of a route entry; a printer named in both places counts in the first (R5; log 32). -/
def RouteEntry.second (e : RouteEntry) : Option Printer := if e.alternate = e.primary then none else e.alternate

/-- The other printer of a job (R12). -/
def State.otherPrinter (s : State) (job : Job) : Option Printer :=
  let e := s.routeEntry job.origin.window job.stockType
  let other :=
    if e.primary = some job.printer then e.second
    else if e.second = some job.printer then e.primary
    else none
  other.filter fun q => s.function q == .ticket

/-- A printer is ACTIVE with a LOADED batch of a stock type (R12). -/
def State.sendsType (s : State) (q : Printer) (ty : StockType) : Bool :=
  (s.ports.at q).state == .active && (s.loaded q).any fun b => b.stockType == ty && b.state == .loaded

/-- The move test: the printer that the job can move to (R12). -/
def State.moveTarget (s : State) (job : Job) : Option Printer :=
  (s.otherPrinter job).filter fun q => s.sendsType q job.stockType

def State.removeFromQueue (s : State) (p : Printer) (j : JobNumber) : State :=
  s.setQueue p ((s.queues.at p).filter fun i => i != j)

/-- The job leaves its queue and joins the other printer's, at the tail or, re-queued after a jam, at the front (R12,
R16). -/
def State.moveJob (s : State) (j : JobNumber) (job : Job) (q : Printer) (front : Bool) : State :=
  let s := s.removeFromQueue job.printer j
  let s := s.setJob j (some { job with printer := q, retry := 0 })
  s.setQueue q (if front then j :: s.queues.at q else s.queues.at q ++ [j])

/-- The job is answered, its record freed and its session told (R1, R21). -/
def State.endJob (s : State) (j : JobNumber) (job : Job) (code : AnswerCode) (figures : Figures) : State :=
  ((s.setJob j none).answer job.origin code figures).jobEnded job.session

/-- A queued job is answered a refusal (R14 to R18). -/
def State.refuseJob (s : State) (j : JobNumber) (job : Job) (code : AnswerCode) : State :=
  (s.removeFromQueue job.printer j).endJob j job code .nothing

/-- A queued job that a rule concerns moves when it can, else is refused with the rule's code, else stays. -/
def State.considerJob (concerns : Job → Bool) (refusal : Option AnswerCode) (s : State) (j : JobNumber) : State :=
  match s.jobs.at j with
  | none => s
  | some job =>
    if concerns job then
      match s.moveTarget job, refusal with
      | some q, _ => s.moveJob j job q false
      | none, some code => s.refuseJob j job code
      | none, none => s
    else s

/-- The jobs of a queue considered from head to tail (R12). -/
def State.resolveQueue (s : State) (p : Printer) (concerns : Job → Bool) (refusal : Option AnswerCode) : State :=
  (s.queues.at p).foldl (State.considerJob concerns refusal) s

/-- The queue of a printer that becomes ABSENT or FAILED or whose function leaves TICKET (R14, R15). -/
def State.refuseQueue (s : State) (p : Printer) : State :=
  s.resolveQueue p (fun _ => true) (some .printerUnavailable)

/-! ### Hold reasons and states (R49) -/

/-- The port enters HELD, and its queued jobs move where they can (R13). -/
def State.enterHeld (s : State) (p : Printer) : State :=
  (s.updatePort p fun x => { x with state := .held }).resolveQueue p (fun _ => true) none

/-- A hold reason is added; a set that becomes non-empty at an ACTIVE port makes it HELD (R49). -/
def State.addHold (s : State) (p : Printer) (r : HoldReason) : State :=
  let s := s.updatePort p fun x => x.setHold r true
  if (s.ports.at p).state = .active then s.enterHeld p else s

/-- A hold reason is removed; a set that becomes empty at a HELD port makes it ACTIVE (R49). -/
def State.removeHold (s : State) (p : Printer) (r : HoldReason) : State :=
  s.updatePort p fun x =>
    let x := x.setHold r false
    if x.state = .held ∧ x.free then { x with state := .active } else x

/-- NO_STOCK and STOCK_UNVERIFIED are added while the port's function is TICKET (R49). -/
def State.addStockHold (s : State) (p : Printer) (r : HoldReason) : State :=
  if s.function p = .ticket then s.addHold p r else s

/-! ### Serials (R82 to R86) -/

/-- STOCK_LOW is raised when a given serial takes the remaining count to the threshold (R85). -/
def State.lowStockCrossing (s : State) (p : Printer) (before after : Nat) : State :=
  let threshold := (s.printerEntry p).lowStock
  if threshold < before ∧ after ≤ threshold then s.raise (.printer p .stockLow) else s

/-- The test of R85 at STOCKLOAD, at STOCKCOUNT and at a change of the threshold. -/
def State.lowStockTest (s : State) (p : Printer) : State :=
  match s.loaded p with
  | none => s
  | some b =>
    let low := b.remaining ≤ (s.printerEntry p).lowStock
    let present := (s.monitor.lasting.at p).stockLow
    if low ∧ ¬ present then s.raise (.printer p .stockLow)
    else if ¬ low ∧ present then s.endCondition (.printer p .stockLow)
    else s

/-- The loaded batch is exhausted: NO_STOCK, and a closing record owed with its claim (R83). -/
def State.exhaust (s : State) (p : Printer) (b : Batch) : State :=
  let s := s.setLoaded p (some { b with state := .exhausted, closingOwed := true })
  (s.addStockHold p .noStock).addClaim (.batch b.id)

/-- The next serial of a batch that can give one is given (R82, R83, R85). -/
def State.giveSerial (s : State) (p : Printer) (b : Batch) : State :=
  let s := s.setLoaded p (some b.give)
  let s := if b.state = .loaded ∧ b.give.remaining = 0 then s.exhaust p b.give else s
  s.lowStockCrossing p b.remaining b.give.remaining

/-- A stock mismatch (R86). -/
def State.stockMismatch (s : State) (p : Printer) : State :=
  let s := s.raise (.printer p .stockMismatch)
  match s.loaded p with
  | some b =>
    if b.state = .loaded ∨ b.state = .exhausted then
      (s.setLoaded p (some { b with state := .unverified })).addStockHold p .stockUnverified
    else s
  | none => s

/-! ### Entries that leave the window unpresented (R11, R48, R58, R59, R60, R70) -/

/-- The SPOIL record of a serial charged to a job's session (Table 8-1). -/
def spoilRecord (cause : SpoilCause) (job : Job) (p : Printer) (serial batch : Nat) : JRecord :=
  .spoil cause job.session p serial batch job.stockType

/-- A ticket entry leaves: a FED or PRINTED entry's serial is spoiled on one of its places, and the places it has not
spent are returned. -/
def State.dropEntry (cause : SpoilCause) (p : Printer) (s : State) (e : Entry) : State :=
  match e.ticket with
  | none => s
  | some t =>
    match (s.jobs.at t.job).bind fun job => job.serial.map fun sb => (job, sb) with
    | some (job, serial, batch) =>
      if e.phase = .sent then s.releasePlaces t.places
      else (s.handOnPlace (spoilRecord cause job p serial batch) .nothing).releasePlaces (t.places - 1)
    | none => s.releasePlaces t.places

/-- The job of an entry as it returns to its queue (R11). -/
def State.requeue (s : State) (e : Entry) : State :=
  match e.ticket with
  | none => s
  | some t =>
    match s.jobs.at t.job with
    | some job => s.setJob t.job (some { job with state := .queued, image := none, serial := none, spare := none })
    | none => s

def Entry.job? (e : Entry) : Option JobNumber := e.ticket.map TicketPart.job

/-- The jobs of entries return to the front of the queue in sending order (R11). -/
def State.returnJobs (s : State) (p : Printer) (es : List Entry) : State :=
  let s := es.foldl State.requeue s
  s.setQueue p (es.filterMap Entry.job? ++ s.queues.at p)

/-- Every entry leaves the window, its serial spoiled, and its job or item returns to the front of its queue (R48,
R59). Lines and slips stand in their queue already. The spec orders the jobs that return and not the SPOIL records of
several entries: DESIGN CHOICE, they are handed in sending order, the oldest entry's first (log 52). -/
def State.resolveWindow (s : State) (p : Printer) (cause : SpoilCause) : State :=
  let es := (s.ports.at p).entries
  let s := es.foldl (State.dropEntry cause p) s
  let s := s.updatePort p fun x => { x with entries := [] }
  s.returnJobs p es

/-! ### Port states (R42, R48, R59) -/

/-- An attach begins (R42). -/
def State.beginAttach (s : State) (p : Printer) : State :=
  let timeout := (s.printerEntry p).selectTimeout
  let s := s.transmit p .enquire
  s.updatePort p fun x =>
    { x with state := .attaching, nextImage := 0, unanswered := 0, attachTimer := some timeout
             pollTimer := none, replyTimer := none, absentTimer := none }

/-- The port enters FAILED after its window is resolved and its queue moved or refused (R59, R14). -/
def State.failPort (s : State) (p : Printer) (condition : Option PrinterFault) : State :=
  let s := match condition with
    | some c => s.raise (.printer p c)
    | none => s
  let s := (s.withdrawClaim (.engine p)).resolveWindow p .protocol
  let s := s.updatePort p fun x =>
    { x with state := .failed, attachTimer := none, pollTimer := none, replyTimer := none, absentTimer := none }
  s.refuseQueue p

/-- The port enters ABSENT with the absent repeat timer at 5 s, and its queue is moved or refused (R44, R48, R14). -/
def State.enterAbsent (s : State) (p : Printer) : State :=
  let s := s.updatePort p fun x =>
    { x with state := .absent, attachTimer := none, pollTimer := none, replyTimer := none
             absentTimer := some Config.absentRepeatMs }
  s.refuseQueue p

/-- After the third unanswered poll (R48). -/
def State.goAbsent (s : State) (p : Printer) : State :=
  let s := s.raise (.printer p .noAnswer)
  ((s.withdrawClaim (.engine p)).resolveWindow p .lost).enterAbsent p

/-! ### Ticket reports (R55 to R58) -/

/-! The entry that a report or a STATUS names is found once, as a place in the window (`Port.placeOf`). -/

def State.updateEntry (s : State) (p : Printer) (k : Nat) (f : Entry → Entry) : State :=
  s.updatePort p fun x => { x with entries := x.entries.modify k f }

/-- The ticket entry at a place of the window, with its job. -/
def State.ticketAt (s : State) (p : Printer) (k : Nat) : Option (Entry × JobNumber × Job) := do
  let e ← (s.ports.at p).entries[k]?
  let t ← e.ticket
  let job ← s.jobs.at t.job
  return (e, t.job, job)

/-- The batch that numbers a feed for a job: loaded, of the job's type, with a serial to give (R55, R82). -/
def State.feedBatch (s : State) (p : Printer) (job : Job) : Option Batch :=
  (s.loaded p).filter fun b => b.stockType == job.stockType && b.gives

/-- A feed is taken for the entry at a place (R55). A feed that finds no serial is a stock mismatch and puts the port in FAILED. -/
def State.takeFeed (s : State) (p : Printer) (k : Nat) : State :=
  match s.ticketAt p k with
  | none => s
  | some (e, j, job) =>
    match s.feedBatch p job with
    | some b =>
      let s := s.giveSerial p b
      let s := s.updateEntry p k fun e => { e with phase := .fed }
      let s := s.setJob j (some { job with serial := some (b.next, b.id), state := .fed })
      s.transmit p (.serial e.image b.next)
    | none => (s.stockMismatch p).failPort p none

/-- A double feed is taken for the entry at a place (R56). -/
def State.takeDoubleFeed (s : State) (p : Printer) (k : Nat) : State :=
  match s.ticketAt p k with
  | none => s
  | some (_, j, job) =>
    let mark (spent : Nat) (e : Entry) : Entry :=
      { e with ticket := e.ticket.map fun t => { t with doubleFed := true, places := t.places - spent } }
    match (s.loaded p).filter Batch.gives with
    | some b =>
      let s := s.giveSerial p b
      let s := s.updateEntry p k (mark 1)
      let s := s.setJob j (some { job with spare := some b.next })
      s.handOnPlace (spoilRecord .doubleFeed job p b.next b.id) .nothing
    | none => (s.updateEntry p k (mark 0)).stockMismatch p

/-- A printing is taken for the entry at a place (R57). -/
def State.takePrint (s : State) (p : Printer) (k : Nat) : State :=
  match s.ticketAt p k with
  | none => s
  | some (_, j, job) =>
    (s.updateEntry p k fun e => { e with phase := .printed }).setJob j (some { job with state := .printed })

/-- The audit port of a ticket port: the lowest-numbered AUDIT port that names it (R63). -/
def State.auditPort (s : State) (p : Printer) : Option Printer :=
  allPrinters.find? fun a => s.function a == .audit && (s.printerEntry a).auditSource == p

/-- An audit line is handed to the audit port's queue, or discarded (R64). The line of a source marked audit required
joins a queue of 64 lines too, which only a load that re-pairs sources lets happen: DEDUCED (log 54). -/
def State.handLine (s : State) (source a : Printer) (line : Text) : State :=
  let x := s.ports.at a
  let takes := (s.printerEntry source).auditRequired ||
    ((x.state == .active || x.state == .held || x.state == .attaching) &&
      (x.audit.length < Config.auditQueueLines : Bool))
  if takes then s.setPort a { x with audit := x.audit ++ [line] } else s

/-- The clerk of a session; 0 if there is none (log 29). -/
def State.clerkOf (s : State) (number : Nat) : Nat :=
  match s.session number with
  | some x => x.clerk
  | none => 0

/-- The record that a presented job hands (R10). -/
def presentedRecord (job : Job) (p : Printer) (serial batch : Nat) : JRecord :=
  match job.tender with
  | some tender =>
    .issue job.session job.origin.window p serial batch job.stockType tender job.discount job.gross job.net
  | none => .test job.session job.origin.window p serial batch job.stockType

/-- A presentation is taken for the entry at a place: the job's record is handed on one of its places, the entry leaves, its other
places return, and an audit line is composed if the port has an audit port (R57, R35, R64). -/
def State.takePresent (s : State) (p : Printer) (k : Nat) : State :=
  match s.ticketAt p k with
  | none => s
  | some (e, j, job) =>
    match job.serial with
    | none => s
    | some (serial, batch) =>
      let places := match e.ticket with
        | some t => t.places
        | none => 0
      let s := s.setJob j (some { job with state := .presented, image := none })
      let s := s.updatePort p fun x => { x with entries := x.entries.eraseIdx k }
      let s := s.handOnPlace (presentedRecord job p serial batch) (.job j)
      let s := s.releasePlaces (places - 1)
      match s.auditPort p with
      | some a => s.handLine p a (auditLine job (s.clerkOf job.session) serial)
      | none => s

/-- The jammed job after its return: it stays, moves to the front of the other printer's queue, or is refused JAMMED
(R16). -/
def State.settleJammed (s : State) (p : Printer) (e : Entry) : State :=
  match e.job? with
  | none => s
  | some j =>
    match s.jobs.at j with
    | none => s
    | some job =>
      let job := { job with retry := job.retry + 1 }
      let s := s.setJob j (some job)
      if (s.printerEntry p).retryLimit < job.retry then
        match s.moveTarget job with
        | some q => s.moveJob j job q true
        | none => s.refuseJob j job .jammed
      else s

/-- The jam latch is set and JAM joins the hold-reason set (R51). -/
def State.latchJam (s : State) (p : Printer) : State :=
  (s.updatePort p fun x => { x with jamLatch := true }).addHold p .jam

/-- A jam is taken for the entry at a place of a ticket port's window (R58). Step 2 does not order the SPOIL records of the
younger entries: DESIGN CHOICE, sending order (log 52). -/
def State.takeJam (s : State) (p : Printer) (k : Nat) : State :=
  let es := (s.ports.at p).entries
  let s := s.withdrawClaim (.engine p)
  let s := (es.drop k).foldl (State.dropEntry .jam p) s
  let s := s.updatePort p fun x => { x with entries := es.take k }
  let s := s.returnJobs p (es.drop k)
  let s := match es.drop k with
    | e :: _ => s.settleJammed p e
    | [] => s
  s.latchJam p

/-! ### Roll ports (R65, R67) -/

/-- A jam at a roll port: the lines or slips of the entries wait again (R65). -/
def State.takeRollJam (s : State) (p : Printer) (k : Nat) : State :=
  (s.updatePort p fun x => { x with entries := x.entries.take k }).latchJam p

/-- The oldest line or slip is printed: its entry leaves the window and it leaves its queue (R65). -/
def State.takeRollPrint (s : State) (p : Printer) : State :=
  let function := s.function p
  s.updatePort p fun x =>
    { x with entries := x.entries.tail
             audit := if function = .audit then x.audit.tail else x.audit
             slips := if function = .report then x.slips.tail else x.slips }

/-- The message of the oldest line or slip that is not in the window yet. -/
def State.rollMessage (s : State) (p : Printer) (n : ImageNumber) : Option Message :=
  let x := s.ports.at p
  match s.function p with
  | .audit => (x.audit[x.entries.length]?).map (.line n)
  | .report => (x.slips[x.entries.length]?).map (.slip n)
  | .ticket => none
  | .off => none

/-- A roll port sends its oldest waiting line or slip when the four conditions of R65 hold. -/
def State.sendRoll (s : State) (p : Printer) : State :=
  let x := s.ports.at p
  if x.state = .active ∧ x.entries.length < x.window ∧ s.supply = .normal then
    match s.rollMessage p x.nextImage with
    | some m =>
      (s.setPort p
        { x with entries := x.entries ++ [{ image := x.nextImage, phase := .sent, ticket := none }]
                 nextImage := x.nextImage + 1 }).transmit p m
    | none => s
  else s

/-- A window has at most 4 entries, so at most 4 are sent. -/
def State.sendRolls (s : State) (p : Printer) : State := (((s.sendRoll p).sendRoll p).sendRoll p).sendRoll p

/-- The report port of a slip: the lowest-numbered REPORT port that is ACTIVE or HELD (R67). -/
def State.reportPort (s : State) : Option Printer :=
  allPrinters.find? fun p => s.function p == .report && (s.ports.at p).attached

/-- A slip is handed on; whether it was kept (R67). -/
def State.handSlip (s : State) (slip : List Text) : State × Bool :=
  match s.reportPort with
  | none => (s, false)
  | some p =>
    if (s.ports.at p).slips.length < Config.slipQueueSlips then
      (s.updatePort p fun x => { x with slips := x.slips ++ [slip] }, true)
    else (s, false)

/-! ### AUDIT, the send gate and the claim list (R52, R53, R66, R157) -/

/-- The audit load of a ticket port (R66). -/
def State.auditLoad (s : State) (p a : Printer) : Nat := (s.ports.at a).audit.length + (s.ports.at p).entries.length

/-- The AUDIT test of a port (R66). -/
def State.testAudit (s : State) (p : Printer) : State :=
  let held := (s.ports.at p).holds .audit
  let gain := if held then s else s.addHold p .audit
  let lose := if held then s.removeHold p .audit else s
  if s.function p = .ticket ∧ (s.printerEntry p).auditRequired then
    match s.auditPort p with
    | none => gain
    | some a =>
      if (s.ports.at a).state ≠ .active ∨ Config.auditQueueLines ≤ s.auditLoad p a then gain
      else if s.auditLoad p a ≤ Config.auditLoadLow then lose
      else s
  else lose

/-- Conditions 1 to 6 of the send gate (R52). -/
def State.gate (s : State) (p : Printer) : Bool :=
  let x := s.ports.at p
  match (s.queues.at p).head?.bind s.jobs.at, s.loaded p with
  | some job, some b =>
    x.state == .active && s.function p == .ticket && job.stockType == b.stockType &&
      (x.entries.length < x.window : Bool) && s.supply == .normal && b.state == .loaded &&
      (x.entries.countP (fun e => e.phase == .sent) + 1 ≤ b.remaining : Bool)
  | _, _ => false

/-- The head job is sent (R9, R53). -/
def State.sendImage (s : State) (p : Printer) : State :=
  let x := s.ports.at p
  match s.queues.at p, s.loaded p with
  | j :: rest, some b =>
    match s.jobs.at j with
    | some job =>
      let items := composeImage (s.store.tables.layouts.at job.stockType) job (s.clerkOf job.session) b.id
      let s := s.setQueue p rest
      let s := s.setJob j (some { job with state := .sent, image := some x.nextImage })
      let entry : Entry :=
        { image := x.nextImage, phase := .sent, ticket := some { job := j, doubleFed := false, places := 2 } }
      let s := s.setPort p { x with entries := x.entries ++ [entry], nextImage := x.nextImage + 1 }
      s.transmit p (.image x.nextImage items)
    | none => s
  | _, _ => s

/-- An engine whose gate holds makes its claim; one whose gate fails withdraws it (R157, R158). -/
def State.refreshClaim (s : State) (p : Printer) : State :=
  if s.gate p then s.addClaim (.engine p) else s.withdrawClaim (.engine p)

/-- The printer that a batch is loaded in, with its record. -/
def Stock.loadedIn (k : Stock) (id : Nat) : Option (Printer × Batch) :=
  k.loadedBatches.find? fun pb => pb.2.id == id

/-- A claim is granted: it leaves the list and its places are used at once (R157). -/
def State.grant (s : State) (c : Claim) : State :=
  let s := s.withdrawClaim c
  match c with
  | .engine p => (s.updateJournal fun j => { j with reserved := j.reserved + 2 }).sendImage p
  | .batch id =>
    match s.stock.loadedIn id with
    | some (p, b) => (s.setLoaded p (some { b with closingOwed := false })).hand (.batchEnd id p) .nothing
    | none => s
  | .session n =>
    match s.session n with
    | some x =>
      let link := match x.signOff with
        | some r => Link.request r .done (.session n)
        | none => .nothing
      (s.modifySession n fun x => { x with signOffOwed := false, signOff := none }).hand x.signOffRecord link
    | none => s

/-- The oldest claim, when it fits and the journal is not STOPPED (R157). -/
def Journal.grantable (j : Journal) : Option Claim :=
  match j.claims with
  | c :: _ => if !j.stopped && (c.places ≤ j.freeRoom : Bool) then some c else none
  | [] => none

/-- Every engine tests AUDIT, sends what its roll queue allows and tests its send gate, in port order (log 14). -/
def State.testEngines (s : State) : State :=
  let s := allPrinters.foldl State.testAudit s
  let s := allPrinters.foldl State.sendRolls s
  allPrinters.foldl State.refreshClaim s

/-- The oldest claim is granted when it fits, and what follows is `next`; else nothing more happens (R157). -/
def State.grantOldest (s : State) (next : State → State) : State :=
  match s.journal.grantable with
  | some c => next (s.grant c)
  | none => s

/-- The engines are tested and the claim list served, oldest first, until no claim is granted. -/
def State.serve : Nat → State → State
  | 0, s => s.testEngines
  | fuel + 1, s => s.testEngines.grantOldest (State.serve fuel)

/-- What a change has opened is taken at once: AUDIT tests, sendings and grants (R52, R65, R66, R157). Every grant
takes free room, of which there are 32 places, so 32 grants are the most. -/
def State.settle (s : State) : State := State.serve Config.journalPlaces s

end Sys2Proof.Machine
end

