-- ==== Sys2Proof/Machine/Written.lean ====
section
/-! DEFINITION. What a record's writing does at the session unit, the stock accounts unit and the issue controller
(R84, R96, R98, R100, R103, R106, R108, R121, R126, R19, R20). -/

namespace Sys2Proof.Machine

def State.updateSessions (s : State) (f : SessionUnit → SessionUnit) : State := { s with sessions := f s.sessions }

/-- The stock accounts unit takes a written record: the live counts and the written standing (R84, R160). -/
def State.stockWritten (s : State) (r : JRecord) : State :=
  { s with stock := s.stock.written r, standing := s.standing.apply r }

/-- The written declaration replaces the declaration part whole (R121 steps 1 and 2). -/
def Session.declared (x : Session) : Session :=
  { x with
    part := match x.pendingPart with
      | some d => some d
      | none => x.part
    pendingPart := none
    state := if x.state = .awaiting then .declared else x.state }

/-- What a written record changes in the sessions and the issue log, apart from the figures, with the records that wait
behind it (Table 5-4, R100, R103). -/
def SessionUnit.written (u : SessionUnit) (rest : List Queued) (r : JRecord) : SessionUnit :=
  match r with
  | .signOn session _ _ _ =>
    u.modify session fun x => { x with state := if x.state = .opening then .open_ else x.state }
  | .signOff session _ _ _ _ _ _ _ _ => u.modify session fun x => { x with state := .awaiting }
  | .issue session _ _ serial batch ty tender _ _ net =>
    let entry : LogEntry := { serial, stockType := ty, batch, session, tender, net, state := .issued }
    { u with log := addLogEntry u.log entry }
  | .void serial ty _ _ _ _ => u.settleVoid rest serial ty
  | .declare session _ _ _ _ _ => u.modify session Session.declared
  | .close session _ _ =>
    match u.find fun x => x.number == session with
    | some i => { u with table := u.table.put i none }
    | none => u
  | _ => u

/-- The cash-up slip of a session's declaration part is composed and handed on; whether it was kept (R121 step 3). -/
def State.slipFor (s : State) (number : Nat) : State × Bool :=
  match s.session number with
  | some x =>
    match x.part with
    | some d => s.handSlip (composeSlip x d)
    | none => (s, false)
  | none => (s, false)

/-- The figures of the DECLARE answer (R122). -/
def State.declaredFigures (s : State) (number : Nat) (kept : Bool) : Figures :=
  match s.session number with
  | some x =>
    match x.part with
    | some d => .declared number d x.unmatched x.saturated x.recovered kept
    | none => .nothing
  | none => .nothing

/-- The figures of the answer of a job whose record is written: ISSUED for a TICKET job, DONE for a TEST job (R19, R20). -/
def Job.completion (job : Job) : AnswerCode × Figures :=
  let sb := job.serial.getD (0, 0)
  match job.kind with
  | .ticket => (.issued, .issued sb.1 sb.2 job.printer job.net)
  | .test => (.done, .tested sb.1 sb.2 job.printer)

/-- The request or job that a written record completes is answered. -/
def State.answerWritten (s : State) (r : JRecord) (link : Link) : State :=
  match link with
  | .nothing =>
    match r with
    | .declare session _ _ _ _ _ => (s.slipFor session).1
    | _ => s
  | .request reply code figures => s.answer reply code figures
  | .job j =>
    match s.jobs.at j with
    | some job => s.endJob j job job.completion.1 job.completion.2
    | none => s
  | .declare reply =>
    match r with
    | .declare session _ _ _ _ _ =>
      let (s, kept) := s.slipFor session
      s.answer reply .done (s.declaredFigures session kept)
    | _ => s

/-- A written record is reported to the blocks of Table 8-1 (R151, R152). -/
def State.reportWritten (s : State) (q : Queued) : State :=
  let s := s.stockWritten q.record
  let s := s.updateSessions fun u => (u.addFigures q.record).written s.journal.queue q.record
  let s := match q.record.pendingFor with
    | some n => s.recordEnded n
    | none => s
  s.answerWritten q.record q.link

end Sys2Proof.Machine
end

