-- ==== Sys2Proof/Machine/Replay.lean ====
section
/-! DEFINITION. Replay of the journal at a restart: its bounds, the records it hands on, what the session unit and the
stock accounts unit make of them, and where it leaves the head (R165 to R167, R89, R111, R129, R153). -/

namespace Sys2Proof.Machine

/-! ### The chain (R165) -/

/-- A slot of the chain as replay finds it, with the page sequence number of its page. -/
structure FoundSlot where
  page : Fin 128
  pageSequence : Nat
  slot : Fin 16
  contents : SlotContents
  deriving DecidableEq, Repr

def pageHeader (m : List Host.Cell) (p : Fin 128) : Option Nat := headerSequence (readSlot m p 0)

def pageOf (n : Nat) : Fin 128 := ⟨n % 128, Nat.mod_lt _ (by decide)⟩

def previousPage (p : Fin 128) : Fin 128 := pageOf (p.val + 127)

/-- The page with the highest page sequence number among the headers that hold (R165 step 1). The spec does not say which
of two pages with the same highest number that is: DESIGN CHOICE, the lower-numbered page (log 45). -/
def headPage (m : List Host.Cell) : Option (Fin 128 × Nat) :=
  allPages.foldl (fun best n =>
    match pageHeader m (pageOf n), best with
    | none, _ => best
    | some q, none => some (pageOf n, q)
    | some q, some (p, b) => if b < q then some (pageOf n, q) else some (p, b)) none

/-- The pages from a page back, newest first, as long as headers hold and their numbers fall by one (R165 step 2). -/
def chainBack (m : List Host.Cell) : Nat → Fin 128 → Nat → List (Fin 128 × Nat)
  | 0, _, _ => []
  | fuel + 1, p, q =>
    (p, q) ::
      match pageHeader m (previousPage p) with
      | some q' => if q' + 1 = q then chainBack m fuel (previousPage p) q' else []
      | none => []

def recordSlots : List (Fin 16) := [1, 2, 3, 4, 5, 6, 7, 8, 9, 10, 11, 12, 13, 14, 15]

def pageSlots (m : List Host.Cell) (pq : Fin 128 × Nat) : List FoundSlot :=
  recordSlots.map fun k =>
    { page := pq.1, pageSequence := pq.2, slot := k, contents := slotContents (readSlot m pq.1 k) }

/-- The slots of the chain, oldest first. -/
def chainSlots (m : List Host.Cell) (head : Fin 128 × Nat) : List FoundSlot :=
  (chainBack m 128 head.1 head.2).reverse.flatMap (pageSlots m)

/-! ### The newest usable checkpoint (R165 step 3) -/

def SlotContents.isGood : SlotContents → Bool
  | .good _ _ _ => true
  | .erased => false
  | .torn => false

def SlotContents.sequence? : SlotContents → Option Nat
  | .good _ q _ => some q
  | .erased => none
  | .torn => none

/-- The record in a slot. A good slot whose body holds a code outside its enumeration spells none: DESIGN CHOICE, its
number counts as replayed and it is handed to no block (log 50). -/
def SlotContents.record? : SlotContents → Option JRecord
  | .good kind _ body => recordOfBody kind body
  | .erased => none
  | .torn => none

/-- Slots that hold good records numbered on from a number. -/
def consecutive : Nat → List FoundSlot → Bool
  | _, [] => true
  | q, x :: xs => x.contents.sequence? == some q && consecutive (q + 1) xs

/-- A checkpoint that replay may start from. -/
structure FoundCheckpoint where
  beginPage : Fin 128
  nextSession : Nat
  records : List JRecord
  /-- The slot of its CHECKPOINT_END. -/
  last : FoundSlot
  deriving DecidableEq, Repr

/-- The usable checkpoint that ends at a slot, given the older slots newest first. -/
def checkpointAt (e : FoundSlot) (older : List FoundSlot) : Option FoundCheckpoint :=
  match e.contents, e.contents.record? with
  | .good _ q _, some (.checkpointEnd b n) =>
    let run := (older.take (n + 1)).reverse
    match run with
    | first :: between =>
      match first.contents.record? with
      | some (.checkpointBegin next following) =>
        if between.length = n ∧ following = n ∧ q = b + n + 1 ∧ consecutive b run then
          some { beginPage := first.page, nextSession := next
                 records := between.filterMap fun x => x.contents.record?, last := e }
        else none
      | _ => none
    | [] => none
  | _, _ => none

/-- The newest usable checkpoint among slots newest first, and the slots after it, oldest first. -/
def findCheckpoint : List FoundSlot → List FoundSlot → Option (FoundCheckpoint × List FoundSlot)
  | [], _ => none
  | e :: older, later =>
    match checkpointAt e older with
    | some c => some (c, later)
    | none => findCheckpoint older (e :: later)

/-! ### The records that replay hands on (R166) -/

/-- A good record numbered one above the last one replayed; any number when none has been. -/
def follows (last : Option Nat) (x : FoundSlot) : Bool :=
  match x.contents.sequence?, last with
  | some q, some l => q == l + 1
  | some _, none => true
  | none, _ => false

/-- The slots whose records are replayed. A stop in a page other than the head page ends only that page when the next
page's slot 1 holds the next record; `ended` is the page so ended. -/
def replayed (head : Fin 128) : Option (Fin 128) → Option Nat → List FoundSlot → List FoundSlot
  | _, _, [] => []
  | some p, last, x :: xs =>
    if x.page = p then replayed head (some p) last xs
    else if follows last x then x :: replayed head none x.contents.sequence? xs
    else []
  | none, last, x :: xs =>
    if follows last x then x :: replayed head none x.contents.sequence? xs
    else if x.page = head then []
    else replayed head (some x.page) last xs

/-! ### The snapshot handed on (R89 step 1, R111 step 1, R129 step 1) -/

/-- A session put into the lowest-numbered free record. With none free, which only a replay that holds sessions whose
CLOSE it has not met can reach: DESIGN CHOICE, none is added (log 49). -/
def SessionUnit.add (u : SessionUnit) (x : Session) : SessionUnit :=
  match u.freeRecord with
  | some i => { u with table := u.table.put i (some x) }
  | none => u

/-- The session that a SESSION_A starts, when its other three records are present with its number (R202). -/
def snapshotSession (records : List JRecord) (r : JRecord) : Option Session :=
  match r with
  | .sessionA number clerk w st float issued voided refunds spoiled tests saturated recovered => do
    let base := newSession number clerk w float st
    let base := { base with issued, voided, refunds, spoiled, test := tests, saturated, recovered }
    let base ← records.findSome? fun r =>
      match r with
      | .sessionB n i v => if n = number then some { base with issueTotal := i, voidTotal := v } else none
      | _ => none
    let base ← records.findSome? fun r =>
      match r with
      | .sessionC n t unmatched => if n = number then some { base with refundTotal := t, unmatched } else none
      | _ => none
    records.findSome? fun r =>
      match r with
      | .sessionD n count declared allowance band sessionBand =>
        if n = number then
          some (if count = 0 then base
            else { base with part := some (base.rebuiltPart count declared allowance band sessionBand) })
        else none
      | _ => none
  | _ => none

/-- The store batches of a snapshot with their positions. -/
def insertByPosition (x : Nat × Batch) : List (Nat × Batch) → List (Nat × Batch)
  | [] => [x]
  | y :: ys => if x.1 ≤ y.1 then x :: y :: ys else y :: insertByPosition x ys

/-- The batch that a BATCH_STATE carries, with its printer and store position (R89). -/
def snapshotBatch (r : JRecord) : Option (Option Printer × Nat × Batch) :=
  match r with
  | .batchState id ty first last next issued spoiled unaccounted tests st p position =>
    some (p, position, { newBatch id ty first last with next, issued, spoiled, unaccounted, test := tests, state := st })
  | _ => none

/-- The batches of a snapshot, the store list in the order of the positions (R89). Of two batches at one printer, which no
checkpoint of this part carries: DESIGN CHOICE, the later stands (log 51). -/
def snapshotStock (records : List JRecord) : Stock :=
  let found := records.filterMap snapshotBatch
  let store := found.filterMap fun x => if x.1.isNone then some x.2 else none
  found.foldl
    (fun k x =>
      match x.1 with
      | some p => { k with loaded := k.loaded.put p (some x.2.2) }
      | none => k)
    { emptyStock with store := (store.foldr insertByPosition []).map (·.2) }

/-! ### What the session unit makes of later records (R111, R129) -/

/-- What a replayed record makes of the sessions, in journal order; one that names a session with no live record changes
none, by the model's choice (log 49). -/
def SessionUnit.replay (u : SessionUnit) (r : JRecord) : SessionUnit :=
  let u := u.addFigures r
  match r with
  | .signOn number clerk w float =>
    { u.add (newSession number clerk w float .open_) with nextNumber := nextSessionNumber number }
  | .signOff number _ _ _ _ _ _ _ _ => u.modify number fun x => { x with state := .awaiting }
  | .declare number count declared allowance band sessionBand =>
    u.modify number fun x =>
      { x with state := .declared, part := some (x.rebuiltPart count declared allowance band sessionBand) }
  | .close _ _ _ => u.written [] r
  | .restart _ _ =>
    { u with table := u.table.map (Option.map fun x =>
        if x.state = .open_ then { x with recovered := true } else x) }
  | _ => u

/-- The end of replay: OPEN sessions are RECOVERED, records stand in increasing order of session number from the
lowest-numbered on, and the issue log is empty (R111 step 3). -/
def SessionUnit.recovered (u : SessionUnit) : SessionUnit :=
  let mark (x : Session) : Session := if x.state = .open_ then { x with recovered := true } else x
  let live := u.live.map mark
  { table := Vector.ofFn fun i => live[i.val]?, nextNumber := u.nextNumber, log := [] }

/-! ### Where replay leaves the journal (R167, R153) -/

/-- Pages 0 to 63 and pages 64 to 127. -/
def upperHalf (p : Fin 128) : Bool := 64 ≤ p.val

/-- The head after replay: the slot after the last good record when it is erased, else the page after the head page
(R167). A last good record in slot 15 of a page before the head page has no slot after it in its page: DEDUCED, R167's
"filled slot 15" covers it, and the head page is passed over though its slot 1 be erased (log 59). -/
def Journal.placeHead (j : Journal) (head : Fin 128 × Nat) (last : Option FoundSlot) : Journal :=
  let enter := { j with page := head.1, pageSequence := head.2 }.enterPage .erasing false
  let place (p : Fin 128) (q : Nat) (k : Fin 16) : Journal :=
    if slotContents (readSlot j.memory p k) = .erased then { j with page := p, pageSequence := q, slot := k }
    else enter
  match last with
  | some x => if h : x.slot.val < 15 then place x.page x.pageSequence ⟨x.slot.val + 1, by omega⟩ else enter
  | none => place head.1 head.2 1

/-- An empty journal enters page 0 with page sequence number 1 and a checkpoint due (R167); what its pages hold goes as
the head enters each. -/
def Journal.fresh (j : Journal) : Journal :=
  { j with page := 0, slot := 0, pageSequence := 1, nextSequence := 1, writer := .erasing, checkpointDue := true }

/-- Journal memory renewed: erased whole, and left as an empty journal (R153; log 35). -/
def Journal.renewed (j : Journal) : Journal := { j with memory := [] }.fresh

/-- What replay finds. -/
structure Found where
  head : Fin 128 × Nat
  checkpoint : Option FoundCheckpoint
  /-- The replayed slots, oldest first. -/
  slots : List FoundSlot
  deriving DecidableEq, Repr

/-- The bounds and the records of replay; `none` when the journal is empty (R165, R166). -/
def findReplay (m : List Host.Cell) : Option Found :=
  match headPage m with
  | none => none
  | some head =>
    let chain := chainSlots m head
    match findCheckpoint chain.reverse [] with
    | some (c, later) =>
      some { head, checkpoint := some c, slots := replayed head.1 none c.last.contents.sequence? later }
    | none =>
      some { head, checkpoint := none
             slots := replayed head.1 none none (chain.dropWhile fun x => !x.contents.isGood) }

/-- The slot of the last good record. -/
def Found.lastSlot (f : Found) : Option FoundSlot :=
  match f.slots.getLast? with
  | some x => some x
  | none => f.checkpoint.map FoundCheckpoint.last

/-- The sequence number of the last record that replay applied; 0 when it applied none (log 21). -/
def Found.lastSequence (f : Found) : Nat := (f.lastSlot.bind fun x => x.contents.sequence?).getD 0

/-- The stock rebuilt (R89, R90). -/
def Found.stock (f : Found) : Stock :=
  let start := match f.checkpoint with
    | some c => snapshotStock c.records
    | none => emptyStock
  ((f.slots.filterMap fun x => x.contents.record?).foldl Stock.apply start).recovered

/-- The sessions rebuilt (R111, R129). With no snapshot the next session number begins at 1, as in an empty journal (DESIGN
CHOICE, log 49). -/
def Found.sessions (f : Found) : SessionUnit :=
  let start := match f.checkpoint with
    | some c =>
      (c.records.filterMap (snapshotSession c.records)).foldl SessionUnit.add
        { emptySessions with nextNumber := c.nextSession }
    | none => emptySessions
  ((f.slots.filterMap fun x => x.contents.record?).foldl SessionUnit.replay start).recovered

/-- The head, the sequence number and a checkpoint due, as replay leaves them (R167). -/
def Journal.afterReplay (j : Journal) (f : Found) : Journal :=
  let j := { j.placeHead f.head f.lastSlot with nextSequence := f.lastSequence + 1 }
  let due := match f.checkpoint with
    | some c => upperHalf c.beginPage != upperHalf j.page
    | none => true
  { j with checkpointDue := j.checkpointDue || due }

/-- A writer that replay leaves with nothing to erase takes what is next (R167, R177). -/
def State.startWriter (s : State) : State := if s.journal.writer = .idle then s.startNext else s

/-- Replay, from the state a restart left: stock and sessions rebuilt, the head set, and the writer set to work, renewed
or STOPPED (R153, R165 to R167, R177). With the sequence at its limit in slot 15 the head then names the next page, which
no erase has made ready (DESIGN CHOICE, log 43). R160 does not say whether the UNVERIFIED that R90 gives a loaded batch is
how the written records leave it: DESIGN CHOICE, the written standing takes it, so a checkpoint carries UNVERIFIED until a
record that sets the state is written (log 60). The answer is the state and the last sequence number replayed. -/
def State.replay (s : State) (cause : RestartCause) : State × Nat :=
  match findReplay s.journal.memory with
  | none => (s.updateJournal Journal.fresh, 0)
  | some f =>
    let s := { s with stock := f.stock, standing := f.stock, sessions := f.sessions }
    if f.lastSequence = Config.lastSequence then
      if cause = .resetFrame then (s.updateJournal Journal.renewed, f.lastSequence)
      else ((s.updateJournal fun j => j.afterReplay f).stopJournal, f.lastSequence)
    else ((s.updateJournal fun j => j.afterReplay f).startWriter, f.lastSequence)

end Sys2Proof.Machine
end

