-- ==== Sys2Proof/Machine/Recovery.lean ====
section
/-! DEFINITION. Restart and recovery (R173 to R178, R71, R147, R169, R195, R198). -/

namespace Sys2Proof.Machine

/-! ### Restart -/

/-- Free bytes written over `n` addresses: what a cut-short write or erase leaves (R173; log 7). -/
def tear (draw : Nat) (m : List Host.Cell) (a n : Nat) : List Host.Cell :=
  Memory.writeAll m a ((List.range n).map fun i => Config.tornByte draw (a + i))

/-- Journal memory after a restart stops the writer where it stands (R173). -/
def Journal.tornMemory (j : Journal) (draw : Nat) : List Host.Cell :=
  match j.writer with
  | .writing => tear draw j.memory (slotAddress j.page j.slot) Config.slotBytes
  | .erasing => tear draw j.memory (slotAddress j.page 0) Config.pageBytes
  | .checkpoint _ true _ => tear draw j.memory (slotAddress j.page 0) Config.pageBytes
  | .checkpoint _ false _ => tear draw j.memory (slotAddress j.page j.slot) Config.slotBytes
  | .idle => j.memory
  | .stopped => j.memory

/-- The journal unit while the controller is held in restart: memory kept, the rest lost (R169). What the lost fields
hold until replay sets them is a DESIGN CHOICE (log 58). -/
def emptyJournal (m : List Host.Cell) : Journal :=
  { memory := m, page := 0, slot := 0, pageSequence := 0, nextSequence := 1, queue := [], reserved := 0, claims := []
    writer := .idle, checkpointDue := false }

/-- The controller restarts: every block stops, the non-volatile stores stay, and the controller is held in restart
with the cause (R173, R174, R23, R169, R198). What each lost field holds before recovery sets it is a DESIGN CHOICE:
its value at power-on with empty stores, and nothing recorded (log 58). -/
def State.restart (s : State) (cause : RestartCause) : State :=
  { s with
    phase := .restarting cause
    supply := .normal
    office := Vector.replicate 8 emptyOfficePort
    store := { s.store with write := none }
    jobs := Vector.replicate 32 none
    queues := Vector.replicate 12 []
    ports := Vector.replicate 12 emptyPort
    stock := emptyStock
    standing := emptyStock
    sessions := emptySessions
    monitor := emptyMonitor
    journal := emptyJournal (s.journal.tornMemory s.draws)
    draws := s.draws + 1 }

/-! ### Recovery -/

/-- The table store's contents as recovery loads them: factory contents when it holds none (R176, R195). -/
def TableStore.loadedContents (t : TableStore) : TableStore :=
  if t.valid then t else { t with tables := factoryTables, reporting := false, causes := noCauses }

/-- Recovery begins: the tables are loaded and the cause write begins; with no valid store the journal is erased as
well (R176; log 4, log 35). -/
def State.beginRecovery (s : State) (cause : RestartCause) : State :=
  { s with
    phase := .recovering cause true
    store := { s.store.loadedContents with write := some (.cause cause) }
    journal := if s.store.valid then s.journal else { s.journal with memory := [] } }

/-- The hold-reason set of a port after a restart, AUDIT apart, which the test of R66 settles (R71). -/
def State.restartHolds (s : State) (p : Printer) : HoldSet :=
  if s.function p = .ticket then
    match s.loaded p with
    | some b =>
      (noHolds.put HoldReason.stockUnverified.place true).put HoldReason.noStock.place (b.state == .exhausted)
    | none => noHolds.put HoldReason.noStock.place true
  else noHolds

/-- An engine takes its values after a restart, and begins an attach unless its function is OFF (R71, R178 step 3). -/
def State.restartPort (s : State) (p : Printer) : State :=
  let s := s.setPort p { emptyPort with hold := s.restartHolds p }
  if s.function p = .off then s else s.beginAttach p

/-- The condition monitor takes its RESTART record and the occurrences reported during recovery (R147, R178 step 2). -/
def State.recordWaiting (s : State) : State :=
  let waiting := s.monitor.waiting
  let s := { s with monitor := { s.monitor with faults := [restartFault], nextSequence := 2, waiting := [] } }
  waiting.foldl State.recordReport s

/-- The third step of recovery (R178). -/
def State.completeRecovery (s : State) (cause : RestartCause) (lastReplayed : Nat) : State :=
  let s := s.hand (.restart cause lastReplayed) .nothing
  let s := s.recordWaiting
  let s := allPrinters.foldl State.restartPort s
  State.settle { s with phase := .running }

/-- The cause write ends: the store holds valid contents with the cause in its set, the journal is replayed and
recovery completes (R175 to R178; log 4). -/
def State.finishRecovery (s : State) (cause : RestartCause) : State :=
  let store := { s.store with valid := true, causes := s.store.causes.put cause.place true, write := none }
  let (s, last) := State.replay { s with store } cause
  s.completeRecovery cause last

end Sys2Proof.Machine
end

