-- ==== Sys2Proof/Machine/OfficeLink.lean ====
section
/-! DEFINITION. The office link interface: frames that arrive and leave, and requests taken from a receive buffer
(R132, R184 to R189, R176, R181). -/

namespace Sys2Proof.Machine

/-! ### Frames that arrive and leave -/

/-- The port table is loaded and marks the port enabled: line events there are taken (R176, R184). -/
def State.hearsLine (s : State) (w : Window) : Bool :=
  match s.phase with
  | .restarting _ => false
  | .recovering _ loaded => loaded && (s.portEntry w).enabled
  | .running => (s.portEntry w).enabled

/-- An answer at once that counts against no credit (R186, R188). -/
def Reply.uncounted (w : Window) (tag : Byte) : Reply := { window := w, tag, number := none }

/-- FRAME_RECEIVED: the frame joins the receive buffer and ends the port's line conditions, or a full buffer discards it
with OVERRUN (R132, R185). During recovery it is answered BUSY at once (R176; log 12). -/
def execFrameReceived (w : Window) (kind tag : Byte) (body : List Byte) (s : State) :
    Host.Outcome State Fault Refusal :=
  .next <|
    if s.hearsLine w then
      match s.phase with
      | .running =>
        let o := s.office.at w
        if o.buffer.length < Config.bufferFrames then
          (s.setOffice w { o with buffer := o.buffer ++ [{ kind, tag, body }] }).endLineConditions w
        else s.raise (.window w .overrun)
      | _ => (s.endLineConditions w).refuse (Reply.uncounted w tag) .busy
    else s

/-- A frame discarded for a line error raises its condition (R132). -/
def State.lineError (s : State) (w : Window) (c : LineFault) : State :=
  if s.hearsLine w then s.raise (.window w c) else s

/-- FRAME_DISCARDED: PARITY, else FRAMING, else CHECK (R132, R184). -/
def execFrameDiscarded (w : Window) (parity framing : Bool) (s : State) : Host.Outcome State Fault Refusal :=
  .next (s.lineError w (if parity then .parity else if framing then .framing else .check))

/-- GAP_TIMER_EXPIRY: the frame in progress is discarded and CHECK is raised (R132, R184). -/
def execGapTimerExpiry (w : Window) (s : State) : Host.Outcome State Fault Refusal := .next (s.lineError w .check)

/-- The frame is the ANSWER of an accepted RESET of scope FULL (R181). -/
def OutFrame.restarts : OutFrame → Bool
  | .answer _ _ _ r => r
  | .notice _ _ _ => false

/-- FRAME_TRANSMITTED: the frame at the head leaves the send list (R188); after the ANSWER of a RESET of scope FULL the
controller restarts with cause RESET_FRAME (R181). R189 tests the port when a NOTICE is handed, and R194 does not say what
becomes of one already in the list of a port that a load then disables: DESIGN CHOICE, it stays and is sent in its turn
(log 61). -/
def execFrameTransmitted (w : Window) (s : State) : Host.Outcome State Fault Refusal :=
  .next <|
    match (s.office.at w).sendList with
    | [] => s
    | f :: rest =>
      let s := s.setOffice w { s.office.at w with sendList := rest }
      if f.restarts then s.restart .resetFrame else s

/-! ### Requests taken from a receive buffer -/

/-- The request is admitted: it takes a unit of credit (R186 case 3). -/
def State.takeCredit (s : State) (w : Window) (tag : Byte) : State × Reply :=
  let o := s.office.at w
  let n := s.nextRequest
  ({ s.setOffice w { o with unanswered := o.unanswered ++ [{ number := n, tag }] } with nextRequest := n + 1 },
   { window := w, tag, number := some n })

/-- The frame at the head of a buffer is taken, when it is one that the command takes, and handled by the first case of
R186 that applies. `cancel` says that the frame is a CANCEL; `check` is R187 and the owner. -/
def State.takeFrame (s : State) (w : Window) (mine : Frame → Bool) (cancel : Bool)
    (check : State → Reply → Frame → State) : State :=
  match (s.office.at w).buffer with
  | [] => s
  | f :: rest =>
    if mine f then
      match s.phase with
      | .restarting _ => s
      | .recovering _ _ =>
        (s.setOffice w { s.office.at w with buffer := rest }).refuse (Reply.uncounted w f.tag) .busy
      | .running =>
        let s := s.setOffice w { s.office.at w with buffer := rest }
        if (s.portEntry w).enabled then
          if (s.office.at w).credit = Config.creditLimit then
            if cancel then check s (Reply.uncounted w f.tag) f
            else s.refuse (Reply.uncounted w f.tag) .windowFull
          else
            let (s, r) := s.takeCredit w f.tag
            check s r f
        else s
    else s

/-- R187 steps 2 and 3 before the owner: the shape check, then permission. -/
def State.checked {α : Type} (kind : RequestKind) (read : List Byte → Option α) (owner : State → Reply → α → State)
    (s : State) (r : Reply) (f : Frame) : State :=
  match read f.body with
  | none => s.refuse r .badValue
  | some a => if kind.management && !(s.portEntry r.window).supervisor then s.refuse r .notPermitted else owner s r a

/-- A request of a kind is taken (R186, R187) and handed to its owner. -/
def State.takeRequest {α : Type} (s : State) (w : Window) (kind : RequestKind) (read : List Byte → Option α)
    (owner : State → Reply → α → State) : State :=
  s.takeFrame w (fun f => requestKindOf f.kind == some kind) (kind == .cancel) (State.checked kind read owner)

/-- NON_REQUEST_FRAME: a frame of no request kind is answered BAD_VALUE (R187 step 1). -/
def execNonRequestFrame (w : Window) (s : State) : Host.Outcome State Fault Refusal :=
  .next (s.takeFrame w (fun f => (requestKindOf f.kind).isNone) false fun s r _ => s.refuse r .badValue)

/-- The first checks of a request that needs a journal place: JOURNAL_STOPPED while the journal is STOPPED, then BUSY
in supply WARNING (R3, R76, R95, R102, R104, R107, R115, R124). -/
def State.journalRefusal (s : State) : Option AnswerCode :=
  if s.journal.stopped then some .journalStopped
  else if s.supply = .warning then some .busy
  else none

/-- A request that passes the first checks goes on to its own. -/
def State.withJournal (s : State) (r : Reply) (own : State) : State :=
  match s.journalRefusal with
  | some code => s.refuse r code
  | none => own

end Sys2Proof.Machine
end

