-- ==== Sys2Proof/Machine/Clerk.lean ====
section
/-! DEFINITION. Clerk requests: SIGNON, SIGNOFF, ISSUE, TESTPRINT, CANCEL, VOID, REFUND (Chapters 1 and 5). -/

namespace Sys2Proof.Machine

/-- The record of an accepted request is handed on its granted place, and its writing will answer the request (R156). -/
def State.handFor (s : State) (record : JRecord) (r : Reply) (code : AnswerCode) (figures : Figures) : State :=
  s.hand record (.request r code figures)

/-! ### SIGNON (R95) -/

/-- A clerk number belongs to a session in OPENING, OPEN or CLOSING (R94). -/
def State.clerkSignedOn (s : State) (clerk : Nat) : Bool :=
  (s.sessions.find fun x => x.clerk == clerk && x.current).isSome

/-- Table 5-3 after its first two checks: the refusal, or the free record. -/
def State.signonCheck (s : State) (w : Window) (clerk float : Nat) : Except AnswerCode (Fin 24) :=
  if ¬ (1 ≤ clerk ∧ clerk ≤ 9999 ∧ float ≤ 9999999) then .error .badValue
  else if (s.currentSession w).isSome || s.clerkSignedOn clerk then .error .wrongState
  else
    match s.sessions.freeRecord with
    | none => .error .tableFull
    | some i => if s.journal.grantsRequest then .ok i else .error .busy

/-- The session number of the next SIGNON (R93). -/
def SessionUnit.takenNumber (u : SessionUnit) : Nat := freeSessionNumber u 24 u.nextNumber

/-- The session is made in OPENING and its SIGN_ON record handed (R95). -/
def State.openSessionRecord (s : State) (w : Window) (clerk float : Nat) (i : Fin 24) (r : Reply) : State :=
  let n := s.sessions.takenNumber
  let s := s.updateSessions fun u =>
    { u with table := u.table.put i (some (newSession n clerk w float .opening)), nextNumber := nextSessionNumber n }
  s.handFor (.signOn n clerk w float) r .done (.session n)

def ownSignon (s : State) (r : Reply) (a : Nat × Nat) : State :=
  s.withJournal r <|
    match s.signonCheck r.window a.1 a.2 with
    | .error code => s.refuse r code
    | .ok i => s.openSessionRecord r.window a.1 a.2 i r

/-- SIGNON (R95). -/
def execSignon (w : Window) (s : State) : Host.Outcome State Fault Refusal :=
  .next (s.takeRequest w .signon readSignon ownSignon)

/-! ### SIGNOFF (R107) -/

def ownSignoff (s : State) (r : Reply) (_ : Unit) : State :=
  s.withJournal r <|
    match s.openSession r.window with
    | none => s.refuse r .noSession
    | some x =>
      let s := s.modifySession x.number fun x => { x with state := .closing, signOff := some r }
      (s.signOffTest x.number).settle

/-- SIGNOFF (R107). -/
def execSignoff (w : Window) (s : State) : Host.Outcome State Fault Refusal :=
  .next (s.takeRequest w .signoff readNothing ownSignoff)

/-! ### ISSUE and TESTPRINT (R3 to R8) -/

/-- The candidates of a route entry, primary first (R5). -/
def State.candidates (s : State) (e : RouteEntry) : List Printer :=
  [e.primary, e.second].filterMap fun p => p.filter fun q => s.function q == .ticket

/-- A candidate is usable for a stock type (R6). -/
def State.usable (s : State) (ty : StockType) (p : Printer) : Bool :=
  (s.ports.at p).attached &&
    (s.loaded p).any fun b => b.stockType == ty && (b.state == .loaded || b.state == .unverified)

/-- The printer chosen for a job, or the refusal of Table 1-3 (R6). -/
def State.choosePrinter (s : State) (w : Window) (ty : StockType) : Except AnswerCode Printer :=
  let cs := s.candidates (s.routeEntry w ty)
  let us := cs.filter (s.usable ty)
  match us.find? fun p => (s.ports.at p).state == .active with
  | some p => .ok p
  | none =>
    match us with
    | p :: _ => .ok p
    | [] =>
      if cs.isEmpty then .error .noRoute
      else if cs.any fun p => (s.ports.at p).attached then .error .noStock
      else .error .printerUnavailable

/-- The lowest-numbered free job record (R1). -/
def State.freeJob (s : State) : Option JobNumber := allJobs.find? fun j => (s.jobs.at j).isNone

/-- An accepted job takes a record and joins the tail of its printer's queue, and its session counts it (R1, R7, R8,
R99). The pool always has room (R1); log 29 says what the model does if it had none. -/
def State.acceptJob (s : State) (job : Job) : State :=
  match s.freeJob with
  | none => s.refuse job.origin .busy
  | some j =>
    let s := s.setJob j (some job)
    let s := s.setQueue job.printer (s.queues.at job.printer ++ [j])
    let s := s.modifySession job.session fun x => { x with jobs := x.jobs + 1 }
    s.settle

/-- Checks 2 and 3 of R4: the stock type, the discount code and its entry. -/
def State.issueValues (s : State) (a : IssueBody) : Option (StockType × Fin 64 × DiscountEntry) := do
  let code ← index? 64 a.discount
  let entry := s.store.tables.discounts.at code
  let ty ← index? 16 a.stockType
  if entry.enabled ∧ a.gross ≤ 999999 ∧ a.fields.length ≤ 8 ∧ a.fields.all (fun f => f.length ≤ 32) then
    return (ty, code, entry)
  else none

/-- The job that an ISSUE is accepted as, or the refusal (R4, R7). -/
def State.issueJob (s : State) (r : Reply) (a : IssueBody) : Except AnswerCode Job :=
  match s.openSession r.window with
  | none => .error .noSession
  | some x =>
    match s.issueValues a with
    | none => .error .badValue
    | some (ty, code, entry) =>
      match s.choosePrinter r.window ty with
      | .error e => .error e
      | .ok p =>
        .ok { kind := .ticket, origin := r, session := x.number, stockType := ty, tender := some a.tender
              discount := code, gross := a.gross, net := netFare a.gross entry, fields := a.fields, printer := p
              image := none, serial := none, spare := none, retry := 0, state := .queued }

def ownIssue (s : State) (r : Reply) (a : IssueBody) : State :=
  s.withJournal r <|
    match s.issueJob r a with
    | .error code => s.refuse r code
    | .ok job => s.acceptJob job

/-- ISSUE (R4). -/
def execIssue (w : Window) (s : State) : Host.Outcome State Fault Refusal :=
  .next (s.takeRequest w .issue readIssue ownIssue)

/-- The job that a TESTPRINT is accepted as, or the refusal (R8). -/
def State.testJob (s : State) (r : Reply) (stockType : Nat) : Except AnswerCode Job :=
  match s.openSession r.window with
  | none => .error .noSession
  | some x =>
    match index? 16 stockType with
    | none => .error .badValue
    | some ty =>
      match s.choosePrinter r.window ty with
      | .error e => .error e
      | .ok p =>
        .ok { kind := .test, origin := r, session := x.number, stockType := ty, tender := none, discount := 0
              gross := 0, net := 0, fields := [], printer := p, image := none, serial := none, spare := none
              retry := 0, state := .queued }

def ownTestprint (s : State) (r : Reply) (stockType : Nat) : State :=
  s.withJournal r <|
    match s.testJob r stockType with
    | .error code => s.refuse r code
    | .ok job => s.acceptJob job

/-- TESTPRINT (R8). -/
def execTestprint (w : Window) (s : State) : Host.Outcome State Fault Refusal :=
  .next (s.takeRequest w .testprint readByte ownTestprint)

/-! ### CANCEL (R18) -/

/-- The job a CANCEL concerns: the lowest-numbered one of the window with the tag. -/
def State.jobWithTag (s : State) (w : Window) (tag : Nat) : Option (JobNumber × Job) :=
  allJobs.findSome? fun j =>
    match s.jobs.at j with
    | some job => if job.origin.window = w ∧ job.origin.tag.toNat = tag then some (j, job) else none
    | none => none

/-- The job is withdrawn and answered CANCELLED, then the CANCEL DONE; a claim made for it as the head of its queue is
withdrawn (R18, R158; log 39). -/
def State.cancelJob (s : State) (r : Reply) (j : JobNumber) (job : Job) : State :=
  let s := if (s.queues.at job.printer).head? = some j then s.withdrawClaim (.engine job.printer) else s
  ((s.refuseJob j job .cancelled).refuse r .done).settle

def ownCancel (s : State) (r : Reply) (tag : Nat) : State :=
  match s.jobWithTag r.window tag with
  | none => s.refuse r .badValue
  | some (j, job) => if job.state = .queued then s.cancelJob r j job else s.refuse r .notCancellable

/-- CANCEL (R18). -/
def execCancel (w : Window) (s : State) : Host.Outcome State Fault Refusal :=
  .next (s.takeRequest w .cancel readByte ownCancel)

/-! ### VOID (R102) -/

/-- Table 5-8 after its first two checks: the refusal, or the entry. -/
def State.voidCheck (s : State) (w : Window) (stockType serial : Nat) : Except AnswerCode LogEntry :=
  match s.openSession w with
  | none => .error .noSession
  | some x =>
    match index? 16 stockType with
    | none => .error .badValue
    | some ty =>
      if ¬ (1 ≤ serial ∧ serial ≤ 999999) then .error .badValue
      else
        match s.sessions.logEntry serial ty with
        | none => .error .unknownSerial
        | some e =>
          if ¬ (e.state = .issued ∧ e.session = x.number) then .error .notVoidable
          else if s.journal.grantsRequest then .ok e
          else .error .busy

def LogEntry.voidRecord (e : LogEntry) : JRecord := .void e.serial e.stockType e.batch e.session e.tender e.net

def ownVoid (s : State) (r : Reply) (a : Nat × Nat) : State :=
  s.withJournal r <|
    match s.voidCheck r.window a.1 a.2 with
    | .error code => s.refuse r code
    | .ok e =>
      (s.updateSessions fun u => u.setLogState e.serial e.stockType .voidPending).handFor e.voidRecord r .voided
        (.voided e.serial e.tender e.net)

/-- VOID (R102). -/
def execVoid (w : Window) (s : State) : Host.Outcome State Fault Refusal :=
  .next (s.takeRequest w .void readVoid ownVoid)

/-! ### REFUND (R104, R105) -/

/-- The values of a REFUND in range (Table 5-9). -/
def RefundBody.values (a : RefundBody) : Option StockType :=
  if a.serial.all (fun n => 1 ≤ n ∧ n ≤ 999999) ∧ a.amount ≤ 999999 then index? 16 a.stockType else none

/-- The entry that a REFUND is matched against (R105). -/
def State.refundEntry (s : State) (ty : StockType) (serial : Option Nat) : Option LogEntry :=
  serial.bind fun n => s.sessions.logEntry n ty

/-- Table 5-9 after its first two checks: the refusal, or the session and the entry, if any. -/
def State.refundCheck (s : State) (w : Window) (a : RefundBody) : Except AnswerCode (Session × Option LogEntry) :=
  match s.openSession w with
  | none => .error .noSession
  | some x =>
    match a.values with
    | none => .error .badValue
    | some ty =>
      let entry := s.refundEntry ty a.serial
      if entry.any fun e => e.state != .issued then .error .notRefundable
      else if s.journal.grantsRequest then .ok (x, entry)
      else .error .busy

/-- An accepted REFUND (R105). -/
def State.acceptRefund (s : State) (r : Reply) (a : RefundBody) (x : Session) (entry : Option LogEntry) : State :=
  match entry with
  | some e =>
    let used := min a.amount e.net
    let s := s.updateSessions fun u => u.setLogState e.serial e.stockType .refunded
    s.handFor (.refund x.number r.window a.tender used (some (e.serial, e.stockType, e.session))) r .refunded
      (.refunded used true)
  | none =>
    s.handFor (.refund x.number r.window a.tender a.amount none) r .refunded (.refunded a.amount false)

def ownRefund (s : State) (r : Reply) (a : RefundBody) : State :=
  s.withJournal r <|
    match s.refundCheck r.window a with
    | .error code => s.refuse r code
    | .ok (x, entry) => s.acceptRefund r a x entry

/-- REFUND (R104). -/
def execRefund (w : Window) (s : State) : Host.Outcome State Fault Refusal :=
  .next (s.takeRequest w .refund readRefund ownRefund)

end Sys2Proof.Machine
end

