-- ==== Sys2Proof/Machine/Management.lean ====
section
/-! DEFINITION. Management requests that change the controller: stock, holds, cash-up, table store writes and RESET
(Chapters 3, 4, 6, 7, 9 and 10). -/

namespace Sys2Proof.Machine

/-! ### STOCKIN (R77) -/

/-- The range of a new batch shares no serial with a record's remaining range, next to last, which is empty when no
serial remains (Table 4-4). -/
def apart (first last : Nat) (b : Batch) : Bool :=
  (last < b.next : Bool) || (b.last < first : Bool) || (b.last < b.next : Bool)

/-- The values of a STOCKIN, its identifier and its range (Table 4-4, rows 1 to 4). -/
def State.stockinValues (s : State) (a : StockinBody) : Option StockType := do
  let ty ← index? 16 a.stockType
  if 1 ≤ a.id ∧ a.id ≤ 65535 ∧ 1 ≤ a.first ∧ a.first ≤ 999999 ∧ 1 ≤ a.last ∧ a.last ≤ 999999 ∧ a.first ≤ a.last ∧
      a.last - a.first + 1 ≤ 2000 ∧ (s.stock.find a.id).isNone ∧
      s.stock.batches.all (fun b => b.stockType != ty || apart a.first a.last b) then
    return ty
  else none

def ownStockin (s : State) (r : Reply) (a : StockinBody) : State :=
  s.withJournal r <|
    match s.stockinValues a with
    | none => s.refuse r .badValue
    | some ty =>
      if Config.storePlaces ≤ s.stock.store.length then s.refuse r .tableFull
      else if s.journal.grantsRequest then
        let position := s.stock.store.length
        let b := newBatch a.id ty a.first a.last
        let s := { s with stock := { s.stock with store := s.stock.store ++ [b] } }
        s.handFor (.batchIn a.id ty a.first a.last) r .done (.storePosition position)
      else s.refuse r .busy

/-- STOCKIN (R77). -/
def execStockin (w : Window) (s : State) : Host.Outcome State Fault Refusal :=
  .next (s.takeRequest w .stockin readStockin ownStockin)

/-! ### STOCKLOAD (R78) -/

/-- A batch record can leave the unit: nothing in hand and nothing unrecorded (R73). -/
def Batch.settled (b : Batch) : Bool := b.inHand == 0 && b.unrecorded == 0

/-- Checks 1 to 6 of R78: the refusal, or the printer and the store record. -/
def State.stockloadCheck (s : State) (id printer : Nat) : Except AnswerCode (Printer × Batch) :=
  match index? 12 printer with
  | none => .error .badValue
  | some p =>
    if ¬ (1 ≤ id ∧ id ≤ 65535) then .error .badValue
    else if (s.stock.find id).isNone then .error .badValue
    else
      match s.stock.store.find? fun b => b.id == id with
      | none => .error .wrongState
      | some b =>
        if s.function p ≠ .ticket then .error .wrongState
        else if (s.loaded p).any fun old => old.state != .exhausted then .error .wrongState
        else if ¬ (s.ports.at p).entries.isEmpty ∨ (s.loaded p).any (fun old => !old.settled) then .error .busy
        else if s.journal.grantsRequest then .ok (p, b)
        else .error .busy

/-- A closing record still owed for the batch at a printer is not handed, and its claim is withdrawn (R78, R79,
R158). -/
def State.clearClosing (s : State) (p : Printer) : State :=
  match s.loaded p with
  | some b => s.withdrawClaim (.batch b.id)
  | none => s

/-- An accepted STOCKLOAD (R78, R17). -/
def State.acceptStockload (s : State) (r : Reply) (p : Printer) (b : Batch) : State :=
  let s := s.clearClosing p
  let s := { s with stock := { s.stock with store := s.stock.store.filter fun x => x.id != b.id } }
  let s := s.setLoaded p (some { b with state := .loaded })
  let s := s.handFor (.batchLoad b.id p) r .done (.remaining b.remaining)
  let s := s.removeHold p .noStock
  let s := s.endCondition (.printer p .stockMismatch)
  let s := s.lowStockTest p
  let s := s.resolveQueue p (fun job => job.stockType != b.stockType) (some .noStock)
  s.settle

def ownStockload (s : State) (r : Reply) (a : Nat × Nat) : State :=
  s.withJournal r <|
    match s.stockloadCheck a.1 a.2 with
    | .error code => s.refuse r code
    | .ok (p, b) => s.acceptStockload r p b

/-- STOCKLOAD (R78). -/
def execStockload (w : Window) (s : State) : Host.Outcome State Fault Refusal :=
  .next (s.takeRequest w .stockload readStockload ownStockload)

/-! ### STOCKOUT (R79) -/

/-- Checks 1 to 6 of R79: the refusal, or the printer and its batch. R73 refuses a STOCKOUT while the unrecorded count is
above 0 and names no answer: DEDUCED, BUSY, as check 5 of R78 has it for a discard (log 40). Table 0-3 and R197 leave
open whether a line or slip in the window of a port that is now AUDIT or REPORT is an outstanding image: DESIGN CHOICE,
any entry of the window is one (log 47). -/
def State.stockoutCheck (s : State) (printer : Nat) : Except AnswerCode (Printer × Batch) :=
  match index? 12 printer with
  | none => .error .badValue
  | some p =>
    match s.loaded p with
    | none => .error .wrongState
    | some b =>
      if ¬ (b.state = .loaded ∨ b.state = .exhausted) then .error .wrongState
      else if ¬ (s.ports.at p).entries.isEmpty ∨ ¬ b.settled then .error .busy
      else if 0 < b.remaining ∧ Config.storePlaces ≤ s.stock.store.length then .error .tableFull
      else if s.journal.grantsRequest then .ok (p, b)
      else .error .busy

/-- An accepted STOCKOUT (R79). -/
def State.acceptStockout (s : State) (r : Reply) (p : Printer) (b : Batch) : State :=
  let s := s.clearClosing p
  let s := s.setLoaded p none
  let s := if 0 < b.remaining then
      { s with stock := { s.stock with store := s.stock.store ++ [newBatch b.id b.stockType b.next b.last] } }
    else s
  let s := s.handFor (.batchOut b.id p b.next b.issued b.spoiled b.unaccounted b.test) r .done (.remainder b.remaining)
  (s.addStockHold p .noStock).settle

def ownStockout (s : State) (r : Reply) (printer : Nat) : State :=
  s.withJournal r <|
    match s.stockoutCheck printer with
    | .error code => s.refuse r code
    | .ok (p, b) => s.acceptStockout r p b

/-- STOCKOUT (R79). -/
def execStockout (w : Window) (s : State) : Host.Outcome State Fault Refusal :=
  .next (s.takeRequest w .stockout readByte ownStockout)

/-! ### STOCKCOUNT (R80) -/

/-- Checks 1 to 5 of R80: the refusal, or the printer and its batch. DESIGN CHOICE: any entry of the window is an
outstanding image, a line or slip at a port that is now AUDIT or REPORT too (log 47). -/
def State.stockcountCheck (s : State) (printer n : Nat) : Except AnswerCode (Printer × Batch) :=
  match index? 12 printer with
  | none => .error .badValue
  | some p =>
    match s.loaded p with
    | none => .error .wrongState
    | some b =>
      if ¬ (b.state = .loaded ∨ b.state = .unverified) then .error .wrongState
      else if ¬ (s.ports.at p).entries.isEmpty ∨ b.inHand ≠ 0 then .error .busy
      else if ¬ (b.next ≤ n ∧ n ≤ b.last + 1) then .error .badValue
      else if s.journal.grantsRequest then .ok (p, b)
      else .error .busy

/-- The number that a count counts: the gap and the unrecorded serials (R80). -/
def Batch.counted (b : Batch) (n : Nat) : Nat := (n - b.next) + b.unrecorded

/-- The batch after an accepted count (R80). -/
def Batch.settleTo (b : Batch) (n : Nat) : Batch :=
  { b with next := n, inHand := b.inHand + b.counted n, unrecorded := 0
           state := if n = b.last + 1 then .exhausted else .loaded }

/-- An accepted STOCKCOUNT (R80). -/
def State.acceptStockcount (s : State) (r : Reply) (p : Printer) (b : Batch) (n : Nat) : State :=
  let s := s.setLoaded p (some (b.settleTo n))
  let s := s.handFor (.count b.id p n (b.counted n) (b.settleTo n).state) r .done (.counted (b.counted n))
  let s := s.removeHold p .stockUnverified
  let s := s.endCondition (.printer p .stockMismatch)
  let s := if n = b.last + 1 then s.exhaust p (b.settleTo n) else s
  (s.lowStockTest p).settle

def ownStockcount (s : State) (r : Reply) (a : Nat × Nat) : State :=
  s.withJournal r <|
    match s.stockcountCheck a.1 a.2 with
    | .error code => s.refuse r code
    | .ok (p, b) => s.acceptStockcount r p b a.2

/-- STOCKCOUNT (R80). -/
def execStockcount (w : Window) (s : State) : Host.Outcome State Fault Refusal :=
  .next (s.takeRequest w .stockcount readStockcount ownStockcount)

/-! ### HOLD and RELEASE (R50) -/

def ownHold (s : State) (r : Reply) (printer : Nat) : State :=
  match index? 12 printer with
  | none => s.refuse r .badValue
  | some p => ((s.addHold p .supervisor).refuse r .done).settle

/-- HOLD (R50). -/
def execHold (w : Window) (s : State) : Host.Outcome State Fault Refusal :=
  .next (s.takeRequest w .hold readByte ownHold)

/-- A RELEASE at a port: SUPERVISOR goes; at a FAILED port PROTOCOL and OVERRUN end and an attach begins (R50). -/
def State.release (s : State) (p : Printer) : State :=
  let s := s.removeHold p .supervisor
  if (s.ports.at p).state = .failed then
    ((s.endCondition (.printer p .protocol)).endCondition (.printer p .overrun)).beginAttach p
  else s

def ownRelease (s : State) (r : Reply) (printer : Nat) : State :=
  match index? 12 printer with
  | none => s.refuse r .badValue
  | some p => ((s.release p).refuse r .done).settle

/-- RELEASE (R50). -/
def execRelease (w : Window) (s : State) : Host.Outcome State Fault Refusal :=
  .next (s.takeRequest w .release readByte ownRelease)

/-! ### DECLARE and CLOSE (R115, R120, R124, R125) -/

/-- A session that may be declared: AWAITING, or DECLARED with a declaration count below 3 (Table 6-3). -/
def Session.declarable (x : Session) : Bool :=
  x.state == .awaiting || (x.state == .declared && x.part.all fun d => d.count < 3)

/-- Table 6-3 after its first two checks: the refusal, or the session. -/
def State.declareCheck (s : State) (number : Nat) (declared : PerTender Nat) : Except AnswerCode Session :=
  if ¬ (1 ≤ number ∧ number ≤ 65535 ∧ declared.cash ≤ 999999999 ∧ declared.card ≤ 999999999 ∧
      declared.warrant ≤ 999999999) then .error .badValue
  else
    match s.session number with
    | none => .error .noSession
    | some x =>
      if ¬ x.declarable then .error .wrongState
      else if x.pendingPart.isSome then .error .busy
      else if s.journal.grantsRequest then .ok x
      else .error .busy

/-- The DECLARE record of a declaration (R120). -/
def Declaration.record (number : Nat) (d : Declaration) : JRecord :=
  .declare number d.count d.declared d.allowance d.band d.sessionBand

def ownDeclare (s : State) (r : Reply) (a : Nat × PerTender Nat) : State :=
  s.withJournal r <|
    match s.declareCheck a.1 a.2 with
    | .error code => s.refuse r code
    | .ok x =>
      let d := x.declaration s.store.tables.tolerances a.2
      let s := s.modifySession a.1 fun x => { x with pendingPart := some d }
      s.hand (d.record a.1) (.declare r)

/-- DECLARE (R115). -/
def execDeclare (w : Window) (s : State) : Host.Outcome State Fault Refusal :=
  .next (s.takeRequest w .declare readDeclare ownDeclare)

/-- Table 6-10 after its first two checks: the refusal, or the band in force. -/
def State.closeCheck (s : State) (number : Nat) (given : Bool) : Except AnswerCode Band :=
  if ¬ (1 ≤ number ∧ number ≤ 65535) then .error .badValue
  else
    match s.session number with
    | none => .error .noSession
    | some x =>
      if x.state ≠ .declared then .error .wrongState
      else
        let band := x.bandInForce.getD .balanced
        if band = .referred ∧ ¬ given then .error .referred
        else if s.journal.grantsRequest then .ok band
        else .error .busy

def ownClose (s : State) (r : Reply) (a : Nat × Bool) : State :=
  s.withJournal r <|
    match s.closeCheck a.1 a.2 with
    | .error code => s.refuse r code
    | .ok band =>
      let s := s.modifySession a.1 fun x => { x with state := .finishing }
      s.handFor (.close a.1 band a.2) r .done (.closed a.1 band)

/-- CLOSE (R124). -/
def execClose (w : Window) (s : State) : Host.Outcome State Fault Refusal :=
  .next (s.takeRequest w .close readClose ownClose)

/-! ### Table store writes (R143, R175, R190 to R192) -/

/-- The load's printer entry differs from the stored entry of a port whose window holds an entry (R191 check 4). -/
def State.changesBusyPort (s : State) (load : TableEntries) : Bool :=
  match load with
  | .printers es => es.any fun e => s.printerEntry e.1 != e.2 && !(s.ports.at e.1).entries.isEmpty
  | _ => false

/-- A table with entries replaced. -/
def replaceEntries {α : Type} {n : Nat} (t : Tab α n) (es : List (Fin n × α)) : Tab α n :=
  es.foldl (fun t e => t.put e.1 e.2) t

/-- A port table keeps a port both enabled and supervisor-capable (R192). -/
def keepsSupervisor (t : Tab PortEntry 8) : Bool := allWindows.any fun w => (t.at w).enabled && (t.at w).supervisor

/-- The last value check of R192, which needs the stored entries. -/
def State.loadHolds (s : State) (load : TableEntries) : Bool :=
  match load with
  | .ports es => keepsSupervisor (replaceEntries s.store.tables.ports es)
  | _ => true

/-- BUSY for a store write: supply WARNING or a store write in progress (R143, R175, R191). -/
def State.storeBusy (s : State) : Bool := s.supply == .warning || s.store.write.isSome

def State.beginWrite (s : State) (w : StoreWrite) : State := { s with store := { s.store with write := some w } }

def ownTableload (s : State) (r : Reply) (load : Option TableEntries) : State :=
  if s.storeBusy then s.refuse r .busy
  else
    match load with
    | none => s.refuse r .badValue
    | some load =>
      if ¬ s.loadHolds load then s.refuse r .badValue
      else if s.changesBusyPort load then s.refuse r .busy
      else s.beginWrite (.tableload load (some r))

/-- TABLELOAD (R191). -/
def execTableload (w : Window) (s : State) : Host.Outcome State Fault Refusal :=
  .next (s.takeRequest w .tableload readTableload ownTableload)

def ownReporting (s : State) (r : Reply) (on : Bool) : State :=
  if s.storeBusy then s.refuse r .busy else s.beginWrite (.reporting on (some r))

/-- REPORTING (R143). -/
def execReporting (w : Window) (s : State) : Host.Outcome State Fault Refusal :=
  .next (s.takeRequest w .reporting readEither ownReporting)

def ownCauseclear (s : State) (r : Reply) (_ : Unit) : State :=
  if s.storeBusy then s.refuse r .busy else s.beginWrite (.causeclear (some r))

/-- CAUSECLEAR (R175). -/
def execCauseclear (w : Window) (s : State) : Host.Outcome State Fault Refusal :=
  .next (s.takeRequest w .causeclear readNothing ownCauseclear)

/-! ### RESET (R180 to R183) -/

/-- A RESET frame that a command of the given scope takes: one whose body does not spell the other scope (log 37). -/
def isReset (full : Bool) (f : Frame) : Bool :=
  requestKindOf f.kind == some .reset && readEither f.body != some !full

/-- An accepted RESET of scope FULL: DONE, and the restart follows the frame's sending (R181; log 13). -/
def ownResetFull (s : State) (r : Reply) (_ : Bool) : State :=
  if s.supply = .warning then s.refuse r .busy
  else
    let o := (s.office.at r.window).close r.number
    s.setOffice r.window { o with sendList := o.sendList ++ [.answer r.tag .done .nothing true] }

/-- RESET_FULL (R181). -/
def execResetFull (w : Window) (s : State) : Host.Outcome State Fault Refusal :=
  .next (s.takeFrame w (isReset true) false (State.checked .reset readEither ownResetFull))

/-- A path reset at an engine (R70): the values of Table 3-1 after a path reset, and an attach where the function is not
OFF. The SPOIL records of a window's entries are handed in sending order, a DESIGN CHOICE (log 52). -/
def State.resetEngine (s : State) (p : Printer) : State :=
  let s := (s.ports.at p).entries.foldl (State.dropEntry .reset p) s
  let s := s.updatePort p fun x => { x with entries := [], audit := [], slips := [] }
  if s.function p = .off then
    s.updatePort p fun x =>
      { x with state := .unused, nextImage := 0, unanswered := 0, attachTimer := none, pollTimer := none
               replyTimer := none, absentTimer := none }
  else s.beginAttach p

/-- The queued records, the sessions and the store write answer no one from now on (R110, R128, R182). -/
def StoreWrite.unanswered : StoreWrite → StoreWrite
  | .tableload load _ => .tableload load none
  | .reporting on _ => .reporting on none
  | .causeclear _ => .causeclear none
  | .cause c => .cause c

def State.cutAnswers (s : State) : State :=
  { s with
    journal := { s.journal with queue := s.journal.queue.map fun q => { q with link := .nothing } }
    sessions := { s.sessions with table := s.sessions.table.map (Option.map fun x => { x with signOff := none }) }
    store := { s.store with write := s.store.write.map StoreWrite.unanswered } }

/-- The job that an unanswered request is. -/
def State.jobOfRequest (s : State) (number : Nat) : Option (JobNumber × Job) :=
  allJobs.findSome? fun j =>
    match s.jobs.at j with
    | some job => if job.origin.number = some number then some (j, job) else none
    | none => none

/-- The figures of a job's RESET answer (R22). -/
def Job.resetFigures (job : Job) : Figures :=
  match job.serial with
  | some (serial, batch) => .resetSerial serial batch
  | none => .nothing

/-- An unanswered request is answered RESET (R22, R182). -/
def State.resetRequest (s : State) (q : Window × OpenRequest) : State :=
  match s.jobOfRequest q.2.number with
  | some (j, job) => s.endJob j job .reset job.resetFigures
  | none => s.refuse { window := q.1, tag := q.2.tag, number := some q.2.number } .reset

/-- Requests of several ports in the order in which they were taken, the order of their admission numbers; each port's
own requests stay in the order of its list. -/
def mergeRequests : List (Window × OpenRequest) → List (Window × OpenRequest) → List (Window × OpenRequest)
  | [], ys => ys
  | x :: xs, ys =>
    ys.takeWhile (fun y => y.2.number < x.2.number) ++
      x :: mergeRequests xs (ys.dropWhile fun y => y.2.number < x.2.number)

/-- The unanswered requests of all ports in the order in which they were taken (R22, R182). -/
def State.openRequests (s : State) : List (Window × OpenRequest) :=
  allWindows.foldl (fun qs w => mergeRequests qs ((s.office.at w).unanswered.map fun q => (w, q))) []

/-- A path reset at a port whose requests have been answered: its credit is 0, its buffer emptied, its line conditions
cleared (R182, R198). -/
def State.resetWindow (s : State) (w : Window) : State :=
  let o := s.office.at w
  s.setOffice w { o with buffer := [], unanswered := [], conditions := noLines }

/-- The condition monitor at a path reset: the fault queue emptied, PROTOCOL and OVERRUN of every printer ended (R146). -/
def Monitor.pathReset (m : Monitor) : Monitor :=
  { m with faults := [], lasting := m.lasting.map fun x => { x with protocol := false, overrun := false } }

/-- A path reset at every block (R182, R183; log 24). -/
def State.pathReset (s : State) : State :=
  let s := s.updateJournal fun j => { j with claims := j.claims.filter fun c =>
    match c with
    | .engine _ => false
    | .batch _ => true
    | .session _ => true }
  let s := allPrinters.foldl State.resetEngine s
  let s := s.cutAnswers
  let s := s.openRequests.foldl State.resetRequest s
  let s := allWindows.foldl State.resetWindow s
  let s := { s with jobs := Vector.replicate 32 none, queues := Vector.replicate 12 [], monitor := s.monitor.pathReset }
  s.settle

/-- An accepted RESET of scope PATH: DONE, then the path reset (R182). -/
def ownResetPath (s : State) (r : Reply) (_ : Bool) : State := (s.refuse r .done).pathReset

/-- RESET_PATH (R182). -/
def execResetPath (w : Window) (s : State) : Host.Outcome State Fault Refusal :=
  .next (s.takeFrame w (isReset false) false (State.checked .reset readEither ownResetPath))

end Sys2Proof.Machine
end

