-- ==== Sys2Proof/Machine/Reads.lean ====
section
/-! DEFINITION. Management requests that read: TABLEREAD, STOCKREAD, SESSIONREAD, FAULTREAD, JOURNALREAD, STATUSREAD,
and FAULTCLEAR (R81, R109, R144, R145, R164, R196, R197). -/

namespace Sys2Proof.Machine

/-- A request answered DONE at once with figures, or BAD_VALUE when there are none. -/
def State.answerRead (s : State) (r : Reply) (figures : Option Figures) : State :=
  match figures with
  | some f => s.answer r .done f
  | none => s.refuse r .badValue

/-! ### TABLEREAD (R196) -/

/-- Up to `count` entries of a table from an index on, each with its index. -/
def tableSlice {α : Type} {n : Nat} (t : Tab α n) (first count : Nat) : List (Fin n × α) :=
  (((List.finRange n).map fun i => (i, t.at i)).drop first).take count

/-- The entries of one table, when the first index is in its range. -/
def sliceFigures {α : Type} {n : Nat} (t : Tab α n) (make : List (Fin n × α) → TableEntries) (first count : Nat) :
    Option Figures :=
  if first < n then some (.table (make (tableSlice t first count)) n) else none

def Tables.slice (t : Tables) (table first count : Nat) : Option Figures :=
  match table with
  | 0 => sliceFigures t.ports .ports first count
  | 1 => sliceFigures t.printers .printers first count
  | 2 => sliceFigures t.routes .routes first count
  | 3 => sliceFigures t.discounts .discounts first count
  | 4 => sliceFigures t.layouts .layouts first count
  | 5 => sliceFigures t.tolerances .tolerances first count
  | 6 => sliceFigures t.conditions .conditions first count
  | _ => none

def ownTableread (s : State) (r : Reply) (a : Nat × Nat × Nat) : State :=
  s.answerRead r (if 1 ≤ a.2.2 ∧ a.2.2 ≤ 8 then s.store.tables.slice a.1 a.2.1 a.2.2 else none)

/-- TABLEREAD (R196). -/
def execTableread (w : Window) (s : State) : Host.Outcome State Fault Refusal :=
  .next (s.takeRequest w .tableread readTableread ownTableread)

/-! ### STOCKREAD (R81) -/

/-- The records that an identifier selects, with the printer of a loaded one. -/
def Stock.byId (k : Stock) (id : Nat) : List BatchFigures :=
  let stored : List BatchFigures := k.store.map fun b => { batch := b, printer := none }
  let loaded : List BatchFigures := k.loadedBatches.map fun pb => { batch := pb.2, printer := some pb.1 }
  (stored ++ loaded).filter fun x => x.batch.id == id

/-- The records that a selector selects. -/
def Stock.select (k : Stock) (a : StockSelector) : Option (List BatchFigures) :=
  match a with
  | .printer n => do
    let p ← index? 12 n
    return ((k.loaded.at p).toList.map fun b => { batch := b, printer := some p })
  | .batch n => if 1 ≤ n ∧ n ≤ 65535 then some (k.byId n) else none
  | .position n =>
    if n < Config.storePlaces then some (((k.store.drop n).take 4).map fun b => { batch := b, printer := none })
    else none

def ownStockread (s : State) (r : Reply) (a : StockSelector) : State :=
  s.answerRead r ((s.stock.select a).map fun bs => .batches bs s.stock.store.length)

/-- STOCKREAD (R81). -/
def execStockread (w : Window) (s : State) : Host.Outcome State Fault Refusal :=
  .next (s.takeRequest w .stockread readStockread ownStockread)

/-! ### SESSIONREAD (R109) -/

/-- The numbers and states of a window's other live sessions, in increasing order of session number. -/
def State.otherSessions (s : State) (w : Window) : List (Nat × SessionState) :=
  (s.sessions.live.filter fun x => x.window == w && !x.current).map fun x => (x.number, x.state)

def ownSessionread (s : State) (r : Reply) (a : SessionSelector) : State :=
  match a with
  | .number n =>
    if ¬ (1 ≤ n ∧ n ≤ 65535) then s.refuse r .badValue
    else
      match s.session n with
      | some x => s.answer r .done (.sessionRecord x)
      | none => s.refuse r .noSession
  | .window n =>
    match index? 8 n with
    | none => s.refuse r .badValue
    | some w =>
      if (s.currentSession w).isNone ∧ (s.otherSessions w).isEmpty then s.refuse r .noSession
      else s.answer r .done (.windowSessions (s.currentSession w) (s.otherSessions w))

/-- SESSIONREAD (R109). -/
def execSessionread (w : Window) (s : State) : Host.Outcome State Fault Refusal :=
  .next (s.takeRequest w .sessionread readSessionread ownSessionread)

/-! ### FAULTREAD and FAULTCLEAR (R144, R145) -/

def FaultRecord.urgent (f : FaultRecord) : Bool := f.priority == .urgent

/-- Read order: URGENT records before ROUTINE records, the queue's order within each (R144). -/
def readOrder (faults : List FaultRecord) : List FaultRecord :=
  faults.filter FaultRecord.urgent ++ faults.filter fun f => !f.urgent

def ownFaultread (s : State) (r : Reply) (start : Nat) : State :=
  let m := s.monitor
  s.answerRead r <|
    if start ≤ 191 then
      some (.faults (((readOrder m.faults).drop start).take 8) m.faults.length (m.faults.countP FaultRecord.urgent)
        m.nextSequence)
    else none

/-- FAULTREAD (R144). -/
def execFaultread (w : Window) (s : State) : Host.Outcome State Fault Refusal :=
  .next (s.takeRequest w .faultread readByte ownFaultread)

/-- One pair of a FAULTCLEAR: the queue, the number removed so far and the pairs still present (R145). -/
def clearOne (x : List FaultRecord × Nat × List Condition) (c : Condition) : List FaultRecord × Nat × List Condition :=
  match x.1.find? fun f => f.condition == c with
  | some f =>
    if f.present then (x.1, x.2.1, x.2.2 ++ [c]) else (x.1.filter fun f => f.condition != c, x.2.1 + 1, x.2.2)
  | none => x

/-- The conditions that the pairs of a FAULTCLEAR name, when there are 1 to 8 and each names one (R145). -/
def clearedPairs (pairs : List (Nat × Nat)) : Option (List Condition) :=
  if 1 ≤ pairs.length ∧ pairs.length ≤ 8 then allSome (pairs.map fun p => conditionOf p.1 p.2) else none

def ownFaultclear (s : State) (r : Reply) (pairs : List (Nat × Nat)) : State :=
  match clearedPairs pairs with
  | none => s.refuse r .badValue
  | some cs =>
    let x := cs.foldl clearOne (s.monitor.faults, 0, [])
    State.answer { s with monitor := { s.monitor with faults := x.1 } } r .done (.cleared x.2.1 x.2.2)

/-- FAULTCLEAR (R145). -/
def execFaultclear (w : Window) (s : State) : Host.Outcome State Fault Refusal :=
  .next (s.takeRequest w .faultclear readFaultclear ownFaultclear)

/-! ### JOURNALREAD (R164) -/

/-- A record takes its place in sequence order, before those already there with its number. R164 gives no order between
two good records of one number, which memory can hold since R166 leaves unused records whose numbers are given again:
DESIGN CHOICE, `Journal.records` puts the one in the lower page, and in one page the lower slot, first (log 36). -/
def insertSlot (x : SlotFigures) : List SlotFigures → List SlotFigures
  | [] => [x]
  | y :: ys => if x.sequence ≤ y.sequence then x :: y :: ys else y :: insertSlot x ys

/-- The good records of a page whose header holds (R148; log 36). -/
def pageRecords (m : List Host.Cell) (p : Fin 128) : List SlotFigures :=
  match pageHeader m p with
  | none => []
  | some _ =>
    recordSlots.filterMap fun k =>
      match slotContents (readSlot m p k) with
      | .good kind sequence body => some { kind, sequence, body }
      | .erased => none
      | .torn => none

/-- The head's page is being erased. -/
def Writer.erases : Writer → Bool
  | .erasing => true
  | .checkpoint _ page _ => page
  | .idle => false
  | .writing => false
  | .stopped => false

/-- The good records in memory in sequence order; a page whose erase is in progress has none (log 36). A head page whose
erase has failed is read as it stands. -/
def Journal.records (j : Journal) : List SlotFigures :=
  let pages := (allPages.map pageOf).filter fun p => !(j.writer.erases && p == j.page)
  (pages.flatMap (pageRecords j.memory)).foldr insertSlot []

/-- Sequence numbers that rise by one. -/
def unbroken : List SlotFigures → Bool
  | x :: y :: rest => y.sequence == x.sequence + 1 && unbroken (y :: rest)
  | _ => true

/-- The answer of a JOURNALREAD (R164): no record when the start is above the newest record written. The spec gives no
number for the newest record when none has been written: DESIGN CHOICE, 0 (log 44). -/
def Journal.readFrom (j : Journal) (start count : Nat) : Figures :=
  let newest := j.nextSequence - 1
  if newest < start then .journal [] newest false
  else
    let found := (j.records.filter fun x => start ≤ x.sequence).take count
    let early := j.records.head?.any fun x => start < x.sequence
    .journal found newest (early || !unbroken found)

def ownJournalread (s : State) (r : Reply) (a : Nat × Nat) : State :=
  s.answerRead r <|
    if 1 ≤ a.1 ∧ a.1 ≤ Config.lastSequence ∧ 1 ≤ a.2 ∧ a.2 ≤ 8 then some (s.journal.readFrom a.1 a.2) else none

/-- JOURNALREAD (R164). -/
def execJournalread (w : Window) (s : State) : Host.Outcome State Fault Refusal :=
  .next (s.takeRequest w .journalread readJournalread ownJournalread)

/-! ### STATUSREAD (R197) -/

def Writer.figure : Writer → WriterState
  | .idle => .idle
  | .writing => .writing
  | .erasing => .erasing
  | .checkpoint _ _ _ => .checkpoint
  | .stopped => .stopped

/-- The sensed set of the last observed status; absent before the first STATUS (Table 3-1). -/
def Port.sensed (x : Port) : Option SensedSet := x.lastStatus.map StatusReport.sensed

/-- What STATUSREAD shows of a printer. -/
def State.printerFigures (s : State) (p : Printer) : PrinterFigures :=
  let x := s.ports.at p
  { function := s.function p
    supervisorHold := x.holds .supervisor
    state := x.state
    hold := (x.setHold .supervisor false).hold
    jamLatch := x.jamLatch
    sensed := x.sensed
    window := x.window
    outstanding := x.entries.length
    queued := (s.queues.at p).length
    batch := (s.loaded p).map fun b => (b.id, b.state)
    queueLength := match s.function p with
      | .audit => x.audit.length
      | .report => x.slips.length
      | .ticket => 0
      | .off => 0 }

/-- The figures of Table 10-5. -/
def State.statusFigures (s : State) : StatusFigures :=
  { printers := Vector.ofFn s.printerFigures
    ports := s.office.map fun o => (o.credit, o.conditions)
    supply := s.supply
    causes := s.store.causes
    storeBusy := s.store.write.isSome
    reporting := s.store.reporting
    writer := s.journal.writer.figure
    headPage := s.journal.page.val
    headSlot := s.journal.slot.val
    queued := s.journal.queue.length
    reserved := s.journal.reserved
    claims := s.journal.claims.length
    nextSequence := s.journal.nextSequence
    freeSessions := allRecords.countP fun i => (s.sessions.table.at i).isNone
    nextSession := s.sessions.nextNumber
    freeStore := Config.storePlaces - s.stock.store.length
    faults := s.monitor.faults.length
    urgentFaults := s.monitor.faults.countP FaultRecord.urgent }

/-- The figures are taken once the request is admitted. R197 does not say whether the credit of the asking port then counts
the STATUSREAD itself: DESIGN CHOICE, it does, as the request is taken and not yet answered (log 53). -/
def ownStatusread (s : State) (r : Reply) (_ : Unit) : State := s.answer r .done (.status s.statusFigures)

/-- STATUSREAD (R197). -/
def execStatusread (w : Window) (s : State) : Host.Outcome State Fault Refusal :=
  .next (s.takeRequest w .statusread readNothing ownStatusread)

end Sys2Proof.Machine
end

