-- ==== Sys2Proof/Machine/Reports.lean ====
section
/-! DEFINITION. Printer reports: CAPS, FED, DOUBLEFED, PRINTED, PRESENTED, JAMMED, STATUS and messages that are none of
them (R43, R45, R54 to R62, R65, R134, R135). -/

namespace Sys2Proof.Machine

/-- The controller is RUNNING; before that the engines take no printer message (R174, R176). -/
def State.isRunning (s : State) : Bool := s.phase == .running

/-- A report the engine does not take: at an ACTIVE or HELD port the port enters FAILED (R59), elsewhere the report is
discarded (R45). -/
def State.mismatch (s : State) (p : Printer) (c : PrinterFault) : State :=
  if (s.ports.at p).attached then (s.failPort p (some c)).settle else s

/-! ### CAPS (R43) -/

/-- Table 3-4. -/
def codeLimit (code : Nat) : Nat := if code = 0 ∨ code = 15 then 1 else if code ≤ 4 then code else 4

/-- The kind suits the function (R43). -/
def suits (function : PortFunction) (kind : DeviceKind) : Bool :=
  match function with
  | .ticket => kind == .ticket
  | .audit => kind == .roll
  | .report => kind == .roll
  | .off => false

/-- The kind and depth of a CAPS that passes its check (R43, R199). -/
def State.capsCheck (s : State) (p : Printer) (body : List Byte) : Option (DeviceKind × Nat) :=
  (readCaps body).filter fun kd => suits (s.function p) kd.1 && (1 ≤ kd.2 : Bool) && (kd.2 ≤ 8 : Bool)

/-- A CAPS in ATTACHING or ABSENT (R43). The unanswered poll count is 0 from here on (log 17). -/
def State.takeCaps (s : State) (p : Printer) (body : List Byte) : State :=
  let s := s.updatePort p fun x => { x with attachTimer := none, absentTimer := none, unanswered := 0 }
  let s := s.endCondition (.printer p .noAnswer)
  match s.capsCheck p body with
  | none => s.failPort p (some .protocol)
  | some (kind, depth) =>
    let e := s.printerEntry p
    let s := s.updatePort p fun x =>
      { x with device := some (kind, depth), window := min depth (codeLimit e.windowCode)
               pollTimer := some e.pollInterval, state := .active }
    if (s.ports.at p).free then s else s.enterHeld p

/-- CAPS (R43, R45). -/
def execCaps (p : Printer) (body : List Byte) (s : State) : Host.Outcome State Fault Refusal :=
  .next <|
    if s.isRunning then
      match (s.ports.at p).state with
      | .attaching => (s.takeCaps p body).settle
      | .absent => (s.takeCaps p body).settle
      | .active => s.mismatch p .protocol
      | .held => s.mismatch p .protocol
      | .unused => s
      | .failed => s
    else s

/-! ### Reports about an image (R54, R65) -/

/-- The place of an image's entry in the window. Two outstanding entries may hold one number (repeated jams behind an
older entry); which of them it then names is a DESIGN CHOICE: the oldest (log 55). -/
def Port.placeOf (x : Port) (n : ImageNumber) : Option Nat := x.entries.findIdx? fun e => e.image == n

/-- The image number that a report carries: `none` when the body is malformed (R199); a number above 15 names no
entry. -/
def readImage (body : List Byte) : Option (Option ImageNumber) := (readByte body).map (index? 16)

/-- A report about an image at an ACTIVE or HELD port: malformed is a phase mismatch, one that names no entry is an
overrun, otherwise `take` decides from the place of the entry (R54, R131, R199). -/
def State.takeReport (s : State) (p : Printer) (body : List Byte) (take : Nat → State) : State :=
  if s.isRunning && (s.ports.at p).attached then
    match readImage body with
    | none => s.mismatch p .protocol
    | some none => s.mismatch p .overrun
    | some (some n) =>
      match (s.ports.at p).placeOf n with
      | none => s.mismatch p .overrun
      | some k => take k
  else s

/-- The entries older than a place are all in given phases. -/
def Port.olderAll (x : Port) (k : Nat) (q : EntryPhase → Bool) : Bool := (x.entries.take k).all fun e => q e.phase

def Port.phaseAt (x : Port) (k : Nat) : Option EntryPhase := (x.entries[k]?).map Entry.phase

def EntryPhase.wasFed (ph : EntryPhase) : Bool := ph == .fed || ph == .printed

/-- FED allowed (Table 3-6). -/
def Port.allowsFed (x : Port) (k : Nat) : Bool :=
  x.phaseAt k == some .sent && x.olderAll k EntryPhase.wasFed

/-- DOUBLEFED allowed (Table 3-6). -/
def Port.allowsDoubleFed (x : Port) (k : Nat) : Bool :=
  x.phaseAt k == some .fed && ((x.entries[k]?).bind Entry.ticket).any fun t => !t.doubleFed

/-- PRINTED allowed (Table 3-6). -/
def Port.allowsPrinted (x : Port) (k : Nat) : Bool := x.phaseAt k == some .fed && x.olderAll k (· == .printed)

/-- PRESENTED allowed (Table 3-6). -/
def Port.allowsPresented (x : Port) (k : Nat) : Bool := x.phaseAt k == some .printed && k == 0

/-- JAMMED allowed (Table 3-6). -/
def Port.allowsJammed (x : Port) (k : Nat) : Bool := x.allowsFed k || x.phaseAt k == some .fed

/-- A report that Table 3-6 allows is taken, another is a phase mismatch; a roll port takes none of these kinds (R54). -/
def State.ticketReport (s : State) (p : Printer) (allowed : Bool) (taken : State) : State :=
  if s.function p = .ticket ∧ allowed then taken.settle else s.mismatch p .protocol

/-- FED, DOUBLEFED and PRESENTED at a roll port are phase mismatches whatever image they name (R54). -/
def State.ticketOnly (s : State) (p : Printer) (report : State) : State :=
  if s.isRunning && (s.ports.at p).attached && s.function p != .ticket then s.mismatch p .protocol else report

/-- FED (R54, R55). -/
def execFed (p : Printer) (body : List Byte) (s : State) : Host.Outcome State Fault Refusal :=
  .next (s.ticketOnly p (s.takeReport p body fun k =>
    s.ticketReport p ((s.ports.at p).allowsFed k) (s.takeFeed p k)))

/-- DOUBLEFED (R54, R56). -/
def execDoublefed (p : Printer) (body : List Byte) (s : State) : Host.Outcome State Fault Refusal :=
  .next (s.ticketOnly p (s.takeReport p body fun k =>
    s.ticketReport p ((s.ports.at p).allowsDoubleFed k) (s.takeDoubleFeed p k)))

/-- PRINTED (R54, R57, R65). -/
def execPrinted (p : Printer) (body : List Byte) (s : State) : Host.Outcome State Fault Refusal :=
  .next (s.takeReport p body fun k =>
    if s.function p = .ticket then s.ticketReport p ((s.ports.at p).allowsPrinted k) (s.takePrint p k)
    else if k = 0 then (s.takeRollPrint p).settle
    else s.mismatch p .protocol)

/-- PRESENTED (R54, R57). -/
def execPresented (p : Printer) (body : List Byte) (s : State) : Host.Outcome State Fault Refusal :=
  .next (s.ticketOnly p (s.takeReport p body fun k =>
    s.ticketReport p ((s.ports.at p).allowsPresented k) (s.takePresent p k)))

/-- JAMMED (R54, R58, R65). -/
def execJammed (p : Printer) (body : List Byte) (s : State) : Host.Outcome State Fault Refusal :=
  .next (s.takeReport p body fun k =>
    if s.function p = .ticket then s.ticketReport p ((s.ports.at p).allowsJammed k) (s.takeJam p k)
    else (s.takeRollJam p k).settle)

/-- NON_REPORT_MESSAGE: a phase mismatch at an ACTIVE or HELD port, discarded elsewhere (R45). -/
def execNonReportMessage (p : Printer) (_kind : Byte) (s : State) : Host.Outcome State Fault Refusal :=
  .next (if s.isRunning then s.mismatch p .protocol else s)

/-! ### STATUS step 2: the filters (R134, R135) -/

/-- What a filter step brings about. -/
inductive FilterEvent where
  | begins | ends | nothing
  deriving DecidableEq, Repr

/-- Table 7-2: the filter after an answered STATUS, and whether its condition begins or ends. -/
def Filter.step (f : Filter) (depth : Nat) (sensed : Bool) : Filter × FilterEvent :=
  if f.present = sensed then ({ f with run := 0 }, .nothing)
  else if depth ≤ f.run + 1 then ({ present := sensed, run := 0 }, if sensed then .begins else .ends)
  else ({ f with run := f.run + 1 }, .nothing)

def State.setFilter (s : State) (p : Printer) (c : Sensed) (f : Filter) : State :=
  { s with monitor := { s.monitor with filters := s.monitor.filters.put p ((s.monitor.filters.at p).put c.place f) } }

def State.filter (s : State) (p : Printer) (c : Sensed) : Filter := (s.monitor.filters.at p).at c.place

/-- A filtered condition begins: recorded and noticed, its hold reason added, and for PAPER_OUT a stock mismatch taken
when stock remains (R135, R86). -/
def State.sensedBegins (s : State) (p : Printer) (c : Sensed) : State :=
  let s := s.raise (.sensed p c)
  let s := match c.holdReason with
    | some r => s.addHold p r
    | none => s
  if c = .paperOut ∧ s.function p = .ticket ∧ (s.loaded p).any (fun b => 0 < b.remaining) then s.stockMismatch p
  else s

/-- A filtered condition ends: recorded, and its hold reason removed, JAM only when the latch is clear (R135, R51). -/
def State.sensedEnds (s : State) (p : Printer) (c : Sensed) : State :=
  let s := s.endCondition (.sensed p c)
  match c.holdReason with
  | some r => if c = .jam ∧ (s.ports.at p).jamLatch then s else s.removeHold p r
  | none => s

/-- One filter advanced, and what it brings about taken to its end (R135). -/
def State.filterStep (sensed : SensedSet) (p : Printer) (s : State) (c : Sensed) : State :=
  let (f, e) := (s.filter p c).step (s.printerEntry p).filterDepth (sensed.at c.place)
  let s := s.setFilter p c f
  match e with
  | .begins => (s.sensedBegins p c).settle
  | .ends => (s.sensedEnds p c).settle
  | .nothing => s

/-! ### STATUS step 3: reconciliation (R61, R65) -/

/-- How many entries there are up to and including the one named; 0 when no entry is named. -/
def Port.through (x : Port) (named : Option Nat) : Nat :=
  match (named.bind (index? 16)).bind x.placeOf with
  | some k => k + 1
  | none => 0

/-- A feed implied for the entry at a place, if it is still SENT; nothing once the port has failed (R61). -/
def State.impliedFeed (p : Printer) (s : State) (k : Nat) : State :=
  if (s.ports.at p).attached ∧ (s.ports.at p).phaseAt k = some .sent then (s.takeFeed p k).settle else s

/-- A printing implied for the oldest entry, if it is FED (R61). -/
def State.impliedPrint (s : State) (p : Printer) : State :=
  if (s.ports.at p).phaseAt 0 = some .fed then s.takePrint p 0 else s

/-- A presentation implied for the oldest entry: FED first if it lacked it, then PRINTED, then PRESENTED (R61). -/
def State.impliedPresent (s : State) (p : Printer) : State :=
  let s := State.impliedFeed p s 0
  if (s.ports.at p).attached then ((s.impliedPrint p).takePresent p 0).settle else s

/-- Reconciliation of a ticket port's window, the fed part first: entries are taken by their places, oldest first. Each
presentation takes the oldest entry out of the window (R61). -/
def State.reconcileTicket (s : State) (p : Printer) (st : StatusReport) : State :=
  let s := (List.range ((s.ports.at p).through st.fedThrough)).foldl (State.impliedFeed p) s
  (List.range ((s.ports.at p).through st.presentedThrough)).foldl (fun s _ => s.impliedPresent p) s

/-- Reconciliation of a roll port: the entries through the one named are taken as printed (R65). -/
def State.reconcileRoll (s : State) (p : Printer) (st : StatusReport) : State :=
  (List.range ((s.ports.at p).through st.presentedThrough)).foldl (fun s _ => (s.takeRollPrint p).settle) s

def State.reconcile (s : State) (p : Printer) (st : StatusReport) : State :=
  if s.function p = .ticket then s.reconcileTicket p st else s.reconcileRoll p st

/-! ### STATUS steps 4 and 5 (R62, R51) -/

/-- An implied jam: held count 0, JAM sensed, and an entry younger than the one presented-through names (R62). Step 3
has taken that one and every older one out of the window, so every entry there is younger, the oldest the one jammed. -/
def State.impliedJam (s : State) (p : Printer) (st : StatusReport) : State :=
  let x := s.ports.at p
  if x.attached ∧ st.held = 0 ∧ st.sensed.at Sensed.jam.place ∧ x.entries ≠ [] then
    (if s.function p = .ticket then s.takeJam p 0 else s.takeRollJam p 0).settle
  else s

/-- A STATUS without JAM clears the jam latch; JAM leaves the set when the filtered condition is absent too (R51). -/
def State.clearLatch (s : State) (p : Printer) (st : StatusReport) : State :=
  if st.sensed.at Sensed.jam.place then s
  else
    let s := s.updatePort p fun x => { x with jamLatch := false }
    if (s.filter p .jam).present then s else (s.removeHold p .jam).settle

/-- An answering STATUS: the poll is answered, the five steps of R47 follow one another, and the poll interval starts
again unless the port has failed (R46, R47). -/
def State.takeStatus (s : State) (p : Printer) (st : StatusReport) : State :=
  let s := s.updatePort p fun x => { x with replyTimer := none, unanswered := 0, lastStatus := some st }
  let s := allSensed.foldl (State.filterStep st.sensed p) s
  let s := s.reconcile p st
  let s := s.impliedJam p st
  let s := s.clearLatch p st
  if (s.ports.at p).attached then
    let interval := (s.printerEntry p).pollInterval
    s.updatePort p fun x => { x with pollTimer := some interval }
  else s

/-- STATUS (R45, R47). A malformed STATUS at an ACTIVE or HELD port is a phase mismatch (R199; log 31). -/
def execStatus (p : Printer) (body : List Byte) (s : State) : Host.Outcome State Fault Refusal :=
  .next <|
    if s.isRunning && (s.ports.at p).attached then
      match readStatus body with
      | none => s.mismatch p .protocol
      | some st => if (s.ports.at p).replyTimer.isSome then s.takeStatus p st else s
    else s

/-! ### Messages with line errors (R41, R131) -/

/-- LINK_CHECK is raised, except at an UNUSED port and before the engines begin (R41, R131, R176). -/
def State.linkCheck (s : State) (p : Printer) : State :=
  if s.isRunning ∧ (s.ports.at p).state ≠ .unused then s.raise (.printer p .linkCheck) else s

/-- PRINTER_MESSAGE_DISCARDED (R41). -/
def execPrinterMessageDiscarded (p : Printer) (s : State) : Host.Outcome State Fault Refusal := .next (s.linkCheck p)

/-- PRINTER_GAP_TIMER_EXPIRY (R41). -/
def execPrinterGapTimerExpiry (p : Printer) (s : State) : Host.Outcome State Fault Refusal := .next (s.linkCheck p)

/-! ### Engine timers (R44, R46) -/

/-- ATTACH_TIMER_EXPIRY: NO_ANSWER and ABSENT (R44). -/
def execAttachTimerExpiry (p : Printer) (s : State) : Host.Outcome State Fault Refusal :=
  .next <|
    if (s.ports.at p).state = .attaching ∧ (s.ports.at p).attachTimer.isSome then
      ((s.raise (.printer p .noAnswer)).enterAbsent p).settle
    else s

/-- ABSENT_REPEAT_TIMER_EXPIRY: ENQUIRE again, image numbers from 0, the timer at 5 s again (R44). -/
def execAbsentRepeatTimerExpiry (p : Printer) (s : State) : Host.Outcome State Fault Refusal :=
  .next <|
    if (s.ports.at p).state = .absent ∧ (s.ports.at p).absentTimer.isSome then
      (s.transmit p .enquire).updatePort p fun x =>
        { x with nextImage := 0, absentTimer := some Config.absentRepeatMs }
    else s

/-- POLL_INTERVAL_TIMER_EXPIRY: POLL is sent and the reply timer starts (R46). -/
def execPollIntervalTimerExpiry (p : Printer) (s : State) : Host.Outcome State Fault Refusal :=
  .next <|
    if (s.ports.at p).attached ∧ (s.ports.at p).pollTimer.isSome then
      let timeout := (s.printerEntry p).selectTimeout
      (s.transmit p .poll).updatePort p fun x => { x with pollTimer := none, replyTimer := some timeout }
    else s

/-- POLL_REPLY_TIMER_EXPIRY: the poll is unanswered; at the third in a row the port goes ABSENT (R46, R48). -/
def execPollReplyTimerExpiry (p : Printer) (s : State) : Host.Outcome State Fault Refusal :=
  .next <|
    if (s.ports.at p).attached ∧ (s.ports.at p).replyTimer.isSome then
      let interval := (s.printerEntry p).pollInterval
      let s := s.updatePort p fun x => { x with replyTimer := none, unanswered := x.unanswered + 1 }
      if 3 ≤ (s.ports.at p).unanswered then (s.goAbsent p).settle
      else s.updatePort p fun x => { x with pollTimer := some interval }
    else s

end Sys2Proof.Machine
end

