-- ==== Sys2Proof/Machine/Writes.lean ====
section
/-! DEFINITION. The ends of non-volatile writes: journal records, pages and checkpoints, and the table store
(R150, R151, R153, R159, R162, R193, R143, R175, R176). -/

namespace Sys2Proof.Machine

/-! ### Journal (R150, R151, R159, R162) -/

/-- The written record leaves the queue and memory holds it. -/
def Journal.recordDone (j : Journal) (written : List Byte) (rest : List Queued) : Journal :=
  { (j.putSlot written).advance with queue := rest }

/-- RECORD_WRITE_ENDS: the record is written and reported, or the journal stops (R151, R153, R162). -/
def execRecordWriteEnds (found : Option (List Byte)) (s : State) : Host.Outcome State Fault Refusal :=
  .next <|
    let j := s.journal
    match j.writer, j.queue with
    | .writing, q :: rest =>
      let (bytes, good) := readBack (recordSlot j.nextSequence q.record) found
      if good then
        let s := s.updateJournal fun j => j.recordDone bytes rest
        ((s.reportWritten q).afterRecord j).settle
      else (s.updateJournal fun j => j.putSlot bytes).stopJournal
    | _, _ => s

/-- The page's erase and header write are done: the head names slot 1 (R150). -/
def Journal.pageDone (j : Journal) (bytes : List Byte) : Journal := { j.putPage bytes with slot := 1 }

/-- ERASE_ENDS: the head's page is ready and the writer goes on, or the journal stops (R150, R151, R161, R162). R150 gives
the head slot 1 after the erase and R162 does not say which slot it names when the read-back fails: DESIGN CHOICE, it
still names slot 0 (log 19). -/
def execEraseEnds (found : Option (List Byte)) (s : State) : Host.Outcome State Fault Refusal :=
  .next <|
    let j := s.journal
    let (bytes, good) := readBack (freshPage j.pageSequence) found
    let erased := if good then s.updateJournal fun j => j.pageDone bytes
      else (s.updateJournal fun j => j.putPage bytes).stopJournal
    match j.writer with
    | .erasing => if good then erased.startNext else erased
    | .checkpoint rest true abandoned =>
      if ¬ good then erased
      else if abandoned then erased.startNext
      else erased.updateJournal fun j => { j with writer := .checkpoint rest false false }
    | .checkpoint _ false _ => s
    | .idle => s
    | .writing => s
    | .stopped => s

/-- CHECKPOINT_RECORD_WRITE_ENDS: the checkpoint's next record, or its end; a failed read-back stops the journal
(R159, R161, R162). -/
def execCheckpointRecordWriteEnds (found : Option (List Byte)) (s : State) : Host.Outcome State Fault Refusal :=
  .next <|
    let j := s.journal
    match j.writer with
    | .checkpoint (r :: rest) false abandoned =>
      let (bytes, good) := readBack (recordSlot j.nextSequence r) found
      if good then ((s.updateJournal fun j => (j.putSlot bytes).advance).afterCheckpointRecord j rest abandoned).settle
      else (s.updateJournal fun j => j.putSlot bytes).stopJournal
    | _ => s

/-! ### Printer table changes (R69, R85, R88, R131, R136) -/

/-- Every present filtered condition of a port ends and its filters become absent with run 0 (R136). -/
def State.endFiltered (s : State) (p : Printer) : State :=
  allSensed.foldl (fun s c =>
    if (s.filter p c).present then (s.setFilter p c { present := false, run := 0 }).sensedEnds p c
    else s.setFilter p c { present := false, run := 0 }) s

/-- Every contrary run of a port becomes 0 (R136). -/
def State.clearRuns (s : State) (p : Printer) : State :=
  allSensed.foldl (fun s c => s.setFilter p c { s.filter p c with run := 0 }) s

/-- A lasting condition of a printer that is present ends. -/
def State.endPresent (s : State) (p : Printer) (c : PrinterFault) (present : Bool) : State :=
  if present then s.endCondition (.printer p c) else s

/-- The new entry at the port itself: the conditions that end, the filters, and UNUSED or an attach (R69, R131, R136). -/
def State.applyEntry (s : State) (p : Printer) (old : PrinterEntry) : State :=
  let new := s.printerEntry p
  let x := s.monitor.lasting.at p
  let s := s.endPresent p .protocol x.protocol
  let s := s.endPresent p .overrun x.overrun
  let s := if old.filterDepth = new.filterDepth then s else s.clearRuns p
  if new.function = .off then
    let s := s.endPresent p .noAnswer x.noAnswer
    let s := s.updatePort p fun x =>
      { x with state := .unused, attachTimer := none, pollTimer := none, replyTimer := none, absentTimer := none }
    s.endFiltered p
  else s.beginAttach p

/-- The hold reasons that depend on the function, as a port becomes a TICKET port (R69). -/
def State.becomesTicket (s : State) (p : Printer) : State :=
  match s.loaded p with
  | none => s.addHold p .noStock
  | some b =>
    let s := if b.state = .exhausted then s.addHold p .noStock else s
    if b.state = .unverified then s.addHold p .stockUnverified else s

/-- The hold reasons and the queues that a change of function leaves (R69, R15). -/
def State.applyFunction (s : State) (p : Printer) (old : PrinterEntry) : State :=
  let new := s.printerEntry p
  let s :=
    if old.function = new.function then s
    else
      match old.function with
      | .ticket =>
        let s := ((s.removeHold p .noStock).removeHold p .stockUnverified).removeHold p .audit
        s.refuseQueue p
      | .audit => s.updatePort p fun x => { x with audit := [] }
      | .report => s.updatePort p fun x => { x with slips := [] }
      | .off => s
  let s := if old.function ≠ .ticket ∧ new.function = .ticket then s.becomesTicket p else s
  if old.lowStock = new.lowStock then s else s.lowStockTest p

/-- The printers whose entry a load changes, in port order, with their old entries. -/
def changedPrinters (before after : Tab PrinterEntry 12) : List (Printer × PrinterEntry) :=
  allPrinters.filterMap fun p => if before.at p = after.at p then none else some (p, before.at p)

/-- A written printer table acts at its ports: first each changed port itself, then hold reasons and queues (R69;
log 23). -/
def State.printerTableWritten (s : State) (before : Tab PrinterEntry 12) : State :=
  let changed := changedPrinters before s.store.tables.printers
  let s := changed.foldl (fun s c => s.applyEntry c.1 c.2) s
  let s := changed.foldl (fun s c => s.applyFunction c.1 c.2) s
  s.settle

/-! ### Table store (R190, R193) -/

/-- The load's entries replace the stored ones together. -/
def Tables.with (t : Tables) (load : TableEntries) : Tables :=
  match load with
  | .ports es => { t with ports := replaceEntries t.ports es }
  | .printers es => { t with printers := replaceEntries t.printers es }
  | .routes es => { t with routes := replaceEntries t.routes es }
  | .discounts es => { t with discounts := replaceEntries t.discounts es }
  | .layouts es => { t with layouts := replaceEntries t.layouts es }
  | .tolerances es => { t with tolerances := replaceEntries t.tolerances es }
  | .conditions es => { t with conditions := replaceEntries t.conditions es }

/-- Whether a load is one of the printer table. -/
def TableEntries.isPrinters : TableEntries → Bool
  | .printers _ => true
  | _ => false

/-- TABLELOAD_WRITE_ENDS: the printer-table check again, then the load takes effect, is answered, and acts (R193). -/
def execTableloadWriteEnds (s : State) : Host.Outcome State Fault Refusal :=
  .next <|
    match s.store.write with
    | some (.tableload load reply) =>
      let s := { s with store := { s.store with write := none } }
      if s.changesBusyPort load then s.answerIf reply .busy .nothing
      else
        let before := s.store.tables.printers
        let s := { s with store := { s.store with tables := s.store.tables.with load } }
        let s := s.answerIf reply .done .nothing
        if load.isPrinters then s.printerTableWritten before else s
    | _ => s

/-- REPORTING_WRITE_ENDS: the switch takes its new value (R143). -/
def execReportingWriteEnds (s : State) : Host.Outcome State Fault Refusal :=
  .next <|
    match s.store.write with
    | some (.reporting on reply) =>
      State.answerIf { s with store := { s.store with reporting := on, write := none } } reply .done .nothing
    | _ => s

/-- CAUSECLEAR_WRITE_ENDS: the restart cause set is empty (R175). -/
def execCauseclearWriteEnds (s : State) : Host.Outcome State Fault Refusal :=
  .next <|
    match s.store.write with
    | some (.causeclear reply) =>
      State.answerIf { s with store := { s.store with causes := noCauses, write := none } } reply .done .nothing
    | _ => s

/-- CAUSE_WRITE_ENDS: the first step of recovery is complete; the others follow (R176 to R178; log 4). -/
def execCauseWriteEnds (s : State) : Host.Outcome State Fault Refusal :=
  .next <|
    match s.phase, s.store.write with
    | .recovering cause true, some (.cause _) => s.finishRecovery cause
    | _, _ => s

end Sys2Proof.Machine
end

