-- ==== Sys2Proof/Machine/SupplyEvents.lean ====
section
/-! DEFINITION. The supply, the reset line and the beginning of recovery (R170 to R179). -/

namespace Sys2Proof.Machine

/-- The controller is held in restart (R174). -/
def Phase.isRestarting : Phase → Bool
  | .restarting _ => true
  | .recovering _ _ => false
  | .running => false

/-- What is tested at every port is tested once the controller is RUNNING (R178, R179). -/
def State.settleRunning (s : State) : State := if s.isRunning then s.settle else s

/-- WARNING_CROSSING_DOWN: the supply enters WARNING; engines withdraw their claims and a checkpoint is abandoned
(R171, R161). -/
def execWarningCrossingDown (s : State) : Host.Outcome State Fault Refusal :=
  .next <|
    if ¬ s.phase.isRestarting ∧ s.supply = .normal then
      (State.updateJournal { s with supply := .warning } Journal.warned).settleRunning
    else s

/-- A writer that is IDLE, or would go on writing queued records, begins a deferred checkpoint when it can (R161). -/
def State.resumeWriter (s : State) : State := if s.journal.writer = .idle then s.startNext else s

/-- WARNING_CROSSING_UP: the supply is NORMAL again, SUPPLY_DIP is raised, gates are tested and a deferred checkpoint
begins (R172, R161, R68). -/
def execWarningCrossingUp (s : State) : Host.Outcome State Fault Refusal :=
  .next <|
    if ¬ s.phase.isRestarting ∧ s.supply = .warning then
      (State.raise { s with supply := .normal } (.office .supplyDip)).resumeWriter.settleRunning
    else s

/-- RESTART_CROSSING_DOWN: restart with cause SUPPLY_FAIL (R173). -/
def execRestartCrossingDown (s : State) : Host.Outcome State Fault Refusal := .next (s.restart .supplyFail)

/-- POWER_ON: restart with cause POWER_ON (R174; log 30). -/
def execPowerOn (s : State) : Host.Outcome State Fault Refusal := .next (s.restart .powerOn)

/-- RESET_LINE_ASSERTED: restart with cause RESET_LINE (R174). -/
def execResetLineAsserted (s : State) : Host.Outcome State Fault Refusal := .next (s.restart .resetLine)

/-- RECOVERY_BEGINS: the controller leaves restart and begins recovery (R174, R176). -/
def execRecoveryBegins (s : State) : Host.Outcome State Fault Refusal :=
  .next <|
    match s.phase with
    | .restarting cause => s.beginRecovery cause
    | .recovering _ _ => s
    | .running => s

end Sys2Proof.Machine
end

