-- ==== Sys2Proof/Machine/Dispatch.lean ====
section
/-! DEFINITION. What each command does: one arm per constructor, one meaning per arm. -/

namespace Sys2Proof.Machine

def exec (i : Instr) (s : State) : Host.Outcome State Fault Refusal :=
  match i with
  | .frameReceived w kind tag body => Sys2Proof.Machine.execFrameReceived w kind tag body s
  | .frameDiscarded w parity framing => Sys2Proof.Machine.execFrameDiscarded w parity framing s
  | .gapTimerExpiry w => Sys2Proof.Machine.execGapTimerExpiry w s
  | .frameTransmitted w => Sys2Proof.Machine.execFrameTransmitted w s
  | .signon w => Sys2Proof.Machine.execSignon w s
  | .signoff w => Sys2Proof.Machine.execSignoff w s
  | .issue w => Sys2Proof.Machine.execIssue w s
  | .testprint w => Sys2Proof.Machine.execTestprint w s
  | .cancel w => Sys2Proof.Machine.execCancel w s
  | .void w => Sys2Proof.Machine.execVoid w s
  | .refund w => Sys2Proof.Machine.execRefund w s
  | .tableload w => Sys2Proof.Machine.execTableload w s
  | .tableread w => Sys2Proof.Machine.execTableread w s
  | .stockin w => Sys2Proof.Machine.execStockin w s
  | .stockload w => Sys2Proof.Machine.execStockload w s
  | .stockout w => Sys2Proof.Machine.execStockout w s
  | .stockcount w => Sys2Proof.Machine.execStockcount w s
  | .stockread w => Sys2Proof.Machine.execStockread w s
  | .hold w => Sys2Proof.Machine.execHold w s
  | .release w => Sys2Proof.Machine.execRelease w s
  | .declare w => Sys2Proof.Machine.execDeclare w s
  | .close w => Sys2Proof.Machine.execClose w s
  | .sessionread w => Sys2Proof.Machine.execSessionread w s
  | .faultread w => Sys2Proof.Machine.execFaultread w s
  | .faultclear w => Sys2Proof.Machine.execFaultclear w s
  | .reporting w => Sys2Proof.Machine.execReporting w s
  | .journalread w => Sys2Proof.Machine.execJournalread w s
  | .statusread w => Sys2Proof.Machine.execStatusread w s
  | .causeclear w => Sys2Proof.Machine.execCauseclear w s
  | .resetFull w => Sys2Proof.Machine.execResetFull w s
  | .resetPath w => Sys2Proof.Machine.execResetPath w s
  | .caps p body => Sys2Proof.Machine.execCaps p body s
  | .fed p body => Sys2Proof.Machine.execFed p body s
  | .doublefed p body => Sys2Proof.Machine.execDoublefed p body s
  | .printed p body => Sys2Proof.Machine.execPrinted p body s
  | .presented p body => Sys2Proof.Machine.execPresented p body s
  | .jammed p body => Sys2Proof.Machine.execJammed p body s
  | .status p body => Sys2Proof.Machine.execStatus p body s
  | .printerMessageDiscarded p => Sys2Proof.Machine.execPrinterMessageDiscarded p s
  | .printerGapTimerExpiry p => Sys2Proof.Machine.execPrinterGapTimerExpiry p s
  | .attachTimerExpiry p => Sys2Proof.Machine.execAttachTimerExpiry p s
  | .absentRepeatTimerExpiry p => Sys2Proof.Machine.execAbsentRepeatTimerExpiry p s
  | .pollIntervalTimerExpiry p => Sys2Proof.Machine.execPollIntervalTimerExpiry p s
  | .pollReplyTimerExpiry p => Sys2Proof.Machine.execPollReplyTimerExpiry p s
  | .recordWriteEnds found => Sys2Proof.Machine.execRecordWriteEnds found s
  | .eraseEnds found => Sys2Proof.Machine.execEraseEnds found s
  | .checkpointRecordWriteEnds found => Sys2Proof.Machine.execCheckpointRecordWriteEnds found s
  | .tableloadWriteEnds => Sys2Proof.Machine.execTableloadWriteEnds s
  | .reportingWriteEnds => Sys2Proof.Machine.execReportingWriteEnds s
  | .causeclearWriteEnds => Sys2Proof.Machine.execCauseclearWriteEnds s
  | .causeWriteEnds => Sys2Proof.Machine.execCauseWriteEnds s
  | .warningCrossingDown => Sys2Proof.Machine.execWarningCrossingDown s
  | .warningCrossingUp => Sys2Proof.Machine.execWarningCrossingUp s
  | .restartCrossingDown => Sys2Proof.Machine.execRestartCrossingDown s
  | .powerOn => Sys2Proof.Machine.execPowerOn s
  | .resetLineAsserted => Sys2Proof.Machine.execResetLineAsserted s
  | .recoveryBegins => Sys2Proof.Machine.execRecoveryBegins s
  | .nonReportMessage p kind => Sys2Proof.Machine.execNonReportMessage p kind s
  | .nonRequestFrame w => Sys2Proof.Machine.execNonRequestFrame w s

end Sys2Proof.Machine
end

