-- ==== Sys2Proof/Safety.lean ====
section
/-! DEFINITION. The terms in which claims about the controller are stated: the invariants of its records, what stands
through an event, and a request that reaches its owner. -/

namespace Sys2Proof.Machine

/-! ### Invariants -/

/-- Journal memory has its canonical form. -/
abbrev State.memorySound (s : State) : Prop := Memory.wf s.journal.memory

/-- The office-link ports keep their limits: 2 frames in a receive buffer (R185), 4 unanswered requests (R186), 4 NOTICE
frames in a send list (R189); and a number given to an unanswered request is below the next one. -/
abbrev OfficePort.sound (next : Nat) (o : OfficePort) : Prop :=
  o.buffer.length ≤ Config.bufferFrames ∧ o.credit ≤ Config.creditLimit ∧
    o.sendList.countP OutFrame.isNotice ≤ Config.noticeLimit ∧ ∀ q ∈ o.unanswered, q.number < next

abbrev State.officeSound (s : State) : Prop := ∀ w : Window, (s.office.at w).sound s.nextRequest

/-- The fault queue holds one record per source and condition (R138). -/
abbrev State.faultsDistinct (s : State) : Prop := (s.monitor.faults.map FaultRecord.condition).Nodup

/-- The issue log holds at most 2,048 entries, one per pair of serial and stock type (R100). -/
abbrev SessionUnit.logSound (u : SessionUnit) : Prop :=
  u.log.length ≤ Config.logEntries ∧ (u.log.map fun e => (e.serial, e.stockType)).Nodup

/-- The journal places that an entry holds (R40). -/
def Entry.places (e : Entry) : Nat := (e.ticket.map TicketPart.places).getD 0

/-- The journal places that a window's entries hold. -/
def Port.places (x : Port) : Nat := (x.entries.map Entry.places).sum

/-- Until the controller runs no record waits, no place is reserved or claimed, no job is in the pool and no ticket image
is outstanding (R23, R169, R174). -/
abbrev State.emptyUntilRunning (s : State) : Prop :=
  s.phase ≠ .running → s.journal.queue = [] ∧ s.journal.reserved = 0 ∧ s.journal.claims = [] ∧
    (∀ j : JobNumber, s.jobs.at j = none) ∧
    ∀ p : Printer, s.queues.at p = [] ∧ ∀ e ∈ (s.ports.at p).entries, e.ticket = none

/-- Ticket images stand in the windows of TICKET ports alone (R40, R53, R191). -/
abbrev State.ticketsPlaced (s : State) : Prop :=
  ∀ p : Printer, ∀ e ∈ (s.ports.at p).entries, e.ticket ≠ none → s.function p = .ticket

/-- The journal's places (R154): queued records and reserved places are 32 at most, the reservation count is what the
outstanding images hold, and a ticket image holds 2 places, one of them spent when its double feed was counted. -/
abbrev State.roomSound (s : State) : Prop :=
  s.journal.queue.length + s.journal.reserved ≤ 32 ∧
    s.journal.reserved = (allPrinters.map fun p => (s.ports.at p).places).sum ∧
    (∀ p : Printer, ∀ e ∈ (s.ports.at p).entries, ∀ t ∈ e.ticket,
      1 ≤ t.places ∧ t.places ≤ 2 ∧ (t.doubleFed = false → t.places = 2)) ∧
    s.ticketsPlaced ∧ s.emptyUntilRunning

/-- The state of the job of a window entry (Table 1-2). -/
def EntryPhase.job : EntryPhase → JobState
  | .sent => .sent
  | .fed => .fed
  | .printed => .printed

/-- A job has an image number while it is SENT, FED or PRINTED, and a serial from FED on (Table 1-2). -/
abbrev Job.tabled (x : Job) : Prop :=
  (x.image = none ↔ x.state = .queued ∨ x.state = .presented) ∧ (x.serial = none ↔ x.state = .queued ∨ x.state = .sent)

/-- Where the jobs of the pool stand (R2, Table 1-2): a QUEUED job once in the queue of its printer, a SENT, FED or
PRINTED one in one entry of its printer's window, a PRESENTED one behind one queued record. -/
structure State.PoolSound (s : State) : Prop where
  queued : ∀ (p : Printer) (j : JobNumber), j ∈ s.queues.at p ↔
    ∃ x, s.jobs.at j = some x ∧ x.printer = p ∧ x.state = .queued
  once : ∀ p : Printer, (s.queues.at p).Nodup
  outstanding : ∀ (p : Printer) (j : JobNumber), j ∈ (s.ports.at p).entries.filterMap Entry.job? ↔
    ∃ x, s.jobs.at j = some x ∧ x.printer = p ∧ x.state ≠ .queued ∧ x.state ≠ .presented
  entries : ∀ (p : Printer), ∀ e ∈ (s.ports.at p).entries, ∀ j ∈ e.job?, ∀ x, s.jobs.at j = some x →
    x.state = e.phase.job ∧ x.image = some e.image
  single : ∀ p : Printer, ((s.ports.at p).entries.filterMap Entry.job?).Nodup
  presented : ∀ j : JobNumber, s.journal.queue.countP (fun q => q.link == .job j) =
    if (s.jobs.at j).any (fun x => x.state == .presented) then 1 else 0
  fields : ∀ (j : JobNumber) (x : Job), s.jobs.at j = some x → x.tabled
  placed : s.ticketsPlaced
  before : s.emptyUntilRunning

/-- A port's state, window and slips: among ACTIVE and HELD ports the HELD ones are those with a hold reason (R49); the
negotiated window is 1 to 4, at most as many entries stand in it, and none at a port that is neither ACTIVE nor HELD
(R42, R43, R52); at most 4 slips wait (R67). -/
abbrev Port.sound (x : Port) : Prop :=
  (x.state = .active → x.hold = noHolds) ∧ (x.state = .held → x.hold ≠ noHolds) ∧ 1 ≤ x.window ∧ x.window ≤ 4 ∧
    x.entries.length ≤ x.window ∧ (x.attached = false → x.entries = []) ∧ x.slips.length ≤ Config.slipQueueSlips

abbrev State.portsSound (s : State) : Prop := ∀ p : Printer, (s.ports.at p).sound

/-- An audit queue holds at most 64 lines (R64), and so does the audit load of a source marked "audit required" (R66). -/
abbrev State.auditSound (s : State) : Prop :=
  ∀ a : Printer, (s.ports.at a).audit.length ≤ Config.auditQueueLines ∧
    ∀ p : Printer, s.function p = .ticket → (s.printerEntry p).auditRequired = true → s.auditPort p = some a →
      s.auditLoad p a ≤ Config.auditQueueLines

/-- Session numbers are 1 to 65,535 and differ (R93), and a window and a clerk have one current session each (R94). -/
abbrev SessionUnit.sound (u : SessionUnit) : Prop :=
  1 ≤ u.nextNumber ∧ u.nextNumber ≤ 65535 ∧
    ∀ i : Fin 24, ∀ x ∈ u.table.at i, 1 ≤ x.number ∧ x.number ≤ 65535 ∧
      ∀ k : Fin 24, k ≠ i → ∀ y ∈ u.table.at k, y.number ≠ x.number ∧
        (x.current = true → y.current = true → y.window ≠ x.window ∧ y.clerk ≠ x.clerk)

/-- The number of the image, line or slip that a message sends (R41). -/
def Message.item? : Message → Option ImageNumber
  | .image n _ => some n
  | .line n _ => some n
  | .slip n _ => some n
  | .enquire => none
  | .poll => none
  | .serial _ _ => none

/-- The image numbers of a window, in sending order. -/
abbrev State.images (s : State) (p : Printer) : List ImageNumber := (s.ports.at p).entries.map Entry.image

/-- The image numbers of the items sent to a printer between two states, in sending order. -/
def State.itemsSent (s t : State) (p : Printer) : List ImageNumber :=
  (t.sent.drop s.sent.length).filterMap fun m => if m.1 = p then m.2.item? else none

/-! ### What stands through an event -/

/-- What the blocks leave alone while they take requests, reports and timers: the phase and the supply, the contents of
the table store, journal memory and the write head, the model's own counters and queue; a STOPPED journal stays STOPPED,
and no record leaves the write queue. -/
structure State.Keeps (s t : State) : Prop where
  phase : t.phase = s.phase
  supply : t.supply = s.supply
  store : { t.store with write := none } = { s.store with write := none }
  draws : t.draws = s.draws
  pending : t.pending = s.pending
  memory : t.journal.memory = s.journal.memory
  page : t.journal.page = s.journal.page
  slot : t.journal.slot = s.journal.slot
  pageSequence : t.journal.pageSequence = s.journal.pageSequence
  nextSequence : t.journal.nextSequence = s.journal.nextSequence
  stopped : s.journal.writer = .stopped → t.journal.writer = .stopped
  records : s.journal.queue.map Queued.record <+: t.journal.queue.map Queued.record

/-- A session without what is in flight for it: its jobs, its pending records, the sign-off it owes or will answer. -/
def Session.books (x : Session) : Session :=
  { x with jobs := 0, pendingRecords := 0, signOffOwed := false, signOff := none }

/-- The accounts stand: the figures and states of every session, the issue log, the next session number and the batches
as the written records leave them; and no table-store write begins or ends. -/
structure State.SameBooks (s t : State) : Prop where
  sessions : ∀ i : Fin 24, (t.sessions.table.at i).map Session.books = (s.sessions.table.at i).map Session.books
  log : t.sessions.log = s.sessions.log
  nextNumber : t.sessions.nextNumber = s.sessions.nextNumber
  standing : t.standing = s.standing
  write : t.store.write = s.store.write

/-- What a port's line may see while requests are answered and notices sent: its buffer stands, requests only leave the
list of unanswered ones, and no NOTICE joins a send list that holds 4. -/
structure OfficePort.Served (o o' : OfficePort) : Prop where
  buffer : o'.buffer = o.buffer
  unanswered : o'.unanswered.Sublist o.unanswered
  notices : o.sendList.countP OutFrame.isNotice ≤ Config.noticeLimit →
    o'.sendList.countP OutFrame.isNotice ≤ Config.noticeLimit

structure State.OfficeServed (s t : State) : Prop where
  ports : ∀ w : Window, OfficePort.Served (s.office.at w) (t.office.at w)
  nextRequest : t.nextRequest = s.nextRequest

/-- Nothing is said to anyone: no answer, no notice, no fault record. -/
structure State.Silent (s t : State) : Prop where
  office : t.office = s.office
  nextRequest : t.nextRequest = s.nextRequest
  monitor : t.monitor = s.monitor

/-- A job without what a sending or a move changes. -/
def Job.particulars (x : Job) : Job := { x with printer := 0, image := none, retry := 0, state := .queued }

/-- A batch without the mark of its closing record. -/
def Batch.unmarked (b : Batch) : Batch := { b with closingOwed := false }

/-- A port through the tests that follow an event (AUDIT, sendings, the send gate): its AUDIT hold may change; at an
ACTIVE or HELD port the state may change between the two, and entries may join the window. -/
structure Port.Tested (x y : Port) : Prop where
  holds : ∀ r : HoldReason, r ≠ .audit → y.holds r = x.holds r
  attached : y.attached = x.attached
  heldFast : x.state = .held → (∃ r : HoldReason, r ≠ .audit ∧ x.holds r = true) → y.state = .held
  rest : ({ y with state := .unused, hold := noHolds, entries := [], nextImage := 0 } : Port) =
    { x with state := .unused, hold := noHolds, entries := [], nextImage := 0 }
  window : x.entries <+: y.entries
  unattached : x.attached = false → ({ y with hold := noHolds } : Port) = { x with hold := noHolds }

/-- What the tests that follow an event do at most: ports as `Port.Tested` says, queued jobs moved or sent with their
particulars kept, closing records handed, and records and messages added behind those that stand. -/
structure State.Tests (s t : State) : Prop where
  ports : ∀ p : Printer, Port.Tested (s.ports.at p) (t.ports.at p)
  jobs : ∀ j : JobNumber, (t.jobs.at j).map Job.particulars = (s.jobs.at j).map Job.particulars
  unqueued : ∀ j : JobNumber, (∀ p : Printer, j ∉ s.queues.at p) →
    t.jobs.at j = s.jobs.at j ∧ ∀ p : Printer, j ∉ t.queues.at p
  store : t.stock.store = s.stock.store
  loaded : ∀ p : Printer, (t.loaded p).map Batch.unmarked = (s.loaded p).map Batch.unmarked
  queue : s.journal.queue <+: t.journal.queue
  sent : s.sent <+: t.sent

/-! ### A request that reaches its owner -/

/-- The frame at the head of a port's receive buffer is a request of a kind that reaches its owner: the controller is
RUNNING, the port is enabled and has a unit of credit free, and a management kind comes from a supervisor-capable port
(R185 to R187). -/
def State.asks (s : State) (w : Window) (kind : RequestKind) (tag : Byte) (body : List Byte) : Bool :=
  s.phase == .running && (s.portEntry w).enabled && ((s.office.at w).credit < Config.creditLimit : Bool) &&
    (!kind.management || (s.portEntry w).supervisor) &&
    (s.office.at w).buffer.head?.any fun f => requestKindOf f.kind == some kind && f.tag == tag && f.body == body

/-- The request as its answer will name it. -/
def State.asker (s : State) (w : Window) (tag : Byte) : Reply := { window := w, tag, number := some s.nextRequest }

/-- The request has left the buffer and holds a unit of credit. -/
def State.admitted (s : State) (w : Window) (tag : Byte) : State :=
  let o := s.office.at w
  { s with
    office := s.office.put w
      { o with buffer := o.buffer.tail, unanswered := o.unanswered ++ [{ number := s.nextRequest, tag }] }
    nextRequest := s.nextRequest + 1 }

/-- The request has left the buffer and has been answered at once. -/
def State.answered (s : State) (w : Window) (tag : Byte) (code : AnswerCode) (figures : Figures) : State :=
  let o := s.office.at w
  { s with
    office := s.office.put w
      { o with buffer := o.buffer.tail, sendList := o.sendList ++ [.answer tag code figures false] }
    nextRequest := s.nextRequest + 1 }

/-- The first checks of a request that needs a journal place pass: the journal is not STOPPED and the supply is NORMAL.
-/
abbrev State.journalTakes (s : State) : Prop := s.journal.writer ≠ .stopped ∧ s.supply = .normal

/-- The port that a command takes a request from and the kind of the request; `none` for a frame of no request kind. -/
def requestOf : Instr → Option (Window × Option RequestKind)
  | .signon w => some (w, some .signon)
  | .signoff w => some (w, some .signoff)
  | .issue w => some (w, some .issue)
  | .testprint w => some (w, some .testprint)
  | .cancel w => some (w, some .cancel)
  | .void w => some (w, some .void)
  | .refund w => some (w, some .refund)
  | .tableload w => some (w, some .tableload)
  | .tableread w => some (w, some .tableread)
  | .stockin w => some (w, some .stockin)
  | .stockload w => some (w, some .stockload)
  | .stockout w => some (w, some .stockout)
  | .stockcount w => some (w, some .stockcount)
  | .stockread w => some (w, some .stockread)
  | .hold w => some (w, some .hold)
  | .release w => some (w, some .release)
  | .declare w => some (w, some .declare)
  | .close w => some (w, some .close)
  | .sessionread w => some (w, some .sessionread)
  | .faultread w => some (w, some .faultread)
  | .faultclear w => some (w, some .faultclear)
  | .reporting w => some (w, some .reporting)
  | .journalread w => some (w, some .journalread)
  | .statusread w => some (w, some .statusread)
  | .causeclear w => some (w, some .causeclear)
  | .resetFull w => some (w, some .reset)
  | .resetPath w => some (w, some .reset)
  | .nonRequestFrame w => some (w, none)
  | _ => none

/-- A frame is one that the command takes: of its kind, and for a RESET not one that spells the other scope. -/
def takes (c : Instr) (f : Frame) : Bool :=
  match c with
  | .resetFull _ => isReset true f
  | .resetPath _ => isReset false f
  | _ => (requestOf c).any fun wk => requestKindOf f.kind == wk.2

/-- The body has the size and shape of its kind (R187 step 2, R199, R201). -/
def RequestKind.shaped (kind : RequestKind) (body : List Byte) : Bool :=
  match kind with
  | .signon => (readSignon body).isSome
  | .signoff => (readNothing body).isSome
  | .issue => (readIssue body).isSome
  | .testprint => (readByte body).isSome
  | .cancel => (readByte body).isSome
  | .void => (readVoid body).isSome
  | .refund => (readRefund body).isSome
  | .tableload => (readTableload body).isSome
  | .tableread => (readTableread body).isSome
  | .stockin => (readStockin body).isSome
  | .stockload => (readStockload body).isSome
  | .stockout => (readByte body).isSome
  | .stockcount => (readStockcount body).isSome
  | .stockread => (readStockread body).isSome
  | .hold => (readByte body).isSome
  | .release => (readByte body).isSome
  | .declare => (readDeclare body).isSome
  | .close => (readClose body).isSome
  | .sessionread => (readSessionread body).isSome
  | .faultread => (readByte body).isSome
  | .faultclear => (readFaultclear body).isSome
  | .reporting => (readEither body).isSome
  | .journalread => (readJournalread body).isSome
  | .statusread => (readNothing body).isSome
  | .causeclear => (readNothing body).isSome
  | .reset => (readEither body).isSome

/-- The kinds whose owners check the journal and the supply first (R3, R76, R95, R102, R104, R107, R115, R124). -/
def RequestKind.needsJournal : RequestKind → Bool
  | .signon | .signoff | .issue | .testprint | .void | .refund | .stockin | .stockload | .stockout | .stockcount
  | .declare | .close => true
  | _ => false

/-! ### Records handed -/

/-- A record joins the tail of the write queue and nothing leaves it; a writer that is not IDLE goes on, and an IDLE
writer with no checkpoint due takes the record (R151, R154). -/
structure Journal.Takes (j : Journal) (q : Queued) (k : Journal) : Prop where
  queue : k.queue = j.queue ++ [q]
  busy : j.writer ≠ .idle → k.writer = j.writer ∧ k.checkpointDue = j.checkpointDue
  idle : j.writer = .idle → j.checkpointDue = false → k.writer = .writing ∧ k.checkpointDue = false
  rest : { k with queue := j.queue, writer := j.writer, checkpointDue := j.checkpointDue } = j

/-- A request is accepted: it keeps its unit of credit, its record is handed, and outside the sessions and the stock
nothing else changes (R156). -/
structure State.Accepts (s : State) (w : Window) (tag : Byte) (record : JRecord) (link : Link) (t : State) : Prop where
  office : t.office = (s.admitted w tag).office
  nextRequest : t.nextRequest = s.nextRequest + 1
  journal : s.journal.Takes { record, link } t.journal
  rest : { t with office := s.office, nextRequest := s.nextRequest, journal := s.journal, sessions := s.sessions,
                  stock := s.stock } = s

/-- The SPOIL records of window entries: one for each FED or PRINTED entry whose job holds a serial (R48, R58, R59, R70),
in sending order, by the model's choice (log 52). -/
def State.spoils (s : State) (cause : SpoilCause) (p : Printer) (es : List Entry) : List Queued :=
  es.filterMap fun e =>
    if e.phase = .sent then none
    else
      match (e.ticket.bind fun t => s.jobs.at t.job) with
      | some job => job.serial.map fun sb => { record := spoilRecord cause job p sb.1 sb.2, link := .nothing }
      | none => none

/-- A job stands in a printer's queue or window. -/
abbrev State.standsAt (s : State) (p : Printer) (j : JobNumber) : Prop :=
  j ∈ s.queues.at p ∨ (some j ∈ (s.ports.at p).entries.map Entry.job?)

/-- The jobs that stand in a queue or in a window have records that name its printer (R2). -/
abbrev State.jobsAt (s : State) (p : Printer) : Prop :=
  ∀ j : JobNumber, s.standsAt p j → ∃ job, s.jobs.at j = some job ∧ job.printer = p

/-- No job stands twice in a printer's queue and window, and their records name the printer (R2, R11). -/
abbrev State.placed (s : State) (p : Printer) : Prop :=
  s.jobsAt p ∧ ((s.ports.at p).entries.filterMap Entry.job? ++ s.queues.at p).Nodup

/-! ### Queues considered -/

/-- The job of an image that leaves the window unpresented, as it returns to its queue (R11). -/
def Job.returned (x : Job) : Job := { x with state := .queued, image := none, serial := none, spare := none }

/-- The jobs of window entries stand at the front of the printer's queue again, in sending order (R11). -/
def State.returning (s : State) (p : Printer) (es : List Entry) : State :=
  let back := es.filterMap Entry.job?
  { s with
    jobs := Vector.ofFn fun j => if j ∈ back then (s.jobs.at j).map Job.returned else s.jobs.at j
    queues := s.queues.put p (back ++ s.queues.at p) }

/-- Where a job that a rule concerns moves (R12). -/
def State.sendsTo (v : State) (concerns : Job → Bool) (j : JobNumber) : Option Printer :=
  (v.jobs.at j).bind fun y => if concerns y then v.moveTarget y else none

/-- What a rule makes of the jobs of a queue: one that it concerns moves when it can, its retry count 0; else it is
answered the rule's refusal and its record freed, or stays where the rule refuses none; the others stay (R12 to
R17). -/
structure State.Resolves (v : State) (p : Printer) (concerns : Job → Bool) (refusal : Option AnswerCode) (u : State) :
    Prop where
  moved : ∀ j ∈ v.queues.at p, ∀ y q, v.jobs.at j = some y → concerns y = true → v.moveTarget y = some q →
    u.jobs.at j = some { y with printer := q, retry := 0 } ∧ j ∈ u.queues.at q
  refused : ∀ j ∈ v.queues.at p, ∀ y code, v.jobs.at j = some y → concerns y = true → v.moveTarget y = none →
    refusal = some code → u.jobs.at j = none ∧
      .answer y.origin.tag code .nothing false ∈ (u.office.at y.origin.window).sendList
  stayed : ∀ j ∈ v.queues.at p, ∀ y, v.jobs.at j = some y →
    concerns y = false ∨ (v.moveTarget y = none ∧ refusal = none) → u.jobs.at j = some y ∧ j ∈ u.queues.at p

/-- A queue is considered from head to tail: besides what becomes of its jobs, those that stay keep their order and those
that move join the tails of the other queues in theirs, and no other job is touched (R12). -/
structure State.Considers (v : State) (p : Printer) (concerns : Job → Bool) (refusal : Option AnswerCode) (u : State) :
    Prop extends v.Resolves p concerns refusal u where
  others : ∀ j : JobNumber, j ∉ v.queues.at p → u.jobs.at j = v.jobs.at j
  queue : u.queues.at p = (v.queues.at p).filter fun j =>
    v.sendsTo concerns j == none && (refusal == none || !(v.jobs.at j).any concerns)
  tails : ∀ q : Printer, q ≠ p → u.queues.at q = v.queues.at q ++ (v.queues.at p).filter fun j =>
    v.sendsTo concerns j == some q

/-- The queue of a port that an event may put in HELD: considered, with no refusal, when the event takes it there from
ACTIVE, and left alone otherwise (R13). -/
def State.HoldsQueue (v : State) (p : Printer) (entersHeld : Prop) (u : State) : Prop :=
  (entersHeld → v.Considers p (fun _ => true) none u) ∧
    (¬ entersHeld → (∀ j : JobNumber, u.jobs.at j = v.jobs.at j) ∧ ∀ q : Printer, u.queues.at q = v.queues.at q)

/-! ### Reports about an image -/

/-- The reports about an image (Table 11-5). -/
inductive ImageReport where
  | fed | doublefed | printed | presented | jammed
  deriving DecidableEq, Repr

/-- The command that carries a report. -/
def ImageReport.command : ImageReport → Printer → List Byte → Instr
  | .fed, p, body => .fed p body
  | .doublefed, p, body => .doublefed p body
  | .printed, p, body => .printed p body
  | .presented, p, body => .presented p body
  | .jammed, p, body => .jammed p body

/-- Table 3-6 for the entry that a report names and the entries older than it; at an AUDIT or REPORT port PRINTED names
the oldest entry and JAMMED any (R65), and the other kinds are refused (R54). -/
def ImageReport.allowed (r : ImageReport) (function : PortFunction) (older : List Entry) (e : Entry) : Prop :=
  if function = .ticket then
    match r with
    | .fed => e.phase = .sent ∧ ∀ o ∈ older, o.phase = .fed ∨ o.phase = .printed
    | .doublefed => e.phase = .fed ∧ ∃ t, e.ticket = some t ∧ t.doubleFed = false
    | .printed => e.phase = .fed ∧ ∀ o ∈ older, o.phase = .printed
    | .presented => e.phase = .printed ∧ older = []
    | .jammed => (e.phase = .sent ∧ ∀ o ∈ older, o.phase = .fed ∨ o.phase = .printed) ∨ e.phase = .fed
  else
    match r with
    | .fed => False
    | .doublefed => False
    | .printed => older = []
    | .presented => False
    | .jammed => True

/-- The port takes reports: the controller is RUNNING and the port is ACTIVE or HELD (R45). -/
abbrev State.takesReports (s : State) (p : Printer) : Prop :=
  s.phase = .running ∧ ((s.ports.at p).state = .active ∨ (s.ports.at p).state = .held)

/-- The body of a report names an entry of a port's window: the oldest with its number, by the model's choice where two
entries hold it (log 55). -/
structure State.Names (s : State) (p : Printer) (body : List Byte) (older : List Entry) (e : Entry)
    (younger : List Entry) : Prop where
  takes : s.takesReports p
  body : readByte body = some e.image.val
  window : (s.ports.at p).entries = older ++ e :: younger
  oldest : ∀ f ∈ older, f.image ≠ e.image

/-- The entry named is a ticket entry, and its job has a record. -/
structure State.NamesTicket (s : State) (p : Printer) (body : List Byte) (older : List Entry) (e : Entry)
    (younger : List Entry) (t : TicketPart) (job : Job) : Prop extends s.Names p body older e younger where
  function : s.function p = .ticket
  ticket : e.ticket = some t
  job : s.jobs.at t.job = some job

/-- Jobs have ended: the jobs in flight of a session fall by the number of its jobs that ended, and a CLOSING session of
theirs that has nothing left in flight owes its sign-off and has claimed a place (R21, R99, R108). -/
structure State.JobsEnded (s : State) (ended : List Job) (u : State) : Prop where
  jobs : ∀ n x, s.session n = some x → ∃ y, u.session n = some y ∧
    y.jobs = x.jobs - ended.countP fun job => job.session == n
  owed : ∀ n x y, (∃ job ∈ ended, job.session = n) → s.session n = some x → u.session n = some y → y.finished = true →
    y.signOffOwed = true ∧ (x.signOffOwed = false → .session n ∈ u.journal.claims)

/-- A port leaves ACTIVE or HELD (the order of its SPOIL records is the model's choice, log 52): its timers stop, its
window empties with the SPOIL records and the places of its entries, its claim goes, and no job is left in its queue
(R48, R59, R60). -/
structure State.Leaves (s : State) (p : Printer) (after : PortState) (cause : SpoilCause) (u : State) : Prop where
  state : (u.ports.at p).state = after
  entries : (u.ports.at p).entries = []
  timers : (u.ports.at p).attachTimer = none ∧ (u.ports.at p).pollTimer = none ∧ (u.ports.at p).replyTimer = none ∧
    (u.ports.at p).absentTimer = if after = .absent then some 5000 else none
  others : ∀ q : Printer, q ≠ p → u.ports.at q = s.ports.at q
  queue : s.placed p → u.queues.at p = []
  records : u.journal.queue = s.journal.queue ++ s.spoils cause p (s.ports.at p).entries
  places : (∀ e ∈ (s.ports.at p).entries, ∀ t ∈ e.ticket, 1 ≤ t.places) →
    u.journal.reserved = s.journal.reserved - (s.ports.at p).places
  claim : .engine p ∉ u.journal.claims
  keeps : s.Keeps u
  books : s.SameBooks u

/-- A port that leaves ACTIVE or HELD drops its work: its outstanding jobs return to its queue, each job of the queue
moves where it can and else is answered PRINTER_UNAVAILABLE, and its session is told (R11, R12, R14, R21, R99, R108). -/
structure State.Drops (s : State) (p : Printer) (after : PortState) (cause : SpoilCause) (u : State) : Prop
    extends s.Leaves p after cause u where
  resolved : s.placed p →
    (s.returning p (s.ports.at p).entries).Resolves p (fun _ => true) (some .printerUnavailable) u
  ended : s.placed p → s.JobsEnded
    (allJobs.filterMap fun j => if s.standsAt p j ∧ u.jobs.at j = none then s.jobs.at j else none) u

/-! ### Table loads -/

/-- A yes-or-no value of a body (R199). -/
def yesByte (yes : Bool) : List Byte := [if yes then 1 else 0]

/-- The value checks and the clamping of a TABLELOAD (R192), for a body laid out as R201 says: `some none` is a body of
the right shape that fails a check, and an entry is read with the index it names, `none` for a value out of range. -/
structure LoadValues : Prop where
  /-- Numbers are sent high byte first, and enumerated values as their codes (R199, Table 11-10). -/
  numbers : ∀ n : Nat, numberBytes 1 n = [BitVec.ofNat 8 n] ∧
    numberBytes 2 n = [BitVec.ofNat 8 (n / 256), BitVec.ofNat 8 n] ∧
    numberBytes 4 n = [BitVec.ofNat 8 (n / 16777216), BitVec.ofNat 8 (n / 65536), BitVec.ofNat 8 (n / 256),
      BitVec.ofNat 8 n]
  codes : PortFunction.ticket.code = 0 ∧ PortFunction.audit.code = 1 ∧ PortFunction.report.code = 2 ∧
    PortFunction.off.code = 3 ∧ Priority.urgent.code = 0 ∧ Priority.routine.code = 1
  /-- 1 to 8 entries, every index in the table's range and no index twice. -/
  entries : ∀ (α : Type) (n : Nat) (es : List (Nat × Option α)) (xs : List (Fin n × α)),
    indexedEntries n es = some xs ↔ 1 ≤ es.length ∧ es.length ≤ 8 ∧ (es.map Prod.fst).Nodup ∧
      es = xs.map fun x => (x.1.val, some x.2)
  /-- The tables by their identifiers. -/
  tables :
    let table (α : Type) (k n : Nat) (read : List Byte → Option ((Nat × Option α) × List Byte))
        (make : List (Fin n × α) → TableEntries) : Prop :=
      ∀ es : List (List Byte × Nat × Option α), es.length < 256 →
        (∀ e ∈ es, ∀ rest, read (e.1 ++ rest) = some (e.2, rest)) →
        readTableload (numberBytes 1 k ++ numberBytes 1 es.length ++ es.flatMap Prod.fst) =
          some ((indexedEntries n (es.map Prod.snd)).map make)
    table _ 0 8 readPortEntry .ports ∧ table _ 1 12 readPrinterEntry .printers ∧
      table _ 2 128 readRouteEntry .routes ∧ table _ 3 64 readDiscountEntry .discounts ∧
      table _ 4 16 readLayoutEntry .layouts ∧ table _ 5 3 readToleranceEntry .tolerances ∧
      table _ 6 18 readConditionEntry .conditions ∧
      ∀ (k count : Nat) (rest : List Byte), 7 ≤ k → k < 256 → count < 256 →
        readTableload (numberBytes 1 k ++ numberBytes 1 count ++ rest) = some none
  /-- Enabled, supervisor-capable and notice receiver are yes-or-no values (log 9). -/
  ports : ∀ (i : Nat) (e : PortEntry) (rest : List Byte), i < 256 →
    readPortEntry (numberBytes 1 i ++ yesByte e.enabled ++ yesByte e.supervisor ++ yesByte e.notices ++ rest) =
      some ((i, some e), rest)
  /-- Filter depth and poll interval are clamped, not checked. -/
  printers : ∀ (i source window depth retry poll select low : Nat) (function : PortFunction) (audit : Bool)
    (rest : List Byte), i < 256 → source < 256 → window < 256 → depth < 256 → retry < 256 → poll < 65536 →
    select < 65536 → low < 65536 → ∃ v,
      readPrinterEntry (numberBytes 1 i ++ numberBytes 1 function.code ++ numberBytes 1 source ++ numberBytes 1 window ++
          numberBytes 1 depth ++ numberBytes 1 retry ++ numberBytes 2 poll ++ numberBytes 2 select ++ yesByte audit ++
          numberBytes 2 low ++ rest) = some ((i, v), rest) ∧
      (12 ≤ source ∨ 15 < window ∨ 3 < retry ∨ select < 50 ∨ 1000 < select ∨ 500 < low ∨
        (function = .audit ∧ source = i) → v = none) ∧
      ∀ a : Printer, a.val = source → window ≤ 15 → retry ≤ 3 → 50 ≤ select → select ≤ 1000 → low ≤ 500 →
        ¬ (function = .audit ∧ source = i) → v = some
          { function, auditSource := a, windowCode := window, filterDepth := max 1 (min depth 4), retryLimit := retry
            pollInterval := if poll < 100 then 100 else if 2000 < poll then 2000 else poll / 100 * 100
            selectTimeout := select, auditRequired := audit, lowStock := low }
  routes :
    let place (q : Option Printer) : Nat := (q.map Fin.val).getD 255
    ∀ (i a b : Nat) (rest : List Byte), i < 256 → a < 256 → b < 256 → ∃ v,
      readRouteEntry (numberBytes 1 i ++ numberBytes 1 a ++ numberBytes 1 b ++ rest) = some ((i, v), rest) ∧
      ((12 ≤ a ∧ a ≠ 255) ∨ (12 ≤ b ∧ b ≠ 255) → v = none) ∧
      ∀ primary alternate : Option Printer, place primary = a → place alternate = b → v = some { primary, alternate }
  /-- Code 0 is enabled, rate 0, unit 1, floor 0 and nothing else. -/
  discounts : ∀ (i : Nat) (e : DiscountEntry) (rest : List Byte), i < 256 → e.rate < 65536 → e.unit < 256 →
    e.floor < 4294967296 → ∃ v,
      readDiscountEntry (numberBytes 1 i ++ yesByte e.enabled ++ numberBytes 2 e.rate ++ numberBytes 1 e.unit ++
        numberBytes 4 e.floor ++ rest) = some ((i, v), rest) ∧
      (v = some e ↔ e.rate ≤ 10000 ∧ (e.unit = 1 ∨ e.unit = 5 ∨ e.unit = 10) ∧ e.floor ≤ 99999 ∧
        (i = 0 → e = { enabled := true, rate := 0, unit := 1, floor := 0 })) ∧ (v = none ∨ v = some e)
  /-- 0 to 16 segments, each on a row and column of the ticket, a fixed text of at most 24 characters, a field 0 to 7. -/
  layouts : ∀ (i : Nat) (gs : List Segment) (rest : List Byte), i < 256 → gs.length < 256 →
    (∀ g ∈ gs, g.row < 256 ∧ g.column < 256 ∧ (∀ n, g.kind = .field n → n < 256) ∧
      ∀ t, g.kind = .fixed t → t.length < 256 ∧ ∀ b ∈ t, 0x20 ≤ b.toNat ∧ b.toNat ≤ 0x7E) → ∃ v,
      readLayoutEntry (numberBytes 1 i ++ numberBytes 1 gs.length ++ (gs.flatMap fun g =>
        numberBytes 1 g.row ++ numberBytes 1 g.column ++
          match g.kind with
          | .fixed t => numberBytes 1 0 ++ numberBytes 1 t.length ++ t
          | .field n => numberBytes 1 1 ++ numberBytes 1 n
          | .serial => numberBytes 1 2
          | .net => numberBytes 1 3
          | .gross => numberBytes 1 4
          | .discount => numberBytes 1 5
          | .window => numberBytes 1 6
          | .clerk => numberBytes 1 7
          | .batch => numberBytes 1 8) ++ rest) = some ((i, v), rest) ∧
      (v = some gs ↔ gs.length ≤ 16 ∧ ∀ g ∈ gs, g.row ≤ 11 ∧ g.column ≤ 47 ∧
        (∀ t, g.kind = .fixed t → t.length ≤ 24) ∧ ∀ n, g.kind = .field n → n ≤ 7) ∧ (v = none ∨ v = some gs)
  /-- A ceiling other than 0 is not below the fixed allowance, UNSET counting as 0. -/
  tolerances : ∀ (i : Nat) (e : ToleranceEntry) (rest : List Byte), i < 256 → (∀ n ∈ e.fixed, n < 4294967295) →
    e.proportion < 65536 → e.ceiling < 4294967296 → e.referral < 4294967296 → ∃ v,
      readToleranceEntry (numberBytes 1 i ++ numberBytes 4 (e.fixed.getD 4294967295) ++ numberBytes 2 e.proportion ++
        numberBytes 4 e.ceiling ++ numberBytes 4 e.referral ++ rest) = some ((i, v), rest) ∧
      (v = some e ↔ (∀ n ∈ e.fixed, n ≤ 99999) ∧ e.proportion ≤ 1000 ∧ e.ceiling ≤ 999999 ∧ 1 ≤ e.referral ∧
        e.referral ≤ 9999999 ∧ (e.ceiling ≠ 0 → ∀ n ∈ e.fixed, n ≤ e.ceiling)) ∧ (v = none ∨ v = some e)
  /-- Notify enable is set or clear, set being 0 (log 9). -/
  conditions : ∀ (i : Nat) (e : ConditionEntry) (rest : List Byte), i < 256 →
    readConditionEntry (numberBytes 1 i ++ numberBytes 1 e.priority.code ++ yesByte (!e.notify) ++ rest) =
      some ((i, some e), rest)
  /-- A port table keeps a port both enabled and supervisor-capable, the entries taken together with the stored ones. -/
  supervisor : ∀ (s : State) (load : TableEntries), s.loadHolds load = true ↔
    ∀ es, load = .ports es → ∃ w : Window,
      let t := replaceEntries s.store.tables.ports es
      (t.at w).enabled = true ∧ (t.at w).supervisor = true

/-! ### Balances and ranges -/

/-- The balance of a batch record (R73). -/
abbrev Batch.balanced (b : Batch) : Prop :=
  b.first ≤ b.next ∧ b.next ≤ b.last + 1 ∧
    b.next - b.first = b.issued + b.spoiled + b.test + b.inHand + b.unrecorded

/-- The serials of a batch that are given out with no record written: the blanks of FED and PRINTED images, and what the
queued records account for (R73, R84). -/
def State.outstanding (s : State) (id : Nat) : Nat :=
  (allPrinters.map fun p => (s.ports.at p).entries.countP fun e =>
    e.phase != .sent && ((e.ticket.bind fun t => s.jobs.at t.job).bind Job.serial).any fun sb => sb.2 == id).sum +
  (s.journal.queue.map fun q => ((q.record.accounts.filter fun a => a.1 == id).map Prod.snd).getD 0).sum

/-- The stock accounts balance (R73): every store and loaded record keeps its balance, its in hand count is what is
outstanding under its identifier, identifiers differ (R72), and nothing is outstanding under an identifier that no record
carries. -/
structure State.StockSound (s : State) : Prop where
  balanced : ∀ b ∈ s.stock.batches, b.balanced ∧ b.inHand = s.outstanding b.id
  ids : (s.stock.batches.map Batch.id).Nodup
  others : ∀ id : Nat, (∀ b ∈ s.stock.batches, b.id ≠ id) → s.outstanding id = 0

/-- Every field of a record fits the bits that R202 gives it. -/
abbrev JRecord.fits (r : JRecord) : Prop :=
  (∀ f ∈ ((fieldWidths r.code).getD []).zip r.values, f.2 < 2 ^ f.1) ∧
    match r with
    | .signOff _ _ _ _ _ _ _ _ net =>
      ∀ i ∈ [net.cash, net.card, net.warrant], -(2 ^ 31 : Int) ≤ i ∧ i < (2 ^ 31 : Int)
    | _ => True

/-- The totals and counts of a session lie in their ranges (R97). -/
abbrev Session.inRange (x : Session) : Prop :=
  (∀ t : Tender, x.issueTotal.get t ≤ 999999999 ∧ x.voidTotal.get t ≤ 999999999 ∧ x.refundTotal.get t ≤ 999999999) ∧
    x.unmatched ≤ 999999999 ∧ x.issued ≤ 65535 ∧ x.voided ≤ 65535 ∧ x.refunds ≤ 65535 ∧ x.spoiled ≤ 65535 ∧
    x.test ≤ 65535

end Sys2Proof.Machine
end

