-- ==== Sys2Proof/WellFormed.lean ====
section
/-! DEFINITION. Which commands can reach the controller: the ranges of their operands. -/

namespace Sys2Proof

/-- A frame's or message's body fits a frame (Table 11-1). -/
def bodyFits (body : List Byte) : Bool := body.length ≤ Config.maxBody

/-- What a read-back finds is as long as what was written. -/
def foundFits (n : Nat) (found : Option (List Byte)) : Bool := found.all (·.length == n)

/-- A message kind of Table 11-2 that a printer uses in a report: CAPS 0xC1 to STATUS 0xC7. -/
def isReportKind (kind : Byte) : Bool := 0xC1 ≤ kind.toNat && kind.toNat ≤ 0xC7

/-- The command's operands are in the ranges the spec gives them. -/
def Instr.wellFormed : Instr → Bool
  | .frameReceived _ _ _ body => bodyFits body
  | .frameDiscarded _ _ _ => true
  | .gapTimerExpiry _ => true
  | .frameTransmitted _ => true
  | .signon _ => true
  | .signoff _ => true
  | .issue _ => true
  | .testprint _ => true
  | .cancel _ => true
  | .void _ => true
  | .refund _ => true
  | .tableload _ => true
  | .tableread _ => true
  | .stockin _ => true
  | .stockload _ => true
  | .stockout _ => true
  | .stockcount _ => true
  | .stockread _ => true
  | .hold _ => true
  | .release _ => true
  | .declare _ => true
  | .close _ => true
  | .sessionread _ => true
  | .faultread _ => true
  | .faultclear _ => true
  | .reporting _ => true
  | .journalread _ => true
  | .statusread _ => true
  | .causeclear _ => true
  | .resetFull _ => true
  | .resetPath _ => true
  | .caps _ body => bodyFits body
  | .fed _ body => bodyFits body
  | .doublefed _ body => bodyFits body
  | .printed _ body => bodyFits body
  | .presented _ body => bodyFits body
  | .jammed _ body => bodyFits body
  | .status _ body => bodyFits body
  | .printerMessageDiscarded _ => true
  | .printerGapTimerExpiry _ => true
  | .attachTimerExpiry _ => true
  | .absentRepeatTimerExpiry _ => true
  | .pollIntervalTimerExpiry _ => true
  | .pollReplyTimerExpiry _ => true
  | .recordWriteEnds found => foundFits Config.slotBytes found
  | .eraseEnds found => foundFits Config.pageBytes found
  | .checkpointRecordWriteEnds found => foundFits Config.slotBytes found
  | .tableloadWriteEnds => true
  | .reportingWriteEnds => true
  | .causeclearWriteEnds => true
  | .causeWriteEnds => true
  | .warningCrossingDown => true
  | .warningCrossingUp => true
  | .restartCrossingDown => true
  | .powerOn => true
  | .resetLineAsserted => true
  | .recoveryBegins => true
  | .nonReportMessage _ kind => !isReportKind kind
  | .nonRequestFrame _ => true

end Sys2Proof
end

