-- ==== Sys2Proof/Certificates/Slice0/Obligations.lean ====
section
/-! DEFINITION. The statements for the provers. A statement about a command names the state before it `s` and says which
state it leaves. `s.settle` is what the tests that follow an event make of a state; `SettleFrame` says what that can be. -/

open Sys2Proof Sys2Proof.Machine

/-! ### The machine -/

/-- One step runs the command at the front of the queue with the queue's rest. On an empty queue the block idles, which
is the model's choice (log 2). -/
def Obligations.StepRunsFront : Prop :=
  (∀ (c : Instr) (rest : List Instr) (s : State),
    s.pending = c :: rest → step s = exec c { s with pending := rest }) ∧
  ∀ s : State, s.pending = [] → step s = .next s

/-- Every command answers a next state in every state, and no command touches the queue of waiting commands. That one
whose event cannot occur in the state answers a next state too is the model's choice (log 1). -/
def Obligations.CommandsComplete : Prop :=
  ∀ (c : Instr) (s : State), ∃ t : State, exec c s = .next t ∧ t.pending = s.pending

/-- The controller at the moment it enters RUNNING after power-on with empty stores: the third columns of the
chapters' tables of reset values, Table 8-5's writer and head slot apart, and the factory tables (Table 10-4). It meets
every invariant of this file. That this moment is the reset state is the model's choice (log 3), and so are the writer
ERASING and the head at slot 0 of page 0, which Table 8-5 gives as CHECKPOINT, then IDLE (log 19), and the number 0 that
the queued RESTART record carries when replay applied no record (log 21). -/
def Obligations.ResetState : Prop :=
  State.reset.phase = .running ∧ State.reset.supply = .normal ∧
  (∀ w : Window, State.reset.office.at w = { buffer := [], unanswered := [], conditions := noLines, sendList := [] }) ∧
  (∀ j : JobNumber, State.reset.jobs.at j = none) ∧
  (∀ p : Printer, State.reset.queues.at p = [] ∧ State.reset.loaded p = none ∧ State.reset.function p = .off ∧
    State.reset.ports.at p =
      { state := .unused, hold := noHolds, jamLatch := false, device := none, window := 1, entries := [], nextImage := 0
        unanswered := 0, attachTimer := none, pollTimer := none, replyTimer := none, absentTimer := none
        lastStatus := none, audit := [], slips := [] }) ∧
  State.reset.stock.store = [] ∧
  (∀ i : Fin 24, State.reset.sessions.table.at i = none) ∧ State.reset.sessions.nextNumber = 1 ∧
  State.reset.sessions.log = [] ∧
  (∀ (p : Printer) (c : Sensed), State.reset.filter p c = { present := false, run := 0 }) ∧
  (∀ p : Printer, State.reset.monitor.lasting.at p =
    { noAnswer := false, protocol := false, overrun := false, stockLow := false, stockMismatch := false }) ∧
  State.reset.monitor.faults =
    [{ condition := .office .restart, priority := .urgent, present := false, occurrences := 1, first := 1, last := 1 }] ∧
  State.reset.monitor.nextSequence = 2 ∧ State.reset.store.reporting = false ∧
  (∀ c : RestartCause, State.reset.store.causes.at c.place = (c == .powerOn)) ∧
  State.reset.store.write = none ∧ State.reset.store.valid = true ∧
  (∀ w : Window, State.reset.portEntry w = { enabled := true, supervisor := w == 0, notices := w == 0 }) ∧
  (∀ p : Printer, State.reset.printerEntry p =
    { function := .off, auditSource := 0, windowCode := 0, filterDepth := 1, retryLimit := 0, pollInterval := 1000
      selectTimeout := 200, auditRequired := false, lowStock := 0 }) ∧
  (∀ (w : Window) (ty : StockType), State.reset.routeEntry w ty = { primary := none, alternate := none }) ∧
  (∀ d : Fin 64, State.reset.store.tables.discounts.at d =
    { enabled := d == 0, rate := 0, unit := 1, floor := 0 }) ∧
  (∀ ty : StockType, State.reset.store.tables.layouts.at ty = []) ∧
  (∀ t : Fin 3, State.reset.store.tables.tolerances.at t = { fixed := none, proportion := 0, ceiling := 0, referral := 1 }) ∧
  (∀ (p : Printer) (c : Sensed), State.reset.notifies (.sensed p c) = true ∧ State.reset.priorityOf (.sensed p c) =
    if c = .paperLow ∨ c = .coverOpen then .routine else .urgent) ∧
  (∀ (p : Printer) (c : PrinterFault), State.reset.notifies (.printer p c) = (c != .linkCheck) ∧
    State.reset.priorityOf (.printer p c) = if c = .linkCheck ∨ c = .stockLow then .routine else .urgent) ∧
  (∀ (w : Window) (c : LineFault), State.reset.notifies (.window w c) = (c == .overrun) ∧
    State.reset.priorityOf (.window w c) = .routine) ∧
  (∀ c : OfficeFault, State.reset.priorityOf (.office c) = .urgent ∧ State.reset.notifies (.office c) = (c != .restart)) ∧
  State.reset.journal.memory = [] ∧ State.reset.journal.page = 0 ∧ State.reset.journal.pageSequence = 1 ∧
  State.reset.journal.nextSequence = 1 ∧ State.reset.journal.checkpointDue = true ∧
  State.reset.journal.reserved = 0 ∧ State.reset.journal.claims = [] ∧
  State.reset.journal.writer = .erasing ∧ State.reset.journal.slot = 0 ∧
  State.reset.journal.queue = [{ record := .restart .powerOn 0, link := .nothing }] ∧
  State.reset.memorySound ∧ State.reset.officeSound ∧ State.reset.faultsDistinct ∧ State.reset.sessions.logSound ∧
  State.reset.roomSound ∧ State.reset.PoolSound ∧ State.reset.StockSound ∧ State.reset.portsSound ∧
  State.reset.auditSound ∧ State.reset.sessions.sound

/-- Journal memory keeps its canonical form in every step whose command's operands are in range: whatever is written,
erased or torn stands inside the 65,536 bytes, one entry an address. -/
def Obligations.MemoryFormKept : Prop :=
  ∀ s t : State, (∀ c ∈ s.pending.head?, c.wellFormed = true) → s.memorySound → step s = .next t → t.memorySound

/-- Every step keeps the limits of the office-link ports (2 frames in a receive buffer, 4 unanswered requests, 4
NOTICE frames in a send list), one fault record per source and condition, the issue log within 2,048 entries, one per
pair of serial and stock type, the journal's 32 places (R154: queued records and reserved places never exceed them,
and the reservation count is what the outstanding images hold), the place of every job of the pool (R2, Table 1-2: a
QUEUED job in exactly one queue, that of its printer, an outstanding one in one window entry, a PRESENTED one behind
one queued record), each claim once (R157), HELD with a hold reason and ACTIVE with none (R49), windows and slip queues
(R52, R67), and, but for the end of recovery, whose sessions come from memory, session numbers, current sessions and
clerks (R93, R94). Audit queues and loads keep to 64 lines (R64, R66) in every step but the end of a TABLELOAD's write,
which may give a source another audit port and keeps the queues alone (log 54). Items take the next image numbers in
turn, 15 before 0, and entries leave or join windows in sending order (R41), so numbers stay distinct unless one that a
step gives names an entry still outstanding (log 55). -/
def Obligations.LimitsKept : Prop :=
  ∀ s t : State, step s = .next t →
    (s.officeSound → t.officeSound) ∧ (s.faultsDistinct → t.faultsDistinct) ∧
    (s.sessions.logSound → t.sessions.logSound) ∧ (s.roomSound → t.roomSound) ∧ (s.PoolSound → t.PoolSound) ∧
    (s.journal.claims.Nodup → t.journal.claims.Nodup) ∧ (s.portsSound → t.portsSound) ∧
    ((∀ c ∈ s.pending.head?, c ≠ .causeWriteEnds) → s.sessions.sound → t.sessions.sound) ∧
    ((∀ c ∈ s.pending.head?, c ≠ .tableloadWriteEnds) → s.portsSound → s.auditSound → t.auditSound) ∧
    (s.pending.head? = some .tableloadWriteEnds → (∀ a : Printer, (s.ports.at a).audit.length ≤ 64) →
      ∀ a : Printer, (t.ports.at a).audit.length ≤ 64) ∧
    ∀ p : Printer, s.sent <+: t.sent ∧
      (∀ (k : Nat) (n : ImageNumber), (s.itemsSent t p)[k]? = some n →
        n.val = ((s.ports.at p).nextImage.val + k) % 16) ∧
      (t.images p).Sublist (s.images p ++ s.itemsSent t p) ∧
      ((s.images p ++ s.itemsSent t p).Nodup → (t.images p).Nodup)

/-- While the journal is STOPPED and the controller runs, no command writes journal memory, moves the head, takes a
record out of the write queue or leaves STOPPED, unless it restarts the controller. -/
def Obligations.StoppedUntilRestart : Prop :=
  ∀ (c : Instr) (s t : State), s.phase = .running → s.journal.writer = .stopped → exec c s = .next t →
    (∃ cause, t.phase = .restarting cause) ∨
    (t.phase = .running ∧ t.journal.pageSequence = s.journal.pageSequence ∧ t.journal.writer = .stopped ∧
      t.journal.memory = s.journal.memory ∧
      t.journal.nextSequence = s.journal.nextSequence ∧ t.journal.page = s.journal.page ∧
      t.journal.slot = s.journal.slot ∧
      s.journal.queue.map Queued.record <+: t.journal.queue.map Queued.record)

/-- The tables change at the end of a TABLELOAD's write alone, the reporting switch at the end of a REPORTING's, the
restart cause set at the end of a CAUSECLEAR's or of the cause write; and recovery may load factory contents. -/
def Obligations.StoreChangesAtWriteEnds : Prop :=
  ∀ (c : Instr) (s t : State), exec c s = .next t → c ≠ .recoveryBegins →
    (c ≠ .tableloadWriteEnds → t.store.tables = s.store.tables) ∧
    (c ≠ .reportingWriteEnds → t.store.reporting = s.store.reporting) ∧
    (c ≠ .causeclearWriteEnds → c ≠ .causeWriteEnds → t.store.causes = s.store.causes)

/-- The tests after an event. At most: they answer no one, notice and record nothing, keep the accounts, journal
memory, tables and phase; ports, jobs and queues change only as `State.Tests` allows. What they do: AUDIT is gained
and lost by the audit load (R66), lines and slips are sent (R65), the send gate is R52's, claims are granted oldest
first (R157), a granted image is composed and sent on 2 places (R31 to R34, R53), a granted closing or SIGN_OFF record
is handed and is owed no more (R83, R108). When they end, each of these stands as its rule says. The order of the
tests and that claims are served until none fits are the model's choice (log 14). -/
def Obligations.SettleFrame : Prop :=
  ∀ s : State,
    let t := s.settle
    let auditsOf (u : State) (p a : Printer) : Prop := u.function a = .audit ∧ (u.printerEntry a).auditSource = p
    let auditor (u : State) (p a : Printer) : Prop := auditsOf u p a ∧ ∀ b < a, ¬ auditsOf u p b
    let load (u : State) (p a : Printer) : Nat := (u.ports.at a).audit.length + (u.ports.at p).entries.length
    let asked (u : State) (p : Printer) : Prop := u.function p = .ticket ∧ (u.printerEntry p).auditRequired = true
    let gains (u : State) (p : Printer) : Prop := asked u p ∧
      ∀ a, auditor u p a → (u.ports.at a).state ≠ .active ∨ 64 ≤ load u p a
    let loses (u : State) (p : Printer) : Prop := ¬ asked u p ∨
      ∃ a, auditor u p a ∧ (u.ports.at a).state = .active ∧ load u p a ≤ 48
    let room (j : Journal) : Nat := 32 - j.queue.length - j.reserved
    let wants (c : Claim) : Nat :=
      match c with
      | .engine _ => 2
      | .batch _ => 1
      | .session _ => 1
    let fits (j : Journal) (c : Claim) : Prop := j.writer ≠ .stopped ∧ wants c ≤ room j
    let granted (c : Claim) : Journal := { s.journal with claims := s.journal.claims.filter fun x => x != c }
    let printed (job : Job) (clerk batch : Nat) (k : SegmentKind) : Text :=
      match k with
      | .fixed text => text
      | .field n => (job.fields[n]?).getD []
      | .serial => List.replicate 6 0x1F#8
      | .net => amountText job.net
      | .gross => amountText job.gross
      | .discount => fixedDigits 2 job.discount.val
      | .window => windowText job.origin.window
      | .clerk => fixedDigits 4 clerk
      | .batch => fixedDigits 5 batch
    (s.Keeps t ∧ s.SameBooks t ∧ s.Silent t ∧ s.Tests t) ∧
    -- AUDIT
    (∀ p : Printer, (gains s p → ((s.testAudit p).ports.at p).holds .audit = true) ∧
      (loses s p → ((s.testAudit p).ports.at p).holds .audit = false) ∧
      (¬ gains s p → ¬ loses s p → s.testAudit p = s)) ∧
    ((∀ q : Printer, s.function q ≠ .ticket → (s.ports.at q).holds .audit = false) → ∀ p : Printer,
      (gains t p → (t.ports.at p).holds .audit = true) ∧ (loses t p → (t.ports.at p).holds .audit = false)) ∧
    -- lines and slips
    (∀ p : Printer,
      let x := s.ports.at p
      let opens := x.state = .active ∧ x.entries.length < x.window ∧ s.supply = .normal
      let sends (m : Message) : Prop := s.sendRoll p = { s with
        ports := s.ports.put p { x with
          entries := x.entries ++ [{ image := x.nextImage, phase := .sent, ticket := none }]
          nextImage := x.nextImage + 1 }
        sent := s.sent ++ [(p, m)] }
      (∀ line, s.function p = .audit → opens → x.audit[x.entries.length]? = some line → sends (.line x.nextImage line)) ∧
      (∀ slip, s.function p = .report → opens → x.slips[x.entries.length]? = some slip → sends (.slip x.nextImage slip)) ∧
      (¬ opens → s.sendRoll p = s)) ∧
    (∀ p : Printer,
      let y := t.ports.at p
      y.window ≤ 4 → y.state = .active → y.entries.length < y.window → t.supply = .normal →
        (t.function p = .audit → y.audit.length ≤ y.entries.length) ∧
        (t.function p = .report → y.slips.length ≤ y.entries.length)) ∧
    -- the send gate
    (∀ p : Printer,
      let x := s.ports.at p
      s.gate p = true ↔ x.state = .active ∧ s.function p = .ticket ∧ x.entries.length < x.window ∧ s.supply = .normal ∧
        ∃ j rest job b, s.queues.at p = j :: rest ∧ s.jobs.at j = some job ∧ s.loaded p = some b ∧
          job.stockType = b.stockType ∧ b.state = .loaded ∧
          1 + x.entries.countP (fun e => e.phase == .sent) ≤ b.last + 1 - b.next) ∧
    (∀ p : Printer, .engine p ∈ t.journal.claims ↔ t.gate p = true) ∧
    -- claims
    (t = State.serve 32 s ∧ ∀ n : Nat,
      let u := s.testEngines
      (∀ c rest, u.journal.claims = c :: rest → fits u.journal c → State.serve (n + 1) s = State.serve n (u.grant c)) ∧
      ((∀ c rest, u.journal.claims = c :: rest → ¬ fits u.journal c) → State.serve (n + 1) s = u)) ∧
    ((∀ id : Nat, .batch id ∈ s.journal.claims → ∃ p b, s.loaded p = some b ∧ b.id = id) →
      (∀ n : Nat, .session n ∈ s.journal.claims → s.session n ≠ none) →
      ∀ c ∈ t.journal.claims.head?, ¬ fits t.journal c) ∧
    (∀ p j rest job b, s.queues.at p = j :: rest → s.jobs.at j = some job → s.loaded p = some b →
      let x := s.ports.at p
      s.grant (.engine p) = { s with
        journal := { granted (.engine p) with reserved := s.journal.reserved + 2 }
        queues := s.queues.put p rest
        jobs := s.jobs.put j (some { job with state := .sent, image := some x.nextImage })
        ports := s.ports.put p { x with
          entries := x.entries ++
            [{ image := x.nextImage, phase := .sent, ticket := some { job := j, doubleFed := false, places := 2 } }]
          nextImage := x.nextImage + 1 }
        sent := s.sent ++ [(p, .image x.nextImage
          (composeImage (s.store.tables.layouts.at job.stockType) job (s.clerkOf job.session) b.id))] }) ∧
    (∀ (layout : List Segment) (job : Job) (clerk batch : Nat), composeImage layout job clerk batch =
      layout.flatMap fun g =>
        let text := (printed job clerk batch g.kind).take (48 - g.column)
        if text = [] then [] else [{ row := g.row, column := g.column, text }]) ∧
    (∀ p b, s.loaded p = some b → (∀ q c, s.loaded q = some c → c.id = b.id → q = p) →
      let u := s.grant (.batch b.id)
      u.stock = { s.stock with loaded := s.stock.loaded.put p (some { b with closingOwed := false }) } ∧
      (granted (.batch b.id)).Takes { record := .batchEnd b.id p, link := .nothing } u.journal ∧
      { u with stock := s.stock, journal := s.journal } = s) ∧
    (∀ n x i, (s.sessions.find fun y => y.number == n) = some i → s.sessions.table.at i = some x →
      let u := s.grant (.session n)
      let net (k : Tender) : Int := (x.issueTotal.get k : Int) - x.voidTotal.get k - x.refundTotal.get k
      u.sessions = { s.sessions with
        table := s.sessions.table.put i (some { x with signOffOwed := false, signOff := none }) } ∧
      (granted (.session n)).Takes
        { record := .signOff n x.issued x.voided x.refunds x.spoiled x.test x.saturated x.recovered
            { cash := net .cash, card := net .card, warrant := net .warrant }
          link := (x.signOff.map fun r => Link.request r .done (.session n)).getD .nothing } u.journal ∧
      { u with sessions := s.sessions, journal := s.journal } = s)

/-! ### Fares, cash-up, filters, sessions, stock -/

/-- R26, the three intermediate amounts. -/
def Obligations.NetFareAmounts : Prop :=
  ∀ (g : Nat) (e : DiscountEntry), e.rate ≤ 10000 → 0 < e.unit →
    discounted g e = g * (10000 - e.rate) / 10000 ∧
    rounded g e = discounted g e - discounted g e % e.unit ∧
    e.unit ∣ rounded g e ∧ rounded g e ≤ discounted g e ∧
    (∀ m : Nat, e.unit ∣ m → m ≤ discounted g e → m ≤ rounded g e) ∧
    (e.unit = 1 → rounded g e = discounted g e) ∧ discounted g e ≤ g ∧ rounded g e ≤ g

/-- R27 with the edges of Table 2-2. -/
def Obligations.NetFareRule : Prop :=
  ∀ (g : Nat) (e : DiscountEntry), e.rate ≤ 10000 → 0 < e.unit →
    (g ≤ e.floor → netFare g e = g) ∧
    (e.floor < g → netFare g e = max (rounded g e) e.floor) ∧
    min g e.floor ≤ netFare g e ∧ netFare g e ≤ g ∧
    (e.rate = 0 → e.unit = 1 → netFare g e = g) ∧
    (e.rate = 10000 → e.floor < g → netFare g e = e.floor)

/-- R117, the allowance and the referral limit of a tender. -/
def Obligations.AllowanceRule : Prop :=
  ∀ (e : ToleranceEntry) (expected : Int),
    (e.fixed = none → allowanceOf e expected = 0 ∧ referralOf e = 0) ∧
    ∀ fixed : Nat, e.fixed = some fixed →
      referralOf e = e.referral ∧
      (e.ceiling = 0 →
        allowanceOf e expected = max fixed ((expected.natAbs * e.proportion + 5000) / 10000)) ∧
      (e.ceiling ≠ 0 →
        allowanceOf e expected = min (max fixed ((expected.natAbs * e.proportion + 5000) / 10000)) e.ceiling) ∧
      (e.ceiling = 0 ∨ fixed ≤ e.ceiling →
        fixed ≤ allowanceOf e expected ∧ (e.proportion = 0 → allowanceOf e expected = fixed))

/-- R118, the band of a tender. -/
def Obligations.TenderBandRule : Prop :=
  ∀ (variance : Int) (allowance referral : Nat),
    (variance.natAbs ≤ allowance → bandFor variance allowance referral = .balanced) ∧
    (allowance < variance.natAbs → referral < variance.natAbs → bandFor variance allowance referral = .referred) ∧
    (allowance < variance.natAbs → variance.natAbs ≤ referral → 0 < variance →
      bandFor variance allowance referral = .over) ∧
    (allowance < variance.natAbs → variance.natAbs ≤ referral → variance ≤ 0 →
      bandFor variance allowance referral = .short) ∧
    bandFor 0 allowance referral = .balanced ∧
    (∀ (e : ToleranceEntry) (expected : Int), e.fixed = none → variance ≠ 0 →
      bandFor variance (allowanceOf e expected) (referralOf e) = .referred) ∧
    (referral < allowance →
      bandFor variance allowance referral = .balanced ∨ bandFor variance allowance referral = .referred)

/-- The figures of a declaration: its count, the expected amounts and variances of R116, the allowances and bands per
tender, and the session band of R119; how figures are rendered (R30): digits of fixed width, amounts below 10^14
pence, signed amounts, windows; and the 24 lines of the cash-up slip that shows them (R38, Table 2-8). -/
def Obligations.DeclarationFigures : Prop :=
  (∀ (x : Session) (table : Tab ToleranceEntry 3) (declared : PerTender Nat),
    let d := x.declaration table declared
    let entry : Tender → ToleranceEntry := (tolerances table).get
    let worst := max (max d.band.cash.code d.band.card.code) d.band.warrant.code
    (x.part = none → d.count = 1) ∧ (∀ old, x.part = some old → d.count = old.count + 1) ∧
    d.declared = declared ∧
    d.expected.cash = (x.float : Int) + x.issueTotal.cash - x.voidTotal.cash - x.refundTotal.cash ∧
    d.expected.card = (x.issueTotal.card : Int) - x.voidTotal.card - x.refundTotal.card ∧
    d.expected.warrant = (x.issueTotal.warrant : Int) - x.voidTotal.warrant - x.refundTotal.warrant ∧
    (∀ t : Tender, d.variance.get t = (declared.get t : Int) - d.expected.get t ∧
      d.allowance.get t = allowanceOf (entry t) (d.expected.get t) ∧
      d.band.get t = bandFor (d.variance.get t) (d.allowance.get t) (referralOf (entry t))) ∧
    (x.saturated = true → d.sessionBand = .referred) ∧
    (x.saturated = false → d.count ≠ 3 → d.sessionBand.code = worst) ∧
    (x.saturated = false → d.count = 3 → worst = 0 → d.sessionBand = .balanced) ∧
    (d.count = 3 → worst ≠ 0 → d.sessionBand = .referred)) ∧
  let valueOf (t : Text) : Nat := t.foldl (fun n b => 10 * n + (b.toNat - 48)) 0
  let decimal (t : Text) : Prop := ∀ b ∈ t, 48 ≤ b.toNat ∧ b.toNat ≤ 57
  (∀ k n : Nat, (fixedDigits k n).length = k ∧ decimal (fixedDigits k n) ∧ valueOf (fixedDigits k n) = n % 10 ^ k) ∧
  (∀ n : Nat, n < 10 ^ 14 → ∃ units : Text, amountText n = units ++ chars ['.'] ++ fixedDigits 2 (n % 100) ∧
    decimal units ∧ valueOf units = n / 100 ∧ units ≠ [] ∧ (units.head? = some 0x30#8 → units.length = 1)) ∧
  (∀ i : Int, signedText i = (if i < 0 then chars ['-'] else []) ++ amountText i.natAbs) ∧
  (∀ w : Window, windowText w = chars ['W'] ++ fixedDigits 1 w.val) ∧
  ∀ (x : Session) (d : Declaration),
    let line (label : String) (figure : Text) : Text := chars label.toList ++
      List.replicate (14 - label.length) 0x20#8 ++ figure ++ List.replicate (12 - figure.length) 0x20#8
    let band (b : Band) : Text := chars (match b with
      | .balanced => "BALANCED"
      | .over => "OVER"
      | .short => "SHORT"
      | .referred => "REFERRED").toList
    let tender (label : String) (t : Tender) : List Text :=
      [line label [], line "EXPECTED" (signedText (d.expected.get t)), line "DECLARED" (amountText (d.declared.get t)),
       line "VARIANCE" (signedText (d.variance.get t)), line "ALLOWANCE" (amountText (d.allowance.get t)),
       line "BAND" (band (d.band.get t))]
    composeSlip x d =
      [line "SESSION" (fixedDigits 5 x.number), line "CLERK" (fixedDigits 4 x.clerk), line "WINDOW" (windowText x.window),
       line "FLOAT" (amountText x.float)] ++ tender "CASH" .cash ++ tender "CARD" .card ++ tender "WARRANT" .warrant ++
      [line "SESSION BAND" (band d.sessionBand), line "DECLARATION" (fixedDigits 1 d.count)]

/-- Table 7-2: one filter at an answered STATUS, for a filter whose contrary run is below the filter depth. -/
def Obligations.FilterRule : Prop :=
  ∀ (f : Filter) (depth : Nat) (sensed : Bool), f.run < depth →
    (f.present = sensed → f.step depth sensed = ({ f with run := 0 }, .nothing)) ∧
    (f.present ≠ sensed → f.run + 1 < depth → f.step depth sensed = ({ f with run := f.run + 1 }, .nothing)) ∧
    (f.present ≠ sensed → f.run + 1 = depth →
      f.step depth sensed = ({ present := sensed, run := 0 }, if sensed then .begins else .ends)) ∧
    (f.step depth sensed).1.run < depth

/-- Table 5-4 with the saturation of R97: what a written record adds to the session it names, and that it changes no
other session, no log entry and not the next session number; what else it changes in the sessions and the issue log
(R96, R100, R101, R103, R108, R126), where which entry a VOID concerns is the model's reading (log 41); and what each
kind does in replay (R111, R129). -/
def Obligations.SessionFigures : Prop :=
  ∀ (u : SessionUnit) (n : Nat) (i : Fin 24) (x : Session),
    (u.find fun y => y.number == n) = some i → u.table.at i = some x →
    (∀ (w : Window) (p : Printer) (serial batch : Nat) (ty : StockType) (t : Tender) (d : Fin 64) (gross net : Nat),
      (u.addFigures (.issue n w p serial batch ty t d gross net)).table = u.table.put i (some
        { x with
          issueTotal := x.issueTotal.set t (min 999999999 (x.issueTotal.get t + net))
          issued := min 65535 (x.issued + 1)
          saturated := x.saturated || (999999999 < x.issueTotal.get t + net : Bool) || (65535 < x.issued + 1 : Bool) })) ∧
    (∀ (w : Window) (p : Printer) (serial batch : Nat) (ty : StockType),
      (u.addFigures (.test n w p serial batch ty)).table = u.table.put i (some
        { x with test := min 65535 (x.test + 1), saturated := x.saturated || (65535 < x.test + 1 : Bool) })) ∧
    (∀ (cause : SpoilCause) (p : Printer) (serial batch : Nat) (ty : StockType),
      (u.addFigures (.spoil cause n p serial batch ty)).table = u.table.put i (some
        { x with spoiled := min 65535 (x.spoiled + 1), saturated := x.saturated || (65535 < x.spoiled + 1 : Bool) })) ∧
    (∀ (serial batch : Nat) (ty : StockType) (t : Tender) (net : Nat),
      (u.addFigures (.void serial ty batch n t net)).table = u.table.put i (some
        { x with
          voidTotal := x.voidTotal.set t (min 999999999 (x.voidTotal.get t + net))
          voided := min 65535 (x.voided + 1)
          saturated := x.saturated || (999999999 < x.voidTotal.get t + net : Bool) || (65535 < x.voided + 1 : Bool) })) ∧
    (∀ (w : Window) (t : Tender) (amount : Nat) (entry : Option (Nat × StockType × Nat)),
      (u.addFigures (.refund n w t amount entry)).table = u.table.put i (some
        { x with
          refundTotal := x.refundTotal.set t (min 999999999 (x.refundTotal.get t + amount))
          refunds := min 65535 (x.refunds + 1)
          unmatched := min 999999999 (x.unmatched + if entry.isSome then 0 else amount)
          saturated := x.saturated || (999999999 < x.refundTotal.get t + amount : Bool) ||
            (65535 < x.refunds + 1 : Bool) ||
            (999999999 < x.unmatched + (if entry.isSome then 0 else amount) : Bool) })) ∧
    (∀ r : JRecord, (u.addFigures r).log = u.log ∧ (u.addFigures r).nextNumber = u.nextNumber ∧
      ((∀ y ∈ u.table.at i, y.inRange) → ∀ y ∈ (u.addFigures r).table.at i, y.inRange)) ∧
    -- records written
    (∀ (rest : List Queued) (clerk float : Nat) (w : Window), u.written rest (.signOn n clerk w float) = { u with
      table := u.table.put i (some { x with state := if x.state = .opening then .open_ else x.state }) }) ∧
    (∀ (rest : List Queued) (a b c d e : Nat) (sat rec : Bool) (net : PerTender Int),
      u.written rest (.signOff n a b c d e sat rec net) = { u with
        table := u.table.put i (some { x with state := .awaiting }) } ∧
      u.replay (.signOff n a b c d e sat rec net) = { u with
        table := u.table.put i (some { x with state := .awaiting }) }) ∧
    (∀ (rest : List Queued) (band : Band) (given : Bool),
      u.written rest (.close n band given) = { u with table := u.table.put i none } ∧
      u.replay (.close n band given) = { u with table := u.table.put i none }) ∧
    (∀ (rest : List Queued) (m : Nat) (w : Window) (p : Printer) (serial batch : Nat) (ty : StockType) (t : Tender)
      (d : Fin 64) (gross net : Nat),
      let others := u.log.filter fun e => !(e.serial == serial && e.stockType == ty)
      let made : LogEntry := { serial, stockType := ty, batch, session := m, tender := t, net, state := .issued }
      u.written rest (.issue m w p serial batch ty t d gross net) = { u with
        log := (if 2048 ≤ others.length then others.tail else others) ++ [made] }) ∧
    (∀ (rest : List Queued) (m serial batch : Nat) (ty : StockType) (t : Tender) (net : Nat),
      let waits := ∃ q ∈ rest, ∃ b k v f, q.record = .void serial ty b k v f
      (waits → u.written rest (.void serial ty batch m t net) = u) ∧
      (¬ waits → u.written rest (.void serial ty batch m t net) = { u with log := u.log.map fun e =>
        if e.serial = serial ∧ e.stockType = ty ∧ e.state = .voidPending then { e with state := .voided } else e })) ∧
    -- records replayed
    (∀ (m clerk float : Nat) (w : Window) (k : Fin 24), u.table.at k = none → (∀ l < k, u.table.at l ≠ none) →
      u.replay (.signOn m clerk w float) = { u with
        table := u.table.put k (some (newSession m clerk w float .open_))
        nextNumber := if m = 65535 then 1 else m + 1 }) ∧
    (∀ (count : Nat) (declared allowance : PerTender Nat) (band : PerTender Band) (sessionBand : Band),
      u.replay (.declare n count declared allowance band sessionBand) = { u with table := u.table.put i (some
        { x with
          state := .declared
          part := some { count, declared, allowance, band, sessionBand, expected := x.expected
                         variance := x.variance declared } }) }) ∧
    (∀ (cause : RestartCause) (last : Nat) (k : Fin 24), (u.replay (.restart cause last)).table.at k =
      (u.table.at k).map fun y => if y.state = .open_ then { y with recovered := true } else y) ∧
    (∀ (m : Nat) (w : Window) (p : Printer) (serial batch : Nat) (ty : StockType) (t : Tender) (d : Fin 64)
      (gross net amount : Nat) (cause : SpoilCause) (entry : Option (Nat × StockType × Nat)),
      ∀ r ∈ [JRecord.issue m w p serial batch ty t d gross net, .test m w p serial batch ty,
        .spoil cause m p serial batch ty, .void serial ty batch m t net, .refund m w t amount entry],
        u.replay r = u.addFigures r)

/-- R5 and R6 with Table 1-3: which printers are candidates, which is chosen and which refusal is given. -/
def Obligations.PrinterChoice : Prop :=
  ∀ (s : State) (w : Window) (ty : StockType),
    let e := s.routeEntry w ty
    let ticket (place : Option Printer) (p : Printer) : Prop := place = some p ∧ s.function p = .ticket
    let candidate (p : Printer) : Prop := ticket e.primary p ∨ ticket e.alternate p
    let up (p : Printer) : Prop := (s.ports.at p).state = .active ∨ (s.ports.at p).state = .held
    let usable (p : Printer) : Prop := up p ∧ ∃ b, s.loaded p = some b ∧ b.stockType = ty ∧
      (b.state = .loaded ∨ b.state = .unverified)
    let active (p : Printer) : Prop := (s.ports.at p).state = .active
    (∀ p, s.choosePrinter w ty = .ok p → candidate p ∧ usable p ∧
      ((∃ q, candidate q ∧ usable q ∧ active q) → active p) ∧
      (∀ q, e.primary = some q → q ≠ p → candidate q → usable q → active p ∧ ¬ active q)) ∧
    ((∃ p, candidate p ∧ usable p) → ∃ p, s.choosePrinter w ty = .ok p) ∧
    ((¬ ∃ p, candidate p) → s.choosePrinter w ty = .error .noRoute) ∧
    ((∃ p, candidate p) → (¬ ∃ p, candidate p ∧ usable p) → (∃ p, candidate p ∧ up p) →
      s.choosePrinter w ty = .error .noStock) ∧
    ((∃ p, candidate p) → (¬ ∃ p, candidate p ∧ up p) → s.choosePrinter w ty = .error .printerUnavailable)

/-- R73: the balance of a batch record at its making, at a serial given, at a count accepted, at a record written that
accounts for its serials, wherever the record stands, and at the end of replay; what a written record changes in the
live records (R84, Table 4-5) and what each kind does in replay (R89), where what a record does that names a batch
replay does not hold, or one other than that loaded at its printer, is the model's choice (log 48); and, as a step
lemma, that every step but the end of recovery, whose stock comes from memory, keeps every record in balance with its
in hand count that of the serials outstanding under its identifier. -/
def Obligations.BatchBalance : Prop :=
  (∀ (id : Nat) (ty : StockType) (first last : Nat), first ≤ last → (newBatch id ty first last).balanced) ∧
  (∀ b : Batch, b.balanced →
    (0 < b.remaining → b.give.balanced ∧ b.give.next = b.next + 1 ∧ b.give.inHand = b.inHand + 1 ∧
      b.give.remaining + 1 = b.remaining) ∧
    (∀ n : Nat, b.next ≤ n → n ≤ b.last + 1 → (b.settleTo n).balanced ∧ (b.settleTo n).next = n ∧
      (b.settleTo n).unrecorded = 0 ∧ (b.settleTo n).inHand = b.inHand + (n - b.next) + b.unrecorded ∧
      (b.settleTo n).state = if n = b.last + 1 then .exhausted else .loaded) ∧
    (∀ (k : Stock) (r : JRecord) (n : Nat), r.accounts = some (b.id, n) → n ≤ b.inHand →
      let taken (c : Batch) : Prop := c.balanced ∧ c.inHand + n = b.inHand ∧ c.next = b.next ∧ c.id = b.id ∧
        c.issued + c.spoiled + c.test = b.issued + b.spoiled + b.test + n
      (∀ p : Printer, k.loaded.at p = some b → ∃ c : Batch, (k.written r).loaded.at p = some c ∧ taken c) ∧
      (∀ i : Nat, k.store[i]? = some b → ∃ c : Batch, (k.written r).store[i]? = some c ∧ taken c)) ∧
    (b.recovered.balanced ∧ b.recovered.inHand = 0 ∧ b.recovered.closingOwed = false)) ∧
  -- written and replayed records
  (∀ k : Stock,
    let touched (id : Nat) (f : Batch → Batch) : Stock :=
      { store := k.store.map fun b => if b.id = id then f b else b
        loaded := k.loaded.map (Option.map fun b => if b.id = id then f b else b) }
    let passed (serial : Nat) (b : Batch) : Batch := { b with next := max b.next (serial + 1) }
    (∀ (m : Nat) (w : Window) (p : Printer) (serial id : Nat) (ty : StockType) (t : Tender) (d : Fin 64) (gross net : Nat),
      k.written (.issue m w p serial id ty t d gross net) =
        touched id (fun b => { b with issued := b.issued + 1, inHand := b.inHand - 1 }) ∧
      k.apply (.issue m w p serial id ty t d gross net) =
        touched id (fun b => passed serial { b with issued := b.issued + 1 }) ∧
      k.written (.test m w p serial id ty) = touched id (fun b => { b with test := b.test + 1, inHand := b.inHand - 1 }) ∧
      k.apply (.test m w p serial id ty) = touched id (fun b => passed serial { b with test := b.test + 1 }) ∧
      ∀ cause : SpoilCause,
        k.written (.spoil cause m p serial id ty) =
          touched id (fun b => { b with spoiled := b.spoiled + 1, inHand := b.inHand - 1 }) ∧
        k.apply (.spoil cause m p serial id ty) =
          touched id (fun b => passed serial { b with spoiled := b.spoiled + 1 })) ∧
    (∀ (id : Nat) (p : Printer) (next n : Nat) (state : BatchState),
      k.written (.count id p next n state) = touched id (fun b =>
        { b with spoiled := b.spoiled + n, unaccounted := b.unaccounted + n, inHand := b.inHand - n }) ∧
      k.apply (.count id p next n state) = touched id (fun b =>
        { b with spoiled := b.spoiled + n, unaccounted := b.unaccounted + n, next := next, state := state })) ∧
    (∀ r : JRecord, r.accounts = none → k.written r = k) ∧
    (∀ (id : Nat) (ty : StockType) (first last : Nat),
      k.apply (.batchIn id ty first last) = { k with store := k.store ++ [newBatch id ty first last] }) ∧
    (∀ (b : Batch) (p : Printer), (k.store.find? fun x => x.id == b.id) = some b →
      k.apply (.batchLoad b.id p) = { store := k.store.filter fun x => x.id != b.id
                                      loaded := k.loaded.put p (some { b with state := .loaded }) }) ∧
    (∀ (id : Nat) (b : Batch) (p : Printer) (next i sp un te : Nat), k.loaded.at p = some b →
      k.apply (.batchOut id p next i sp un te) =
        { store := k.store ++ if next ≤ b.last then [newBatch id b.stockType next b.last] else []
          loaded := k.loaded.put p none }) ∧
    (∀ (id : Nat) (p : Printer), k.apply (.batchEnd id p) = touched id fun b => { b with state := .exhausted })) ∧
  -- every step
  ∀ s t : State, (∀ c ∈ s.pending.head?, c ≠ .causeWriteEnds) → step s = .next t → s.PoolSound → s.StockSound →
    t.StockSound

/-- R202: a record whose fields fit reads back from its slot as it was written, under the kind and number it was given.
-/
def Obligations.RecordCodec : Prop :=
  ∀ (n : Nat) (r : JRecord), n ≤ 4294967295 → r.fits →
    (recordSlot n r).length = 32 ∧ slotContents (recordSlot n r) = .good r.code n r.body ∧
    recordOfBody r.code r.body = some r

/-- R184 and R199, what a receiver that waits for a start byte makes of the bytes of its line. Bytes before a start byte,
and a start byte in error, are ignored. The bytes of a frame are heard as that frame. A frame is discarded at its first
byte with a parity or framing error, at a second length byte that makes the length pass 1,200, and at its last byte when
its check does not hold; after a frame or a discard the receiver waits for a start byte again. Until one of these a frame in
progress is no event; a gap in it is GAP_TIMER_EXPIRY. A discard on an office line is FRAME_DISCARDED with the errors of the
byte at fault, whose line condition (R132) LineEvents states, and on a printer line PRINTER_MESSAGE_DISCARDED (R41). -/
def Obligations.FrameOnLine : Prop :=
  (∀ (start : Byte) (rest : List LineByte),
    let clean (bs : List Byte) : List LineByte := bs.map fun b => ⟨b, false, false⟩
    let inProgress (bs : List Byte) : Prop :=
      bs.length < 2 ∨ (numberOf (bs.take 2) ≤ 1200 ∧ bs.length < numberOf (bs.take 2) + 6)
    let discards (bytes : List LineByte) (parity framing : Bool) : Prop :=
      lineEvents start none (bytes ++ rest) = .discarded parity framing :: lineEvents start none rest
    (∀ b : LineByte, b.byte ≠ start ∨ b.parityError = true ∨ b.framingError = true →
      lineEvents start none (b :: rest) = lineEvents start none rest) ∧
    (∀ f : Frame, f.body.length ≤ 1200 → (frameBytes start f).length = f.body.length + 7 ∧
      lineEvents start none (clean (frameBytes start f) ++ rest) = .frame f :: lineEvents start none rest) ∧
    -- a byte in error, a length out of range, a check that does not hold
    (∀ (bs : List Byte) (b : LineByte), inProgress bs → b.parityError = true ∨ b.framingError = true →
      discards (clean (start :: bs) ++ [b]) b.parityError b.framingError) ∧
    (∀ a b : Byte, 1200 < numberOf [a, b] → discards (clean [start, a, b]) false false) ∧
    (∀ (n : Nat) (bs : List Byte), n ≤ 1200 → numberOf (bs.take 2) = n → bs.length = n + 6 →
      crc16 (bs.take (n + 4)) ≠ numberOf (bs.drop (n + 4)) → discards (clean (start :: bs)) false false) ∧
    -- a frame in progress
    ∀ bs : List Byte, inProgress bs → lineEvents start none (clean (start :: bs)) = []) ∧
  ∀ (w : Window) (p : Printer) (f : Frame) (parity framing : Bool),
    officeCommand w (.frame f) = .frameReceived w f.kind f.tag f.body ∧
    officeCommand w (.discarded parity framing) = .frameDiscarded w parity framing ∧
    printerCommand p (.discarded parity framing) = .printerMessageDiscarded p

/-! ### Faults, answers, the checkpoint -/

/-- R139 to R142 and R189 for a RUNNING controller: what raising and ending a condition do to the fault queue, the fault
sequence counter and the send lists. -/
def Obligations.ConditionsRecorded : Prop :=
  ∀ (s : State) (c : Condition), s.phase = .running → s.faultsDistinct →
    let n := s.monitor.nextSequence
    let t := s.raise c
    let u := s.endCondition c
    let after (f : FaultRecord) : FaultRecord :=
      { f with priority := s.priorityOf c, present := !c.momentary, occurrences := min 255 (f.occurrences + 1), last := n }
    let made : FaultRecord :=
      { condition := c, priority := s.priorityOf c, present := !c.momentary, occurrences := 1, first := n, last := n }
    t.monitor.nextSequence = (if n = 4294967295 then 1 else n + 1) ∧
    ((∀ f ∈ s.monitor.faults, f.condition ≠ c) → t.monitor.faults = s.monitor.faults ++ [made]) ∧
    (∀ (front back : List FaultRecord) (f : FaultRecord), s.monitor.faults = front ++ f :: back → f.condition = c →
      t.monitor.faults = front ++ after f :: back ∧
      u.monitor.faults = front ++ { f with present := false } :: back) ∧
    ((∀ f ∈ s.monitor.faults, f.condition ≠ c) → u.monitor.faults = s.monitor.faults) ∧
    u.monitor.nextSequence = n ∧
    (∀ w : Window, (u.office.at w).sendList = (s.office.at w).sendList ∧
      (t.office.at w).buffer = (s.office.at w).buffer ∧ (t.office.at w).unanswered = (s.office.at w).unanswered ∧
      (t.office.at w).sendList = (s.office.at w).sendList ++
        if s.store.reporting && s.notifies c && (s.portEntry w).enabled && (s.portEntry w).notices &&
            ((s.office.at w).sendList.countP OutFrame.isNotice < 4 : Bool) then
          [.notice c (s.priorityOf c) (occurrencesOf t.monitor.faults c)]
        else []) ∧
    (∀ (w : Window) (k : LineFault), (t.office.at w).conditions.at k.place =
        ((s.office.at w).conditions.at k.place || (c == .window w k)) ∧
      (u.office.at w).conditions.at k.place = ((s.office.at w).conditions.at k.place && (c != .window w k))) ∧
    { t with office := s.office, monitor := s.monitor } = s ∧ { u with office := s.office, monitor := s.monitor } = s

/-- R188: an answer joins the tail of its port's send list under the request's tag, and the request's unit of credit is
returned; nothing else changes. -/
def Obligations.AnswerReturnsCredit : Prop :=
  ∀ (s : State) (r : Reply) (code : AnswerCode) (figures : Figures),
    let o := s.office.at r.window
    let t := s.answer r code figures
    (t.office.at r.window).sendList = o.sendList ++ [.answer r.tag code figures false] ∧
    (t.office.at r.window).buffer = o.buffer ∧ (t.office.at r.window).conditions = o.conditions ∧
    (∀ n : Nat, r.number = some n → (o.unanswered.map OpenRequest.number).Nodup →
      n ∈ o.unanswered.map OpenRequest.number →
      (t.office.at r.window).credit + 1 = o.credit ∧
      (t.office.at r.window).unanswered.Sublist o.unanswered ∧
      n ∉ (t.office.at r.window).unanswered.map OpenRequest.number) ∧
    (r.number = none → (t.office.at r.window).unanswered = o.unanswered) ∧
    (∀ w : Window, w ≠ r.window → t.office.at w = s.office.at w) ∧
    { t with office := s.office } = s

/-- R159 and R160: the records of a checkpoint begun now: CHECKPOINT_BEGIN, four SESSION records for each session but
the OPENING ones in order of number, a BATCH_STATE for each batch, store batches in list order and then loaded ones in
printer order, CHECKPOINT_END. Sessions and batches stand as the written records leave them; the next serial as it
stands, but as it stood before an unwritten stock request that raised it, withdrew the batch or discarded it (log 20).
Replay makes the same sessions and batches of these records (R89, R111, R129). The store position of a loaded batch
and the fields of a SESSION_D without a declaration part are the model's choices (log 21, log 42), and so is the state
carried, UNVERIFIED after a restart and not after a live mismatch (log 60). -/
def Obligations.CheckpointShape : Prop :=
  ∀ s : State,
    let k := s.standing
    let next (b : Batch) : Nat := b.carriedNext s.stock k s.journal.queue
    let unsettled (b : Batch) : Prop := ∃ q ∈ s.journal.queue,
      match q.record with
      | .count id _ _ _ _ => id = b.id
      | .batchOut id _ _ _ _ _ _ => id = b.id
      | .batchLoad _ p => ∃ c, k.loaded.at p = some c ∧ c.id = b.id
      | _ => False
    let stateOf (b : Batch) (p : Option Printer) (position : Nat) : JRecord :=
      .batchState b.id b.stockType b.first b.last (next b) b.issued b.spoiled b.unaccounted b.test b.state p position
    let batches : List JRecord := (k.store.mapIdx fun i b => stateOf b none i) ++
      allPrinters.filterMap fun p => (k.loaded.at p).map fun b => stateOf b (some p) 0
    let carried (x : Session) : SessionState :=
      match x.state with
      | .opening => .opening
      | .open_ => .open_
      | .closing => .open_
      | .awaiting => .awaiting
      | .declared => .declared
      | .finishing => .declared
    let four (x : Session) : List JRecord :=
      [.sessionA x.number x.clerk x.window (carried x) x.float x.issued x.voided x.refunds x.spoiled x.test x.saturated
         x.recovered,
       .sessionB x.number x.issueTotal x.voidTotal, .sessionC x.number x.refundTotal x.unmatched,
       match x.part with
       | some d => .sessionD x.number d.count d.declared d.allowance d.band d.sessionBand
       | none => .sessionD x.number 0 ⟨0, 0, 0⟩ ⟨0, 0, 0⟩ ⟨.balanced, .balanced, .balanced⟩ .balanced]
    ∃ sessions : List Session,
      let between := sessions.flatMap four ++ batches
      s.checkpointRecords = .checkpointBegin s.sessions.nextNumber (4 * sessions.length + batches.length) ::
        (between ++ [.checkpointEnd s.journal.nextSequence (4 * sessions.length + batches.length)]) ∧
      (sessions.map Session.number).Pairwise (· ≤ ·) ∧
      (∀ x : Session, x ∈ sessions ↔ (∃ i : Fin 24, s.sessions.table.at i = some x) ∧ x.state ≠ .opening) ∧
      sessions.length = allRecords.countP (fun i => (s.sessions.table.at i).any fun x => x.state != .opening) ∧
      batches.length = k.store.length + k.loadedBatches.length ∧
      (k.store.length ≤ 32 → s.checkpointRecords.length ≤ 142) ∧
      (∀ b : Batch, (unsettled b → next b = b.next) ∧
        (¬ unsettled b → (s.stock.batches.map Batch.id).Nodup →
          (∀ c ∈ s.stock.batches, c.id = b.id → c.stockType = b.stockType → c.last = b.last → next b = c.next) ∧
          ((∀ c ∈ s.stock.batches, ¬ (c.id = b.id ∧ c.stockType = b.stockType ∧ c.last = b.last)) → next b = b.next))) ∧
      (let rebuilt (b : Batch) : Batch :=
          { b with next := next b, inHand := 0, unrecorded := 0, closingOwed := false }
       snapshotStock between = { store := k.store.map rebuilt, loaded := k.loaded.map (Option.map rebuilt) }) ∧
      ((sessions.map Session.number).Nodup → (∀ x ∈ sessions, ∀ d ∈ x.part, d.count ≠ 0) →
        between.filterMap (snapshotSession between) = sessions.map fun x =>
          { x with
            state := carried x, jobs := 0, pendingRecords := 0, signOffOwed := false, pendingPart := none, signOff := none
            part := x.part.map fun d => { d with expected := x.expected, variance := x.variance d.declared } })

/-! ### Frames that arrive and leave -/

/-- FRAME_RECEIVED, FRAME_DISCARDED and GAP_TIMER_EXPIRY at a RUNNING controller and in recovery (R132, R176, R184,
R185): until the port table is loaded, and at a disabled port, nothing happens; in recovery conditions wait to be
recorded. What a frame in recovery does to its port is the model's choice (log 12). -/
def Obligations.LineEvents : Prop :=
  ∀ (w : Window) (kind tag : Byte) (body : List Byte) (parity framing : Bool) (s : State),
    let o := s.office.at w
    let ended (f : FaultRecord) : FaultRecord :=
      if allLineFaults.any (fun k => f.condition == .window w k && o.conditions.at k.place) then { f with present := false }
      else f
    (s.phase = .running → (s.portEntry w).enabled = true →
      (o.buffer.length < 2 → ∃ t : State, exec (.frameReceived w kind tag body) s = .next t ∧
        t.office = s.office.put w { o with buffer := o.buffer ++ [⟨kind, tag, body⟩], conditions := noLines } ∧
        t.monitor = { s.monitor with faults := s.monitor.faults.map ended } ∧
        { t with office := s.office, monitor := s.monitor } = s) ∧
      (2 ≤ o.buffer.length → exec (.frameReceived w kind tag body) s = .next (s.raise (.window w .overrun))) ∧
      exec (.frameDiscarded w true framing) s = .next (s.raise (.window w .parity)) ∧
      exec (.frameDiscarded w false true) s = .next (s.raise (.window w .framing)) ∧
      exec (.frameDiscarded w false false) s = .next (s.raise (.window w .check)) ∧
      exec (.gapTimerExpiry w) s = .next (s.raise (.window w .check))) ∧
    ((s.phase = .running → (s.portEntry w).enabled = false) →
      (s.phase = .running ∨ ∃ cause, s.phase = .restarting cause) →
      exec (.frameReceived w kind tag body) s = .next s ∧ exec (.frameDiscarded w parity framing) s = .next s ∧
      exec (.gapTimerExpiry w) s = .next s) ∧
    (∀ cause, s.phase = .recovering cause true → (s.portEntry w).enabled = true → ∃ t : State,
      exec (.frameReceived w kind tag body) s = .next t ∧
      (t.office.at w).sendList = o.sendList ++ [.answer tag .busy .nothing false] ∧
      (t.office.at w).buffer = o.buffer ∧ (t.office.at w).unanswered = o.unanswered ∧
      t.monitor.faults = s.monitor.faults ∧ (t.office.at w).conditions = noLines ∧
      t.monitor.waiting = s.monitor.waiting ++
        (allLineFaults.filter fun k => o.conditions.at k.place).map fun k => .ended (.window w k)) ∧
    (∀ cause, s.phase = .recovering cause true → (s.portEntry w).enabled = true →
      let waits (c : Instr) (k : LineFault) : Prop := exec c s = .next { s with
        office := s.office.put w { o with conditions := o.conditions.put k.place true }
        monitor := { s.monitor with waiting := s.monitor.waiting ++ [.occurred (.window w k)] } }
      waits (.frameDiscarded w true framing) .parity ∧ waits (.frameDiscarded w false true) .framing ∧
      waits (.frameDiscarded w false false) .check ∧ waits (.gapTimerExpiry w) .check) ∧
    (∀ cause, s.phase = .recovering cause false ∨ (s.phase = .recovering cause true ∧ (s.portEntry w).enabled = false) →
      exec (.frameReceived w kind tag body) s = .next s ∧ exec (.frameDiscarded w parity framing) s = .next s ∧
      exec (.gapTimerExpiry w) s = .next s)

/-- R185 and R186 for every command that takes a frame: at a disabled port the frame is dropped; at a port whose
credit is 4 it is answered WINDOW_FULL, a CANCEL apart, and nothing else changes; a CANCEL there whose body has the
wrong shape is answered BAD_VALUE and counts against no credit (R187). That a request command takes the frame at the
head of the buffer is the model's choice (log 1). -/
def Obligations.FramesTurnedAway : Prop :=
  ∀ (c : Instr) (w : Window) (kind : Option RequestKind) (s : State) (f : Frame) (rest : List Frame),
    requestOf c = some (w, kind) → (s.office.at w).buffer = f :: rest → takes c f = true → s.phase = .running →
    ((s.portEntry w).enabled = false →
      exec c s = .next { s with office := s.office.put w { s.office.at w with buffer := rest } }) ∧
    ((s.portEntry w).enabled = true → (s.office.at w).credit = 4 → kind ≠ some .cancel →
      exec c s = .next { s with
        office := s.office.put w { s.office.at w with
          buffer := rest, sendList := (s.office.at w).sendList ++ [.answer f.tag .windowFull .nothing false] } }) ∧
    ((s.portEntry w).enabled = true → (s.office.at w).credit = 4 → kind = some .cancel → readByte f.body = none →
      exec c s = .next { s with
        office := s.office.put w { s.office.at w with
          buffer := rest, sendList := (s.office.at w).sendList ++ [.answer f.tag .badValue .nothing false] } })

/-- The checks that come first for every command that takes a frame, at an enabled port with a unit of credit free: a
kind that is no request kind, then a body of the wrong shape, is answered BAD_VALUE; a management kind from a port
that is not supervisor-capable is answered NOT_PERMITTED (R187); then a kind that needs a journal place is answered
JOURNAL_STOPPED while the journal is STOPPED, and else BUSY in supply WARNING. Nothing else changes. What the shape
check covers is the model's reading (log 10). -/
def Obligations.ChecksInOrder : Prop :=
  ∀ (c : Instr) (w : Window) (kind : Option RequestKind) (s : State) (f : Frame) (rest : List Frame),
    requestOf c = some (w, kind) → (s.office.at w).buffer = f :: rest → takes c f = true → s.phase = .running →
    (s.portEntry w).enabled = true → (s.office.at w).credit < 4 → s.officeSound →
    (kind = none → exec c s = .next (s.answered w f.tag .badValue .nothing)) ∧
    ∀ k : RequestKind, kind = some k →
      (k.shaped f.body = false → exec c s = .next (s.answered w f.tag .badValue .nothing)) ∧
      (k.shaped f.body = true → k.management = true → (s.portEntry w).supervisor = false →
        exec c s = .next (s.answered w f.tag .notPermitted .nothing)) ∧
      (k.shaped f.body = true → k.management = false ∨ (s.portEntry w).supervisor = true → k.needsJournal = true →
        (s.journal.writer = .stopped → exec c s = .next (s.answered w f.tag .journalStopped .nothing)) ∧
        (s.journal.writer ≠ .stopped → s.supply = .warning → exec c s = .next (s.answered w f.tag .busy .nothing)))

/-! ### Clerk requests -/

/-- When the journal grants a request its one place (R156): it is not STOPPED, and its free room less the places wanted
by the claims, 2 for an engine's and 1 for a batch's or a session's, is at least 1. SIGNON (R93, R95): the number taken
is the first from the next session number on, counting from 65,535 to 1, that no live record holds, and one is always
found; the checks of Table 5-3 in their order; and what an accepted SIGNON makes and hands. -/
def Obligations.Signon : Prop :=
  (∀ j : Journal,
    let wants (c : Claim) : Nat :=
      match c with
      | .engine _ => 2
      | .batch _ => 1
      | .session _ => 1
    j.grantsRequest = true ↔ j.writer ≠ .stopped ∧
      1 ≤ (32 - j.queue.length - j.reserved - (j.claims.map wants).sum : Int)) ∧
  (∀ u : SessionUnit, 1 ≤ u.nextNumber → u.nextNumber ≤ 65535 →
    1 ≤ u.takenNumber ∧ u.takenNumber ≤ 65535 ∧
    (∀ (i : Fin 24) (x : Session), u.table.at i = some x → x.number ≠ u.takenNumber) ∧
    ∃ k : Nat, k ≤ 24 ∧ u.takenNumber = (nextSessionNumber^[k]) u.nextNumber ∧
      ∀ l : Nat, l < k → ∃ (i : Fin 24) (x : Session), u.table.at i = some x ∧
        x.number = (nextSessionNumber^[l]) u.nextNumber) ∧
  ∀ (w : Window) (tag : Byte) (body : List Byte) (clerk float : Nat) (s : State),
    s.asks w .signon tag body = true → readSignon body = some (clerk, float) → s.journalTakes → s.officeSound →
    let inRange := 1 ≤ clerk ∧ clerk ≤ 9999 ∧ float ≤ 9999999
    let taken := (∃ (i : Fin 24) (x : Session), s.sessions.table.at i = some x ∧ x.current = true ∧
      (x.window = w ∨ x.clerk = clerk))
    (¬ inRange → exec (.signon w) s = .next (s.answered w tag .badValue .nothing)) ∧
    (inRange → taken → exec (.signon w) s = .next (s.answered w tag .wrongState .nothing)) ∧
    (inRange → ¬ taken → (∀ i : Fin 24, s.sessions.table.at i ≠ none) →
      exec (.signon w) s = .next (s.answered w tag .tableFull .nothing)) ∧
    ∀ i : Fin 24, inRange → ¬ taken → s.sessions.table.at i = none → (∀ k < i, s.sessions.table.at k ≠ none) →
      (s.journal.grantsRequest = false → exec (.signon w) s = .next (s.answered w tag .busy .nothing)) ∧
      (s.journal.grantsRequest = true → ∃ t : State, exec (.signon w) s = .next t ∧
        let n := s.sessions.takenNumber
        t.sessions = { s.sessions with
          table := s.sessions.table.put i (some (newSession n clerk w float .opening))
          nextNumber := if n = 65535 then 1 else n + 1 } ∧
        t.stock = s.stock ∧
        s.Accepts w tag (.signOn n clerk w float) (.request (s.asker w tag) .done (.session n)) t)

/-- SIGNOFF (R107, R108): with no OPEN session it is answered NO_SESSION; else the session is CLOSING with the request to
answer, and when its jobs in flight and pending records are both 0 it owes its SIGN_OFF and claims a place. -/
def Obligations.Signoff : Prop :=
  ∀ (w : Window) (tag : Byte) (body : List Byte) (s : State),
    s.asks w .signoff tag body = true → readNothing body = some () → s.journalTakes → s.officeSound →
    (s.openSession w = none → exec (.signoff w) s = .next (s.answered w tag .noSession .nothing)) ∧
    ∀ (x : Session) (i : Fin 24), s.openSession w = some x → (s.sessions.find fun y => y.number == x.number) = some i →
      s.sessions.table.at i = some x → x.signOffOwed = false → .session x.number ∉ s.journal.claims →
      let closing := { x with state := SessionState.closing, signOff := some (s.asker w tag) }
      (x.jobs ≠ 0 ∨ x.pendingRecords ≠ 0 → exec (.signoff w) s = .next (State.settle { s.admitted w tag with
        sessions := { s.sessions with table := s.sessions.table.put i (some closing) } })) ∧
      (x.jobs = 0 → x.pendingRecords = 0 → exec (.signoff w) s = .next (State.settle { s.admitted w tag with
        sessions := { s.sessions with table := s.sessions.table.put i (some { closing with signOffOwed := true }) }
        journal := { s.journal with claims := s.journal.claims ++ [.session x.number] } }))

/-- ISSUE and TESTPRINT (R1, R4, R7, R8): the refusals in their order, and the job that an accepted one makes: in the
lowest free record, at the tail of the chosen printer's queue, counted by its session. -/
def Obligations.JobsAccepted : Prop :=
  ∀ (w : Window) (tag : Byte) (body : List Byte) (s : State), s.journalTakes → s.officeSound →
    (∀ a : IssueBody, s.asks w .issue tag body = true → readIssue body = some a →
      let entry (code : Fin 64) := s.store.tables.discounts.at code
      let good (code : Fin 64) (ty : StockType) := code.val = a.discount ∧ ty.val = a.stockType ∧
        (entry code).enabled = true ∧ a.gross ≤ 999999 ∧ a.fields.length ≤ 8 ∧ ∀ f ∈ a.fields, f.length ≤ 32
      (s.openSession w = none → exec (.issue w) s = .next (s.answered w tag .noSession .nothing)) ∧
      ∀ x : Session, s.openSession w = some x →
        ((¬ ∃ code ty, good code ty) → exec (.issue w) s = .next (s.answered w tag .badValue .nothing)) ∧
        ∀ (code : Fin 64) (ty : StockType), good code ty →
          (∀ e, s.choosePrinter w ty = .error e → exec (.issue w) s = .next (s.answered w tag e .nothing)) ∧
          ∀ (p : Printer) (j : JobNumber), s.choosePrinter w ty = .ok p → s.jobs.at j = none →
            (∀ k < j, s.jobs.at k ≠ none) →
            exec (.issue w) s = .next (State.settle { s.admitted w tag with
              jobs := s.jobs.put j (some
                { kind := .ticket, origin := s.asker w tag, session := x.number, stockType := ty, tender := some a.tender
                  discount := code, gross := a.gross, net := netFare a.gross (entry code), fields := a.fields
                  printer := p, image := none, serial := none, spare := none, retry := 0, state := .queued })
              queues := s.queues.put p (s.queues.at p ++ [j])
              sessions := s.sessions.modify x.number fun y => { y with jobs := y.jobs + 1 } })) ∧
    (∀ n : Nat, s.asks w .testprint tag body = true → readByte body = some n →
      (s.openSession w = none → exec (.testprint w) s = .next (s.answered w tag .noSession .nothing)) ∧
      ∀ x : Session, s.openSession w = some x →
        (16 ≤ n → exec (.testprint w) s = .next (s.answered w tag .badValue .nothing)) ∧
        ∀ ty : StockType, ty.val = n →
          (∀ e, s.choosePrinter w ty = .error e → exec (.testprint w) s = .next (s.answered w tag e .nothing)) ∧
          ∀ (p : Printer) (j : JobNumber), s.choosePrinter w ty = .ok p → s.jobs.at j = none →
            (∀ k < j, s.jobs.at k ≠ none) →
            exec (.testprint w) s = .next (State.settle { s.admitted w tag with
              jobs := s.jobs.put j (some
                { kind := .test, origin := s.asker w tag, session := x.number, stockType := ty, tender := none
                  discount := 0, gross := 0, net := 0, fields := [], printer := p, image := none, serial := none
                  spare := none, retry := 0, state := .queued })
              queues := s.queues.put p (s.queues.at p ++ [j])
              sessions := s.sessions.modify x.number fun y => { y with jobs := y.jobs + 1 } }))

/-- CANCEL (R18, R186): at a credit of 4 or less it concerns the lowest-numbered job of the window with the tag. A
QUEUED job leaves the pool and its queue and is answered CANCELLED before the CANCEL is answered DONE, and its session
is told (R21, R99, R108). -/
def Obligations.Cancel : Prop :=
  ∀ (w : Window) (f : Frame) (rest : List Frame) (n : Nat) (s : State),
    s.phase = .running → (s.portEntry w).enabled = true → (s.office.at w).buffer = f :: rest →
    requestKindOf f.kind = some .cancel → readByte f.body = some n → s.officeSound →
    let o := s.office.at w
    let ofTag (j : JobNumber) := ∃ job, s.jobs.at j = some job ∧ job.origin.window = w ∧ job.origin.tag.toNat = n
    let counted := if o.credit = 4 then s.nextRequest else s.nextRequest + 1
    let answer (code : AnswerCode) : OutFrame := .answer f.tag code .nothing false
    ((∀ j, ¬ ofTag j) → exec (.cancel w) s = .next { s with
      office := s.office.put w { o with buffer := rest, sendList := o.sendList ++ [answer .badValue] }
      nextRequest := counted }) ∧
    ∀ (j : JobNumber) (job : Job), s.jobs.at j = some job → ofTag j → (∀ k < j, ¬ ofTag k) →
      (job.state ≠ .queued → exec (.cancel w) s = .next { s with
        office := s.office.put w { o with buffer := rest, sendList := o.sendList ++ [answer .notCancellable] }
        nextRequest := counted }) ∧
      (job.state = .queued → ∃ u : State, exec (.cancel w) s = .next u.settle ∧
        u.jobs = s.jobs.put j none ∧
        u.queues = s.queues.put job.printer ((s.queues.at job.printer).filter fun k => k != j) ∧
        u.office = s.office.put w { o.close job.origin.number with
          buffer := rest
          sendList := o.sendList ++ [.answer job.origin.tag .cancelled .nothing false, answer .done] } ∧
        s.Keeps u ∧ s.SameBooks u ∧ u.ports = s.ports ∧ u.stock = s.stock ∧ u.monitor = s.monitor ∧ u.sent = s.sent ∧
        u.nextRequest = counted ∧ s.JobsEnded [job] u)

/-- VOID (R102): the refusals of Table 5-8 in their order, and the entry and the record of an accepted VOID. That its
answer's figures are fixed at acceptance is the model's choice (log 11). -/
def Obligations.Void : Prop :=
  ∀ (w : Window) (tag : Byte) (body : List Byte) (stockType serial : Nat) (s : State),
    s.asks w .void tag body = true → readVoid body = some (stockType, serial) → s.journalTakes → s.officeSound →
    let refused (code : AnswerCode) := exec (.void w) s = .next (s.answered w tag code .nothing)
    (s.openSession w = none → refused .noSession) ∧
    ∀ x : Session, s.openSession w = some x →
      (16 ≤ stockType ∨ serial = 0 ∨ 999999 < serial → refused .badValue) ∧
      ∀ ty : StockType, ty.val = stockType → 1 ≤ serial → serial ≤ 999999 →
        (s.sessions.logEntry serial ty = none → refused .unknownSerial) ∧
        ∀ e : LogEntry, s.sessions.logEntry serial ty = some e →
          (e.state ≠ .issued ∨ e.session ≠ x.number → refused .notVoidable) ∧
          (e.state = .issued → e.session = x.number →
            (s.journal.grantsRequest = false → refused .busy) ∧
            (s.journal.grantsRequest = true → ∃ t : State, exec (.void w) s = .next t ∧
              t.sessions = (s.sessions.setLogState serial ty .voidPending).modify x.number
                (fun y => { y with pendingRecords := y.pendingRecords + 1 }) ∧
              t.stock = s.stock ∧
              s.Accepts w tag (.void serial ty e.batch x.number e.tender e.net)
                (.request (s.asker w tag) .voided (.voided serial e.tender e.net)) t))

/-- REFUND (R104, R105): the refusals of Table 5-9 in their order; a matched refund uses the smaller of the amount and
the entry's net fare and makes the entry REFUNDED, an unmatched one uses the amount. That its answer's figures are
fixed at acceptance is the model's choice (log 11). -/
def Obligations.Refund : Prop :=
  ∀ (w : Window) (tag : Byte) (body : List Byte) (a : RefundBody) (s : State),
    s.asks w .refund tag body = true → readRefund body = some a → s.journalTakes → s.officeSound →
    let refused (code : AnswerCode) := exec (.refund w) s = .next (s.answered w tag code .nothing)
    let inRange := a.stockType < 16 ∧ (∀ n, a.serial = some n → 1 ≤ n ∧ n ≤ 999999) ∧ a.amount ≤ 999999
    (s.openSession w = none → refused .noSession) ∧
    ∀ x : Session, s.openSession w = some x →
      (¬ inRange → refused .badValue) ∧
      ∀ ty : StockType, ty.val = a.stockType → inRange →
        (∀ n e, a.serial = some n → s.sessions.logEntry n ty = some e → e.state ≠ .issued → refused .notRefundable) ∧
        ((∀ n e, a.serial = some n → s.sessions.logEntry n ty = some e → e.state = .issued) →
          s.journal.grantsRequest = false → refused .busy) ∧
        (s.journal.grantsRequest = true →
          (∀ n e, a.serial = some n → s.sessions.logEntry n ty = some e → e.state = .issued →
            ∃ t : State, exec (.refund w) s = .next t ∧
              t.sessions = (s.sessions.setLogState n ty .refunded).modify x.number
                (fun y => { y with pendingRecords := y.pendingRecords + 1 }) ∧
              t.stock = s.stock ∧
              s.Accepts w tag (.refund x.number w a.tender (min a.amount e.net) (some (n, ty, e.session)))
                (.request (s.asker w tag) .refunded (.refunded (min a.amount e.net) true)) t) ∧
          ((∀ n, a.serial = some n → s.sessions.logEntry n ty = none) →
            ∃ t : State, exec (.refund w) s = .next t ∧
              t.sessions = s.sessions.modify x.number (fun y => { y with pendingRecords := y.pendingRecords + 1 }) ∧
              t.stock = s.stock ∧
              s.Accepts w tag (.refund x.number w a.tender a.amount none)
                (.request (s.asker w tag) .refunded (.refunded a.amount false)) t))

/-! ### Management requests -/

/-- TABLELOAD, REPORTING and CAUSECLEAR (R143, R175, R191): BUSY in supply WARNING and while a store write is in
progress, BAD_VALUE for a load that fails its value checks, BUSY for a printer entry that would change a port whose
window holds an entry; an accepted one begins its store write and waits for the write's end. `LoadValues` says what the
value checks are and how filter depth and poll interval are clamped (R192, R201); that notify enable is 0 when set, and
a port entry's three values 1 when they hold, is the model's reading (log 9). -/
def Obligations.StoreWritesBegin : Prop :=
  LoadValues ∧
  (∀ (s : State) (l : TableEntries), s.changesBusyPort l = true ↔
    ∃ es, l = .printers es ∧ ∃ e ∈ es, s.printerEntry e.1 ≠ e.2 ∧ (s.ports.at e.1).entries ≠ []) ∧
  ∀ (c : Instr) (w : Window) (kind : RequestKind) (tag : Byte) (body : List Byte) (s : State),
    requestOf c = some (w, some kind) → s.asks w kind tag body = true → s.officeSound →
    let refused (code : AnswerCode) := exec c s = .next (s.answered w tag code .nothing)
    let begun (write : StoreWrite) := exec c s = .next { s.admitted w tag with store := { s.store with write := some write } }
    let busy := s.supply = .warning ∨ s.store.write ≠ none
    (∀ load, kind = .tableload → readTableload body = some load →
      (busy → refused .busy) ∧
      (¬ busy → load = none → refused .badValue) ∧
      ∀ l, ¬ busy → load = some l →
        (s.loadHolds l = false → refused .badValue) ∧
        (s.loadHolds l = true → s.changesBusyPort l = true → refused .busy) ∧
        (s.loadHolds l = true → s.changesBusyPort l = false → begun (.tableload l (some (s.asker w tag))))) ∧
    (∀ on, kind = .reporting → readEither body = some on →
      (busy → refused .busy) ∧ (¬ busy → begun (.reporting on (some (s.asker w tag))))) ∧
    (kind = .causeclear → readNothing body = some () →
      (busy → refused .busy) ∧ (¬ busy → begun (.causeclear (some (s.asker w tag)))))

/-- TABLEREAD, STOCKREAD, SESSIONREAD, FAULTREAD, JOURNALREAD and STATUSREAD are answered at once whatever the supply
and the journal are, and change nothing; a selector or value out of range is answered BAD_VALUE (R81, R109, R144,
R164, R196, R197). Which pages JOURNALREAD reads, which of two records of one number comes first, the number it gives
when no record has been written and that a TABLEREAD answer is not cut are the model's choices (log 36, log 44, log 27),
and so is that the credit shown of the port that asks counts the STATUSREAD itself (log 53), and the next number shown
once the last is written (log 57). -/
def Obligations.ReadsAnswered : Prop :=
  ∀ (w : Window) (tag : Byte) (body : List Byte) (s : State), s.officeSound →
    let done (c : Instr) (figures : Figures) := exec c s = .next (s.answered w tag .done figures)
    let refused (c : Instr) (code : AnswerCode) := exec c s = .next (s.answered w tag code .nothing)
    (∀ table first count : Nat, s.asks w .tableread tag body = true → readTableread body = some (table, first, count) →
      (count = 0 ∨ 8 < count ∨ 6 < table → refused (.tableread w) .badValue) ∧
      (1 ≤ count → count ≤ 8 → s.store.tables.slice table first count = none → refused (.tableread w) .badValue) ∧
      (∀ figures, 1 ≤ count → count ≤ 8 → s.store.tables.slice table first count = some figures →
        done (.tableread w) figures) ∧
      (let of (α : Type) (k n : Nat) (t : Tab α n) (make : List (Fin n × α) → TableEntries) : Prop :=
          table = k → 1 ≤ count → count ≤ 8 →
            (n ≤ first → refused (.tableread w) .badValue) ∧
            (first < n → done (.tableread w)
              (.table (make ((((List.finRange n).drop first).take count).map fun i => (i, t.at i))) n))
        let ts := s.store.tables
        of _ 0 8 ts.ports .ports ∧ of _ 1 12 ts.printers .printers ∧ of _ 2 128 ts.routes .routes ∧
          of _ 3 64 ts.discounts .discounts ∧ of _ 4 16 ts.layouts .layouts ∧ of _ 5 3 ts.tolerances .tolerances ∧
          of _ 6 18 ts.conditions .conditions)) ∧
    (s.asks w .stockread tag body = true →
      (∀ p : Printer, readStockread body = some (.printer p.val) →
        done (.stockread w) (.batches ((s.loaded p).toList.map fun b => { batch := b, printer := some p })
          s.stock.store.length)) ∧
      (∀ n : Nat, n < 32 → readStockread body = some (.position n) →
        done (.stockread w) (.batches (((s.stock.store.drop n).take 4).map fun b => { batch := b, printer := none })
          s.stock.store.length)) ∧
      (∀ n : Nat, 1 ≤ n → n ≤ 65535 → readStockread body = some (.batch n) →
        done (.stockread w) (.batches
          (((s.stock.store.filter fun b => b.id == n).map fun b => { batch := b, printer := none }) ++
            allPrinters.filterMap fun p =>
              ((s.loaded p).filter fun b => b.id == n).map fun b => { batch := b, printer := some p })
          s.stock.store.length)) ∧
      (∀ n : Nat, (readStockread body = some (.printer n) ∧ 12 ≤ n) ∨ (readStockread body = some (.position n) ∧ 32 ≤ n) ∨
        (readStockread body = some (.batch n) ∧ (n = 0 ∨ 65535 < n)) → refused (.stockread w) .badValue)) ∧
    (s.asks w .sessionread tag body = true →
      (∀ n : Nat, (readSessionread body = some (.number n) ∧ (n = 0 ∨ 65535 < n)) ∨
        (readSessionread body = some (.window n) ∧ 8 ≤ n) → refused (.sessionread w) .badValue) ∧
      (∀ n : Nat, readSessionread body = some (.number n) → 1 ≤ n → n ≤ 65535 →
        (∀ x, s.session n = some x → done (.sessionread w) (.sessionRecord x)) ∧
        (s.session n = none → refused (.sessionread w) .noSession)) ∧
      (∀ v : Window, readSessionread body = some (.window v.val) →
        (∀ i x, s.sessions.table.at i = some x → x.window ≠ v) → refused (.sessionread w) .noSession) ∧
      (∀ v : Window, readSessionread body = some (.window v.val) →
        (∃ i x, s.sessions.table.at i = some x ∧ x.window = v) →
        done (.sessionread w) (.windowSessions (s.currentSession v) (s.otherSessions v)) ∧
        ((s.otherSessions v).map Prod.fst).Pairwise (· ≤ ·) ∧
        ∀ n state, (n, state) ∈ s.otherSessions v ↔ ∃ i x, s.sessions.table.at i = some x ∧ x.window = v ∧
          x.number = n ∧ x.state = state ∧ (state = .awaiting ∨ state = .declared ∨ state = .finishing))) ∧
    (∀ start : Nat, s.asks w .faultread tag body = true → readByte body = some start →
      (191 < start → refused (.faultread w) .badValue) ∧
      (start ≤ 191 → done (.faultread w) (.faults
        (((s.monitor.faults.filter (fun f => f.priority == .urgent) ++
          s.monitor.faults.filter fun f => f.priority == .routine).drop start).take 8)
        s.monitor.faults.length (s.monitor.faults.countP fun f => f.priority == .urgent) s.monitor.nextSequence))) ∧
    (∀ start count : Nat, s.asks w .journalread tag body = true → readJournalread body = some (start, count) →
      (start = 0 ∨ count = 0 ∨ 8 < count → refused (.journalread w) .badValue) ∧
      (1 ≤ start → start ≤ 4294967295 → 1 ≤ count → count ≤ 8 →
        let newest := s.journal.nextSequence - 1
        let found := (s.journal.records.filter fun x => start ≤ x.sequence).take count
        (newest < start → done (.journalread w) (.journal [] newest false)) ∧
        (start ≤ newest → done (.journalread w) (.journal found newest
          ((s.journal.records.head?.any fun x => start < x.sequence) || !unbroken found))))) ∧
    (let erased (p : Fin 128) : Prop := p = s.journal.page ∧
        (s.journal.writer = .erasing ∨ ∃ rs abandoned, s.journal.writer = .checkpoint rs true abandoned);
      (s.journal.records.map SlotFigures.sequence).Pairwise (· ≤ ·) ∧
      ∀ x : SlotFigures, x ∈ s.journal.records ↔ ∃ (p : Fin 128) (k : Fin 16), ¬ erased p ∧ k ≠ 0 ∧
        headerSequence (readSlot s.journal.memory p 0) ≠ none ∧
        slotContents (readSlot s.journal.memory p k) = .good x.kind x.sequence x.body) ∧
    (s.asks w .statusread tag body = true → readNothing body = some () →
      done (.statusread w) (.status (s.admitted w tag).statusFigures)) ∧
    (let f := (s.admitted w tag).statusFigures;
      (∀ p : Printer,
        let x := s.ports.at p
        f.printers.at p = { function := s.function p, supervisorHold := x.holds .supervisor, state := x.state
                            hold := x.hold.put HoldReason.supervisor.place false, jamLatch := x.jamLatch
                            sensed := x.lastStatus.map StatusReport.sensed, window := x.window
                            outstanding := x.entries.length, queued := (s.queues.at p).length
                            batch := (s.loaded p).map fun b => (b.id, b.state)
                            queueLength := if s.function p = .audit then x.audit.length
                              else if s.function p = .report then x.slips.length else 0 }) ∧
      (∀ v : Window, f.ports.at v =
        ((s.office.at v).unanswered.length + (if v = w then 1 else 0), (s.office.at v).conditions)) ∧
      f.supply = s.supply ∧ f.causes = s.store.causes ∧ (f.storeBusy = true ↔ s.store.write ≠ none) ∧
      f.reporting = s.store.reporting ∧
      (match s.journal.writer with
        | .idle => f.writer = .idle
        | .writing => f.writer = .writing
        | .erasing => f.writer = .erasing
        | .checkpoint _ _ _ => f.writer = .checkpoint
        | .stopped => f.writer = .stopped) ∧
      f.headPage = s.journal.page.val ∧ f.headSlot = s.journal.slot.val ∧ f.queued = s.journal.queue.length ∧
      f.reserved = s.journal.reserved ∧ f.claims = s.journal.claims.length ∧ f.nextSequence = s.journal.nextSequence ∧
      f.freeSessions = allRecords.countP (fun i => s.sessions.table.at i == none) ∧
      f.nextSession = s.sessions.nextNumber ∧ f.freeStore = 32 - s.stock.store.length ∧
      f.faults = s.monitor.faults.length ∧ f.urgentFaults = s.monitor.faults.countP fun x => x.priority == .urgent)

/-- FAULTCLEAR (R145): ENDED records of the pairs leave the fault queue, PRESENT ones stay and are listed, and a pair
with no record is ignored. -/
def Obligations.Faultclear : Prop :=
  ∀ (w : Window) (tag : Byte) (body : List Byte) (pairs : List (Nat × Nat)) (s : State),
    s.asks w .faultclear tag body = true → readFaultclear body = some pairs → s.officeSound →
    (pairs = [] ∨ 8 < pairs.length ∨ (∃ p ∈ pairs, conditionOf p.1 p.2 = none) →
      exec (.faultclear w) s = .next (s.answered w tag .badValue .nothing)) ∧
    ∀ cs : List Condition, 1 ≤ pairs.length → pairs.length ≤ 8 →
      pairs.map (fun p => conditionOf p.1 p.2) = cs.map some → s.faultsDistinct →
      let goes (f : FaultRecord) : Bool := cs.contains f.condition && !f.present
      let stays (c : Condition) : Bool := s.monitor.faults.any fun f => f.condition == c && f.present
      exec (.faultclear w) s = .next { s.answered w tag .done
          (.cleared (s.monitor.faults.countP goes) (cs.filter stays)) with
        monitor := { s.monitor with faults := s.monitor.faults.filter fun f => !goes f } }

/-- STOCKIN (R77): the refusals of Table 4-4 in their order, a record with no serial remaining sharing none, and the
batch record that an accepted one adds at the tail of the store list. That its answer's figure is fixed at acceptance
is the model's choice (log 11). -/
def Obligations.Stockin : Prop :=
  ∀ (w : Window) (tag : Byte) (body : List Byte) (a : StockinBody) (s : State),
    s.asks w .stockin tag body = true → readStockin body = some a → s.journalTakes → s.officeSound →
    let refused (code : AnswerCode) := exec (.stockin w) s = .next (s.answered w tag code .nothing)
    let inRange := 1 ≤ a.id ∧ a.id ≤ 65535 ∧ a.stockType < 16 ∧ 1 ≤ a.first ∧ a.first ≤ a.last ∧ a.last ≤ 999999 ∧
      a.last - a.first + 1 ≤ 2000
    let apart := ∀ b ∈ s.stock.batches, b.id ≠ a.id ∧ (b.stockType.val = a.stockType →
      ∀ n : Nat, a.first ≤ n → n ≤ a.last → ¬ (b.next ≤ n ∧ n ≤ b.last))
    (¬ (inRange ∧ apart) → refused .badValue) ∧
    (inRange → apart → 32 ≤ s.stock.store.length → refused .tableFull) ∧
    (inRange → apart → s.stock.store.length < 32 → s.journal.grantsRequest = false → refused .busy) ∧
    ∀ ty : StockType, ty.val = a.stockType → inRange → apart → s.stock.store.length < 32 →
      s.journal.grantsRequest = true → ∃ t : State, exec (.stockin w) s = .next t ∧
        t.stock = { s.stock with store := s.stock.store ++
          [{ id := a.id, stockType := ty, first := a.first, last := a.last, next := a.first, issued := 0, spoiled := 0
             unaccounted := 0, test := 0, inHand := 0, unrecorded := 0, state := .store, closingOwed := false }] } ∧
        t.sessions = s.sessions ∧
        s.Accepts w tag (.batchIn a.id ty a.first a.last)
          (.request (s.asker w tag) .done (.storePosition s.stock.store.length)) t

/-- STOCKLOAD (R78, R17, R87): its refusals, and what an accepted one does: the store record moves to the printer and
is LOADED, its record is handed, NO_STOCK and STOCK_MISMATCH end, a HELD port with no other reason becomes ACTIVE (R49)
and every other port stands, the discarded batch's claim is withdrawn, and the
queue is considered: jobs of the batch's type keep their places, each other job moves where it can and else is answered
NO_STOCK, its session told (R12, R21, R99, R108). That its answer's figure is fixed at acceptance is the model's choice
(log 11). -/
def Obligations.Stockload : Prop :=
  ∀ (w : Window) (tag : Byte) (body : List Byte) (id n : Nat) (s : State),
    s.asks w .stockload tag body = true → readStockload body = some (id, n) → s.journalTakes → s.officeSound →
    let refused (code : AnswerCode) := exec (.stockload w) s = .next (s.answered w tag code .nothing)
    (12 ≤ n ∨ id = 0 ∨ (∀ b ∈ s.stock.batches, b.id ≠ id) → refused .badValue) ∧
    ∀ p : Printer, p.val = n → 1 ≤ id → id ≤ 65535 →
      ((∃ b ∈ s.stock.batches, b.id = id) →
        (∀ b ∈ s.stock.store, b.id ≠ id) ∨ s.function p ≠ .ticket ∨
          (∃ old, s.loaded p = some old ∧ old.state ≠ .exhausted) → refused .wrongState) ∧
      ∀ b : Batch, (s.stock.store.find? fun x => x.id == id) = some b → s.function p = .ticket →
        (∀ old, s.loaded p = some old → old.state = .exhausted) →
        ((s.ports.at p).entries ≠ [] ∨ (∃ old, s.loaded p = some old ∧ (old.inHand ≠ 0 ∨ old.unrecorded ≠ 0)) ∨
          s.journal.grantsRequest = false → refused .busy) ∧
        ((s.ports.at p).entries = [] → (∀ old, s.loaded p = some old → old.inHand = 0 ∧ old.unrecorded = 0) →
          s.journal.grantsRequest = true → s.jobsAt p → ∃ u : State, exec (.stockload w) s = .next u.settle ∧
            u.stock = { store := s.stock.store.filter fun x => x.id != id
                        loaded := s.stock.loaded.put p (some { b with state := .loaded }) } ∧
            u.journal.queue = s.journal.queue ++
              [{ record := .batchLoad id p, link := .request (s.asker w tag) .done (.remaining (b.last + 1 - b.next)) }] ∧
            (let x := s.ports.at p
             let hold := x.hold.put HoldReason.noStock.place false
             u.ports = s.ports.put p { x with
               hold := hold, state := if x.state = .held ∧ hold = noHolds then .active else x.state }) ∧
            (u.monitor.lasting.at p).stockMismatch = false ∧
            ((u.monitor.lasting.at p).stockLow = true ↔ b.remaining ≤ (s.printerEntry p).lowStock) ∧
            (∀ old, s.loaded p = some old → old.id ≠ id → .batch old.id ∉ u.journal.claims) ∧
            (∀ j ∈ u.queues.at p, ∀ job, u.jobs.at j = some job → job.stockType = b.stockType) ∧
            (s.placed p → s.Considers p (fun y => y.stockType != b.stockType) (some .noStock) u ∧
              s.JobsEnded ((s.queues.at p).filterMap fun j => if u.jobs.at j = none then s.jobs.at j else none) u) ∧
            (∀ v : Window, (u.office.at v).buffer = ((s.admitted w tag).office.at v).buffer) ∧
            s.Keeps u ∧ s.SameBooks u)

/-- STOCKOUT (R73, R79): its refusals, BUSY while serials are unrecorded among them (log 40), and what an accepted one
does: the record leaves, a remainder joins the tail of the store list, the record of the final counts is handed, and
NO_STOCK holds the printer, which becomes HELD and has its queue considered if it was ACTIVE (R49, R13); every other
port stands. An image outstanding is any window entry,
by the model's choice (log 47). That its answer's figure is fixed at acceptance is the model's choice (log 11). -/
def Obligations.Stockout : Prop :=
  ∀ (w : Window) (tag : Byte) (body : List Byte) (n : Nat) (s : State),
    s.asks w .stockout tag body = true → readByte body = some n → s.journalTakes → s.officeSound →
    let refused (code : AnswerCode) := exec (.stockout w) s = .next (s.answered w tag code .nothing)
    (12 ≤ n → refused .badValue) ∧
    ∀ p : Printer, p.val = n →
      (s.loaded p = none → refused .wrongState) ∧
      ∀ b : Batch, s.loaded p = some b →
        (b.state ≠ .loaded → b.state ≠ .exhausted → refused .wrongState) ∧
        (b.state = .loaded ∨ b.state = .exhausted →
          ((s.ports.at p).entries ≠ [] ∨ b.inHand ≠ 0 ∨ b.unrecorded ≠ 0 → refused .busy) ∧
          ((s.ports.at p).entries = [] → b.inHand = 0 → b.unrecorded = 0 →
            (0 < b.remaining → 32 ≤ s.stock.store.length → refused .tableFull) ∧
            ((b.remaining = 0 ∨ s.stock.store.length < 32) → s.journal.grantsRequest = false → refused .busy) ∧
            ((b.remaining = 0 ∨ s.stock.store.length < 32) → s.journal.grantsRequest = true →
              ∃ u : State, exec (.stockout w) s = .next u.settle ∧
                u.stock = { store := s.stock.store ++
                              if 0 < b.remaining then [newBatch b.id b.stockType b.next b.last] else []
                            loaded := s.stock.loaded.put p none } ∧
                u.journal.queue = s.journal.queue ++
                  [{ record := .batchOut b.id p b.next b.issued b.spoiled b.unaccounted b.test
                     link := .request (s.asker w tag) .done (.remainder b.remaining) }] ∧
                .batch b.id ∉ u.journal.claims ∧
                (s.function p = .ticket → u.ports = s.ports.put p { s.ports.at p with
                  hold := (s.ports.at p).hold.put HoldReason.noStock.place true
                  state := if (s.ports.at p).state = .active then .held else (s.ports.at p).state }) ∧
                (s.function p ≠ .ticket → u.ports = s.ports) ∧
                (s.placed p → s.HoldsQueue p (s.function p = .ticket ∧ (s.ports.at p).state = .active) u) ∧
                u.monitor = s.monitor ∧ u.office = (s.admitted w tag).office ∧ s.Keeps u ∧ s.SameBooks u)))

/-- STOCKCOUNT (R80, R83, R85): its refusals, and what an accepted one does: the gap and the unrecorded serials go into
in hand, the record is LOADED or EXHAUSTED and handed, STOCK_UNVERIFIED and STOCK_MISMATCH end, and an exhausted batch
owes its closing record and holds the printer with NO_STOCK, its queue considered if that takes it from ACTIVE (R13). A
HELD port with no other reason becomes ACTIVE, with another it stays HELD (R49). An image outstanding is any window
entry, by the model's choice (log 47). That its answer's figure is fixed at acceptance is the model's choice (log 11).
-/
def Obligations.Stockcount : Prop :=
  ∀ (w : Window) (tag : Byte) (body : List Byte) (n observed : Nat) (s : State),
    s.asks w .stockcount tag body = true → readStockcount body = some (n, observed) → s.journalTakes → s.officeSound →
    let refused (code : AnswerCode) := exec (.stockcount w) s = .next (s.answered w tag code .nothing)
    (12 ≤ n → refused .badValue) ∧
    ∀ p : Printer, p.val = n →
      (s.loaded p = none → refused .wrongState) ∧
      ∀ b : Batch, s.loaded p = some b →
        (b.state ≠ .loaded → b.state ≠ .unverified → refused .wrongState) ∧
        (b.state = .loaded ∨ b.state = .unverified →
          ((s.ports.at p).entries ≠ [] ∨ b.inHand ≠ 0 → refused .busy) ∧
          ((s.ports.at p).entries = [] → b.inHand = 0 →
            (observed < b.next ∨ b.last + 1 < observed → refused .badValue) ∧
            (b.next ≤ observed → observed ≤ b.last + 1 →
              (s.journal.grantsRequest = false → refused .busy) ∧
              (s.journal.grantsRequest = true → ∃ u : State, exec (.stockcount w) s = .next u.settle ∧
                let counted := (observed - b.next) + b.unrecorded
                let state := if observed = b.last + 1 then BatchState.exhausted else .loaded
                u.stock = { s.stock with loaded := s.stock.loaded.put p (some
                  { b with next := observed, inHand := counted, unrecorded := 0, state := state
                           closingOwed := b.closingOwed || (observed == b.last + 1) }) } ∧
                u.journal.queue = s.journal.queue ++
                  [{ record := .count b.id p observed counted state
                     link := .request (s.asker w tag) .done (.counted counted) }] ∧
                (let x := s.ports.at p
                 let hold := x.hold.put HoldReason.stockUnverified.place false
                 let now := if x.state = .held ∧ hold = noHolds then PortState.active else x.state
                 (observed ≤ b.last ∨ s.function p ≠ .ticket → u.ports = s.ports.put p
                   { x with hold := hold, state := now }) ∧
                 (observed = b.last + 1 → s.function p = .ticket → u.ports = s.ports.put p
                   { x with hold := hold.put HoldReason.noStock.place true
                            state := if now = .active then .held else now })) ∧
                (u.monitor.lasting.at p).stockMismatch = false ∧
                (observed = b.last + 1 → .batch b.id ∈ u.journal.claims) ∧
                ((u.monitor.lasting.at p).stockLow = true ↔ b.last + 1 - observed ≤ (s.printerEntry p).lowStock) ∧
                (s.placed p → s.HoldsQueue p (observed = b.last + 1 ∧ s.function p = .ticket ∧
                  ((s.ports.at p).state = .active ∨ ((s.ports.at p).state = .held ∧
                    ∀ r : HoldReason, r ≠ .stockUnverified → (s.ports.at p).holds r = false))) u) ∧
                s.Keeps u ∧ s.SameBooks u))))

/-- HOLD and RELEASE (R50, R13): taken in any state of the port, the supply and the journal, and answered DONE. HOLD adds
SUPERVISOR and makes an ACTIVE port HELD, whose queue is then considered: each job moves where it can and else stays
(R12); at any other port the queue is left alone. RELEASE removes it, makes a HELD port with no other reason ACTIVE, and
at a FAILED port ends PROTOCOL and OVERRUN and begins an attach. -/
def Obligations.HoldAndRelease : Prop :=
  ∀ (w : Window) (tag : Byte) (body : List Byte) (n : Nat) (s : State), readByte body = some n → s.officeSound →
    (s.asks w .hold tag body = true →
      (12 ≤ n → exec (.hold w) s = .next (s.answered w tag .badValue .nothing)) ∧
      ∀ p : Printer, p.val = n → ∃ u : State, exec (.hold w) s = .next u.settle ∧
        (u.ports.at p).holds .supervisor = true ∧
        (∀ r : HoldReason, r ≠ .supervisor → (u.ports.at p).holds r = (s.ports.at p).holds r) ∧
        (u.ports.at p).state = (if (s.ports.at p).state = .active then .held else (s.ports.at p).state) ∧
        (u.ports.at p).entries = (s.ports.at p).entries ∧ (∀ q : Printer, q ≠ p → u.ports.at q = s.ports.at q) ∧
        (s.placed p → s.HoldsQueue p ((s.ports.at p).state = .active) u) ∧
        u.office = (s.answered w tag .done .nothing).office ∧ u.monitor = s.monitor ∧ u.stock = s.stock ∧
        u.journal = s.journal ∧ u.sent = s.sent ∧ s.Keeps u ∧ s.SameBooks u) ∧
    (s.asks w .release tag body = true →
      (12 ≤ n → exec (.release w) s = .next (s.answered w tag .badValue .nothing)) ∧
      ∀ p : Printer, p.val = n →
        let x := (s.ports.at p).setHold .supervisor false
        (x.state ≠ .failed → exec (.release w) s = .next (State.settle { s.answered w tag .done .nothing with
          ports := s.ports.put p (if x.state = .held ∧ x.hold = noHolds then { x with state := .active } else x) })) ∧
        (x.state = .failed → ∃ u : State, exec (.release w) s = .next u.settle ∧
          u.ports = s.ports.put p { x with
            state := .attaching, nextImage := 0, unanswered := 0, pollTimer := none, replyTimer := none
            absentTimer := none, attachTimer := some (s.printerEntry p).selectTimeout } ∧
          u.sent = s.sent ++ [(p, .enquire)] ∧
          (u.monitor.lasting.at p).protocol = false ∧ (u.monitor.lasting.at p).overrun = false ∧
          u.office = (s.answered w tag .done .nothing).office ∧ u.jobs = s.jobs ∧ u.queues = s.queues ∧
          u.stock = s.stock ∧ u.journal = s.journal ∧ s.Keeps u ∧ s.SameBooks u))

/-- DECLARE (R115, R120): the refusals of Table 6-3 in their order; an accepted one makes the figures the session's
pending declaration and hands the DECLARE record. -/
def Obligations.Declare : Prop :=
  ∀ (w : Window) (tag : Byte) (body : List Byte) (n : Nat) (declared : PerTender Nat) (s : State),
    s.asks w .declare tag body = true → readDeclare body = some (n, declared) → s.journalTakes → s.officeSound →
    let refused (code : AnswerCode) := exec (.declare w) s = .next (s.answered w tag code .nothing)
    let inRange := 1 ≤ n ∧ n ≤ 65535 ∧ ∀ t : Tender, declared.get t ≤ 999999999
    (¬ inRange → refused .badValue) ∧
    (inRange → s.session n = none → refused .noSession) ∧
    ∀ x : Session, inRange → s.session n = some x →
      let may := x.state = .awaiting ∨ (x.state = .declared ∧ ∀ d, x.part = some d → d.count < 3)
      (¬ may → refused .wrongState) ∧
      (may → x.pendingPart ≠ none ∨ s.journal.grantsRequest = false → refused .busy) ∧
      (may → x.pendingPart = none → s.journal.grantsRequest = true → ∃ t : State, exec (.declare w) s = .next t ∧
        let d := x.declaration s.store.tables.tolerances declared
        t.sessions = s.sessions.modify n (fun y =>
          { y with pendingPart := some d, pendingRecords := y.pendingRecords + 1 }) ∧
        t.stock = s.stock ∧
        s.Accepts w tag (.declare n d.count declared d.allowance d.band d.sessionBand) (.declare (s.asker w tag)) t)

/-- CLOSE (R124, R125): the refusals of Table 6-10 in their order, the band in force being the pending declaration's
when there is one; an accepted one makes the session FINISHING and hands the CLOSE record. That its answer's figures
are fixed at acceptance is the model's choice (log 11). -/
def Obligations.Close : Prop :=
  ∀ (w : Window) (tag : Byte) (body : List Byte) (n : Nat) (given : Bool) (s : State),
    s.asks w .close tag body = true → readClose body = some (n, given) → s.journalTakes → s.officeSound →
    let refused (code : AnswerCode) := exec (.close w) s = .next (s.answered w tag code .nothing)
    (n = 0 → refused .badValue) ∧
    (1 ≤ n → n ≤ 65535 → s.session n = none → refused .noSession) ∧
    ∀ x : Session, 1 ≤ n → n ≤ 65535 → s.session n = some x →
      (x.state ≠ .declared → refused .wrongState) ∧
      ∀ d : Declaration, x.state = .declared → (x.pendingPart = some d ∨ (x.pendingPart = none ∧ x.part = some d)) →
        (d.sessionBand = .referred → given = false → refused .referred) ∧
        (d.sessionBand ≠ .referred ∨ given = true → s.journal.grantsRequest = false → refused .busy) ∧
        (d.sessionBand ≠ .referred ∨ given = true → s.journal.grantsRequest = true → ∃ t : State,
          exec (.close w) s = .next t ∧
          t.sessions = s.sessions.modify n (fun y =>
            { y with state := .finishing, pendingRecords := y.pendingRecords + 1 }) ∧
          t.stock = s.stock ∧
          s.Accepts w tag (.close n d.sessionBand given) (.request (s.asker w tag) .done (.closed n d.sessionBand)) t)

/-- FRAME_TRANSMITTED and RESET of scope FULL (R180, R181, R188): the head of the send list leaves when it has been
sent; a RESET is answered BUSY in supply WARNING, else DONE with a mark, and when that frame has been sent the
controller restarts with cause RESET_FRAME. What happens before that frame has been sent is the model's choice (log
13), and so is that a NOTICE in the list of a port that a load has since disabled is still sent (log 61). -/
def Obligations.FullReset : Prop :=
  (∀ (w : Window) (s : State) (f : OutFrame) (rest : List OutFrame), (s.office.at w).sendList = f :: rest →
    (f.restarts = false → exec (.frameTransmitted w) s =
      .next { s with office := s.office.put w { s.office.at w with sendList := rest } }) ∧
    (f.restarts = true → ∃ t : State, exec (.frameTransmitted w) s = .next t ∧ t.phase = .restarting .resetFrame ∧
      t.store = { s.store with write := none } ∧ t.journal.queue = [] ∧ (∀ j : JobNumber, t.jobs.at j = none) ∧
      ∀ v : Window, t.office.at v = emptyOfficePort)) ∧
  ∀ (w : Window) (tag : Byte) (body : List Byte) (s : State),
    s.asks w .reset tag body = true → readEither body = some true → s.officeSound →
    (s.supply = .warning → exec (.resetFull w) s = .next (s.answered w tag .busy .nothing)) ∧
    (s.supply = .normal → exec (.resetFull w) s = .next { s with
      office := s.office.put w { s.office.at w with
        buffer := (s.office.at w).buffer.tail
        sendList := (s.office.at w).sendList ++ [.answer tag .done .nothing true] }
      nextRequest := s.nextRequest + 1 })

/-- RESET of scope PATH (R182, R22, R40, R70, R91, R110, R128, R146, R168), in any supply and journal state: DONE
first, every other request answered RESET in the order in which it was taken, a job that holds a serial with that
serial and its batch identifier, its session told (R21, R99, R108); buffers, line conditions, jobs, queues, windows,
audit and slip queues emptied, every port with the values of Table 3-1 and those whose function is not OFF sent an
ENQUIRE and attaching, no place reserved, the fault queue emptied, PROTOCOL and OVERRUN ended; accounts, stock, tables,
the writer, queued records, stock and session claims and every other printer condition kept, and a table-store write in
progress goes on with no one to answer. The order of the blocks is the model's reading (log 24), that of the SPOIL
records of one window its choice (log 52). -/
def Obligations.ResetPath : Prop :=
  ∀ (w : Window) (tag : Byte) (body : List Byte) (s : State),
    s.asks w .reset tag body = true → readEither body = some false → s.officeSound →
    ∃ u : State, exec (.resetPath w) s = .next u.settle ∧ s.Keeps u ∧
      (∀ v : Window, (u.office.at v).buffer = [] ∧ (u.office.at v).unanswered = [] ∧
        (u.office.at v).conditions = noLines ∧
        ((s.office.at v).sendList ++ if v = w then [.answer tag .done .nothing false] else []) <+:
          (u.office.at v).sendList) ∧
      ((∀ j : JobNumber, s.jobs.at j = none) → ∀ v : Window, (u.office.at v).sendList = (s.office.at v).sendList ++
        ((if v = w then [.answer tag .done .nothing false] else []) ++
          (s.office.at v).unanswered.map fun q => .answer q.tag .reset .nothing false)) ∧
      ((∀ v : Window, ((s.office.at v).unanswered.map OpenRequest.number).Pairwise (· < ·)) →
        (∀ v v' : Window, ∀ q ∈ (s.office.at v).unanswered, ∀ q' ∈ (s.office.at v').unanswered, q.number = q'.number →
          v = v') →
        (∀ (j k : JobNumber) (x y : Job), s.jobs.at j = some x → s.jobs.at k = some y →
          x.origin.number = y.origin.number → j = k) →
        (∀ (j : JobNumber) (x : Job), s.jobs.at j = some x →
          ∃ q ∈ (s.office.at x.origin.window).unanswered, x.origin.number = some q.number ∧ x.origin.tag = q.tag) →
        let jobOf (q : OpenRequest) : Option Job :=
          (allJobs.filterMap s.jobs.at).find? fun x => x.origin.number == some q.number
        let figures (q : OpenRequest) : Figures :=
          match (jobOf q).bind Job.serial with
          | some sb => .resetSerial sb.1 sb.2
          | none => .nothing
        (∀ v : Window, (u.office.at v).sendList = (s.office.at v).sendList ++
          ((if v = w then [.answer tag .done .nothing false] else []) ++
            (s.office.at v).unanswered.map fun q => .answer q.tag .reset (figures q) false)) ∧
        s.JobsEnded (allJobs.filterMap s.jobs.at) u ∧
        (s.openRequests.map fun q => q.2.number).Pairwise (· < ·) ∧
        (∀ v q, (v, q) ∈ s.openRequests ↔ q ∈ (s.office.at v).unanswered) ∧
        -- the sessions told in that order: the one whose last job was taken first claims its sign-off first
        ∀ (n m : Nat) (x y : Session), s.session n = some x → s.session m = some y →
          let jobs (k : Nat) : List Job := (allJobs.filterMap s.jobs.at).filter fun job => job.session == k
          x.jobs = (jobs n).length → y.jobs = (jobs m).length →
          .session n ∉ s.journal.claims → .session m ∉ s.journal.claims →
          .session n ∈ u.journal.claims → .session m ∈ u.journal.claims →
          (∃ b ∈ jobs m, ∃ k, b.origin.number = some k ∧ ∀ a ∈ jobs n, ∀ l, a.origin.number = some l → l < k) →
          u.journal.claims.idxOf (.session n) < u.journal.claims.idxOf (.session m)) ∧
      (∀ j : JobNumber, u.jobs.at j = none) ∧
      (∀ p : Printer, u.queues.at p = [] ∧ (u.ports.at p).entries = [] ∧ (u.ports.at p).audit = [] ∧
        (u.ports.at p).slips = [] ∧ (u.ports.at p).hold = (s.ports.at p).hold ∧
        (u.ports.at p).jamLatch = (s.ports.at p).jamLatch ∧ (u.ports.at p).lastStatus = (s.ports.at p).lastStatus ∧
        (u.ports.at p).device = (s.ports.at p).device ∧ (u.ports.at p).window = (s.ports.at p).window ∧
        (u.ports.at p).nextImage = 0 ∧ (u.ports.at p).unanswered = 0 ∧ (u.ports.at p).pollTimer = none ∧
        (u.ports.at p).replyTimer = none ∧ (u.ports.at p).absentTimer = none ∧
        (s.function p ≠ .off → (u.ports.at p).state = .attaching ∧
          (u.ports.at p).attachTimer = some (s.printerEntry p).selectTimeout) ∧
        (s.function p = .off → (u.ports.at p).state = .unused ∧ (u.ports.at p).attachTimer = none) ∧
        .engine p ∉ u.journal.claims) ∧
      u.stock = s.stock ∧ u.standing = s.standing ∧ u.sessions.log = s.sessions.log ∧
      u.sessions.nextNumber = s.sessions.nextNumber ∧
      (∀ i : Fin 24, (u.sessions.table.at i).map Session.books = (s.sessions.table.at i).map Session.books) ∧
      u.monitor.faults = [] ∧ u.monitor.nextSequence = s.monitor.nextSequence ∧ u.monitor.filters = s.monitor.filters ∧
      (∀ p : Printer, u.monitor.lasting.at p = { s.monitor.lasting.at p with protocol := false, overrun := false }) ∧
      (s.roomSound → u.journal.reserved = 0) ∧
      (∀ c ∈ s.journal.claims, (∀ p : Printer, c ≠ .engine p) → c ∈ u.journal.claims) ∧
      (s.journal.writer ≠ .idle → u.journal.writer = s.journal.writer ∧
        u.journal.checkpointDue = s.journal.checkpointDue) ∧
      u.sent = s.sent ++ (allPrinters.filter fun p => s.function p != .off).map (fun p => (p, .enquire)) ∧
      u.journal.queue.map Queued.record = s.journal.queue.map Queued.record ++
        (allPrinters.flatMap fun p => (s.spoils .reset p (s.ports.at p).entries).map Queued.record) ∧
      (∀ q ∈ u.journal.queue, q.link = .nothing) ∧ u.supply = s.supply ∧
      u.store.write = s.store.write.map fun write =>
        match write with
        | .tableload load _ => .tableload load none
        | .reporting on _ => .reporting on none
        | .causeclear _ => .causeclear none
        | .cause cause => .cause cause

/-! ### Ends of table-store writes -/

/-- TABLELOAD_WRITE_ENDS, REPORTING_WRITE_ENDS and CAUSECLEAR_WRITE_ENDS (R143, R175, R193): the new contents stand,
the request is answered DONE; a printer load that now meets a port whose window holds an entry is answered BUSY and
changes nothing. The new contents are the stored table with each entry of the load in its place, the other tables as
they were. -/
def Obligations.StoreWritesEnd : Prop :=
  ∀ (s : State) (reply : Option Reply),
    (∀ on, s.store.write = some (.reporting on reply) → exec .reportingWriteEnds s =
      .next (State.answerIf { s with store := { s.store with reporting := on, write := none } } reply .done .nothing)) ∧
    (s.store.write = some (.causeclear reply) → exec .causeclearWriteEnds s =
      .next (State.answerIf { s with store := { s.store with causes := noCauses, write := none } } reply .done .nothing)) ∧
    (∀ load, s.store.write = some (.tableload load reply) →
      (s.changesBusyPort load = true → exec .tableloadWriteEnds s =
        .next (State.answerIf { s with store := { s.store with write := none } } reply .busy .nothing)) ∧
      (load.isPrinters = false → exec .tableloadWriteEnds s =
        .next (State.answerIf { s with store := { s.store with tables := s.store.tables.with load, write := none } } reply
          .done .nothing))) ∧
    (∀ t : Tables,
      (∀ es, t.with (.ports es) = { t with ports := replaceEntries t.ports es }) ∧
      (∀ es, t.with (.printers es) = { t with printers := replaceEntries t.printers es }) ∧
      (∀ es, t.with (.routes es) = { t with routes := replaceEntries t.routes es }) ∧
      (∀ es, t.with (.discounts es) = { t with discounts := replaceEntries t.discounts es }) ∧
      (∀ es, t.with (.layouts es) = { t with layouts := replaceEntries t.layouts es }) ∧
      (∀ es, t.with (.tolerances es) = { t with tolerances := replaceEntries t.tolerances es }) ∧
      (∀ es, t.with (.conditions es) = { t with conditions := replaceEntries t.conditions es })) ∧
    ∀ (α : Type) (n : Nat) (table : Tab α n) (es : List (Fin n × α)), (es.map Prod.fst).Nodup →
      (∀ e ∈ es, (replaceEntries table es).at e.1 = e.2) ∧
      ∀ i : Fin n, i ∉ es.map Prod.fst → (replaceEntries table es).at i = table.at i

/-- A printer-table load at its end (R69, R85, R131, R136, R14, R15): the ports whose entries change become UNUSED or
begin an attach, their conditions, filters, holds and queues follow the new function, a port set to OFF loses the hold
reasons of its filtered conditions, the printer's kind and window, jam latch, last status and SUPERVISOR stay, and no
other port changes. Each
job queued at a port that is no TICKET port any more moves where it can under the new table, behind the jobs that stand
there, and else is answered PRINTER_UNAVAILABLE and its session told (R12, R21, R99, R108); the other queues stand. The
order of the ports' changes is the model's choice (log 23). -/
def Obligations.PrinterLoadActs : Prop :=
  ∀ (s : State) (es : List (Printer × PrinterEntry)) (reply : Option Reply),
    s.store.write = some (.tableload (.printers es) reply) → s.changesBusyPort (.printers es) = false →
    s.phase = .running → ∃ u : State, exec .tableloadWriteEnds s = .next u.settle ∧
      u.store = { s.store with tables := s.store.tables.with (.printers es), write := none } ∧
      (∀ r ∈ reply, (s.office.at r.window).sendList ++ [.answer r.tag .done .nothing false] <+:
        (u.office.at r.window).sendList) ∧
      u.stock = s.stock ∧ State.Keeps { s with store := u.store } u ∧ State.SameBooks { s with store := u.store } u ∧
      ((∀ p : Printer, s.placed p) →
        let leaves (p : Printer) : Prop := s.function p = .ticket ∧ u.function p ≠ .ticket
        let target (j : JobNumber) : Option Printer := (s.jobs.at j).bind fun y => u.moveTarget y
        (∀ p : Printer, leaves p → ∀ j ∈ s.queues.at p, ∀ y, s.jobs.at j = some y →
          (∀ q, u.moveTarget y = some q → u.jobs.at j = some { y with printer := q, retry := 0 }) ∧
          (u.moveTarget y = none → u.jobs.at j = none ∧
            .answer y.origin.tag .printerUnavailable .nothing false ∈ (u.office.at y.origin.window).sendList)) ∧
        (∀ j : JobNumber, (∀ p : Printer, leaves p → j ∉ s.queues.at p) → u.jobs.at j = s.jobs.at j) ∧
        (∀ q : Printer, ¬ leaves q → u.queues.at q = s.queues.at q ++ allPrinters.flatMap fun p =>
          if leaves p then (s.queues.at p).filter fun j => target j == some q else []) ∧
        s.JobsEnded (allJobs.filterMap fun j => if u.jobs.at j = none then s.jobs.at j else none) u) ∧
      ∀ p : Printer,
        let old := s.printerEntry p
        let new := u.printerEntry p
        let x := u.ports.at p
        (old = new → x = s.ports.at p ∧ u.monitor.filters.at p = s.monitor.filters.at p) ∧
        (old ≠ new →
          -- what the port keeps
          x.device = (s.ports.at p).device ∧ x.window = (s.ports.at p).window ∧ x.entries = (s.ports.at p).entries ∧
          x.jamLatch = (s.ports.at p).jamLatch ∧ x.lastStatus = (s.ports.at p).lastStatus ∧
          x.holds .supervisor = (s.ports.at p).holds .supervisor ∧
          -- the hold reasons of the filtered conditions
          (∀ (c : Sensed) (r : HoldReason), c.holdReason = some r →
            let ends := new.function = .off ∧ (s.filter p c).present = true ∧
              (c = .jam → (s.ports.at p).jamLatch = false)
            (ends → x.holds r = false) ∧ (¬ ends → x.holds r = (s.ports.at p).holds r)) ∧
          (u.monitor.lasting.at p).protocol = false ∧ (u.monitor.lasting.at p).overrun = false ∧
          (new.function = .off → x.state = .unused ∧ x.attachTimer = none ∧ x.pollTimer = none ∧ x.replyTimer = none ∧
            x.absentTimer = none ∧ (u.monitor.lasting.at p).noAnswer = false ∧
            ∀ c : Sensed, u.filter p c = { present := false, run := 0 }) ∧
          (new.function ≠ .off → x.state = .attaching ∧ x.attachTimer = some new.selectTimeout ∧ x.pollTimer = none ∧
            x.replyTimer = none ∧ x.absentTimer = none ∧ x.nextImage = 0 ∧ x.unanswered = 0 ∧
            (p, .enquire) ∈ u.sent.drop s.sent.length ∧
            ∀ c : Sensed, u.filter p c =
              if old.filterDepth = new.filterDepth then s.filter p c else { s.filter p c with run := 0 }) ∧
          (old.function = .ticket → new.function ≠ .ticket → x.holds .noStock = false ∧
            x.holds .stockUnverified = false ∧ x.holds .audit = false ∧ (s.placed p → u.queues.at p = [])) ∧
          (old.function = .audit → new.function ≠ .audit → x.audit = []) ∧
          (old.function = .report → new.function ≠ .report → x.slips = []) ∧
          (old.function ≠ .ticket → new.function = .ticket →
            (s.loaded p = none → x.holds .noStock = true) ∧
            ∀ b, s.loaded p = some b → (b.state = .exhausted → x.holds .noStock = true) ∧
              (b.state = .unverified → x.holds .stockUnverified = true)) ∧
          (old.lowStock ≠ new.lowStock → ∀ b, s.loaded p = some b →
            ((u.monitor.lasting.at p).stockLow = true ↔ b.remaining ≤ new.lowStock)))

/-! ### Printer reports -/

/-- CAPS at an ATTACHING or ABSENT port (R43, R44): one that passes its check makes the port ACTIVE, or HELD under a
hold reason, with the window of Table 3-4; the queue of a port that enters HELD is considered with no refusal (R12,
R13). Another puts it in FAILED with PROTOCOL and its queue is considered under R14. That the unanswered poll count
becomes 0 is the model's choice (log 17). -/
def Obligations.CapsTaken : Prop :=
  ∀ (p : Printer) (body : List Byte) (s : State), s.phase = .running →
    (s.ports.at p).state = .attaching ∨ (s.ports.at p).state = .absent →
    let x := s.ports.at p
    let e := s.printerEntry p
    let suited (kind : DeviceKind) := (kind = .ticket ∧ e.function = .ticket) ∨
      (kind = .roll ∧ (e.function = .audit ∨ e.function = .report))
    let limit := if e.windowCode = 0 ∨ e.windowCode = 15 then 1 else min e.windowCode 4
    (∀ kind depth, readCaps body = some (kind, depth) → suited kind → 1 ≤ depth → depth ≤ 8 →
      ∃ u : State, exec (.caps p body) s = .next u.settle ∧
        u.ports = s.ports.put p { x with
          state := if x.hold = noHolds then .active else .held
          device := some (kind, depth), window := min depth limit, unanswered := 0
          attachTimer := none, absentTimer := none, pollTimer := some e.pollInterval } ∧
        (s.placed p → s.HoldsQueue p (x.hold ≠ noHolds) u) ∧
        (u.monitor.lasting.at p).noAnswer = false ∧ u.stock = s.stock ∧ u.journal = s.journal ∧ u.sent = s.sent ∧
        s.Keeps u ∧ s.SameBooks u) ∧
    ((¬ ∃ kind depth, readCaps body = some (kind, depth) ∧ suited kind ∧ 1 ≤ depth ∧ depth ≤ 8) →
      ∃ u : State, exec (.caps p body) s = .next u.settle ∧ s.Drops p .failed .protocol u ∧
        (s.placed p → (s.returning p x.entries).Considers p (fun _ => true) (some .printerUnavailable) u) ∧
        (u.monitor.lasting.at p).protocol = true ∧ (u.monitor.lasting.at p).noAnswer = false)

/-- What an ACTIVE or HELD port does not take (R45, R54, R59, R131, R199): a CAPS, a message of no report kind, a
malformed report, a report that Table 3-6 refuses or that a roll port does not know put it in FAILED with PROTOCOL; an
image that is not in the window, with OVERRUN. Its outstanding serials are spoiled, its outstanding jobs return to the
front of its queue, and from head to tail each job moves where it can, to the tail of the other queue, and else is
answered PRINTER_UNAVAILABLE, its session told (R11, R12, R14, R21, R99, R108). A STATUS with bit 6 or 7 set counts as
malformed, poll or no poll (log 31); the order of the SPOIL records of one window is the model's choice (log 52), and
so is which of two entries a number names, the oldest (log 55). -/
def Obligations.PortFails : Prop :=
  ∀ (p : Printer) (s : State), s.takesReports p →
    let fails (c : Instr) (f : PrinterFault) := ∃ u : State, exec c s = .next u.settle ∧ s.Drops p .failed .protocol u ∧
      (s.placed p → (s.returning p (s.ports.at p).entries).Considers p (fun _ => true) (some .printerUnavailable) u) ∧
      ((u.monitor.lasting.at p).protocol = true ↔ f = .protocol ∨ (s.monitor.lasting.at p).protocol = true) ∧
      ((u.monitor.lasting.at p).overrun = true ↔ f = .overrun ∨ (s.monitor.lasting.at p).overrun = true) ∧
      u.stock = s.stock
    (∀ kind body, fails (.nonReportMessage p kind) .protocol ∧ fails (.caps p body) .protocol) ∧
    (∀ body, readStatus body = none → fails (.status p body) .protocol) ∧
    ∀ (r : ImageReport) (body : List Byte),
      let knows := s.function p = .ticket ∨ r = .printed ∨ r = .jammed
      (¬ knows → fails (r.command p body) .protocol) ∧
      (knows → readByte body = none → fails (r.command p body) .protocol) ∧
      (∀ n, knows → readByte body = some n → (∀ e ∈ (s.ports.at p).entries, e.image.val ≠ n) →
        fails (r.command p body) .overrun) ∧
      (∀ older e younger, knows → s.Names p body older e younger → ¬ r.allowed (s.function p) older e →
        fails (r.command p body) .protocol)

/-- FED and DOUBLEFED that Table 3-6 allows (R55, R56, R82, R83, R85, R86): a serial is given from the loaded batch,
and its last one exhausts the batch and, at an ACTIVE port, has its queue considered (R12, R13). With none to give the
stock mismatches: a LOADED or EXHAUSTED batch becomes UNVERIFIED and holds an ACTIVE port, whose queue is considered; an
UNVERIFIED one, or none, changes no stock. After a FED the port then fails. The order of the SPOIL records of its window
is the model's choice (log 52), and so is which of two entries a number names, the oldest (log 55). -/
def Obligations.FeedsTaken : Prop :=
  ∀ (p : Printer) (body : List Byte) (older younger : List Entry) (e : Entry) (t : TicketPart) (job : Job) (s : State),
    s.NamesTicket p body older e younger t job →
    let low := (s.printerEntry p).lowStock
    let given (b : Batch) (fed : Job) (u : State) : Prop :=
      let ends := b.state = .loaded ∧ b.remaining = 1
      u.stock = { s.stock with loaded := s.stock.loaded.put p (some { b.give with
        state := if ends then .exhausted else b.state, closingOwed := b.closingOwed || ends }) } ∧
      (ends → .batch b.id ∈ u.journal.claims ∧ (u.ports.at p).holds .noStock = true ∧ (s.placed p →
        State.HoldsQueue { s with jobs := s.jobs.put t.job (some fed) } p ((s.ports.at p).state = .active) u)) ∧
      (¬ ends → u.queues = s.queues ∧ (u.ports.at p).hold = (s.ports.at p).hold ∧
        (u.ports.at p).state = (s.ports.at p).state) ∧
      (b.remaining = low + 1 → (u.monitor.lasting.at p).stockLow = true) ∧
      (b.remaining ≠ low + 1 → u.monitor = s.monitor) ∧ s.Keeps u ∧ s.SameBooks u
    let mismatched (u : State) : Prop := (u.monitor.lasting.at p).stockMismatch = true ∧
      ((∀ b, s.loaded p = some b → b.state ≠ .loaded ∧ b.state ≠ .exhausted) → u.stock = s.stock) ∧
      ∀ b, s.loaded p = some b → b.state = .loaded ∨ b.state = .exhausted →
        u.stock = { s.stock with loaded := s.stock.loaded.put p (some { b with state := .unverified }) } ∧
        (u.ports.at p).holds .stockUnverified = true
    let mismatches : Prop := ∃ b, s.loaded p = some b ∧ (b.state = .loaded ∨ b.state = .exhausted)
    (ImageReport.fed.allowed .ticket older e →
      (∀ b, s.loaded p = some b → b.stockType = job.stockType → b.state = .loaded ∨ b.state = .unverified →
        0 < b.remaining → ∃ u : State, exec (.fed p body) s = .next u.settle ∧
          given b { job with serial := some (b.next, b.id), state := .fed } u ∧
          u.jobs.at t.job = some { job with serial := some (b.next, b.id), state := .fed } ∧
          (u.ports.at p).entries = older ++ { e with phase := .fed } :: younger ∧
          u.sent = s.sent ++ [(p, .serial e.image b.next)] ∧ u.journal.queue = s.journal.queue ∧
          u.journal.reserved = s.journal.reserved) ∧
      ((∀ b, s.loaded p = some b → b.stockType ≠ job.stockType ∨ (b.state ≠ .loaded ∧ b.state ≠ .unverified) ∨
        b.remaining = 0) → ∃ u : State, exec (.fed p body) s = .next u.settle ∧ s.Drops p .failed .protocol u ∧ mismatched u ∧
          (u.monitor.lasting.at p).protocol = (s.monitor.lasting.at p).protocol ∧ u.sent = s.sent)) ∧
    (ImageReport.doublefed.allowed .ticket older e →
      (∀ b, s.loaded p = some b → b.state = .loaded ∨ b.state = .unverified → 0 < b.remaining →
        ∃ u : State, exec (.doublefed p body) s = .next u.settle ∧ given b { job with spare := some b.next } u ∧
          u.jobs.at t.job = some { job with spare := some b.next } ∧
          (u.ports.at p).entries = older ++
            { e with ticket := some { t with doubleFed := true, places := t.places - 1 } } :: younger ∧
          u.journal.queue = s.journal.queue ++
            [{ record := .spoil .doubleFeed job.session p b.next b.id job.stockType, link := .nothing }] ∧
          u.journal.reserved = s.journal.reserved - 1 ∧ u.sent = s.sent) ∧
      ((∀ b, s.loaded p = some b → (b.state ≠ .loaded ∧ b.state ≠ .unverified) ∨ b.remaining = 0) →
        ∃ u : State, exec (.doublefed p body) s = .next u.settle ∧ mismatched u ∧
          (mismatches → ((s.ports.at p).state = .active → (u.ports.at p).state = .held) ∧
            (s.placed p → s.HoldsQueue p ((s.ports.at p).state = .active) u)) ∧
          (¬ mismatches → (u.ports.at p).state = (s.ports.at p).state ∧ (u.ports.at p).hold = (s.ports.at p).hold ∧
            u.jobs = s.jobs ∧ u.queues = s.queues) ∧
          (u.ports.at p).entries = older ++ { e with ticket := some { t with doubleFed := true } } :: younger ∧
          u.jobs.at t.job = (if t.job ∈ s.queues.at p then u.jobs.at t.job else some job) ∧
          u.journal.queue = s.journal.queue ∧ u.journal.reserved = s.journal.reserved ∧ u.sent = s.sent ∧
          s.Keeps u ∧ s.SameBooks u))

/-- PRINTED and PRESENTED that Table 3-6 or R65 allows (R10, R35, R57, R60, R63, R64): the phases, the record of a
presented job on one of its places, the places returned, and the audit line with its 33 characters (R36, Table 2-7); a
line or slip printed leaves its queue. Which of two entries a number names is the model's choice, the oldest (log
55). -/
def Obligations.PrintsTaken : Prop :=
  (∀ (job : Job) (clerk serial : Nat),
    let space : Text := [0x20#8]
    let sold : Text := chars (match job.tender with
      | some .cash => "CASH"
      | some .card => "CARD"
      | some .warrant => "WARR"
      | none => "TEST").toList
    auditLine job clerk serial = fixedDigits 6 serial ++ space ++ windowText job.origin.window ++ space ++
      fixedDigits 4 clerk ++ space ++ fixedDigits 2 job.stockType.val ++ space ++ sold ++ space ++
      fixedDigits 2 job.discount.val ++ space ++
      (List.replicate (7 - (amountText job.net).length) 0x20#8 ++ amountText job.net) ∧
    (job.net ≤ 999999 → (auditLine job clerk serial).length = 33)) ∧
  ∀ (p : Printer) (body : List Byte) (older younger : List Entry) (e : Entry) (s : State),
    s.Names p body older e younger →
    let x := s.ports.at p
    (∀ t job, s.NamesTicket p body older e younger t job → ImageReport.printed.allowed .ticket older e →
      exec (.printed p body) s = .next (State.settle { s with
        ports := s.ports.put p { x with entries := older ++ { e with phase := .printed } :: younger }
        jobs := s.jobs.put t.job (some { job with state := .printed }) })) ∧
    (∀ t job serial batch, s.NamesTicket p body older e younger t job → ImageReport.presented.allowed .ticket older e →
      job.serial = some (serial, batch) → 1 ≤ t.places → ∃ u : State, exec (.presented p body) s = .next u.settle ∧
        u.jobs = s.jobs.put t.job (some { job with state := .presented, image := none }) ∧
        u.journal.queue = s.journal.queue ++ [{ link := .job t.job, record :=
          match job.tender with
          | some tender => .issue job.session job.origin.window p serial batch job.stockType tender job.discount
              job.gross job.net
          | none => .test job.session job.origin.window p serial batch job.stockType }] ∧
        u.journal.reserved = s.journal.reserved - t.places ∧
        u.ports.at p = { x with entries := younger } ∧ u.stock = s.stock ∧ u.queues = s.queues ∧
        u.office = s.office ∧ u.monitor = s.monitor ∧ u.sent = s.sent ∧ s.Keeps u ∧ s.SameBooks u ∧
        (∀ q : Printer, q ≠ p → ¬ (s.function q = .audit ∧ (s.printerEntry q).auditSource = p) →
          u.ports.at q = s.ports.at q) ∧
        ∀ a : Printer, s.function a = .audit → (s.printerEntry a).auditSource = p →
          (∃ b < a, s.function b = .audit ∧ (s.printerEntry b).auditSource = p) ∧ u.ports.at a = s.ports.at a ∨
          (¬ ∃ b < a, s.function b = .audit ∧ (s.printerEntry b).auditSource = p) ∧
            let y := s.ports.at a
            let takes := (s.printerEntry p).auditRequired = true ∨
              ((y.state = .active ∨ y.state = .held ∨ y.state = .attaching) ∧ y.audit.length < 64)
            (takes → u.ports.at a =
              { y with audit := y.audit ++ [auditLine job (s.clerkOf job.session) serial] }) ∧
            (¬ takes → u.ports.at a = y)) ∧
    (s.function p = .audit ∨ s.function p = .report → older = [] →
      exec (.printed p body) s = .next (State.settle { s with ports := s.ports.put p { x with
        entries := younger
        audit := if s.function p = .audit then x.audit.tail else x.audit
        slips := if s.function p = .report then x.slips.tail else x.slips } }))

/-- R12's move test, and JAMMED that Table 3-6 or R65 allows (R13, R16, R51, R58, R60, R65). The entry named and every
younger one leave the window with SPOIL records for those that hold a serial, their unspent places come back, and their
jobs return to the front of the queue; the job named has one retry more, and past its limit it moves to the front of the
other queue or ends, its session told (R21, R99, R108). The latch and JAM hold the port; where that takes it from
ACTIVE, each job of its queue then moves where it can, to the tail of the other queue with retry count 0, and else stays
(R11 to R13). That a printer named in both places of a route entry is no other printer is the model's reading
(log 32); the order of the younger entries' SPOIL records is its choice (log 52), and so is which of two entries a number
names, the oldest (log 55). -/
def Obligations.JamTaken : Prop :=
  (∀ (s : State) (job : Job) (q : Printer),
    let e := s.routeEntry job.origin.window job.stockType
    s.moveTarget job = some q ↔ q ≠ job.printer ∧
      ((e.primary = some job.printer ∧ e.alternate = some q) ∨ (e.alternate = some job.printer ∧ e.primary = some q)) ∧
      s.function q = .ticket ∧ (s.ports.at q).state = .active ∧
      ∃ b, s.loaded q = some b ∧ b.stockType = job.stockType ∧ b.state = .loaded) ∧
  ∀ (p : Printer) (body : List Byte) (older younger : List Entry) (e : Entry) (s : State),
    s.Names p body older e younger →
    let x := s.ports.at p
    let jammed : Port := { x with
      entries := older, jamLatch := true, hold := x.hold.put HoldReason.jam.place true, state := .held }
    (s.function p ≠ .ticket → s.queues.at p = [] →
      exec (.jammed p body) s = .next (State.settle { s with ports := s.ports.put p jammed })) ∧
    ∀ t job, s.NamesTicket p body older e younger t job → ImageReport.jammed.allowed .ticket older e → s.placed p →
      ∃ u : State, exec (.jammed p body) s = .next u.settle ∧ u.ports = s.ports.put p jammed ∧
        u.journal.queue = s.journal.queue ++ s.spoils .jam p (e :: younger) ∧
        .engine p ∉ u.journal.claims ∧ u.stock = s.stock ∧ u.monitor = s.monitor ∧ u.sent = s.sent ∧
        s.Keeps u ∧ s.SameBooks u ∧
        ((∀ f ∈ e :: younger, ∀ k ∈ f.ticket, 1 ≤ k.places) →
          u.journal.reserved = s.journal.reserved - ((e :: younger).map Entry.places).sum) ∧
        (u.jobs.at t.job ≠ none → s.JobsEnded [] u) ∧ (u.jobs.at t.job = none → s.JobsEnded [job] u) ∧
        let back := s.returning p (e :: younger)
        let again := { job.returned with retry := job.retry + 1 }
        let behind := younger.filterMap Entry.job? ++ s.queues.at p
        let considered (jobs : Tab (Option Job) 32) (queues : Tab (List JobNumber) 12) : Prop :=
          State.HoldsQueue { s with jobs := jobs, queues := queues } p (x.state = .active) u
        (job.retry + 1 ≤ (s.printerEntry p).retryLimit → u.office = s.office ∧
          considered (back.jobs.put t.job (some again)) (s.queues.put p (t.job :: behind))) ∧
        ((s.printerEntry p).retryLimit < job.retry + 1 → s.moveTarget job = none →
          u.office = (s.answer job.origin .jammed .nothing).office ∧
          considered (back.jobs.put t.job none) (s.queues.put p behind)) ∧
        (∀ q : Printer, (s.printerEntry p).retryLimit < job.retry + 1 → s.moveTarget job = some q →
          u.office = s.office ∧ considered (back.jobs.put t.job (some { again with printer := q, retry := 0 }))
            ((s.queues.put p behind).put q (t.job :: s.queues.at q)))

/-- An answered STATUS at every port (R46, R47, R51, R134, R135): the poll is answered and the status kept; each filter
steps by Table 7-2; a condition that begins or ends is recorded and changes its hold reason, JAM and its latch apart;
the beginning of PAPER_OUT with serials remaining is a stock mismatch (R86); and the poll interval starts again. The
port ends ACTIVE with no hold reason, HELD with one, or FAILED (R49). Where one condition begins and takes an ACTIVE
port to HELD, each job of its queue moves where it can and else stays (R12, R13). A held count above 8 is taken as it
comes (log 46). -/
def Obligations.StatusTaken : Prop :=
  ∀ (p : Printer) (body : List Byte) (st : StatusReport) (s : State), s.takesReports p →
    (s.ports.at p).replyTimer ≠ none → readStatus body = some st →
    let step (c : Sensed) := (s.filter p c).step (s.printerEntry p).filterDepth (st.sensed.at c.place)
    ∃ t : State, exec (.status p body) s = .next t ∧
      (t.ports.at p).lastStatus = some st ∧ (t.ports.at p).replyTimer = none ∧ (t.ports.at p).unanswered = 0 ∧
      ((t.ports.at p).state ≠ .failed → (t.ports.at p).pollTimer = some (s.printerEntry p).pollInterval) ∧
      (∀ c : Sensed, t.filter p c = (step c).1) ∧
      (∀ c : Sensed, (step c).2 = .begins → ∃ f ∈ t.monitor.faults, f.condition = .sensed p c ∧ f.present = true ∧
        f.priority = s.priorityOf (.sensed p c)) ∧
      (∀ c : Sensed, (step c).2 = .ends → ∀ f ∈ t.monitor.faults, f.condition = .sensed p c → f.present = false) ∧
      (∀ (c : Sensed) (r : HoldReason), c.holdReason = some r → c ≠ .jam → (t.ports.at p).holds r =
        match (step c).2 with
        | .begins => true
        | .ends => false
        | .nothing => (s.ports.at p).holds r) ∧
      (st.sensed.at Sensed.jam.place = false → (t.ports.at p).jamLatch = false ∧
        ((step .jam).1.present = false → (t.ports.at p).holds .jam = false)) ∧
      ((step .jam).2 = .begins → (t.ports.at p).holds .jam = true) ∧
      (∀ r : HoldReason, r = .supervisor → (t.ports.at p).holds r = (s.ports.at p).holds r) ∧
      (∀ b, (step .paperOut).2 = .begins → s.function p = .ticket → s.loaded p = some b → 0 < b.remaining →
        (t.monitor.lasting.at p).stockMismatch = true ∧
        ∃ c, t.loaded p = some c ∧ c.id = b.id ∧
          (b.state = .loaded ∨ b.state = .exhausted → c.state = .unverified ∧ (t.ports.at p).holds .stockUnverified = true)) ∧
      -- ACTIVE or HELD
      (((s.ports.at p).state = .active → (s.ports.at p).hold = noHolds) →
        ((s.ports.at p).state = .held → (s.ports.at p).hold ≠ noHolds) →
        ((t.ports.at p).state = .active ∧ (t.ports.at p).hold = noHolds) ∨
          ((t.ports.at p).state = .held ∧ (t.ports.at p).hold ≠ noHolds) ∨ (t.ports.at p).state = .failed) ∧
      -- the queue of a port that enters HELD
      (∀ c : Sensed, c.holdReason ≠ none → (step c).2 = .begins → (∀ d ≠ c, (step d).2 = .nothing) →
        (s.ports.at p).state = .active → st.fedThrough = none → st.presentedThrough = none →
        st.held ≠ 0 ∨ st.sensed.at Sensed.jam.place = false → (∀ q : Printer, s.placed q) →
        let target (j : JobNumber) : Option Printer := (s.jobs.at j).bind fun y => s.moveTarget y
        (t.ports.at p).state = .held ∧
        t.queues.at p = (s.queues.at p).filter (fun j => target j == none) ∧
        ∀ j ∈ s.queues.at p, ∀ y, s.jobs.at j = some y →
          (target j = none → t.jobs.at j = some y) ∧
          ∀ q, target j = some q → ∃ z, t.jobs.at j = some z ∧ z.printer = q ∧ z.retry = 0 ∧
            z.particulars = y.particulars) ∧
      s.Keeps t ∧ s.SameBooks t

/-- What a STATUS implies is taken as the report itself would be (R61, R62, R65), with the filters in agreement. A
window of one entry that fed-through names is taken as FED, one that presented-through names as PRESENTED or PRINTED,
and a printer that holds nothing and senses JAM as JAMMED. In a ticket port's window of any size, entries up to the
one that presented-through names leave it presented in sending order, fed and printed first where they were not, and
entries up to the one that fed-through names are fed, each feed with the next serial. With nothing named, a printer
that holds nothing and senses JAM has jammed at its oldest entry whatever its phase, PRINTED included: the window
empties, its serials are spoiled in an order that is the model's choice (log 52), its jobs return, and the latch holds
the port. Which of two entries a number names is the model's choice, the oldest (log 55). -/
def Obligations.StatusImplies : Prop :=
  (∀ (p : Printer) (body : List Byte) (st : StatusReport) (e : Entry) (s t : State), s.takesReports p →
    (s.ports.at p).replyTimer ≠ none → readStatus body = some st → (s.ports.at p).entries = [e] →
    (∀ c : Sensed, s.filter p c = { present := st.sensed.at c.place, run := 0 }) →
    let image : List Byte := [BitVec.ofNat 8 e.image.val]
    let answered : Port := { s.ports.at p with replyTimer := none, unanswered := 0, lastStatus := some st }
    let polling : Port := { t.ports.at p with pollTimer := some (s.printerEntry p).pollInterval }
    let after (c : Instr) : Prop := exec c { s with ports := s.ports.put p answered } = .next t →
      (t.ports.at p).attached = true → exec (.status p body) s = .next { t with ports := t.ports.put p polling }
    st.sensed.at Sensed.jam.place = true →
    (s.function p = .ticket → e.phase = .sent → st.held ≠ 0 → st.fedThrough = some e.image.val →
      st.presentedThrough = none → after (.fed p image)) ∧
    (s.function p = .ticket → e.phase = .printed → st.held ≠ 0 → st.fedThrough = none →
      st.presentedThrough = some e.image.val → after (.presented p image)) ∧
    (s.function p = .audit ∨ s.function p = .report → st.held ≠ 0 → st.presentedThrough = some e.image.val →
      after (.printed p image)) ∧
    (s.function p = .ticket → e.phase ≠ .printed → st.held = 0 → st.fedThrough = none → st.presentedThrough = none →
      after (.jammed p image)) ∧
    (s.function p = .audit ∨ s.function p = .report → st.held = 0 → st.presentedThrough = none →
      after (.jammed p image))) ∧
  (∀ (p : Printer) (body : List Byte) (st : StatusReport) (gone fed rest : List Entry) (b : Batch) (s : State),
    s.takesReports p → (s.ports.at p).replyTimer ≠ none → readStatus body = some st → s.function p = .ticket →
    (∀ c : Sensed, s.filter p c = { present := st.sensed.at c.place, run := 0 }) →
    (s.ports.at p).entries = gone ++ fed ++ rest →
    (∀ older e, (gone = older ++ [e] → ∀ f ∈ older, f.image ≠ e.image) ∧
      (fed = older ++ [e] → ∀ f ∈ gone ++ older, f.image ≠ e.image)) →
    st.presentedThrough = (gone.getLast?.map fun e => e.image.val) →
    (fed = [] → st.fedThrough = none ∨ ∃ e ∈ gone, st.fedThrough = some e.image.val) →
    (∀ e ∈ fed.getLast?, st.fedThrough = some e.image.val) →
    st.held ≠ 0 ∨ st.sensed.at Sensed.jam.place = false →
    s.loaded p = some b → b.state = .loaded ∨ b.state = .unverified →
    (gone ++ fed).countP (fun e => e.phase == .sent) < b.remaining →
    ((gone ++ fed).filterMap Entry.job?).Nodup →
    (∀ e ∈ gone ++ fed, ∃ j job, e.job? = some j ∧ s.jobs.at j = some job ∧ (∀ q : Printer, j ∉ s.queues.at q) ∧
      (e.phase = .sent → job.stockType = b.stockType) ∧ (e.phase ≠ .sent → job.serial ≠ none)) →
    ∃ t : State, exec (.status p body) s = .next t ∧
      let named := gone ++ fed
      let serialAt (k : Nat) : Nat := b.next + (named.take k).countP fun e => e.phase == .sent
      (fed.map (fun e => if e.phase = .sent then { e with phase := .fed } else e) ++ rest <+: (t.ports.at p).entries) ∧
      (∃ c, t.loaded p = some c ∧ c.next = serialAt named.length ∧
        c.inHand = b.inHand + named.countP fun e => e.phase == .sent) ∧
      ((gone.filterMap Entry.job?).map Link.job).Sublist
        ((t.journal.queue.drop s.journal.queue.length).map Queued.link) ∧
      ∀ (k : Nat) (e : Entry) (j : JobNumber) (job : Job), named[k]? = some e → e.job? = some j → s.jobs.at j = some job →
        let now : Job := if e.phase = .sent then { job with serial := some (serialAt k, b.id), state := .fed } else job
        (e.phase = .sent → (p, .serial e.image (serialAt k)) ∈ t.sent.drop s.sent.length) ∧
        (gone.length ≤ k → t.jobs.at j = some now) ∧
        (k < gone.length → t.jobs.at j = some { now with state := .presented, image := none } ∧
          ∃ sb ∈ now.serial, { record := presentedRecord job p sb.1 sb.2, link := .job j } ∈
            t.journal.queue.drop s.journal.queue.length)) ∧
  ∀ (p : Printer) (body : List Byte) (st : StatusReport) (e : Entry) (younger : List Entry) (j : JobNumber) (job : Job)
    (s : State), s.takesReports p → (s.ports.at p).replyTimer ≠ none → readStatus body = some st → s.function p = .ticket →
    (∀ c : Sensed, s.filter p c = { present := st.sensed.at c.place, run := 0 }) →
    (s.ports.at p).entries = e :: younger → st.fedThrough = none → st.presentedThrough = none → st.held = 0 →
    st.sensed.at Sensed.jam.place = true → e.job? = some j → s.jobs.at j = some job → s.placed p →
    ∃ t : State, exec (.status p body) s = .next t ∧ (t.ports.at p).entries = [] ∧ (t.ports.at p).jamLatch = true ∧
      (t.ports.at p).holds .jam = true ∧ (t.ports.at p).state = .held ∧
      s.journal.queue ++ s.spoils .jam p (e :: younger) <+: t.journal.queue ∧
      (job.retry + 1 ≤ (s.printerEntry p).retryLimit → ∀ y, t.jobs.at j = some y → y.printer = p →
        y.retry = job.retry + 1 ∧ y.state = .queued ∧ y.serial = none ∧ (t.queues.at p).head? = some j) ∧
      ((s.printerEntry p).retryLimit < job.retry + 1 → s.moveTarget job = none → t.jobs.at j = none ∧
        .answer job.origin.tag .jammed .nothing false ∈ (t.office.at job.origin.window).sendList)

/-- Reports that no port expects, messages with line errors, and the timers of the engines (R41, R44, R45, R46, R48);
the queue of a port going ABSENT is considered: each job moves where it can and else is answered PRINTER_UNAVAILABLE and
ends for its session (R12, R14, R21, R99, R108). The order of the SPOIL records of its window is the model's choice (log
52). -/
def Obligations.EngineTimers : Prop :=
  ∀ (p : Printer) (s : State),
    let x := s.ports.at p
    let e := s.printerEntry p
    (∀ (r : ImageReport) (kind : Byte) (body : List Byte), x.state ≠ .active → x.state ≠ .held →
      exec (r.command p body) s = .next s ∧ exec (.status p body) s = .next s ∧
      exec (.nonReportMessage p kind) s = .next s ∧
      (x.state = .unused ∨ x.state = .failed → exec (.caps p body) s = .next s)) ∧
    (∀ body st, readStatus body = some st → x.replyTimer = none → exec (.status p body) s = .next s) ∧
    (∀ c ∈ [Instr.printerMessageDiscarded p, .printerGapTimerExpiry p],
      exec c s = .next (if s.phase = .running ∧ x.state ≠ .unused then s.raise (.printer p .linkCheck) else s)) ∧
    (x.state = .attaching → x.attachTimer ≠ none → s.phase = .running →
      ∃ u : State, exec (.attachTimerExpiry p) s = .next u.settle ∧
        u.ports = s.ports.put p { x with
          state := .absent, attachTimer := none, pollTimer := none, replyTimer := none, absentTimer := some 5000 } ∧
        (u.monitor.lasting.at p).noAnswer = true ∧ (s.placed p → x.entries = [] → u.queues.at p = [] ∧
          s.Considers p (fun _ => true) (some .printerUnavailable) u ∧
          s.JobsEnded ((s.queues.at p).filterMap fun j => if u.jobs.at j = none then s.jobs.at j else none) u) ∧
        u.stock = s.stock ∧ u.journal.queue = s.journal.queue ∧ u.sent = s.sent ∧ s.Keeps u ∧ s.SameBooks u) ∧
    (x.state = .absent → x.absentTimer ≠ none → exec (.absentRepeatTimerExpiry p) s = .next { s with
      ports := s.ports.put p { x with nextImage := 0, absentTimer := some 5000 }
      sent := s.sent ++ [(p, .enquire)] }) ∧
    (x.state = .active ∨ x.state = .held →
      (x.pollTimer ≠ none → exec (.pollIntervalTimerExpiry p) s = .next { s with
        ports := s.ports.put p { x with pollTimer := none, replyTimer := some e.selectTimeout }
        sent := s.sent ++ [(p, .poll)] }) ∧
      (x.replyTimer ≠ none → x.unanswered < 2 → exec (.pollReplyTimerExpiry p) s = .next { s with
        ports := s.ports.put p
          { x with replyTimer := none, unanswered := x.unanswered + 1, pollTimer := some e.pollInterval } }) ∧
      (x.replyTimer ≠ none → 2 ≤ x.unanswered → s.phase = .running →
        ∃ u : State, exec (.pollReplyTimerExpiry p) s = .next u.settle ∧ s.Drops p .absent .lost u ∧
          (s.placed p → (s.returning p x.entries).Considers p (fun _ => true) (some .printerUnavailable) u) ∧
          (u.monitor.lasting.at p).noAnswer = true ∧ u.stock = s.stock ∧ u.sent = s.sent))

/-! ### Journal writes -/

/-- RECORD_WRITE_ENDS after a good read-back (R19, R20, R84, R96, R98, R99, R103, R106, R108, R126, R150, R151, R153):
the slot holds the record, the head moves on, the record leaves the queue, the accounts take it, its request or job is
answered, and its session told (R21): one that is CLOSING with nothing left in flight owes its sign-off. A read-back
is the command's operand (log 8); where the head stands after the last sequence number in slot 15 is the model's
choice (log 43). -/
def Obligations.RecordWritten : Prop :=
  ∀ (found : Option (List Byte)) (q : Queued) (rest : List Queued) (s : State),
    s.phase = .running → s.journal.writer = .writing → s.journal.queue = q :: rest →
    let j := s.journal
    let slot := recordSlot j.nextSequence q.record
    found = none ∨ found = some slot →
    let last := j.nextSequence = 4294967295
    ∃ u : State, exec (.recordWriteEnds found) s = .next u.settle ∧
      u.journal.memory = Memory.writeAll j.memory (slotAddress j.page j.slot) slot ∧
      u.journal.nextSequence = j.nextSequence + 1 ∧ u.journal.queue = rest ∧ u.journal.reserved = j.reserved ∧
      (last → u.journal.writer = .stopped ∧ u.journal.page = j.page ∧
        ∃ f ∈ u.monitor.faults, f.condition = .office .journalFault ∧ f.last = s.monitor.nextSequence) ∧
      (¬ last → u.monitor = s.monitor ∧
        (j.slot.val < 15 → u.journal.page = j.page ∧ u.journal.slot.val = j.slot.val + 1 ∧
          (j.checkpointDue = true → s.supply = .normal → u.journal.checkpointDue = false ∧
            u.journal.writer = .checkpoint u.checkpointRecords false false) ∧
          (j.checkpointDue = false ∨ s.supply = .warning → u.journal.checkpointDue = j.checkpointDue ∧
            u.journal.writer = if rest = [] then .idle else .writing)) ∧
        (j.slot.val = 15 → u.journal.page = nextPage j.page ∧ u.journal.pageSequence = j.pageSequence + 1 ∧
          u.journal.writer = .erasing ∧
          u.journal.checkpointDue = (j.checkpointDue || (nextPage j.page == 0) || (nextPage j.page == 64)))) ∧
      u.stock = s.stock.written q.record ∧ u.standing = s.standing.apply q.record ∧
      (∀ i : Fin 24, (u.sessions.table.at i).map Session.books =
        (((s.sessions.addFigures q.record).written rest q.record).table.at i).map Session.books) ∧
      u.sessions.log = ((s.sessions.addFigures q.record).written rest q.record).log ∧
      u.sessions.nextNumber = s.sessions.nextNumber ∧
      (∀ n x y, q.record.pendingFor = some n → (∀ band given, q.record ≠ .close n band given) →
        s.session n = some x → u.session n = some y → y.pendingRecords = x.pendingRecords - 1 ∧
          (y.finished = true → y.signOffOwed = true ∧ (x.signOffOwed = false → .session n ∈ u.journal.claims))) ∧
      (∀ k job, q.link = .job k → s.jobs.at k = some job → (∀ n band given, q.record ≠ .close n band given) →
        s.JobsEnded [job] u) ∧
      (∀ r code figures, ¬ last → q.link = .request r code figures → u.office = (s.answer r code figures).office) ∧
      (∀ k job, ¬ last → q.link = .job k → s.jobs.at k = some job → u.jobs = s.jobs.put k none ∧
        u.office = (s.answer job.origin (if job.kind = .ticket then .issued else .done)
          (if job.kind = .ticket then .issued (job.serial.getD (0, 0)).1 (job.serial.getD (0, 0)).2 job.printer job.net
            else .tested (job.serial.getD (0, 0)).1 (job.serial.getD (0, 0)).2 job.printer)).office) ∧
      (q.link = .nothing → u.jobs = s.jobs ∧ (¬ last → u.office = s.office)) ∧
      u.store = s.store ∧ u.supply = s.supply ∧ u.phase = s.phase ∧ u.sent = s.sent ∧ u.queues = s.queues

/-- A written DECLARE (R121, R122, R67), with its request to answer or, answered RESET by a path reset, with no one to
answer (R128): the pending declaration becomes the session's, an AWAITING session is DECLARED,
the slip joins the queue of the lowest REPORT port that is ACTIVE or HELD if fewer than 4 stand there, and the request is
answered with the figures and whether the slip was kept. -/
def Obligations.DeclareWritten : Prop :=
  ∀ (reply : Option Reply) (n count : Nat) (declared allowance : PerTender Nat) (band : PerTender Band) (sessionBand : Band)
    (rest : List Queued) (x : Session) (d : Declaration) (s : State),
    s.phase = .running → s.journal.writer = .writing → s.journal.nextSequence < 4294967295 →
    s.journal.queue = { record := .declare n count declared allowance band sessionBand
                        link := (reply.map Link.declare).getD .nothing } :: rest →
    s.session n = some x → x.pendingPart = some d →
    let reports (p : Printer) : Prop :=
      s.function p = .report ∧ ((s.ports.at p).state = .active ∨ (s.ports.at p).state = .held)
    let answered (kept : Bool) (u : State) : Prop :=
      (∀ r, reply = some r → u.office = (s.answer r .done (.declared n d x.unmatched x.saturated x.recovered kept)).office) ∧
      (reply = none → u.office = s.office)
    ∃ u : State, exec (.recordWriteEnds none) s = .next u.settle ∧
      (∃ y, u.session n = some y ∧ y.part = some d ∧ y.pendingPart = none ∧
        y.state = if x.state = .awaiting then .declared else x.state) ∧
      ((∀ p, ¬ reports p) → u.ports = s.ports ∧ answered false u) ∧
      ∀ p : Printer, reports p → (∀ q < p, ¬ reports q) →
        (4 ≤ (s.ports.at p).slips.length → u.ports = s.ports ∧ answered false u) ∧
        ((s.ports.at p).slips.length < 4 → u.ports = s.ports.put p
          { s.ports.at p with slips := (s.ports.at p).slips ++ [composeSlip { x with part := some d } d] } ∧
          answered true u)

/-- ERASE_ENDS and CHECKPOINT_RECORD_WRITE_ENDS after a good read-back (R150, R159, R161): what memory holds, where
the head stands and what the writer does next; a checkpoint that WARNING abandoned is begun again when its record ends
after the supply is NORMAL again. That the head names slot 0 until the erase ends is the model's choice (log 19), and so
is that an abandoned checkpoint's erase ends before the writer leaves it (log 56). A page entered right after CHECKPOINT_END lies outside the checkpoint, by the model's reading (log 18). -/
def Obligations.PagesAndCheckpoints : Prop :=
  ∀ s : State,
    let j := s.journal
    let next : Writer := if j.checkpointDue = true ∧ s.supply = .normal then .checkpoint s.checkpointRecords false false
      else if j.queue = [] then .idle else .writing
    let due := j.checkpointDue && s.supply == .warning
    let page := freshPage j.pageSequence
    let erased := Memory.writeAll (Memory.erase j.memory (slotAddress j.page 0) 512) (slotAddress j.page 0) page
    (∀ found, found = none ∨ found = some page →
      (j.writer = .erasing ∨ (∃ rs, j.writer = .checkpoint rs true true) → exec (.eraseEnds found) s = .next { s with
        journal := { j with memory := erased, slot := 1, writer := next, checkpointDue := due } }) ∧
      (∀ rs, j.writer = .checkpoint rs true false → exec (.eraseEnds found) s = .next { s with
        journal := { j with memory := erased, slot := 1, writer := .checkpoint rs false false } })) ∧
    ∀ (r : JRecord) (rs : List JRecord) (abandoned : Bool) (found : Option (List Byte)),
      let slot := recordSlot j.nextSequence r
      let k := { j with
        memory := Memory.writeAll j.memory (slotAddress j.page j.slot) slot, nextSequence := j.nextSequence + 1 }
      j.writer = .checkpoint (r :: rs) false abandoned → found = none ∨ found = some slot →
      j.nextSequence ≠ 4294967295 →
      (∀ i : Fin 16, i.val = j.slot.val + 1 →
        (rs ≠ [] → abandoned = false → exec (.checkpointRecordWriteEnds found) s = .next (State.settle { s with
          journal := { k with slot := i, writer := .checkpoint rs false false } })) ∧
        (rs = [] ∨ abandoned = true → j.checkpointDue = false →
          exec (.checkpointRecordWriteEnds found) s = .next (State.settle { s with
            journal := { k with slot := i, writer := next } })) ∧
        (abandoned = true → j.checkpointDue = true → s.supply = .normal →
          let begun := { s with journal := { k with slot := i } }
          exec (.checkpointRecordWriteEnds found) s = .next (State.settle { begun with
            journal := { k with
              slot := i, checkpointDue := false, writer := .checkpoint begun.checkpointRecords false false } })) ∧
        (abandoned = true → j.checkpointDue = true → s.supply = .warning →
          exec (.checkpointRecordWriteEnds found) s = .next (State.settle { s with
            journal := { k with slot := i, writer := next } }))) ∧
      (j.slot.val = 15 →
        let entered := { k with page := nextPage j.page, slot := 0, pageSequence := j.pageSequence + 1 }
        (rs ≠ [] → abandoned = false → exec (.checkpointRecordWriteEnds found) s = .next (State.settle { s with
          journal := { entered with writer := .checkpoint rs true false } })) ∧
        (rs = [] ∨ abandoned = true → exec (.checkpointRecordWriteEnds found) s = .next (State.settle { s with
          journal := { entered with
            writer := .erasing
            checkpointDue := j.checkpointDue || (nextPage j.page == 0) || (nextPage j.page == 64) } })))

/-- R162 and R153: a read-back that fails puts the journal in STOPPED with JOURNAL_FAULT, the bytes found standing and
the record still queued; the last sequence number stops it after a good write of a checkpoint record too. A read-back
is the command's operand (log 8). That after a failed erase the head still names slot 0 is the model's choice (log
19). -/
def Obligations.JournalStops : Prop :=
  ∀ s : State,
    let j := s.journal
    let stops (c : Instr) (memory : List Host.Cell) : Prop := exec c s =
      .next (State.raise { s with journal := { j with memory := memory, writer := .stopped } } (.office .journalFault))
    let atSlot (bs : List Byte) := Memory.writeAll j.memory (slotAddress j.page j.slot) bs
    (∀ bs q rest, j.writer = .writing → j.queue = q :: rest → bs ≠ recordSlot j.nextSequence q.record →
      stops (.recordWriteEnds (some bs)) (atSlot bs)) ∧
    (∀ bs r rs abandoned, j.writer = .checkpoint (r :: rs) false abandoned → bs ≠ recordSlot j.nextSequence r →
      stops (.checkpointRecordWriteEnds (some bs)) (atSlot bs)) ∧
    (∀ bs, j.writer = .erasing ∨ (∃ rs abandoned, j.writer = .checkpoint rs true abandoned) →
      bs ≠ freshPage j.pageSequence →
      stops (.eraseEnds (some bs))
        (Memory.writeAll (Memory.erase j.memory (slotAddress j.page 0) 512) (slotAddress j.page 0) bs)) ∧
    (∀ r rs abandoned, j.writer = .checkpoint (r :: rs) false abandoned → j.nextSequence = 4294967295 →
      ∃ u : State, exec (.checkpointRecordWriteEnds none) s = .next u.settle ∧ u.journal.writer = .stopped ∧
        u.journal.memory = atSlot (recordSlot j.nextSequence r) ∧ u.monitor = (s.raise (.office .journalFault)).monitor)

/-! ### Supply, restart, recovery -/

/-- WARNING_CROSSING_DOWN and WARNING_CROSSING_UP at a RUNNING controller (R68, R158, R161, R171, R172), while it is
RECOVERING, when the supply changes and a SUPPLY_DIP waits to be recorded (R178, R179), and while it is held in restart,
when nothing is taken (R174). A checkpoint whose CHECKPOINT_END is being written is completed, by the model's reading
(log 18), and one whose page is being erased is left when the erase ends, by its choice (log 56). -/
def Obligations.WarningCrossings : Prop :=
  (∀ s : State, s.phase = .running →
    let j := s.journal
    (s.supply = .normal →
      (∃ t : State, exec .warningCrossingDown s = .next t ∧ t.supply = .warning ∧ ∀ p : Printer, .engine p ∉ t.journal.claims) ∧
      (∀ rs erasing abandoned, j.writer = .checkpoint rs erasing abandoned → rs.length ≠ 1 ∨ erasing = true →
        exec .warningCrossingDown s = .next (State.settle { s with
          supply := .warning
          journal := { j with writer := .checkpoint rs erasing true, checkpointDue := true } })) ∧
      ((∀ rs erasing abandoned, j.writer ≠ .checkpoint rs erasing abandoned) ∨
          (∃ r abandoned, j.writer = .checkpoint [r] false abandoned) →
        exec .warningCrossingDown s = .next (State.settle { s with supply := .warning }))) ∧
    (s.supply = .warning → exec .warningCrossingDown s = .next s ∧
      let up := State.raise { s with supply := .normal } (.office .supplyDip)
      (j.writer ≠ .idle ∨ (j.checkpointDue = false ∧ j.queue = []) →
        exec .warningCrossingUp s = .next up.settle) ∧
      (j.writer = .idle → j.checkpointDue = true → exec .warningCrossingUp s = .next (State.settle { up with
        journal := { j with writer := .checkpoint s.checkpointRecords false false, checkpointDue := false } }))) ∧
    (s.supply = .normal → exec .warningCrossingUp s = .next s)) ∧
  -- recovery and restart
  ∀ s : State,
    (∀ cause loaded, s.phase = .recovering cause loaded → (∀ rs erasing abandoned,
        s.journal.writer ≠ .checkpoint rs erasing abandoned) →
      (s.supply = .normal → exec .warningCrossingDown s = .next { s with supply := .warning } ∧
        exec .warningCrossingUp s = .next s) ∧
      (s.supply = .warning → exec .warningCrossingDown s = .next s ∧
        (s.journal.writer ≠ .idle ∨ (s.journal.checkpointDue = false ∧ s.journal.queue = []) →
          exec .warningCrossingUp s = .next { s with
            supply := .normal
            monitor := { s.monitor with waiting := s.monitor.waiting ++ [.occurred (.office .supplyDip)] } }))) ∧
    (∀ cause, s.phase = .restarting cause →
      exec .warningCrossingDown s = .next s ∧ exec .warningCrossingUp s = .next s)

/-- POWER_ON, RESTART_CROSSING_DOWN and RESET_LINE_ASSERTED complete in any state (R173, R174, R170, R23, R169, R198):
the controller is held in restart with the cause, the supply NORMAL; the table store and, outside a write in progress,
journal memory stand; and every other field of every block is lost. No filter, condition or fault record is carried
over (R136, R147), and no field of a printer port (Table 3-1). Recovery from there finds every filter absent with run 0
and every condition absent, and leaves each port with the values of Table 3-1 under restart, its hold reasons apart
(R71; O60 gives them). What a lost field holds while the controller is held in restart, before recovery sets it, is
the model's choice: its value at power-on with empty stores, the journal IDLE at page and slot 0, and nothing recorded
(log 58). Bytes of a write cut short are free values (log 7). That POWER_ON restarts the controller in any state is the
model's choice (log 30), and that the supply is NORMAL from the event on its reading (log 38). -/
def Obligations.Restarts : Prop :=
  ∀ (c : Instr) (cause : RestartCause) (s : State),
    (c, cause) ∈ [(Instr.powerOn, RestartCause.powerOn), (.restartCrossingDown, .supplyFail),
      (.resetLineAsserted, .resetLine)] →
    ∃ t : State, exec c s = .next t ∧ t.phase = .restarting cause ∧ t.supply = .normal ∧
      t.store = { s.store with write := none } ∧
      (∀ w : Window, t.office.at w = { buffer := [], unanswered := [], conditions := noLines, sendList := [] }) ∧
      (∀ j : JobNumber, t.jobs.at j = none) ∧
      (∀ p : Printer, t.queues.at p = [] ∧ t.loaded p = none ∧
        t.ports.at p =
          { state := .unused, hold := noHolds, jamLatch := false, device := none, window := 1, entries := [], nextImage := 0
            unanswered := 0, attachTimer := none, pollTimer := none, replyTimer := none, absentTimer := none
            lastStatus := none, audit := [], slips := [] }) ∧
      t.stock.store = [] ∧ t.standing = t.stock ∧
      (∀ i : Fin 24, t.sessions.table.at i = none) ∧ t.sessions.nextNumber = 1 ∧ t.sessions.log = [] ∧
      (∀ (p : Printer) (d : Sensed), t.filter p d = { present := false, run := 0 }) ∧
      (∀ p : Printer, t.monitor.lasting.at p =
        { noAnswer := false, protocol := false, overrun := false, stockLow := false, stockMismatch := false }) ∧
      t.monitor.faults = [] ∧ t.monitor.nextSequence = 1 ∧ t.monitor.waiting = [] ∧
      t.journal = { memory := t.journal.memory, page := 0, slot := 0, pageSequence := 0, nextSequence := 1, queue := []
                    reserved := 0, claims := [], writer := .idle, checkpointDue := false } ∧
      (s.journal.writer = .idle ∨ s.journal.writer = .stopped → t.journal.memory = s.journal.memory) ∧
      (s.memorySound → ∀ a : Nat,
        (a < slotAddress s.journal.page 0 ∨ slotAddress s.journal.page 0 + 512 ≤ a →
          Memory.read t.journal.memory a = Memory.read s.journal.memory a) ∧
        ((s.journal.writer = .writing ∨ ∃ rs ab, s.journal.writer = .checkpoint rs false ab) →
          (a < slotAddress s.journal.page s.journal.slot ∨ slotAddress s.journal.page s.journal.slot + 32 ≤ a) →
          Memory.read t.journal.memory a = Memory.read s.journal.memory a)) ∧
      t.sent = s.sent ∧ t.nextRequest = s.nextRequest ∧ t.pending = s.pending ∧
      -- recovery from there
      ∃ u v : State, exec .recoveryBegins t = .next u ∧ exec .causeWriteEnds u = .next v.settle ∧
        (∀ (p : Printer) (d : Sensed), v.filter p d = { present := false, run := 0 }) ∧
        (∀ p : Printer, v.monitor.lasting.at p =
          { noAnswer := false, protocol := false, overrun := false, stockLow := false, stockMismatch := false }) ∧
        v.monitor.waiting = [] ∧
        ∀ p : Printer, v.ports.at p =
          { state := if v.function p = .off then .unused else .attaching, hold := (v.ports.at p).hold
            jamLatch := false, device := none, window := 1, entries := [], nextImage := 0, unanswered := 0
            attachTimer := if v.function p = .off then none else some (v.printerEntry p).selectTimeout
            pollTimer := none, replyTimer := none, absentTimer := none, lastStatus := none, audit := [], slips := [] }

/-- RECOVERY_BEGINS and CAUSE_WRITE_ENDS (R111, R165, R169, R175 to R178, R71, R90, R147): the tables load, the cause
joins the set, replay rebuilds stock and sessions, the RESTART record is queued and recorded, what waited in recovery is
recorded after it in the order it came as a RUNNING controller records it, and every engine whose function is not OFF
attaches. Where replay begins and ends (R165, R166): the head page, the chain, the newest usable checkpoint, the records
after it, the stops; where it leaves the head and the writer, and when a checkpoint is due (R153, R167). The model's
choices and readings: two commands (log 4, log 35); the number 0 when no record is replayed (log 21); the page among
equal headers (log 45); the writer ERASING at slot 0 of a page not yet erased (log 19); the sequence and the head when
headers hold and no good record (log 22); the head at the sequence limit (log 43); endings that waited keep their place
among occurrences (log 34); replayed records that name a batch or session replay does not hold, and the next session
number with no snapshot (log 48, log 49); a good slot whose body spells no record, which counts as replayed and is
handed to no block (log 50); a checkpoint whose records contradict one another (log 51); the page after the head page
when the last good record fills slot 15 of an older page (log 59); the recovered batches, UNVERIFIED where loaded, as
what the next checkpoint carries (log 60). -/
def Obligations.Recovery : Prop :=
  (∀ m : List Host.Cell,
    (headPage m = none ↔ ∀ p : Fin 128, headerSequence (readSlot m p 0) = none) ∧
    (∀ p q, headPage m = some (p, q) → headerSequence (readSlot m p 0) = some q ∧
      ∀ p' q', headerSequence (readSlot m p' 0) = some q' → q' ≤ q ∧ (q' = q → p ≤ p')) ∧
    (headPage m = none ↔ findReplay m = none) ∧
    ∀ f : Found, findReplay m = some f →
      let pages := chainBack m 128 f.head.1 f.head.2
      let chain := chainSlots m f.head
      let number (x : FoundSlot) : Option Nat := x.contents.sequence?
      let record (x : FoundSlot) : Option JRecord := x.contents.record?
      let usable (run : List FoundSlot) (c : FoundCheckpoint) : Prop :=
        ∃ (first last : FoundSlot) (between : List FoundSlot) (start n next : Nat), run = first :: (between ++ [last]) ∧
          record first = some (.checkpointBegin next n) ∧ record last = some (.checkpointEnd start n) ∧
          between.length = n ∧ (∀ (k : Nat) (x : FoundSlot), run[k]? = some x → number x = some (start + k)) ∧
          c = { beginPage := first.page, nextSession := next, records := between.filterMap record, last := last }
      -- the chain
      headPage m = some f.head ∧ pages.head? = some f.head ∧
      (∀ (k : Nat) (x y : Fin 128 × Nat), pages[k]? = some x → pages[k + 1]? = some y →
        y.1.val = (x.1.val + 127) % 128 ∧ y.2 + 1 = x.2 ∧ headerSequence (readSlot m y.1 0) = some y.2) ∧
      (∀ x y : Fin 128 × Nat, pages.getLast? = some x → pages.length < 128 → y.1.val = (x.1.val + 127) % 128 →
        y.2 + 1 = x.2 → headerSequence (readSlot m y.1 0) ≠ some y.2) ∧
      chain = pages.reverse.flatMap (fun pq => recordSlots.map fun k =>
        { page := pq.1, pageSequence := pq.2, slot := k, contents := slotContents (readSlot m pq.1 k) }) ∧
      -- the checkpoint, the slots after it and the records replayed
      (∃ (before later : List FoundSlot) (from_ : Option Nat), chain = before ++ later ∧
        (∀ c, f.checkpoint = some c → from_ = number c.last ∧
          (∃ front run, before = front ++ run ∧ usable run c) ∧
          ∀ front run rest c', chain = front ++ run ++ rest → usable run c' → later.length ≤ rest.length) ∧
        (f.checkpoint = none → from_ = none ∧ (∀ x ∈ before, number x = none) ∧
          (∀ x ∈ later.head?, number x ≠ none) ∧
          ∀ front run rest c', chain = front ++ run ++ rest → ¬ usable run c') ∧
        f.slots.Sublist later ∧ (∀ x ∈ f.slots, number x ≠ none) ∧
        (∀ l x, from_ = some l → f.slots.head? = some x → number x = some (l + 1)) ∧
        (∀ (k : Nat) (x y : FoundSlot), f.slots[k]? = some x → f.slots[k + 1]? = some y →
          ∃ n, number x = some n ∧ number y = some (n + 1)) ∧
        -- where replay stops
        ∀ (front back : List FoundSlot) (y : FoundSlot), later = front ++ y :: back →
          f.slots.getLast? = front.getLast? → (f.slots = [] → front = []) →
          let goesOn (x : FoundSlot) : Prop := ∃ n, number x = some n ∧
            ∀ l, (f.lastSlot.bind number) = some l → n = l + 1
          ¬ goesOn y ∧ (y.page = f.head.1 ∨ ∀ z ∈ (back.dropWhile fun x => x.page == y.page).head?, ¬ goesOn z)) ∧
      f.lastSlot = f.slots.getLast?.or (f.checkpoint.map FoundCheckpoint.last) ∧
      -- stock and sessions
      (let records := f.slots.filterMap record
       (f.checkpoint = none → f.stock = (records.foldl Stock.apply emptyStock).recovered ∧
         f.sessions = (records.foldl SessionUnit.replay emptySessions).recovered) ∧
       ∀ c, f.checkpoint = some c →
         f.stock = (records.foldl Stock.apply (snapshotStock c.records)).recovered ∧
         f.sessions = (records.foldl SessionUnit.replay
           ((c.records.filterMap (snapshotSession c.records)).foldl SessionUnit.add
             { emptySessions with nextNumber := c.nextSession })).recovered)) ∧
  ∀ (cause : RestartCause) (s : State),
    (s.phase = .restarting cause →
      (s.store.valid = true → exec .recoveryBegins s = .next { s with
        phase := .recovering cause true, store := { s.store with write := some (.cause cause) } }) ∧
      (s.store.valid = false → exec .recoveryBegins s = .next { s with
        phase := .recovering cause true
        store := { valid := false, tables := factoryTables, reporting := false, causes := noCauses
                   write := some (.cause cause) }
        journal := { s.journal with memory := [] } })) ∧
    ∀ other, s.phase = .recovering cause true → s.store.write = some (.cause other) →
      let found := findReplay s.journal.memory
      let lastSequence : Nat := (found.map Found.lastSequence).getD 0
      ∃ u : State, exec .causeWriteEnds s = .next u.settle ∧ u.phase = .running ∧ u.supply = s.supply ∧
        u.store = { s.store with valid := true, causes := s.store.causes.put cause.place true, write := none } ∧
        (found = none → u.stock = s.stock ∧ u.sessions = s.sessions ∧ u.journal.memory = s.journal.memory ∧
          u.journal.page = 0 ∧ u.journal.slot = 0 ∧ u.journal.pageSequence = 1 ∧ u.journal.nextSequence = 1 ∧
          u.journal.writer = .erasing ∧ u.journal.checkpointDue = true) ∧
        (∀ f, found = some f → u.stock = f.stock ∧ u.standing = f.stock ∧ u.sessions = f.sessions ∧
          (∀ p b, u.loaded p = some b → b.state = .unverified ∧ b.inHand = 0) ∧ u.sessions.log = [] ∧
          (∀ i x, u.sessions.table.at i = some x → x.state = .open_ → x.recovered = true) ∧
          (∀ i k x y, i < k → u.sessions.table.at i = some x → u.sessions.table.at k = some y → x.number ≤ y.number) ∧
          (lastSequence < 4294967295 ∨ cause ≠ .resetFrame →
            -- the last good record, or the header where there is none
            let last : Fin 128 × Nat × Nat :=
              (f.lastSlot.map fun x => (x.page, x.pageSequence, x.slot.val)).getD (f.head.1, f.head.2, 0)
            let free (k : Fin 16) : Prop :=
              k.val = last.2.2 + 1 ∧ slotContents (readSlot s.journal.memory last.1 k) = .erased
            let entered : Prop := ∀ k, ¬ free k
            let due : Prop := f.checkpoint = none ∨
              (∃ c, f.checkpoint = some c ∧ ¬ (c.beginPage.val < 64 ↔ u.journal.page.val < 64)) ∨
              (entered ∧ (u.journal.page.val = 0 ∨ u.journal.page.val = 64))
            u.journal.nextSequence = lastSequence + 1 ∧ u.journal.memory = s.journal.memory ∧
            (∀ k, free k → u.journal.page = last.1 ∧ u.journal.slot = k ∧ u.journal.pageSequence = last.2.1) ∧
            (entered → u.journal.page = nextPage f.head.1 ∧ u.journal.slot = 0 ∧
              u.journal.pageSequence = f.head.2 + 1) ∧
            (lastSequence < 4294967295 →
              (entered → u.journal.writer = .erasing) ∧
              (f.checkpoint = none → u.journal.checkpointDue = true ∨
                u.journal.writer = .checkpoint u.checkpointRecords false false) ∧
              -- from the journal that a restart leaves
              (s.journal.writer = .idle → s.journal.checkpointDue = false →
                (entered → (u.journal.checkpointDue = true ↔ due)) ∧
                (¬ entered →
                  (due → s.supply = .normal → u.journal.checkpointDue = false ∧
                    u.journal.writer = .checkpoint u.checkpointRecords false false) ∧
                  (due → s.supply = .warning → u.journal.checkpointDue = true ∧ u.journal.writer = .writing) ∧
                  (¬ due → u.journal.checkpointDue = false ∧ u.journal.writer = .writing))))) ∧
          (lastSequence = 4294967295 → cause = .resetFrame → u.journal.memory = [] ∧ u.journal.page = 0 ∧
            u.journal.slot = 0 ∧ u.journal.pageSequence = 1 ∧ u.journal.nextSequence = 1 ∧ u.journal.writer = .erasing ∧
            u.journal.checkpointDue = true)) ∧
        u.journal.queue = s.journal.queue ++ [{ record := .restart cause lastSequence, link := .nothing }] ∧
        u.journal.reserved = s.journal.reserved ∧ u.journal.claims = s.journal.claims ∧
        u.jobs = s.jobs ∧ u.queues = s.queues ∧ u.nextRequest = s.nextRequest ∧ u.pending = s.pending ∧
        (let restart : FaultRecord :=
          { condition := .office .restart, priority := .urgent, present := false, occurrences := 1, first := 1, last := 1 }
         let waiting : List Report := s.monitor.waiting ++
          if lastSequence = 4294967295 ∧ cause ≠ .resetFrame then [.occurred (.office .journalFault)] else []
         let v : State := waiting.foldl (fun v r => match r with | .occurred c => v.raise c | .ended c => v.endCondition c)
          { s with phase := .running, store := u.store
                   monitor := { s.monitor with faults := [restart], nextSequence := 2, waiting := [] } }
         (waiting = [] → u.monitor.nextSequence = 2 ∧ u.monitor.faults = [restart]) ∧
         u.monitor = { s.monitor with faults := v.monitor.faults, nextSequence := v.monitor.nextSequence, waiting := [] } ∧
         ∀ w : Window, u.office.at w = { s.office.at w with sendList := (v.office.at w).sendList }) ∧
        (lastSequence = 4294967295 → cause ≠ .resetFrame → u.journal.writer = .stopped) ∧
        (∀ p : Printer,
          let x := u.ports.at p
          (s.function p = .off → x.state = .unused ∧ x.attachTimer = none) ∧
          (s.function p ≠ .off → x.state = .attaching ∧ x.attachTimer = some (s.printerEntry p).selectTimeout) ∧
          x.entries = [] ∧ x.audit = [] ∧ x.slips = [] ∧ x.jamLatch = false ∧ x.lastStatus = none ∧
          ∀ r : HoldReason, x.holds r = true ↔ s.function p = .ticket ∧
            ((r = .noStock ∧ (u.loaded p = none ∨ ∃ b, u.loaded p = some b ∧ b.state = .exhausted)) ∨
              (r = .stockUnverified ∧ u.loaded p ≠ none))) ∧
        u.sent = s.sent ++ (allPrinters.filter fun p => s.function p != .off).map fun p => (p, .enquire)
end

