-- ==== Sys2Proof/Laws/State.lean ====
section
/-! SUPPORT. What each record update leaves in each field: one lemma per field per update, true by rfl. -/

namespace Sys2Proof.Machine

/-! ### State.setPort -/

@[simp] theorem State.setPort_phase (s : State) (p : Printer) (x : Port) : (s.setPort p x).phase = s.phase := rfl
@[simp] theorem State.setPort_supply (s : State) (p : Printer) (x : Port) : (s.setPort p x).supply = s.supply := rfl
@[simp] theorem State.setPort_office (s : State) (p : Printer) (x : Port) : (s.setPort p x).office = s.office := rfl
@[simp] theorem State.setPort_store (s : State) (p : Printer) (x : Port) : (s.setPort p x).store = s.store := rfl
@[simp] theorem State.setPort_jobs (s : State) (p : Printer) (x : Port) : (s.setPort p x).jobs = s.jobs := rfl
@[simp] theorem State.setPort_queues (s : State) (p : Printer) (x : Port) : (s.setPort p x).queues = s.queues := rfl
@[simp] theorem State.setPort_ports (s : State) (p : Printer) (x : Port) :
    (s.setPort p x).ports = s.ports.put p x := rfl
@[simp] theorem State.setPort_stock (s : State) (p : Printer) (x : Port) : (s.setPort p x).stock = s.stock := rfl
@[simp] theorem State.setPort_standing (s : State) (p : Printer) (x : Port) :
    (s.setPort p x).standing = s.standing := rfl
@[simp] theorem State.setPort_sessions (s : State) (p : Printer) (x : Port) :
    (s.setPort p x).sessions = s.sessions := rfl
@[simp] theorem State.setPort_monitor (s : State) (p : Printer) (x : Port) :
    (s.setPort p x).monitor = s.monitor := rfl
@[simp] theorem State.setPort_journal (s : State) (p : Printer) (x : Port) :
    (s.setPort p x).journal = s.journal := rfl
@[simp] theorem State.setPort_sent (s : State) (p : Printer) (x : Port) : (s.setPort p x).sent = s.sent := rfl
@[simp] theorem State.setPort_nextRequest (s : State) (p : Printer) (x : Port) :
    (s.setPort p x).nextRequest = s.nextRequest := rfl
@[simp] theorem State.setPort_draws (s : State) (p : Printer) (x : Port) : (s.setPort p x).draws = s.draws := rfl
@[simp] theorem State.setPort_pending (s : State) (p : Printer) (x : Port) :
    (s.setPort p x).pending = s.pending := rfl

/-! ### State.setOffice -/

@[simp] theorem State.setOffice_phase (s : State) (w : Window) (x : OfficePort) :
    (s.setOffice w x).phase = s.phase := rfl
@[simp] theorem State.setOffice_supply (s : State) (w : Window) (x : OfficePort) :
    (s.setOffice w x).supply = s.supply := rfl
@[simp] theorem State.setOffice_office (s : State) (w : Window) (x : OfficePort) :
    (s.setOffice w x).office = s.office.put w x := rfl
@[simp] theorem State.setOffice_store (s : State) (w : Window) (x : OfficePort) :
    (s.setOffice w x).store = s.store := rfl
@[simp] theorem State.setOffice_jobs (s : State) (w : Window) (x : OfficePort) :
    (s.setOffice w x).jobs = s.jobs := rfl
@[simp] theorem State.setOffice_queues (s : State) (w : Window) (x : OfficePort) :
    (s.setOffice w x).queues = s.queues := rfl
@[simp] theorem State.setOffice_ports (s : State) (w : Window) (x : OfficePort) :
    (s.setOffice w x).ports = s.ports := rfl
@[simp] theorem State.setOffice_stock (s : State) (w : Window) (x : OfficePort) :
    (s.setOffice w x).stock = s.stock := rfl
@[simp] theorem State.setOffice_standing (s : State) (w : Window) (x : OfficePort) :
    (s.setOffice w x).standing = s.standing := rfl
@[simp] theorem State.setOffice_sessions (s : State) (w : Window) (x : OfficePort) :
    (s.setOffice w x).sessions = s.sessions := rfl
@[simp] theorem State.setOffice_monitor (s : State) (w : Window) (x : OfficePort) :
    (s.setOffice w x).monitor = s.monitor := rfl
@[simp] theorem State.setOffice_journal (s : State) (w : Window) (x : OfficePort) :
    (s.setOffice w x).journal = s.journal := rfl
@[simp] theorem State.setOffice_sent (s : State) (w : Window) (x : OfficePort) :
    (s.setOffice w x).sent = s.sent := rfl
@[simp] theorem State.setOffice_nextRequest (s : State) (w : Window) (x : OfficePort) :
    (s.setOffice w x).nextRequest = s.nextRequest := rfl
@[simp] theorem State.setOffice_draws (s : State) (w : Window) (x : OfficePort) :
    (s.setOffice w x).draws = s.draws := rfl
@[simp] theorem State.setOffice_pending (s : State) (w : Window) (x : OfficePort) :
    (s.setOffice w x).pending = s.pending := rfl

/-! ### State.setJob -/

@[simp] theorem State.setJob_phase (s : State) (j : JobNumber) (x : Option Job) :
    (s.setJob j x).phase = s.phase := rfl
@[simp] theorem State.setJob_supply (s : State) (j : JobNumber) (x : Option Job) :
    (s.setJob j x).supply = s.supply := rfl
@[simp] theorem State.setJob_office (s : State) (j : JobNumber) (x : Option Job) :
    (s.setJob j x).office = s.office := rfl
@[simp] theorem State.setJob_store (s : State) (j : JobNumber) (x : Option Job) :
    (s.setJob j x).store = s.store := rfl
@[simp] theorem State.setJob_jobs (s : State) (j : JobNumber) (x : Option Job) :
    (s.setJob j x).jobs = s.jobs.put j x := rfl
@[simp] theorem State.setJob_queues (s : State) (j : JobNumber) (x : Option Job) :
    (s.setJob j x).queues = s.queues := rfl
@[simp] theorem State.setJob_ports (s : State) (j : JobNumber) (x : Option Job) :
    (s.setJob j x).ports = s.ports := rfl
@[simp] theorem State.setJob_stock (s : State) (j : JobNumber) (x : Option Job) :
    (s.setJob j x).stock = s.stock := rfl
@[simp] theorem State.setJob_standing (s : State) (j : JobNumber) (x : Option Job) :
    (s.setJob j x).standing = s.standing := rfl
@[simp] theorem State.setJob_sessions (s : State) (j : JobNumber) (x : Option Job) :
    (s.setJob j x).sessions = s.sessions := rfl
@[simp] theorem State.setJob_monitor (s : State) (j : JobNumber) (x : Option Job) :
    (s.setJob j x).monitor = s.monitor := rfl
@[simp] theorem State.setJob_journal (s : State) (j : JobNumber) (x : Option Job) :
    (s.setJob j x).journal = s.journal := rfl
@[simp] theorem State.setJob_sent (s : State) (j : JobNumber) (x : Option Job) : (s.setJob j x).sent = s.sent := rfl
@[simp] theorem State.setJob_nextRequest (s : State) (j : JobNumber) (x : Option Job) :
    (s.setJob j x).nextRequest = s.nextRequest := rfl
@[simp] theorem State.setJob_draws (s : State) (j : JobNumber) (x : Option Job) :
    (s.setJob j x).draws = s.draws := rfl
@[simp] theorem State.setJob_pending (s : State) (j : JobNumber) (x : Option Job) :
    (s.setJob j x).pending = s.pending := rfl

/-! ### State.setQueue -/

@[simp] theorem State.setQueue_phase (s : State) (p : Printer) (q : List JobNumber) :
    (s.setQueue p q).phase = s.phase := rfl
@[simp] theorem State.setQueue_supply (s : State) (p : Printer) (q : List JobNumber) :
    (s.setQueue p q).supply = s.supply := rfl
@[simp] theorem State.setQueue_office (s : State) (p : Printer) (q : List JobNumber) :
    (s.setQueue p q).office = s.office := rfl
@[simp] theorem State.setQueue_store (s : State) (p : Printer) (q : List JobNumber) :
    (s.setQueue p q).store = s.store := rfl
@[simp] theorem State.setQueue_jobs (s : State) (p : Printer) (q : List JobNumber) :
    (s.setQueue p q).jobs = s.jobs := rfl
@[simp] theorem State.setQueue_queues (s : State) (p : Printer) (q : List JobNumber) :
    (s.setQueue p q).queues = s.queues.put p q := rfl
@[simp] theorem State.setQueue_ports (s : State) (p : Printer) (q : List JobNumber) :
    (s.setQueue p q).ports = s.ports := rfl
@[simp] theorem State.setQueue_stock (s : State) (p : Printer) (q : List JobNumber) :
    (s.setQueue p q).stock = s.stock := rfl
@[simp] theorem State.setQueue_standing (s : State) (p : Printer) (q : List JobNumber) :
    (s.setQueue p q).standing = s.standing := rfl
@[simp] theorem State.setQueue_sessions (s : State) (p : Printer) (q : List JobNumber) :
    (s.setQueue p q).sessions = s.sessions := rfl
@[simp] theorem State.setQueue_monitor (s : State) (p : Printer) (q : List JobNumber) :
    (s.setQueue p q).monitor = s.monitor := rfl
@[simp] theorem State.setQueue_journal (s : State) (p : Printer) (q : List JobNumber) :
    (s.setQueue p q).journal = s.journal := rfl
@[simp] theorem State.setQueue_sent (s : State) (p : Printer) (q : List JobNumber) :
    (s.setQueue p q).sent = s.sent := rfl
@[simp] theorem State.setQueue_nextRequest (s : State) (p : Printer) (q : List JobNumber) :
    (s.setQueue p q).nextRequest = s.nextRequest := rfl
@[simp] theorem State.setQueue_draws (s : State) (p : Printer) (q : List JobNumber) :
    (s.setQueue p q).draws = s.draws := rfl
@[simp] theorem State.setQueue_pending (s : State) (p : Printer) (q : List JobNumber) :
    (s.setQueue p q).pending = s.pending := rfl

/-! ### State.setLoaded -/

@[simp] theorem State.setLoaded_phase (s : State) (p : Printer) (b : Option Batch) :
    (s.setLoaded p b).phase = s.phase := rfl
@[simp] theorem State.setLoaded_supply (s : State) (p : Printer) (b : Option Batch) :
    (s.setLoaded p b).supply = s.supply := rfl
@[simp] theorem State.setLoaded_office (s : State) (p : Printer) (b : Option Batch) :
    (s.setLoaded p b).office = s.office := rfl
@[simp] theorem State.setLoaded_store (s : State) (p : Printer) (b : Option Batch) :
    (s.setLoaded p b).store = s.store := rfl
@[simp] theorem State.setLoaded_jobs (s : State) (p : Printer) (b : Option Batch) :
    (s.setLoaded p b).jobs = s.jobs := rfl
@[simp] theorem State.setLoaded_queues (s : State) (p : Printer) (b : Option Batch) :
    (s.setLoaded p b).queues = s.queues := rfl
@[simp] theorem State.setLoaded_ports (s : State) (p : Printer) (b : Option Batch) :
    (s.setLoaded p b).ports = s.ports := rfl
@[simp] theorem State.setLoaded_stock (s : State) (p : Printer) (b : Option Batch) :
    (s.setLoaded p b).stock = { s.stock with loaded := s.stock.loaded.put p b } := rfl
@[simp] theorem State.setLoaded_standing (s : State) (p : Printer) (b : Option Batch) :
    (s.setLoaded p b).standing = s.standing := rfl
@[simp] theorem State.setLoaded_sessions (s : State) (p : Printer) (b : Option Batch) :
    (s.setLoaded p b).sessions = s.sessions := rfl
@[simp] theorem State.setLoaded_monitor (s : State) (p : Printer) (b : Option Batch) :
    (s.setLoaded p b).monitor = s.monitor := rfl
@[simp] theorem State.setLoaded_journal (s : State) (p : Printer) (b : Option Batch) :
    (s.setLoaded p b).journal = s.journal := rfl
@[simp] theorem State.setLoaded_sent (s : State) (p : Printer) (b : Option Batch) :
    (s.setLoaded p b).sent = s.sent := rfl
@[simp] theorem State.setLoaded_nextRequest (s : State) (p : Printer) (b : Option Batch) :
    (s.setLoaded p b).nextRequest = s.nextRequest := rfl
@[simp] theorem State.setLoaded_draws (s : State) (p : Printer) (b : Option Batch) :
    (s.setLoaded p b).draws = s.draws := rfl
@[simp] theorem State.setLoaded_pending (s : State) (p : Printer) (b : Option Batch) :
    (s.setLoaded p b).pending = s.pending := rfl

/-! ### State.updatePort -/

@[simp] theorem State.updatePort_phase (s : State) (p : Printer) (f : Port → Port) :
    (s.updatePort p f).phase = s.phase := rfl
@[simp] theorem State.updatePort_supply (s : State) (p : Printer) (f : Port → Port) :
    (s.updatePort p f).supply = s.supply := rfl
@[simp] theorem State.updatePort_office (s : State) (p : Printer) (f : Port → Port) :
    (s.updatePort p f).office = s.office := rfl
@[simp] theorem State.updatePort_store (s : State) (p : Printer) (f : Port → Port) :
    (s.updatePort p f).store = s.store := rfl
@[simp] theorem State.updatePort_jobs (s : State) (p : Printer) (f : Port → Port) :
    (s.updatePort p f).jobs = s.jobs := rfl
@[simp] theorem State.updatePort_queues (s : State) (p : Printer) (f : Port → Port) :
    (s.updatePort p f).queues = s.queues := rfl
@[simp] theorem State.updatePort_ports (s : State) (p : Printer) (f : Port → Port) :
    (s.updatePort p f).ports = s.ports.put p (f (s.ports.at p)) := rfl
@[simp] theorem State.updatePort_stock (s : State) (p : Printer) (f : Port → Port) :
    (s.updatePort p f).stock = s.stock := rfl
@[simp] theorem State.updatePort_standing (s : State) (p : Printer) (f : Port → Port) :
    (s.updatePort p f).standing = s.standing := rfl
@[simp] theorem State.updatePort_sessions (s : State) (p : Printer) (f : Port → Port) :
    (s.updatePort p f).sessions = s.sessions := rfl
@[simp] theorem State.updatePort_monitor (s : State) (p : Printer) (f : Port → Port) :
    (s.updatePort p f).monitor = s.monitor := rfl
@[simp] theorem State.updatePort_journal (s : State) (p : Printer) (f : Port → Port) :
    (s.updatePort p f).journal = s.journal := rfl
@[simp] theorem State.updatePort_sent (s : State) (p : Printer) (f : Port → Port) :
    (s.updatePort p f).sent = s.sent := rfl
@[simp] theorem State.updatePort_nextRequest (s : State) (p : Printer) (f : Port → Port) :
    (s.updatePort p f).nextRequest = s.nextRequest := rfl
@[simp] theorem State.updatePort_draws (s : State) (p : Printer) (f : Port → Port) :
    (s.updatePort p f).draws = s.draws := rfl
@[simp] theorem State.updatePort_pending (s : State) (p : Printer) (f : Port → Port) :
    (s.updatePort p f).pending = s.pending := rfl

/-! ### State.updateJournal -/

@[simp] theorem State.updateJournal_phase (s : State) (f : Journal → Journal) :
    (s.updateJournal f).phase = s.phase := rfl
@[simp] theorem State.updateJournal_supply (s : State) (f : Journal → Journal) :
    (s.updateJournal f).supply = s.supply := rfl
@[simp] theorem State.updateJournal_office (s : State) (f : Journal → Journal) :
    (s.updateJournal f).office = s.office := rfl
@[simp] theorem State.updateJournal_store (s : State) (f : Journal → Journal) :
    (s.updateJournal f).store = s.store := rfl
@[simp] theorem State.updateJournal_jobs (s : State) (f : Journal → Journal) :
    (s.updateJournal f).jobs = s.jobs := rfl
@[simp] theorem State.updateJournal_queues (s : State) (f : Journal → Journal) :
    (s.updateJournal f).queues = s.queues := rfl
@[simp] theorem State.updateJournal_ports (s : State) (f : Journal → Journal) :
    (s.updateJournal f).ports = s.ports := rfl
@[simp] theorem State.updateJournal_stock (s : State) (f : Journal → Journal) :
    (s.updateJournal f).stock = s.stock := rfl
@[simp] theorem State.updateJournal_standing (s : State) (f : Journal → Journal) :
    (s.updateJournal f).standing = s.standing := rfl
@[simp] theorem State.updateJournal_sessions (s : State) (f : Journal → Journal) :
    (s.updateJournal f).sessions = s.sessions := rfl
@[simp] theorem State.updateJournal_monitor (s : State) (f : Journal → Journal) :
    (s.updateJournal f).monitor = s.monitor := rfl
@[simp] theorem State.updateJournal_journal (s : State) (f : Journal → Journal) :
    (s.updateJournal f).journal = f s.journal := rfl
@[simp] theorem State.updateJournal_sent (s : State) (f : Journal → Journal) :
    (s.updateJournal f).sent = s.sent := rfl
@[simp] theorem State.updateJournal_nextRequest (s : State) (f : Journal → Journal) :
    (s.updateJournal f).nextRequest = s.nextRequest := rfl
@[simp] theorem State.updateJournal_draws (s : State) (f : Journal → Journal) :
    (s.updateJournal f).draws = s.draws := rfl
@[simp] theorem State.updateJournal_pending (s : State) (f : Journal → Journal) :
    (s.updateJournal f).pending = s.pending := rfl

/-! ### State.updateSessions -/

@[simp] theorem State.updateSessions_phase (s : State) (f : SessionUnit → SessionUnit) :
    (s.updateSessions f).phase = s.phase := rfl
@[simp] theorem State.updateSessions_supply (s : State) (f : SessionUnit → SessionUnit) :
    (s.updateSessions f).supply = s.supply := rfl
@[simp] theorem State.updateSessions_office (s : State) (f : SessionUnit → SessionUnit) :
    (s.updateSessions f).office = s.office := rfl
@[simp] theorem State.updateSessions_store (s : State) (f : SessionUnit → SessionUnit) :
    (s.updateSessions f).store = s.store := rfl
@[simp] theorem State.updateSessions_jobs (s : State) (f : SessionUnit → SessionUnit) :
    (s.updateSessions f).jobs = s.jobs := rfl
@[simp] theorem State.updateSessions_queues (s : State) (f : SessionUnit → SessionUnit) :
    (s.updateSessions f).queues = s.queues := rfl
@[simp] theorem State.updateSessions_ports (s : State) (f : SessionUnit → SessionUnit) :
    (s.updateSessions f).ports = s.ports := rfl
@[simp] theorem State.updateSessions_stock (s : State) (f : SessionUnit → SessionUnit) :
    (s.updateSessions f).stock = s.stock := rfl
@[simp] theorem State.updateSessions_standing (s : State) (f : SessionUnit → SessionUnit) :
    (s.updateSessions f).standing = s.standing := rfl
@[simp] theorem State.updateSessions_sessions (s : State) (f : SessionUnit → SessionUnit) :
    (s.updateSessions f).sessions = f s.sessions := rfl
@[simp] theorem State.updateSessions_monitor (s : State) (f : SessionUnit → SessionUnit) :
    (s.updateSessions f).monitor = s.monitor := rfl
@[simp] theorem State.updateSessions_journal (s : State) (f : SessionUnit → SessionUnit) :
    (s.updateSessions f).journal = s.journal := rfl
@[simp] theorem State.updateSessions_sent (s : State) (f : SessionUnit → SessionUnit) :
    (s.updateSessions f).sent = s.sent := rfl
@[simp] theorem State.updateSessions_nextRequest (s : State) (f : SessionUnit → SessionUnit) :
    (s.updateSessions f).nextRequest = s.nextRequest := rfl
@[simp] theorem State.updateSessions_draws (s : State) (f : SessionUnit → SessionUnit) :
    (s.updateSessions f).draws = s.draws := rfl
@[simp] theorem State.updateSessions_pending (s : State) (f : SessionUnit → SessionUnit) :
    (s.updateSessions f).pending = s.pending := rfl

/-! ### State.modifySession -/

@[simp] theorem State.modifySession_phase (s : State) (n : Nat) (f : Session → Session) :
    (s.modifySession n f).phase = s.phase := rfl
@[simp] theorem State.modifySession_supply (s : State) (n : Nat) (f : Session → Session) :
    (s.modifySession n f).supply = s.supply := rfl
@[simp] theorem State.modifySession_office (s : State) (n : Nat) (f : Session → Session) :
    (s.modifySession n f).office = s.office := rfl
@[simp] theorem State.modifySession_store (s : State) (n : Nat) (f : Session → Session) :
    (s.modifySession n f).store = s.store := rfl
@[simp] theorem State.modifySession_jobs (s : State) (n : Nat) (f : Session → Session) :
    (s.modifySession n f).jobs = s.jobs := rfl
@[simp] theorem State.modifySession_queues (s : State) (n : Nat) (f : Session → Session) :
    (s.modifySession n f).queues = s.queues := rfl
@[simp] theorem State.modifySession_ports (s : State) (n : Nat) (f : Session → Session) :
    (s.modifySession n f).ports = s.ports := rfl
@[simp] theorem State.modifySession_stock (s : State) (n : Nat) (f : Session → Session) :
    (s.modifySession n f).stock = s.stock := rfl
@[simp] theorem State.modifySession_standing (s : State) (n : Nat) (f : Session → Session) :
    (s.modifySession n f).standing = s.standing := rfl
@[simp] theorem State.modifySession_sessions (s : State) (n : Nat) (f : Session → Session) :
    (s.modifySession n f).sessions = s.sessions.modify n f := rfl
@[simp] theorem State.modifySession_monitor (s : State) (n : Nat) (f : Session → Session) :
    (s.modifySession n f).monitor = s.monitor := rfl
@[simp] theorem State.modifySession_journal (s : State) (n : Nat) (f : Session → Session) :
    (s.modifySession n f).journal = s.journal := rfl
@[simp] theorem State.modifySession_sent (s : State) (n : Nat) (f : Session → Session) :
    (s.modifySession n f).sent = s.sent := rfl
@[simp] theorem State.modifySession_nextRequest (s : State) (n : Nat) (f : Session → Session) :
    (s.modifySession n f).nextRequest = s.nextRequest := rfl
@[simp] theorem State.modifySession_draws (s : State) (n : Nat) (f : Session → Session) :
    (s.modifySession n f).draws = s.draws := rfl
@[simp] theorem State.modifySession_pending (s : State) (n : Nat) (f : Session → Session) :
    (s.modifySession n f).pending = s.pending := rfl

/-! ### State.transmit -/

@[simp] theorem State.transmit_phase (s : State) (p : Printer) (m : Message) : (s.transmit p m).phase = s.phase := rfl
@[simp] theorem State.transmit_supply (s : State) (p : Printer) (m : Message) :
    (s.transmit p m).supply = s.supply := rfl
@[simp] theorem State.transmit_office (s : State) (p : Printer) (m : Message) :
    (s.transmit p m).office = s.office := rfl
@[simp] theorem State.transmit_store (s : State) (p : Printer) (m : Message) : (s.transmit p m).store = s.store := rfl
@[simp] theorem State.transmit_jobs (s : State) (p : Printer) (m : Message) : (s.transmit p m).jobs = s.jobs := rfl
@[simp] theorem State.transmit_queues (s : State) (p : Printer) (m : Message) :
    (s.transmit p m).queues = s.queues := rfl
@[simp] theorem State.transmit_ports (s : State) (p : Printer) (m : Message) : (s.transmit p m).ports = s.ports := rfl
@[simp] theorem State.transmit_stock (s : State) (p : Printer) (m : Message) : (s.transmit p m).stock = s.stock := rfl
@[simp] theorem State.transmit_standing (s : State) (p : Printer) (m : Message) :
    (s.transmit p m).standing = s.standing := rfl
@[simp] theorem State.transmit_sessions (s : State) (p : Printer) (m : Message) :
    (s.transmit p m).sessions = s.sessions := rfl
@[simp] theorem State.transmit_monitor (s : State) (p : Printer) (m : Message) :
    (s.transmit p m).monitor = s.monitor := rfl
@[simp] theorem State.transmit_journal (s : State) (p : Printer) (m : Message) :
    (s.transmit p m).journal = s.journal := rfl
@[simp] theorem State.transmit_sent (s : State) (p : Printer) (m : Message) :
    (s.transmit p m).sent = s.sent ++ [(p, m)] := rfl
@[simp] theorem State.transmit_nextRequest (s : State) (p : Printer) (m : Message) :
    (s.transmit p m).nextRequest = s.nextRequest := rfl
@[simp] theorem State.transmit_draws (s : State) (p : Printer) (m : Message) : (s.transmit p m).draws = s.draws := rfl
@[simp] theorem State.transmit_pending (s : State) (p : Printer) (m : Message) :
    (s.transmit p m).pending = s.pending := rfl

/-! ### State.queueFrame -/

@[simp] theorem State.queueFrame_phase (s : State) (w : Window) (f : OutFrame) :
    (s.queueFrame w f).phase = s.phase := rfl
@[simp] theorem State.queueFrame_supply (s : State) (w : Window) (f : OutFrame) :
    (s.queueFrame w f).supply = s.supply := rfl
@[simp] theorem State.queueFrame_office (s : State) (w : Window) (f : OutFrame) :
    (s.queueFrame w f).office = s.office.put w { s.office.at w with sendList := (s.office.at w).sendList ++ [f] } := rfl
@[simp] theorem State.queueFrame_store (s : State) (w : Window) (f : OutFrame) :
    (s.queueFrame w f).store = s.store := rfl
@[simp] theorem State.queueFrame_jobs (s : State) (w : Window) (f : OutFrame) :
    (s.queueFrame w f).jobs = s.jobs := rfl
@[simp] theorem State.queueFrame_queues (s : State) (w : Window) (f : OutFrame) :
    (s.queueFrame w f).queues = s.queues := rfl
@[simp] theorem State.queueFrame_ports (s : State) (w : Window) (f : OutFrame) :
    (s.queueFrame w f).ports = s.ports := rfl
@[simp] theorem State.queueFrame_stock (s : State) (w : Window) (f : OutFrame) :
    (s.queueFrame w f).stock = s.stock := rfl
@[simp] theorem State.queueFrame_standing (s : State) (w : Window) (f : OutFrame) :
    (s.queueFrame w f).standing = s.standing := rfl
@[simp] theorem State.queueFrame_sessions (s : State) (w : Window) (f : OutFrame) :
    (s.queueFrame w f).sessions = s.sessions := rfl
@[simp] theorem State.queueFrame_monitor (s : State) (w : Window) (f : OutFrame) :
    (s.queueFrame w f).monitor = s.monitor := rfl
@[simp] theorem State.queueFrame_journal (s : State) (w : Window) (f : OutFrame) :
    (s.queueFrame w f).journal = s.journal := rfl
@[simp] theorem State.queueFrame_sent (s : State) (w : Window) (f : OutFrame) :
    (s.queueFrame w f).sent = s.sent := rfl
@[simp] theorem State.queueFrame_nextRequest (s : State) (w : Window) (f : OutFrame) :
    (s.queueFrame w f).nextRequest = s.nextRequest := rfl
@[simp] theorem State.queueFrame_draws (s : State) (w : Window) (f : OutFrame) :
    (s.queueFrame w f).draws = s.draws := rfl
@[simp] theorem State.queueFrame_pending (s : State) (w : Window) (f : OutFrame) :
    (s.queueFrame w f).pending = s.pending := rfl

end Sys2Proof.Machine
end

