-- ==== Sys2Proof/Laws/Quiet.lean ====
section
/-! SUPPORT. What the shared operations leave alone. `Quiet`: nothing is said to anyone and the accounts stand. `Loud`:
answers and notices may be queued and conditions recorded, and the rest stands. Each operation has one lemma; proofs about
commands cite these and do not unfold the operations. -/

namespace Sys2Proof.Machine

/-! ### The relations -/

theorem State.Keeps.refl (s : State) : s.Keeps s := ⟨rfl, rfl, rfl, rfl, rfl, rfl, rfl, rfl, rfl, rfl, id, List.prefix_rfl⟩

theorem State.Keeps.trans {s t u : State} (a : s.Keeps t) (b : t.Keeps u) : s.Keeps u :=
  ⟨b.phase.trans a.phase, b.supply.trans a.supply, b.store.trans a.store, b.draws.trans a.draws,
   b.pending.trans a.pending, b.memory.trans a.memory, b.page.trans a.page, b.slot.trans a.slot,
   b.pageSequence.trans a.pageSequence, b.nextSequence.trans a.nextSequence, fun h => b.stopped (a.stopped h),
   a.records.trans b.records⟩

theorem State.SameBooks.refl (s : State) : s.SameBooks s := ⟨fun _ => rfl, rfl, rfl, rfl, rfl⟩

theorem State.SameBooks.trans {s t u : State} (a : s.SameBooks t) (b : t.SameBooks u) : s.SameBooks u :=
  ⟨fun i => (b.sessions i).trans (a.sessions i), b.log.trans a.log, b.nextNumber.trans a.nextNumber,
   b.standing.trans a.standing, b.write.trans a.write⟩

theorem OfficePort.Served.refl (o : OfficePort) : OfficePort.Served o o := ⟨rfl, List.Sublist.refl _, id⟩

theorem OfficePort.Served.trans {o p q : OfficePort} (a : OfficePort.Served o p) (b : OfficePort.Served p q) :
    OfficePort.Served o q :=
  ⟨b.buffer.trans a.buffer, b.unanswered.trans a.unanswered, fun h => b.notices (a.notices h)⟩

theorem State.OfficeServed.refl (s : State) : s.OfficeServed s := ⟨fun _ => OfficePort.Served.refl _, rfl⟩

theorem State.OfficeServed.trans {s t u : State} (a : s.OfficeServed t) (b : t.OfficeServed u) : s.OfficeServed u :=
  ⟨fun w => (a.ports w).trans (b.ports w), b.nextRequest.trans a.nextRequest⟩

/-- Nothing is said to anyone and the accounts stand. -/
structure State.Quiet (s t : State) : Prop where
  keeps : s.Keeps t
  books : s.SameBooks t
  silent : s.Silent t

/-- Answers and notices may be queued and conditions recorded; the rest stands. -/
structure State.Loud (s t : State) : Prop where
  keeps : s.Keeps t
  books : s.SameBooks t
  office : s.OfficeServed t
  faults : s.faultsDistinct → t.faultsDistinct

theorem State.Quiet.refl (s : State) : s.Quiet s := ⟨.refl s, .refl s, rfl, rfl, rfl⟩

theorem State.Quiet.trans {s t u : State} (a : s.Quiet t) (b : t.Quiet u) : s.Quiet u :=
  ⟨a.keeps.trans b.keeps, a.books.trans b.books, b.silent.office.trans a.silent.office,
   b.silent.nextRequest.trans a.silent.nextRequest, b.silent.monitor.trans a.silent.monitor⟩

theorem State.Loud.refl (s : State) : s.Loud s := ⟨.refl s, .refl s, .refl s, id⟩

theorem State.Loud.trans {s t u : State} (a : s.Loud t) (b : t.Loud u) : s.Loud u :=
  ⟨a.keeps.trans b.keeps, a.books.trans b.books, a.office.trans b.office, fun h => b.faults (a.faults h)⟩

theorem State.Quiet.loud {s t : State} (a : s.Quiet t) : s.Loud t := by
  refine ⟨a.keeps, a.books, ⟨fun w => ?_, a.silent.nextRequest⟩, fun h => ?_⟩
  · rw [a.silent.office]; exact .refl _
  · unfold State.faultsDistinct; rw [a.silent.monitor]; exact h

/-- A fold of steps that are each quiet is quiet. -/
theorem State.Quiet.foldl {α : Type} {f : State → α → State} (h : ∀ (s : State) (a : α), s.Quiet (f s a)) (l : List α) (s : State) :
    s.Quiet (l.foldl f s) := by
  induction l generalizing s with
  | nil => exact .refl s
  | cons a l ih => exact (h s a).trans (ih _)

theorem State.Loud.foldl {α : Type} {f : State → α → State} (h : ∀ (s : State) (a : α), s.Loud (f s a)) (l : List α) (s : State) :
    s.Loud (l.foldl f s) := by
  induction l generalizing s with
  | nil => exact .refl s
  | cons a l ih => exact (h s a).trans (ih _)

/-! ### Record updates -/

/-- A state that differs in ports, jobs, queues, live stock and messages alone. -/
theorem State.Quiet.of_eq {s t : State} (phase : t.phase = s.phase) (supply : t.supply = s.supply)
    (office : t.office = s.office) (store : t.store = s.store) (standing : t.standing = s.standing)
    (sessions : t.sessions = s.sessions) (monitor : t.monitor = s.monitor) (journal : t.journal = s.journal)
    (nextRequest : t.nextRequest = s.nextRequest) (draws : t.draws = s.draws) (pending : t.pending = s.pending) :
    s.Quiet t := by
  refine ⟨⟨phase, supply, ?_, draws, pending, ?_, ?_, ?_, ?_, ?_, ?_, ?_⟩, ⟨fun i => ?_, ?_, ?_, standing, ?_⟩,
    office, nextRequest, monitor⟩
  all_goals simp only [journal, sessions, store]
  · exact id
  · exact List.prefix_rfl

/-! The lemmas below take what is known of the state before the operation, so that they chain from the last operation
to the first. -/

theorem State.setPort_quiet {s₀ s : State} (h : s₀.Quiet s) (p : Printer) (x : Port) : s₀.Quiet (s.setPort p x) :=
  h.trans (by apply State.Quiet.of_eq <;> rfl)

theorem State.updatePort_quiet {s₀ s : State} (h : s₀.Quiet s) (p : Printer) (f : Port → Port) :
    s₀.Quiet (s.updatePort p f) :=
  h.trans (by apply State.Quiet.of_eq <;> rfl)

theorem State.setJob_quiet {s₀ s : State} (h : s₀.Quiet s) (j : JobNumber) (x : Option Job) :
    s₀.Quiet (s.setJob j x) :=
  h.trans (by apply State.Quiet.of_eq <;> rfl)

theorem State.setQueue_quiet {s₀ s : State} (h : s₀.Quiet s) (p : Printer) (q : List JobNumber) :
    s₀.Quiet (s.setQueue p q) :=
  h.trans (by apply State.Quiet.of_eq <;> rfl)

theorem State.setLoaded_quiet {s₀ s : State} (h : s₀.Quiet s) (p : Printer) (b : Option Batch) :
    s₀.Quiet (s.setLoaded p b) :=
  h.trans (by apply State.Quiet.of_eq <;> rfl)

theorem State.setStock_quiet {s₀ s : State} (h : s₀.Quiet s) (k : Stock) : s₀.Quiet { s with stock := k } :=
  h.trans (by apply State.Quiet.of_eq <;> rfl)

theorem State.transmit_quiet {s₀ s : State} (h : s₀.Quiet s) (p : Printer) (m : Message) :
    s₀.Quiet (s.transmit p m) :=
  h.trans (by apply State.Quiet.of_eq <;> rfl)

/-- A change of the journal that leaves memory, head and numbers and does not leave STOPPED. -/
theorem State.updateJournal_quiet {s₀ s : State} (h : s₀.Quiet s) (f : Journal → Journal)
    (memory : (f s.journal).memory = s.journal.memory) (page : (f s.journal).page = s.journal.page)
    (slot : (f s.journal).slot = s.journal.slot) (pageSequence : (f s.journal).pageSequence = s.journal.pageSequence)
    (nextSequence : (f s.journal).nextSequence = s.journal.nextSequence)
    (stopped : s.journal.writer = .stopped → (f s.journal).writer = .stopped)
    (records : s.journal.queue.map Queued.record <+: (f s.journal).queue.map Queued.record) :
    s₀.Quiet (s.updateJournal f) :=
  h.trans ⟨⟨rfl, rfl, rfl, rfl, rfl, memory, page, slot, pageSequence, nextSequence, stopped, records⟩,
    ⟨fun _ => rfl, rfl, rfl, rfl, rfl⟩, rfl, rfl, rfl⟩

theorem SessionUnit.modify_log (u : SessionUnit) (n : Nat) (f : Session → Session) : (u.modify n f).log = u.log := by
  unfold SessionUnit.modify; split <;> rfl

theorem SessionUnit.modify_nextNumber (u : SessionUnit) (n : Nat) (f : Session → Session) :
    (u.modify n f).nextNumber = u.nextNumber := by
  unfold SessionUnit.modify; split <;> rfl

/-- The record at each place after a session is modified: changed where the session stands, else as it was. -/
theorem SessionUnit.modify_at (u : SessionUnit) (n : Nat) (f : Session → Session) (i : Fin 24) :
    (u.modify n f).table.at i =
      if u.find (fun x => x.number == n) = some i then (u.table.at i).map f else u.table.at i := by
  unfold SessionUnit.modify
  split
  · rename_i k hk
    simp only [hk, Option.some.injEq, Vector.at_put]
    split
    · rename_i h; rw [h]
    · rfl
  · rename_i hk
    simp [hk]

/-- A change of a session that keeps its books. -/
theorem State.modifySession_quiet {s₀ s : State} (h : s₀.Quiet s) (n : Nat) (f : Session → Session)
    (same : ∀ x : Session, (f x).books = x.books) : s₀.Quiet (s.modifySession n f) := by
  refine h.trans ⟨⟨rfl, rfl, rfl, rfl, rfl, rfl, rfl, rfl, rfl, rfl, id, List.prefix_rfl⟩, ⟨fun i => ?_, ?_, ?_, rfl, rfl⟩, rfl, rfl, rfl⟩
  · simp only [State.modifySession_sessions, SessionUnit.modify_at]
    split
    · rw [Option.map_map]; congr 1; funext x; exact same x
    · rfl
  · exact SessionUnit.modify_log ..
  · exact SessionUnit.modify_nextNumber ..

/-! ### The journal -/

theorem State.addClaim_quiet {s₀ s : State} (h : s₀.Quiet s) (c : Claim) : s₀.Quiet (s.addClaim c) := by
  apply State.updateJournal_quiet h
  all_goals try (split <;> rfl)
  split <;> exact id

theorem State.withdrawClaim_quiet {s₀ s : State} (h : s₀.Quiet s) (c : Claim) : s₀.Quiet (s.withdrawClaim c) := by
  apply State.updateJournal_quiet h <;> first | rfl | exact id

theorem State.releasePlaces_quiet {s₀ s : State} (h : s₀.Quiet s) (n : Nat) : s₀.Quiet (s.releasePlaces n) := by
  apply State.updateJournal_quiet h <;> first | rfl | exact id

/-- A writer that is not STOPPED may take what is next. -/
theorem State.startNext_quiet {s₀ s : State} (h : s₀.Quiet s) (g : s.journal.writer ≠ .stopped) :
    s₀.Quiet s.startNext := by
  unfold State.startNext State.beginCheckpoint
  split
  all_goals apply State.updateJournal_quiet h
  all_goals first | rfl | exact fun k => absurd k g

theorem State.hand_quiet {s₀ s : State} (h : s₀.Quiet s) (r : JRecord) (link : Link) : s₀.Quiet (s.hand r link) := by
  have idle : ∀ t : State, s₀.Quiet t → s₀.Quiet (if t.journal.writer = .idle then t.startNext else t) := by
    intro t ht
    split
    · rename_i g; exact State.startNext_quiet ht (by rw [g]; exact Writer.noConfusion)
    · exact ht
  have queued : s₀.Quiet (s.updateJournal fun j => { j with queue := j.queue ++ [{ record := r, link }] }) := by
    apply State.updateJournal_quiet h
    all_goals try rfl
    · exact id
    · simp [List.map_append]
  unfold State.hand
  apply idle
  split
  · exact State.modifySession_quiet queued _ _ (fun _ => by rfl)
  · exact queued

theorem State.handOnPlace_quiet {s₀ s : State} (h : s₀.Quiet s) (r : JRecord) (link : Link) :
    s₀.Quiet (s.handOnPlace r link) :=
  State.hand_quiet (State.releasePlaces_quiet h 1) r link

theorem State.signOffTest_quiet {s₀ s : State} (h : s₀.Quiet s) (n : Nat) : s₀.Quiet (s.signOffTest n) := by
  unfold State.signOffTest
  split
  · split
    · exact State.addClaim_quiet (State.modifySession_quiet h _ _ (fun _ => by rfl)) _
    · exact h
  · exact h

theorem State.jobEnded_quiet {s₀ s : State} (h : s₀.Quiet s) (n : Nat) : s₀.Quiet (s.jobEnded n) :=
  State.signOffTest_quiet (State.modifySession_quiet h _ _ (fun _ => by rfl)) _

theorem State.recordEnded_quiet {s₀ s : State} (h : s₀.Quiet s) (n : Nat) : s₀.Quiet (s.recordEnded n) :=
  State.signOffTest_quiet (State.modifySession_quiet h _ _ (fun _ => by rfl)) _

/-! ### Queues, holds and windows -/

theorem State.moveJob_quiet {s₀ s : State} (h : s₀.Quiet s) (j : JobNumber) (job : Job) (q : Printer) (front : Bool) :
    s₀.Quiet (s.moveJob j job q front) :=
  State.setQueue_quiet (State.setJob_quiet (State.setQueue_quiet h _ _) _ _) _ _

/-- A queue considered with no refusal answers no one. -/
theorem State.resolveQueue_quiet {s₀ s : State} (h : s₀.Quiet s) (p : Printer) (concerns : Job → Bool) :
    s₀.Quiet (s.resolveQueue p concerns none) := by
  refine h.trans (State.Quiet.foldl (fun s j => ?_) _ s)
  unfold State.considerJob
  split
  · exact .refl _
  · split
    · split
      · exact State.moveJob_quiet (.refl _) ..
      · rename_i h; cases h
      · exact .refl _
    · exact .refl _

theorem State.enterHeld_quiet {s₀ s : State} (h : s₀.Quiet s) (p : Printer) : s₀.Quiet (s.enterHeld p) :=
  State.resolveQueue_quiet (State.updatePort_quiet h p _) p _

theorem State.addHold_quiet {s₀ s : State} (h : s₀.Quiet s) (p : Printer) (r : HoldReason) :
    s₀.Quiet (s.addHold p r) := by
  unfold State.addHold
  dsimp only
  split
  · exact State.enterHeld_quiet (State.updatePort_quiet h _ _) _
  · exact State.updatePort_quiet h _ _

theorem State.removeHold_quiet {s₀ s : State} (h : s₀.Quiet s) (p : Printer) (r : HoldReason) :
    s₀.Quiet (s.removeHold p r) :=
  State.updatePort_quiet h p _

theorem State.addStockHold_quiet {s₀ s : State} (h : s₀.Quiet s) (p : Printer) (r : HoldReason) :
    s₀.Quiet (s.addStockHold p r) := by
  unfold State.addStockHold
  split
  · exact State.addHold_quiet h ..
  · exact h

theorem State.exhaust_quiet {s₀ s : State} (h : s₀.Quiet s) (p : Printer) (b : Batch) : s₀.Quiet (s.exhaust p b) :=
  State.addClaim_quiet (State.addStockHold_quiet (State.setLoaded_quiet h _ _) _ _) _

theorem State.dropEntry_quiet {s₀ s : State} (h : s₀.Quiet s) (cause : SpoilCause) (p : Printer) (e : Entry) :
    s₀.Quiet (State.dropEntry cause p s e) := by
  unfold State.dropEntry
  split
  · exact h
  · split
    · split
      · exact State.releasePlaces_quiet h _
      · exact State.releasePlaces_quiet (State.handOnPlace_quiet h _ _) _
    · exact State.releasePlaces_quiet h _

theorem State.requeue_quiet {s₀ s : State} (h : s₀.Quiet s) (e : Entry) : s₀.Quiet (s.requeue e) := by
  unfold State.requeue
  split
  · exact h
  · split
    · exact State.setJob_quiet h ..
    · exact h

theorem State.returnJobs_quiet {s₀ s : State} (h : s₀.Quiet s) (p : Printer) (es : List Entry) :
    s₀.Quiet (s.returnJobs p es) :=
  State.setQueue_quiet (h.trans (State.Quiet.foldl (fun t => State.requeue_quiet (.refl t)) es s)) _ _

theorem State.dropEntries_quiet {s₀ s : State} (h : s₀.Quiet s) (cause : SpoilCause) (p : Printer) (es : List Entry) :
    s₀.Quiet (es.foldl (State.dropEntry cause p) s) :=
  h.trans (State.Quiet.foldl (fun t => State.dropEntry_quiet (.refl t) cause p) es s)

theorem State.resolveWindow_quiet {s₀ s : State} (h : s₀.Quiet s) (p : Printer) (cause : SpoilCause) :
    s₀.Quiet (s.resolveWindow p cause) :=
  State.returnJobs_quiet (State.updatePort_quiet (State.dropEntries_quiet h cause p _) _ _) _ _

theorem State.beginAttach_quiet {s₀ s : State} (h : s₀.Quiet s) (p : Printer) : s₀.Quiet (s.beginAttach p) := by
  unfold State.beginAttach
  exact State.updatePort_quiet (State.transmit_quiet h _ _) _ _

theorem State.updateEntry_quiet {s₀ s : State} (h : s₀.Quiet s) (p : Printer) (k : Nat) (f : Entry → Entry) :
    s₀.Quiet (s.updateEntry p k f) :=
  State.updatePort_quiet h ..

theorem State.takePrint_quiet {s₀ s : State} (h : s₀.Quiet s) (p : Printer) (k : Nat) :
    s₀.Quiet (s.takePrint p k) := by
  unfold State.takePrint
  split
  · exact h
  · exact State.setJob_quiet (State.updateEntry_quiet h _ _ _) _ _

theorem State.handLine_quiet {s₀ s : State} (h : s₀.Quiet s) (source a : Printer) (line : Text) :
    s₀.Quiet (s.handLine source a line) := by
  unfold State.handLine
  dsimp only
  split
  · exact State.setPort_quiet h ..
  · exact h

theorem State.takePresent_quiet {s₀ s : State} (h : s₀.Quiet s) (p : Printer) (k : Nat) :
    s₀.Quiet (s.takePresent p k) := by
  unfold State.takePresent
  split
  · exact h
  · split
    · exact h
    · dsimp only
      split
      · exact State.handLine_quiet (State.releasePlaces_quiet (State.handOnPlace_quiet (State.updatePort_quiet
          (State.setJob_quiet h _ _) _ _) _ _) _) _ _ _
      · exact State.releasePlaces_quiet (State.handOnPlace_quiet (State.updatePort_quiet
          (State.setJob_quiet h _ _) _ _) _ _) _

theorem State.latchJam_quiet {s₀ s : State} (h : s₀.Quiet s) (p : Printer) : s₀.Quiet (s.latchJam p) :=
  State.addHold_quiet (State.updatePort_quiet h _ _) _ _

theorem State.takeRollJam_quiet {s₀ s : State} (h : s₀.Quiet s) (p : Printer) (k : Nat) :
    s₀.Quiet (s.takeRollJam p k) :=
  State.latchJam_quiet (State.updatePort_quiet h _ _) _

theorem State.takeRollPrint_quiet {s₀ s : State} (h : s₀.Quiet s) (p : Printer) : s₀.Quiet (s.takeRollPrint p) := by
  unfold State.takeRollPrint
  exact State.updatePort_quiet h _ _

theorem State.handSlip_quiet {s₀ s : State} (h : s₀.Quiet s) (slip : List Text) : s₀.Quiet (s.handSlip slip).1 := by
  unfold State.handSlip
  split
  · exact h
  · rename_i p _
    by_cases g : (s.ports.at p).slips.length < Config.slipQueueSlips
    · simp only [g, if_true]; exact State.updatePort_quiet h _ _
    · simp only [g, if_false]; exact h

theorem State.clearClosing_quiet {s₀ s : State} (h : s₀.Quiet s) (p : Printer) : s₀.Quiet (s.clearClosing p) := by
  unfold State.clearClosing
  split
  · exact State.withdrawClaim_quiet h ..
  · exact h

/-! ### Settling -/

theorem State.testAudit_quiet {s₀ s : State} (h : s₀.Quiet s) (p : Printer) : s₀.Quiet (s.testAudit p) := by
  have gain : s₀.Quiet (if (s.ports.at p).holds .audit then s else s.addHold p .audit) := by
    split
    · exact h
    · exact State.addHold_quiet h ..
  have lose : s₀.Quiet (if (s.ports.at p).holds .audit then s.removeHold p .audit else s) := by
    split
    · exact State.removeHold_quiet h ..
    · exact h
  unfold State.testAudit
  dsimp only
  generalize (if (s.ports.at p).holds .audit then s else s.addHold p .audit) = t at *
  generalize (if (s.ports.at p).holds .audit then s.removeHold p .audit else s) = u at *
  split
  · split
    · exact gain
    · split
      · exact gain
      · split
        · exact lose
        · exact h
  · exact lose

theorem State.sendRoll_quiet {s₀ s : State} (h : s₀.Quiet s) (p : Printer) : s₀.Quiet (s.sendRoll p) := by
  unfold State.sendRoll
  dsimp only
  split
  · split
    · exact State.transmit_quiet (State.setPort_quiet h _ _) _ _
    · exact h
  · exact h

theorem State.sendRolls_quiet {s₀ s : State} (h : s₀.Quiet s) (p : Printer) : s₀.Quiet (s.sendRolls p) :=
  State.sendRoll_quiet (State.sendRoll_quiet (State.sendRoll_quiet (State.sendRoll_quiet h _) _) _) _

theorem State.sendImage_quiet {s₀ s : State} (h : s₀.Quiet s) (p : Printer) : s₀.Quiet (s.sendImage p) := by
  unfold State.sendImage
  dsimp only
  split
  · split
    · exact State.transmit_quiet (State.setPort_quiet (State.setJob_quiet (State.setQueue_quiet h _ _) _ _) _ _) _ _
    · exact h
  · exact h

theorem State.refreshClaim_quiet {s₀ s : State} (h : s₀.Quiet s) (p : Printer) : s₀.Quiet (s.refreshClaim p) := by
  unfold State.refreshClaim
  split
  · exact State.addClaim_quiet h ..
  · exact State.withdrawClaim_quiet h ..

theorem State.grant_quiet {s₀ s : State} (h : s₀.Quiet s) (c : Claim) : s₀.Quiet (s.grant c) := by
  have h := State.withdrawClaim_quiet h c
  unfold State.grant
  dsimp only
  generalize s.withdrawClaim c = t at *
  split
  · apply State.sendImage_quiet
    apply State.updateJournal_quiet h <;> first | rfl | exact id
  · split
    · exact State.hand_quiet (State.setLoaded_quiet h _ _) _ _
    · exact h
  · split
    · exact State.hand_quiet (State.modifySession_quiet h _ _ (fun _ => by rfl)) _ _
    · exact h

theorem State.testEngines_quiet {s₀ s : State} (h : s₀.Quiet s) : s₀.Quiet s.testEngines := by
  unfold State.testEngines
  refine State.Quiet.trans ?_ (State.Quiet.foldl (fun t => State.refreshClaim_quiet (.refl t)) _ _)
  refine State.Quiet.trans ?_ (State.Quiet.foldl (fun t => State.sendRolls_quiet (.refl t)) _ _)
  exact h.trans (State.Quiet.foldl (fun t => State.testAudit_quiet (.refl t)) _ _)

theorem State.serve_zero (s : State) : State.serve 0 s = s.testEngines := rfl

theorem State.serve_succ (n : Nat) (s : State) :
    State.serve (n + 1) s = s.testEngines.grantOldest (State.serve n) := rfl

theorem State.serve_quiet {s₀ s : State} (h : s₀.Quiet s) (fuel : Nat) : s₀.Quiet (State.serve fuel s) := by
  induction fuel generalizing s with
  | zero => rw [State.serve_zero]; exact State.testEngines_quiet h
  | succ n ih =>
    have h := State.testEngines_quiet h
    rw [State.serve_succ]
    generalize s.testEngines = t at *
    unfold State.grantOldest
    split
    · exact ih (State.grant_quiet h _)
    · exact h

/-- Whether an engine has a claim on the list after its refresh: when its gate holds. -/
theorem State.refreshClaim_mem (s : State) (p q : Printer) :
    Claim.engine q ∈ (s.refreshClaim p).journal.claims ↔
      (if p = q then s.gate q = true else Claim.engine q ∈ s.journal.claims) := by
  unfold State.refreshClaim State.addClaim State.withdrawClaim
  by_cases e : p = q
  · subst e
    rw [if_pos rfl]
    by_cases g : s.gate p = true
    · rw [if_pos g]
      simp only [State.updateJournal_journal, g, iff_true]
      split
      · rename_i h; simpa using h
      · simp
    · rw [if_neg g]
      simp [State.updateJournal_journal, g]
  · rw [if_neg e]
    split
    · simp only [State.updateJournal_journal]
      split
      · rfl
      · simp only [List.mem_append, List.mem_singleton, Claim.engine.injEq]
        exact ⟨fun h => h.resolve_right fun k => e k.symm, Or.inl⟩
    · simp only [State.updateJournal_journal, List.mem_filter, bne_iff_ne, ne_eq, Claim.engine.injEq, and_iff_left_iff_imp]
      exact fun _ k => e k.symm

/-- A refresh changes no gate. -/
theorem State.refreshClaim_gate (s : State) (p q : Printer) : (s.refreshClaim p).gate q = s.gate q := by
  unfold State.refreshClaim State.addClaim State.withdrawClaim
  split <;> rfl

/-- After the tests an engine has a claim exactly when its gate holds (R157, R158). -/
theorem State.testEngines_claims (s : State) (p : Printer) (h : Claim.engine p ∈ s.testEngines.journal.claims) :
    s.testEngines.gate p = true := by
  have fold : ∀ (l : List Printer) (s : State), (∀ q, q ∉ l → Claim.engine q ∈ s.journal.claims → s.gate q = true) →
      ∀ q, Claim.engine q ∈ (l.foldl State.refreshClaim s).journal.claims →
        (l.foldl State.refreshClaim s).gate q = true := by
    intro l
    induction l with
    | nil => exact fun s h q => h q List.not_mem_nil
    | cons p l ih =>
      intro s h
      apply ih
      intro q hq m
      rw [State.refreshClaim_gate]
      rw [State.refreshClaim_mem] at m
      by_cases e : p = q
      · rw [if_pos e] at m; exact m
      · rw [if_neg e] at m
        exact h q (fun k => by rcases List.mem_cons.mp k with k | k; exact e k.symm; exact hq k) m
  have start : ∀ (s : State), ∀ q, q ∉ allPrinters → Claim.engine q ∈ s.journal.claims → s.gate q = true :=
    fun _ q hq => absurd (by revert q; decide) hq
  have last : ∃ t : State, s.testEngines = allPrinters.foldl State.refreshClaim t := ⟨_, by unfold State.testEngines; rfl⟩
  obtain ⟨t, e⟩ := last
  rw [e] at h ⊢
  exact fold allPrinters t (start t) p h

/-- What holds between every state and itself, chains, and holds across the four tests and a grant that the tests allow
holds across settling. -/
theorem State.settle_induct {R : State → State → Prop} (refl : ∀ s, R s s) (trans : ∀ s t u, R s t → R t u → R s u)
    (audit : ∀ (s : State) (p : Printer), R s (s.testAudit p)) (roll : ∀ (s : State) (p : Printer), R s (s.sendRoll p))
    (claim : ∀ (s : State) (p : Printer), R s (s.refreshClaim p))
    (grant : ∀ (s : State) (c : Claim), s.journal.grantable = some c → (∀ p, c = .engine p → s.gate p = true) →
      R s (s.grant c))
    (s : State) : R s s.settle := by
  have fold : ∀ (f : State → Printer → State), (∀ s p, R s (f s p)) → ∀ (l : List Printer) (s : State),
      R s (l.foldl f s) := by
    intro f h l
    induction l with
    | nil => exact fun s => refl s
    | cons p l ih => exact fun s => trans _ _ _ (h s p) (ih _)
  have rolls : ∀ (s : State) (p : Printer), R s (s.sendRolls p) := fun s p =>
    trans _ _ _ (trans _ _ _ (trans _ _ _ (roll _ p) (roll _ p)) (roll _ p)) (roll _ p)
  have tests : ∀ s : State, R s s.testEngines := fun s =>
    trans _ _ _ (trans _ _ _ (fold _ audit _ _) (fold _ rolls _ _)) (fold _ claim _ _)
  have served : ∀ (n : Nat) (s : State), R s (State.serve n s) := by
    intro n
    induction n with
    | zero => intro s; rw [State.serve_zero]; exact tests s
    | succ n ih =>
      intro s
      rw [State.serve_succ]
      have h := tests s
      have k := fun p => State.testEngines_claims s p
      generalize s.testEngines = t at *
      unfold State.grantOldest
      split
      · rename_i c hc
        refine trans _ _ _ (trans _ _ _ h (grant _ _ hc fun p e => k p ?_)) (ih _)
        subst e
        unfold Journal.grantable at hc
        split at hc
        · rename_i m
          split at hc
          · cases hc; rw [m]; exact List.mem_cons_self
          · cases hc
        · cases hc
      · exact h
  unfold State.settle
  exact served _ s

theorem State.settle_quiet {s₀ s : State} (h : s₀.Quiet s) : s₀.Quiet s.settle := by
  unfold State.settle
  exact State.serve_quiet h _

end Sys2Proof.Machine
end

