-- ==== Sys2Proof/Laws/Loud.lean ====
section
/-! SUPPORT. What the operations that answer, notice and record leave alone: one lemma per operation, chained like those of
Laws/Quiet.lean. -/

namespace Sys2Proof.Machine

/-! ### Office ports -/

/-- A port changed so that its line sees only answers, notices and closed requests. -/
theorem State.setOffice_loud {s₀ s : State} (h : s₀.Loud s) (w : Window) (x : OfficePort)
    (served : OfficePort.Served (s.office.at w) x) : s₀.Loud (s.setOffice w x) := by
  refine h.trans ⟨⟨rfl, rfl, rfl, rfl, rfl, rfl, rfl, rfl, rfl, rfl, id, List.prefix_rfl⟩, ⟨fun _ => rfl, rfl, rfl, rfl, rfl⟩,
    ⟨fun v => ?_, rfl⟩, id⟩
  simp only [State.setOffice_office, Vector.at_put]
  split
  · rename_i e; rw [← e]; exact served
  · exact .refl _

theorem OfficePort.close_served (o : OfficePort) (number : Option Nat) : OfficePort.Served o (o.close number) := by
  unfold OfficePort.close
  split
  · exact ⟨rfl, List.filter_sublist, id⟩
  · exact .refl _

theorem State.answer_loud {s₀ s : State} (h : s₀.Loud s) (r : Reply) (code : AnswerCode) (figures : Figures) :
    s₀.Loud (s.answer r code figures) := by
  apply State.setOffice_loud h
  refine (OfficePort.close_served _ r.number).trans ⟨rfl, List.Sublist.refl _, fun g => ?_⟩
  simpa [List.countP_append, OutFrame.isNotice] using g

theorem State.refuse_loud {s₀ s : State} (h : s₀.Loud s) (r : Reply) (code : AnswerCode) : s₀.Loud (s.refuse r code) :=
  State.answer_loud h _ _ _

theorem State.answerIf_loud {s₀ s : State} (h : s₀.Loud s) (r : Option Reply) (code : AnswerCode) (figures : Figures) :
    s₀.Loud (s.answerIf r code figures) := by
  unfold State.answerIf
  split
  · exact State.answer_loud h _ _ _
  · exact h

/-! ### Conditions -/

/-- A change of the monitor that keeps one record per condition. -/
theorem State.setMonitor_loud {s₀ s : State} (h : s₀.Loud s) (m : Monitor)
    (distinct : s.faultsDistinct → (m.faults.map FaultRecord.condition).Nodup) :
    s₀.Loud { s with monitor := m } :=
  h.trans ⟨⟨rfl, rfl, rfl, rfl, rfl, rfl, rfl, rfl, rfl, rfl, id, List.prefix_rfl⟩, ⟨fun _ => rfl, rfl, rfl, rfl, rfl⟩,
    ⟨fun _ => .refl _, rfl⟩, distinct⟩

theorem State.queueNotice_loud {s₀ s : State} (h : s₀.Loud s) (c : Condition) (priority : Priority) (n : Nat)
    (w : Window) : s₀.Loud (s.queueNotice (.notice c priority n) w) := by
  unfold State.queueNotice
  dsimp only
  split
  · rename_i g
    apply State.setOffice_loud h
    refine ⟨rfl, List.Sublist.refl _, fun _ => ?_⟩
    simp only [Bool.and_eq_true, decide_eq_true_eq] at g
    have : [OutFrame.notice c priority n].countP OutFrame.isNotice = 1 := by simp [OutFrame.isNotice]
    rw [List.countP_append, this]
    exact g.2
  · exact h

theorem State.notice_loud {s₀ s : State} (h : s₀.Loud s) (c : Condition) : s₀.Loud (s.notice c) := by
  unfold State.notice
  split
  · exact h.trans (State.Loud.foldl (fun t w => State.queueNotice_loud (.refl t) _ _ _ w) _ _)
  · exact h

/-- Recording an occurrence keeps one record per condition: the record queued is updated, or a new one joins the tail. -/
theorem recordedFaults_distinct (faults : List FaultRecord) (c : Condition) (priority : Priority) (n : Nat)
    (h : (faults.map FaultRecord.condition).Nodup) :
    ((recordedFaults faults c priority n).map FaultRecord.condition).Nodup := by
  unfold recordedFaults
  dsimp only
  split
  · rw [List.map_map]
    have : (FaultRecord.condition ∘ fun f : FaultRecord =>
        if f.condition = c then
          { f with priority := priority, present := !c.momentary, occurrences := min 255 (f.occurrences + 1), last := n }
        else f) = FaultRecord.condition := by
      funext f; simp only [Function.comp]; split <;> rfl
    rw [this]; exact h
  · rename_i g
    rw [List.map_append, List.nodup_append]
    refine ⟨h, by simp, ?_⟩
    intro a ha b hb e
    simp only [List.map_cons, List.map_nil, List.mem_singleton] at hb
    subst hb
    rw [List.mem_map] at ha
    obtain ⟨f, hf, rfl⟩ := ha
    exact g (List.any_eq_true.mpr ⟨f, hf, by simp [e]⟩)

theorem State.recordOccurrence_loud {s₀ s : State} (h : s₀.Loud s) (c : Condition) :
    s₀.Loud (s.recordOccurrence c) := by
  unfold State.recordOccurrence
  exact State.notice_loud (State.setMonitor_loud h _ fun g => recordedFaults_distinct _ _ _ _ g) c

theorem State.recordEnding_loud {s₀ s : State} (h : s₀.Loud s) (c : Condition) : s₀.Loud (s.recordEnding c) := by
  unfold State.recordEnding
  refine State.setMonitor_loud h _ fun g => ?_
  dsimp only
  rw [List.map_map]
  have : (FaultRecord.condition ∘ fun f : FaultRecord => if f.condition = c then { f with present := false } else f) =
      FaultRecord.condition := by
    funext f; simp only [Function.comp]; split <;> rfl
  rw [this]; exact g

theorem State.recordReport_loud {s₀ s : State} (h : s₀.Loud s) (r : Report) : s₀.Loud (s.recordReport r) := by
  unfold State.recordReport
  split
  · exact State.recordOccurrence_loud h _
  · exact State.recordEnding_loud h _

theorem State.report_loud {s₀ s : State} (h : s₀.Loud s) (r : Report) : s₀.Loud (s.report r) := by
  unfold State.report
  split
  · exact State.recordReport_loud h _
  · exact State.setMonitor_loud h _ id
  · exact h

theorem State.markPresent_loud {s₀ s : State} (h : s₀.Loud s) (c : Condition) (on : Bool) :
    s₀.Loud (s.markPresent c on) := by
  unfold State.markPresent
  split
  · exact State.setMonitor_loud h _ id
  · exact State.setOffice_loud h _ _ ⟨rfl, List.Sublist.refl _, id⟩
  · exact h
  · exact h

theorem State.raise_loud {s₀ s : State} (h : s₀.Loud s) (c : Condition) : s₀.Loud (s.raise c) :=
  State.report_loud (State.markPresent_loud h _ _) _

theorem State.endCondition_loud {s₀ s : State} (h : s₀.Loud s) (c : Condition) : s₀.Loud (s.endCondition c) :=
  State.report_loud (State.markPresent_loud h _ _) _

theorem State.endLineConditions_loud {s₀ s : State} (h : s₀.Loud s) (w : Window) : s₀.Loud (s.endLineConditions w) := by
  refine h.trans (State.Loud.foldl (fun t k => ?_) _ s)
  split
  · exact State.endCondition_loud (.refl t) _
  · exact .refl t

/-- A quiet operation after what is loud. -/
theorem State.Loud.quiet {s t u : State} (a : s.Loud t) (b : t.Quiet u) : s.Loud u := a.trans b.loud

theorem State.stopJournal_loud {s₀ s : State} (h : s₀.Loud s) : s₀.Loud s.stopJournal := by
  unfold State.stopJournal
  apply State.raise_loud
  apply h.quiet
  apply State.updateJournal_quiet (.refl s) <;> first | rfl | exact fun _ => rfl

/-! ### Jobs and queues -/

theorem State.endJob_loud {s₀ s : State} (h : s₀.Loud s) (j : JobNumber) (job : Job) (code : AnswerCode)
    (figures : Figures) : s₀.Loud (s.endJob j job code figures) :=
  (State.answer_loud (h.quiet (State.setJob_quiet (.refl _) _ _)) _ _ _).quiet (State.jobEnded_quiet (.refl _) _)

theorem State.refuseJob_loud {s₀ s : State} (h : s₀.Loud s) (j : JobNumber) (job : Job) (code : AnswerCode) :
    s₀.Loud (s.refuseJob j job code) :=
  State.endJob_loud (h.quiet (State.setQueue_quiet (.refl _) _ _)) _ _ _ _

theorem State.considerJob_loud {s₀ s : State} (h : s₀.Loud s) (concerns : Job → Bool) (refusal : Option AnswerCode)
    (j : JobNumber) : s₀.Loud (State.considerJob concerns refusal s j) := by
  unfold State.considerJob
  split
  · exact h
  · split
    · split
      · exact h.quiet (State.moveJob_quiet (.refl _) _ _ _ _)
      · exact State.refuseJob_loud h _ _ _
      · exact h
    · exact h

theorem State.resolveQueue_loud {s₀ s : State} (h : s₀.Loud s) (p : Printer) (concerns : Job → Bool)
    (refusal : Option AnswerCode) : s₀.Loud (s.resolveQueue p concerns refusal) :=
  h.trans (State.Loud.foldl (fun t j => State.considerJob_loud (.refl t) concerns refusal j) _ s)

theorem State.refuseQueue_loud {s₀ s : State} (h : s₀.Loud s) (p : Printer) : s₀.Loud (s.refuseQueue p) :=
  State.resolveQueue_loud h _ _ _

/-! ### Serials -/

theorem State.lowStockCrossing_loud {s₀ s : State} (h : s₀.Loud s) (p : Printer) (before after : Nat) :
    s₀.Loud (s.lowStockCrossing p before after) := by
  unfold State.lowStockCrossing
  dsimp only
  split
  · exact State.raise_loud h _
  · exact h

theorem State.lowStockTest_loud {s₀ s : State} (h : s₀.Loud s) (p : Printer) : s₀.Loud (s.lowStockTest p) := by
  unfold State.lowStockTest
  split
  · exact h
  · dsimp only
    split
    · exact State.raise_loud h _
    · split
      · exact State.endCondition_loud h _
      · exact h

theorem State.giveSerial_loud {s₀ s : State} (h : s₀.Loud s) (p : Printer) (b : Batch) :
    s₀.Loud (s.giveSerial p b) := by
  have h := h.quiet (State.setLoaded_quiet (.refl s) p (some b.give))
  unfold State.giveSerial
  dsimp only
  generalize s.setLoaded p (some b.give) = t at *
  apply State.lowStockCrossing_loud
  split
  · exact h.quiet (State.exhaust_quiet (.refl _) _ _)
  · exact h

theorem State.stockMismatch_loud {s₀ s : State} (h : s₀.Loud s) (p : Printer) : s₀.Loud (s.stockMismatch p) := by
  have h := State.raise_loud h (.printer p .stockMismatch)
  unfold State.stockMismatch
  dsimp only
  generalize s.raise (.printer p .stockMismatch) = t at *
  split
  · split
    · exact h.quiet (State.addStockHold_quiet (State.setLoaded_quiet (.refl _) _ _) _ _)
    · exact h
  · exact h

/-! ### Ports -/

theorem State.failPort_loud {s₀ s : State} (h : s₀.Loud s) (p : Printer) (c : Option PrinterFault) :
    s₀.Loud (s.failPort p c) := by
  unfold State.failPort
  dsimp only
  refine State.refuseQueue_loud (State.Loud.quiet ?_ (State.updatePort_quiet (State.resolveWindow_quiet
    (State.withdrawClaim_quiet (.refl _) _) _ _) _ _)) _
  split
  · exact State.raise_loud h _
  · exact h

theorem State.enterAbsent_loud {s₀ s : State} (h : s₀.Loud s) (p : Printer) : s₀.Loud (s.enterAbsent p) := by
  unfold State.enterAbsent
  exact State.refuseQueue_loud (h.quiet (State.updatePort_quiet (.refl _) _ _)) _

theorem State.goAbsent_loud {s₀ s : State} (h : s₀.Loud s) (p : Printer) : s₀.Loud (s.goAbsent p) :=
  State.enterAbsent_loud ((State.raise_loud h _).quiet (State.resolveWindow_quiet
    (State.withdrawClaim_quiet (.refl _) _) _ _)) _

theorem State.takeFeed_loud {s₀ s : State} (h : s₀.Loud s) (p : Printer) (k : Nat) :
    s₀.Loud (s.takeFeed p k) := by
  unfold State.takeFeed
  split
  · exact h
  · split
    · dsimp only
      exact (State.giveSerial_loud h p _).quiet (State.transmit_quiet (State.setJob_quiet (State.updateEntry_quiet
        (.refl _) _ _ _) _ _) _ _)
    · exact State.failPort_loud (State.stockMismatch_loud h _) _ _

theorem State.takeDoubleFeed_loud {s₀ s : State} (h : s₀.Loud s) (p : Printer) (k : Nat) :
    s₀.Loud (s.takeDoubleFeed p k) := by
  unfold State.takeDoubleFeed
  split
  · exact h
  · dsimp only
    split
    · exact (State.giveSerial_loud h p _).quiet (State.handOnPlace_quiet (State.setJob_quiet (State.updateEntry_quiet
        (.refl _) _ _ _) _ _) _ _)
    · exact State.stockMismatch_loud (h.quiet (State.updateEntry_quiet (.refl _) _ _ _)) _

theorem State.settleJammed_loud {s₀ s : State} (h : s₀.Loud s) (p : Printer) (e : Entry) :
    s₀.Loud (s.settleJammed p e) := by
  unfold State.settleJammed
  split
  · exact h
  · split
    · exact h
    · dsimp only
      split
      · split
        · exact h.quiet (State.moveJob_quiet (State.setJob_quiet (.refl s) _ _) _ _ _ _)
        · exact State.refuseJob_loud (h.quiet (State.setJob_quiet (.refl s) _ _)) _ _ _
      · exact h.quiet (State.setJob_quiet (.refl s) _ _)

theorem State.takeJam_loud {s₀ s : State} (h : s₀.Loud s) (p : Printer) (k : Nat) : s₀.Loud (s.takeJam p k) := by
  unfold State.takeJam
  dsimp only
  refine State.Loud.quiet ?_ (State.latchJam_quiet (.refl _) _)
  split
  · exact State.settleJammed_loud (h.quiet (State.returnJobs_quiet (State.updatePort_quiet (State.dropEntries_quiet
      (State.withdrawClaim_quiet (.refl _) _) _ _ _) _ _) _ _)) _ _
  · exact h.quiet (State.returnJobs_quiet (State.updatePort_quiet (State.dropEntries_quiet
      (State.withdrawClaim_quiet (.refl _) _) _ _ _) _ _) _ _)

theorem State.mismatch_loud {s₀ s : State} (h : s₀.Loud s) (p : Printer) (c : PrinterFault) :
    s₀.Loud (s.mismatch p c) := by
  unfold State.mismatch
  split
  · exact (State.failPort_loud h _ _).quiet (State.settle_quiet (.refl _))
  · exact h

theorem State.settle_loud {s₀ s : State} (h : s₀.Loud s) : s₀.Loud s.settle := h.quiet (State.settle_quiet (.refl _))

end Sys2Proof.Machine
end

