-- ==== Sys2Proof/Laws/Memory.lean ====
section
/-! SUPPORT. Journal memory: every operation keeps the canonical form, a read after a write gives the byte written, and a
write leaves every other byte alone. -/

namespace Sys2Proof.Machine

theorem Memory.wf_nil : Memory.wf [] := ⟨List.Pairwise.nil, fun _ h => absurd h List.not_mem_nil⟩

theorem Memory.wf_tail {c : Host.Cell} {m : List Host.Cell} (h : Memory.wf (c :: m)) : Memory.wf m :=
  ⟨(List.pairwise_cons.mp h.1).2, fun d hd => h.2 d (List.mem_cons_of_mem _ hd)⟩

theorem Memory.wf_cons {c : Host.Cell} {m : List Host.Cell} (low : ∀ d ∈ m, c.1 < d.1)
    (good : c.2 ≠ Memory.erased ∧ c.1 < Memory.size) (h : Memory.wf m) : Memory.wf (c :: m) :=
  ⟨List.pairwise_cons.mpr ⟨low, h.1⟩, fun d hd => by
    rcases List.mem_cons.mp hd with rfl | hd
    · exact good
    · exact h.2 d hd⟩

/-- Every entry after a write is the byte written or was there before. -/
theorem Memory.mem_write {m : List Host.Cell} {a : Nat} {b : Byte} {c : Host.Cell} (h : c ∈ Memory.write m a b) :
    c = (a, b) ∨ c ∈ m := by
  induction m with
  | nil =>
    simp only [Memory.write] at h
    split at h
    · exact absurd h List.not_mem_nil
    · exact Or.inl (List.mem_singleton.mp h)
  | cons d m ih =>
    simp only [Memory.write] at h
    split at h
    · split at h
      · exact Or.inr h
      · rcases List.mem_cons.mp h with h | h
        · exact Or.inl h
        · exact Or.inr h
    · split at h
      · split at h
        · exact Or.inr (List.mem_cons_of_mem _ h)
        · rcases List.mem_cons.mp h with h | h
          · exact Or.inl h
          · exact Or.inr (List.mem_cons_of_mem _ h)
      · rcases List.mem_cons.mp h with h | h
        · exact Or.inr (h ▸ List.mem_cons_self)
        · rcases ih h with h | h
          · exact Or.inl h
          · exact Or.inr (List.mem_cons_of_mem _ h)

theorem Memory.write_wf {m : List Host.Cell} {a : Nat} {b : Byte} (h : Memory.wf m) (size : a < Memory.size) :
    Memory.wf (Memory.write m a b) := by
  induction m with
  | nil =>
    simp only [Memory.write]
    split
    · exact h
    · rename_i g; exact Memory.wf_cons (fun _ hd => absurd hd List.not_mem_nil) ⟨g, size⟩ h
  | cons d m ih =>
    have low := (List.pairwise_cons.mp h.1).1
    simp only [Memory.write]
    split
    · rename_i lt
      split
      · exact h
      · rename_i g
        refine Memory.wf_cons (fun c hc => ?_) ⟨g, size⟩ h
        rcases List.mem_cons.mp hc with rfl | hc
        · exact lt
        · exact Nat.lt_trans lt (low c hc)
    · split
      · rename_i e
        split
        · exact Memory.wf_tail h
        · rename_i g
          exact Memory.wf_cons (fun c hc => by simpa [e] using low c hc) ⟨g, size⟩ (Memory.wf_tail h)
      · refine Memory.wf_cons (fun c hc => ?_) (h.2 d List.mem_cons_self) (ih (Memory.wf_tail h))
        rcases Memory.mem_write hc with rfl | hc
        · simp only; omega
        · exact low c hc

theorem Memory.writeAll_wf {m : List Host.Cell} {a : Nat} {bs : List Byte} (h : Memory.wf m)
    (size : a + bs.length ≤ Memory.size) : Memory.wf (Memory.writeAll m a bs) := by
  induction bs generalizing m a with
  | nil => exact h
  | cons b bs ih =>
    simp only [List.length_cons] at size
    exact ih (Memory.write_wf h (by omega)) (by omega)

theorem Memory.erase_wf {m : List Host.Cell} {a n : Nat} (h : Memory.wf m) : Memory.wf (Memory.erase m a n) :=
  ⟨h.1.sublist List.filter_sublist, fun c hc => h.2 c (List.mem_filter.mp hc).1⟩

/-- Nothing is listed below the first entry of a memory in canonical form. -/
theorem Memory.read_below {m : List Host.Cell} {x : Nat} (h : ∀ c ∈ m, x < c.1) : Memory.read m x = Memory.erased := by
  cases m with
  | nil => rfl
  | cons c m =>
    have := h c List.mem_cons_self
    simp only [Memory.read]
    rw [if_neg (by omega), if_pos this]

/-- A read after a write. -/
theorem Memory.read_write {m : List Host.Cell} (h : Memory.wf m) (a x : Nat) (b : Byte) :
    Memory.read (Memory.write m a b) x = if x = a then b else Memory.read m x := by
  induction m with
  | nil =>
    simp only [Memory.write]
    split
    · rename_i e; subst e; split <;> rfl
    · by_cases e : x = a
      · subst e; simp [Memory.read]
      · simp only [Memory.read, if_neg e]
        rw [if_neg (Ne.symm e)]; split <;> rfl
  | cons d m ih =>
    have low := (List.pairwise_cons.mp h.1).1
    have ih := ih (Memory.wf_tail h)
    simp only [Memory.write]
    split
    · rename_i lt
      split
      · rename_i e
        by_cases k : x = a
        · subst k; rw [if_pos rfl, e]
          exact Memory.read_below fun c hc => by
            rcases List.mem_cons.mp hc with rfl | hc
            · exact lt
            · exact Nat.lt_trans lt (low c hc)
        · rw [if_neg k]
      · by_cases k : x = a
        · subst k; simp [Memory.read]
        · rw [if_neg k]
          simp only [Memory.read]
          rw [if_neg (Ne.symm k)]
          split
          · rw [if_neg (by omega), if_pos (by omega)]
          · rfl
    · split
      · rename_i e
        subst e
        split
        · rename_i g
          by_cases k : x = d.1
          · subst k; rw [if_pos rfl, g]; exact Memory.read_below low
          · rw [if_neg k]
            simp only [Memory.read]
            rw [if_neg (Ne.symm k)]
            split
            · rename_i lt; exact Memory.read_below fun c hc => Nat.lt_trans lt (low c hc)
            · rfl
        · by_cases k : x = d.1
          · subst k; simp [Memory.read]
          · rw [if_neg k]
            simp only [Memory.read]
            rw [if_neg (Ne.symm k), if_neg (Ne.symm k)]
      · simp only [Memory.read]
        by_cases k : d.1 = x
        · rw [if_pos k, if_pos k, if_neg (by omega)]
        · rw [if_neg k, if_neg k]
          split
          · rw [if_neg (by omega)]
          · exact ih

/-- A read after several bytes are written. -/
theorem Memory.read_writeAll {m : List Host.Cell} (h : Memory.wf m) {a : Nat} {bs : List Byte}
    (size : a + bs.length ≤ Memory.size) (x : Nat) :
    Memory.read (Memory.writeAll m a bs) x =
      if a ≤ x ∧ x < a + bs.length then bs.getD (x - a) 0 else Memory.read m x := by
  induction bs generalizing m a with
  | nil => rw [if_neg (by simp)]; rfl
  | cons b bs ih =>
    simp only [List.length_cons] at size
    simp only [Memory.writeAll]
    rw [ih (Memory.write_wf h (by omega)) (by omega), Memory.read_write h]
    simp only [List.length_cons]
    by_cases k : x = a
    · subst k
      rw [if_neg (by omega), if_pos rfl, if_pos (by omega)]
      simp
    · rw [if_neg k]
      by_cases g : a + 1 ≤ x ∧ x < a + 1 + bs.length
      · rw [if_pos g, if_pos (by omega)]
        obtain ⟨n, rfl⟩ : ∃ n, x = a + 1 + n := ⟨x - (a + 1), by omega⟩
        rw [show a + 1 + n - (a + 1) = n by omega, show a + 1 + n - a = n + 1 by omega]
        rfl
      · rw [if_neg g, if_neg (by omega)]

/-- A read after an erase. -/
theorem Memory.read_erase {m : List Host.Cell} (h : Memory.wf m) (a n x : Nat) :
    Memory.read (Memory.erase m a n) x = if a ≤ x ∧ x < a + n then Memory.erased else Memory.read m x := by
  induction m with
  | nil => simp [Memory.erase, Memory.read]
  | cons d m ih =>
    have low := (List.pairwise_cons.mp h.1).1
    have ih := ih (Memory.wf_tail h)
    unfold Memory.erase at *
    rw [List.filter_cons]
    by_cases g : a ≤ d.1 ∧ d.1 < a + n
    · rw [if_neg (by simp [g]), ih]
      split
      · rfl
      · rename_i k
        simp only [Memory.read]
        rw [if_neg (by omega)]
        split
        · rename_i lt; exact Memory.read_below fun c hc => Nat.lt_trans lt (low c hc)
        · rfl
    · rw [if_pos (by simp only [Bool.not_eq_true', Bool.and_eq_false_iff, decide_eq_false_iff_not]; omega)]
      simp only [Memory.read]
      by_cases k : d.1 = x
      · rw [if_pos k, if_pos k, if_neg (by omega)]
      · rw [if_neg k, if_neg k]
        split
        · split <;> rfl
        · exact ih

/-! ### Slots -/

theorem slotAddress_lt (page : Fin 128) (slot : Fin 16) : slotAddress page slot + Config.slotBytes ≤ Memory.size := by
  have := page.isLt
  have := slot.isLt
  simp only [slotAddress, Config.pageBytes, Config.slotBytes, Memory.size]
  omega

theorem pageAddress_lt (page : Fin 128) : slotAddress page 0 + Config.pageBytes ≤ Memory.size := by
  have := page.isLt
  simp only [slotAddress, Config.pageBytes, Config.slotBytes, Memory.size, Fin.val_zero]
  omega

theorem numberBytes_length (n v : Nat) : (numberBytes n v).length = n := by
  induction n with
  | zero => rfl
  | succ n ih => simp [numberBytes, ih]

theorem recordSlot_length (sequence : Nat) (r : JRecord) : (recordSlot sequence r).length = Config.slotBytes := by
  simp [recordSlot, numberBytes_length, JRecord.body, Config.slotBytes]

theorem freshPage_length (sequence : Nat) : (freshPage sequence).length = Config.pageBytes := by
  simp only [freshPage, List.length_append, numberBytes_length, List.length_replicate, Config.pageBytes]

end Sys2Proof.Machine
end

