-- ==== Sys2Proof/Laws/Reports.lean ====
section
/-! SUPPORT. Printer reports, timers and line errors leave alone what `Loud` names. -/

namespace Sys2Proof.Machine

theorem State.takeCaps_loud {s₀ s : State} (h : s₀.Loud s) (p : Printer) (body : List Byte) :
    s₀.Loud (s.takeCaps p body) := by
  unfold State.takeCaps
  dsimp only
  have h := State.endCondition_loud (h.quiet (State.updatePort_quiet (.refl s) p fun x =>
    { x with attachTimer := none, absentTimer := none, unanswered := 0 })) (.printer p .noAnswer)
  generalize State.endCondition _ _ = t at *
  split
  · exact State.failPort_loud h _ _
  · split
    · exact h.quiet (State.updatePort_quiet (.refl _) _ _)
    · exact h.quiet (State.enterHeld_quiet (State.updatePort_quiet (.refl _) _ _) _)

theorem State.setFilter_loud {s₀ s : State} (h : s₀.Loud s) (p : Printer) (c : Sensed) (f : Filter) :
    s₀.Loud (s.setFilter p c f) :=
  State.setMonitor_loud h _ id

theorem State.sensedBegins_loud {s₀ s : State} (h : s₀.Loud s) (p : Printer) (c : Sensed) :
    s₀.Loud (s.sensedBegins p c) := by
  have h := State.raise_loud h (.sensed p c)
  unfold State.sensedBegins
  dsimp only
  generalize s.raise (.sensed p c) = t at *
  split
  all_goals split
  · exact State.stockMismatch_loud (h.quiet (State.addHold_quiet (.refl _) _ _)) _
  · exact h.quiet (State.addHold_quiet (.refl _) _ _)
  · exact State.stockMismatch_loud h _
  · exact h

theorem State.sensedEnds_loud {s₀ s : State} (h : s₀.Loud s) (p : Printer) (c : Sensed) :
    s₀.Loud (s.sensedEnds p c) := by
  have h := State.endCondition_loud h (.sensed p c)
  unfold State.sensedEnds
  dsimp only
  generalize s.endCondition (.sensed p c) = t at *
  split
  · split
    · exact h
    · exact h.quiet (State.removeHold_quiet (.refl _) _ _)
  · exact h

theorem State.filterStep_loud {s₀ s : State} (h : s₀.Loud s) (sensed : SensedSet) (p : Printer) (c : Sensed) :
    s₀.Loud (State.filterStep sensed p s c) := by
  unfold State.filterStep
  dsimp only
  have h := State.setFilter_loud h p c ((s.filter p c).step (s.printerEntry p).filterDepth (sensed.at c.place)).1
  generalize s.setFilter p c _ = t at *
  split
  · exact State.settle_loud (State.sensedBegins_loud h _ _)
  · exact State.settle_loud (State.sensedEnds_loud h _ _)
  · exact h

theorem State.impliedFeed_loud {s₀ s : State} (h : s₀.Loud s) (p : Printer) (k : Nat) :
    s₀.Loud (State.impliedFeed p s k) := by
  unfold State.impliedFeed
  split
  · exact State.settle_loud (State.takeFeed_loud h _ _)
  · exact h

theorem State.impliedPrint_quiet {s₀ s : State} (h : s₀.Quiet s) (p : Printer) :
    s₀.Quiet (s.impliedPrint p) := by
  unfold State.impliedPrint
  split
  · exact State.takePrint_quiet h _ _
  · exact h

theorem State.impliedPresent_loud {s₀ s : State} (h : s₀.Loud s) (p : Printer) :
    s₀.Loud (s.impliedPresent p) := by
  have h := State.impliedFeed_loud h p 0
  unfold State.impliedPresent
  dsimp only
  generalize State.impliedFeed p s 0 = t at *
  split
  · exact h.quiet (State.settle_quiet (State.takePresent_quiet (State.impliedPrint_quiet (.refl _) _) _ _))
  · exact h

theorem State.reconcile_loud {s₀ s : State} (h : s₀.Loud s) (p : Printer) (st : StatusReport) :
    s₀.Loud (s.reconcile p st) := by
  unfold State.reconcile State.reconcileTicket State.reconcileRoll
  dsimp only
  split
  · refine State.Loud.trans ?_ (State.Loud.foldl (fun t _ => State.impliedPresent_loud (.refl t) p) _ _)
    exact h.trans (State.Loud.foldl (fun t n => State.impliedFeed_loud (.refl t) p n) _ _)
  · exact h.trans (State.Loud.foldl (fun t _ => State.settle_loud
      ((State.Loud.refl t).quiet (State.takeRollPrint_quiet (.refl _) p))) _ _)

theorem State.impliedJam_loud {s₀ s : State} (h : s₀.Loud s) (p : Printer) (st : StatusReport) :
    s₀.Loud (s.impliedJam p st) := by
  unfold State.impliedJam
  dsimp only
  split
  · apply State.settle_loud
    split
    · exact State.takeJam_loud h _ _
    · exact h.quiet (State.takeRollJam_quiet (.refl _) _ _)
  · exact h

theorem State.clearLatch_loud {s₀ s : State} (h : s₀.Loud s) (p : Printer) (st : StatusReport) :
    s₀.Loud (s.clearLatch p st) := by
  have g : s₀.Quiet s → s₀.Quiet (s.updatePort p fun x => { x with jamLatch := false }) := fun k =>
    State.updatePort_quiet k _ _
  unfold State.clearLatch
  dsimp only
  split
  · exact h
  · split
    · exact h.quiet (State.updatePort_quiet (.refl _) _ _)
    · exact h.quiet (State.settle_quiet (State.removeHold_quiet (State.updatePort_quiet (.refl _) _ _) _ _))

theorem State.takeStatus_loud {s₀ s : State} (h : s₀.Loud s) (p : Printer) (st : StatusReport) :
    s₀.Loud (s.takeStatus p st) := by
  have h := h.quiet (State.updatePort_quiet (.refl s) p fun x =>
    { x with replyTimer := none, unanswered := 0, lastStatus := some st })
  unfold State.takeStatus
  dsimp only
  generalize State.updatePort s p _ = t at *
  have h := h.trans (State.Loud.foldl (fun t c => State.filterStep_loud (.refl t) st.sensed p c) allSensed t)
  generalize List.foldl _ t allSensed = t at *
  have h := State.clearLatch_loud (State.impliedJam_loud (State.reconcile_loud h p st) p st) p st
  generalize State.clearLatch _ p st = t at *
  split
  · exact h.quiet (State.updatePort_quiet (.refl _) _ _)
  · exact h

theorem State.linkCheck_loud {s₀ s : State} (h : s₀.Loud s) (p : Printer) : s₀.Loud (s.linkCheck p) := by
  unfold State.linkCheck
  split
  · exact State.raise_loud h _
  · exact h

/-- A report about an image is loud when what takes it is. -/
theorem State.takeReport_loud {s₀ s : State} (h : s₀.Loud s) (p : Printer) (body : List Byte)
    (take : Nat → State) (g : ∀ k, s₀.Loud (take k)) : s₀.Loud (s.takeReport p body take) := by
  unfold State.takeReport
  split
  · split
    · exact State.mismatch_loud h _ _
    · exact State.mismatch_loud h _ _
    · split
      · exact State.mismatch_loud h _ _
      · exact g _
  · exact h

theorem State.ticketReport_loud {s₀ s : State} (h : s₀.Loud s) (p : Printer) (allowed : Bool) (taken : State)
    (g : s₀.Loud taken) : s₀.Loud (s.ticketReport p allowed taken) := by
  unfold State.ticketReport
  split
  · exact State.settle_loud g
  · exact State.mismatch_loud h _ _

theorem State.ticketOnly_loud {s₀ s : State} (h : s₀.Loud s) (p : Printer) (report : State) (g : s₀.Loud report) :
    s₀.Loud (s.ticketOnly p report) := by
  unfold State.ticketOnly
  split
  · exact State.mismatch_loud h _ _
  · exact g

/-! ### The commands -/

/-- The commands of the printer lines: reports, line errors and engine timers. -/
def ofPrinterLine : Instr → Bool
  | .caps _ _ | .fed _ _ | .doublefed _ _ | .printed _ _ | .presented _ _ | .jammed _ _ | .status _ _
  | .printerMessageDiscarded _ | .printerGapTimerExpiry _ | .attachTimerExpiry _ | .absentRepeatTimerExpiry _
  | .pollIntervalTimerExpiry _ | .pollReplyTimerExpiry _ | .nonReportMessage _ _ => true
  | _ => false

theorem execCaps_loud {p : Printer} {body : List Byte} {s t : State} (h : execCaps p body s = .next t) : s.Loud t := by
  unfold execCaps at h
  cases h
  split
  · split
    · exact State.settle_loud (State.takeCaps_loud (.refl _) _ _)
    · exact State.settle_loud (State.takeCaps_loud (.refl _) _ _)
    · exact State.mismatch_loud (.refl _) _ _
    · exact State.mismatch_loud (.refl _) _ _
    · exact .refl _
    · exact .refl _
  · exact .refl _

theorem execFed_loud {p : Printer} {body : List Byte} {s t : State} (h : execFed p body s = .next t) : s.Loud t := by
  unfold execFed at h
  cases h
  exact State.ticketOnly_loud (.refl _) _ _ (State.takeReport_loud (.refl _) _ _ _ fun _ =>
    State.ticketReport_loud (.refl _) _ _ _ (State.takeFeed_loud (.refl _) _ _))

theorem execDoublefed_loud {p : Printer} {body : List Byte} {s t : State} (h : execDoublefed p body s = .next t) :
    s.Loud t := by
  unfold execDoublefed at h
  cases h
  exact State.ticketOnly_loud (.refl _) _ _ (State.takeReport_loud (.refl _) _ _ _ fun _ =>
    State.ticketReport_loud (.refl _) _ _ _ (State.takeDoubleFeed_loud (.refl _) _ _))

theorem execPrinted_loud {p : Printer} {body : List Byte} {s t : State} (h : execPrinted p body s = .next t) :
    s.Loud t := by
  unfold execPrinted at h
  cases h
  refine State.takeReport_loud (.refl _) _ _ _ fun k => ?_
  split
  · exact State.ticketReport_loud (.refl _) _ _ _ (State.takePrint_quiet (.refl _) _ _).loud
  · split
    · exact ((State.settle_quiet (State.takeRollPrint_quiet (.refl _) _)).loud)
    · exact State.mismatch_loud (.refl _) _ _

theorem execPresented_loud {p : Printer} {body : List Byte} {s t : State} (h : execPresented p body s = .next t) :
    s.Loud t := by
  unfold execPresented at h
  cases h
  exact State.ticketOnly_loud (.refl _) _ _ (State.takeReport_loud (.refl _) _ _ _ fun _ =>
    State.ticketReport_loud (.refl _) _ _ _ (State.takePresent_quiet (.refl _) _ _).loud)

theorem execJammed_loud {p : Printer} {body : List Byte} {s t : State} (h : execJammed p body s = .next t) :
    s.Loud t := by
  unfold execJammed at h
  cases h
  refine State.takeReport_loud (.refl _) _ _ _ fun k => ?_
  split
  · exact State.ticketReport_loud (.refl _) _ _ _ (State.takeJam_loud (.refl _) _ _)
  · exact (State.settle_quiet (State.takeRollJam_quiet (.refl _) _ _)).loud

theorem execStatus_loud {p : Printer} {body : List Byte} {s t : State} (h : execStatus p body s = .next t) :
    s.Loud t := by
  unfold execStatus at h
  cases h
  split
  · split
    · exact State.mismatch_loud (.refl _) _ _
    · split
      · exact State.takeStatus_loud (.refl _) _ _
      · exact .refl _
  · exact .refl _

theorem execAttachTimerExpiry_loud {p : Printer} {s t : State} (h : execAttachTimerExpiry p s = .next t) :
    s.Loud t := by
  unfold execAttachTimerExpiry at h
  cases h
  split
  · exact State.settle_loud (State.enterAbsent_loud (State.raise_loud (.refl _) _) _)
  · exact .refl _

theorem execAbsentRepeatTimerExpiry_loud {p : Printer} {s t : State} (h : execAbsentRepeatTimerExpiry p s = .next t) :
    s.Loud t := by
  unfold execAbsentRepeatTimerExpiry at h
  cases h
  split
  · exact (State.updatePort_quiet (State.transmit_quiet (.refl _) _ _) _ _).loud
  · exact .refl _

theorem execPollIntervalTimerExpiry_loud {p : Printer} {s t : State} (h : execPollIntervalTimerExpiry p s = .next t) :
    s.Loud t := by
  unfold execPollIntervalTimerExpiry at h
  cases h
  split
  · exact (State.updatePort_quiet (State.transmit_quiet (.refl _) _ _) _ _).loud
  · exact .refl _

theorem execPollReplyTimerExpiry_loud {p : Printer} {s t : State} (h : execPollReplyTimerExpiry p s = .next t) :
    s.Loud t := by
  unfold execPollReplyTimerExpiry at h
  cases h
  dsimp only
  split
  · split
    · exact State.settle_loud (State.goAbsent_loud (State.updatePort_quiet (.refl _) _ _).loud _)
    · exact (State.updatePort_quiet (State.updatePort_quiet (.refl _) _ _) _ _).loud
  · exact .refl _

/-- What every command of a printer line leaves alone. -/
theorem exec_loud_of_printer {c : Instr} {s t : State} (g : ofPrinterLine c = true) (h : exec c s = .next t) : s.Loud t := by
  cases c <;> first | exact absurd g Bool.false_ne_true | skip
  case caps => exact execCaps_loud h
  case fed => exact execFed_loud h
  case doublefed => exact execDoublefed_loud h
  case printed => exact execPrinted_loud h
  case presented => exact execPresented_loud h
  case jammed => exact execJammed_loud h
  case status => exact execStatus_loud h
  case printerMessageDiscarded => cases h; exact State.linkCheck_loud (.refl _) _
  case printerGapTimerExpiry => cases h; exact State.linkCheck_loud (.refl _) _
  case attachTimerExpiry => exact execAttachTimerExpiry_loud h
  case absentRepeatTimerExpiry => exact execAbsentRepeatTimerExpiry_loud h
  case pollIntervalTimerExpiry => exact execPollIntervalTimerExpiry_loud h
  case pollReplyTimerExpiry => exact execPollReplyTimerExpiry_loud h
  case nonReportMessage =>
    cases h
    split
    · exact State.mismatch_loud (.refl _) _ _
    · exact .refl _

end Sys2Proof.Machine
end

