-- ==== Sys2Proof/Laws/Queues.lean ====
section
/-! SUPPORT. What considering queued jobs, holding a port and emptying a window do, field by field. -/

namespace Sys2Proof.Machine

/-! ### Queued jobs that move or are refused -/

/-- Jobs move between queues and nothing else changes. -/
structure State.Moves (s t : State) : Prop where
  rest : t = { s with jobs := t.jobs, queues := t.queues }

/-- Jobs move between queues or are refused: they may be answered, and their sessions may come to owe a sign-off. -/
structure State.Sorts (s t : State) : Prop where
  rest : t = { s with
    jobs := t.jobs, queues := t.queues, office := t.office, sessions := t.sessions
    journal := { s.journal with claims := t.journal.claims } }
  claims : ∀ c : Claim, (∀ n, c ≠ .session n) → (c ∈ t.journal.claims ↔ c ∈ s.journal.claims)

theorem State.Moves.refl (s : State) : s.Moves s := ⟨rfl⟩

theorem State.Moves.trans {s t u : State} (a : s.Moves t) (b : t.Moves u) : s.Moves u :=
  ⟨by rw [b.rest, a.rest]⟩

theorem State.Sorts.refl (s : State) : s.Sorts s := ⟨rfl, fun _ _ => Iff.rfl⟩

theorem State.Sorts.trans {s t u : State} (a : s.Sorts t) (b : t.Sorts u) : s.Sorts u :=
  ⟨by rw [b.rest, a.rest], fun c h => (b.claims c h).trans (a.claims c h)⟩

theorem State.Moves.sorts {s t : State} (a : s.Moves t) : s.Sorts t := by
  have j : t.journal = s.journal := by rw [a.rest]
  refine ⟨?_, fun c _ => by rw [j]⟩
  rw [a.rest]

theorem State.Moves.ports {s t : State} (a : s.Moves t) : t.ports = s.ports := by rw [a.rest]
theorem State.Moves.stock {s t : State} (a : s.Moves t) : t.stock = s.stock := by rw [a.rest]
theorem State.Moves.store {s t : State} (a : s.Moves t) : t.store = s.store := by rw [a.rest]
theorem State.Moves.office {s t : State} (a : s.Moves t) : t.office = s.office := by rw [a.rest]
theorem State.Moves.monitor {s t : State} (a : s.Moves t) : t.monitor = s.monitor := by rw [a.rest]
theorem State.Moves.journal {s t : State} (a : s.Moves t) : t.journal = s.journal := by rw [a.rest]
theorem State.Moves.sent {s t : State} (a : s.Moves t) : t.sent = s.sent := by rw [a.rest]

theorem State.Sorts.ports {s t : State} (a : s.Sorts t) : t.ports = s.ports := by rw [a.rest]
theorem State.Sorts.stock {s t : State} (a : s.Sorts t) : t.stock = s.stock := by rw [a.rest]
theorem State.Sorts.store {s t : State} (a : s.Sorts t) : t.store = s.store := by rw [a.rest]
theorem State.Sorts.monitor {s t : State} (a : s.Sorts t) : t.monitor = s.monitor := by rw [a.rest]
theorem State.Sorts.sent {s t : State} (a : s.Sorts t) : t.sent = s.sent := by rw [a.rest]
theorem State.Sorts.queue {s t : State} (a : s.Sorts t) : t.journal.queue = s.journal.queue := by rw [a.rest]
theorem State.Sorts.reserved {s t : State} (a : s.Sorts t) : t.journal.reserved = s.journal.reserved := by rw [a.rest]

theorem State.moveJob_moves (s : State) (j : JobNumber) (job : Job) (q : Printer) (front : Bool) :
    s.Moves (s.moveJob j job q front) := ⟨rfl⟩

theorem State.addClaim_sorts (s : State) (n : Nat) : s.Sorts (s.addClaim (.session n)) := by
  unfold State.addClaim State.updateJournal
  dsimp only
  split
  · exact ⟨rfl, fun _ _ => Iff.rfl⟩
  · refine ⟨rfl, fun c h => ?_⟩
    simp only [List.mem_append, List.mem_singleton]
    exact ⟨fun k => k.resolve_right (h n), Or.inl⟩

theorem State.signOffTest_sorts (s : State) (n : Nat) : s.Sorts (s.signOffTest n) := by
  unfold State.signOffTest
  split
  · split
    · exact State.Sorts.trans (t := s.modifySession n fun x => { x with signOffOwed := true }) ⟨rfl, fun _ _ => Iff.rfl⟩
        (State.addClaim_sorts _ n)
    · exact .refl s
  · exact .refl s

theorem State.endJob_sorts (s : State) (j : JobNumber) (job : Job) (code : AnswerCode) (figures : Figures) :
    s.Sorts (s.endJob j job code figures) :=
  State.Sorts.trans (t := ((s.setJob j none).answer job.origin code figures).modifySession job.session
    fun x => { x with jobs := x.jobs - 1 }) ⟨rfl, fun _ _ => Iff.rfl⟩ (State.signOffTest_sorts _ _)

theorem State.refuseJob_sorts (s : State) (j : JobNumber) (job : Job) (code : AnswerCode) :
    s.Sorts (s.refuseJob j job code) :=
  State.Sorts.trans (t := s.removeFromQueue job.printer j) ⟨rfl, fun _ _ => Iff.rfl⟩ (State.endJob_sorts _ _ _ _ _)

theorem State.considerJob_sorts (concerns : Job → Bool) (refusal : Option AnswerCode) (s : State) (j : JobNumber) :
    s.Sorts (State.considerJob concerns refusal s j) := by
  unfold State.considerJob
  split
  · exact .refl s
  · split
    · split
      · exact (State.moveJob_moves ..).sorts
      · exact State.refuseJob_sorts ..
      · exact .refl s
    · exact .refl s

theorem State.resolveQueue_sorts (s : State) (p : Printer) (concerns : Job → Bool) (refusal : Option AnswerCode) :
    s.Sorts (s.resolveQueue p concerns refusal) := by
  unfold State.resolveQueue
  generalize s.queues.at p = l
  induction l generalizing s with
  | nil => exact .refl s
  | cons j l ih => exact (State.considerJob_sorts concerns refusal s j).trans (ih _)

theorem State.resolveQueue_moves (s : State) (p : Printer) (concerns : Job → Bool) :
    s.Moves (s.resolveQueue p concerns none) := by
  unfold State.resolveQueue
  generalize s.queues.at p = l
  induction l generalizing s with
  | nil => exact .refl s
  | cons j l ih =>
    refine State.Moves.trans ?_ (ih _)
    unfold State.considerJob
    split
    · exact .refl s
    · split
      · split
        · exact State.moveJob_moves ..
        · rename_i h; cases h
        · exact .refl s
      · exact .refl s

/-- A queue in which every job has a record that names the printer. -/
abbrev State.queuedAt (s : State) (p : Printer) : Prop :=
  ∀ j ∈ s.queues.at p, ∃ job, s.jobs.at j = some job ∧ job.printer = p

theorem State.endJob_jobs (s : State) (j : JobNumber) (job : Job) (code : AnswerCode) (figures : Figures) :
    (s.endJob j job code figures).jobs = s.jobs.put j none := by
  unfold State.endJob State.jobEnded State.signOffTest
  split
  · split <;> rfl
  · rfl

theorem State.endJob_queues (s : State) (j : JobNumber) (job : Job) (code : AnswerCode) (figures : Figures) :
    (s.endJob j job code figures).queues = s.queues := by
  unfold State.endJob State.jobEnded State.signOffTest
  split
  · split <;> rfl
  · rfl

/-! ### A queue considered (R12) -/

theorem State.Sorts.moveTarget {s t : State} (a : s.Sorts t) (job : Job) : t.moveTarget job = s.moveTarget job := by
  rw [a.rest]; rfl

theorem State.endJob_answers (s : State) (j : JobNumber) (job : Job) (code : AnswerCode) (figures : Figures) :
    (s.endJob j job code figures).office = (s.answer job.origin code figures).office := by
  unfold State.endJob State.jobEnded State.signOffTest
  split
  · split <;> rfl
  · rfl

theorem State.answer_sendList (s : State) (r : Reply) (code : AnswerCode) (figures : Figures) (w : Window) :
    ((s.answer r code figures).office.at w).sendList =
      (s.office.at w).sendList ++ if r.window = w then [.answer r.tag code figures false] else [] := by
  unfold State.answer
  simp only [State.setOffice_office, Vector.at_put]
  split
  · rename_i h; subst h; unfold OfficePort.close; split <;> rfl
  · simp

/-- What considering one job does to the jobs, the queues and the send lists (R12). -/
theorem State.considerJob_effect (concerns : Job → Bool) (refusal : Option AnswerCode) (s : State) (j : JobNumber) :
    let t := State.considerJob concerns refusal s j
    (∀ w, (s.office.at w).sendList <+: (t.office.at w).sendList) ∧
    (∀ q y, s.jobs.at j = some y → concerns y = true → s.moveTarget y = some q →
      t.jobs = s.jobs.put j (some { y with printer := q, retry := 0 }) ∧
      t.queues = (s.removeFromQueue y.printer j).queues.put q ((s.removeFromQueue y.printer j).queues.at q ++ [j])) ∧
    (∀ code y, s.jobs.at j = some y → concerns y = true → s.moveTarget y = none → refusal = some code →
      t.jobs = s.jobs.put j none ∧ t.queues = (s.removeFromQueue y.printer j).queues ∧
      .answer y.origin.tag code .nothing false ∈ (t.office.at y.origin.window).sendList) ∧
    ((∀ y, s.jobs.at j = some y → concerns y = false ∨ (s.moveTarget y = none ∧ refusal = none)) → t = s) := by
  unfold State.considerJob
  cases hj : s.jobs.at j with
  | none => simp
  | some job =>
    by_cases c : concerns job = true
    · cases hm : s.moveTarget job with
      | some q =>
        simp [c, hm]
        refine ⟨fun w => ⟨[], List.append_nil _⟩, ?_⟩
        exact ⟨rfl, rfl⟩
      | none =>
        cases refusal with
        | none => simp [c, hm]
        | some code =>
          simp [c, hm]
          refine ⟨fun w => ?_, ?_, ?_, ?_⟩
          · unfold State.refuseJob
            rw [State.endJob_answers, State.answer_sendList]
            exact List.prefix_append _ _
          · unfold State.refuseJob; rw [State.endJob_jobs]; rfl
          · unfold State.refuseJob; rw [State.endJob_queues]
          · unfold State.refuseJob
            rw [State.endJob_answers, State.answer_sendList]
            simp
    · simp [c]

/-- A job moves to another printer than its own (R12). -/
theorem State.moveTarget_other (s : State) (job : Job) (q : Printer) (h : s.moveTarget job = some q) :
    q ≠ job.printer := by
  unfold State.moveTarget State.otherPrinter RouteEntry.second at h
  simp only [Option.filter_eq_some_iff] at h
  obtain ⟨⟨h, _⟩, _⟩ := h
  rintro rfl
  split at h
  · rename_i first
    split at h
    · cases h
    · rename_i apart; exact apart (h.trans first.symm)
  · rename_i first
    rcases ite_eq_iff.mp h with ⟨_, h⟩ | ⟨_, h⟩
    · exact first h
    · cases h

/-- A queue considered does all that R12 says of it, and no more. -/
theorem State.resolveQueue_considers (s : State) (p : Printer) (concerns : Job → Bool) (refusal : Option AnswerCode)
    (named : s.queuedAt p) (once : (s.queues.at p).Nodup) :
    s.Considers p concerns refusal (s.resolveQueue p concerns refusal) := by
  let stays (j : JobNumber) : Bool := s.sendsTo concerns j == none && (refusal == none || !(s.jobs.at j).any concerns)
  let goes (q : Printer) (j : JobNumber) : Bool := s.sendsTo concerns j == some q
  have fold : ∀ (l d : List JobNumber) (t : State), s.queues.at p = d ++ l → s.Sorts t →
      (∀ j, j ∉ d → t.jobs.at j = s.jobs.at j) →
      t.queues.at p = d.filter stays ++ l →
      (∀ q, q ≠ p → t.queues.at q = s.queues.at q ++ d.filter (goes q)) →
      (∀ j ∈ d, ∀ y, s.jobs.at j = some y →
        (∀ q, concerns y = true → s.moveTarget y = some q → t.jobs.at j = some { y with printer := q, retry := 0 }) ∧
        (∀ code, concerns y = true → s.moveTarget y = none → refusal = some code → t.jobs.at j = none ∧
          .answer y.origin.tag code .nothing false ∈ (t.office.at y.origin.window).sendList) ∧
        (concerns y = false ∨ (s.moveTarget y = none ∧ refusal = none) → t.jobs.at j = some y)) →
      let u := l.foldl (State.considerJob concerns refusal) t
      (∀ j, j ∉ s.queues.at p → u.jobs.at j = s.jobs.at j) ∧
      u.queues.at p = (s.queues.at p).filter stays ∧
      (∀ q, q ≠ p → u.queues.at q = s.queues.at q ++ (s.queues.at p).filter (goes q)) ∧
      (∀ j ∈ s.queues.at p, ∀ y, s.jobs.at j = some y →
        (∀ q, concerns y = true → s.moveTarget y = some q → u.jobs.at j = some { y with printer := q, retry := 0 }) ∧
        (∀ code, concerns y = true → s.moveTarget y = none → refusal = some code → u.jobs.at j = none ∧
          .answer y.origin.tag code .nothing false ∈ (u.office.at y.origin.window).sendList) ∧
        (concerns y = false ∨ (s.moveTarget y = none ∧ refusal = none) → u.jobs.at j = some y)) := by
    intro l
    induction l with
    | nil =>
      intro d t hd _ h1 h2 h3 h4
      rw [List.append_nil] at hd h2
      rw [hd]
      exact ⟨h1, h2, h3, h4⟩
    | cons j l ih =>
      intro d t hd sorts h1 h2 h3 h4
      have hjq : j ∈ s.queues.at p := by rw [hd]; simp
      obtain ⟨job, hj, hp⟩ := named j hjq
      have nd : (d ++ j :: l).Nodup := hd ▸ once
      have hjd : j ∉ d := by
        intro m; exact (List.nodup_append.mp nd).2.2 j m j (by simp) rfl
      have hjl : j ∉ l := (List.nodup_cons.mp (List.nodup_append.mp nd).2.1).1
      have htj : t.jobs.at j = some job := by rw [h1 j hjd, hj]
      have mt : t.moveTarget job = s.moveTarget job := sorts.moveTarget job
      obtain ⟨e0, e1, e2, e3⟩ := State.considerJob_effect concerns refusal t j
      have sorts' := sorts.trans (State.considerJob_sorts concerns refusal t j)
      have rm : (t.removeFromQueue job.printer j).queues.at p = d.filter stays ++ l := by
        unfold State.removeFromQueue
        rw [hp, State.setQueue_queues, Vector.at_put_same, h2]
        rw [List.filter_append, List.filter_cons_of_neg (by simp)]
        congr 1
        · apply List.filter_eq_self.mpr
          intro a ha; have := (List.mem_filter.mp ha).1
          simp only [bne_iff_ne, ne_eq]; rintro rfl; exact hjd this
        · apply List.filter_eq_self.mpr
          intro a ha
          simp only [bne_iff_ne, ne_eq]; rintro rfl; exact hjl ha
      have rmq : ∀ q, q ≠ p → (t.removeFromQueue job.printer j).queues.at q = s.queues.at q ++ d.filter (goes q) := by
        intro q hq
        unfold State.removeFromQueue
        rw [hp, State.setQueue_queues, Vector.at_put_other _ _ (Ne.symm hq), h3 q hq]
      have step : (∀ k, k ≠ j → (State.considerJob concerns refusal t j).jobs.at k = t.jobs.at k) ∧
          (State.considerJob concerns refusal t j).queues.at p = d.filter stays ++ (if stays j then [j] else []) ++ l ∧
          (∀ q, q ≠ p → (State.considerJob concerns refusal t j).queues.at q =
            s.queues.at q ++ d.filter (goes q) ++ if goes q j then [j] else []) ∧
          (∀ q, concerns job = true → s.moveTarget job = some q →
            (State.considerJob concerns refusal t j).jobs.at j = some { job with printer := q, retry := 0 }) ∧
          (∀ code, concerns job = true → s.moveTarget job = none → refusal = some code →
            (State.considerJob concerns refusal t j).jobs.at j = none ∧ .answer job.origin.tag code .nothing false ∈
              ((State.considerJob concerns refusal t j).office.at job.origin.window).sendList) ∧
          (concerns job = false ∨ (s.moveTarget job = none ∧ refusal = none) →
            (State.considerJob concerns refusal t j).jobs.at j = some job) := by
        by_cases c : concerns job = true
        · cases hm : s.moveTarget job with
          | some q =>
            have hqp : q ≠ p := hp ▸ State.moveTarget_other s job q hm
            obtain ⟨a, b⟩ := e1 q job htj c (mt.trans hm)
            have gone : s.sendsTo concerns j = some q := by simp [State.sendsTo, hj, c, hm]
            refine ⟨fun k hk => by rw [a, Vector.at_put_other _ _ (Ne.symm hk)], ?_, fun r hr => ?_, ?_, ?_, ?_⟩
            · rw [b, Vector.at_put_other _ _ hqp, rm]; simp [stays, gone]
            · rw [b, Vector.at_put]
              by_cases h : q = r
              · subst h; rw [if_pos rfl, rmq q hr]; simp [goes, gone]
              · rw [if_neg h, rmq r hr]; simp [goes, gone, h]
            · rintro r - h; cases h; rw [a, Vector.at_put_same]
            · rintro _ - h; cases h
            · rintro (h | h)
              · rw [c] at h; cases h
              · cases h.1
          | none =>
            have home : s.sendsTo concerns j = none := by simp [State.sendsTo, hj, c, hm]
            cases hr : refusal with
            | some code =>
              subst hr
              obtain ⟨a, b, a'⟩ := e2 code job htj c (mt.trans hm) rfl
              refine ⟨fun k hk => by rw [a, Vector.at_put_other _ _ (Ne.symm hk)], ?_, fun r hr => ?_, ?_, ?_, ?_⟩
              · rw [b, rm]; simp [stays, hj, c]
              · rw [b, rmq r hr]; simp [goes, home]
              · rintro _ - h; cases h
              · rintro _ - - h; cases h; exact ⟨by rw [a, Vector.at_put_same], a'⟩
              · rintro (h | h)
                · rw [c] at h; cases h
                · cases h.2
            | none =>
              subst hr
              have e := e3 fun y hy => Or.inr (by rw [htj] at hy; cases hy; exact ⟨mt.trans hm, rfl⟩)
              rw [e]
              refine ⟨fun _ _ => rfl, ?_, fun r hr => ?_, ?_, ?_, fun _ => htj⟩
              · rw [h2]; simp [stays, home]
              · rw [h3 r hr]; simp [goes, home]
              · rintro _ - h; cases h
              · rintro _ - - h; cases h
        · have home : s.sendsTo concerns j = none := by simp [State.sendsTo, hj, c]
          have c' : concerns job = false := by simpa using c
          have e := e3 fun y hy => Or.inl (by rw [htj] at hy; cases hy; exact c')
          rw [e]
          refine ⟨fun _ _ => rfl, ?_, fun r hr => ?_, ?_, ?_, fun _ => htj⟩
          · rw [h2]; simp [stays, home, hj, c']
          · rw [h3 r hr]; simp [goes, home]
          · intro _ h; exact absurd h c
          · intro _ h; exact absurd h c
      obtain ⟨s1, s2, s3, s4, s5, s6⟩ := step
      refine ih (d ++ [j]) _ (by rw [hd]; simp) sorts' ?_ ?_ ?_ ?_
      · intro k hk
        rw [s1 k (fun e => hk (by simp [e])), h1 k (fun m => hk (by simp [m]))]
      · rw [s2, List.filter_append]; congr 2; simp [List.filter_cons]
      · intro q hq
        rw [s3 q hq, List.filter_append, List.append_assoc]; congr 2; simp [List.filter_cons]
      · intro k hk y hy
        rcases List.mem_append.mp hk with hk | hk
        · have ne : k ≠ j := fun e => hjd (e ▸ hk)
          obtain ⟨a, b, c⟩ := h4 k hk y hy
          rw [s1 k ne]
          refine ⟨a, fun code x1 x2 x3 => ⟨(b code x1 x2 x3).1, (e0 _).subset (b code x1 x2 x3).2⟩, c⟩
        · rw [List.mem_singleton] at hk; subst hk
          rw [hj] at hy; cases hy
          exact ⟨s4, s5, s6⟩
  have h := fold (s.queues.at p) [] s rfl (.refl s) (fun _ _ => rfl) rfl (fun q _ => by simp) (fun j h => by cases h)
  obtain ⟨a, b, c, d⟩ := h
  refine { moved := fun j m y q hy hc ht => ⟨(d j m y hy).1 q hc ht, ?_⟩
           refused := fun j m y code hy hc ht hr => (d j m y hy).2.1 code hc ht hr
           stayed := fun j m y hy hc => ⟨(d j m y hy).2.2 hc, ?_⟩
           others := a, queue := b, tails := c }
  · obtain ⟨x, hx, hp⟩ := named j m
    rw [hy] at hx; cases hx
    show j ∈ (s.resolveQueue p concerns refusal).queues.at q
    unfold State.resolveQueue
    rw [c q (hp ▸ State.moveTarget_other s y q ht), List.mem_append]
    exact Or.inr (List.mem_filter.mpr ⟨m, by simp [goes, State.sendsTo, hy, hc, ht]⟩)
  · show j ∈ (s.resolveQueue p concerns refusal).queues.at p
    unfold State.resolveQueue
    rw [b]
    refine List.mem_filter.mpr ⟨m, ?_⟩
    rcases hc with h | ⟨h1, h2⟩
    · simp [stays, State.sendsTo, hy, h]
    · simp [stays, State.sendsTo, hy, h1, h2]

/-! ### A queue that no concerned job stays in (R14, R15, R17) -/

/-- One job considered at a printer that no concerned job can move to: what is left of the printer's queue. -/
theorem State.considerJob_queue (concerns : Job → Bool) (code : AnswerCode) (s : State) (p : Printer) (j : JobNumber)
    (closed : ∀ job, concerns job = true → s.sendsType p job.stockType = false) (named : s.queuedAt p) :
    (State.considerJob concerns (some code) s j).queuedAt p ∧
    ∀ k ∈ (State.considerJob concerns (some code) s j).queues.at p, k ∈ s.queues.at p ∧
      (State.considerJob concerns (some code) s j).jobs.at k = s.jobs.at k ∧
      (k = j → ∀ job, s.jobs.at k = some job → concerns job = false) := by
  unfold State.considerJob
  split
  · rename_i none
    refine ⟨named, fun k h => ⟨h, rfl, ?_⟩⟩
    intro e job hj; subst e; rw [none] at hj; cases hj
  · rename_i job some
    split
    · rename_i c
      split
      · rename_i q target
        have away : q ≠ p := by
          intro e; subst e
          unfold State.moveTarget at target
          have := Option.filter_eq_some_iff.mp target
          rw [closed job c] at this; exact absurd this.2 (by decide)
        have mem : ∀ k ∈ (s.moveJob j job q false).queues.at p, k ∈ s.queues.at p ∧ k ≠ j := by
          intro k h
          simp only [State.moveJob, State.setQueue_queues, State.setJob_queues, State.removeFromQueue] at h
          rw [Vector.at_put, if_neg away, Vector.at_put] at h
          split at h
          · rename_i e; subst e; simpa using h
          · rename_i e
            refine ⟨h, fun ej => ?_⟩
            subst ej
            obtain ⟨x, hx, hp⟩ := named k h
            rw [some] at hx; cases hx; exact e hp
        have jobs : ∀ k, k ≠ j → (s.moveJob j job q false).jobs.at k = s.jobs.at k := by
          intro k h
          show (s.jobs.put j _).at k = _
          rw [Vector.at_put, if_neg (Ne.symm h)]
        refine ⟨fun k h => ?_, fun k h => ⟨(mem k h).1, jobs k (mem k h).2, fun e => absurd e (mem k h).2⟩⟩
        rw [jobs k (mem k h).2]; exact named k (mem k h).1
      · rename_i e1 e2
        cases e2
        have mem : ∀ k ∈ (s.refuseJob j job code).queues.at p, k ∈ s.queues.at p ∧ k ≠ j := by
          intro k h
          unfold State.refuseJob at h
          rw [State.endJob_queues] at h
          simp only [State.removeFromQueue, State.setQueue_queues] at h
          rw [Vector.at_put] at h
          split at h
          · rename_i e; subst e; simpa using h
          · rename_i e
            refine ⟨h, fun ej => ?_⟩
            subst ej
            obtain ⟨x, hx, hp⟩ := named k h
            rw [some] at hx; cases hx; exact e hp
        have jobs : ∀ k, k ≠ j → (s.refuseJob j job code).jobs.at k = s.jobs.at k := by
          intro k h
          unfold State.refuseJob
          rw [State.endJob_jobs, Vector.at_put, if_neg (Ne.symm h)]; rfl
        refine ⟨fun k h => ?_, fun k h => ⟨(mem k h).1, jobs k (mem k h).2, fun e => absurd e (mem k h).2⟩⟩
        rw [jobs k (mem k h).2]; exact named k (mem k h).1
      · rename_i e2; cases e2
    · rename_i c
      refine ⟨named, fun k h => ⟨h, rfl, ?_⟩⟩
      intro e x hx; subst e; rw [some] at hx; cases hx; simpa using c

/-- A printer's queue considered to its end leaves no concerned job in it. -/
theorem State.resolveQueue_queue (s : State) (p : Printer) (concerns : Job → Bool) (code : AnswerCode)
    (closed : ∀ job, concerns job = true → s.sendsType p job.stockType = false) (named : s.queuedAt p) :
    (s.resolveQueue p concerns (some code)).queuedAt p ∧
    ∀ k ∈ (s.resolveQueue p concerns (some code)).queues.at p, k ∈ s.queues.at p ∧
      (s.resolveQueue p concerns (some code)).jobs.at k = s.jobs.at k ∧
      ∀ job, s.jobs.at k = some job → concerns job = false := by
  have fold : ∀ (l : List JobNumber) (s : State),
      (∀ job, concerns job = true → s.sendsType p job.stockType = false) → s.queuedAt p →
      (l.foldl (State.considerJob concerns (some code)) s).queuedAt p ∧
      ∀ k ∈ (l.foldl (State.considerJob concerns (some code)) s).queues.at p, k ∈ s.queues.at p ∧
        (l.foldl (State.considerJob concerns (some code)) s).jobs.at k = s.jobs.at k ∧
        (k ∈ l → ∀ job, s.jobs.at k = some job → concerns job = false) := by
    intro l
    induction l with
    | nil => exact fun s _ named => ⟨named, fun k h => ⟨h, rfl, fun m => by cases m⟩⟩
    | cons j l ih =>
      intro s closed named
      obtain ⟨n1, q1⟩ := State.considerJob_queue concerns code s p j closed named
      have sorted := State.considerJob_sorts concerns (some code) s j
      have closed' : ∀ job, concerns job = true →
          (State.considerJob concerns (some code) s j).sendsType p job.stockType = false := by
        intro job h
        have := closed job h
        unfold State.sendsType State.loaded at *
        rw [sorted.ports, sorted.stock]; exact this
      obtain ⟨n2, q2⟩ := ih _ closed' n1
      refine ⟨n2, fun k h => ?_⟩
      obtain ⟨a, b, c⟩ := q2 k h
      obtain ⟨a', b', c'⟩ := q1 k a
      refine ⟨a', b.trans b', fun m job hj => ?_⟩
      rcases List.mem_cons.mp m with rfl | m
      · exact c' rfl job hj
      · exact c m job (by rw [b']; exact hj)
  obtain ⟨a, b⟩ := fold (s.queues.at p) s closed named
  exact ⟨a, fun k h => ⟨(b k h).1, (b k h).2.1, (b k h).2.2 (b k h).1⟩⟩

/-- A printer that no job can move to is left with an empty queue (R14, R15). -/
theorem State.refuseQueue_empty (s : State) (p : Printer) (closed : (s.ports.at p).state ≠ .active)
    (named : s.queuedAt p) : (s.refuseQueue p).queues.at p = [] := by
  have h := (State.resolveQueue_queue s p (fun _ => true) .printerUnavailable
    (fun job _ => by unfold State.sendsType; simp [closed]) named).2
  apply List.eq_nil_iff_forall_not_mem.mpr
  intro k m
  obtain ⟨x, hx, _⟩ := named k (h k m).1
  exact absurd ((h k m).2.2 x hx) (by decide)

/-! ### Hold reasons -/

theorem State.enterHeld_ports (s : State) (p : Printer) :
    (s.enterHeld p).ports = s.ports.put p { s.ports.at p with state := .held } :=
  (State.resolveQueue_moves _ p _).ports

theorem Vector.put_put {α : Type} {n : Nat} (t : Vector α n) (i : Fin n) (x y : α) : (t.put i x).put i y = t.put i y := by
  unfold Vector.put
  exact Vector.set_set ..

theorem Vector.put_at {α : Type} {n : Nat} (t : Vector α n) (i : Fin n) : t.put i (t.at i) = t := by
  unfold Vector.put Vector.at
  exact Vector.set_getElem_self ..

theorem State.setHold_state (s : State) (p : Printer) (r : HoldReason) :
    ((s.updatePort p fun x => x.setHold r true).ports.at p).state = (s.ports.at p).state := by
  rw [State.updatePort_ports, Vector.at_put_same]
  rfl

/-- A hold reason added: the bit, and HELD if the port was ACTIVE (R49). -/
theorem State.addHold_ports (s : State) (p : Printer) (r : HoldReason) :
    (s.addHold p r).ports = s.ports.put p { s.ports.at p with
      hold := (s.ports.at p).hold.put r.place true
      state := if (s.ports.at p).state = .active then .held else (s.ports.at p).state } := by
  have e := State.setHold_state s p r
  unfold State.addHold
  dsimp only
  by_cases h : (s.ports.at p).state = .active
  · rw [if_pos (e.trans h), if_pos h, State.enterHeld_ports]
    simp only [State.updatePort_ports, Vector.at_put_same, Vector.put_put]
    rfl
  · rw [if_neg (fun k => h (e.symm.trans k)), if_neg h]
    rfl

/-- A hold reason added changes the port, and may move the port's queued jobs. -/
theorem State.addHold_rest (s : State) (p : Printer) (r : HoldReason) :
    s.addHold p r = { s with
      ports := (s.addHold p r).ports, jobs := (s.addHold p r).jobs, queues := (s.addHold p r).queues } := by
  unfold State.addHold State.enterHeld
  dsimp only
  split
  · have h := (State.resolveQueue_moves ((s.updatePort p fun x => x.setHold r true).updatePort p
      fun x => { x with state := .held }) p fun _ => true).rest
    rw [h]; rfl
  · rfl

/-- A hold reason added at a port that is not ACTIVE moves nothing. -/
theorem State.addHold_still (s : State) (p : Printer) (r : HoldReason) (h : (s.ports.at p).state ≠ .active) :
    s.addHold p r = { s with ports := s.ports.put p { s.ports.at p with hold := (s.ports.at p).hold.put r.place true } } := by
  unfold State.addHold
  dsimp only
  rw [if_neg (fun k => h ((State.setHold_state s p r).symm.trans k))]
  rfl

/-! ### Records handed and windows emptied -/

/-- Records are handed and places returned: the write queue, the reservations, an IDLE writer and the sessions' pending
records change. -/
structure State.Hands (s t : State) : Prop where
  rest : t = { s with
    sessions := t.sessions
    journal := { s.journal with
      queue := t.journal.queue, reserved := t.journal.reserved, writer := t.journal.writer
      checkpointDue := t.journal.checkpointDue } }

theorem State.Hands.refl (s : State) : s.Hands s := ⟨rfl⟩

theorem State.Hands.trans {s t u : State} (a : s.Hands t) (b : t.Hands u) : s.Hands u :=
  ⟨by rw [b.rest, a.rest]⟩

theorem State.Hands.ports {s t : State} (a : s.Hands t) : t.ports = s.ports := by rw [a.rest]
theorem State.Hands.jobs {s t : State} (a : s.Hands t) : t.jobs = s.jobs := by rw [a.rest]
theorem State.Hands.queues {s t : State} (a : s.Hands t) : t.queues = s.queues := by rw [a.rest]
theorem State.Hands.stock {s t : State} (a : s.Hands t) : t.stock = s.stock := by rw [a.rest]
theorem State.Hands.store {s t : State} (a : s.Hands t) : t.store = s.store := by rw [a.rest]
theorem State.Hands.office {s t : State} (a : s.Hands t) : t.office = s.office := by rw [a.rest]
theorem State.Hands.monitor {s t : State} (a : s.Hands t) : t.monitor = s.monitor := by rw [a.rest]
theorem State.Hands.sent {s t : State} (a : s.Hands t) : t.sent = s.sent := by rw [a.rest]
theorem State.Hands.claims {s t : State} (a : s.Hands t) : t.journal.claims = s.journal.claims := by rw [a.rest]

theorem State.startNext_hands (s : State) : s.Hands s.startNext := by
  unfold State.startNext State.beginCheckpoint
  dsimp only
  split <;> exact ⟨rfl⟩

theorem State.startNext_queue (s : State) : s.startNext.journal.queue = s.journal.queue := by
  unfold State.startNext State.beginCheckpoint
  dsimp only
  split <;> rfl

theorem State.startNext_reserved (s : State) : s.startNext.journal.reserved = s.journal.reserved := by
  unfold State.startNext State.beginCheckpoint
  dsimp only
  split <;> rfl

/-- A record handed, field by field (R154). -/
theorem State.hand_effect (s : State) (r : JRecord) (link : Link) :
    s.Hands (s.hand r link) ∧ (s.hand r link).journal.queue = s.journal.queue ++ [{ record := r, link }] ∧
      (s.hand r link).journal.reserved = s.journal.reserved := by
  have idle : ∀ t : State, s.Hands t → t.journal.queue = s.journal.queue ++ [{ record := r, link }] →
      t.journal.reserved = s.journal.reserved →
      s.Hands (if t.journal.writer = .idle then t.startNext else t) ∧
      (if t.journal.writer = .idle then t.startNext else t).journal.queue = s.journal.queue ++ [{ record := r, link }] ∧
      (if t.journal.writer = .idle then t.startNext else t).journal.reserved = s.journal.reserved := by
    intro t a b c
    split
    · exact ⟨a.trans (State.startNext_hands t), (State.startNext_queue t).trans b, (State.startNext_reserved t).trans c⟩
    · exact ⟨a, b, c⟩
  unfold State.hand
  dsimp only
  split
  · exact idle _ ⟨rfl⟩ rfl rfl
  · exact idle _ ⟨rfl⟩ rfl rfl

theorem State.handOnPlace_effect (s : State) (r : JRecord) (link : Link) :
    s.Hands (s.handOnPlace r link) ∧ (s.handOnPlace r link).journal.queue = s.journal.queue ++ [{ record := r, link }] ∧
      (s.handOnPlace r link).journal.reserved = s.journal.reserved - 1 := by
  obtain ⟨a, b, c⟩ := State.hand_effect (s.releasePlaces 1) r link
  exact ⟨State.Hands.trans ⟨rfl⟩ a, b, c⟩

theorem State.releasePlaces_hands (s : State) (n : Nat) : s.Hands (s.releasePlaces n) := ⟨rfl⟩

theorem State.spoils_append (s : State) (cause : SpoilCause) (p : Printer) (es fs : List Entry) :
    s.spoils cause p (es ++ fs) = s.spoils cause p es ++ s.spoils cause p fs := by
  unfold State.spoils
  exact List.filterMap_append

theorem State.spoils_jobs {s t : State} (h : t.jobs = s.jobs) (cause : SpoilCause) (p : Printer) (es : List Entry) :
    t.spoils cause p es = s.spoils cause p es := by
  unfold State.spoils
  rw [h]

/-- One entry dropped: its SPOIL record is handed when it holds a serial (R48, R58, R59, R70). -/
theorem State.dropEntry_effect (cause : SpoilCause) (p : Printer) (s : State) (e : Entry) :
    s.Hands (State.dropEntry cause p s e) ∧
      (State.dropEntry cause p s e).journal.queue = s.journal.queue ++ s.spoils cause p [e] ∧
      ((∀ t ∈ e.ticket, 1 ≤ t.places) → (State.dropEntry cause p s e).journal.reserved =
        s.journal.reserved - (e.ticket.map TicketPart.places).getD 0) := by
  unfold State.dropEntry State.spoils
  cases ht : e.ticket with
  | none =>
    refine ⟨.refl s, ?_, fun _ => rfl⟩
    simp [ht]
  | some t =>
    simp only [List.filterMap_cons, List.filterMap_nil, ht, Option.bind_some]
    cases hj : s.jobs.at t.job with
    | none =>
      refine ⟨State.releasePlaces_hands s _, ?_, fun _ => rfl⟩
      simp [State.releasePlaces]
    | some job =>
      cases hs : job.serial with
      | none =>
        simp only [Option.bind_some, Option.map_none, hs]
        refine ⟨State.releasePlaces_hands s _, ?_, fun _ => rfl⟩
        simp [State.releasePlaces]
      | some sb =>
        simp only [Option.bind_some, Option.map_some, hs]
        by_cases ph : e.phase = .sent
        · simp only [if_pos ph]
          refine ⟨State.releasePlaces_hands s _, ?_, fun _ => rfl⟩
          simp [State.releasePlaces]
        · simp only [if_neg ph]
          obtain ⟨a, b, c⟩ := State.handOnPlace_effect s (spoilRecord cause job p sb.1 sb.2) .nothing
          refine ⟨a.trans (State.releasePlaces_hands _ _), ?_, fun h => ?_⟩
          · show (s.handOnPlace _ _).journal.queue = _
            rw [b]
          · show (s.handOnPlace _ _).journal.reserved - (t.places - 1) = _
            rw [c]
            have := h t rfl
            simp only [Option.getD_some]
            omega

/-- Entries dropped one after another. -/
theorem State.dropEntries_effect (cause : SpoilCause) (p : Printer) (es : List Entry) (s : State) :
    s.Hands (es.foldl (State.dropEntry cause p) s) ∧
      (es.foldl (State.dropEntry cause p) s).journal.queue = s.journal.queue ++ s.spoils cause p es ∧
      ((∀ e ∈ es, ∀ t ∈ e.ticket, 1 ≤ t.places) → (es.foldl (State.dropEntry cause p) s).journal.reserved =
        s.journal.reserved - (es.map fun e => (e.ticket.map TicketPart.places).getD 0).sum) := by
  induction es generalizing s with
  | nil => exact ⟨.refl s, by simp [State.spoils], fun _ => by simp⟩
  | cons e es ih =>
    obtain ⟨a, b, c⟩ := State.dropEntry_effect cause p s e
    obtain ⟨a', b', c'⟩ := ih (State.dropEntry cause p s e)
    refine ⟨a.trans a', ?_, fun h => ?_⟩
    · rw [List.foldl_cons, b', b, State.spoils_jobs a.jobs, List.append_assoc, ← State.spoils_append]
      rfl
    · rw [List.foldl_cons, c' fun e m => h e (List.mem_cons_of_mem _ m), c (h e List.mem_cons_self)]
      simp only [List.map_cons, List.sum_cons]
      omega

/-- Entries whose jobs return to the queue: records, then the queue (R11). -/
theorem State.requeue_rest (s : State) (e : Entry) : s.requeue e = { s with jobs := (s.requeue e).jobs } := by
  unfold State.requeue
  split
  · rfl
  · split <;> rfl

theorem State.requeues_rest (es : List Entry) (s : State) :
    es.foldl State.requeue s = { s with jobs := (es.foldl State.requeue s).jobs } := by
  induction es generalizing s with
  | nil => rfl
  | cons e es ih =>
    rw [List.foldl_cons, ih (s.requeue e), State.requeue_rest s e]

theorem Job.returned_returned (y : Job) : y.returned.returned = y.returned := rfl

theorem State.requeue_jobs (s : State) (e : Entry) (j : JobNumber) :
    (s.requeue e).jobs.at j = if e.job? = some j then (s.jobs.at j).map Job.returned else s.jobs.at j := by
  unfold State.requeue Entry.job?
  cases ht : e.ticket with
  | none => simp
  | some t =>
    simp only [Option.map_some, Option.some.injEq]
    cases hj : s.jobs.at t.job with
    | none =>
      dsimp only
      split
      · rename_i h; subst h; rw [hj]; rfl
      · rfl
    | some job =>
      show (s.jobs.put t.job _).at j = _
      rw [Vector.at_put]
      split
      · rename_i h; subst h; rw [hj]; rfl
      · rfl

theorem State.requeues_jobs (es : List Entry) (s : State) (j : JobNumber) :
    (es.foldl State.requeue s).jobs.at j =
      if some j ∈ es.map Entry.job? then (s.jobs.at j).map Job.returned else s.jobs.at j := by
  induction es generalizing s with
  | nil => simp
  | cons e es ih =>
    rw [List.foldl_cons, ih, State.requeue_jobs]
    simp only [List.map_cons, List.mem_cons]
    by_cases a : e.job? = some j
    · rw [if_pos a, if_pos (Or.inl a.symm)]
      split
      · cases s.jobs.at j <;> rfl
      · rfl
    · rw [if_neg a]
      have : (some j = e.job? ∨ some j ∈ es.map Entry.job?) ↔ some j ∈ es.map Entry.job? :=
        ⟨fun h => h.resolve_left fun k => a k.symm, Or.inr⟩
      simp only [this]

theorem State.returnJobs_rest (s : State) (p : Printer) (es : List Entry) :
    s.returnJobs p es = { s with
      jobs := (es.foldl State.requeue s).jobs
      queues := s.queues.put p (es.filterMap Entry.job? ++ s.queues.at p) } := by
  unfold State.returnJobs
  rw [State.requeues_rest]
  rfl

theorem State.returnJobs_returning (s : State) (p : Printer) (es : List Entry) :
    s.returnJobs p es = s.returning p es := by
  have jobs : (es.foldl State.requeue s).jobs = (s.returning p es).jobs := by
    apply Vector.ext
    intro i h
    have each := State.requeues_jobs es s ⟨i, h⟩
    simp only [Vector.at] at each
    rw [each]
    simp only [State.returning, Vector.getElem_ofFn, Vector.at]
    exact if_congr (by simp) rfl rfl
  rw [State.returnJobs_rest, jobs]
  rfl

end Sys2Proof.Machine
end

