-- ==== Sys2Proof/Laws/Ports.lean ====
section
/-! SUPPORT. Conditions raised and ended, field by field, and a port that leaves ACTIVE or HELD. -/

namespace Sys2Proof.Machine

/-! ### Conditions -/

/-- The monitor and the office ports change and nothing else. -/
structure State.Notes (s t : State) : Prop where
  rest : t = { s with office := t.office, monitor := t.monitor }

theorem State.Notes.refl (s : State) : s.Notes s := ⟨rfl⟩

theorem State.Notes.trans {s t u : State} (a : s.Notes t) (b : t.Notes u) : s.Notes u :=
  ⟨by rw [b.rest, a.rest]⟩

theorem State.Notes.phase {s t : State} (a : s.Notes t) : t.phase = s.phase := by rw [a.rest]
theorem State.Notes.ports {s t : State} (a : s.Notes t) : t.ports = s.ports := by rw [a.rest]
theorem State.Notes.jobs {s t : State} (a : s.Notes t) : t.jobs = s.jobs := by rw [a.rest]
theorem State.Notes.queues {s t : State} (a : s.Notes t) : t.queues = s.queues := by rw [a.rest]
theorem State.Notes.stock {s t : State} (a : s.Notes t) : t.stock = s.stock := by rw [a.rest]
theorem State.Notes.store {s t : State} (a : s.Notes t) : t.store = s.store := by rw [a.rest]
theorem State.Notes.journal {s t : State} (a : s.Notes t) : t.journal = s.journal := by rw [a.rest]
theorem State.Notes.sessions {s t : State} (a : s.Notes t) : t.sessions = s.sessions := by rw [a.rest]
theorem State.Notes.sent {s t : State} (a : s.Notes t) : t.sent = s.sent := by rw [a.rest]

/-- A NOTICE changes the office ports alone (R189). -/
theorem State.notice_rest (s : State) (c : Condition) : s.notice c = { s with office := (s.notice c).office } := by
  have fold : ∀ (l : List Window) (f : State → OutFrame) (s : State),
      ∃ o, l.foldl (fun s w => s.queueNotice (f s) w) s = { s with office := o } := by
    intro l f
    induction l with
    | nil => exact fun s => ⟨s.office, rfl⟩
    | cons w l ih =>
      intro s
      rw [List.foldl_cons]
      unfold State.queueNotice
      dsimp only
      split
      · obtain ⟨o, h⟩ := ih (s.queueFrame w (f s))
        exact ⟨o, h⟩
      · exact ih s
  have some : ∃ o, s.notice c = { s with office := o } := by
    unfold State.notice
    split
    · exact fold allWindows (fun s => .notice c (s.priorityOf c) (occurrencesOf s.monitor.faults c)) s
    · exact ⟨s.office, rfl⟩
  obtain ⟨o, h⟩ := some
  rw [h]

theorem State.recordOccurrence_notes (s : State) (c : Condition) : s.Notes (s.recordOccurrence c) := by
  unfold State.recordOccurrence
  dsimp only
  constructor
  rw [State.notice_rest]

theorem State.report_notes (s : State) (r : Report) : s.Notes (s.report r) := by
  unfold State.report
  split
  · cases r with
    | occurred c => exact State.recordOccurrence_notes s c
    | ended c => exact ⟨rfl⟩
  · exact ⟨rfl⟩
  · exact .refl s

theorem State.markPresent_notes (s : State) (c : Condition) (on : Bool) : s.Notes (s.markPresent c on) := by
  unfold State.markPresent
  split <;> exact ⟨rfl⟩

/-- A condition raised changes the monitor and the office ports alone (R139, R142, R189). -/
theorem State.raise_notes (s : State) (c : Condition) : s.Notes (s.raise c) :=
  (State.markPresent_notes s c true).trans (State.report_notes _ _)

/-- A condition ended changes the monitor and the office ports alone (R140). -/
theorem State.endCondition_notes (s : State) (c : Condition) : s.Notes (s.endCondition c) :=
  (State.markPresent_notes s c false).trans (State.report_notes _ _)

theorem State.notice_monitor (s : State) (c : Condition) : (s.notice c).monitor = s.monitor := by
  rw [State.notice_rest]

theorem State.report_lasting (s : State) (r : Report) : (s.report r).monitor.lasting = s.monitor.lasting := by
  unfold State.report
  split
  · cases r with
    | occurred c =>
      show (State.recordOccurrence s c).monitor.lasting = _
      unfold State.recordOccurrence
      dsimp only
      rw [State.notice_monitor]
    | ended c => rfl
  · rfl
  · rfl

theorem State.report_filters (s : State) (r : Report) : (s.report r).monitor.filters = s.monitor.filters := by
  unfold State.report
  split
  · cases r with
    | occurred c =>
      show (State.recordOccurrence s c).monitor.filters = _
      unfold State.recordOccurrence
      dsimp only
      rw [State.notice_monitor]
    | ended c => rfl
  · rfl
  · rfl

/-- A lasting condition of a printer raised: its presence (R131). -/
theorem State.raise_lasting (s : State) (p : Printer) (k : PrinterFault) :
    (s.raise (.printer p k)).monitor.lasting = s.monitor.lasting.put p ((s.monitor.lasting.at p).set k true) := by
  unfold State.raise
  rw [State.report_lasting]
  rfl

theorem State.endCondition_lasting (s : State) (p : Printer) (k : PrinterFault) :
    (s.endCondition (.printer p k)).monitor.lasting = s.monitor.lasting.put p ((s.monitor.lasting.at p).set k false) := by
  unfold State.endCondition
  rw [State.report_lasting]
  rfl

theorem State.raise_filters (s : State) (c : Condition) : (s.raise c).monitor.filters = s.monitor.filters := by
  unfold State.raise
  rw [State.report_filters]
  unfold State.markPresent
  split <;> rfl

theorem State.endCondition_filters (s : State) (c : Condition) :
    (s.endCondition c).monitor.filters = s.monitor.filters := by
  unfold State.endCondition
  rw [State.report_filters]
  unfold State.markPresent
  split <;> rfl

/-! ### Ports that leave ACTIVE or HELD -/

/-- The window of a port emptied (R48, R59, R11). -/
theorem State.resolveWindow_rest (s : State) (p : Printer) (cause : SpoilCause) :
    let es := (s.ports.at p).entries
    let d := es.foldl (State.dropEntry cause p) s
    s.resolveWindow p cause = { d with
      ports := s.ports.put p { s.ports.at p with entries := [] }
      jobs := (es.foldl State.requeue s).jobs
      queues := s.queues.put p (es.filterMap Entry.job? ++ s.queues.at p) } := by
  intro es d
  have h := (State.dropEntries_effect cause p es s).1
  have jobs : ∀ (l : List Entry) (t u : State), t.jobs = u.jobs →
      (l.foldl State.requeue t).jobs = (l.foldl State.requeue u).jobs := by
    intro l t u e
    apply Vector.ext
    intro i hi
    have := State.requeues_jobs l t ⟨i, hi⟩
    have := State.requeues_jobs l u ⟨i, hi⟩
    simp only [Vector.at, e] at *
    simp [*]
  unfold State.resolveWindow
  dsimp only
  rw [State.returnJobs_rest]
  simp only [State.updatePort_ports, State.updatePort_queues]
  show ({ d with ports := _, jobs := _, queues := _ } : State) = _
  rw [jobs es (State.updatePort (es.foldl (State.dropEntry cause p) s) p fun x => { x with entries := [] }) s h.jobs]
  rw [show d.ports = s.ports from h.ports, show d.queues = s.queues from h.queues]

/-- A window resolved, the port changed so that no job can move to it, and its queue refused: what is left. -/
theorem State.leave_effect (s : State) (p : Printer) (cause : SpoilCause) (g : Port → Port)
    (closed : ∀ x, (g x).state ≠ .active) :
    let u := ((s.resolveWindow p cause).updatePort p g).refuseQueue p
    u.ports = s.ports.put p (g { s.ports.at p with entries := [] }) ∧
    (s.jobsAt p → u.queues.at p = []) ∧
    u.journal.queue = s.journal.queue ++ s.spoils cause p (s.ports.at p).entries ∧
    ((∀ e ∈ (s.ports.at p).entries, ∀ t ∈ e.ticket, 1 ≤ t.places) → u.journal.reserved = s.journal.reserved -
      (s.ports.at p).places) ∧
    (∀ c : Claim, (∀ n, c ≠ .session n) → (c ∈ u.journal.claims ↔ c ∈ s.journal.claims)) ∧
    u.stock = s.stock ∧ u.monitor = s.monitor ∧ u.sent = s.sent ∧ u.store = s.store := by
  intro u
  obtain ⟨hands, queue, reserved⟩ := State.dropEntries_effect cause p (s.ports.at p).entries s
  have w := State.resolveWindow_rest s p cause
  dsimp only at w
  generalize (s.ports.at p).entries.foldl (State.dropEntry cause p) s = d at *
  have sorts := State.resolveQueue_sorts ((s.resolveWindow p cause).updatePort p g) p (fun _ => true) (some .printerUnavailable)
  change State.Sorts _ u at sorts
  have ports : ((s.resolveWindow p cause).updatePort p g).ports = s.ports.put p (g { s.ports.at p with entries := [] }) := by
    rw [w]
    simp only [State.updatePort_ports, Vector.at_put_same, Vector.put_put]
  refine ⟨sorts.ports.trans ports, fun named => ?_, ?_, fun h => ?_, fun c h => ?_, ?_, ?_, ?_, ?_⟩
  · apply State.refuseQueue_empty
    · rw [ports, Vector.at_put_same]; exact closed _
    · intro j hj
      rw [State.updatePort_queues, w] at hj
      rw [Vector.at_put_same] at hj
      rw [State.updatePort_jobs, w]
      dsimp only
      rw [State.requeues_jobs]
      have where_ : j ∈ s.queues.at p ∨ some j ∈ (s.ports.at p).entries.map Entry.job? := by
        rcases List.mem_append.mp hj with h | h
        · obtain ⟨e, m, k⟩ := List.mem_filterMap.mp h
          exact Or.inr (List.mem_map.mpr ⟨e, m, k⟩)
        · exact Or.inl h
      obtain ⟨job, a, b⟩ := named j where_
      split
      · exact ⟨job.returned, by rw [a]; rfl, b⟩
      · exact ⟨job, a, b⟩
  · rw [sorts.queue, State.updatePort_journal, w]; exact queue
  · rw [sorts.reserved, State.updatePort_journal, w]; exact reserved h
  · rw [sorts.claims c h, State.updatePort_journal, w]
    show c ∈ d.journal.claims ↔ _
    rw [hands.claims]
  · rw [sorts.stock, State.updatePort_stock, w]; exact hands.stock
  · rw [sorts.monitor, State.updatePort_monitor, w]; exact hands.monitor
  · rw [sorts.sent, State.updatePort_sent, w]; exact hands.sent
  · rw [sorts.store, State.updatePort_store, w]; exact hands.store

/-- The condition that a failing port raises, if any (R59, R55). -/
def State.raised (s : State) (p : Printer) (condition : Option PrinterFault) : State :=
  match condition with
  | some c => s.raise (.printer p c)
  | none => s

theorem State.failPort_eq (s : State) (p : Printer) (condition : Option PrinterFault) :
    s.failPort p condition = ((((s.raised p condition).withdrawClaim (.engine p)).resolveWindow p .protocol).updatePort p
      fun x => { x with
        state := .failed, attachTimer := none, pollTimer := none, replyTimer := none, absentTimer := none }).refuseQueue
      p := by
  cases condition <;> rfl

/-- A port that enters FAILED (R59). -/
theorem State.failPort_effect (s : State) (p : Printer) (condition : Option PrinterFault) :
    (s.jobsAt p → (s.failPort p condition).queues.at p = []) ∧
    (s.failPort p condition).stock = s.stock ∧ (s.failPort p condition).sent = s.sent ∧
    (s.failPort p condition).ports = s.ports.put p { s.ports.at p with
      entries := [], state := .failed, attachTimer := none, pollTimer := none, replyTimer := none, absentTimer := none } ∧
    (s.failPort p condition).journal.queue = s.journal.queue ++ s.spoils .protocol p (s.ports.at p).entries ∧
    ((∀ e ∈ (s.ports.at p).entries, ∀ t ∈ e.ticket, 1 ≤ t.places) →
      (s.failPort p condition).journal.reserved = s.journal.reserved -
        (s.ports.at p).places) ∧
    .engine p ∉ (s.failPort p condition).journal.claims ∧
    (s.failPort p condition).monitor = (s.raised p condition).monitor := by
  have notes : s.Notes (s.raised p condition) := by
    cases condition with
    | none => exact .refl s
    | some c => exact State.raise_notes s _
  rw [show s.failPort p condition = _ from State.failPort_eq s p condition]
  generalize s.raised p condition = t at *
  obtain ⟨ports, empty, queue, reserved, claims, stock, monitor, sent, _⟩ :=
    State.leave_effect (t.withdrawClaim (.engine p)) p .protocol (fun x =>
      { x with state := .failed, attachTimer := none, pollTimer := none, replyTimer := none, absentTimer := none })
      (fun _ => by simp)
  have tp : (t.withdrawClaim (.engine p)).ports = s.ports := notes.ports
  have tq : (t.withdrawClaim (.engine p)).queues = s.queues := notes.queues
  have tj : (t.withdrawClaim (.engine p)).jobs = s.jobs := notes.jobs
  refine ⟨fun h => empty ?_, stock.trans notes.stock, sent.trans notes.sent, ?_, ?_, fun h => ?_, ?_, monitor⟩
  · unfold State.jobsAt State.standsAt; rw [tp, tq, tj]; exact h
  · rw [ports, tp]
  · rw [queue, State.spoils_jobs tj, tp]
    show t.journal.queue ++ _ = _
    rw [notes.journal]
  · rw [reserved (by rw [tp]; exact h), tp]
    show t.journal.reserved - _ = _
    rw [notes.journal]
  · rw [claims _ (by simp)]
    simp [State.withdrawClaim]

/-- What a port that enters FAILED leaves (R59). -/
theorem State.failPort_leaves (s : State) (p : Printer) (condition : Option PrinterFault) :
    s.Leaves p .failed .protocol (s.failPort p condition) := by
  obtain ⟨empty, _, _, ports, queue, reserved, claim, _⟩ := State.failPort_effect s p condition
  have loud := State.failPort_loud (.refl s) p condition
  refine ⟨?_, ?_, ?_, fun q h => ?_, fun h => empty h.1, queue, reserved, claim, loud.keeps, loud.books⟩
  · rw [ports, Vector.at_put_same]
  · rw [ports, Vector.at_put_same]
  · rw [ports, Vector.at_put_same]; exact ⟨rfl, rfl, rfl, rfl⟩
  · rw [ports, Vector.at_put, if_neg (Ne.symm h)]

/-- What a port that goes ABSENT after the third unanswered poll leaves (R48). -/
theorem State.goAbsent_leaves (s : State) (p : Printer) : s.Leaves p .absent .lost (s.goAbsent p) := by
  have loud := State.goAbsent_loud (.refl s) p
  have notes := State.raise_notes s (.printer p .noAnswer)
  obtain ⟨ports, empty, queue, reserved, claims, _⟩ :=
    State.leave_effect ((s.raise (.printer p .noAnswer)).withdrawClaim (.engine p)) p .lost (fun x =>
      { x with state := .absent, attachTimer := none, pollTimer := none, replyTimer := none
               absentTimer := some Config.absentRepeatMs }) (fun _ => by simp)
  change (s.goAbsent p).ports = _ at ports
  change _ → (s.goAbsent p).queues.at p = [] at empty
  change (s.goAbsent p).journal.queue = _ at queue
  change _ → (s.goAbsent p).journal.reserved = _ at reserved
  change ∀ c : Claim, _ → (c ∈ (s.goAbsent p).journal.claims ↔ _) at claims
  have tp : ((s.raise (.printer p .noAnswer)).withdrawClaim (.engine p)).ports = s.ports := notes.ports
  have tq : ((s.raise (.printer p .noAnswer)).withdrawClaim (.engine p)).queues = s.queues := notes.queues
  have tj : ((s.raise (.printer p .noAnswer)).withdrawClaim (.engine p)).jobs = s.jobs := notes.jobs
  refine ⟨?_, ?_, ?_, fun q h => ?_, fun h => empty ?_, ?_, fun h => ?_, ?_, loud.keeps, loud.books⟩
  · rw [ports, Vector.at_put_same]
  · rw [ports, Vector.at_put_same]
  · rw [ports, Vector.at_put_same]; exact ⟨rfl, rfl, rfl, rfl⟩
  · rw [ports, Vector.at_put, if_neg (Ne.symm h), tp]
  · unfold State.jobsAt State.standsAt; rw [tp, tq, tj]; exact h.1
  · rw [queue, State.spoils_jobs tj, tp]
    show (s.raise _).journal.queue ++ _ = _
    rw [notes.journal]
  · rw [reserved (by rw [tp]; exact h), tp]
    show (s.raise _).journal.reserved - _ = _
    rw [notes.journal]
  · rw [claims _ (by simp)]
    simp [State.withdrawClaim]

/-! ### Reports that name an entry -/

theorem State.takesReports.attached {s : State} {p : Printer} (h : s.takesReports p) :
    (s.ports.at p).attached = true := by
  unfold Port.attached
  rcases h.2 with h | h <;> simp [h]

theorem State.takesReports.running {s : State} {p : Printer} (h : s.takesReports p) : s.isRunning = true := by
  unfold State.isRunning
  simp [h.1]

/-- The place of the entry named is the number of older entries. -/
theorem State.Names.placeOf {s : State} {p : Printer} {body : List Byte} {older : List Entry} {e : Entry}
    {younger : List Entry} (h : s.Names p body older e younger) :
    (s.ports.at p).placeOf e.image = some older.length := by
  unfold Port.placeOf
  rw [h.window, List.findIdx?_eq_some_iff_getElem]
  refine ⟨by simp, by simp, ?_⟩
  intro j hj
  rw [List.getElem_append_left (by omega)]
  simpa using h.oldest older[j] (List.getElem_mem _)

/-- A report that names an entry is taken with its place (R54). -/
theorem State.Names.report {s : State} {p : Printer} {body : List Byte} {older : List Entry} {e : Entry}
    {younger : List Entry} (h : s.Names p body older e younger) (take : Nat → State) :
    s.takeReport p body take = take older.length := by
  unfold State.takeReport
  rw [if_pos (by simp [h.takes.running, h.takes.attached])]
  have read : readImage body = some (some e.image) := by
    unfold readImage
    rw [h.body]
    simp [index?]
  rw [read]
  dsimp only
  rw [h.placeOf]

theorem State.Names.phaseAt {s : State} {p : Printer} {body : List Byte} {older : List Entry} {e : Entry}
    {younger : List Entry} (h : s.Names p body older e younger) :
    (s.ports.at p).phaseAt older.length = some e.phase := by
  unfold Port.phaseAt
  rw [h.window]
  simp

theorem State.Names.olderAll {s : State} {p : Printer} {body : List Byte} {older : List Entry} {e : Entry}
    {younger : List Entry} (h : s.Names p body older e younger) (q : EntryPhase → Bool) :
    (s.ports.at p).olderAll older.length q = older.all fun o => q o.phase := by
  unfold Port.olderAll
  rw [h.window]
  simp

/-- The entry named and its job. -/
theorem State.NamesTicket.ticketAt {s : State} {p : Printer} {body : List Byte} {older : List Entry} {e : Entry}
    {younger : List Entry} {t : TicketPart} {job : Job} (h : s.NamesTicket p body older e younger t job) :
    s.ticketAt p older.length = some (e, t.job, job) := by
  unfold State.ticketAt
  rw [h.toNames.window]
  simp [h.ticket, h.job]

/-- A change at the place of an entry changes it alone. -/
theorem modify_at_place (older : List Entry) (e : Entry) (younger : List Entry) (f : Entry → Entry) :
    (older ++ e :: younger).modify older.length f = older ++ f e :: younger := by
  induction older with
  | nil => rfl
  | cons a as ih => simpa using ih

end Sys2Proof.Machine
end

