-- ==== Sys2Proof/Laws/Requests.lean ====
section
/-! SUPPORT. Requests and line events: they leave alone what `Keeps` names and keep the limits of the office ports, one
fault record per condition, and the issue log's form. -/

namespace Sys2Proof.Machine

/-- What an event that is neither the end of a write nor a supply event does at most. -/
structure State.Mild (s t : State) : Prop where
  keeps : s.Keeps t
  office : s.officeSound → t.officeSound
  faults : s.faultsDistinct → t.faultsDistinct
  log : s.sessions.logSound → t.sessions.logSound

theorem State.Mild.refl (s : State) : s.Mild s := ⟨.refl s, id, id, id⟩

theorem State.Mild.trans {s t u : State} (a : s.Mild t) (b : t.Mild u) : s.Mild u :=
  ⟨a.keeps.trans b.keeps, fun h => b.office (a.office h), fun h => b.faults (a.faults h), fun h => b.log (a.log h)⟩

theorem State.Mild.foldl {α : Type} {f : State → α → State} (h : ∀ (s : State) (a : α), s.Mild (f s a)) (l : List α)
    (s : State) : s.Mild (l.foldl f s) := by
  induction l generalizing s with
  | nil => exact .refl s
  | cons a l ih => exact (h s a).trans (ih _)

/-- A port that is only served keeps its limits. -/
theorem OfficePort.Served.sound {o o' : OfficePort} (h : OfficePort.Served o o') {n : Nat} (g : o.sound n) :
    o'.sound n := by
  obtain ⟨a, b, c, d⟩ := g
  refine ⟨by rw [h.buffer]; exact a, ?_, h.notices c, fun q hq => d q (h.unanswered.subset hq)⟩
  unfold OfficePort.credit at *
  exact Nat.le_trans h.unanswered.length_le b

theorem State.OfficeServed.sound {s t : State} (h : s.OfficeServed t) (g : s.officeSound) : t.officeSound := by
  intro w
  have := (h.ports w).sound (g w)
  rw [h.nextRequest]; exact this

theorem State.Loud.mild {s t : State} (h : s.Loud t) : s.Mild t := by
  refine ⟨h.keeps, h.office.sound, h.faults, fun g => ?_⟩
  unfold SessionUnit.logSound; rw [h.books.log]; exact g

theorem State.Quiet.mild {s t : State} (h : s.Quiet t) : s.Mild t := h.loud.mild

theorem State.refuse_mild {s₀ s : State} (h : s₀.Mild s) (r : Reply) (code : AnswerCode) : s₀.Mild (s.refuse r code) :=
  h.trans (State.refuse_loud (.refl _) _ _).mild

theorem State.answer_mild {s₀ s : State} (h : s₀.Mild s) (r : Reply) (code : AnswerCode) (f : Figures) :
    s₀.Mild (s.answer r code f) :=
  h.trans (State.answer_loud (.refl _) _ _ _).mild

theorem State.hand_mild {s₀ s : State} (h : s₀.Mild s) (r : JRecord) (link : Link) : s₀.Mild (s.hand r link) :=
  h.trans (State.hand_quiet (.refl _) _ _).mild

theorem State.settle_mild {s₀ s : State} (h : s₀.Mild s) : s₀.Mild s.settle :=
  h.trans (State.settle_quiet (.refl _)).mild

/-- A change of the session unit that keeps the issue log's form. -/
theorem State.updateSessions_mild {s₀ s : State} (h : s₀.Mild s) (f : SessionUnit → SessionUnit)
    (g : s.sessions.logSound → (f s.sessions).logSound) : s₀.Mild (s.updateSessions f) :=
  h.trans ⟨⟨rfl, rfl, rfl, rfl, rfl, rfl, rfl, rfl, rfl, rfl, id, List.prefix_rfl⟩, id, id, g⟩

theorem State.modifySession_mild {s₀ s : State} (h : s₀.Mild s) (n : Nat) (f : Session → Session) :
    s₀.Mild (s.modifySession n f) :=
  State.updateSessions_mild h (fun u => u.modify n f) fun g => by
    unfold SessionUnit.logSound; rw [SessionUnit.modify_log]; exact g

/-- A change of an entry's state keeps the log's form. -/
theorem SessionUnit.setLogState_sound (u : SessionUnit) (serial : Nat) (ty : StockType) (st : LogState)
    (h : u.logSound) : (u.setLogState serial ty st).logSound := by
  unfold SessionUnit.logSound SessionUnit.setLogState at *
  dsimp only
  rw [List.length_map, List.map_map]
  have : ((fun e : LogEntry => (e.serial, e.stockType)) ∘ fun e : LogEntry =>
      if e.isFor serial ty then { e with state := st } else e) = fun e => (e.serial, e.stockType) := by
    funext e; simp only [Function.comp]; split <;> rfl
  rw [this]; exact h

theorem State.withJournal_mild {s₀ s : State} (h : s₀.Mild s) (r : Reply) (own : State) (g : s₀.Mild own) :
    s₀.Mild (s.withJournal r own) := by
  unfold State.withJournal
  split
  · exact State.refuse_mild h _ _
  · exact g

/-! ### Clerk requests -/

theorem ownSignon_mild (s : State) (r : Reply) (a : Nat × Nat) : s.Mild (ownSignon s r a) := by
  apply State.withJournal_mild (.refl _)
  split
  · exact State.refuse_mild (.refl _) _ _
  · unfold State.openSessionRecord State.handFor
    exact State.hand_mild (State.updateSessions_mild (.refl _) _ (fun g => g)) _ _

theorem ownSignoff_mild (s : State) (r : Reply) (a : Unit) : s.Mild (ownSignoff s r a) := by
  apply State.withJournal_mild (.refl _)
  split
  · exact State.refuse_mild (.refl _) _ _
  · exact State.settle_mild ((State.modifySession_mild (.refl _) _ _).trans (State.signOffTest_quiet (.refl _) _).mild)

theorem State.acceptJob_mild (s : State) (job : Job) : s.Mild (s.acceptJob job) := by
  unfold State.acceptJob
  split
  · exact State.refuse_mild (.refl _) _ _
  · exact (State.settle_quiet (State.modifySession_quiet (State.setQueue_quiet (State.setJob_quiet (.refl _) _ _) _ _)
      _ _ (fun _ => by rfl))).mild

theorem ownIssue_mild (s : State) (r : Reply) (a : IssueBody) : s.Mild (ownIssue s r a) := by
  apply State.withJournal_mild (.refl _)
  split
  · exact State.refuse_mild (.refl _) _ _
  · exact State.acceptJob_mild _ _

theorem ownTestprint_mild (s : State) (r : Reply) (a : Nat) : s.Mild (ownTestprint s r a) := by
  apply State.withJournal_mild (.refl _)
  split
  · exact State.refuse_mild (.refl _) _ _
  · exact State.acceptJob_mild _ _

theorem ownCancel_mild (s : State) (r : Reply) (a : Nat) : s.Mild (ownCancel s r a) := by
  unfold ownCancel
  split
  · exact State.refuse_mild (.refl _) _ _
  · split
    · unfold State.cancelJob
      dsimp only
      refine (State.settle_loud (State.refuse_loud (State.refuseJob_loud ?_ _ _ _) _ _)).mild
      split
      · exact (State.withdrawClaim_quiet (.refl _) _).loud
      · exact .refl _
    · exact State.refuse_mild (.refl _) _ _

theorem ownVoid_mild (s : State) (r : Reply) (a : Nat × Nat) : s.Mild (ownVoid s r a) := by
  apply State.withJournal_mild (.refl _)
  split
  · exact State.refuse_mild (.refl _) _ _
  · exact State.hand_mild (State.updateSessions_mild (.refl _) _ (SessionUnit.setLogState_sound _ _ _ _)) _ _

theorem ownRefund_mild (s : State) (r : Reply) (a : RefundBody) : s.Mild (ownRefund s r a) := by
  apply State.withJournal_mild (.refl _)
  split
  · exact State.refuse_mild (.refl _) _ _
  · unfold State.acceptRefund
    split
    · exact State.hand_mild (State.updateSessions_mild (.refl _) _ (SessionUnit.setLogState_sound _ _ _ _)) _ _
    · exact State.hand_mild (.refl _) _ _

/-! ### Management requests -/

theorem ownStockin_mild (s : State) (r : Reply) (a : StockinBody) : s.Mild (ownStockin s r a) := by
  apply State.withJournal_mild (.refl _)
  split
  · exact State.refuse_mild (.refl _) _ _
  · split
    · exact State.refuse_mild (.refl _) _ _
    · split
      · exact State.hand_mild (State.setStock_quiet (.refl _) _).mild _ _
      · exact State.refuse_mild (.refl _) _ _

theorem State.acceptStockload_mild (s : State) (r : Reply) (p : Printer) (b : Batch) :
    s.Mild (s.acceptStockload r p b) := by
  unfold State.acceptStockload
  dsimp only
  refine (State.settle_loud (State.resolveQueue_loud (State.lowStockTest_loud (State.endCondition_loud ?_ _) _)
    _ _ _)).mild
  exact (State.removeHold_quiet (State.hand_quiet (State.setLoaded_quiet (State.setStock_quiet
    (State.clearClosing_quiet (.refl _) _) _) _ _) _ _) _ _).loud

theorem ownStockload_mild (s : State) (r : Reply) (a : Nat × Nat) : s.Mild (ownStockload s r a) := by
  apply State.withJournal_mild (.refl _)
  split
  · exact State.refuse_mild (.refl _) _ _
  · exact State.acceptStockload_mild _ _ _ _

theorem State.acceptStockout_mild (s : State) (r : Reply) (p : Printer) (b : Batch) :
    s.Mild (s.acceptStockout r p b) := by
  have h : s.Quiet ((s.clearClosing p).setLoaded p none) :=
    State.setLoaded_quiet (State.clearClosing_quiet (.refl _) _) _ _
  unfold State.acceptStockout
  dsimp only
  generalize (s.clearClosing p).setLoaded p none = t at *
  refine (State.settle_quiet (State.addStockHold_quiet (State.hand_quiet ?_ _ _) _ _)).mild
  split
  · exact State.setStock_quiet h _
  · exact h

theorem ownStockout_mild (s : State) (r : Reply) (a : Nat) : s.Mild (ownStockout s r a) := by
  apply State.withJournal_mild (.refl _)
  split
  · exact State.refuse_mild (.refl _) _ _
  · exact State.acceptStockout_mild _ _ _ _

theorem State.acceptStockcount_mild (s : State) (r : Reply) (p : Printer) (b : Batch) (n : Nat) :
    s.Mild (s.acceptStockcount r p b n) := by
  unfold State.acceptStockcount
  dsimp only
  refine (State.settle_loud (State.lowStockTest_loud ?_ _)).mild
  split
  · exact (State.endCondition_loud (State.removeHold_quiet (State.hand_quiet (State.setLoaded_quiet (.refl _) _ _) _ _)
      _ _).loud _).quiet (State.exhaust_quiet (.refl _) _ _)
  · exact State.endCondition_loud (State.removeHold_quiet (State.hand_quiet (State.setLoaded_quiet (.refl _) _ _) _ _)
      _ _).loud _

theorem ownStockcount_mild (s : State) (r : Reply) (a : Nat × Nat) : s.Mild (ownStockcount s r a) := by
  apply State.withJournal_mild (.refl _)
  split
  · exact State.refuse_mild (.refl _) _ _
  · exact State.acceptStockcount_mild _ _ _ _ _

theorem ownHold_mild (s : State) (r : Reply) (a : Nat) : s.Mild (ownHold s r a) := by
  unfold ownHold
  split
  · exact State.refuse_mild (.refl _) _ _
  · exact (State.settle_loud (State.refuse_loud (State.addHold_quiet (.refl _) _ _).loud _ _)).mild

theorem State.release_loud {s₀ s : State} (h : s₀.Loud s) (p : Printer) : s₀.Loud (s.release p) := by
  have h := h.quiet (State.removeHold_quiet (.refl s) p .supervisor)
  unfold State.release
  dsimp only
  generalize s.removeHold p .supervisor = t at *
  split
  · exact (State.endCondition_loud (State.endCondition_loud h _) _).quiet (State.beginAttach_quiet (.refl _) _)
  · exact h

theorem ownRelease_mild (s : State) (r : Reply) (a : Nat) : s.Mild (ownRelease s r a) := by
  unfold ownRelease
  split
  · exact State.refuse_mild (.refl _) _ _
  · exact (State.settle_loud (State.refuse_loud (State.release_loud (.refl _) _) _ _)).mild

theorem ownDeclare_mild (s : State) (r : Reply) (a : Nat × PerTender Nat) : s.Mild (ownDeclare s r a) := by
  apply State.withJournal_mild (.refl _)
  split
  · exact State.refuse_mild (.refl _) _ _
  · exact State.hand_mild (State.modifySession_mild (.refl _) _ _) _ _

theorem ownClose_mild (s : State) (r : Reply) (a : Nat × Bool) : s.Mild (ownClose s r a) := by
  apply State.withJournal_mild (.refl _)
  split
  · exact State.refuse_mild (.refl _) _ _
  · exact State.hand_mild (State.modifySession_mild (.refl _) _ _) _ _

theorem State.beginWrite_mild (s : State) (w : StoreWrite) : s.Mild (s.beginWrite w) :=
  ⟨⟨rfl, rfl, rfl, rfl, rfl, rfl, rfl, rfl, rfl, rfl, id, List.prefix_rfl⟩, id, id, id⟩

theorem ownTableload_mild (s : State) (r : Reply) (a : Option TableEntries) : s.Mild (ownTableload s r a) := by
  unfold ownTableload
  repeat' split
  all_goals first | exact State.refuse_mild (.refl _) _ _ | exact State.beginWrite_mild _ _

theorem ownReporting_mild (s : State) (r : Reply) (a : Bool) : s.Mild (ownReporting s r a) := by
  unfold ownReporting
  split
  · exact State.refuse_mild (.refl _) _ _
  · exact State.beginWrite_mild _ _

theorem ownCauseclear_mild (s : State) (r : Reply) (a : Unit) : s.Mild (ownCauseclear s r a) := by
  unfold ownCauseclear
  split
  · exact State.refuse_mild (.refl _) _ _
  · exact State.beginWrite_mild _ _

theorem State.answerRead_mild (s : State) (r : Reply) (f : Option Figures) : s.Mild (s.answerRead r f) := by
  unfold State.answerRead
  split
  · exact State.answer_mild (.refl _) _ _ _
  · exact State.refuse_mild (.refl _) _ _

theorem ownSessionread_mild (s : State) (r : Reply) (a : SessionSelector) : s.Mild (ownSessionread s r a) := by
  unfold ownSessionread
  repeat' split
  all_goals first | exact State.refuse_mild (.refl _) _ _ | exact State.answer_mild (.refl _) _ _ _

/-- Clearing a pair only removes records. -/
theorem clearOne_sublist (x : List FaultRecord × Nat × List Condition) (c : Condition) :
    (clearOne x c).1.Sublist x.1 := by
  unfold clearOne
  split
  · split
    · exact .refl _
    · exact List.filter_sublist
  · exact .refl _

theorem clearAll_sublist (cs : List Condition) (x : List FaultRecord × Nat × List Condition) :
    (cs.foldl clearOne x).1.Sublist x.1 := by
  induction cs generalizing x with
  | nil => exact .refl _
  | cons c cs ih => exact (ih _).trans (clearOne_sublist x c)

theorem ownFaultclear_mild (s : State) (r : Reply) (a : List (Nat × Nat)) : s.Mild (ownFaultclear s r a) := by
  unfold ownFaultclear
  split
  · exact State.refuse_mild (.refl _) _ _
  · dsimp only
    exact State.answer_mild (State.setMonitor_loud (.refl _) _ fun g =>
      g.sublist ((clearAll_sublist _ _).map _)).mild _ _ _

/-! ### RESET -/

theorem ownResetFull_mild (s : State) (r : Reply) (a : Bool) : s.Mild (ownResetFull s r a) := by
  unfold ownResetFull
  split
  · exact State.refuse_mild (.refl _) _ _
  · refine (State.setOffice_loud (.refl _) _ _ ?_).mild
    refine (OfficePort.close_served _ r.number).trans ⟨rfl, List.Sublist.refl _, fun g => ?_⟩
    simpa [List.countP_append, OutFrame.isNotice] using g

theorem State.resetEngine_quiet (s : State) (p : Printer) : s.Quiet (s.resetEngine p) := by
  have h : s.Quiet ((((s.ports.at p).entries.foldl (State.dropEntry .reset p) s)).updatePort p fun x =>
      { x with entries := [], audit := [], slips := [] }) :=
    State.updatePort_quiet (State.dropEntries_quiet (.refl _) _ _ _) _ _
  unfold State.resetEngine
  dsimp only
  generalize State.updatePort _ p _ = t at *
  split
  · exact State.updatePort_quiet h _ _
  · exact State.beginAttach_quiet h _

theorem State.cutAnswers_mild (s : State) : s.Mild s.cutAnswers := by
  refine ⟨⟨rfl, rfl, rfl, rfl, rfl, rfl, rfl, rfl, rfl, rfl, id, ?_⟩, id, id, id⟩
  simp [State.cutAnswers, List.map_map, Function.comp_def]

theorem State.resetRequest_loud (s : State) (q : Window × OpenRequest) : s.Loud (s.resetRequest q) := by
  unfold State.resetRequest
  split
  · exact State.endJob_loud (.refl _) _ _ _ _
  · exact State.refuse_loud (.refl _) _ _

/-- A port changed so that it keeps its limits. -/
theorem State.setOffice_mild {s₀ s : State} (h : s₀.Mild s) (w : Window) (x : OfficePort)
    (sound : (s.office.at w).sound s.nextRequest → x.sound s.nextRequest) : s₀.Mild (s.setOffice w x) := by
  refine h.trans ⟨⟨rfl, rfl, rfl, rfl, rfl, rfl, rfl, rfl, rfl, rfl, id, List.prefix_rfl⟩, fun g v => ?_, id, id⟩
  simp only [State.setOffice_office, State.setOffice_nextRequest, Vector.at_put]
  split
  · exact sound (g w)
  · exact g v

theorem State.resetWindow_mild (s : State) (w : Window) : s.Mild (s.resetWindow w) := by
  unfold State.resetWindow
  dsimp only
  refine State.setOffice_mild (.refl s) _ _ fun g => ?_
  exact ⟨Nat.zero_le _, Nat.zero_le _, g.2.2.1, fun _ h => absurd h List.not_mem_nil⟩

theorem State.pathReset_mild (s : State) : s.Mild s.pathReset := by
  unfold State.pathReset
  dsimp only
  apply State.settle_mild
  have a : s.Mild (allPrinters.foldl State.resetEngine (s.updateJournal fun j =>
      { j with claims := j.claims.filter fun c =>
          match c with
          | .engine _ => false
          | .batch _ => true
          | .session _ => true })).cutAnswers := by
    refine State.Mild.trans ?_ (State.cutAnswers_mild _)
    refine State.Mild.trans ?_ (State.Quiet.foldl State.resetEngine_quiet _ _).mild
    refine State.Quiet.mild ?_
    apply State.updateJournal_quiet (.refl s) <;> first | rfl | exact id
  generalize State.cutAnswers _ = u at *
  refine State.Mild.trans (t := allWindows.foldl State.resetWindow (u.openRequests.foldl State.resetRequest u)) ?_ ?_
  · exact (a.trans (State.Loud.foldl State.resetRequest_loud _ _).mild).trans (State.Mild.foldl State.resetWindow_mild _ _)
  · generalize allWindows.foldl State.resetWindow _ = t
    exact ⟨⟨rfl, rfl, rfl, rfl, rfl, rfl, rfl, rfl, rfl, rfl, id, List.prefix_rfl⟩, id, fun _ => List.nodup_nil, id⟩

theorem ownResetPath_mild (s : State) (r : Reply) (a : Bool) : s.Mild (ownResetPath s r a) :=
  (State.refuse_mild (.refl _) _ _).trans (State.pathReset_mild _)

/-! ### Taking a frame -/

theorem State.admit_mild (s : State) (w : Window) (tag : Byte) (h : (s.office.at w).credit ≠ Config.creditLimit) :
    s.Mild (s.takeCredit w tag).1 := by
  refine ⟨⟨rfl, rfl, rfl, rfl, rfl, rfl, rfl, rfl, rfl, rfl, id, List.prefix_rfl⟩, fun g v => ?_, id, id⟩
  have e : (s.takeCredit w tag).1.office.at v = if w = v then
      { s.office.at w with unanswered := (s.office.at w).unanswered ++ [{ number := s.nextRequest, tag }] }
      else s.office.at v := by
    simp only [State.takeCredit, State.setOffice, Vector.at_put]
  have n : (s.takeCredit w tag).1.nextRequest = s.nextRequest + 1 := rfl
  rw [e, n]
  split
  · obtain ⟨a, b, c, d⟩ := g w
    refine ⟨a, ?_, c, fun q hq => ?_⟩
    · unfold OfficePort.credit at *
      rw [List.length_append, List.length_singleton]
      have : (s.office.at w).unanswered.length < Config.creditLimit := Nat.lt_of_le_of_ne b h
      omega
    · rw [List.mem_append, List.mem_singleton] at hq
      rcases hq with hq | rfl
      · exact Nat.lt_succ_of_lt (d q hq)
      · exact Nat.lt_succ_self _
  · obtain ⟨a, b, c, d⟩ := g v
    exact ⟨a, b, c, fun q hq => Nat.lt_succ_of_lt (d q hq)⟩

/-- Taking a frame is mild when its owner's part is. -/
theorem State.takeFrame_mild (s : State) (w : Window) (mine : Frame → Bool) (cancel : Bool)
    (check : State → Reply → Frame → State) (h : ∀ (t : State) (r : Reply) (f : Frame), t.Mild (check t r f)) :
    s.Mild (s.takeFrame w mine cancel check) := by
  have pop : ∀ (f : Frame) (rest : List Frame), (s.office.at w).buffer = f :: rest →
      s.Mild (s.setOffice w { s.office.at w with buffer := rest }) := fun f rest e =>
    State.setOffice_mild (.refl _) _ _ fun g => ⟨by
      have := g.1; rw [e, List.length_cons] at this; exact Nat.le_of_succ_le this, g.2⟩
  unfold State.takeFrame
  split
  · exact .refl _
  · rename_i f rest e
    have pop := pop f rest e
    split
    · split
      · exact .refl _
      · exact State.refuse_mild pop _ _
      · dsimp only
        generalize s.setOffice w { s.office.at w with buffer := rest } = t at *
        split
        · split
          · split
            · exact pop.trans (h _ _ _)
            · exact State.refuse_mild pop _ _
          · rename_i g
            exact (pop.trans (State.admit_mild t w f.tag g)).trans (h _ _ _)
        · exact pop
    · exact .refl _

theorem State.checked_mild {α : Type} (kind : RequestKind) (read : List Byte → Option α)
    (owner : State → Reply → α → State) (h : ∀ (t : State) (r : Reply) (a : α), t.Mild (owner t r a)) (s : State) (r : Reply) (f : Frame) :
    s.Mild (State.checked kind read owner s r f) := by
  unfold State.checked
  split
  · exact State.refuse_mild (.refl _) _ _
  · split
    · exact State.refuse_mild (.refl _) _ _
    · exact h _ _ _

theorem State.takeRequest_mild {α : Type} (s : State) (w : Window) (kind : RequestKind) (read : List Byte → Option α)
    (owner : State → Reply → α → State) (h : ∀ (t : State) (r : Reply) (a : α), t.Mild (owner t r a)) :
    s.Mild (s.takeRequest w kind read owner) :=
  State.takeFrame_mild _ _ _ _ _ fun _ _ _ => State.checked_mild _ _ _ h _ _ _

/-! ### Line events -/

theorem execFrameReceived_mild {w : Window} {kind tag : Byte} {body : List Byte} {s t : State}
    (h : execFrameReceived w kind tag body s = .next t) : s.Mild t := by
  unfold execFrameReceived at h
  cases h
  split
  · split
    · dsimp only
      split
      · rename_i g
        refine State.Mild.trans ?_ (State.endLineConditions_loud (.refl _) _).mild
        refine State.setOffice_mild (.refl s) w _ fun k => ⟨?_, k.2⟩
        rw [List.length_append, List.length_singleton]; exact g
      · exact (State.raise_loud (.refl _) _).mild
    · exact (State.refuse_loud (State.endLineConditions_loud (.refl _) _) _ _).mild
  · exact .refl _

theorem State.lineError_mild (s : State) (w : Window) (c : LineFault) : s.Mild (s.lineError w c) := by
  unfold State.lineError
  split
  · exact (State.raise_loud (.refl _) _).mild
  · exact .refl _

/-- The events that arrive on office lines and are neither the end of a write nor a restart. -/
def ofOfficeLine : Instr → Bool
  | .frameReceived _ _ _ _ | .frameDiscarded _ _ _ | .gapTimerExpiry _ | .signon _ | .signoff _ | .issue _
  | .testprint _ | .cancel _ | .void _ | .refund _ | .tableload _ | .tableread _ | .stockin _ | .stockload _
  | .stockout _ | .stockcount _ | .stockread _ | .hold _ | .release _ | .declare _ | .close _ | .sessionread _
  | .faultread _ | .faultclear _ | .reporting _ | .journalread _ | .statusread _ | .causeclear _ | .resetFull _
  | .resetPath _ | .nonRequestFrame _ => true
  | _ => false

/-- What every event of an office line does at most. -/
theorem exec_mild_of_office {c : Instr} {s t : State} (g : ofOfficeLine c = true) (h : exec c s = .next t) :
    s.Mild t := by
  cases c <;> first | exact absurd g Bool.false_ne_true | skip
  case frameReceived => exact execFrameReceived_mild h
  all_goals cases h
  case frameDiscarded => exact State.lineError_mild _ _ _
  case gapTimerExpiry => exact State.lineError_mild _ _ _
  case signon => exact State.takeRequest_mild _ _ _ _ _ ownSignon_mild
  case signoff => exact State.takeRequest_mild _ _ _ _ _ ownSignoff_mild
  case issue => exact State.takeRequest_mild _ _ _ _ _ ownIssue_mild
  case testprint => exact State.takeRequest_mild _ _ _ _ _ ownTestprint_mild
  case cancel => exact State.takeRequest_mild _ _ _ _ _ ownCancel_mild
  case void => exact State.takeRequest_mild _ _ _ _ _ ownVoid_mild
  case refund => exact State.takeRequest_mild _ _ _ _ _ ownRefund_mild
  case tableload => exact State.takeRequest_mild _ _ _ _ _ ownTableload_mild
  case tableread => exact State.takeRequest_mild _ _ _ _ _ fun _ _ _ => State.answerRead_mild _ _ _
  case stockin => exact State.takeRequest_mild _ _ _ _ _ ownStockin_mild
  case stockload => exact State.takeRequest_mild _ _ _ _ _ ownStockload_mild
  case stockout => exact State.takeRequest_mild _ _ _ _ _ ownStockout_mild
  case stockcount => exact State.takeRequest_mild _ _ _ _ _ ownStockcount_mild
  case stockread => exact State.takeRequest_mild _ _ _ _ _ fun _ _ _ => State.answerRead_mild _ _ _
  case hold => exact State.takeRequest_mild _ _ _ _ _ ownHold_mild
  case release => exact State.takeRequest_mild _ _ _ _ _ ownRelease_mild
  case declare => exact State.takeRequest_mild _ _ _ _ _ ownDeclare_mild
  case close => exact State.takeRequest_mild _ _ _ _ _ ownClose_mild
  case sessionread => exact State.takeRequest_mild _ _ _ _ _ ownSessionread_mild
  case faultread => exact State.takeRequest_mild _ _ _ _ _ fun _ _ _ => State.answerRead_mild _ _ _
  case faultclear => exact State.takeRequest_mild _ _ _ _ _ ownFaultclear_mild
  case reporting => exact State.takeRequest_mild _ _ _ _ _ ownReporting_mild
  case journalread => exact State.takeRequest_mild _ _ _ _ _ fun _ _ _ => State.answerRead_mild _ _ _
  case statusread => exact State.takeRequest_mild _ _ _ _ _ fun _ _ _ => State.answer_mild (.refl _) _ _ _
  case causeclear => exact State.takeRequest_mild _ _ _ _ _ ownCauseclear_mild
  case resetFull => exact State.takeFrame_mild _ _ _ _ _ fun _ _ _ => State.checked_mild _ _ _ ownResetFull_mild _ _ _
  case resetPath => exact State.takeFrame_mild _ _ _ _ _ fun _ _ _ => State.checked_mild _ _ _ ownResetPath_mild _ _ _
  case nonRequestFrame => exact State.takeFrame_mild _ _ _ _ _ fun _ _ _ => State.refuse_mild (.refl _) _ _

end Sys2Proof.Machine
end

