-- ==== Sys2Proof/Laws/Writes.lean ====
section
/-! SUPPORT. The ends of writes, the supply and recovery: what each leaves of the invariants. -/

namespace Sys2Proof.Machine

/-! ### Written records -/

theorem SessionUnit.modify_logSound (u : SessionUnit) (n : Nat) (f : Session → Session) (h : u.logSound) :
    (u.modify n f).logSound := by
  unfold SessionUnit.logSound; rw [SessionUnit.modify_log]; exact h

theorem SessionUnit.addFigures_log (u : SessionUnit) (r : JRecord) : (u.addFigures r).log = u.log := by
  unfold SessionUnit.addFigures
  split <;> first | exact SessionUnit.modify_log _ _ _ | rfl

/-- A new entry keeps the log's form: an entry of its pair goes first, then the oldest of a full log. -/
theorem addLogEntry_sound (log : List LogEntry) (e : LogEntry)
    (h : log.length ≤ Config.logEntries ∧ (log.map fun e => (e.serial, e.stockType)).Nodup) :
    (addLogEntry log e).length ≤ Config.logEntries ∧
      ((addLogEntry log e).map fun e => (e.serial, e.stockType)).Nodup := by
  obtain ⟨len, nodup⟩ := h
  have fresh : ∀ x ∈ log.filter fun x => !x.isFor e.serial e.stockType,
      (x.serial, x.stockType) ≠ (e.serial, e.stockType) := by
    intro x hx g
    have := (List.mem_filter.mp hx).2
    simp only [LogEntry.isFor, Prod.mk.injEq] at this g
    simp [g.1, g.2] at this
  have sub : (log.filter fun x => !x.isFor e.serial e.stockType).Sublist log := List.filter_sublist
  unfold addLogEntry
  dsimp only
  generalize (log.filter fun x => !x.isFor e.serial e.stockType) = rest at *
  have flen := Nat.le_trans sub.length_le len
  have key : ∀ l : List LogEntry, l.Sublist rest → l.length < Config.logEntries →
      (l ++ [e]).length ≤ Config.logEntries ∧ ((l ++ [e]).map fun e => (e.serial, e.stockType)).Nodup := by
    intro l hl hlen
    refine ⟨by rw [List.length_append, List.length_singleton]; exact hlen, ?_⟩
    rw [List.map_append, List.nodup_append]
    refine ⟨nodup.sublist ((hl.trans sub).map _), by simp, ?_⟩
    intro a ha b hb k
    simp only [List.map_cons, List.map_nil, List.mem_singleton] at hb
    subst hb
    obtain ⟨x, hx, rfl⟩ := List.mem_map.mp ha
    exact fresh x (hl.subset hx) k
  split
  · rename_i full
    refine key _ (List.tail_sublist rest) ?_
    rw [List.length_tail]
    have : 0 < Config.logEntries := by decide
    omega
  · exact key rest (.refl _) (by omega)

theorem SessionUnit.settleVoid_sound (u : SessionUnit) (rest : List Queued) (serial : Nat) (ty : StockType)
    (h : u.logSound) : (u.settleVoid rest serial ty).logSound := by
  unfold SessionUnit.settleVoid
  split
  · exact h
  · refine ⟨(List.length_map _).symm ▸ h.1, ?_⟩
    rw [List.map_map]
    refine (List.map_congr_left fun e _ => ?_) ▸ h.2
    dsimp only [Function.comp_apply]; split <;> rfl

theorem SessionUnit.written_logSound (u : SessionUnit) (rest : List Queued) (r : JRecord) (h : u.logSound) :
    (u.written rest r).logSound := by
  unfold SessionUnit.written
  split
  case h_3 => exact addLogEntry_sound _ _ h
  case h_4 => exact SessionUnit.settleVoid_sound _ _ _ _ h
  case h_6 => split <;> exact h
  all_goals first | exact SessionUnit.modify_logSound _ _ _ h | exact h

theorem State.stockWritten_mild {s₀ s : State} (h : s₀.Mild s) (r : JRecord) : s₀.Mild (s.stockWritten r) :=
  h.trans ⟨⟨rfl, rfl, rfl, rfl, rfl, rfl, rfl, rfl, rfl, rfl, id, List.prefix_rfl⟩, id, id, id⟩

theorem State.slipFor_quiet (s : State) (n : Nat) : s.Quiet (s.slipFor n).1 := by
  unfold State.slipFor
  split
  · split
    · exact State.handSlip_quiet (.refl _) _
    · exact .refl _
  · exact .refl _

theorem State.answerWritten_loud (s : State) (r : JRecord) (link : Link) : s.Loud (s.answerWritten r link) := by
  unfold State.answerWritten
  split
  · split
    · exact (State.slipFor_quiet _ _).loud
    · exact .refl _
  · exact State.answer_loud (.refl _) _ _ _
  · split
    · exact State.endJob_loud (.refl _) _ _ _ _
    · exact .refl _
  · split
    · exact State.answer_loud (State.slipFor_quiet _ _).loud _ _ _
    · exact .refl _

/-- What the reports of a written record do at most. -/
theorem State.reportWritten_mild (s : State) (q : Queued) : s.Mild (s.reportWritten q) := by
  have a : s.Mild ((s.stockWritten q.record).updateSessions fun u =>
      (u.addFigures q.record).written (s.stockWritten q.record).journal.queue q.record) := by
    refine State.updateSessions_mild (State.stockWritten_mild (.refl _) _) _ fun h => ?_
    refine SessionUnit.written_logSound _ _ _ ?_
    unfold SessionUnit.logSound; rw [SessionUnit.addFigures_log]; exact h
  unfold State.reportWritten
  dsimp only
  generalize State.updateSessions _ _ = t at *
  refine State.Mild.trans ?_ (State.answerWritten_loud _ _ _).mild
  split
  · exact a.trans (State.recordEnded_quiet (.refl _) _).mild
  · exact a

/-! ### Printer table changes -/

theorem State.endPresent_loud {s₀ s : State} (h : s₀.Loud s) (p : Printer) (c : PrinterFault) (present : Bool) :
    s₀.Loud (s.endPresent p c present) := by
  unfold State.endPresent
  split
  · exact State.endCondition_loud h _
  · exact h

theorem State.endFiltered_loud {s₀ s : State} (h : s₀.Loud s) (p : Printer) : s₀.Loud (s.endFiltered p) := by
  refine h.trans (State.Loud.foldl (fun t c => ?_) _ s)
  split
  · exact State.sensedEnds_loud (State.setFilter_loud (.refl t) _ _ _) _ _
  · exact State.setFilter_loud (.refl t) _ _ _

theorem State.clearRuns_loud {s₀ s : State} (h : s₀.Loud s) (p : Printer) : s₀.Loud (s.clearRuns p) :=
  h.trans (State.Loud.foldl (fun t _ => State.setFilter_loud (.refl t) _ _ _) _ s)

theorem State.applyEntry_loud (s : State) (p : Printer) (old : PrinterEntry) : s.Loud (s.applyEntry p old) := by
  have h : s.Loud ((s.endPresent p .protocol (s.monitor.lasting.at p).protocol).endPresent p .overrun
      (s.monitor.lasting.at p).overrun) :=
    State.endPresent_loud (State.endPresent_loud (.refl _) _ _ _) _ _ _
  unfold State.applyEntry
  dsimp only
  generalize State.endPresent _ p .overrun _ = t at *
  have h : s.Loud (if old.filterDepth = (s.printerEntry p).filterDepth then t else t.clearRuns p) := by
    split
    · exact h
    · exact State.clearRuns_loud h _
  generalize (if old.filterDepth = (s.printerEntry p).filterDepth then t else t.clearRuns p) = u at *
  split
  · exact State.endFiltered_loud ((State.endPresent_loud h _ _ _).quiet (State.updatePort_quiet (.refl _) _ _)) _
  · exact h.quiet (State.beginAttach_quiet (.refl _) _)

theorem State.becomesTicket_quiet {s₀ s : State} (h : s₀.Quiet s) (p : Printer) : s₀.Quiet (s.becomesTicket p) := by
  unfold State.becomesTicket
  split
  · exact State.addHold_quiet h _ _
  · rename_i b _
    have h : s₀.Quiet (if b.state = .exhausted then s.addHold p .noStock else s) := by
      split
      · exact State.addHold_quiet h _ _
      · exact h
    dsimp only
    generalize (if b.state = .exhausted then s.addHold p .noStock else s) = t at *
    split
    · exact State.addHold_quiet h _ _
    · exact h

theorem State.applyFunction_loud (s : State) (p : Printer) (old : PrinterEntry) : s.Loud (s.applyFunction p old) := by
  have left : s.Loud (if old.function = (s.printerEntry p).function then s
      else
        match old.function with
        | .ticket => (((s.removeHold p .noStock).removeHold p .stockUnverified).removeHold p .audit).refuseQueue p
        | .audit => s.updatePort p fun x => { x with audit := [] }
        | .report => s.updatePort p fun x => { x with slips := [] }
        | .off => s) := by
    split
    · exact .refl _
    · split
      · exact State.refuseQueue_loud (State.removeHold_quiet (State.removeHold_quiet (State.removeHold_quiet
          (.refl _) _ _) _ _) _ _).loud _
      · exact (State.updatePort_quiet (.refl _) _ _).loud
      · exact (State.updatePort_quiet (.refl _) _ _).loud
      · exact .refl _
  have joined : ∀ t : State, s.Loud t → s.Loud (if old.function ≠ .ticket ∧ (s.printerEntry p).function = .ticket then
      t.becomesTicket p else t) := by
    intro t h
    split
    · exact h.quiet (State.becomesTicket_quiet (.refl _) _)
    · exact h
  have tested : ∀ t : State, s.Loud t → s.Loud (if old.lowStock = (s.printerEntry p).lowStock then t
      else t.lowStockTest p) := by
    intro t h
    split
    · exact h
    · exact State.lowStockTest_loud h _
  unfold State.applyFunction
  exact tested _ (joined _ left)

theorem State.printerTableWritten_loud (s : State) (before : Tab PrinterEntry 12) :
    s.Loud (s.printerTableWritten before) := by
  unfold State.printerTableWritten
  dsimp only
  apply State.settle_loud
  refine State.Loud.trans ?_ (State.Loud.foldl (fun (t : State) (c : Printer × PrinterEntry) =>
    State.applyFunction_loud t c.1 c.2) _ _)
  exact State.Loud.foldl (fun (t : State) (c : Printer × PrinterEntry) => State.applyEntry_loud t c.1 c.2) _ _

/-! ### Restart and recovery -/

/-- A restart empties the office ports, the fault queue and the issue log. -/
theorem State.restart_office (s : State) (cause : RestartCause) :
    (s.restart cause).office = Vector.replicate 8 emptyOfficePort := rfl

theorem State.restart_faults (s : State) (cause : RestartCause) : (s.restart cause).monitor.faults = [] := rfl

theorem State.restart_log (s : State) (cause : RestartCause) : (s.restart cause).sessions.log = [] := rfl

theorem State.restart_phase (s : State) (cause : RestartCause) : (s.restart cause).phase = .restarting cause := rfl

theorem State.restart_sound (s : State) (cause : RestartCause) :
    (s.restart cause).officeSound ∧ (s.restart cause).faultsDistinct ∧ (s.restart cause).sessions.logSound := by
  refine ⟨fun w => ?_, List.nodup_nil, ⟨Nat.zero_le _, List.nodup_nil⟩⟩
  rw [State.restart_office]
  have : (Vector.replicate 8 emptyOfficePort).at w = emptyOfficePort := by simp [Vector.at]
  rw [this]
  exact ⟨Nat.zero_le _, Nat.zero_le _, Nat.zero_le _, fun _ h => absurd h List.not_mem_nil⟩

theorem tear_wf (draw : Nat) {m : List Host.Cell} {a n : Nat} (h : Memory.wf m) (size : a + n ≤ Memory.size) :
    Memory.wf (tear draw m a n) := by
  apply Memory.writeAll_wf h
  rw [List.length_map, List.length_range]; exact size

theorem Journal.tornMemory_wf (j : Journal) (draw : Nat) (h : Memory.wf j.memory) : Memory.wf (j.tornMemory draw) := by
  unfold Journal.tornMemory
  split
  · exact tear_wf _ h (slotAddress_lt _ _)
  · exact tear_wf _ h (pageAddress_lt _)
  · exact tear_wf _ h (pageAddress_lt _)
  · exact tear_wf _ h (slotAddress_lt _ _)
  · exact h
  · exact h

/-- What replay leaves: the office and the fault queue served at most, an issue log that is empty or as it was, and memory
that is empty or as it was. -/
structure State.Replayed (s t : State) : Prop where
  office : s.OfficeServed t
  faults : s.faultsDistinct → t.faultsDistinct
  log : t.sessions.log = [] ∨ t.sessions.log = s.sessions.log
  memory : t.journal.memory = [] ∨ t.journal.memory = s.journal.memory
  phase : t.phase = s.phase
  pending : t.pending = s.pending

theorem Journal.placeHead_memory (j : Journal) (head : Fin 128 × Nat) (last : Option FoundSlot) :
    (j.placeHead head last).memory = j.memory := by
  unfold Journal.placeHead
  dsimp only
  split
  · split
    · split <;> rfl
    · rfl
  · split <;> rfl

theorem Journal.afterReplay_memory (j : Journal) (f : Found) : (j.afterReplay f).memory = j.memory :=
  Journal.placeHead_memory _ _ _

theorem State.Replayed.loud {s t u : State} (h : s.Replayed t) (g : t.Loud u) : s.Replayed u :=
  ⟨h.office.trans g.office, fun k => g.faults (h.faults k), g.books.log ▸ h.log, g.keeps.memory ▸ h.memory,
   g.keeps.phase.trans h.phase, g.keeps.pending.trans h.pending⟩

theorem State.replay_replayed (s : State) (cause : RestartCause) : s.Replayed (s.replay cause).1 := by
  have start : ∀ (t : State) (f : Journal → Journal), (f t.journal).memory = [] ∨ (f t.journal).memory = t.journal.memory →
      t.Replayed (t.updateJournal f) := fun t f h => ⟨⟨fun _ => .refl _, rfl⟩, id, Or.inr rfl, h, rfl, rfl⟩
  have built : ∀ (k l : Stock) (u : SessionUnit) (f : Journal → Journal), u.log = [] →
      ((f s.journal).memory = [] ∨ (f s.journal).memory = s.journal.memory) →
      s.Replayed (State.updateJournal { s with stock := k, standing := l, sessions := u } f) :=
    fun k l u f hu h => ⟨⟨fun _ => .refl _, rfl⟩, id, Or.inl hu, h, rfl, rfl⟩
  unfold State.replay
  split
  · exact start _ _ (Or.inr rfl)
  · rename_i f _
    dsimp only
    split
    · split
      · exact built _ _ _ _ rfl (Or.inl rfl)
      · exact (built f.stock f.stock f.sessions (fun j => j.afterReplay f) rfl
        (Or.inr (Journal.afterReplay_memory _ _))).loud (State.stopJournal_loud (.refl _))
    · refine (built f.stock f.stock f.sessions (fun j => j.afterReplay f) rfl
        (Or.inr (Journal.afterReplay_memory _ _))).loud ?_
      unfold State.startWriter
      split
      · rename_i g
        exact (State.startNext_quiet (.refl _) (by rw [g]; exact Writer.noConfusion)).loud
      · exact .refl _

/-- The fault queue that recovery leaves holds one record per condition. -/
theorem State.recordWaiting_distinct (s : State) : s.recordWaiting.faultsDistinct := by
  unfold State.recordWaiting
  dsimp only
  refine (State.Loud.foldl (fun t r => State.recordReport_loud (.refl t) r) _ _).faults ?_
  exact List.nodup_singleton _

/-- What the third step of recovery leaves alone apart from the phase, the fault queue and the fault sequence. -/
theorem State.recordWaiting_served (s : State) : s.OfficeServed s.recordWaiting ∧ s.Keeps s.recordWaiting ∧
    s.recordWaiting.sessions.log = s.sessions.log := by
  unfold State.recordWaiting
  dsimp only
  have h := State.Loud.foldl (fun t r => State.recordReport_loud (.refl t) r) s.monitor.waiting
    { s with monitor := { s.monitor with faults := [restartFault], nextSequence := 2, waiting := [] } }
  exact ⟨⟨fun w => h.office.ports w, h.office.nextRequest⟩,
    ⟨h.keeps.phase, h.keeps.supply, h.keeps.store, h.keeps.draws, h.keeps.pending, h.keeps.memory, h.keeps.page,
     h.keeps.slot, h.keeps.pageSequence, h.keeps.nextSequence, h.keeps.stopped, h.keeps.records⟩, h.books.log⟩

theorem State.restartPort_quiet {s₀ s : State} (h : s₀.Quiet s) (p : Printer) : s₀.Quiet (s.restartPort p) := by
  have h := State.setPort_quiet h p { emptyPort with hold := s.restartHolds p }
  unfold State.restartPort
  dsimp only
  generalize s.setPort p { emptyPort with hold := s.restartHolds p } = t at *
  split
  · exact h
  · exact State.beginAttach_quiet h _

end Sys2Proof.Machine
end

