-- ==== Sys2Proof/Machine/Encode.lean ====
section
/-! DEFINITION. The frames that leave: ANSWER and NOTICE bodies and printer messages as bytes (R199 to R201, Tables
11-4 and 11-5). Where the manual names figures and gives no bytes, the layout is the model's (log 26). -/

namespace Sys2Proof.Machine

/-! ### Pieces -/

def byte1 (n : Nat) : List Byte := numberBytes 1 n

def byte2 (n : Nat) : List Byte := numberBytes 2 n

def byte4 (n : Nat) : List Byte := numberBytes 4 n

/-- A set as the bits of a number, member 0 in bit 0. -/
def maskOf {n : Nat} (t : Tab Bool n) : Nat := (t.toList.mapIdx fun i b => if b then 2 ^ i else 0).sum

/-- A value that may be absent: all ones over its width when it is (R199). -/
def orOnes {α : Type} (width : Nat) (f : α → List Byte) (x : Option α) : List Byte :=
  match x with
  | some x => f x
  | none => List.replicate width 0xFF

/-- A printer, 0xFF when absent (R199). -/
def printerByte (p : Option Printer) : List Byte := orOnes 1 (fun p => byte1 p.val) p

def textBytes (t : Text) : List Byte := byte1 t.length ++ t

/-- A list: its length and its members. -/
def listBytes {α : Type} (f : α → List Byte) (xs : List α) : List Byte := byte1 xs.length ++ xs.flatMap f

def perTender {α : Type} (f : α → List Byte) (x : PerTender α) : List Byte := f x.cash ++ f x.card ++ f x.warrant

/-! ### Table entries (R196, R201) -/

/-- The three port-table values as yes-or-no values, 1 when enabled, capable, a receiver: DEDUCED (log 9). -/
def PortEntry.bytes (e : PortEntry) : List Byte :=
  byte1 (yesIsOne e.enabled) ++ byte1 (yesIsOne e.supervisor) ++ byte1 (yesIsOne e.notices)

def PrinterEntry.bytes (e : PrinterEntry) : List Byte :=
  byte1 e.function.code ++ byte1 e.auditSource.val ++ byte1 e.windowCode ++ byte1 e.filterDepth ++
    byte1 e.retryLimit ++ byte2 e.pollInterval ++ byte2 e.selectTimeout ++ byte1 (yesIsOne e.auditRequired) ++
    byte2 e.lowStock

def RouteEntry.bytes (e : RouteEntry) : List Byte := printerByte e.primary ++ printerByte e.alternate

def DiscountEntry.bytes (e : DiscountEntry) : List Byte :=
  byte1 (yesIsOne e.enabled) ++ byte2 e.rate ++ byte1 e.unit ++ byte4 e.floor

/-- A segment's kind and what follows it (R201, Table 11-10). -/
def SegmentKind.bytes : SegmentKind → List Byte
  | .fixed t => byte1 0 ++ textBytes t
  | .field n => byte1 1 ++ byte1 n
  | .serial => byte1 2
  | .net => byte1 3
  | .gross => byte1 4
  | .discount => byte1 5
  | .window => byte1 6
  | .clerk => byte1 7
  | .batch => byte1 8

def Segment.bytes (g : Segment) : List Byte := byte1 g.row ++ byte1 g.column ++ g.kind.bytes

def ToleranceEntry.bytes (e : ToleranceEntry) : List Byte :=
  byte4 (e.fixed.getD 0xFFFFFFFF) ++ byte2 e.proportion ++ byte4 e.ceiling ++ byte4 e.referral

def ConditionEntry.bytes (e : ConditionEntry) : List Byte := byte1 e.priority.code ++ byte1 (firstIsZero e.notify)

def entriesBytes {α : Type} {n : Nat} (f : α → List Byte) (es : List (Fin n × α)) : List Byte :=
  listBytes (fun e => byte1 e.1.val ++ f e.2) es

def TableEntries.bytes : TableEntries → List Byte
  | .ports es => entriesBytes PortEntry.bytes es
  | .printers es => entriesBytes PrinterEntry.bytes es
  | .routes es => entriesBytes RouteEntry.bytes es
  | .discounts es => entriesBytes DiscountEntry.bytes es
  | .layouts es => entriesBytes (listBytes Segment.bytes) es
  | .tolerances es => entriesBytes ToleranceEntry.bytes es
  | .conditions es => entriesBytes ConditionEntry.bytes es

/-! ### Records read by the supervisor -/

/-- A batch record with its printer and its remaining count (R81). -/
def BatchFigures.bytes (x : BatchFigures) : List Byte :=
  let b := x.batch
  byte2 b.id ++ byte1 b.stockType.val ++ byte4 b.first ++ byte4 b.last ++ byte4 b.next ++ byte2 b.issued ++
    byte2 b.spoiled ++ byte2 b.unaccounted ++ byte2 b.test ++ byte2 b.inHand ++ byte2 b.unrecorded ++
    byte1 b.state.code ++ printerByte x.printer ++ byte1 (yesIsOne b.closingOwed) ++ byte2 (b.last + 1 - b.next)

/-- Declaration figures (Table 6-2), 65 bytes. -/
def Declaration.bytes (d : Declaration) : List Byte :=
  byte1 d.count ++ perTender byte4 d.declared ++ perTender (signedBytes 4) d.expected ++
    perTender (signedBytes 8) d.variance ++ perTender byte4 d.allowance ++ perTender (fun b => byte1 b.code) d.band ++
    byte1 d.sessionBand.code

/-- A session record (R109, Table 5-1), 195 bytes: an absent declaration part or pending declaration is all ones. -/
def Session.bytes (x : Session) : List Byte :=
  byte2 x.number ++ byte2 x.clerk ++ byte1 x.window.val ++ byte1 x.state.code ++ byte4 x.float ++
    perTender byte4 x.issueTotal ++ perTender byte4 x.voidTotal ++ perTender byte4 x.refundTotal ++
    byte4 x.unmatched ++ byte2 x.issued ++ byte2 x.voided ++ byte2 x.refunds ++ byte2 x.spoiled ++ byte2 x.test ++
    byte1 (firstIsZero x.saturated) ++ byte1 (firstIsZero x.recovered) ++ byte1 x.jobs ++ byte1 x.pendingRecords ++
    byte1 (yesIsOne x.signOffOwed) ++ orOnes 65 Declaration.bytes x.part ++
    orOnes 65 Declaration.bytes x.pendingPart

def Condition.bytes (c : Condition) : List Byte := byte1 c.sourceCode ++ byte1 c.conditionCode

/-- A fault record; its state is 0 PRESENT, 1 ENDED (Table 11-10). -/
def FaultRecord.bytes (f : FaultRecord) : List Byte :=
  f.condition.bytes ++ byte1 f.priority.code ++ byte1 (firstIsZero f.present) ++ byte1 f.occurrences ++
    byte4 f.first ++ byte4 f.last

/-- One tender of a DECLARE answer: expected, declared, variance, allowance, band (R122). -/
def tenderBytes (expected : Int) (declared : Nat) (variance : Int) (allowance : Nat) (band : Band) : List Byte :=
  signedBytes 4 expected ++ byte4 declared ++ signedBytes 8 variance ++ byte4 allowance ++ byte1 band.code

/-! ### STATUSREAD (Table 10-5) -/

/-- The commanded figures. SUPERVISOR hold "present or not" is a yes-or-no value, 1 when present (DEDUCED, log 9). -/
def PrinterFigures.commanded (x : PrinterFigures) : List Byte :=
  byte1 x.function.code ++ byte1 (yesIsOne x.supervisorHold)

def PrinterFigures.observed (x : PrinterFigures) : List Byte :=
  byte1 x.state.code ++ byte2 (maskOf x.hold) ++ byte1 (firstIsZero x.jamLatch) ++
    orOnes 1 (fun t => byte1 (maskOf t)) x.sensed ++ byte1 x.window ++ byte1 x.outstanding ++ byte1 x.queued ++
    orOnes 3 (fun b => byte2 b.1 ++ byte1 b.2.code) x.batch ++ byte1 x.queueLength

/-- The STATUSREAD answer. Store write "in progress or not" is a yes-or-no value, 1 when one is in progress (DEDUCED,
log 9). Once the last journal sequence number is written no next one exists (R153) and the spec says not what is shown:
DESIGN CHOICE, 0, which is 4,294,967,296 in 4 bytes (log 57). -/
def StatusFigures.bytes (f : StatusFigures) : List Byte :=
  f.printers.toList.flatMap PrinterFigures.commanded ++ f.printers.toList.flatMap PrinterFigures.observed ++
    f.ports.toList.flatMap (fun p => byte1 p.1 ++ byte1 (maskOf p.2)) ++ byte1 f.supply.code ++
    byte1 (maskOf f.causes) ++ byte1 (yesIsOne f.storeBusy) ++ byte1 (firstIsZero f.reporting) ++
    byte1 f.writer.code ++ byte1 f.headPage ++ byte1 f.headSlot ++ byte1 f.queued ++ byte1 f.reserved ++
    byte1 f.claims ++ byte4 f.nextSequence ++ byte1 f.freeSessions ++ byte2 f.nextSession ++ byte1 f.freeStore ++
    byte1 f.faults ++ byte1 f.urgentFaults

/-! ### Answers and notices -/

/-- The figures of an answer. SATURATED and RECOVERED, which Chapter 5 sets or leaves clear, are either-or values, 0 when
set; the GAP of JOURNALREAD, which an answer has or has not, is a yes-or-no value, 1 when flagged (DEDUCED, log 9). -/
def Figures.bytes : Figures → List Byte
  | .nothing => []
  | .session n => byte2 n
  | .issued serial batch p net => byte4 serial ++ byte2 batch ++ byte1 p.val ++ byte4 net
  | .tested serial batch p => byte4 serial ++ byte2 batch ++ byte1 p.val
  | .resetSerial serial batch => byte4 serial ++ byte2 batch
  | .voided serial tender net => byte4 serial ++ byte1 tender.code ++ byte4 net
  | .refunded amount matched => byte4 amount ++ byte1 (firstIsZero matched)
  | .storePosition n => byte1 n
  | .remaining n => byte2 n
  | .remainder n => byte2 n
  | .counted n => byte2 n
  | .batches records n => listBytes BatchFigures.bytes records ++ byte1 n
  | .declared n d unmatched saturated recovered kept =>
    byte2 n ++ byte1 d.count ++
      tenderBytes d.expected.cash d.declared.cash d.variance.cash d.allowance.cash d.band.cash ++
      tenderBytes d.expected.card d.declared.card d.variance.card d.allowance.card d.band.card ++
      tenderBytes d.expected.warrant d.declared.warrant d.variance.warrant d.allowance.warrant d.band.warrant ++
      byte1 d.sessionBand.code ++ byte4 unmatched ++ byte1 (firstIsZero saturated) ++ byte1 (firstIsZero recovered) ++
      byte1 (firstIsZero kept)
  | .closed n band => byte2 n ++ byte1 band.code
  | .sessionRecord x => x.bytes
  | .windowSessions current others =>
    orOnes 195 Session.bytes current ++ listBytes (fun o => byte2 o.1 ++ byte1 o.2.code) others
  | .faults records total urgent next =>
    listBytes FaultRecord.bytes records ++ byte1 total ++ byte1 urgent ++ byte4 next
  | .cleared removed present => byte1 removed ++ listBytes Condition.bytes present
  | .journal records newest gap =>
    listBytes (fun r => byte1 r.kind ++ byte4 r.sequence ++ r.body) records ++ byte4 newest ++ byte1 (yesIsOne gap)
  | .table entries total => entries.bytes ++ byte1 total
  | .status f => f.bytes

/-- The frame as it leaves (Tables 11-1, 11-4). -/
def OutFrame.frame : OutFrame → Frame
  | .answer tag code figures _ => { kind := answerKind, tag, body := byte1 code.code ++ figures.bytes }
  | .notice c priority occurrences =>
    { kind := noticeKind, tag := 0, body := c.bytes ++ byte1 priority.code ++ byte1 occurrences }

/-! ### Printer messages (Tables 11-2, 11-5) -/

def Item.bytes (i : Item) : List Byte := byte1 i.row ++ byte1 i.column ++ textBytes i.text

def Message.frame : Message → Frame
  | .enquire => { kind := 0x81, tag := 0, body := [] }
  | .image n items => { kind := 0x82, tag := 0, body := byte1 n.val ++ listBytes Item.bytes items }
  | .line n text => { kind := 0x83, tag := 0, body := byte1 n.val ++ text }
  | .slip n lines => { kind := 0x84, tag := 0, body := byte1 n.val ++ lines.flatten }
  | .poll => { kind := 0x85, tag := 0, body := [] }
  | .serial n number => { kind := 0x86, tag := 0, body := byte1 n.val ++ byte4 number }

/-- The bytes on a printer line and on an office line. -/
def Message.wire (m : Message) : List Byte := frameBytes printerStart m.frame

def OutFrame.wire (f : OutFrame) : List Byte := frameBytes officeStart f.frame

end Sys2Proof.Machine
end

