-- ==== Sys2Proof/Tests/Slice0.lean ====
section
/-! SUPPORT. Tests: ill-formed operands refused, the worked examples of the spec, and for every statement a state and
operands that meet its hypotheses. Expected values come from the section of the spec that each test names. -/

namespace Sys2Proof.Tests

open Sys2Proof.Machine

-- Theorems one after another: with the tests in one text, a thread for each would be too many.
set_option Elab.async false

/-! ### Helpers -/

def bytes (l : List Nat) : List Byte := l.map (BitVec.ofNat 8)

/-- The state after a command. -/
def after (c : Instr) (s : State) : State :=
  match exec c s with
  | .next t => t
  | .fault _ => s
  | .refused _ => s

/-- A property of the entry that an option holds. -/
theorem of_some {α : Type} {o : Option α} {x : α} (h : o = some x) {P : α → Prop} (p : P x) : ∀ y, o = some y → P y := by
  rintro y h'; rw [h] at h'; cases h'; exact p

theorem of_none {α : Type} {o : Option α} (h : o = none) {P : α → Prop} : ∀ y, o = some y → P y := by
  rintro y h'; rw [h] at h'; cases h'

/-- The ticket printer of Section 3.6: retry limit 1, filter depth 2, low-stock threshold 50. -/
def ticketEntry : PrinterEntry :=
  { factoryPrinter with function := .ticket, windowCode := 3, filterDepth := 2, retryLimit := 1, lowStock := 50 }

/-- Batch 77 of Section 4.7, at the start of the example of Section 3.6. -/
def batch77 : Batch :=
  { id := 77, stockType := 3, first := 104101, last := 104300, next := 104240, issued := 130, spoiled := 8
    unaccounted := 0, test := 1, inHand := 0, unrecorded := 0, state := .loaded, closingOwed := false }

def session412 : Session := newSession 412 42 2 5000 .open_

/-- Job 5 of Chapter 1. -/
def job5 : Job :=
  { kind := .ticket, origin := { window := 2, tag := 0x11, number := some 0 }, session := 412, stockType := 3
    tender := some .cash, discount := 9, gross := 2345, net := 1560
    fields := [chars "12 JUN 07:45".toList, chars "CENTRAL TO HARBOUR ROAD".toList]
    printer := 4, image := none, serial := none, spare := none, retry := 0, state := .queued }

def ticketPort : Port :=
  { emptyPort with state := .active, device := some (.ticket, 8), window := 3, pollTimer := some 1000 }

/-- An office at work: W0 supervises, session 412 is open at W2, P4 prints stock type 3 from batch 77 with P5 as the
alternate, P9 is P4's audit printer and P10 the report printer; the journal is idle. -/
def shop : State :=
  let printers := (((factoryTables.printers.put 4 ticketEntry).put 5 ticketEntry).put 9
    { factoryPrinter with function := .audit, auditSource := 4 }).put 10 { factoryPrinter with function := .report }
  let routes := factoryTables.routes.put (routeIndex 2 3) { primary := some 4, alternate := some 5 }
  let discounts := factoryTables.discounts.put 9 { enabled := true, rate := 3333, unit := 5, floor := 1200 }
  let roll : Port := { emptyPort with state := .active, device := some (.roll, 8), pollTimer := some 1000 }
  { State.reset with
    store := { State.reset.store with tables := { factoryTables with printers, routes, discounts } }
    ports := ((State.reset.ports.put 4 ticketPort).put 9 roll).put 10 roll
    stock := { store := [newBatch 78 3 104301 104310], loaded := State.reset.stock.loaded.put 4 (some batch77) }
    sessions := { State.reset.sessions with table := State.reset.sessions.table.put 0 (some session412), nextNumber := 413 }
    journal := { State.reset.journal with queue := [], writer := .idle, checkpointDue := false, slot := 3, nextSequence := 9 } }

/-- A frame stands alone in a port's receive buffer. -/
def ask (s : State) (w : Window) (kind : Nat) (body : List Nat) : State :=
  { s with office := s.office.put w { s.office.at w with buffer := [⟨BitVec.ofNat 8 kind, 7, bytes body⟩] } }

/-! ### Ill-formed operands (Table 11-1, R45, R151) -/

theorem test_body_of_1200_fits : (Instr.frameReceived 0 0x10 1 (List.replicate 1200 0)).wellFormed = true := by
  decide +kernel

theorem test_body_of_1201_refused : (Instr.frameReceived 0 0x10 1 (List.replicate 1201 0)).wellFormed = false := by
  decide +kernel

theorem test_report_bodies_of_1201_refused :
    [Instr.caps 0 (List.replicate 1201 0), .fed 0 (List.replicate 1201 0), .doublefed 0 (List.replicate 1201 0),
      .printed 0 (List.replicate 1201 0), .presented 0 (List.replicate 1201 0), .jammed 0 (List.replicate 1201 0),
      .status 0 (List.replicate 1201 0)].any Instr.wellFormed = false := by decide +kernel

theorem test_read_backs_of_wrong_length_refused :
    [Instr.recordWriteEnds (some (List.replicate 31 0)), .checkpointRecordWriteEnds (some (List.replicate 33 0)),
      .eraseEnds (some (List.replicate 511 0))].any Instr.wellFormed = false := by decide +kernel

theorem test_report_kind_is_no_other_message :
    (Instr.nonReportMessage 0 0xC1).wellFormed = false ∧ (Instr.nonReportMessage 0 0xC7).wellFormed = false ∧
      (Instr.nonReportMessage 0 0xC8).wellFormed = true := by decide +kernel

theorem test_no_word_spells_a_command : decodeTableWord 8 0x12 = none := by decide

theorem test_withFetchWord_changes_nothing : (State.reset.withFetchWord 16 0).pending = [] := by decide +kernel

/-! ### Table 2-3: net fares -/

def entry (rate unit floor : Nat) : DiscountEntry := { enabled := true, rate, unit, floor }

theorem test_net_fares :
    netFare 2345 (entry 3333 5 1200) = 1560 ∧ netFare 1500 (entry 3333 5 1200) = 1200 ∧
      netFare 1000 (entry 3333 5 1200) = 1000 ∧ netFare 999999 (entry 2500 10 0) = 749990 ∧
      netFare 4200 (entry 10000 1 0) = 0 ∧ netFare 4200 (entry 10000 1 250) = 250 ∧
      netFare 200 (entry 10000 1 250) = 200 ∧ netFare 999 (entry 9990 10 0) = 0 ∧ netFare 7350 (entry 0 1 0) = 7350 := by
  decide +kernel

/-! ### Tables 2-5 to 2-9: an image, audit lines, a slip -/

def layout3 : List Segment :=
  [⟨0, 0, .fixed (chars "STANDARD SINGLE".toList)⟩, ⟨0, 40, .serial⟩, ⟨2, 0, .field 1⟩, ⟨3, 0, .field 0⟩,
    ⟨4, 0, .field 5⟩, ⟨6, 0, .fixed (chars "FARE ".toList)⟩, ⟨6, 5, .net⟩, ⟨6, 30, .gross⟩, ⟨7, 0, .discount⟩,
    ⟨7, 30, .window⟩, ⟨7, 44, .fixed (chars "VALID TODAY".toList)⟩]

theorem test_image_of_table_2_6 : composeImage layout3 job5 42 77 =
    [⟨0, 0, chars "STANDARD SINGLE".toList⟩, ⟨0, 40, List.replicate 6 0x1F⟩,
      ⟨2, 0, chars "CENTRAL TO HARBOUR ROAD".toList⟩, ⟨3, 0, chars "12 JUN 07:45".toList⟩, ⟨6, 0, chars "FARE ".toList⟩,
      ⟨6, 5, chars "15.60".toList⟩, ⟨6, 30, chars "23.45".toList⟩, ⟨7, 0, chars "09".toList⟩, ⟨7, 30, chars "W2".toList⟩,
      ⟨7, 44, chars "VALI".toList⟩] := by decide +kernel

theorem test_audit_lines : auditLine job5 42 104233 = chars "104233 W2 0042 03 CASH 09   15.60".toList ∧
    auditLine { job5 with origin := { job5.origin with window := 5 }, stockType := 11, tender := none, discount := 0
                          net := 0 } 1907 316 =
      chars "000316 W5 1907 11 TEST 00    0.00".toList := by decide +kernel

/-- Session 412 with the figures of Table 6-5 and the tolerance table of Table 6-6. -/
def tally412 : Session :=
  { session412 with state := .awaiting, issueTotal := ⟨4795, 12450, 3200⟩, refundTotal := ⟨600, 0, 0⟩ }

def tolerances66 : Tab ToleranceEntry 3 := #v[⟨some 50, 25, 500, 2000⟩, ⟨some 100, 50, 1000, 5000⟩, ⟨some 0, 0, 0, 1000⟩]

def declaration412 : Declaration := tally412.declaration tolerances66 ⟨9150, 12450, 0⟩

theorem test_first_declaration_of_412 : declaration412 =
    { count := 1, declared := ⟨9150, 12450, 0⟩, expected := ⟨9195, 12450, 3200⟩, variance := ⟨-45, 0, -3200⟩
      allowance := ⟨50, 100, 0⟩, band := ⟨.balanced, .balanced, .referred⟩, sessionBand := .referred } := by decide +kernel

theorem test_recount_of_412 :
    let d := Session.declaration { tally412 with part := some declaration412 } tolerances66 ⟨9150, 12450, 3200⟩
    d.count = 2 ∧ d.sessionBand = .balanced := by decide +kernel

theorem test_slip_of_table_2_9 : composeSlip tally412 declaration412 =
    ["SESSION       00412", "CLERK         0042", "WINDOW        W2", "FLOAT         50.00", "CASH",
      "EXPECTED      91.95", "DECLARED      91.50", "VARIANCE      -0.45", "ALLOWANCE     0.50", "BAND          BALANCED",
      "CARD", "EXPECTED      124.50", "DECLARED      124.50", "VARIANCE      0.00", "ALLOWANCE     1.00",
      "BAND          BALANCED", "WARRANT", "EXPECTED      32.00", "DECLARED      0.00", "VARIANCE      -32.00",
      "ALLOWANCE     0.00", "BAND          REFERRED", "SESSION BAND  REFERRED", "DECLARATION   1"].map
      fun line => fillTo 26 (chars line.toList) := by decide +kernel

/-! ### Table 6-8 and Table 6-9: bands -/

theorem test_third_declaration_of_433 :
    let x : Session := { newSession 433 1907 5 0 .declared with
      issueTotal := ⟨1200, 0, 0⟩, refundTotal := ⟨3000, 0, 0⟩, part := some { declaration412 with count := 2 } }
    let d := x.declaration tolerances66 ⟨0, 0, 0⟩
    d.count = 3 ∧ d.band = ⟨.over, .balanced, .balanced⟩ ∧ d.sessionBand = .referred := by decide +kernel

/-- The allowance and the band of one row of Table 6-9. -/
def row69 (e : ToleranceEntry) (expected declared : Int) : Nat × Band :=
  let t := allowanceOf e expected
  (t, bandFor (declared - expected) t (referralOf e))

theorem test_bands_of_table_6_9 :
    row69 ⟨none, 0, 0, 1⟩ 10000 10000 = (0, .balanced) ∧ row69 ⟨none, 0, 0, 1⟩ 10000 10001 = (0, .referred) ∧
      row69 ⟨some 0, 5, 0, 100⟩ 1000 1001 = (1, .balanced) ∧ row69 ⟨some 0, 5, 0, 100⟩ 999 1000 = (0, .over) ∧
      row69 ⟨some 0, 1000, 0, 9999999⟩ 12345 12000 = (1235, .balanced) ∧
      row69 ⟨some 100, 1000, 500, 400⟩ 20000 19450 = (500, .referred) ∧
      row69 ⟨some 0, 100, 0, 10000⟩ (-3000) 0 = (30, .over) := by decide +kernel

/-! ### Section 3.6 and Table 3-7: a double feed and a jam, one event at a time -/

def ticketOf (n : ImageNumber) (phase : EntryPhase) (j : JobNumber) (marked : Bool) (places : Nat) : Entry :=
  { image := n, phase, ticket := some { job := j, doubleFed := marked, places } }

/-- Jobs 3, 6 and 9 at P4 with given window, serials, next serial and places. -/
def table37 (entries : List Entry) (s3 s6 : Option (Nat × Nat)) (next reserved : Nat) : State :=
  let job (number : Nat) (serial : Option (Nat × Nat)) : Job :=
    { job5 with serial, state := .sent, origin := { window := 2, tag := BitVec.ofNat 8 number, number := some number } }
  let routes := shop.store.tables.routes.put (routeIndex 2 3) { primary := some 4, alternate := none }
  { shop with
    store := { shop.store with tables := { shop.store.tables with routes } }
    jobs := ((shop.jobs.put 3 (some (job 3 s3))).put 6 (some (job 6 s6))).put 9 (some (job 9 none))
    ports := shop.ports.put 4 { ticketPort with entries, nextImage := 3 }
    stock := { shop.stock with loaded := shop.stock.loaded.put 4 (some { batch77 with
      next := next, inHand := next - 104240 }) }
    journal := { shop.journal with reserved } }

theorem test_fed_takes_the_next_serial :
    let t := after (.fed 4 (bytes [0]))
      (table37 [ticketOf 0 .sent 3 false 2, ticketOf 1 .sent 6 false 2, ticketOf 2 .sent 9 false 2] none none 104240 6)
    (t.ports.at 4).entries = [ticketOf 0 .fed 3 false 2, ticketOf 1 .sent 6 false 2, ticketOf 2 .sent 9 false 2] ∧
      t.sent = [(4, .serial 0 104240)] ∧ (t.loaded 4).map Batch.next = some 104241 ∧
      ((t.jobs.at 3).bind Job.serial) = some (104240, 77) := by decide +kernel

theorem test_doublefed_spends_a_place :
    let t := after (.doublefed 4 (bytes [1]))
      (table37 [ticketOf 0 .fed 3 false 2, ticketOf 1 .fed 6 false 2, ticketOf 2 .sent 9 false 2] (some (104240, 77))
        (some (104241, 77)) 104242 6)
    (t.ports.at 4).entries = [ticketOf 0 .fed 3 false 2, ticketOf 1 .fed 6 true 1, ticketOf 2 .sent 9 false 2] ∧
      t.journal.reserved = 5 ∧ t.journal.queue.map Queued.record = [.spoil .doubleFeed 412 4 104242 77 3] ∧
      (t.loaded 4).map Batch.next = some 104243 := by decide +kernel

theorem test_printed_marks_the_entry :
    let t := after (.printed 4 (bytes [0]))
      (table37 [ticketOf 0 .fed 3 false 2, ticketOf 1 .fed 6 true 1] (some (104240, 77)) (some (104241, 77)) 104243 3)
    (t.ports.at 4).entries = [ticketOf 0 .printed 3 false 2, ticketOf 1 .fed 6 true 1] := by decide +kernel

/-- The printer does not know the jam's cause; the window's younger entries go with it. -/
def beforeJam : State :=
  table37 [ticketOf 0 .printed 3 false 2, ticketOf 1 .fed 6 true 1, ticketOf 2 .sent 9 false 2] (some (104240, 77))
    (some (104241, 77)) 104243 5

theorem test_jammed_returns_its_jobs :
    let t := after (.jammed 4 (bytes [1])) beforeJam
    (t.ports.at 4).entries = [ticketOf 0 .printed 3 false 2] ∧ (t.ports.at 4).state = .held ∧ t.queues.at 4 = [6, 9] ∧
      (t.jobs.at 6).map Job.retry = some 1 ∧ (t.jobs.at 9).map Job.retry = some 0 ∧ t.journal.reserved = 2 ∧
      t.journal.queue.map Queued.record = [.spoil .jam 412 4 104241 77 3] := by decide +kernel

/-- After the jam, with a poll waiting for its answer. -/
def afterJam : State :=
  let t := table37 [ticketOf 0 .printed 3 false 2] (some (104240, 77)) none 104243 2
  let queued := (t.jobs.at 9).map fun x => { x with state := .queued }
  let filters := (t.monitor.filters.at 4).put Sensed.jam.place { present := false, run := 1 }
  { t with
    jobs := (t.jobs.put 6 (queued.map fun x => { x with retry := 1 })).put 9 queued
    queues := t.queues.put 4 [6, 9]
    ports := t.ports.put 4 { t.ports.at 4 with
      state := .held, jamLatch := true, hold := noHolds.put HoldReason.jam.place true, pollTimer := none
      replyTimer := some 200 }
    monitor := { t.monitor with filters := t.monitor.filters.put 4 filters } }

theorem test_status_presents_and_frees_the_printer :
    let t := after (.status 4 (bytes [0, 1, 0, 0])) afterJam
    (t.ports.at 4).state = .active ∧ (t.ports.at 4).entries = [ticketOf 3 .sent 6 false 2, ticketOf 4 .sent 9 false 2] ∧
      t.queues.at 4 = [] ∧ t.journal.queue.map Queued.record = [.issue 412 2 4 104240 77 3 .cash 9 2345 1560] ∧
      t.journal.reserved = 4 := by decide +kernel

theorem test_status_hands_the_audit_line :
    (after (.status 4 (bytes [0, 1, 0, 0])) afterJam).sent.contains
      (9, .line 0 (chars "104240 W2 0042 03 CASH 09   15.60".toList)) = true := by decide +kernel

/-! ### Table 8-3: a VOID behind a claim -/

def table83 : State :=
  let waiting : List Queued := List.replicate 26 { record := .close 1 .balanced true, link := .nothing }
  { shop with
    journal := { shop.journal with
      queue := waiting, reserved := 6, claims := [.engine 5], writer := .checkpoint [] false false }
    sessions := { shop.sessions with log := [⟨104200, 3, 77, 412, .cash, 1560, .issued⟩] } }

theorem test_void_behind_a_claim_is_busy :
    ((after (.void 2) (ask table83 2 0x15 [3, 0, 1, 151, 8])).office.at 2).sendList = [.answer 7 .busy .nothing false] := by
  decide +kernel

/-! ### Formats (Chapter 11) -/

/-- The register of R199 after the nine digits 1 to 9, worked bit by bit outside the model. -/
theorem test_crc16 : crc16 (chars "123456789".toList) = 0x29B1 := by decide +kernel

/-- Table 11-3 after the code of an ISSUED answer: serial, batch, printer, net fare. -/
theorem test_issued_body : (OutFrame.answer 0x11 .issued (.issued 104233 77 4 1560) false).frame =
    ⟨0x01, 0x11, bytes [1, 0, 1, 151, 41, 0, 77, 4, 0, 0, 6, 24]⟩ := by decide +kernel

theorem test_record_slot_kind_and_number :
    (recordSlot 9 (.batchLoad 77 4)).take 8 = bytes [2, 0, 0, 0, 9, 0, 77, 64] ∧ (recordSlot 9 (.batchLoad 77 4)).length = 32 := by
  decide +kernel

theorem test_status_bits : (readStatus (bytes [0x11, 1, 0xFF, 2])).map (fun st => (st.sensed.toList, st.fedThrough)) =
    some ([true, false, false, false, true, false], some 1) := by decide +kernel

theorem test_status_bit_6_is_malformed : readStatus (bytes [0x40, 0xFF, 0xFF, 0]) = none := by decide +kernel

theorem test_tableload_clamps : readTableload (bytes [1, 1, 4, 0, 0, 3, 9, 1, 1, 244, 0, 200, 0, 0, 50]) =
    some (some (.printers [(4, { ticketEntry with filterDepth := 4, pollInterval := 500 })])) := by decide +kernel

/-! ### Power-on -/

/-- R173, R176 to R178 with empty stores. -/
def emptyStores : State :=
  { State.reset with
    store := { State.reset.store with valid := false }, journal := { State.reset.journal with writer := .idle } }

theorem test_power_on_with_empty_stores :
    after .causeWriteEnds (after .recoveryBegins (after .powerOn emptyStores)) = { State.reset with draws := 1 } := by
  decide +kernel

/-! ### The statements' hypotheses are met: the machine, figures and rules

One theorem for each statement that has hypotheses: states and operands that meet them, clause by clause. -/

theorem test_meets_StepRunsFront :
    { State.reset with pending := [.powerOn] }.pending = [Instr.powerOn] ∧ State.reset.pending = [] := by decide

theorem test_meets_MemoryFormKept :
    let s := { shop with pending := [.eraseEnds (some (List.replicate 512 7))] }
    (∀ c ∈ s.pending.head?, c.wellFormed = true) ∧ s.memorySound ∧ ∃ t : State, step s = .next t :=
  ⟨by decide +kernel, by decide +kernel, _, rfl⟩

theorem test_meets_LimitsKept : (∃ t : State, step shop = .next t) ∧ shop.officeSound ∧ shop.faultsDistinct ∧
    shop.sessions.logSound := ⟨⟨_, rfl⟩, by decide +kernel, by decide +kernel, by decide +kernel⟩

/-- Job 5 waits at P4; job 6 is image 1 there, fed with the first serial of the example. -/
def busy : State :=
  { shop with
    jobs := (shop.jobs.put 5 (some job5)).put 6 (some { job5 with
      origin := ⟨2, 0x12, some 1⟩, image := some 1, serial := some (104240, 77), state := .fed })
    queues := shop.queues.put 4 [5]
    ports := shop.ports.put 4 { ticketPort with entries := [ticketOf 1 .fed 6 false 2], nextImage := 2 }
    stock := { shop.stock with loaded := shop.stock.loaded.put 4 (some batch77.give) }
    office := shop.office.put 2 { emptyOfficePort with unanswered := [⟨0, 0x11⟩, ⟨1, 0x12⟩] }
    nextRequest := 2
    sessions := { shop.sessions with table := shop.sessions.table.put 0 (some { session412 with jobs := 2 }) }
    journal := { shop.journal with reserved := 2 } }

theorem some_and {α : Type} {o : Option α} {P : α → Prop} [DecidablePred P] :
    (∃ x, o = some x ∧ P x) ↔ o.any (fun x => decide (P x)) = true := by
  cases o <;> simp

theorem test_meets_LimitsKept_room : busy.roomSound := by
  refine ⟨?_, ?_, ?_, ?_, fun h => absurd rfl h⟩ <;> decide +kernel

theorem test_meets_LimitsKept_pool : busy.PoolSound where
  queued := by simp only [some_and]; decide +kernel
  once := by decide +kernel
  outstanding := by simp only [some_and]; decide +kernel
  entries := by
    intro p e m j k x h
    have all : ∀ p : Printer, ∀ e ∈ (busy.ports.at p).entries, ∀ j ∈ e.job?,
        (busy.jobs.at j).all fun x => x.state = e.phase.job ∧ x.image = some e.image := by decide +kernel
    have := all p e m j k
    rw [h] at this
    simpa using this
  single := by decide +kernel
  presented := by decide +kernel
  fields := by
    intro j x h
    have all : ∀ j : JobNumber, (busy.jobs.at j).all fun x => decide x.tabled := by decide +kernel
    have := all j
    rw [h] at this
    exact of_decide_eq_true this
  placed := by decide +kernel
  before := fun h => absurd rfl h

/-! A state that `State.settle` finds work in, kind by kind (SettleFrame). -/

/-- P4 asks for its audit port, P9, whose queue holds a number of lines. -/
def audited (lines : Nat) : State :=
  let printers := shop.store.tables.printers.put 4 { ticketEntry with auditRequired := true }
  { shop with
    store := { shop.store with tables := { shop.store.tables with printers } }
    ports := shop.ports.put 9 { shop.ports.at 9 with audit := List.replicate lines [] } }

theorem test_meets_SettleFrame_audit :
    (∀ n ∈ [48, 49, 64], (audited n).function 4 = .ticket ∧ ((audited n).printerEntry 4).auditRequired = true ∧
      ((audited n).function 9 = .audit ∧ ((audited n).printerEntry 9).auditSource = 4) ∧
      (∀ b : Printer, b < 9 → (audited n).function b ≠ .audit) ∧ ((audited n).ports.at 9).state = .active ∧
      ((audited n).ports.at 9).audit.length + ((audited n).ports.at 4).entries.length = n ∧
      ∀ q : Printer, ((audited n).ports.at q).holds .audit = false) ∧
    (shop.printerEntry 4).auditRequired = false := by decide +kernel

/-- What SettleFrame says of AUDIT, past and below its two bounds. -/
theorem test_audit_is_gained_at_64 : (((audited 64).settle.ports.at 4).holds .audit) = true ∧
    (((audited 63).settle.ports.at 4).holds .audit) = false := by decide +kernel

/-- P9 has two lines waiting, P10 a slip. -/
def printsOut : State :=
  let lines : Port := { shop.ports.at 9 with audit := [chars ['A'], chars ['B']] }
  let slip : Port := { shop.ports.at 10 with slips := [[chars ['C']]] }
  { shop with ports := (shop.ports.put 9 lines).put 10 slip }

theorem test_meets_SettleFrame_rolls :
    printsOut.function 9 = .audit ∧ printsOut.function 10 = .report ∧ printsOut.supply = .normal ∧
    (∀ p ∈ [(9 : Printer), 10], (printsOut.ports.at p).state = .active ∧
      (printsOut.ports.at p).entries.length < (printsOut.ports.at p).window) ∧
    (printsOut.ports.at 9).audit[(printsOut.ports.at 9).entries.length]? = some (chars ['A']) ∧
    (printsOut.ports.at 10).slips[(printsOut.ports.at 10).entries.length]? = some [chars ['C']] ∧
    (shop.ports.at 5).state ≠ .active ∧
    (let y := shop.settle.ports.at 9; y.window ≤ 4 ∧ y.state = .active ∧ y.entries.length < y.window) := by decide +kernel

/-- Job 5 waits at P4, and batch 77 and session 412 have claimed their places. -/
def claiming (reserved : Nat) : State :=
  { shop with
    jobs := shop.jobs.put 5 (some job5), queues := shop.queues.put 4 [5]
    journal := { shop.journal with claims := [.batch 77, .session 412], reserved } }

theorem test_meets_SettleFrame_claims :
    (claiming 0).gate 4 = true ∧ (claiming 0).queues.at 4 = 5 :: [] ∧ (claiming 0).jobs.at 5 = some job5 ∧
      (claiming 0).loaded 4 = some batch77 ∧ batch77.id = 77 ∧ (∀ q : Printer, q ≠ 4 → (claiming 0).loaded q = none) ∧
      ((claiming 0).sessions.find fun y => y.number == 412) = some 0 ∧
      (claiming 0).sessions.table.at 0 = some session412 ∧ (claiming 0).session 412 ≠ none ∧
    (∀ n ∈ [31, 32], (claiming n).testEngines.journal.claims = .batch 77 :: [.session 412, .engine 4] ∧
      (claiming n).testEngines.journal.writer ≠ .stopped ∧ (claiming n).testEngines.journal.reserved = n) := by
  decide +kernel

theorem test_claims_are_granted_oldest_first :
    (claiming 31).settle.journal.queue.map Queued.record = [.batchEnd 77 4] ∧
    (claiming 31).settle.journal.claims = [.session 412, .engine 4] ∧ (claiming 32).settle.journal.queue = [] := by
  decide +kernel

def stopped : State := { shop with journal := { shop.journal with writer := .stopped } }

theorem test_meets_StoppedUntilRestart : stopped.phase = .running ∧ stopped.journal.writer = .stopped ∧
    ∃ t : State, exec (.recordWriteEnds none) stopped = .next t := ⟨rfl, rfl, _, rfl⟩

theorem test_meets_StoreChangesAtWriteEnds : (∃ t : State, exec .powerOn shop = .next t) ∧
    Instr.powerOn ∉ [Instr.recoveryBegins, .tableloadWriteEnds, .reportingWriteEnds, .causeclearWriteEnds, .causeWriteEnds] :=
  ⟨⟨_, rfl⟩, by decide⟩

theorem test_meets_NetFareAmounts : (entry 10000 10 0).rate ≤ 10000 ∧ 0 < (entry 10000 10 0).unit ∧
    (entry 0 1 0).unit = 1 ∧ 10 ∣ 999990 ∧ 999990 ≤ discounted 999999 (entry 0 10 0) := by decide +kernel

theorem test_meets_NetFareRule : 1200 ≤ (entry 3333 5 1200).floor ∧ (entry 3333 5 1200).floor < 1201 ∧
    (entry 0 1 99999).rate = 0 ∧ (entry 0 1 99999).unit = 1 ∧ (entry 10000 1 99999).rate = 10000 ∧
    (entry 10000 1 99999).floor < 100000 := by decide

theorem test_meets_AllowanceRule : (⟨none, 0, 0, 1⟩ : ToleranceEntry).fixed = none ∧
    (⟨some 99999, 1000, 0, 1⟩ : ToleranceEntry).fixed = some 99999 ∧ (⟨some 99999, 0, 0, 1⟩ : ToleranceEntry).ceiling = 0 ∧
    (⟨some 500, 0, 500, 1⟩ : ToleranceEntry).ceiling ≠ 0 ∧ 500 ≤ (⟨some 500, 0, 500, 1⟩ : ToleranceEntry).ceiling := by decide

theorem test_meets_TenderBandRule : (-45 : Int).natAbs ≤ 45 ∧ 45 < (46 : Int).natAbs ∧ 45 < (-46 : Int).natAbs ∧
    (46 : Int).natAbs ≤ 46 ∧ 46 < (47 : Int).natAbs ∧ (0 : Int) < 46 ∧ (-46 : Int) ≤ 0 ∧ 400 < 500 ∧
    (⟨none, 0, 0, 1⟩ : ToleranceEntry).fixed = none ∧ (-1 : Int) ≠ 0 := by decide

/-- The part of a session that has declared twice. -/
def twice412 : Session := { tally412 with part := some { declaration412 with count := 2 } }

theorem test_meets_DeclarationFigures : tally412.part = none ∧ twice412.part = some { declaration412 with count := 2 } ∧
    tally412.saturated = false ∧ { tally412 with saturated := true }.saturated = true ∧ declaration412.count ≠ 3 ∧
    (twice412.declaration tolerances66 ⟨9150, 12450, 3200⟩).count = 3 ∧
    (twice412.declaration tolerances66 ⟨9150, 12450, 3200⟩).band = ⟨.balanced, .balanced, .balanced⟩ ∧
    (twice412.declaration tolerances66 ⟨9150, 12450, 3199⟩).count = 3 ∧
    (twice412.declaration tolerances66 ⟨9150, 12450, 3199⟩).band.warrant.code ≠ 0 := by decide +kernel

theorem test_meets_FilterRule : (⟨true, 0⟩ : Filter).run < 1 ∧ (⟨true, 1⟩ : Filter).run < 2 ∧ (⟨true, 0⟩ : Filter).present = true ∧
    (⟨true, 0⟩ : Filter).present ≠ false ∧ (⟨true, 2⟩ : Filter).run + 1 < 4 ∧ (⟨true, 3⟩ : Filter).run + 1 = 4 := by decide

theorem test_meets_SessionFigures_records :
    let rest : List Queued := [⟨.void 104200 3 77 412 .cash 1560, .nothing⟩]
    (∃ q ∈ rest, q.record = .void 104200 3 77 412 .cash 1560) ∧ shop.sessions.table.at 1 = none ∧
      (∀ l : Fin 24, l < 1 → shop.sessions.table.at l ≠ none) := by decide +kernel

/-- R101: a VOID whose entry an ISSUE of the same pair has replaced changes nothing. -/
theorem test_replaced_entry_stays_issued :
    let u : SessionUnit := { shop.sessions with log := [⟨104200, 3, 77, 412, .cash, 1560, .issued⟩] }
    (u.written [] (.void 104200 3 70 411 .card 900)).log = u.log := by decide +kernel

theorem test_meets_SessionFigures : (shop.sessions.find fun y => y.number == 412) = some 0 ∧
    shop.sessions.table.at 0 = some session412 ∧ ∀ y ∈ shop.sessions.table.at 0, y.inRange := by
  refine ⟨by decide +kernel, by decide +kernel, of_some (x := session412) (by decide +kernel) ⟨?_, by decide +kernel⟩⟩
  intro t; cases t <;> decide +kernel

/-- No batch at P4, so a route with nothing to print on. -/
def noBatch : State := { shop with stock := { shop.stock with loaded := shop.stock.loaded.put 4 none } }

/-- P4 absent, so no printer answers. -/
def noPrinter : State := { shop with ports := shop.ports.put 4 { ticketPort with state := .absent } }

theorem test_meets_PrinterChoice :
    shop.choosePrinter 2 3 = .ok 4 ∧ (shop.routeEntry 2 3).primary = some 4 ∧ shop.function 4 = .ticket ∧
      (shop.ports.at 4).state = .active ∧ shop.loaded 4 = some batch77 ∧
    (shop.routeEntry 2 15).primary = none ∧ (shop.routeEntry 2 15).alternate = none ∧
    noBatch.loaded 4 = none ∧ noBatch.loaded 5 = none ∧ (noBatch.ports.at 4).state = .active ∧
    (noPrinter.ports.at 4).state = .absent ∧ (noPrinter.ports.at 5).state = .unused := by decide +kernel

theorem test_meets_BatchBalance : batch77.balanced ∧ 0 < batch77.remaining ∧ batch77.next ≤ 104301 ∧ 104301 ≤ batch77.last + 1 ∧
    (JRecord.issue 412 2 4 104240 77 3 .cash 9 2345 1560).accounts = some (batch77.id, 1) ∧ 1 ≤ batch77.give.inHand ∧
    batch77.give.balanced ∧ ({ store := [batch77.give], loaded := Vector.replicate 12 none } : Stock).loaded.at 4 = none := by
  decide +kernel

/-- Batch 78 in the store list and batch 77 at P4. -/
theorem test_meets_BatchBalance_stock :
    shop.loaded 4 = some batch77 ∧ shop.stock.store[0]? = some (newBatch 78 3 104301 104310) ∧
      (shop.stock.store.find? fun x => x.id == 78) = some (newBatch 78 3 104301 104310) ∧
      (JRecord.batchLoad 78 4).accounts = none ∧ 104240 ≤ batch77.last ∧
      (JRecord.count 77 4 104240 0 .loaded).accounts = some (batch77.id, 0) := by decide +kernel

theorem test_meets_BatchBalance_step : (∀ c ∈ busy.pending.head?, c ≠ .causeWriteEnds) ∧ (∃ t : State, step busy = .next t) ∧
    busy.StockSound := by
  refine ⟨by decide, ⟨_, rfl⟩, by decide +kernel, by decide +kernel, fun id h => ?_⟩
  have serials : ∀ p : Printer, ∀ e ∈ (busy.ports.at p).entries,
      ((e.ticket.bind fun t => busy.jobs.at t.job).bind Job.serial).all (fun sb => sb.2 == 77) = true := by decide +kernel
  have queue : busy.journal.queue = [] := by decide +kernel
  have other : (77 : Nat) ≠ id := h batch77.give (by decide +kernel)
  have none (p : Printer) : ((busy.ports.at p).entries.countP fun e =>
      e.phase != .sent && ((e.ticket.bind fun t => busy.jobs.at t.job).bind Job.serial).any fun sb => sb.2 == id) = 0 := by
    refine List.countP_eq_zero.mpr fun e m k => ?_
    have := serials p e m
    revert this k
    cases (e.ticket.bind fun t => busy.jobs.at t.job).bind Job.serial with
    | none => simp
    | some sb => intro k l; simp at k l; exact other (l.symm.trans k.2)
  simp [State.outstanding, none, queue]

theorem test_meets_RecordCodec : 4294967295 ≤ 4294967295 ∧ (JRecord.issue 65535 7 11 999999 65535 15 .warrant 63 999999 999999).fits ∧
    (JRecord.batchState 65535 15 1 999999 1000000 2000 2000 2000 2000 .exhausted none 31).fits ∧
    (JRecord.signOff 1 65535 0 0 0 0 true false ⟨-2147483648, 2147483647, 0⟩).fits := by
  refine ⟨le_rfl, by decide +kernel, by decide +kernel, by decide +kernel, ?_⟩
  show ∀ i ∈ [(-2147483648 : Int), 2147483647, 0], -(2 ^ 31 : Int) ≤ i ∧ i < (2 ^ 31 : Int)
  decide

theorem test_meets_FrameOnLine : (⟨0x10, 1, List.replicate 1200 0⟩ : Frame).body.length ≤ 1200 ∧
    ((⟨0x5A, false, false⟩ : LineByte).byte ≠ 0xA5 ∨ (⟨0x5A, false, false⟩ : LineByte).parityError = true ∨
      (⟨0x5A, false, false⟩ : LineByte).framingError = true) := by decide +kernel

/-- A byte in error after no byte, and as the last byte of a frame with no body; 1,201 in the length bytes; and a frame with
no body whose check bytes, 0 and 0, do not hold. -/
theorem test_meets_FrameOnLine_discards :
    ([] : List Byte).length < 2 ∧
    (numberOf (([0, 0, 0x10, 7, 0] : List Byte).take 2) ≤ 1200 ∧
      ([0, 0, 0x10, 7, 0] : List Byte).length < numberOf (([0, 0, 0x10, 7, 0] : List Byte).take 2) + 6) ∧
    (⟨0, true, true⟩ : LineByte).parityError = true ∧ (⟨0, false, true⟩ : LineByte).framingError = true ∧
    1200 < numberOf [0x04, 0xB1] ∧ numberOf [0x04, 0xB0] = 1200 ∧
    numberOf (([0, 0, 0x10, 7, 0, 0] : List Byte).take 2) = 0 ∧ ([0, 0, 0x10, 7, 0, 0] : List Byte).length = 0 + 6 ∧
    crc16 (([0, 0, 0x10, 7, 0, 0] : List Byte).take (0 + 4)) ≠ numberOf (([0, 0, 0x10, 7, 0, 0] : List Byte).drop (0 + 4)) := by
  decide +kernel

/-- R184: one event for each way to lose a frame, PARITY shown where the byte at fault has both errors. -/
theorem test_discards :
    lineEvents 0xA5 none [⟨0xA5, false, false⟩, ⟨0, true, true⟩] = [.discarded true true] ∧
    lineEvents 0xA5 none [⟨0xA5, false, false⟩, ⟨0x04, false, false⟩, ⟨0xB1, false, false⟩] = [.discarded false false] ∧
    lineEvents 0xA5 none ([0xA5, 0, 0, 0x10, 7, 0, 0].map fun b => ⟨b, false, false⟩) = [.discarded false false] ∧
    lineEvents 0xA5 none ([0xA5, 0x04, 0xB0, 0x10].map fun b => ⟨b, false, false⟩) = [] := by decide +kernel

/-- A fault record of P4's jam, which has ended. -/
def jamFault : FaultRecord :=
  { condition := .sensed 4 .jam, priority := .urgent, present := false, occurrences := 255, first := 2, last := 4294967295 }

def oneFault : State :=
  { shop with monitor := { shop.monitor with faults := [jamFault], nextSequence := 4294967295 }
              store := { shop.store with reporting := true } }

theorem test_meets_ConditionsRecorded : oneFault.phase = .running ∧ oneFault.faultsDistinct ∧
    oneFault.monitor.faults = [] ++ jamFault :: [] ∧ jamFault.condition = .sensed 4 .jam ∧
    (∀ f ∈ oneFault.monitor.faults, f.condition ≠ .window 2 .parity) := by decide +kernel

def owing : State :=
  { shop with office := shop.office.put 2 { emptyOfficePort with unanswered := [⟨5, 1⟩, ⟨8, 1⟩] }, nextRequest := 9 }

theorem test_meets_AnswerReturnsCredit : ((owing.office.at 2).unanswered.map OpenRequest.number).Nodup ∧
    8 ∈ (owing.office.at 2).unanswered.map OpenRequest.number ∧ (⟨2, 1, some 8⟩ : Reply).number = some 8 ∧
    (⟨2, 1, none⟩ : Reply).number = none ∧ (3 : Window) ≠ 2 := by decide +kernel

theorem test_meets_CheckpointShape :
    { shop.standing with store := List.replicate 32 (newBatch 78 3 104301 104310) }.store.length ≤ 32 ∧
    (shop.stock.batches.map Batch.id).Nodup ∧ batch77 ∈ shop.stock.batches ∧ shop.journal.queue = [] ∧
    (shop.sessions.live.map Session.number).Nodup ∧ session412.part = none := by decide +kernel

/-- R160: the next serial that a queued STOCKCOUNT has raised is carried as it stood before; a fed one as it stands. -/
theorem test_checkpoint_before_an_unwritten_count :
    let live : Stock := { shop.stock with loaded := shop.stock.loaded.put 4 (some (batch77.settleTo 104250)) }
    batch77.carriedNext live shop.stock [⟨.count 77 4 104250 10 .loaded, .nothing⟩] = 104240 ∧
      batch77.carriedNext live shop.stock [] = 104250 := by decide +kernel

/-! ### Hypotheses: frames and clerk requests -/

def disabled : State :=
  { shop with store := { shop.store with tables := { shop.store.tables with
    ports := shop.store.tables.ports.put 2 { enabled := false, supervisor := false, notices := false } } } }

def recovering : State :=
  { shop with phase := .recovering .resetLine true, store := { shop.store with write := some (.cause .resetLine) } }

theorem test_meets_LineEvents : shop.phase = .running ∧ (shop.portEntry 2).enabled = true ∧
    (shop.office.at 2).buffer.length < 2 ∧ (ask shop 2 0x10 []).office.at 2 ≠ shop.office.at 2 ∧
    2 ≤ ({ shop.office.at 2 with buffer := [⟨0, 0, []⟩, ⟨0, 0, []⟩] } : OfficePort).buffer.length ∧
    disabled.phase = .running ∧ (disabled.portEntry 2).enabled = false ∧
    ({ shop with phase := .restarting .powerOn }.phase = .restarting .powerOn) ∧
    recovering.phase = .recovering .resetLine true ∧ (recovering.portEntry 2).enabled = true ∧
    { recovering with phase := .recovering .resetLine false }.phase = .recovering .resetLine false ∧
    { disabled with phase := .recovering .resetLine true }.phase = .recovering .resetLine true := by decide +kernel

/-- The port holds 4 unanswered requests. -/
def fullPort (s : State) : State :=
  { s with office := s.office.put 2 { s.office.at 2 with unanswered := [⟨0, 1⟩, ⟨1, 2⟩, ⟨2, 3⟩, ⟨3, 4⟩] }, nextRequest := 4 }

theorem test_meets_FramesTurnedAway :
    requestOf (.signoff 2) = some (2, some .signoff) ∧
    ((ask disabled 2 0x11 []).office.at 2).buffer = [⟨0x11, 7, []⟩] ∧ takes (.signoff 2) ⟨0x11, 7, []⟩ = true ∧
    (ask disabled 2 0x11 []).phase = .running ∧ ((ask disabled 2 0x11 []).portEntry 2).enabled = false ∧
    ((fullPort (ask shop 2 0x11 [])).portEntry 2).enabled = true ∧ ((fullPort (ask shop 2 0x11 [])).office.at 2).credit = 4 ∧
    ((fullPort (ask shop 2 0x11 [])).office.at 2).buffer = [⟨0x11, 7, []⟩] ∧ some RequestKind.signoff ≠ some .cancel := by
  decide +kernel

theorem test_meets_FramesTurnedAway_cancel :
    let s := fullPort (ask shop 2 0x14 [])
    s.phase = .running ∧ (s.portEntry 2).enabled = true ∧ (s.office.at 2).credit = 4 ∧
      (s.office.at 2).buffer = [⟨0x14, 7, []⟩] ∧ takes (.cancel 2) ⟨0x14, 7, []⟩ = true ∧
      RequestKind.cancel.shaped [] = false := by decide +kernel

theorem test_meets_ChecksInOrder :
    requestOf (.nonRequestFrame 2) = some (2, none) ∧ ((ask shop 2 0x01 []).office.at 2).buffer = [⟨1, 7, []⟩] ∧
      takes (.nonRequestFrame 2) ⟨1, 7, []⟩ = true ∧ (ask shop 2 0x01 []).officeSound ∧ shop.phase = .running ∧
      ((ask shop 2 0x01 []).office.at 2).credit < 4 ∧ (shop.portEntry 2).enabled = true ∧
    requestOf (.hold 2) = some (2, some .hold) ∧ takes (.hold 2) ⟨0x1E, 7, [4]⟩ = true ∧
      RequestKind.hold.shaped [] = false ∧ RequestKind.hold.shaped [4] = true ∧ RequestKind.hold.management = true ∧
      (shop.portEntry 2).supervisor = false ∧
    requestOf (.testprint 2) = some (2, some .testprint) ∧ RequestKind.testprint.management = false ∧
      RequestKind.testprint.needsJournal = true ∧ stopped.journal.writer = .stopped ∧
      { shop with supply := .warning }.journal.writer ≠ .stopped := by decide +kernel

/-- A request of a kind reaches its owner, with a body that its reader reads. -/
abbrev reaches (s : State) (w : Window) (kind : RequestKind) (code : Nat) (body : List Nat) : Prop :=
  (ask s w code body).asks w kind 7 (bytes body) = true ∧ (ask s w code body).officeSound

abbrev takes? (s : State) : Prop := s.journalTakes

/-- No free room in the write queue. -/
def noRoom : State := { shop with journal := { shop.journal with reserved := 32 } }

/-- Every session record in use. -/
def crowded : State :=
  { shop with sessions := { shop.sessions with table := Vector.replicate 24 (some { session412 with state := .awaiting }) } }

theorem test_meets_Signon_full (i : Fin 24) (x : Session) (h : crowded.sessions.table.at i = some x) : x.current = false := by
  have : crowded.sessions.table.at i = some { session412 with state := .awaiting } := by
    simp [crowded, Vector.at, Vector.getElem_replicate]
  rw [this] at h; cases h; decide

theorem test_meets_Signon :
    (1 ≤ shop.sessions.nextNumber ∧ shop.sessions.nextNumber ≤ 65535) ∧
    reaches shop 3 .signon 0x10 [0, 7, 0, 0, 19, 136] ∧ readSignon (bytes [0, 7, 0, 0, 19, 136]) = some (7, 5000) ∧
      takes? shop ∧ shop.sessions.table.at 0 ≠ none ∧ shop.sessions.table.at 1 = none ∧ shop.journal.grantsRequest = true ∧
    reaches shop 3 .signon 0x10 [39, 16, 0, 0, 0, 0] ∧ readSignon (bytes [39, 16, 0, 0, 0, 0]) = some (10000, 0) ∧
    reaches shop 2 .signon 0x10 [39, 15, 0, 152, 150, 127] ∧
      readSignon (bytes [39, 15, 0, 152, 150, 127]) = some (9999, 9999999) ∧
      shop.sessions.table.at 0 = some session412 ∧ session412.current = true ∧ session412.window = 2 ∧
    reaches crowded 3 .signon 0x10 [0, 7, 0, 0, 19, 136] ∧ (∀ i : Fin 24, crowded.sessions.table.at i ≠ none) ∧
    reaches noRoom 3 .signon 0x10 [0, 7, 0, 0, 19, 136] ∧ takes? noRoom ∧ noRoom.journal.grantsRequest = false := by
  decide +kernel

/-- Session 412 with a job in flight. -/
def working : State :=
  { shop with sessions := { shop.sessions with table := shop.sessions.table.put 0 (some { session412 with jobs := 1 }) } }

theorem test_meets_Signoff :
    reaches shop 3 .signoff 0x11 [] ∧ readNothing [] = some () ∧ takes? shop ∧ shop.openSession 3 = none ∧
    reaches shop 2 .signoff 0x11 [] ∧ shop.openSession 2 = some session412 ∧
      (shop.sessions.find fun y => y.number == 412) = some 0 ∧ shop.sessions.table.at 0 = some session412 ∧
      session412.signOffOwed = false ∧ .session 412 ∉ shop.journal.claims ∧ session412.jobs = 0 ∧
      session412.pendingRecords = 0 ∧
    reaches working 2 .signoff 0x11 [] ∧ working.openSession 2 = some { session412 with jobs := 1 } ∧
      working.sessions.table.at 0 = some { session412 with jobs := 1 } := by decide +kernel

/-- The ISSUE of job 5, with no fields: stock type 3, CASH, code 9, gross 2,345. -/
def issue5 : List Nat := [3, 0, 9, 0, 0, 9, 41, 0]

def issueBody5 : IssueBody := { stockType := 3, tender := .cash, discount := 9, gross := 2345, fields := [] }

theorem test_meets_JobsAccepted :
    reaches shop 2 .issue 0x12 issue5 ∧ readIssue (bytes issue5) = some issueBody5 ∧ takes? shop ∧
      shop.openSession 2 = some session412 ∧ shop.openSession 3 = none ∧
      (shop.store.tables.discounts.at 9).enabled = true ∧ shop.choosePrinter 2 3 = .ok 4 ∧ shop.jobs.at 0 = none ∧
      (∀ k : JobNumber, ¬ k < 0) ∧
    reaches shop 2 .issue 0x12 [3, 0, 64, 0, 15, 66, 63, 0] ∧
      readIssue (bytes [3, 0, 64, 0, 15, 66, 63, 0]) = some { issueBody5 with discount := 64, gross := 999999 } ∧
      (∀ code : Fin 64, code.val ≠ 64) ∧
    shop.choosePrinter 2 15 = .error .noRoute ∧ noBatch.choosePrinter 2 3 = .error .noStock ∧
    reaches shop 2 .testprint 0x13 [15] ∧ readByte (bytes [15]) = some 15 ∧ (15 : StockType).val = 15 ∧
    reaches shop 2 .testprint 0x13 [16] ∧ readByte (bytes [16]) = some 16 ∧ 16 ≤ 16 := by decide +kernel

/-- Job 5 waits in P4's queue under tag 0x11, and a job of W2 under tag 0x12 has been sent. -/
def queued5 : State :=
  { shop with
    jobs := (shop.jobs.put 5 (some job5)).put 6 (some { job5 with
      state := .sent, origin := { window := 2, tag := 0x12, number := some 1 } })
    queues := shop.queues.put 4 [5]
    office := shop.office.put 2 { emptyOfficePort with unanswered := [⟨0, 0x11⟩, ⟨1, 0x12⟩] }
    nextRequest := 2 }

theorem test_meets_Cancel :
    let s := ask queued5 2 0x14 [0x11]
    s.phase = .running ∧ (s.portEntry 2).enabled = true ∧ (s.office.at 2).buffer = [⟨0x14, 7, [0x11]⟩] ∧
      requestKindOf 0x14 = some .cancel ∧ readByte [0x11] = some 0x11 ∧ s.officeSound ∧ s.jobs.at 5 = some job5 ∧
      job5.origin.window = 2 ∧ job5.origin.tag.toNat = 0x11 ∧ job5.state = .queued ∧
      (∀ k : JobNumber, k < 5 → s.jobs.at k = none) ∧
      ((s.jobs.at 6).map fun x => (x.origin.tag.toNat, x.state)) = some (0x12, .sent) ∧
      (∀ j : JobNumber, (s.jobs.at j).all fun x => x.origin.tag.toNat ≠ 0x13) ∧
      ((fullPort (ask shop 2 0x14 [0x13])).office.at 2).credit = 4 := by decide +kernel

/-- The log holds an issued entry of session 412 and a voided one. -/
def logged : State :=
  { shop with sessions := { shop.sessions with
      log := [⟨104200, 3, 77, 412, .cash, 1560, .issued⟩, ⟨104201, 3, 77, 412, .cash, 1560, .voided⟩] } }

theorem test_meets_Void :
    reaches logged 2 .void 0x15 [3, 0, 1, 151, 8] ∧ readVoid (bytes [3, 0, 1, 151, 8]) = some (3, 104200) ∧ takes? logged ∧
      logged.openSession 2 = some session412 ∧ logged.openSession 3 = none ∧ (3 : StockType).val = 3 ∧
      logged.sessions.logEntry 104200 3 = some ⟨104200, 3, 77, 412, .cash, 1560, .issued⟩ ∧
      logged.journal.grantsRequest = true ∧
    reaches logged 2 .void 0x15 [16, 0, 0, 0, 1] ∧ readVoid (bytes [16, 0, 0, 0, 1]) = some (16, 1) ∧
    reaches logged 2 .void 0x15 [15, 0, 15, 66, 63] ∧ readVoid (bytes [15, 0, 15, 66, 63]) = some (15, 999999) ∧
      logged.sessions.logEntry 999999 15 = none ∧
    reaches logged 2 .void 0x15 [3, 0, 1, 151, 9] ∧ readVoid (bytes [3, 0, 1, 151, 9]) = some (3, 104201) ∧
      logged.sessions.logEntry 104201 3 = some ⟨104201, 3, 77, 412, .cash, 1560, .voided⟩ ∧
    noRoom.journal.grantsRequest = false := by decide +kernel

theorem test_meets_Refund :
    reaches logged 2 .refund 0x16 [3, 0, 1, 151, 8, 0, 0, 0, 7, 208] ∧ takes? logged ∧
      readRefund (bytes [3, 0, 1, 151, 8, 0, 0, 0, 7, 208]) = some ⟨3, some 104200, .cash, 2000⟩ ∧
      logged.openSession 2 = some session412 ∧ logged.openSession 3 = none ∧
      logged.sessions.logEntry 104200 3 = some ⟨104200, 3, 77, 412, .cash, 1560, .issued⟩ ∧
    reaches logged 2 .refund 0x16 [3, 255, 255, 255, 255, 2, 0, 15, 66, 63] ∧
      readRefund (bytes [3, 255, 255, 255, 255, 2, 0, 15, 66, 63]) = some ⟨3, none, .warrant, 999999⟩ ∧
    reaches logged 2 .refund 0x16 [3, 0, 0, 0, 0, 2, 0, 0, 0, 0] ∧
      readRefund (bytes [3, 0, 0, 0, 0, 2, 0, 0, 0, 0]) = some ⟨3, some 0, .warrant, 0⟩ ∧
    reaches logged 2 .refund 0x16 [3, 0, 1, 151, 9, 0, 0, 0, 7, 208] ∧
      readRefund (bytes [3, 0, 1, 151, 9, 0, 0, 0, 7, 208]) = some ⟨3, some 104201, .cash, 2000⟩ ∧
      logged.sessions.logEntry 104201 3 = some ⟨104201, 3, 77, 412, .cash, 1560, .voided⟩ ∧
      logged.journal.grantsRequest = true ∧ noRoom.journal.grantsRequest = false := by decide +kernel

/-! ### Hypotheses: management requests -/

def writing : State := { shop with store := { shop.store with write := some (.causeclear none) } }

/-- P4's window holds an entry. -/
def printing : State :=
  table37 [ticketOf 0 .fed 3 false 2, ticketOf 1 .sent 6 false 2] (some (104240, 77)) none 104241 4

/-- A TABLELOAD of P4's entry with a filter depth of 4. -/
def loadPrinter : List Nat := [1, 1, 4, 0, 0, 3, 4, 1, 3, 232, 0, 200, 0, 0, 50]

def deepEntry : PrinterEntry := { ticketEntry with filterDepth := 4 }

/-- A TABLELOAD that would leave no supervisor. -/
def loadPort : List Nat := [0, 1, 0, 1, 0, 1]

theorem test_meets_StoreWritesBegin :
    requestOf (.tableload 0) = some (0, some .tableload) ∧ requestOf (.reporting 0) = some (0, some .reporting) ∧
      requestOf (.causeclear 0) = some (0, some .causeclear) ∧
    reaches shop 0 .tableload 0x17 loadPrinter ∧
      readTableload (bytes loadPrinter) = some (some (.printers [(4, deepEntry)])) ∧
      shop.supply ≠ .warning ∧ shop.store.write = none ∧ shop.loadHolds (.printers [(4, deepEntry)]) = true ∧
      shop.changesBusyPort (.printers [(4, deepEntry)]) = false ∧
      printing.changesBusyPort (.printers [(4, deepEntry)]) = true ∧ printing.store.write = none ∧
    reaches shop 0 .tableload 0x17 loadPort ∧
      shop.loadHolds (.ports [(0, { enabled := true, supervisor := false, notices := true })]) = false ∧
      readTableload (bytes loadPort) = some (some (.ports [(0, { enabled := true, supervisor := false, notices := true })])) :=
  by decide +kernel

theorem test_meets_StoreWritesBegin_others :
    reaches shop 0 .tableload 0x17 [7, 1] ∧ readTableload (bytes [7, 1]) = some none ∧ writing.store.write ≠ none ∧
    reaches shop 0 .reporting 0x25 [0] ∧ readEither (bytes [0]) = some true ∧
    reaches shop 0 .causeclear 0x28 [] ∧ readNothing (bytes []) = some () := by decide +kernel

/-- R192: 150 ms becomes 100 ms, a depth of 0 becomes 1, and an AUDIT port that names itself, P4 here, is refused. -/
theorem test_load_is_clamped_and_checked :
    let load (function source depth : Nat) := [1, 1, 4, function, source, 3, depth, 1, 0, 150, 0, 200, 0, 0, 50]
    readTableload (bytes (load 0 0 0)) =
        some (some (.printers [(4, { ticketEntry with filterDepth := 1, pollInterval := 100 })])) ∧
      readTableload (bytes (load 1 4 9)) = some none ∧
      readTableload (bytes (load 1 5 9)) = some (some (.printers [(4, { ticketEntry with
        function := .audit, auditSource := 5, filterDepth := 4, pollInterval := 100 })])) := by decide +kernel

/-- The hypotheses of LoadValues: an entry that reads, and values in and out of range. -/
theorem test_meets_StoreWritesBegin_values :
    (∀ e ∈ [(numberBytes 1 2 ++ yesByte true ++ yesByte false ++ yesByte true,
        (2, some ({ enabled := true, supervisor := false, notices := true } : PortEntry)))],
      ∀ rest, readPortEntry (e.1 ++ rest) = some (e.2, rest)) ∧
    (∀ g ∈ [(⟨0, 0, .fixed [0x41, 0x20]⟩ : Segment), ⟨11, 47, .field 7⟩], g.row < 256 ∧ g.column < 256 ∧ (∀ n, g.kind = .field n → n < 256) ∧
      ∀ t, g.kind = .fixed t → t.length < 256 ∧ ∀ b ∈ t, 0x20 ≤ b.toNat ∧ b.toNat ≤ 0x7E) := by
  constructor
  · intro e h rest
    cases List.mem_singleton.mp h
    rfl
  · intro g h
    simp only [List.mem_cons, List.not_mem_nil, or_false] at h
    rcases h with rfl | rfl
    · exact ⟨by decide, by decide, fun _ e => (by cases e), fun _ e => (by cases e; decide)⟩
    · exact ⟨by decide, by decide, fun _ e => (by cases e; decide), fun _ e => (by cases e)⟩

theorem test_meets_ReadsAnswered_tables_and_stock :
    reaches shop 0 .tableread 0x18 [6, 17, 8] ∧ readTableread (bytes [6, 17, 8]) = some (6, 17, 8) ∧
      (shop.store.tables.slice 6 17 8).isSome = true ∧ shop.store.tables.slice 6 18 8 = none ∧
      reaches shop 0 .tableread 0x18 [7, 0, 0] ∧ readTableread (bytes [7, 0, 0]) = some (7, 0, 0) ∧
    reaches shop 0 .stockread 0x1D [0, 11] ∧ readStockread (bytes [0, 11]) = some (.printer (11 : Printer).val) ∧
      reaches shop 0 .stockread 0x1D [2, 31] ∧ readStockread (bytes [2, 31]) = some (.position 31) ∧
      reaches shop 0 .stockread 0x1D [1, 255, 255] ∧ readStockread (bytes [1, 255, 255]) = some (.batch 65535) := by
  decide +kernel

theorem test_meets_ReadsAnswered_refusals :
    reaches shop 0 .tableread 0x18 [5, 3, 1] ∧ readTableread (bytes [5, 3, 1]) = some (5, 3, 1) ∧
    reaches shop 0 .stockread 0x1D [0, 12] ∧ readStockread (bytes [0, 12]) = some (.printer 12) ∧
      readStockread (bytes [2, 32]) = some (.position 32) ∧ readStockread (bytes [1, 0, 0]) = some (.batch 0) ∧
    reaches shop 0 .sessionread 0x22 [1, 8] ∧ readSessionread (bytes [1, 8]) = some (.window 8) ∧
      readSessionread (bytes [0, 0, 0]) = some (.number 0) := by decide +kernel

theorem test_meets_ReadsAnswered_sessions :
    reaches shop 0 .sessionread 0x22 [0, 1, 156] ∧ readSessionread (bytes [0, 1, 156]) = some (.number 412) ∧
      shop.session 412 = some session412 ∧ shop.session 65535 = none ∧
      readSessionread (bytes [0, 255, 255]) = some (.number 65535) ∧
      reaches shop 0 .sessionread 0x22 [1, 7] ∧ readSessionread (bytes [1, 7]) = some (.window (7 : Window).val) ∧
      shop.sessions.table.at 0 = some session412 ∧ session412.window = 2 ∧
      (∀ k : Fin 24, k ≠ 0 → shop.sessions.table.at k = none) := by decide +kernel

theorem test_meets_ReadsAnswered_faults_and_journal :
    reaches shop 0 .faultread 0x23 [191] ∧ readByte (bytes [191]) = some 191 ∧ 191 < 192 ∧
    reaches shop 0 .journalread 0x26 [0, 0, 0, 1, 8] ∧ readJournalread (bytes [0, 0, 0, 1, 8]) = some (1, 8) ∧
      readJournalread (bytes [0, 0, 0, 0, 9]) = some (0, 9) ∧ readJournalread (bytes [0, 0, 0, 9, 8]) = some (9, 8) ∧
      shop.journal.nextSequence - 1 = 8 ∧
    reaches shop 0 .statusread 0x27 [] ∧ readNothing (bytes []) = some () := by decide +kernel

theorem test_meets_Faultclear :
    reaches oneFault 0 .faultclear 0x24 [1, 4, 4] ∧ readFaultclear (bytes [1, 4, 4]) = some [(4, 4)] ∧
      [(4, 4)].map (fun p : Nat × Nat => conditionOf p.1 p.2) = [Condition.sensed 4 .jam].map some ∧ oneFault.faultsDistinct ∧
    reaches oneFault 0 .faultclear 0x24 [0] ∧ readFaultclear (bytes [0]) = some [] ∧
    reaches oneFault 0 .faultclear 0x24 [1, 12, 0] ∧ readFaultclear (bytes [1, 12, 0]) = some [(12, 0)] ∧
      conditionOf 12 0 = none := by decide +kernel

/-- The store list is full. -/
def fullStore : State :=
  { shop with stock := { shop.stock with store := List.replicate 32 (newBatch 78 3 104301 104310) } }

theorem test_meets_Stockin :
    let body := [0, 80, 3, 0, 0, 0, 1, 0, 0, 7, 208]
    reaches shop 0 .stockin 0x19 body ∧ readStockin (bytes body) = some ⟨80, 3, 1, 2000⟩ ∧ takes? shop ∧
      (∀ b ∈ shop.stock.batches, b.id ≠ 80 ∧ 2000 < b.next) ∧
      shop.stock.store.length < 32 ∧ shop.journal.grantsRequest = true ∧ noRoom.journal.grantsRequest = false ∧
      fullStore.stock.store.length = 32 ∧
      (∀ b ∈ fullStore.stock.batches, b.id ≠ 80 ∧ 2000 < b.next) ∧
    reaches shop 0 .stockin 0x19 [0, 80, 3, 0, 0, 0, 1, 0, 0, 7, 209] ∧
      readStockin (bytes [0, 80, 3, 0, 0, 0, 1, 0, 0, 7, 209]) = some ⟨80, 3, 1, 2001⟩ := by decide +kernel

/-- R77: batch 77 is exhausted and shares no serial with 104,290 to 104,300, nor with its own last serials and one more. -/
def exhausted77 : State :=
  { shop with stock := { store := [], loaded := shop.stock.loaded.put 4 (some { batch77 with
      next := 104301, state := .exhausted }) } }

theorem test_stockin_beside_an_exhausted_batch :
    let body := [0, 80, 3, 0, 1, 151, 98, 0, 1, 151, 118]
    reaches exhausted77 0 .stockin 0x19 body ∧ readStockin (bytes body) = some ⟨80, 3, 104290, 104310⟩ ∧
      (after (.stockin 0) (ask exhausted77 0 0x19 body)).stock.store = [newBatch 80 3 104290 104310] := by decide +kernel

theorem test_meets_Stockload :
    let empty := { shop with stock := { shop.stock with loaded := shop.stock.loaded.put 4 none } }
    reaches empty 0 .stockload 0x1A [0, 78, 4] ∧ readStockload (bytes [0, 78, 4]) = some (78, 4) ∧ takes? empty ∧
      (empty.stock.store.find? fun x => x.id == 78) = some (newBatch 78 3 104301 104310) ∧ empty.function 4 = .ticket ∧
      empty.loaded 4 = none ∧ (empty.ports.at 4).entries = [] ∧ empty.journal.grantsRequest = true ∧ empty.queues.at 4 = [] ∧
    readStockload (bytes [0, 78, 12]) = some (78, 12) ∧ reaches empty 0 .stockload 0x1A [0, 78, 12] ∧
    (∃ b ∈ shop.stock.batches, b.id = 78) ∧ shop.loaded 4 = some batch77 ∧ batch77.state ≠ .exhausted ∧
    noRoom.journal.grantsRequest = false := by decide +kernel

theorem test_meets_Stockload_jobsAt : noBatch.jobsAt 4 := by
  rintro j (h | h)
  · have : noBatch.queues.at 4 = [] := by decide +kernel
    rw [this] at h; cases h
  · have : (noBatch.ports.at 4).entries = [] := by decide +kernel
    rw [this] at h; cases h

theorem test_meets_Stockout :
    reaches shop 0 .stockout 0x1B [4] ∧ readByte (bytes [4]) = some 4 ∧ takes? shop ∧ shop.loaded 4 = some batch77 ∧
      shop.loaded 11 = none ∧ batch77.state = .loaded ∧ (shop.ports.at 4).entries = [] ∧ batch77.inHand = 0 ∧
      0 < batch77.remaining ∧ shop.stock.store.length < 32 ∧ shop.journal.grantsRequest = true ∧
    fullStore.stock.store.length = 32 ∧ fullStore.loaded 4 = some batch77 ∧ batch77.unrecorded = 0 ∧
      { batch77 with unrecorded := 1 }.inHand = 0 ∧ { batch77 with unrecorded := 1 }.unrecorded ≠ 0 ∧
    { batch77 with next := 104301, state := .exhausted }.remaining = 0 ∧ (printing.ports.at 4).entries ≠ [] ∧
    reaches shop 0 .stockout 0x1B [12] ∧ readByte (bytes [12]) = some 12 ∧ noRoom.journal.grantsRequest = false := by
  decide +kernel

theorem test_meets_Stockcount :
    reaches shop 0 .stockcount 0x1C [4, 0, 1, 151, 109] ∧ readStockcount (bytes [4, 0, 1, 151, 109]) = some (4, 104301) ∧
      takes? shop ∧ shop.loaded 4 = some batch77 ∧ batch77.state = .loaded ∧ batch77.inHand = 0 ∧
      (shop.ports.at 4).entries = [] ∧ batch77.next ≤ 104301 ∧ 104301 = batch77.last + 1 ∧ shop.journal.grantsRequest = true ∧
    reaches shop 0 .stockcount 0x1C [4, 0, 1, 151, 48] ∧ readStockcount (bytes [4, 0, 1, 151, 48]) = some (4, 104240) ∧
      104240 = batch77.next ∧ shop.loaded 5 = none ∧ (printing.ports.at 4).entries ≠ [] ∧
    reaches shop 0 .stockcount 0x1C [12, 0, 0, 0, 0] ∧ readStockcount (bytes [12, 0, 0, 0, 0]) = some (12, 0) ∧
      noRoom.journal.grantsRequest = false := by decide +kernel

/-- P4 has failed. -/
def failed : State := { shop with ports := shop.ports.put 4 { ticketPort with state := .failed, pollTimer := none } }

theorem test_meets_HoldAndRelease :
    reaches shop 0 .hold 0x1E [11] ∧ readByte (bytes [11]) = some 11 ∧ (11 : Printer).val = 11 ∧
      reaches shop 0 .hold 0x1E [12] ∧ readByte (bytes [12]) = some 12 ∧
    reaches shop 0 .release 0x1F [4] ∧ readByte (bytes [4]) = some 4 ∧
      ((shop.ports.at 4).setHold .supervisor false).state ≠ .failed ∧
      reaches failed 0 .release 0x1F [4] ∧ ((failed.ports.at 4).setHold .supervisor false).state = .failed ∧
      reaches shop 0 .release 0x1F [12] := by decide +kernel

/-- Session 412 awaits its declaration; session 413 is declared for the third time. -/
def tallied : State :=
  { shop with sessions := { shop.sessions with table := (shop.sessions.table.put 0 (some tally412)).put 1 (some
      { tally412 with number := 413, state := .declared, part := some { declaration412 with count := 3 } }) } }

theorem test_meets_Declare :
    let body := [1, 156, 59, 154, 201, 255, 0, 0, 48, 162, 0, 0, 0, 0]
    reaches tallied 0 .declare 0x20 body ∧ readDeclare (bytes body) = some (412, ⟨999999999, 12450, 0⟩) ∧ takes? tallied ∧
      tallied.session 412 = some tally412 ∧ tally412.state = .awaiting ∧ tally412.pendingPart = none ∧
      tallied.journal.grantsRequest = true ∧ tallied.session 65535 = none ∧
      (tallied.session 413).map (fun x => (x.state, x.part.map Declaration.count)) = some (.declared, some 3) ∧
    reaches tallied 0 .declare 0x20 [0, 0, 59, 154, 202, 0, 0, 0, 0, 0, 0, 0, 0, 0] ∧
      readDeclare (bytes [0, 0, 59, 154, 202, 0, 0, 0, 0, 0, 0, 0, 0, 0]) = some (0, ⟨1000000000, 0, 0⟩) ∧
      noRoom.journal.grantsRequest = false := by decide +kernel

theorem test_meets_Close :
    reaches tallied 0 .close 0x21 [1, 157, 0] ∧ readClose (bytes [1, 157, 0]) = some (413, true) ∧ takes? tallied ∧
      tallied.session 413 = some { tally412 with
        number := 413, state := .declared, part := some { declaration412 with count := 3 } } ∧
      declaration412.sessionBand = .referred ∧ tallied.journal.grantsRequest = true ∧
    reaches tallied 0 .close 0x21 [1, 157, 1] ∧ readClose (bytes [1, 157, 1]) = some (413, false) ∧
    readClose (bytes [0, 0, 0]) = some (0, true) ∧ readClose (bytes [255, 255, 0]) = some (65535, true) ∧
      tallied.session 65535 = none ∧ tallied.session 412 = some tally412 ∧ tally412.state ≠ .declared ∧
      noRoom.journal.grantsRequest = false := by decide +kernel

def sending (restarts : Bool) : State :=
  { shop with office := shop.office.put 2 { emptyOfficePort with sendList := [.answer 7 .done .nothing restarts] } }

theorem test_meets_FullReset :
    ((sending false).office.at 2).sendList = .answer 7 .done .nothing false :: [] ∧
      (OutFrame.answer 7 .done .nothing false).restarts = false ∧
      ((sending true).office.at 2).sendList = .answer 7 .done .nothing true :: [] ∧
      (OutFrame.answer 7 .done .nothing true).restarts = true ∧
    reaches shop 0 .reset 0x29 [0] ∧ readEither (bytes [0]) = some true ∧ shop.supply = .normal ∧
      reaches { shop with supply := .warning } 0 .reset 0x29 [0] := by decide +kernel

theorem test_meets_ResetPath : reaches shop 0 .reset 0x29 [1] ∧ readEither (bytes [1]) = some false ∧
    (∀ j : JobNumber, shop.jobs.at j = none) ∧ shop.function 4 ≠ .off ∧ shop.function 0 = .off := by decide +kernel

/-- Jobs of two CLOSING sessions, 412 at W2 and 413 at W1: 413's was taken first. -/
def closing : State :=
  let first : OpenRequest := ⟨0, 0x21⟩
  let second : OpenRequest := ⟨1, 0x11⟩
  let shut (x : Session) : Session := { x with jobs := 1, state := .closing }
  { busy with
    jobs := (shop.jobs.put 5 (some { job5 with origin := ⟨2, 0x11, some 1⟩ })).put 6 (some { job5 with
      origin := ⟨1, 0x21, some 0⟩, session := 413, image := some 1, state := .sent })
    ports := shop.ports.put 4 { ticketPort with entries := [ticketOf 1 .sent 6 false 2], nextImage := 2 }
    office := (shop.office.put 2 { emptyOfficePort with unanswered := [second] }).put 1
      { emptyOfficePort with unanswered := [first] }
    sessions := { shop.sessions with table := (shop.sessions.table.put 0 (some (shut session412))).put 1 (some
      (shut { session412 with number := 413, window := 1 })) } }

theorem test_meets_ResetPath_jobs : reaches closing 0 .reset 0x29 [1] ∧
    (∀ v : Window, ((closing.office.at v).unanswered.map OpenRequest.number).Pairwise (· < ·)) ∧
    (∀ v v' : Window, ∀ q ∈ (closing.office.at v).unanswered, ∀ q' ∈ (closing.office.at v').unanswered,
      q.number = q'.number → v = v') ∧
    ((closing.jobs.at 6).map fun x => (x.origin.number, x.session)) = some (some 0, 413) ∧
    ((closing.jobs.at 5).map fun x => (x.origin.number, x.session)) = some (some 1, 412) ∧
    (∀ j : JobNumber, j ≠ 5 → j ≠ 6 → closing.jobs.at j = none) ∧
    (closing.session 412).map Session.jobs = some 1 ∧ (closing.session 413).map Session.jobs = some 1 ∧
    closing.journal.claims = [] := by decide +kernel

theorem test_meets_ResetPath_kept : busy.roomSound ∧ reaches busy 0 .reset 0x29 [1] ∧ .session 412 ∈ (claiming 2).journal.claims ∧
  recovering.journal.writer = .idle :=
  ⟨test_meets_LimitsKept_room, by decide +kernel, by decide +kernel, by decide +kernel⟩

theorem test_path_reset_ends_jobs_in_order_of_arrival :
    (after (.resetPath 0) (ask closing 0 0x29 [1])).journal.queue.map Queued.record =
      [.signOff 413 0 0 0 0 0 false false ⟨0, 0, 0⟩, .signOff 412 0 0 0 0 0 false false ⟨0, 0, 0⟩] := by decide +kernel

theorem test_path_reset_names_the_serial : ((after (.resetPath 0) (ask busy 0 0x29 [1])).office.at 2).sendList =
    [.answer 0x11 .reset .nothing false, .answer 0x12 .reset (.resetSerial 104240 77) false] := by decide +kernel

/-! ### Hypotheses: the table store and the printers -/

theorem test_meets_StoreWritesEnd :
    let s (write : StoreWrite) : State := { printing with store := { printing.store with write := some write } }
    (s (.reporting true none)).store.write = some (.reporting true none) ∧
    (s (.causeclear none)).store.write = some (.causeclear none) ∧
    (s (.tableload (.printers [(4, deepEntry)]) none)).changesBusyPort (.printers [(4, deepEntry)]) = true ∧
    (TableEntries.tolerances [(2, factoryTolerance)]).isPrinters = false ∧
    ([((2 : Fin 3), factoryTolerance)].map Prod.fst).Nodup ∧ (1 : Fin 3) ∉ [((2 : Fin 3), factoryTolerance)].map Prod.fst := by
  decide +kernel

/-- P4 becomes OFF, P5 an audit printer, P9 and P10 ticket printers, in one load. -/
def turned : List (Printer × PrinterEntry) :=
  [(4, factoryPrinter), (5, { factoryPrinter with function := .audit, auditSource := 9 }), (9, { ticketEntry with lowStock := 500 }),
    (10, ticketEntry)]

def turning : State :=
  { shop with store := { shop.store with write := some (.tableload (.printers turned) none) } }

theorem test_meets_PrinterLoadActs :
    turning.store.write = some (.tableload (.printers turned) none) ∧ turning.changesBusyPort (.printers turned) = false ∧
      turning.phase = .running ∧ turning.printerEntry 4 ≠ factoryPrinter ∧ turning.printerEntry 0 = factoryPrinter ∧
      turning.function 4 = .ticket ∧ turning.function 9 = .audit ∧ turning.function 10 = .report ∧
      turning.loaded 10 = none ∧ turning.loaded 4 = some batch77 ∧ (turning.printerEntry 9).lowStock ≠ 500 ∧
      (∀ j : JobNumber, j ∉ turning.queues.at 4) ∧ (turning.ports.at 4).entries = [] := by decide +kernel

/-- P4 becomes OFF with COVER_OPEN present and its hold reason set. -/
theorem test_meets_PrinterLoadActs_holds :
    let filters := (turning.monitor.filters.at 4).put Sensed.coverOpen.place ⟨true, 0⟩
    let s := { turning with
      ports := turning.ports.put 4 { ticketPort with state := .held, hold := noHolds.put HoldReason.coverOpen.place true }
      monitor := { turning.monitor with filters := turning.monitor.filters.put 4 filters } }
    s.store.write = some (.tableload (.printers turned) none) ∧ s.changesBusyPort (.printers turned) = false ∧
      s.phase = .running ∧ s.printerEntry 4 ≠ factoryPrinter ∧ (s.filter 4 .coverOpen).present = true ∧
      Sensed.coverOpen.holdReason = some .coverOpen ∧ (s.ports.at 4).holds .coverOpen = true := by decide +kernel

/-- Image 1 of P4 is printed and image 2 sent behind it. -/
theorem test_meets_LimitsKept_ports :
    let c := Instr.printed 4 (bytes [1])
    let s := { busy with pending := [c] }
    let t := after c busy
    step s = .next t ∧ s.journal.claims.Nodup ∧ s.portsSound ∧ s.auditSound ∧
      s.pending.head? ≠ some .causeWriteEnds ∧ s.pending.head? ≠ some .tableloadWriteEnds ∧
      s.itemsSent t 4 = [2] ∧ (s.images 4 ++ s.itemsSent t 4).Nodup ∧ (audited 64).auditSound ∧
      ∃ u, step { turning with pending := [.tableloadWriteEnds] } = .next u :=
  ⟨rfl, by decide +kernel, by decide +kernel, by decide +kernel, by decide +kernel, by decide +kernel,
    by decide +kernel, by decide +kernel, by decide +kernel, _, rfl⟩

theorem test_meets_LimitsKept_sessions : tallied.sessions.sound := by
  have all : ∀ i k : Fin 24, (tallied.sessions.table.at i).all (fun x => decide (1 ≤ x.number ∧ x.number ≤ 65535) &&
      (k == i || (tallied.sessions.table.at k).all fun y => y.number != x.number && !(x.current && y.current))) = true := by
    decide +kernel
  refine ⟨by decide, by decide, fun i x h => ?_⟩
  have one := all i i
  rw [h] at one
  simp only [Option.all_some, Bool.and_eq_true, decide_eq_true_eq] at one
  refine ⟨one.1.1, one.1.2, fun k d y h' => ?_⟩
  have two := all i k
  rw [h, h'] at two
  simp only [Option.all_some, Bool.and_eq_true, beq_eq_false_iff_ne.mpr d, Bool.false_or] at two
  exact ⟨by simpa using two.2.1, fun a b => by simp [a, b] at two⟩

def attaching : State := { shop with ports := shop.ports.put 4 { emptyPort with state := .attaching, attachTimer := some 200 } }

def absent : State := { shop with ports := shop.ports.put 4 { emptyPort with state := .absent, absentTimer := some 5000 } }

theorem test_meets_CapsTaken : attaching.phase = .running ∧ (attaching.ports.at 4).state = .attaching ∧
    attaching.function 4 = .ticket ∧ readCaps (bytes [0, 8]) = some (.ticket, 8) ∧ readCaps (bytes [0, 1]) = some (.ticket, 1) ∧
    readCaps (bytes [0, 9]) = some (.ticket, 9) ∧ readCaps (bytes [1, 8]) = some (.roll, 8) ∧ readCaps (bytes [2, 8]) = none ∧
    (absent.ports.at 4).state = .absent := by decide +kernel

theorem test_meets_PortFails : printing.takesReports 4 ∧ readStatus (bytes [64, 255, 255, 0]) = none ∧
    printing.function 4 = .ticket ∧ readByte (bytes []) = none ∧ readByte (bytes [15]) = some 15 ∧
    (∀ e ∈ (printing.ports.at 4).entries, e.image.val ≠ 15) ∧ shop.takesReports 9 ∧ shop.function 9 ≠ .ticket := by
  decide +kernel

/-- The window of `printing`: image 0 fed, image 1 sent. -/
theorem test_meets_names (body : Nat) (older younger : List Entry) (e : Entry)
    (h : body = e.image.val ∧ (printing.ports.at 4).entries = older ++ e :: younger ∧ e.image.val < 16 ∧
      ∀ f ∈ older, f.image ≠ e.image) :
    printing.Names 4 (bytes [body]) older e younger := by
  refine ⟨by decide +kernel, ?_, h.2.1, h.2.2.2⟩
  rw [h.1]
  have := h.2.2.1
  show some (numberOf _) = _
  simp [bytes, numberOf]
  omega

/-- Image 1 of `printing` is sent and image 0 fed, so FED is allowed for image 1 and DOUBLEFED and PRINTED for image 0;
FED is refused for image 0. -/
theorem test_meets_PortFails_phase : printing.Names 4 (bytes [0]) [] (ticketOf 0 .fed 3 false 2) [ticketOf 1 .sent 6 false 2] ∧
    ¬ ImageReport.fed.allowed (printing.function 4) [] (ticketOf 0 .fed 3 false 2) := by
  refine ⟨test_meets_names 0 _ _ _ (by decide +kernel), ?_⟩
  have h : printing.function 4 = .ticket := by decide +kernel
  rw [h]; rintro ⟨a, -⟩; cases a

theorem test_meets_FeedsTaken :
    printing.function 4 = .ticket ∧ (printing.jobs.at 6).isSome = true ∧ (printing.jobs.at 3).isSome = true ∧
    (printing.loaded 4).map (fun b => (b.stockType, b.state, b.remaining)) = some (3, .loaded, 60) ∧
    { batch77 with last := 104240 }.remaining = 1 ∧ batch77.stockType = 3 ∧
    { batch77 with next := 104301, state := .exhausted }.remaining = 0 := by decide +kernel

theorem test_meets_FeedsTaken_fed :
    printing.Names 4 (bytes [1]) [ticketOf 0 .fed 3 false 2] (ticketOf 1 .sent 6 false 2) [] ∧
    ImageReport.fed.allowed .ticket [ticketOf 0 .fed 3 false 2] (ticketOf 1 .sent 6 false 2) :=
  ⟨test_meets_names 1 _ _ _ (by decide +kernel), rfl, by simp [ticketOf]⟩

theorem test_meets_FeedsTaken_doublefed :
    printing.Names 4 (bytes [0]) [] (ticketOf 0 .fed 3 false 2) [ticketOf 1 .sent 6 false 2] ∧
    ImageReport.doublefed.allowed .ticket [] (ticketOf 0 .fed 3 false 2) :=
  ⟨test_meets_names 0 _ _ _ (by decide +kernel), rfl, _, rfl, rfl⟩

theorem test_meets_FeedsTaken_ticket : ∃ t job, printing.NamesTicket 4 (bytes [1]) [ticketOf 0 .fed 3 false 2]
    (ticketOf 1 .sent 6 false 2) [] t job :=
  ⟨_, _, test_meets_names 1 _ _ _ (by decide +kernel), by decide +kernel, rfl, rfl⟩

theorem test_meets_PrintsTaken_ticket :
    ∃ t job, afterJam.NamesTicket 4 (bytes [0]) [] (ticketOf 0 .printed 3 false 2) [] t job ∧
      job.serial = some (104240, 77) ∧ 1 ≤ t.places :=
  ⟨_, _, ⟨⟨by decide +kernel, by decide +kernel, by decide +kernel, by decide +kernel⟩, by decide +kernel, rfl, rfl⟩, rfl,
    by decide⟩

/-- A roll port with the window of one line. -/
def rolling : State :=
  { shop with ports := shop.ports.put 9 { shop.ports.at 9 with
      entries := [⟨0, .sent, none⟩], audit := [auditLine job5 42 104240], nextImage := 1, replyTimer := some 200 } }

theorem test_meets_PrintsTaken : (afterJam.jobs.at 3).map Job.serial = some (some (104240, 77)) ∧ afterJam.function 9 = .audit ∧
    (afterJam.printerEntry 9).auditSource = 4 ∧ rolling.takesReports 9 ∧ rolling.function 9 = .audit ∧
    (rolling.ports.at 9).entries = [⟨0, .sent, none⟩] ∧ job5.net ≤ 999999 := by decide +kernel

theorem test_meets_PrintsTaken_allowed :
    printing.Names 4 (bytes [0]) [] (ticketOf 0 .fed 3 false 2) [ticketOf 1 .sent 6 false 2] ∧
    ImageReport.printed.allowed .ticket [] (ticketOf 0 .fed 3 false 2) ∧
    ImageReport.presented.allowed .ticket [] (ticketOf 0 .printed 3 false 2) :=
  ⟨test_meets_names 0 _ _ _ (by decide +kernel), ⟨rfl, by simp⟩, rfl, rfl⟩

theorem test_meets_JamTaken : (printing.printerEntry 4).retryLimit = 1 ∧
    (printing.jobs.at 6).map (fun x => (x.retry, printing.moveTarget x)) = some (0, none) ∧
    { job5 with retry := 1 }.retry + 1 = 2 ∧ rolling.takesReports 9 ∧ rolling.queues.at 9 = [] ∧
    (∀ f ∈ (printing.ports.at 4).entries, ∀ k ∈ f.ticket, 1 ≤ k.places) ∧
    { shop with
      ports := shop.ports.put 5 ticketPort
      stock := { shop.stock with loaded := shop.stock.loaded.put 5 (some batch77) } }.moveTarget job5 = some 5 := by
  decide +kernel

theorem test_meets_JamTaken_allowed :
    ImageReport.jammed.allowed .ticket [ticketOf 0 .fed 3 false 2] (ticketOf 1 .sent 6 false 2) ∧
    ImageReport.jammed.allowed .ticket [] (ticketOf 0 .fed 3 false 2) := ⟨.inl ⟨rfl, by simp [ticketOf]⟩, .inr rfl⟩

theorem placed_of (s : State) (p : Printer) (js : List JobNumber)
    (all : ∀ j : JobNumber, j ∈ s.queues.at p ∨ some j ∈ (s.ports.at p).entries.map Entry.job? → j ∈ js)
    (jobs : ∀ j ∈ js, (s.jobs.at j).any (fun x => x.printer == p) = true)
    (nd : ((s.ports.at p).entries.filterMap Entry.job? ++ s.queues.at p).Nodup) : s.placed p := by
  refine ⟨fun j h => ?_, nd⟩
  have := jobs j (all j h)
  cases k : s.jobs.at j with
  | none => rw [k] at this; cases this
  | some x => rw [k] at this; exact ⟨x, rfl, eq_of_beq this⟩

theorem test_meets_JamTaken_placed : printing.placed 4 ∧ busy.placed 4 :=
  ⟨placed_of _ _ [3, 6] (by decide +kernel) (by decide +kernel) (by decide +kernel),
    placed_of _ _ [5, 6] (by decide +kernel) (by decide +kernel) (by decide +kernel)⟩

/-- P4's window of `printing` with another batch record, or none. -/
def printingWith (b : Option Batch) : State :=
  { printing with stock := { printing.stock with loaded := printing.stock.loaded.put 4 b } }

theorem test_meets_FeedsTaken_mismatch (b : Option Batch) :
    (∃ t job, (printingWith b).NamesTicket 4 (bytes [0]) [] (ticketOf 0 .fed 3 false 2) [ticketOf 1 .sent 6 false 2] t job) ∧
    (printingWith b).placed 4 ∧ ((printingWith b).ports.at 4).state = .active ∧
    { batch77 with next := 104301, state := .unverified }.remaining = 0 ∧
    { batch77 with next := 104301, state := .exhausted }.remaining = 0 :=
  let h := test_meets_FeedsTaken_doublefed.1
  ⟨⟨_, _, ⟨h.1, h.2, h.3, h.4⟩, (by decide +kernel : printing.function 4 = .ticket), rfl, rfl⟩,
    test_meets_JamTaken_placed.1, rfl, by decide +kernel, by decide +kernel⟩

/-! ### Hypotheses: queues considered (R12 to R17) -/

/-- Job 5 of stock type 3 and job 7 of type 4 wait at P4, both routed to P5 as the alternate; P5 is ACTIVE with a batch of
a type. P4 has a port and a batch of its own. -/
def queueing (ty : StockType) (port : Port) (loaded : Option Batch) : State :=
  { shop with
    store := { shop.store with tables := { shop.store.tables with
      routes := shop.store.tables.routes.put (routeIndex 2 4) { primary := some 4, alternate := some 5 } } }
    jobs := (shop.jobs.put 5 (some job5)).put 7 (some { job5 with
      origin := ⟨2, 0x13, some 1⟩, stockType := 4, retry := 1 })
    queues := shop.queues.put 4 [5, 7]
    ports := (shop.ports.put 4 port).put 5 ticketPort
    stock := { shop.stock with loaded := (shop.stock.loaded.put 4 loaded).put 5 (some { batch77 with id := 79, stockType := ty }) }
    office := shop.office.put 2 { emptyOfficePort with unanswered := [⟨0, 0x11⟩, ⟨1, 0x13⟩] }
    nextRequest := 2
    sessions := { shop.sessions with table := shop.sessions.table.put 0 (some { session412 with jobs := 2 }) } }

theorem queueing_placed (ty : StockType) (port : Port) (loaded : Option Batch) (h : port.entries = []) (p : Printer) :
    (queueing ty port loaded).placed p := by
  by_cases e : p = 4
  · subst e
    refine placed_of _ _ [5, 7] ?_ ?_ ?_
    · rintro j (m | m)
      · exact m
      · exact absurd (h ▸ m : some j ∈ ([] : List Entry).map Entry.job?) (by simp)
    · intro j m
      simp only [List.mem_cons, List.not_mem_nil, or_false] at m
      rcases m with rfl | rfl <;> rfl
    · show ((port.entries.filterMap Entry.job?) ++ [5, 7]).Nodup
      rw [h]; decide
  · have others : ∀ q : Printer, q ≠ 4 → shop.queues.at q = [] ∧ (shop.ports.at q).entries = [] := by decide +kernel
    have queue : (queueing ty port loaded).queues.at p = [] := by
      show (shop.queues.put 4 _).at p = []
      rw [Vector.at_put, if_neg (Ne.symm e)]; exact (others p e).1
    have entries : ((queueing ty port loaded).ports.at p).entries = [] := by
      show (((shop.ports.put 4 port).put 5 ticketPort).at p).entries = []
      rw [Vector.at_put]
      split
      · rfl
      · rw [Vector.at_put, if_neg (Ne.symm e)]; exact (others p e).2
    refine placed_of _ _ [] ?_ (by simp) ?_
    · rintro j (m | m)
      · rw [queue] at m; cases m
      · rw [entries] at m; cases m
    · rw [queue, entries]; decide

/-- P4 is HELD for want of stock, and for a supervisor too. -/
theorem test_meets_Stockload_held :
    let port := { ticketPort with state := .held, hold := noHolds.put HoldReason.noStock.place true }
    let s := queueing 3 port none
    reaches s 0 .stockload 0x1A [0, 78, 4] ∧ takes? s ∧ s.loaded 4 = none ∧ s.function 4 = .ticket ∧
      (s.ports.at 4).state = .held ∧ (s.ports.at 4).hold.put HoldReason.noStock.place false = noHolds ∧
      { port with hold := port.hold.put HoldReason.supervisor.place true }.hold.put HoldReason.noStock.place false ≠ noHolds := by
  decide +kernel

/-- The job that moves and the one that does not, with P5 loaded with type 3 and with type 4. -/
theorem test_meets_queues_considered :
    let three := queueing 3 ticketPort (some batch77)
    let four := queueing 4 ticketPort none
    (three.jobs.at 5).map three.moveTarget = some (some 5) ∧ (three.jobs.at 7).map three.moveTarget = some none ∧
      (four.jobs.at 7).map four.moveTarget = some (some 5) ∧ (four.jobs.at 5).map four.moveTarget = some none ∧
    -- HoldAndRelease, Stockout and Stockcount at an ACTIVE port
    reaches three 0 .hold 0x1E [4] ∧ (three.ports.at 4).state = .active ∧ (three.ports.at 4).entries = [] ∧
      reaches three 0 .stockout 0x1B [4] ∧ takes? three ∧ three.loaded 4 = some batch77 ∧ three.function 4 = .ticket ∧
      three.journal.grantsRequest = true ∧ reaches three 0 .stockcount 0x1C [4, 0, 1, 151, 109] ∧
    -- Stockload of type 3
    reaches four 0 .stockload 0x1A [0, 78, 4] ∧ takes? four ∧ four.loaded 4 = none ∧ four.journal.grantsRequest = true ∧
      (four.stock.store.find? fun x => x.id == 78) = some (newBatch 78 3 104301 104310) := by decide +kernel

theorem test_meets_CapsTaken_queue :
    let port (hold : HoldSet) : Port := { emptyPort with state := .attaching, attachTimer := some 200, hold }
    let held := queueing 3 (port (noHolds.put HoldReason.supervisor.place true)) (some batch77)
    let free := queueing 3 (port noHolds) (some batch77)
    (held.ports.at 4).state = .attaching ∧ (held.ports.at 4).hold ≠ noHolds ∧ (held.ports.at 4).entries = [] ∧
      held.phase = .running ∧ held.function 4 = .ticket ∧ (free.ports.at 4).hold = noHolds ∧
      (free.ports.at 4).attachTimer ≠ none := by decide +kernel

/-- P4 becomes OFF while jobs wait there. -/
theorem test_meets_PrinterLoadActs_queue :
    let s := queueing 3 ticketPort (some batch77)
    let t := { s with store := { s.store with write := some (.tableload (.printers [(4, factoryPrinter)]) none) } }
    t.changesBusyPort (.printers [(4, factoryPrinter)]) = false ∧ t.phase = .running ∧ t.function 4 = .ticket ∧
      factoryPrinter.function ≠ .ticket ∧ t.queues.at 4 = [5, 7] := by decide +kernel

theorem test_meets_JamTaken_moves :
    let s := queueing 3 { ticketPort with entries := [ticketOf 0 .sent 3 false 2] } (some batch77)
    let limited (retry : Nat) := { s with jobs := s.jobs.put 3 (some { job5 with retry, state := .sent, image := some 0 }) }
    (limited 1).placed 4 ∧ ((limited 1).ports.at 4).state = .active ∧
      ((limited 1).jobs.at 3).map (limited 1).moveTarget = some (some 5) ∧ ((limited 1).printerEntry 4).retryLimit = 1 :=
  ⟨placed_of _ _ [3, 5, 7] (by decide +kernel) (by decide +kernel) (by decide +kernel), by decide +kernel, by decide +kernel,
    by decide +kernel⟩

/-- R12 and R13: HOLD at P4 moves job 5 to P5, with retry 0, and leaves job 7. -/
theorem test_hold_moves_what_can_move :
    let t := after (.hold 0) (ask (queueing 3 ticketPort (some batch77)) 0 0x1E [4])
    t.queues.at 4 = [7] ∧ (t.jobs.at 5).map Job.printer = some 5 ∧
      (t.jobs.at 7).map (fun x => (x.printer, x.retry)) = some (4, 1) := by decide +kernel

/-- R17: STOCKLOAD of type 3 at P4 keeps job 5 and answers job 7 NO_STOCK when P5 holds type 3, and moves it when P5 holds
type 4. -/
theorem test_stockload_keeps_moves_and_refuses :
    let port := { ticketPort with state := .held, hold := (noHolds.put HoldReason.noStock.place true).put 0 true }
    let t (ty : StockType) := after (.stockload 0) (ask (queueing ty port none) 0 0x1A [0, 78, 4])
    (t 3).queues.at 4 = [5] ∧ ((t 3).office.at 2).sendList = [.answer 0x13 .noStock .nothing false] ∧
      (t 4).queues.at 4 = [5] ∧ ((t 4).jobs.at 7).map Job.printer = some 5 := by decide +kernel

theorem test_meets_StatusTaken : afterJam.takesReports 4 ∧ (afterJam.ports.at 4).replyTimer ≠ none ∧
    (readStatus (bytes [16, 1, 255, 1])).isSome = true ∧
    (((afterJam.filter 4 .jam).step (afterJam.printerEntry 4).filterDepth true).2) = .begins ∧
    ((⟨true, 1⟩ : Filter).step 2 false).2 = .ends ∧
    ((⟨false, 1⟩ : Filter).step (printing.printerEntry 4).filterDepth true).2 = .begins ∧ printing.function 4 = .ticket ∧
    (printing.loaded 4).map (fun b => (b.remaining, b.state)) = some (60, .loaded) := by decide +kernel

/-- COVER_OPEN begins at P4, ACTIVE, where jobs 5 and 7 wait. -/
def opening : State :=
  let s := queueing 3 { ticketPort with replyTimer := some 200, pollTimer := none } (some batch77)
  { s with monitor := { s.monitor with
      filters := s.monitor.filters.put 4 ((s.monitor.filters.at 4).put Sensed.coverOpen.place ⟨false, 1⟩) } }

theorem test_meets_StatusTaken_queue :
    let step (c : Sensed) := (opening.filter 4 c).step (opening.printerEntry 4).filterDepth (c == .coverOpen)
    opening.takesReports 4 ∧ (opening.ports.at 4).replyTimer ≠ none ∧
      readStatus (bytes [2 ^ Sensed.coverOpen.place.val, 255, 255, 0]) = some
        ⟨(Vector.replicate 6 false).put Sensed.coverOpen.place true, none, none, 0⟩ ∧
      Sensed.coverOpen.holdReason ≠ none ∧ (step .coverOpen).2 = .begins ∧
      (∀ d ∈ allSensed, d ≠ .coverOpen → (step d).2 = .nothing) ∧
      (opening.ports.at 4).state = .active ∧ (opening.ports.at 4).hold = noHolds ∧
      ((opening.jobs.at 5).map opening.moveTarget) = some (some 5) ∧
      ((opening.jobs.at 7).map opening.moveTarget) = some none := by
  decide +kernel

theorem test_meets_StatusTaken_placed (p : Printer) : opening.placed p :=
  queueing_placed 3 { ticketPort with replyTimer := some 200, pollTimer := none } (some batch77) rfl p

/-- R86: P4 runs out of paper with 61 serials remaining. -/
theorem test_paper_out_is_a_stock_mismatch :
    let filters := (shop.monitor.filters.at 4).put Sensed.paperOut.place ⟨false, 1⟩
    let s := { shop with
      ports := shop.ports.put 4 { ticketPort with replyTimer := some 200 }
      monitor := { shop.monitor with filters := shop.monitor.filters.put 4 filters } }
    let t := after (.status 4 (bytes [2, 255, 255, 0])) s
    (t.loaded 4).map Batch.state = some .unverified ∧ (t.monitor.lasting.at 4).stockMismatch = true := by decide +kernel

/-- P4 with one entry, a poll waiting, and JAM sensed and present. -/
def sensing (e : Entry) : State :=
  let t := table37 [e] (if e.phase = .sent then none else some (104240, 77)) none 104241 2
  let hold := noHolds.put HoldReason.jam.place true
  let filters := (t.monitor.filters.at 4).put Sensed.jam.place ⟨true, 0⟩
  { t with
    ports := t.ports.put 4 { t.ports.at 4 with state := .held, jamLatch := true, replyTimer := some 200, hold := hold }
    monitor := { t.monitor with filters := t.monitor.filters.put 4 filters } }

theorem test_meets_StatusImplies :
    ∀ e ∈ [ticketOf 0 .sent 3 false 2, ticketOf 0 .printed 3 false 2],
      (sensing e).takesReports 4 ∧ ((sensing e).ports.at 4).replyTimer ≠ none ∧ ((sensing e).ports.at 4).entries = [e] ∧
      (sensing e).function 4 = .ticket ∧
      (∀ body ∈ [bytes [16, 0, 255, 1], bytes [16, 255, 0, 1], bytes [16, 255, 255, 0]],
        (readStatus body).any (fun st => st.sensed.at Sensed.jam.place) = true) ∧
      (∀ c ∈ allSensed, (sensing e).filter 4 c = { present := c == .jam, run := 0 }) := by decide +kernel

/-- What `StatusImplies` says, at its first and fourth cases. -/
theorem test_status_implies_a_feed_and_a_jam :
    ((after (.status 4 (bytes [16, 0, 255, 1])) (sensing (ticketOf 0 .sent 3 false 2))).ports.at 4).entries =
      [ticketOf 0 .fed 3 false 2] ∧
    (after (.status 4 (bytes [16, 255, 255, 0])) (sensing (ticketOf 0 .sent 3 false 2))).queues.at 4 = [3] := by
  decide +kernel

/-- P4's window holds images 0 and 1, fed and sent, and nothing is sensed. -/
def answering (e : List Entry) (s6 : Option (Nat × Nat)) : State :=
  let t := table37 e (some (104240, 77)) s6 104241 4
  { t with ports := t.ports.put 4 { t.ports.at 4 with replyTimer := some 200 } }

theorem test_meets_StatusImplies_window :
    let gone := ticketOf 0 .fed 3 false 2
    let fed := ticketOf 1 .sent 6 false 2
    let s := answering [gone, fed] none
    s.takesReports 4 ∧ (s.ports.at 4).replyTimer ≠ none ∧ s.function 4 = .ticket ∧
      readStatus (bytes [0, 1, 0, 0]) = some ⟨Vector.replicate 6 false, some 1, some 0, 0⟩ ∧
      (∀ c ∈ allSensed, s.filter 4 c = { present := false, run := 0 }) ∧ (s.ports.at 4).entries = [gone] ++ [fed] ++ [] ∧
      gone.image ≠ fed.image ∧ ([gone].getLast?.map fun e => e.image.val) = some 0 ∧
      ([fed].getLast?.map fun e => e.image.val) = some 1 ∧
      (s.loaded 4).map (fun b => (b.state, b.remaining, b.stockType)) = some (.loaded, 60, 3) ∧
      [gone, fed].countP (fun e => e.phase == .sent) = 1 ∧ ([gone, fed].filterMap Entry.job?).Nodup ∧
      (∀ j ∈ [(3 : JobNumber), 6], (s.jobs.at j).map Job.stockType = some 3 ∧ ∀ q : Printer, j ∉ s.queues.at q) ∧
      (s.jobs.at 3).bind Job.serial ≠ none := by decide +kernel

/-- What StatusImplies says of a window: image 0 is printed and presented, image 1 fed with the next serial. -/
theorem test_status_implies_through_the_window :
    let t := after (.status 4 (bytes [0, 1, 0, 0])) (answering [ticketOf 0 .fed 3 false 2, ticketOf 1 .sent 6 false 2] none)
    t.journal.queue.map Queued.record = [.issue 412 2 4 104240 77 3 .cash 9 2345 1560] ∧
      t.sent.head? = some (4, .serial 1 104241) := by decide +kernel

/-- R61 with two entries of one number (log 55): image 0 printed, an image 0 sent, image 1 sent; fed-through names image 1,
and both sent entries are fed, oldest first. -/
theorem test_fed_through_past_a_doubled_number :
    let entry (ph : EntryPhase) := [ticketOf 0 .printed 3 false 2, ticketOf 0 ph 6 false 2, ticketOf 1 ph 9 false 2]
    let t := after (.status 4 (bytes [0, 1, 255, 1])) (answering (entry .sent) none)
    (t.ports.at 4).entries = entry .fed ∧ t.sent = [(4, .serial 0 104241), (4, .serial 1 104242)] := by decide +kernel

theorem test_meets_EngineTimers :
    (absent.ports.at 4).state ≠ .active ∧ (absent.ports.at 4).state ≠ .held ∧ (shop.ports.at 0).state = .unused ∧
    (readStatus (bytes [0, 255, 255, 0])).isSome = true ∧ (shop.ports.at 4).replyTimer = none ∧
    (attaching.ports.at 4).state = .attaching ∧ (attaching.ports.at 4).attachTimer ≠ none ∧ attaching.phase = .running ∧
    (absent.ports.at 4).state = .absent ∧ (absent.ports.at 4).absentTimer ≠ none ∧ (shop.ports.at 4).pollTimer ≠ none ∧
    (afterJam.ports.at 4).replyTimer ≠ none ∧ (afterJam.ports.at 4).unanswered < 2 ∧
    2 ≤ { afterJam.ports.at 4 with unanswered := 2 }.unanswered := by decide +kernel

theorem test_meets_EngineTimers_placed :
    let s := { attaching with queues := attaching.queues.put 4 [5], jobs := attaching.jobs.put 5 (some job5) }
    s.placed 4 ∧ (s.ports.at 4).entries = [] :=
  ⟨placed_of _ _ [5] (by decide +kernel) (by decide +kernel) (by decide +kernel), by decide +kernel⟩

/-! ### Hypotheses: the journal, supply and restart -/

/-- The writer writes a record; the head is in the slot given, at the sequence number given. -/
def recording (r : JRecord) (link : Link) (slot : Fin 16) (n : Nat) : State :=
  { tallied with journal := { tallied.journal with
      queue := [{ record := r, link }], writer := .writing, slot, nextSequence := n } }

def batchLoad : JRecord := .batchLoad 77 4

theorem test_meets_RecordWritten :
    let s := recording batchLoad .nothing 14 9
    s.phase = .running ∧ s.journal.writer = .writing ∧ s.journal.queue = { record := batchLoad, link := .nothing } :: [] ∧
      s.journal.slot.val < 15 ∧ s.journal.nextSequence ≠ 4294967295 ∧ s.journal.checkpointDue = false ∧
    (recording batchLoad .nothing 15 4294967295).journal.nextSequence = 4294967295 ∧
    (recording batchLoad .nothing 15 9).journal.slot.val = 15 ∧
    (recording batchLoad (.request ⟨0, 7, none⟩ .done .nothing) 1 9).journal.queue =
      { record := batchLoad, link := .request ⟨0, 7, none⟩ .done .nothing } :: [] ∧
    (JRecord.void 1 3 77 412 .cash 5).pendingFor = some 412 ∧ tallied.session 412 = some tally412 ∧
    { s with jobs := s.jobs.put 5 (some job5) }.jobs.at 5 = some job5 ∧
    { s.journal with checkpointDue := true }.checkpointDue = true ∧ s.supply = .normal := by decide +kernel

/-- Table 6-7: the DECLARE record of session 412 is being written, and P10 is the report printer. -/
def declaring : State :=
  let r : JRecord := .declare 412 1 ⟨9150, 12450, 0⟩ ⟨50, 100, 0⟩ ⟨.balanced, .balanced, .referred⟩ .referred
  let s := recording r (.declare ⟨0, 7, none⟩) 3 9
  { s with sessions := { s.sessions with table := s.sessions.table.put 0 (some
      { tally412 with pendingPart := some declaration412, pendingRecords := 1 }) } }

theorem test_meets_DeclareWritten :
    declaring.phase = .running ∧ declaring.journal.writer = .writing ∧ declaring.journal.nextSequence < 4294967295 ∧
      declaring.journal.queue =
        { record := .declare 412 1 ⟨9150, 12450, 0⟩ ⟨50, 100, 0⟩ ⟨.balanced, .balanced, .referred⟩ .referred
          link := .declare ⟨0, 7, none⟩ } :: [] ∧
      declaring.session 412 = some { tally412 with pendingPart := some declaration412, pendingRecords := 1 } ∧
      declaring.function 10 = .report ∧ (declaring.ports.at 10).state = .active ∧
      (declaring.ports.at 10).slips.length < 4 ∧ (∀ q : Printer, q < 10 → declaring.function q ≠ .report) ∧
      4 ≤ { declaring.ports.at 10 with slips := [[], [], [], []] }.slips.length ∧
      (∀ p : Printer, (State.reset.function p) ≠ .report) := by decide +kernel

/-- The request of the DECLARE record was answered RESET. -/
theorem test_meets_DeclareWritten_unanswered :
    let s := recording (.declare 412 1 ⟨9150, 12450, 0⟩ ⟨50, 100, 0⟩ ⟨.balanced, .balanced, .referred⟩ .referred)
      (((none : Option Reply).map Link.declare).getD .nothing) 3 9
    s.phase = .running ∧ s.journal.writer = .writing ∧ s.journal.queue =
      { record := .declare 412 1 ⟨9150, 12450, 0⟩ ⟨50, 100, 0⟩ ⟨.balanced, .balanced, .referred⟩ .referred
        link := .nothing } :: [] := by
  decide +kernel

theorem test_declare_written_is_table_6_7 :
    let t := after (.recordWriteEnds none) declaring
    (t.session 412).map (fun x => (x.state, x.part, x.pendingPart, x.pendingRecords)) =
        some (.declared, some declaration412, none, 0) ∧
      (t.office.at 0).sendList = [.answer 7 .done (.declared 412 declaration412 0 false false true) false] := by decide +kernel

def checkpointing (records : List JRecord) (erasing abandoned : Bool) (slot : Fin 16) (n : Nat) : State :=
  { shop with journal := { shop.journal with
      writer := .checkpoint records erasing abandoned, slot, nextSequence := n, checkpointDue := abandoned } }

def erasingPage : State := { shop with journal := { shop.journal with writer := .erasing, slot := 0 } }

theorem test_meets_PagesAndCheckpoints :
    erasingPage.journal.writer = .erasing ∧
    (checkpointing [batchLoad] true true 0 9).journal.writer = .checkpoint [batchLoad] true true ∧
    (checkpointing [batchLoad] true false 0 9).journal.writer = .checkpoint [batchLoad] true false ∧
    (checkpointing [batchLoad, batchLoad] false false 14 9).journal.writer = .checkpoint (batchLoad :: [batchLoad]) false false ∧
    (checkpointing [batchLoad] false true 15 9).journal.slot.val = 15 ∧
    (checkpointing [batchLoad] false true 14 9).journal.slot.val + 1 = (15 : Fin 16).val ∧
    (checkpointing [batchLoad] false false 14 9).journal.checkpointDue = false ∧
    (checkpointing [batchLoad] false true 14 9).journal.checkpointDue = true ∧
    (checkpointing [batchLoad] false true 14 9).supply = .normal ∧
    (checkpointing [batchLoad] false true 14 4294967294).journal.nextSequence ≠ 4294967295 ∧
    { checkpointing [batchLoad] false true 14 9 with supply := .warning }.supply = .warning := by decide +kernel

theorem test_meets_JournalStops :
    (recording batchLoad .nothing 3 9).journal.writer = .writing ∧
      List.replicate 32 0 ≠ recordSlot 9 batchLoad ∧
    (checkpointing [batchLoad] false false 3 4294967295).journal.nextSequence = 4294967295 ∧
    erasingPage.journal.writer = .erasing ∧ List.replicate 512 0 ≠ freshPage erasingPage.journal.pageSequence := by
  decide +kernel

theorem test_meets_WarningCrossings :
    shop.phase = .running ∧ shop.supply = .normal ∧ shop.journal.writer = .idle ∧
      (checkpointing [batchLoad, batchLoad] false false 3 9).journal.writer = .checkpoint [batchLoad, batchLoad] false false ∧
      [batchLoad, batchLoad].length ≠ 1 ∧
      (checkpointing [.checkpointEnd 3 4] false false 3 9).journal.writer = .checkpoint [.checkpointEnd 3 4] false false ∧
    { shop with supply := .warning }.supply = .warning ∧ shop.journal.checkpointDue = false ∧ shop.journal.queue = [] ∧
    { shop.journal with checkpointDue := true }.checkpointDue = true := by decide +kernel

theorem test_meets_Restarts :
    (Instr.restartCrossingDown, RestartCause.supplyFail) ∈ [(Instr.powerOn, RestartCause.powerOn),
      (.restartCrossingDown, .supplyFail), (.resetLineAsserted, .resetLine)] ∧
    shop.journal.writer = .idle ∧ stopped.journal.writer = .stopped ∧ shop.memorySound ∧
    (recording batchLoad .nothing 3 9).journal.writer = .writing ∧ (recording batchLoad .nothing 3 9).memorySound ∧
    slotAddress (recording batchLoad .nothing 3 9).journal.page 3 + 32 ≤ 128 := by decide +kernel

/-- Held in restart. Memory has page 0 with its header and in slot 1 a DECLARE record numbered 4,294,967,294 whose fields
are all ones, so that few bytes are not 0xFF (Table 11-6); the two checks are worked outside the model. -/
def held : State :=
  let memory : List Host.Cell := [(4, 29), (5, 15), (32, 12), (36, 254), (62, 226), (63, 74)]
  let journal := { State.reset.journal with memory, queue := [], writer := .idle, checkpointDue := false }
  { State.reset with phase := .restarting .resetLine, journal }

theorem test_meets_WarningCrossings_recovery :
    recovering.phase = .recovering .resetLine true ∧ recovering.supply = .normal ∧ recovering.journal.writer = .idle ∧
      { recovering with supply := .warning }.supply = .warning ∧ recovering.journal.checkpointDue = false ∧
      recovering.journal.queue = [] ∧ held.phase = .restarting .resetLine := by decide +kernel

theorem test_meets_Recovery :
    held.phase = .restarting .resetLine ∧ held.store.valid = true ∧
    { held with store := { held.store with valid := false } }.store.valid = false ∧
    (after .recoveryBegins held).phase = .recovering .resetLine true ∧
    (after .recoveryBegins held).store.write = some (.cause .resetLine) ∧
    (findReplay (after .recoveryBegins held).journal.memory).map Found.lastSequence = some 4294967294 ∧
    recovering.phase = .recovering .resetLine true ∧ recovering.store.write = some (.cause .resetLine) ∧
    findReplay recovering.journal.memory = none ∧ recovering.monitor.waiting = [] ∧ recovering.function 4 ≠ .off ∧
    recovering.function 0 = .off := by decide +kernel

/-- The slot after the last good record is torn, or no header holds. -/
def heldWith (cells : List Host.Cell) : State := { held with journal := { held.journal with memory := cells } }

def tornAfter : State := heldWith (held.journal.memory ++ [(64, 0)])

theorem test_meets_Recovery_head :
    slotContents (readSlot held.journal.memory 0 2) = .erased ∧
    (findReplay held.journal.memory).map (fun f => (f.head, f.checkpoint, f.slots.length)) = some ((0, 4294967295), none, 1) ∧
    slotContents (readSlot tornAfter.journal.memory 0 2) ≠ .erased ∧
    (findReplay tornAfter.journal.memory).bind (fun f => f.lastSlot.map fun x => (x.page, x.slot)) = some (0, 1) ∧
    headPage (heldWith [(700, 1)]).journal.memory = none := by decide +kernel

/-- The slots of an empty checkpoint at the numbers 4,294,967,292 and 4,294,967,293, next session 65,535, whose unused bytes
are 0xFF; the address is that of slot 1. -/
def emptyCheckpoint (a : Nat) : List Host.Cell :=
  [(a, 15), (a + 4, 252), (a + 7, 0), (a + 30, 128), (a + 31, 112), (a + 32, 21), (a + 36, 253), (a + 40, 252), (a + 41, 0),
   (a + 62, 8), (a + 63, 173)]

/-- Page 0 holds the checkpoint and no more. -/
def checkpointed : State := heldWith ([(4, 29), (5, 15)] ++ emptyCheckpoint 32)

/-- The checkpoint in page 63; page 64, entered after it, holds the record of `held` in slot 1 and no more. -/
def otherHalf : State :=
  heldWith ([(32259, 254), (32260, 13), (32261, 46)] ++ emptyCheckpoint 32288 ++
    [(32772, 29), (32773, 15), (32800, 12), (32804, 254), (32830, 226), (32831, 74)])

/-- The checkpoint in page 63, and the slot after it torn. -/
def tornAt63 : State := heldWith ([(32260, 29), (32261, 15)] ++ emptyCheckpoint 32288 ++ [(32352, 0)])

/-- What Recovery's clauses on the checkpoint due ask of a state: the last good record, the slot after it, the journal as a
restart leaves it. -/
theorem test_meets_Recovery_checkpoint :
    (let place (s : State) := (findReplay s.journal.memory).bind fun f =>
        f.lastSlot.map fun x => (f.checkpoint.map FoundCheckpoint.beginPage, x.page, x.slot, f.lastSequence)
     place checkpointed = some (some 0, 0, 2, 4294967293) ∧ place otherHalf = some (some 63, 64, 1, 4294967294) ∧
       place tornAt63 = some (some 63, 63, 2, 4294967293)) ∧
    slotContents (readSlot checkpointed.journal.memory 0 3) = .erased ∧
    slotContents (readSlot otherHalf.journal.memory 64 2) = .erased ∧
    slotContents (readSlot tornAt63.journal.memory 63 3) ≠ .erased ∧
    ∀ s ∈ [checkpointed, otherHalf, tornAt63], (after .recoveryBegins s).phase = .recovering .resetLine true ∧
      (after .recoveryBegins s).journal.writer = .idle ∧ (after .recoveryBegins s).journal.checkpointDue = false ∧
      (after .recoveryBegins s).supply = .normal := by decide +kernel

/-- R167: no checkpoint is due with the head in the half of the chosen one; one is due in the other half, and begins; and one
is due at page 64. -/
theorem test_recovery_checkpoint_due :
    let ends (s : State) :=
      let j := (after .causeWriteEnds (after .recoveryBegins s)).journal
      (j.writer.figure, j.checkpointDue, j.page, j.slot)
    ends checkpointed = (.writing, false, 0, 3) ∧ ends otherHalf = (.checkpoint, false, 64, 2) ∧
      ends tornAt63 = (.erasing, true, 64, 0) := by decide +kernel

/-- A dip that passed during recovery waits, and is recorded with fault sequence number 2 when recovery completes (R178). -/
theorem test_meets_Recovery_waiting :
    let dipped := after .warningCrossingUp { recovering with supply := .warning }
    let t := (after .causeWriteEnds dipped).monitor
    dipped.phase = .recovering .resetLine true ∧ dipped.store.write = some (.cause .resetLine) ∧
    dipped.monitor.waiting = [.occurred (.office .supplyDip)] ∧
    (t.faults.map fun f => (f.condition, f.first), t.nextSequence, t.waiting) =
      ([(.office .restart, 1), (.office .supplyDip, 2)], 3, []) := by decide +kernel

/-- The DECLARE record of `held` under the last sequence number. -/
def lastNumber : State := heldWith [(4, 29), (5, 15), (32, 12), (62, 78), (63, 43)]

theorem test_meets_Recovery_last_number :
    (findReplay lastNumber.journal.memory).map Found.lastSequence = some 4294967295 ∧
      (after .recoveryBegins lastNumber).phase = .recovering .resetLine true := by decide +kernel

/-- R202: the printer of a BATCH_STATE is 0 to 11, or 15 for absent; 12 to 14 have no meaning (log 50). -/
theorem test_batch_state_printers :
    (∀ p ∈ [12, 13, 14], recordOf 0x14 [77, 3, 1, 9, 1, 0, 0, 0, 0, 1, p, 0] = none) ∧
      ∀ p ∈ [0, 11, 15], (recordOf 0x14 [77, 3, 1, 9, 1, 0, 0, 0, 0, 1, p, 0]).isSome = true := by decide

/-- R167: a torn slot sends the head to the next page; memory in which no header holds is kept until pages are entered. -/
theorem test_recovery_places_the_head :
    (let t := after .causeWriteEnds (after .recoveryBegins tornAfter); t.journal.page = 1 ∧ t.journal.writer = .erasing) ∧
    (after .causeWriteEnds (after .recoveryBegins (heldWith [(700, 1)]))).journal.memory = [(700, 1)] := by decide +kernel

end Sys2Proof.Tests
end

