-- ==== Sys2Proof/Proofs/PrinterChoice.lean ====
section
/-! SUPPORT. Which printers a route entry offers to a job, and which of them is chosen (R5, R6). -/

namespace Sys2Proof.Machine

/-- The candidates are the printers that a place of the route entry names and whose function is TICKET (R5). -/
theorem State.mem_candidates (s : State) (e : RouteEntry) (p : Printer) :
    p ∈ s.candidates e ↔
      (e.primary = some p ∧ s.function p = .ticket) ∨ (e.alternate = some p ∧ s.function p = .ticket) := by
  unfold State.candidates RouteEntry.second
  by_cases same : e.alternate = e.primary
  · simp [same, Option.filter_eq_some_iff]
  · simp [same, Option.filter_eq_some_iff]

/-- A primary candidate stands first in the list of candidates. -/
theorem State.candidates_of_primary (s : State) (e : RouteEntry) (q : Printer) (named : e.primary = some q)
    (ticket : s.function q = .ticket) : ∃ rest, s.candidates e = q :: rest := by
  simp [State.candidates, named, Option.filter_some, ticket]

theorem State.usable_iff (s : State) (ty : StockType) (p : Printer) :
    s.usable ty p = true ↔ ((s.ports.at p).state = .active ∨ (s.ports.at p).state = .held) ∧
      ∃ b, s.loaded p = some b ∧ b.stockType = ty ∧ (b.state = .loaded ∨ b.state = .unverified) := by
  simp [State.usable, Port.attached, Option.any_eq_true]

/-- The printers among which `choosePrinter` picks: the usable candidates, the primary first (R6). -/
def State.offers (s : State) (w : Window) (ty : StockType) : List Printer :=
  (s.candidates (s.routeEntry w ty)).filter (s.usable ty)

theorem State.mem_offers (s : State) (w : Window) (ty : StockType) (p : Printer) :
    p ∈ s.offers w ty ↔ p ∈ s.candidates (s.routeEntry w ty) ∧ s.usable ty p = true := List.mem_filter

/-- The choice is the first ACTIVE offer, else the first offer (R6). -/
theorem State.choosePrinter_ok_iff (s : State) (w : Window) (ty : StockType) (p : Printer) :
    s.choosePrinter w ty = .ok p ↔
      (s.offers w ty).find? (fun q => (s.ports.at q).state == .active) = some p ∨
      ((s.offers w ty).find? (fun q => (s.ports.at q).state == .active) = none ∧ (s.offers w ty).head? = some p) := by
  unfold State.choosePrinter
  change (match (s.offers w ty).find? (fun q => (s.ports.at q).state == .active) with
    | some p => _
    | none => match s.offers w ty with
      | p :: _ => _
      | [] => _) = _ ↔ _
  cases (s.offers w ty).find? (fun q => (s.ports.at q).state == .active) with
  | some q => simp
  | none =>
    cases s.offers w ty with
    | cons q rest => simp
    | nil =>
      simp only [List.head?_nil, reduceCtorEq, and_false, or_self, iff_false]
      split_ifs <;> simp

/-- With no offer, the refusal of Table 1-3 says how far the candidates fall short. -/
theorem State.choosePrinter_refused (s : State) (w : Window) (ty : StockType) (none_ : s.offers w ty = []) :
    s.choosePrinter w ty = .error (
      if (s.candidates (s.routeEntry w ty)).isEmpty then .noRoute
      else if (s.candidates (s.routeEntry w ty)).any fun p => (s.ports.at p).attached then .noStock
      else .printerUnavailable) := by
  unfold State.choosePrinter
  change (match (s.offers w ty).find? (fun q => (s.ports.at q).state == .active) with
    | some p => _
    | none => match s.offers w ty with
      | p :: _ => _
      | [] => _) = _
  rw [none_]
  simp only [List.find?_nil]
  split_ifs <;> rfl

end Sys2Proof.Machine

open Sys2Proof Sys2Proof.Machine

/-- Settles O16: the choice is the first ACTIVE printer of the usable candidates, else the first of them. -/
theorem printerChoice : Obligations.PrinterChoice := by
  intro s w ty e ticket candidate up usable active
  have cand : ∀ p, p ∈ s.candidates e ↔ candidate p := fun p => s.mem_candidates e p
  have use : ∀ p, s.usable ty p = true ↔ usable p := fun p => s.usable_iff ty p
  have offers : ∀ p, p ∈ s.offers w ty ↔ candidate p ∧ usable p := fun p => by
    rw [State.mem_offers, ← use, ← cand]
  have attached : ∀ p, (s.ports.at p).attached = true ↔ up p := fun p => by simp [Port.attached, up]
  have noOffer : (¬ ∃ p, candidate p ∧ usable p) → s.offers w ty = [] := fun h =>
    List.eq_nil_iff_forall_not_mem.mpr fun p m => h ⟨p, (offers p).mp m⟩
  refine ⟨fun p h => ?_, fun ⟨p, c, u⟩ => ?_, fun h => ?_, fun ⟨p, c⟩ h ⟨q, k⟩ => ?_, fun ⟨p, c⟩ h => ?_⟩
  · rw [State.choosePrinter_ok_iff] at h
    have first : ∀ q, e.primary = some q → candidate q → usable q → ∃ rest, s.offers w ty = q :: rest := by
      intro q named c u
      have ticket_ : s.function q = .ticket := c.elim And.right And.right
      obtain ⟨rest, k⟩ := s.candidates_of_primary e q named ticket_
      refine ⟨rest.filter (s.usable ty), ?_⟩
      unfold State.offers
      rw [show s.candidates (s.routeEntry w ty) = q :: rest from k, List.filter_cons_of_pos ((use q).mpr u)]
    rcases h with h | ⟨h, k⟩
    · have act : active p := by simpa using List.find?_some h
      obtain ⟨c, u⟩ := (offers p).mp (List.mem_of_find?_eq_some h)
      refine ⟨c, u, fun _ => act, fun q named other cq uq => ⟨act, fun aq => other ?_⟩⟩
      obtain ⟨rest, k⟩ := first q named cq uq
      rw [k, List.find?_cons_of_pos (by simpa using aq)] at h
      exact Option.some.inj h
    · obtain ⟨c, u⟩ := (offers p).mp (List.mem_of_mem_head? k)
      have idle : ∀ q, candidate q → usable q → ¬ active q := fun q cq uq aq => by
        have := List.find?_eq_none.mp h q ((offers q).mpr ⟨cq, uq⟩)
        exact this (by simpa using aq)
      refine ⟨c, u, fun ⟨q, cq, uq, aq⟩ => absurd aq (idle q cq uq), fun q named other cq uq => absurd ?_ other⟩
      obtain ⟨rest, l⟩ := first q named cq uq
      rw [l] at k
      exact Option.some.inj k
  · have mem := (offers p).mpr ⟨c, u⟩
    cases hf : (s.offers w ty).find? (fun q => (s.ports.at q).state == .active) with
    | some q => exact ⟨q, (State.choosePrinter_ok_iff ..).mpr (Or.inl hf)⟩
    | none =>
      refine ⟨(s.offers w ty).head (List.ne_nil_of_mem mem), (State.choosePrinter_ok_iff ..).mpr (Or.inr ⟨hf, ?_⟩)⟩
      exact List.head?_eq_some_head _
  · have empty : s.candidates e = [] := List.eq_nil_iff_forall_not_mem.mpr fun p m => h ⟨p, (cand p).mp m⟩
    rw [State.choosePrinter_refused s w ty (noOffer fun ⟨p, c, _⟩ => h ⟨p, c⟩)]
    rw [show s.candidates (s.routeEntry w ty) = [] from empty]
    rfl
  · rw [State.choosePrinter_refused s w ty (noOffer h)]
    have some_ : ¬ (s.candidates (s.routeEntry w ty)).isEmpty = true := by
      simpa using List.ne_nil_of_mem ((cand p).mpr c)
    rw [if_neg some_, if_pos (List.any_eq_true.mpr ⟨q, (cand q).mpr k.1, (attached q).mpr k.2⟩)]
  · rw [State.choosePrinter_refused s w ty (noOffer fun ⟨q, cq, uq⟩ => h ⟨q, cq, uq.1⟩)]
    have some_ : ¬ (s.candidates (s.routeEntry w ty)).isEmpty = true := by
      simpa using List.ne_nil_of_mem ((cand p).mpr c)
    rw [if_neg some_, if_neg]
    rw [List.any_eq_true]
    rintro ⟨q, m, k⟩
    exact h ⟨q, (cand q).mp m, (attached q).mp k⟩

end

