-- ==== Sys2Proof/Proofs/Limits.lean ====
section
/-! SUPPORT. The limits that every step keeps, split into parts that operations keep one by one: what a port may become
(`Port.Tame`), which items are sent to a printer (`State.Turns`), the journal's places (`State.RoomHeld`), the place of each
job (`State.JobPlaced`). -/

namespace Sys2Proof.Machine

/-! ### Ports -/

/-- A port changes without growing: its window and its audit queue shrink at most, image numbers restart only where no
image can be sent, and it does not become ACTIVE or HELD. -/
structure Port.Tame (x y : Port) : Prop where
  sound : x.sound → y.sound
  images : (y.entries.map Entry.image).Sublist (x.entries.map Entry.image)
  tickets : ∀ e ∈ y.entries, e.ticket ≠ none → ∃ f ∈ x.entries, f.ticket ≠ none
  audit : y.audit.length ≤ x.audit.length
  next : y.nextImage = x.nextImage ∨ y.attached = false
  idle : x.attached = false → y.attached = false

theorem Port.Tame.refl (x : Port) : x.Tame x :=
  ⟨id, .refl _, fun e m h => ⟨e, m, h⟩, Nat.le_refl _, Or.inl rfl, id⟩

theorem Port.Tame.trans {x y z : Port} (a : x.Tame y) (b : y.Tame z) : x.Tame z where
  sound h := b.sound (a.sound h)
  images := b.images.trans a.images
  tickets e m h := by
    obtain ⟨f, mf, hf⟩ := b.tickets e m h
    exact a.tickets f mf hf
  audit := Nat.le_trans b.audit a.audit
  next := by
    rcases b.next with h | h
    · rcases a.next with k | k
      · exact Or.inl (h.trans k)
      · exact Or.inr (b.idle k)
    · exact Or.inr h
  idle h := b.idle (a.idle h)

theorem Port.Tame.length {x y : Port} (a : x.Tame y) : y.entries.length ≤ x.entries.length := by
  simpa using a.images.length_le

/-- Only what no limit speaks of changes. -/
theorem Port.Tame.of_eq {x y : Port} (state : y.state = x.state) (hold : y.hold = x.hold) (window : y.window = x.window)
    (entries : y.entries = x.entries) (nextImage : y.nextImage = x.nextImage) (audit : y.audit = x.audit)
    (slips : y.slips = x.slips) : x.Tame y := by
  have attached : y.attached = x.attached := by unfold Port.attached; rw [state]
  refine ⟨fun h => ?_, by rw [entries], fun e m h => ⟨e, entries ▸ m, h⟩, by rw [audit], Or.inl nextImage, fun h => attached.trans h⟩
  unfold Port.sound
  rw [state, hold, window, entries, slips, attached]
  exact h

/-! ### Items sent -/

/-- What is sent to a printer between two states takes the next image numbers in turn, and the window holds some of what it
held and of what was sent. Image numbers restart only at a port to which no image can be sent any more. -/
structure State.Turns (s t : State) (p : Printer) : Prop where
  sent : s.sent <+: t.sent
  items : ∀ (k : Nat) (n : ImageNumber), (s.itemsSent t p)[k]? = some n → n.val = ((s.ports.at p).nextImage.val + k) % 16
  images : (t.images p).Sublist (s.images p ++ s.itemsSent t p)
  next : (t.ports.at p).nextImage.val = ((s.ports.at p).nextImage.val + (s.itemsSent t p).length) % 16 ∨
    (t.ports.at p).attached = false
  idle : (s.ports.at p).attached = false → s.itemsSent t p = [] ∧ (t.ports.at p).attached = false

/-- The items of a printer among messages. -/
def itemsFor (p : Printer) (ms : List (Printer × Message)) : List ImageNumber :=
  ms.filterMap fun m => if m.1 = p then m.2.item? else none

theorem State.itemsSent_of_append {s t : State} {ms : List (Printer × Message)} (h : t.sent = s.sent ++ ms) (p : Printer) :
    s.itemsSent t p = itemsFor p ms := by
  unfold State.itemsSent itemsFor
  rw [h, List.drop_left]

theorem State.itemsSent_trans {s t u : State} (a : s.sent <+: t.sent) (b : t.sent <+: u.sent) (p : Printer) :
    s.itemsSent u p = s.itemsSent t p ++ t.itemsSent u p := by
  obtain ⟨ms, a⟩ := a
  obtain ⟨ns, b⟩ := b
  rw [State.itemsSent_of_append a.symm, State.itemsSent_of_append b.symm,
    State.itemsSent_of_append (ms := ms ++ ns) (by rw [← b, ← a, List.append_assoc])]
  exact List.filterMap_append

theorem State.Turns.trans {s t u : State} {p : Printer} (a : s.Turns t p) (b : t.Turns u p) : s.Turns u p := by
  have split := State.itemsSent_trans a.sent b.sent p
  refine ⟨a.sent.trans b.sent, fun k n h => ?_, ?_, ?_, fun h => ?_⟩
  · rw [split] at h
    by_cases short : k < (s.itemsSent t p).length
    · rw [List.getElem?_append_left short] at h
      exact a.items k n h
    · rw [List.getElem?_append_right (Nat.le_of_not_lt short)] at h
      have turn := b.items _ n h
      rcases a.next with e | off
      · rw [turn, e]
        omega
      · rw [(b.idle off).1] at h
        cases h
  · rw [split, ← List.append_assoc]
    exact b.images.trans (a.images.append_right _)
  · rcases b.next with e | off
    · rcases a.next with d | off
      · left
        rw [e, d, split, List.length_append]
        omega
      · exact Or.inr (b.idle off).2
    · exact Or.inr off
  · obtain ⟨none_, off⟩ := a.idle h
    rw [split, none_, (b.idle off).1]
    exact ⟨rfl, (b.idle off).2⟩

/-! ### Calm changes -/

/-- Nothing that takes an image number is sent, no port grows, and the phase and the printer table stand. -/
structure State.Calm (s t : State) : Prop where
  phase : t.phase = s.phase
  printers : t.store.tables.printers = s.store.tables.printers
  ports : ∀ p : Printer, Port.Tame (s.ports.at p) (t.ports.at p)
  sent : ∃ ms, t.sent = s.sent ++ ms ∧ ∀ m ∈ ms, m.2.item? = none

theorem State.Calm.refl (s : State) : s.Calm s := ⟨rfl, rfl, fun _ => .refl _, [], by simp, fun _ h => by cases h⟩

theorem State.Calm.trans {s t u : State} (a : s.Calm t) (b : t.Calm u) : s.Calm u := by
  obtain ⟨ms, hm, nm⟩ := a.sent
  obtain ⟨ns, hn, nn⟩ := b.sent
  refine ⟨b.phase.trans a.phase, b.printers.trans a.printers, fun p => (a.ports p).trans (b.ports p), ms ++ ns, ?_, ?_⟩
  · rw [hn, hm, List.append_assoc]
  · intro m h
    rcases List.mem_append.mp h with h | h
    · exact nm m h
    · exact nn m h

theorem State.Calm.printerEntry {s t : State} (h : s.Calm t) (p : Printer) : t.printerEntry p = s.printerEntry p := by
  unfold State.printerEntry; rw [h.printers]

theorem State.Calm.function {s t : State} (h : s.Calm t) (p : Printer) : t.function p = s.function p := by
  unfold State.function; rw [h.printerEntry]

theorem State.auditPort_congr {s t : State} (h : t.store.tables.printers = s.store.tables.printers) (p : Printer) :
    t.auditPort p = s.auditPort p := by
  unfold State.auditPort State.function State.printerEntry; rw [h]

theorem State.Calm.portsSound {s t : State} (h : s.Calm t) (g : s.portsSound) : t.portsSound := fun p =>
  (h.ports p).sound (g p)

theorem State.Calm.ticketsPlaced {s t : State} (h : s.Calm t) (g : s.ticketsPlaced) : t.ticketsPlaced := by
  intro p e m k
  obtain ⟨f, mf, kf⟩ := (h.ports p).tickets e m k
  rw [h.function]
  exact g p f mf kf

theorem State.Calm.auditSound {s t : State} (h : s.Calm t) (g : s.auditSound) : t.auditSound := by
  intro a
  refine ⟨Nat.le_trans (h.ports a).audit (g a).1, fun p f r n => ?_⟩
  have old := (g a).2 p (h.function p ▸ f) (h.printerEntry p ▸ r) (State.auditPort_congr h.printers p ▸ n)
  have := (h.ports a).audit
  have := (h.ports p).length
  unfold State.auditLoad at *
  omega

theorem State.Calm.turns {s t : State} (h : s.Calm t) (p : Printer) : s.Turns t p := by
  obtain ⟨ms, hm, none_⟩ := h.sent
  have items : s.itemsSent t p = [] := by
    rw [State.itemsSent_of_append hm, itemsFor, List.filterMap_eq_nil_iff]
    intro m mem
    rw [none_ m mem, ite_self]
  refine ⟨⟨ms, hm.symm⟩, fun k n g => ?_, ?_, ?_, fun g => ⟨items, (h.ports p).idle g⟩⟩
  · rw [items] at g; cases g
  · rw [items, List.append_nil]; exact (h.ports p).images
  · rw [items]
    rcases (h.ports p).next with e | e
    · left
      rw [e, List.length_nil]
      have := (s.ports.at p).nextImage.isLt
      omega
    · exact Or.inr e

/-- One port changes and nothing is sent. -/
theorem State.Calm.of_port {s t : State} {p : Printer} {y : Port} (phase : t.phase = s.phase)
    (printers : t.store.tables.printers = s.store.tables.printers) (sent : t.sent = s.sent)
    (ports : t.ports = s.ports.put p y) (tame : (s.ports.at p).Tame y) : s.Calm t := by
  refine ⟨phase, printers, fun q => ?_, [], by simp [sent], fun _ h => by cases h⟩
  rw [ports, Vector.at_put]
  split
  · rename_i e; subst e; exact tame
  · exact .refl _

theorem State.Calm.of_ports {s t : State} (phase : t.phase = s.phase)
    (printers : t.store.tables.printers = s.store.tables.printers) (sent : t.sent = s.sent)
    (ports : t.ports = s.ports) : s.Calm t :=
  ⟨phase, printers, fun p => by rw [ports]; exact .refl _, [], by simp [sent], fun _ h => by cases h⟩

/-! ### The journal's places -/

/-- The places that all windows hold. -/
def State.heldPlaces (s : State) : Nat := (allPrinters.map fun p => (s.ports.at p).places).sum

/-- A ticket image holds 2 places, one of them spent when its double feed was counted (R40, R56). -/
abbrev Entry.held (e : Entry) : Prop :=
  ∀ t ∈ e.ticket, 1 ≤ t.places ∧ t.places ≤ 2 ∧ (t.doubleFed = false → t.places = 2)

/-- `roomSound` without where ticket images stand. -/
structure State.RoomHeld (s : State) : Prop where
  room : s.journal.queue.length + s.journal.reserved ≤ 32
  reserved : s.journal.reserved = s.heldPlaces
  entries : ∀ p : Printer, ∀ e ∈ (s.ports.at p).entries, e.held

theorem State.roomSound_iff (s : State) : s.roomSound ↔ s.RoomHeld ∧ s.ticketsPlaced ∧ s.emptyUntilRunning :=
  ⟨fun ⟨a, b, c, d, e⟩ => ⟨⟨a, b, c⟩, d, e⟩, fun ⟨⟨a, b, c⟩, d, e⟩ => ⟨a, b, c, d, e⟩⟩

theorem mem_allPrinters (p : Printer) : p ∈ allPrinters := by revert p; decide

theorem allPrinters_nodup : allPrinters.Nodup := by decide

theorem sum_map_of_changed {l : List Printer} (once : l.Nodup) {p : Printer} (m : p ∈ l) {f g : Printer → Nat}
    (same : ∀ q, q ≠ p → g q = f q) : (l.map g).sum + f p = (l.map f).sum + g p := by
  induction l with
  | nil => cases m
  | cons q l ih =>
    obtain ⟨out, once⟩ := List.nodup_cons.mp once
    simp only [List.map_cons, List.sum_cons]
    by_cases e : q = p
    · subst e
      have : l.map g = l.map f := List.map_congr_left fun r h => same r fun e => out (e ▸ h)
      rw [this]
      omega
    · have := ih once ((List.mem_cons.mp m).resolve_left fun k => e k.symm)
      have := same q e
      omega

/-- The places of all windows when one port changes. -/
theorem State.heldPlaces_put {s t : State} {p : Printer} {y : Port} (h : t.ports = s.ports.put p y) :
    t.heldPlaces + (s.ports.at p).places = s.heldPlaces + y.places := by
  unfold State.heldPlaces
  have := sum_map_of_changed allPrinters_nodup (mem_allPrinters p) (f := fun q => (s.ports.at q).places)
    (g := fun q => (t.ports.at q).places) fun q hq => by rw [h, Vector.at_put_other _ _ (Ne.symm hq)]
  simpa [h] using this

theorem State.heldPlaces_congr {s t : State} (h : ∀ p, (t.ports.at p).places = (s.ports.at p).places) :
    t.heldPlaces = s.heldPlaces := by
  unfold State.heldPlaces
  exact congrArg List.sum (List.map_congr_left fun p _ => h p)

/-- The places are held again after one port has changed with the reservations it accounts for. -/
theorem State.RoomHeld.of_port {s t : State} {p : Printer} {y : Port} (h : s.RoomHeld) (ports : t.ports = s.ports.put p y)
    (room : t.journal.queue.length + t.journal.reserved ≤ 32)
    (reserved : t.journal.reserved + (s.ports.at p).places = s.journal.reserved + y.places)
    (entries : ∀ e ∈ y.entries, e.held) : t.RoomHeld := by
  refine ⟨room, ?_, fun q e m => ?_⟩
  · have := State.heldPlaces_put ports
    have := h.reserved
    omega
  · rw [ports, Vector.at_put] at m
    split at m
    · exact entries e m
    · exact h.entries q e m

theorem State.RoomHeld.congr {s t : State} (h : s.RoomHeld)
    (queue : t.journal.queue.length = s.journal.queue.length) (reserved : t.journal.reserved = s.journal.reserved)
    (entries : ∀ p, (t.ports.at p).entries = (s.ports.at p).entries) : t.RoomHeld := by
  refine ⟨by rw [queue, reserved]; exact h.room, ?_, fun p e m => h.entries p e (entries p ▸ m)⟩
  rw [reserved, h.reserved]
  exact (State.heldPlaces_congr fun p => by unfold Port.places; rw [entries p]).symm

/-! ### The place of a job -/

/-- What a window's entries say of a job: the image and the phase of each entry that is the job's. -/
def marksOf (es : List Entry) (j : JobNumber) : List (ImageNumber × EntryPhase) :=
  es.filterMap fun e => if e.job? = some j then some (e.image, e.phase) else none

def State.marks (s : State) (p : Printer) (j : JobNumber) : List (ImageNumber × EntryPhase) :=
  marksOf (s.ports.at p).entries j

/-- How many queued records will answer a job. -/
def State.links (s : State) (j : JobNumber) : Nat := s.journal.queue.countP fun q => q.link == .job j

/-- One job stands where its record says (R2, Table 1-2). -/
structure State.JobPlaced (s : State) (j : JobNumber) : Prop where
  queued : ∀ p : Printer, j ∈ s.queues.at p ↔ ∃ x, s.jobs.at j = some x ∧ x.printer = p ∧ x.state = .queued
  outstanding : ∀ p : Printer, s.marks p j ≠ [] ↔
    ∃ x, s.jobs.at j = some x ∧ x.printer = p ∧ x.state ≠ .queued ∧ x.state ≠ .presented
  marked : ∀ p : Printer, ∀ m ∈ s.marks p j, ∀ x, s.jobs.at j = some x → x.state = m.2.job ∧ x.image = some m.1
  presented : s.links j = if (s.jobs.at j).any (fun x => x.state == .presented) then 1 else 0
  fields : ∀ x, s.jobs.at j = some x → x.tabled

/-- Every job stands where its record says, and no job stands twice in a queue or in a window. -/
structure State.PoolPlaced (s : State) : Prop where
  jobs : ∀ j : JobNumber, s.JobPlaced j
  once : ∀ p : Printer, (s.queues.at p).Nodup
  single : ∀ p : Printer, ((s.ports.at p).entries.filterMap Entry.job?).Nodup

theorem marksOf_ne_nil (es : List Entry) (j : JobNumber) : marksOf es j ≠ [] ↔ j ∈ es.filterMap Entry.job? := by
  unfold marksOf
  rw [ne_eq, List.filterMap_eq_nil_iff, List.mem_filterMap]
  constructor
  · intro h
    by_contra out
    exact h fun e m => if_neg fun k => out ⟨e, m, k⟩
  · rintro ⟨e, m, k⟩ h
    have := h e m
    rw [if_pos k] at this
    cases this

theorem mem_marksOf (es : List Entry) (j : JobNumber) (m : ImageNumber × EntryPhase) :
    m ∈ marksOf es j ↔ ∃ e ∈ es, e.job? = some j ∧ (e.image, e.phase) = m := by
  unfold marksOf
  rw [List.mem_filterMap]
  constructor
  · rintro ⟨e, h, k⟩
    split at k
    · rename_i g; exact ⟨e, h, g, Option.some.inj k⟩
    · cases k
  · rintro ⟨e, h, g, k⟩
    exact ⟨e, h, by rw [if_pos g, k]⟩

@[simp] theorem marksOf_append (es fs : List Entry) (j : JobNumber) :
    marksOf (es ++ fs) j = marksOf es j ++ marksOf fs j := List.filterMap_append

@[simp] theorem marksOf_nil (j : JobNumber) : marksOf [] j = [] := rfl

theorem marksOf_cons (e : Entry) (es : List Entry) (j : JobNumber) :
    marksOf (e :: es) j = (if e.job? = some j then [(e.image, e.phase)] else []) ++ marksOf es j := by
  unfold marksOf
  by_cases h : e.job? = some j <;> simp [h]

theorem marksOf_eq_nil {es : List Entry} {j : JobNumber} (h : j ∉ es.filterMap Entry.job?) : marksOf es j = [] :=
  by_contra fun k => h ((marksOf_ne_nil es j).mp k)

theorem State.PoolSound_iff (s : State) : s.PoolSound ↔ s.PoolPlaced ∧ s.ticketsPlaced ∧ s.emptyUntilRunning := by
  constructor
  · intro h
    refine ⟨⟨fun j => ⟨fun p => h.queued p j, fun p => ?_, fun p m k x hx => ?_, h.presented j, fun x hx => h.fields j x hx⟩,
      h.once, h.single⟩, h.placed, h.before⟩
    · unfold State.marks; rw [marksOf_ne_nil]; exact h.outstanding p j
    · obtain ⟨e, me, hj, rfl⟩ := (mem_marksOf _ _ _).mp k
      exact h.entries p e me j hj x hx
  · rintro ⟨h, placed, before⟩
    refine ⟨fun p j => (h.jobs j).queued p, h.once, fun p j => ?_, fun p e me j hj x hx => ?_, h.single,
      fun j => (h.jobs j).presented, fun j x hx => (h.jobs j).fields x hx, placed, before⟩
    · rw [← (h.jobs j).outstanding p]; exact (marksOf_ne_nil _ _).symm
    · exact (h.jobs j).marked p (e.image, e.phase) ((mem_marksOf _ _ _).mpr ⟨e, me, hj, rfl⟩) x hx

/-- A job's place depends on its record, on the queues that it stands in, on its entries and on the records behind it. -/
theorem State.JobPlaced.congr {s t : State} {j : JobNumber} (h : s.JobPlaced j) (job : t.jobs.at j = s.jobs.at j)
    (queues : ∀ p, j ∈ t.queues.at p ↔ j ∈ s.queues.at p) (marks : ∀ p, t.marks p j = s.marks p j)
    (links : t.links j = s.links j) : t.JobPlaced j where
  queued p := by rw [queues, job]; exact h.queued p
  outstanding p := by rw [marks, job]; exact h.outstanding p
  marked p := by rw [marks, job]; exact h.marked p
  presented := by rw [links, job]; exact h.presented
  fields := by rw [job]; exact h.fields

theorem State.PoolPlaced.congr {s t : State} (h : s.PoolPlaced) (jobs : t.jobs = s.jobs)
    (queues : t.queues = s.queues) (entries : ∀ p, (t.ports.at p).entries = (s.ports.at p).entries)
    (links : ∀ j, t.links j = s.links j) : t.PoolPlaced where
  jobs j := (h.jobs j).congr (by rw [jobs]) (fun p => by rw [queues]) (fun p => by unfold State.marks; rw [entries]) (links j)
  once p := by rw [queues]; exact h.once p
  single p := by rw [entries]; exact h.single p

/-- A job without a record stands nowhere. -/
theorem State.JobPlaced.of_none {s : State} {j : JobNumber} (job : s.jobs.at j = none) (queues : ∀ p, j ∉ s.queues.at p)
    (marks : ∀ p, s.marks p j = []) (links : s.links j = 0) : s.JobPlaced j where
  queued p := by simp [job, queues p]
  outstanding p := by simp [job, marks p]
  marked p m h := by rw [marks p] at h; cases h
  presented := by simp [job, links]
  fields := by simp [job]

/-- A QUEUED job stands in its printer's queue alone. -/
theorem State.JobPlaced.of_queued {s : State} {j : JobNumber} {x : Job} (job : s.jobs.at j = some x)
    (state : x.state = .queued) (image : x.image = none) (serial : x.serial = none)
    (queues : ∀ p, j ∈ s.queues.at p ↔ x.printer = p) (marks : ∀ p, s.marks p j = []) (links : s.links j = 0) :
    s.JobPlaced j where
  queued p := by simp [job, queues p, state]
  outstanding p := by simp [job, marks p, state]
  marked p m h := by rw [marks p] at h; cases h
  presented := by simp [job, links, state]
  fields y hy := by
    rw [job] at hy; cases hy
    simp [Job.tabled, state, image, serial]

/-- The facts that a QUEUED job's place gives. -/
theorem State.JobPlaced.standing {s : State} {j : JobNumber} {x : Job} (h : s.JobPlaced j) (job : s.jobs.at j = some x)
    (state : x.state = .queued) : x.image = none ∧ x.serial = none ∧ (∀ p, j ∈ s.queues.at p ↔ x.printer = p) ∧
      (∀ p, s.marks p j = []) ∧ s.links j = 0 := by
  obtain ⟨image, serial⟩ := h.fields x job
  refine ⟨image.mpr (Or.inl state), serial.mpr (Or.inl state), fun p => ?_, fun p => ?_, ?_⟩
  · rw [h.queued p, job]; simp [state]
  · by_contra k
    obtain ⟨y, hy, _, no, _⟩ := (h.outstanding p).mp k
    rw [job] at hy; cases hy
    exact no state
  · rw [h.presented, job]; simp [state]

/-- The facts that an outstanding job's place gives. -/
theorem State.JobPlaced.sent {s : State} {j : JobNumber} {p : Printer} (h : s.JobPlaced j) (marks : s.marks p j ≠ []) :
    ∃ x, s.jobs.at j = some x ∧ x.printer = p ∧ x.state ≠ .queued ∧ x.state ≠ .presented ∧
      (∀ q, j ∉ s.queues.at q) ∧ (∀ q, q ≠ p → s.marks q j = []) ∧ s.links j = 0 ∧ x.tabled := by
  obtain ⟨x, job, at_, a, b⟩ := (h.outstanding p).mp marks
  refine ⟨x, job, at_, a, b, fun q m => ?_, fun q other => ?_, ?_, h.fields x job⟩
  · obtain ⟨y, hy, _, k⟩ := (h.queued q).mp m
    rw [job] at hy; cases hy
    exact a k
  · by_contra k
    obtain ⟨y, hy, e, _⟩ := (h.outstanding q).mp k
    rw [job] at hy; cases hy
    exact other (e.symm.trans at_)
  · rw [h.presented, job]; simp [b]

end Sys2Proof.Machine
end

