-- ==== Sys2Proof/Proofs/LimitsKept.lean ====
section
/-! SUPPORT. Operations that keep the limits: claims, holds, queues considered, and windows cut. -/

namespace Sys2Proof.Machine

/-! ### What an operation keeps -/

/-- Nothing waits, stands or is claimed (R23, R169). -/
structure State.Empty (s : State) : Prop where
  queue : s.journal.queue = []
  reserved : s.journal.reserved = 0
  claims : s.journal.claims = []
  jobs : ∀ j : JobNumber, s.jobs.at j = none
  queues : ∀ p : Printer, s.queues.at p = []
  tickets : ∀ p : Printer, ∀ e ∈ (s.ports.at p).entries, e.ticket = none

theorem State.emptyUntilRunning_iff (s : State) : s.emptyUntilRunning ↔ (s.phase ≠ .running → s.Empty) :=
  ⟨fun h g => by
    obtain ⟨a, b, c, d, e⟩ := h g
    exact ⟨a, b, c, d, fun p => (e p).1, fun p => (e p).2⟩,
   fun h g => by
    obtain ⟨a, b, c, d, e, f⟩ := h g
    exact ⟨a, b, c, d, fun p => ⟨e p, f p⟩⟩⟩

/-- The limits that a change of the state keeps, but for the pool and the audit queues. -/
structure State.Kept (s t : State) : Prop where
  phase : t.phase = s.phase
  empty : s.phase ≠ .running → s.Empty → t.Empty
  placed : s.ticketsPlaced → t.ticketsPlaced
  room : s.emptyUntilRunning → s.ticketsPlaced → s.RoomHeld → t.RoomHeld
  claims : s.journal.claims.Nodup → t.journal.claims.Nodup
  ports : s.portsSound → t.portsSound
  turns : ∀ p : Printer, s.Turns t p

/-- The pool is kept as well. -/
structure State.KeptPool (s t : State) : Prop extends s.Kept t where
  pool : s.emptyUntilRunning → s.ticketsPlaced → s.PoolPlaced → t.PoolPlaced

/-- Every limit is kept. -/
structure State.KeptAll (s t : State) : Prop extends s.KeptPool t where
  audit : s.portsSound → s.auditSound → t.auditSound

theorem State.Kept.emptyUntilRunning {s t : State} (a : s.Kept t) (h : s.emptyUntilRunning) : t.emptyUntilRunning := by
  rw [State.emptyUntilRunning_iff] at *
  rw [a.phase]
  exact fun g => a.empty g (h g)

theorem State.Kept.trans {s t u : State} (a : s.Kept t) (b : t.Kept u) : s.Kept u where
  phase := b.phase.trans a.phase
  empty g h := b.empty (a.phase ▸ g) (a.empty g h)
  placed h := b.placed (a.placed h)
  room e p h := b.room (a.emptyUntilRunning e) (a.placed p) (a.room e p h)
  claims h := b.claims (a.claims h)
  ports h := b.ports (a.ports h)
  turns p := (a.turns p).trans (b.turns p)

theorem State.KeptPool.trans {s t u : State} (a : s.KeptPool t) (b : t.KeptPool u) : s.KeptPool u where
  toKept := a.toKept.trans b.toKept
  pool e p h := b.pool (a.emptyUntilRunning e) (a.placed p) (a.pool e p h)

theorem State.KeptAll.trans {s t u : State} (a : s.KeptAll t) (b : t.KeptAll u) : s.KeptAll u where
  toKeptPool := a.toKeptPool.trans b.toKeptPool
  audit p h := b.audit (a.ports p) (a.audit p h)

theorem State.Kept.of_calm {s t : State} (calm : s.Calm t) (empty : s.phase ≠ .running → s.Empty → t.Empty)
    (room : s.emptyUntilRunning → s.ticketsPlaced → s.RoomHeld → t.RoomHeld)
    (claims : s.journal.claims.Nodup → t.journal.claims.Nodup) : s.Kept t :=
  ⟨calm.phase, empty, calm.ticketsPlaced, room, claims, calm.portsSound, calm.turns⟩

theorem State.KeptAll.of_calm {s t : State} (calm : s.Calm t) (empty : s.phase ≠ .running → s.Empty → t.Empty)
    (room : s.emptyUntilRunning → s.ticketsPlaced → s.RoomHeld → t.RoomHeld)
    (claims : s.journal.claims.Nodup → t.journal.claims.Nodup)
    (pool : s.emptyUntilRunning → s.ticketsPlaced → s.PoolPlaced → t.PoolPlaced) : s.KeptAll t :=
  ⟨⟨.of_calm calm empty room claims, pool⟩, fun _ => calm.auditSound⟩

/-- A calm change that leaves jobs, queues, windows, queued records and reservations. -/
theorem State.KeptAll.of_still {s t : State} (calm : s.Calm t) (jobs : t.jobs = s.jobs) (queues : t.queues = s.queues)
    (entries : ∀ p, (t.ports.at p).entries = (s.ports.at p).entries) (queue : t.journal.queue = s.journal.queue)
    (reserved : t.journal.reserved = s.journal.reserved)
    (claims : s.journal.claims.Nodup → t.journal.claims.Nodup)
    (unclaimed : s.phase ≠ .running → s.journal.claims = [] → t.journal.claims = []) : s.KeptAll t := by
  refine .of_calm calm (fun g h => ⟨queue.trans h.queue, reserved.trans h.reserved, unclaimed g h.claims, fun j => ?_,
    fun p => ?_, fun p e m => h.tickets p e (entries p ▸ m)⟩) (fun _ _ h => h.congr (by rw [queue]) reserved entries)
    claims (fun _ _ h => h.congr jobs queues entries fun j => by unfold State.links; rw [queue])
  · rw [jobs]; exact h.jobs j
  · rw [queues]; exact h.queues p

theorem State.KeptAll.refl (s : State) : s.KeptAll s :=
  .of_still (.refl s) rfl rfl (fun _ => rfl) rfl rfl id fun _ h => h

/-- The journal's queue, places and claims stand, and so do ports, jobs, queues and messages. -/
structure State.Aside (s t : State) : Prop where
  phase : t.phase = s.phase
  printers : t.store.tables.printers = s.store.tables.printers
  jobs : t.jobs = s.jobs
  queues : t.queues = s.queues
  ports : t.ports = s.ports
  sent : t.sent = s.sent
  queue : t.journal.queue = s.journal.queue
  reserved : t.journal.reserved = s.journal.reserved
  claims : t.journal.claims = s.journal.claims

theorem State.Aside.kept {s t : State} (h : s.Aside t) : s.KeptAll t :=
  .of_still (.of_ports h.phase h.printers h.sent h.ports) h.jobs h.queues (fun p => by rw [h.ports]) h.queue h.reserved
    (fun g => by rw [h.claims]; exact g) (fun _ g => h.claims.trans g)

theorem State.Notes.aside {s t : State} (h : s.Notes t) : s.Aside t := by
  rw [h.rest]
  exact ⟨rfl, rfl, rfl, rfl, rfl, rfl, rfl, rfl, rfl⟩

theorem State.raise_kept {s₀ s : State} (h : s₀.KeptAll s) (c : Condition) : s₀.KeptAll (s.raise c) :=
  h.trans (State.raise_notes s c).aside.kept

theorem State.endCondition_kept {s₀ s : State} (h : s₀.KeptAll s) (c : Condition) : s₀.KeptAll (s.endCondition c) :=
  h.trans (State.endCondition_notes s c).aside.kept

theorem State.setLoaded_kept {s₀ s : State} (h : s₀.KeptAll s) (p : Printer) (b : Option Batch) :
    s₀.KeptAll (s.setLoaded p b) :=
  h.trans (State.Aside.kept ⟨rfl, rfl, rfl, rfl, rfl, rfl, rfl, rfl, rfl⟩)

theorem State.modifySession_kept {s₀ s : State} (h : s₀.KeptAll s) (n : Nat) (f : Session → Session) :
    s₀.KeptAll (s.modifySession n f) :=
  h.trans (State.Aside.kept ⟨rfl, rfl, rfl, rfl, rfl, rfl, rfl, rfl, rfl⟩)

theorem State.answer_kept {s₀ s : State} (h : s₀.KeptAll s) (r : Reply) (code : AnswerCode) (f : Figures) :
    s₀.KeptAll (s.answer r code f) :=
  h.trans (State.Aside.kept ⟨rfl, rfl, rfl, rfl, rfl, rfl, rfl, rfl, rfl⟩)

theorem State.answerIf_kept {s₀ s : State} (h : s₀.KeptAll s) (r : Option Reply) (code : AnswerCode) (f : Figures) :
    s₀.KeptAll (s.answerIf r code f) := by
  unfold State.answerIf
  split
  · exact State.answer_kept h _ _ _
  · exact h

/-- The phase while a printer event is taken. -/
theorem State.Kept.running {s t : State} (h : s.Kept t) (g : s.phase = .running) : t.phase = .running := h.phase.trans g

/-! ### Claims -/

theorem State.addClaim_nodup (s : State) (c : Claim) (h : s.journal.claims.Nodup) :
    (s.addClaim c).journal.claims.Nodup := by
  unfold State.addClaim
  simp only [State.updateJournal_journal]
  split
  · exact h
  · rename_i out
    rw [List.nodup_append]
    refine ⟨h, List.nodup_singleton _, fun a ha b hb e => out ?_⟩
    rw [List.mem_singleton] at hb
    rw [List.contains_iff_mem, ← hb, ← e]
    exact ha

/-- A claim joins the list while the controller runs. -/
theorem State.addClaim_kept {s₀ s : State} (h : s₀.KeptAll s) (c : Claim) (running : s.phase = .running) :
    s₀.KeptAll (s.addClaim c) := by
  refine h.trans (.of_still (.of_ports rfl rfl rfl rfl) rfl rfl (fun _ => rfl) ?_ ?_ (State.addClaim_nodup s c)
    fun g => absurd running g)
  all_goals
    unfold State.addClaim
    simp only [State.updateJournal_journal]
    split <;> rfl

theorem State.withdrawClaim_kept {s₀ s : State} (h : s₀.KeptAll s) (c : Claim) : s₀.KeptAll (s.withdrawClaim c) :=
  h.trans (.of_still (.of_ports rfl rfl rfl rfl) rfl rfl (fun _ => rfl) rfl rfl (fun g => g.filter _) fun _ g => by
    unfold State.withdrawClaim
    rw [State.updateJournal_journal, g]
    rfl)

theorem State.signOffTest_kept {s₀ s : State} (h : s₀.KeptAll s) (n : Nat) (running : s.phase = .running) :
    s₀.KeptAll (s.signOffTest n) := by
  unfold State.signOffTest
  split
  · split
    · exact State.addClaim_kept (State.modifySession_kept h _ _) _ running
    · exact h
  · exact h

/-! ### Ports -/

/-- A port changes and keeps its window. -/
theorem State.updatePort_kept {s₀ s : State} (h : s₀.KeptAll s) (p : Printer) (f : Port → Port)
    (tame : (s.ports.at p).Tame (f (s.ports.at p))) (entries : (f (s.ports.at p)).entries = (s.ports.at p).entries) :
    s₀.KeptAll (s.updatePort p f) := by
  refine h.trans (.of_still (.of_port rfl rfl rfl rfl tame) rfl rfl (fun q => ?_) rfl rfl id fun _ g => g)
  rw [State.updatePort_ports, Vector.at_put]
  split
  · rename_i e; subst e; exact entries
  · rfl

/-- What no limit speaks of changes at a port. -/
theorem State.updatePort_kept_of_eq {s₀ s : State} (h : s₀.KeptAll s) (p : Printer) (f : Port → Port)
    (state : ∀ x, (f x).state = x.state) (hold : ∀ x, (f x).hold = x.hold) (window : ∀ x, (f x).window = x.window)
    (entries : ∀ x, (f x).entries = x.entries) (nextImage : ∀ x, (f x).nextImage = x.nextImage)
    (audit : ∀ x, (f x).audit = x.audit) (slips : ∀ x, (f x).slips = x.slips) : s₀.KeptAll (s.updatePort p f) :=
  State.updatePort_kept h p f (.of_eq (state _) (hold _) (window _) (entries _) (nextImage _) (audit _) (slips _)) (entries _)

/-- A port with an empty window leaves ACTIVE and HELD. -/
theorem Port.Tame.of_leaving {x y : Port} (state : y.attached = false) (window : y.window = x.window)
    (empty : y.entries = []) (audit : y.audit = x.audit) (slips : y.slips = x.slips) : x.Tame y := by
  have active : y.state ≠ .active := fun e => by simp [Port.attached, e] at state
  have held : y.state ≠ .held := fun e => by simp [Port.attached, e] at state
  refine ⟨fun ⟨_, _, a, b, _, _, c⟩ => ?_, by simp [empty],
    fun e m => absurd (empty ▸ m) List.not_mem_nil, by rw [audit], Or.inr state,
    fun _ => state⟩
  exact ⟨fun e => absurd e active, fun e => absurd e held, window ▸ a, window ▸ b, by simp [empty], fun _ => empty, slips ▸ c⟩

/-- A message that carries no item is sent. -/
theorem State.transmit_kept {s₀ s : State} (h : s₀.KeptAll s) (p : Printer) (m : Message) (item : m.item? = none) :
    s₀.KeptAll (s.transmit p m) :=
  h.trans (.of_still ⟨rfl, rfl, fun _ => .refl _, [(p, m)], rfl, fun n g => by
    rw [List.mem_singleton] at g
    rw [g]; exact item⟩ rfl rfl (fun _ => rfl) rfl rfl id fun _ g => g)

theorem State.beginAttach_kept {s₀ s : State} (h : s₀.KeptAll s) (p : Printer)
    (empty : (s.ports.at p).entries = []) : s₀.KeptAll (s.beginAttach p) := by
  unfold State.beginAttach
  refine State.updatePort_kept (State.transmit_kept h p .enquire rfl) p _ ?_ rfl
  exact .of_leaving rfl rfl empty rfl rfl

/-! ### Holds -/

theorem noHolds_at (i : Fin 9) : noHolds.at i = false := by
  unfold noHolds Vector.at
  simp

theorem HoldSet.put_true_ne (h : HoldSet) (i : Fin 9) : h.put i true ≠ noHolds := by
  intro e
  have := congrArg (Vector.at · i) e
  simp [noHolds_at] at this

/-- The port under a hold reason: HELD if it was ACTIVE (R49). -/
def Port.under (x : Port) (r : HoldReason) : Port :=
  { x with hold := x.hold.put r.place true, state := if x.state = .active then .held else x.state }

/-- The port relieved of a hold reason: ACTIVE if it was HELD with no other (R49). -/
def Port.relieved (x : Port) (r : HoldReason) : Port :=
  { x with hold := x.hold.put r.place false
           state := if x.state = .held ∧ x.hold.put r.place false = noHolds then .active else x.state }

theorem Port.under_attached (x : Port) (r : HoldReason) : (x.under r).attached = x.attached := by
  unfold Port.attached Port.under
  by_cases h : x.state = .active <;> simp [h]

theorem Port.relieved_attached (x : Port) (r : HoldReason) : (x.relieved r).attached = x.attached := by
  unfold Port.attached Port.relieved
  by_cases h : x.state = .held ∧ x.hold.put r.place false = noHolds
  · simp [h]
  · simp only [if_neg h]

theorem Port.under_tame (x : Port) (r : HoldReason) : x.Tame (x.under r) := by
  refine ⟨fun ⟨_, _, a, b, c, d, e⟩ => ⟨fun k => ?_, fun _ => HoldSet.put_true_ne _ _, a, b, c, ?_, e⟩, .refl _,
    fun e m h => ⟨e, m, h⟩, Nat.le_refl _, Or.inl rfl, fun h => (x.under_attached r).trans h⟩
  · unfold Port.under at k
    dsimp only at k
    split at k
    · cases k
    · rename_i h; exact absurd k h
  · rw [x.under_attached r]; exact d

theorem Port.relieved_tame (x : Port) (r : HoldReason) : x.Tame (x.relieved r) := by
  refine ⟨fun ⟨active, held, a, b, c, d, e⟩ => ⟨fun k => ?_, fun k => ?_, a, b, c, ?_, e⟩, .refl _,
    fun e m h => ⟨e, m, h⟩, Nat.le_refl _, Or.inl rfl, fun h => (x.relieved_attached r).trans h⟩
  · unfold Port.relieved at k ⊢
    dsimp only at k ⊢
    split at k
    · rename_i h; exact h.2
    · rw [active k]
      apply Vector.ext
      intro i h
      have := noHolds_at ⟨i, h⟩
      simp only [Vector.at] at this
      simp [Vector.put, Vector.getElem_set, this]
  · unfold Port.relieved at k ⊢
    dsimp only at k ⊢
    split at k
    · cases k
    · rename_i h; exact fun e => h ⟨k, e⟩
  · rw [x.relieved_attached r]; exact d

/-- A hold reason added: the port is under it, and the queue of a port that it takes from ACTIVE is considered (R13, R49). -/
theorem State.addHold_eq (s : State) (p : Printer) (r : HoldReason) :
    s.addHold p r = if (s.ports.at p).state = .active then
        (s.setPort p ((s.ports.at p).under r)).resolveQueue p (fun _ => true) none
      else s.setPort p ((s.ports.at p).under r) := by
  have e := State.setHold_state s p r
  unfold State.addHold State.enterHeld
  dsimp only
  rw [e]
  by_cases h : (s.ports.at p).state = .active
  · rw [if_pos h, if_pos h]
    congr 1
    unfold State.updatePort State.setPort Port.under Port.setHold
    simp only [Vector.at_put_same, Vector.put_put, if_pos h]
  · rw [if_neg h, if_neg h]
    unfold State.updatePort Port.under Port.setHold
    simp only [if_neg h]

theorem State.removeHold_eq (s : State) (p : Printer) (r : HoldReason) :
    s.removeHold p r = s.setPort p ((s.ports.at p).relieved r) := by
  unfold State.removeHold State.updatePort Port.relieved Port.setHold Port.free
  dsimp only
  by_cases h : (s.ports.at p).state = .held ∧ (s.ports.at p).hold.put r.place false = noHolds
  · rw [if_pos h, if_pos (by simpa using h)]
  · rw [if_neg h, if_neg (by simpa using h)]

theorem State.setPort_kept {s₀ s : State} (h : s₀.KeptAll s) (p : Printer) (y : Port) (tame : (s.ports.at p).Tame y)
    (entries : y.entries = (s.ports.at p).entries) : s₀.KeptAll (s.setPort p y) :=
  State.updatePort_kept h p (fun _ => y) tame entries

theorem State.removeHold_kept {s₀ s : State} (h : s₀.KeptAll s) (p : Printer) (r : HoldReason) :
    s₀.KeptAll (s.removeHold p r) := by
  rw [State.removeHold_eq]
  exact State.setPort_kept h p _ (Port.relieved_tame _ _) rfl

/-! ### Queues considered -/

theorem State.Sorts.phase {s t : State} (a : s.Sorts t) : t.phase = s.phase := by rw [a.rest]

theorem State.Sorts.calm {s t : State} (a : s.Sorts t) : s.Calm t :=
  .of_ports a.phase (by rw [a.store]) a.sent a.ports

/-- A job that leaves one queue for another stands where its record says. -/
theorem State.moveJob_pool (s : State) (j : JobNumber) (job : Job) (q : Printer) (front : Bool) (h : s.PoolPlaced)
    (record : s.jobs.at j = some job) (queued : job.state = .queued) :
    (s.moveJob j job q front).PoolPlaced := by
  obtain ⟨image, serial, queues, marks, links⟩ := (h.jobs j).standing record queued
  have left : ∀ p, (s.removeFromQueue job.printer j).queues.at p = (s.queues.at p).filter fun i => i != j := by
    intro p
    unfold State.removeFromQueue
    rw [State.setQueue_queues, Vector.at_put]
    split
    · rename_i e; rw [e]
    · rename_i e
      refine (List.filter_eq_self.mpr fun i m => bne_iff_ne.mpr ?_).symm
      rintro rfl
      exact e ((queues p).mp m)
  have joined : ∀ p, (s.moveJob j job q front).queues.at p = if q = p then
      (if front then j :: (s.queues.at q).filter (fun i => i != j) else (s.queues.at q).filter (fun i => i != j) ++ [j])
      else (s.queues.at p).filter fun i => i != j := by
    intro p
    unfold State.moveJob
    dsimp only
    rw [State.setQueue_queues, Vector.at_put]
    simp only [State.setJob_queues, left]
  have mem : ∀ p i, i ∈ (s.moveJob j job q front).queues.at p ↔ (if i = j then q = p else i ∈ s.queues.at p) := by
    intro p i
    rw [joined]
    by_cases e : q = p <;> by_cases f : i = j <;> cases front <;> simp [e, f]
  refine ⟨fun i => ?_, fun p => ?_, h.single⟩
  · by_cases e : i = j
    · subst e
      refine State.JobPlaced.of_queued (x := { job with printer := q, retry := 0 }) ?_ queued image serial (fun p => ?_) marks links
      · exact Vector.at_put_same _ _ _
      · rw [mem, if_pos rfl]
    · refine (h.jobs i).congr ?_ (fun p => by rw [mem, if_neg e]) (fun _ => rfl) rfl
      exact Vector.at_put_other _ _ (Ne.symm e)
  · rw [joined]
    have once := fun p => (h.once p).filter fun i => i != j
    split
    · cases front
      · rw [if_neg (by decide), List.nodup_append]
        exact ⟨once q, List.nodup_singleton _, fun a ha b hb e => by simp_all⟩
      · rw [if_pos rfl, List.nodup_cons]
        exact ⟨by simp, once q⟩
    · exact once p

theorem State.refuseJob_queues (s : State) (j : JobNumber) (job : Job) (code : AnswerCode) :
    (s.refuseJob j job code).queues = s.queues.put job.printer ((s.queues.at job.printer).filter fun i => i != j) := by
  unfold State.refuseJob
  rw [State.endJob_queues]
  rfl

theorem State.refuseJob_jobs (s : State) (j : JobNumber) (job : Job) (code : AnswerCode) :
    (s.refuseJob j job code).jobs = s.jobs.put j none := by
  unfold State.refuseJob
  rw [State.endJob_jobs]
  rfl

/-- A QUEUED job that is refused stands nowhere. -/
theorem State.refuseJob_pool (s : State) (j : JobNumber) (job : Job) (code : AnswerCode) (h : s.PoolPlaced)
    (record : s.jobs.at j = some job) (queued : job.state = .queued) : (s.refuseJob j job code).PoolPlaced := by
  obtain ⟨image, serial, queues, marks, links⟩ := (h.jobs j).standing record queued
  have sorts := State.refuseJob_sorts s j job code
  have mem : ∀ p i, i ∈ (s.refuseJob j job code).queues.at p ↔ i ≠ j ∧ i ∈ s.queues.at p := by
    intro p i
    rw [State.refuseJob_queues, Vector.at_put]
    split
    · rename_i e; rw [e]; simp [and_comm]
    · rename_i e
      exact ⟨fun m => ⟨fun k => e ((queues p).mp (k ▸ m)), m⟩, And.right⟩
  have marked : ∀ p i, (s.refuseJob j job code).marks p i = s.marks p i := fun p i => by
    unfold State.marks; rw [sorts.ports]
  have linked : ∀ i, (s.refuseJob j job code).links i = s.links i := fun i => by unfold State.links; rw [sorts.queue]
  refine ⟨fun i => ?_, fun p => ?_, fun p => by rw [sorts.ports]; exact h.single p⟩
  · by_cases e : i = j
    · subst e
      exact .of_none (by rw [State.refuseJob_jobs, Vector.at_put_same]) (fun p m => ((mem p i).mp m).1 rfl)
        (fun p => (marked p i).trans (marks p)) ((linked i).trans links)
    · exact (h.jobs i).congr (by rw [State.refuseJob_jobs, Vector.at_put_other _ _ (Ne.symm e)])
        (fun p => by rw [mem]; simp [e]) (fun p => marked p i) (linked i)
  · rw [State.refuseJob_queues, Vector.at_put]
    split
    · exact (h.once _).filter _
    · exact h.once p

/-- A job that stands in a queue considered by R12 to R17. -/
theorem State.considerJob_pool (concerns : Job → Bool) (refusal : Option AnswerCode) (s : State) (j : JobNumber)
    (h : s.PoolPlaced) (p : Printer) (m : j ∈ s.queues.at p) : (State.considerJob concerns refusal s j).PoolPlaced := by
  obtain ⟨x, record, _, queued⟩ := ((h.jobs j).queued p).mp m
  unfold State.considerJob
  rw [record]
  dsimp only
  split
  · split
    · exact State.moveJob_pool s j x _ false h record queued
    · exact State.refuseJob_pool s j x _ h record queued
    · exact h
  · exact h

/-- Considering one job takes no other job out of a queue. -/
theorem State.considerJob_mem (concerns : Job → Bool) (refusal : Option AnswerCode) (s : State) (j i : JobNumber)
    (p : Printer) (other : i ≠ j) (m : i ∈ s.queues.at p) : i ∈ (State.considerJob concerns refusal s j).queues.at p := by
  have kept : ∀ q : Printer, i ∈ (s.removeFromQueue q j).queues.at p := by
    intro q
    unfold State.removeFromQueue
    rw [State.setQueue_queues, Vector.at_put]
    split
    · rename_i e; subst e; exact List.mem_filter.mpr ⟨m, bne_iff_ne.mpr other⟩
    · exact m
  unfold State.considerJob
  split
  · exact m
  · split
    · split
      · rename_i q _
        unfold State.moveJob
        dsimp only
        rw [State.setQueue_queues, Vector.at_put, State.setJob_queues]
        split
        · rename_i e; subst e; simp [kept]
        · exact kept _
      · unfold State.refuseJob
        rw [State.endJob_queues]
        exact kept _
      · exact m
    · exact m

theorem State.resolveQueue_pool (s : State) (p : Printer) (concerns : Job → Bool) (refusal : Option AnswerCode)
    (h : s.PoolPlaced) : (s.resolveQueue p concerns refusal).PoolPlaced := by
  have fold : ∀ (l : List JobNumber) (t : State), l.Nodup → (∀ j ∈ l, j ∈ t.queues.at p) → t.PoolPlaced →
      (l.foldl (State.considerJob concerns refusal) t).PoolPlaced := by
    intro l
    induction l with
    | nil => exact fun _ _ _ h => h
    | cons j l ih =>
      intro t nd stand h
      obtain ⟨out, nd⟩ := List.nodup_cons.mp nd
      refine ih _ nd (fun i m => ?_) (State.considerJob_pool _ _ t j h p (stand j List.mem_cons_self))
      exact State.considerJob_mem _ _ t j i p (fun e => out (e ▸ m)) (stand i (List.mem_cons_of_mem _ m))
  exact fold (s.queues.at p) s (h.once p) (fun _ m => m) h

theorem State.signOffTest_nodup (s : State) (n : Nat) (h : s.journal.claims.Nodup) :
    (s.signOffTest n).journal.claims.Nodup := by
  unfold State.signOffTest
  split
  · split
    · exact State.addClaim_nodup _ _ h
    · exact h
  · exact h

theorem State.considerJob_nodup (concerns : Job → Bool) (refusal : Option AnswerCode) (s : State) (j : JobNumber)
    (h : s.journal.claims.Nodup) : (State.considerJob concerns refusal s j).journal.claims.Nodup := by
  unfold State.considerJob
  split
  · exact h
  · split
    · split
      · exact h
      · exact State.signOffTest_nodup _ _ h
      · exact h
    · exact h

theorem State.resolveQueue_nodup (s : State) (p : Printer) (concerns : Job → Bool) (refusal : Option AnswerCode)
    (h : s.journal.claims.Nodup) : (s.resolveQueue p concerns refusal).journal.claims.Nodup := by
  unfold State.resolveQueue
  generalize s.queues.at p = l
  induction l generalizing s with
  | nil => exact h
  | cons j l ih => exact ih _ (State.considerJob_nodup concerns refusal s j h)

theorem State.resolveQueue_of_nil (s : State) (p : Printer) (concerns : Job → Bool) (refusal : Option AnswerCode)
    (h : s.queues.at p = []) : s.resolveQueue p concerns refusal = s := by
  unfold State.resolveQueue
  rw [h]
  rfl

theorem State.resolveQueue_kept {s₀ s : State} (h : s₀.KeptAll s) (p : Printer) (concerns : Job → Bool)
    (refusal : Option AnswerCode) : s₀.KeptAll (s.resolveQueue p concerns refusal) := by
  have sorts := State.resolveQueue_sorts s p concerns refusal
  refine h.trans (.of_calm sorts.calm (fun _ e => ?_) (fun _ _ r => r.congr (by rw [sorts.queue]) sorts.reserved
    fun q => by rw [sorts.ports]) (State.resolveQueue_nodup s p _ _) fun _ _ => State.resolveQueue_pool s p _ _)
  rw [State.resolveQueue_of_nil s p _ _ (e.queues p)]
  exact e

theorem State.refuseQueue_kept {s₀ s : State} (h : s₀.KeptAll s) (p : Printer) : s₀.KeptAll (s.refuseQueue p) :=
  State.resolveQueue_kept h _ _ _

theorem State.addHold_kept {s₀ s : State} (h : s₀.KeptAll s) (p : Printer) (r : HoldReason) :
    s₀.KeptAll (s.addHold p r) := by
  have under := State.setPort_kept h p _ (Port.under_tame (s.ports.at p) r) rfl
  rw [State.addHold_eq]
  split
  · exact State.resolveQueue_kept under _ _ _
  · exact under

theorem State.addStockHold_kept {s₀ s : State} (h : s₀.KeptAll s) (p : Printer) (r : HoldReason) :
    s₀.KeptAll (s.addStockHold p r) := by
  unfold State.addStockHold
  split
  · exact State.addHold_kept h _ _
  · exact h

theorem State.latchJam_kept {s₀ s : State} (h : s₀.KeptAll s) (p : Printer) : s₀.KeptAll (s.latchJam p) :=
  State.addHold_kept (State.updatePort_kept_of_eq h p (fun x => { x with jamLatch := true }) (fun _ => rfl)
    (fun _ => rfl) (fun _ => rfl) (fun _ => rfl) (fun _ => rfl) (fun _ => rfl) fun _ => rfl) _ _

end Sys2Proof.Machine
end

