-- ==== Sys2Proof/Proofs/LimitsWindows.lean ====
section
/-! SUPPORT. Windows that are cut, and ports that leave ACTIVE or HELD, keep the limits. -/

namespace Sys2Proof.Machine

/-! ### Windows cut -/

/-- The entries from a place on leave the window: their serials are spoiled and their jobs return to the queue (R11, R48,
R58, R59). -/
def State.cutWindow (s : State) (p : Printer) (k : Nat) (cause : SpoilCause) : State :=
  let es := (s.ports.at p).entries
  (((es.drop k).foldl (State.dropEntry cause p) s).updatePort p fun x => { x with entries := es.take k }).returnJobs p
    (es.drop k)

theorem State.resolveWindow_eq (s : State) (p : Printer) (cause : SpoilCause) :
    s.resolveWindow p cause = s.cutWindow p 0 cause := rfl

theorem State.takeJam_eq (s : State) (p : Printer) (k : Nat) :
    s.takeJam p k = (match (s.ports.at p).entries.drop k with
      | e :: _ => ((s.withdrawClaim (.engine p)).cutWindow p k .jam).settleJammed p e
      | [] => (s.withdrawClaim (.engine p)).cutWindow p k .jam).latchJam p := rfl

theorem State.returning_jobs (s : State) (p : Printer) (es : List Entry) (j : JobNumber) :
    (s.returning p es).jobs.at j =
      if j ∈ es.filterMap Entry.job? then (s.jobs.at j).map Job.returned else s.jobs.at j := by
  simp [State.returning, Vector.at]

theorem State.Hands.returning {s t : State} (a : s.Hands t) (p : Printer) (es : List Entry) :
    (t.returning p es).jobs = (s.returning p es).jobs ∧ (t.returning p es).queues = (s.returning p es).queues := by
  unfold State.returning
  simp only [a.jobs, a.queues, and_self]

/-- A window cut: SPOIL records are handed, the window is cut and the jobs of its entries return (R11). -/
theorem State.cutWindow_eq (s : State) (p : Printer) (k : Nat) (cause : SpoilCause) :
    ∃ d : State, s.Hands d ∧ d.journal.queue = s.journal.queue ++ s.spoils cause p ((s.ports.at p).entries.drop k) ∧
      ((∀ e ∈ (s.ports.at p).entries.drop k, ∀ t ∈ e.ticket, 1 ≤ t.places) → d.journal.reserved =
        s.journal.reserved - (((s.ports.at p).entries.drop k).map Entry.places).sum) ∧
      s.cutWindow p k cause = { d with
        ports := s.ports.put p { s.ports.at p with entries := (s.ports.at p).entries.take k }
        jobs := (s.returning p ((s.ports.at p).entries.drop k)).jobs
        queues := (s.returning p ((s.ports.at p).entries.drop k)).queues } := by
  obtain ⟨hands, queue, reserved⟩ := State.dropEntries_effect cause p ((s.ports.at p).entries.drop k) s
  refine ⟨_, hands, queue, reserved, ?_⟩
  unfold State.cutWindow
  dsimp only
  generalize ((s.ports.at p).entries.drop k).foldl (State.dropEntry cause p) s = d at *
  rw [State.returnJobs_returning]
  obtain ⟨jobs, queues⟩ := hands.returning p ((s.ports.at p).entries.drop k)
  rw [← jobs, ← queues]
  unfold State.returning State.updatePort State.setPort
  simp only [hands.ports]

theorem State.cutWindow_ports (s : State) (p : Printer) (k : Nat) (cause : SpoilCause) :
    (s.cutWindow p k cause).ports = s.ports.put p { s.ports.at p with entries := (s.ports.at p).entries.take k } := by
  obtain ⟨d, _, _, _, e⟩ := State.cutWindow_eq s p k cause
  rw [e]

theorem State.cutWindow_queues (s : State) (p : Printer) (k : Nat) (cause : SpoilCause) :
    (s.cutWindow p k cause).queues =
      s.queues.put p (((s.ports.at p).entries.drop k).filterMap Entry.job? ++ s.queues.at p) := by
  obtain ⟨d, _, _, _, e⟩ := State.cutWindow_eq s p k cause
  rw [e]
  rfl

theorem State.cutWindow_jobs (s : State) (p : Printer) (k : Nat) (cause : SpoilCause) (j : JobNumber) :
    (s.cutWindow p k cause).jobs.at j =
      if j ∈ ((s.ports.at p).entries.drop k).filterMap Entry.job? then (s.jobs.at j).map Job.returned
      else s.jobs.at j := by
  obtain ⟨d, _, _, _, e⟩ := State.cutWindow_eq s p k cause
  rw [e]
  dsimp only
  rw [State.returning_jobs]

theorem State.cutWindow_queue (s : State) (p : Printer) (k : Nat) (cause : SpoilCause) :
    (s.cutWindow p k cause).journal.queue = s.journal.queue ++ s.spoils cause p ((s.ports.at p).entries.drop k) := by
  obtain ⟨d, _, queue, _, e⟩ := State.cutWindow_eq s p k cause
  rw [e]
  exact queue

theorem State.cutWindow_reserved (s : State) (p : Printer) (k : Nat) (cause : SpoilCause)
    (held : ∀ e ∈ (s.ports.at p).entries.drop k, ∀ t ∈ e.ticket, 1 ≤ t.places) :
    (s.cutWindow p k cause).journal.reserved =
      s.journal.reserved - (((s.ports.at p).entries.drop k).map Entry.places).sum := by
  obtain ⟨d, _, _, reserved, e⟩ := State.cutWindow_eq s p k cause
  rw [e]
  exact reserved held

theorem State.Hands.phase {s t : State} (a : s.Hands t) : t.phase = s.phase := by rw [a.rest]

theorem State.cutWindow_rest (s : State) (p : Printer) (k : Nat) (cause : SpoilCause) :
    let t := s.cutWindow p k cause
    t.phase = s.phase ∧ t.store = s.store ∧ t.sent = s.sent ∧ t.stock = s.stock ∧ t.monitor = s.monitor ∧
      t.office = s.office ∧ t.journal.claims = s.journal.claims := by
  obtain ⟨d, hands, _, _, e⟩ := State.cutWindow_eq s p k cause
  rw [e]
  exact ⟨hands.phase, hands.store, hands.sent, hands.stock, hands.monitor, hands.office, hands.claims⟩

/-- Each SPOIL record is handed on a place of its entry. -/
theorem State.spoils_length (s : State) (cause : SpoilCause) (p : Printer) (es : List Entry)
    (held : ∀ e ∈ es, ∀ t ∈ e.ticket, 1 ≤ t.places) : (s.spoils cause p es).length ≤ (es.map Entry.places).sum := by
  induction es with
  | nil => exact Nat.zero_le _
  | cons e es ih =>
    have rest := ih fun f m => held f (List.mem_cons_of_mem _ m)
    have one : (s.spoils cause p [e]).length ≤ e.places := by
      unfold State.spoils Entry.places
      cases ticket : e.ticket with
      | none => simp [ticket]
      | some t =>
        have := held e List.mem_cons_self t ticket
        refine Nat.le_trans (List.length_filterMap_le _ _) ?_
        simpa using this
    have split := State.spoils_append s cause p [e] es
    rw [List.singleton_append] at split
    rw [split, List.length_append, List.map_cons, List.sum_cons]
    omega

theorem State.spoils_links (s : State) (cause : SpoilCause) (p : Printer) (es : List Entry) :
    ∀ q ∈ s.spoils cause p es, q.link = .nothing := by
  intro q m
  obtain ⟨e, _, h⟩ := List.mem_filterMap.mp m
  split at h
  · cases h
  · split at h
    · obtain ⟨sb, _, rfl⟩ := Option.map_eq_some_iff.mp h; rfl
    · cases h

/-- Records that answer no job join the queue. -/
theorem State.links_of_append {s t : State} {l : List Queued} (queue : t.journal.queue = s.journal.queue ++ l)
    {j : JobNumber} (none_ : ∀ q ∈ l, q.link ≠ .job j) : t.links j = s.links j := by
  unfold State.links
  rw [queue, List.countP_append, Nat.add_eq_left, List.countP_eq_zero]
  exact fun q m => by simpa using none_ q m

theorem State.cutWindow_links (s : State) (p : Printer) (k : Nat) (cause : SpoilCause) (j : JobNumber) :
    (s.cutWindow p k cause).links j = s.links j :=
  State.links_of_append (State.cutWindow_queue s p k cause) fun q m e => by
    rw [State.spoils_links s cause p _ q m] at e
    cases e

theorem State.cutWindow_calm (s : State) (p : Printer) (k : Nat) (cause : SpoilCause) :
    s.Calm (s.cutWindow p k cause) := by
  obtain ⟨phase, store, sent, _⟩ := State.cutWindow_rest s p k cause
  refine .of_port phase (by rw [store]) sent (State.cutWindow_ports s p k cause) ?_
  refine ⟨fun ⟨a, b, c, d, e, f, g⟩ => ⟨a, b, c, d, ?_, fun h => ?_, g⟩, ((List.take_sublist _ _).map _),
    fun e m h => ⟨e, List.mem_of_mem_take m, h⟩, Nat.le_refl _, Or.inl rfl, id⟩
  · exact Nat.le_trans (by simp) e
  · show List.take k _ = []
    rw [f h, List.take_nil]

theorem State.cutWindow_room (s : State) (p : Printer) (k : Nat) (cause : SpoilCause) (h : s.RoomHeld) :
    (s.cutWindow p k cause).RoomHeld := by
  have held : ∀ e ∈ (s.ports.at p).entries.drop k, ∀ t ∈ e.ticket, 1 ≤ t.places := fun e m t n =>
    (h.entries p e (List.mem_of_mem_drop m) t n).1
  have split : (s.ports.at p).places = (((s.ports.at p).entries.take k).map Entry.places).sum +
      (((s.ports.at p).entries.drop k).map Entry.places).sum := by
    unfold Port.places
    rw [← List.sum_append, ← List.map_append, List.take_append_drop]
  have part : (s.ports.at p).places ≤ s.heldPlaces := by
    have := State.heldPlaces_put (s := s) (t := s.setPort p { s.ports.at p with entries := [] }) (p := p) rfl
    simp [Port.places] at this
    unfold Port.places
    omega
  have reserved := h.reserved
  have room := h.room
  refine h.of_port (State.cutWindow_ports s p k cause) ?_ ?_ fun e m => h.entries p e (List.mem_of_mem_take m)
  · rw [State.cutWindow_queue, State.cutWindow_reserved s p k cause held, List.length_append]
    have := State.spoils_length s cause p _ held
    omega
  · rw [State.cutWindow_reserved s p k cause held]
    show _ = _ + (List.map Entry.places ((s.ports.at p).entries.take k)).sum
    omega

/-- The jobs of the entries that leave a window are QUEUED again (R11). -/
theorem State.cutWindow_pool (s : State) (p : Printer) (k : Nat) (cause : SpoilCause) (h : s.PoolPlaced) :
    (s.cutWindow p k cause).PoolPlaced := by
  have window : (s.ports.at p).entries = (s.ports.at p).entries.take k ++ (s.ports.at p).entries.drop k :=
    (List.take_append_drop _ _).symm
  have single := h.single p
  rw [window, List.filterMap_append, List.nodup_append] at single
  obtain ⟨old, cut, apart⟩ := single
  have returned : ∀ j ∈ ((s.ports.at p).entries.drop k).filterMap Entry.job?, s.marks p j ≠ [] := fun j m => by
    unfold State.marks
    rw [marksOf_ne_nil, window, List.filterMap_append]
    exact List.mem_append_right _ m
  refine ⟨fun j => ?_, fun q => ?_, fun q => ?_⟩
  · have record := State.cutWindow_jobs s p k cause j
    have links := State.cutWindow_links s p k cause j
    have marks : ∀ q, (s.cutWindow p k cause).marks q j =
        if p = q then marksOf ((s.ports.at p).entries.take k) j else s.marks q j := fun q => by
      unfold State.marks
      rw [State.cutWindow_ports, Vector.at_put]
      split <;> rfl
    by_cases m : j ∈ ((s.ports.at p).entries.drop k).filterMap Entry.job?
    · obtain ⟨x, job, at_, a, b, queues, others, none_, _⟩ := (h.jobs j).sent (returned j m)
      rw [if_pos m, job] at record
      refine State.JobPlaced.of_queued record rfl rfl rfl (fun q => ?_) (fun q => ?_) (links.trans none_)
      · rw [State.cutWindow_queues, Vector.at_put]
        show _ ↔ x.printer = q
        split
        · rename_i e
          subst e
          exact ⟨fun _ => at_, fun _ => List.mem_append_left _ m⟩
        · rename_i e
          exact ⟨fun n => absurd n (queues q), fun e' => absurd (at_.symm.trans e') e⟩
      · rw [marks]
        split
        · exact marksOf_eq_nil fun n => apart j n j m rfl
        · rename_i e; exact others q (Ne.symm e)
    · rw [if_neg m] at record
      refine (h.jobs j).congr record (fun q => ?_) (fun q => ?_) links
      · rw [State.cutWindow_queues, Vector.at_put]
        split
        · rename_i e
          subst e
          exact ⟨fun n => (List.mem_append.mp n).resolve_left m, List.mem_append_right _⟩
        · rfl
      · rw [marks]
        split
        · rename_i e
          subst e
          unfold State.marks
          conv_rhs => rw [window, marksOf_append, marksOf_eq_nil m, List.append_nil]
        · rfl
  · rw [State.cutWindow_queues, Vector.at_put]
    split
    · rename_i e
      subst e
      rw [List.nodup_append]
      refine ⟨cut, h.once p, fun a m b n e => ?_⟩
      subst e
      obtain ⟨_, _, _, _, _, queues, _⟩ := (h.jobs a).sent (returned a m)
      exact queues p n
    · exact h.once q
  · rw [State.cutWindow_ports, Vector.at_put]
    split
    · exact old
    · exact h.single q

theorem State.cutWindow_empty (s : State) (p : Printer) (k : Nat) (cause : SpoilCause) (h : s.Empty) :
    (s.cutWindow p k cause).Empty := by
  have none_ : ∀ e ∈ (s.ports.at p).entries.drop k, e.ticket = none := fun e m => h.tickets p e (List.mem_of_mem_drop m)
  have back : ((s.ports.at p).entries.drop k).filterMap Entry.job? = [] :=
    List.filterMap_eq_nil_iff.mpr fun e m => by unfold Entry.job?; rw [none_ e m]; rfl
  refine ⟨?_, ?_, ?_, fun j => ?_, fun q => ?_, fun q e m => ?_⟩
  · rw [State.cutWindow_queue, h.queue, List.nil_append]
    refine List.filterMap_eq_nil_iff.mpr fun e m => ?_
    rw [none_ e m]
    split <;> rfl
  · rw [State.cutWindow_reserved s p k cause fun e m t n => (by rw [none_ e m] at n; cases n), h.reserved, Nat.zero_sub]
  · exact (State.cutWindow_rest s p k cause).2.2.2.2.2.2.trans h.claims
  · rw [State.cutWindow_jobs, back, if_neg List.not_mem_nil, h.jobs]
  · rw [State.cutWindow_queues, back, Vector.at_put, List.nil_append]
    split
    · exact h.queues p
    · exact h.queues q
  · rw [State.cutWindow_ports, Vector.at_put] at m
    split at m
    · exact h.tickets p e (List.mem_of_mem_take m)
    · exact h.tickets q e m

theorem State.cutWindow_kept {s₀ s : State} (h : s₀.KeptAll s) (p : Printer) (k : Nat) (cause : SpoilCause) :
    s₀.KeptAll (s.cutWindow p k cause) :=
  h.trans (.of_calm (State.cutWindow_calm s p k cause) (fun _ => State.cutWindow_empty s p k cause)
    (fun _ _ => State.cutWindow_room s p k cause)
    (fun g => by rw [(State.cutWindow_rest s p k cause).2.2.2.2.2.2]; exact g)
    fun _ _ => State.cutWindow_pool s p k cause)

theorem State.resolveWindow_kept {s₀ s : State} (h : s₀.KeptAll s) (p : Printer) (cause : SpoilCause) :
    s₀.KeptAll (s.resolveWindow p cause) :=
  State.cutWindow_kept h p 0 cause

/-! ### Ports that leave ACTIVE or HELD -/

/-- A port whose window is empty leaves ACTIVE and HELD. -/
theorem State.updatePort_kept_of_leaving {s₀ s : State} (h : s₀.KeptAll s) (p : Printer) (f : Port → Port)
    (empty : (s.ports.at p).entries = []) (state : ∀ x, (f x).attached = false) (window : ∀ x, (f x).window = x.window)
    (entries : ∀ x, (f x).entries = x.entries) (audit : ∀ x, (f x).audit = x.audit) (slips : ∀ x, (f x).slips = x.slips) :
    s₀.KeptAll (s.updatePort p f) :=
  State.updatePort_kept h p f (.of_leaving (state _) (window _) ((entries _).trans empty) (audit _) (slips _)) (entries _)

theorem State.resolveWindow_entries (s : State) (p : Printer) (cause : SpoilCause) :
    ((s.resolveWindow p cause).ports.at p).entries = [] := by
  rw [State.resolveWindow_eq, State.cutWindow_ports, Vector.at_put_same]
  rfl

theorem State.raised_kept {s₀ s : State} (h : s₀.KeptAll s) (p : Printer) (c : Option PrinterFault) :
    s₀.KeptAll (s.raised p c) := by
  cases c with
  | none => exact h
  | some c => exact State.raise_kept h _

theorem State.failPort_kept {s₀ s : State} (h : s₀.KeptAll s) (p : Printer) (c : Option PrinterFault) :
    s₀.KeptAll (s.failPort p c) := by
  rw [State.failPort_eq]
  refine State.refuseQueue_kept (State.updatePort_kept_of_leaving (State.resolveWindow_kept (State.withdrawClaim_kept
    (State.raised_kept h p c) _) p .protocol) p _ (State.resolveWindow_entries _ p _) ?_ ?_ ?_ ?_ ?_) p
  all_goals exact fun _ => rfl

theorem State.enterAbsent_kept {s₀ s : State} (h : s₀.KeptAll s) (p : Printer) (empty : (s.ports.at p).entries = []) :
    s₀.KeptAll (s.enterAbsent p) := by
  unfold State.enterAbsent
  refine State.refuseQueue_kept (State.updatePort_kept_of_leaving h p _ empty ?_ ?_ ?_ ?_ ?_) p
  all_goals exact fun _ => rfl

theorem State.goAbsent_kept {s₀ s : State} (h : s₀.KeptAll s) (p : Printer) : s₀.KeptAll (s.goAbsent p) :=
  State.enterAbsent_kept (State.resolveWindow_kept (State.withdrawClaim_kept (State.raise_kept h _) _) _ _) p
    (State.resolveWindow_entries _ p _)

end Sys2Proof.Machine
end

