-- ==== Sys2Proof/Proofs/LimitsReports.lean ====
section
/-! SUPPORT. Serials given and reports taken keep the limits. -/

namespace Sys2Proof.Machine

theorem State.KeptAll.running {s t : State} (h : s.KeptAll t) (g : s.phase = .running) : t.phase = .running :=
  h.phase.trans g

/-- While the controller runs nothing has to be empty. -/
theorem State.KeptAll.of_running {s t : State} (running : s.phase = .running) (calm : s.Calm t)
    (room : s.ticketsPlaced → s.RoomHeld → t.RoomHeld) (claims : s.journal.claims.Nodup → t.journal.claims.Nodup)
    (pool : s.ticketsPlaced → s.PoolPlaced → t.PoolPlaced) : s.KeptAll t :=
  .of_calm calm (fun g => absurd running g) (fun _ => room) claims fun _ => pool

/-! ### Serials (R82 to R86) -/

theorem State.exhaust_kept {s₀ s : State} (h : s₀.KeptAll s) (p : Printer) (b : Batch) (running : s₀.phase = .running) :
    s₀.KeptAll (s.exhaust p b) := by
  have hold := State.addStockHold_kept (State.setLoaded_kept h p (some { b with state := .exhausted, closingOwed := true })) p
    .noStock
  exact State.addClaim_kept hold _ (hold.running running)

theorem State.lowStockCrossing_kept {s₀ s : State} (h : s₀.KeptAll s) (p : Printer) (before after : Nat) :
    s₀.KeptAll (s.lowStockCrossing p before after) := by
  unfold State.lowStockCrossing
  dsimp only
  split
  · exact State.raise_kept h _
  · exact h

theorem State.lowStockTest_kept {s₀ s : State} (h : s₀.KeptAll s) (p : Printer) : s₀.KeptAll (s.lowStockTest p) := by
  unfold State.lowStockTest
  split
  · exact h
  · dsimp only
    split
    · exact State.raise_kept h _
    · split
      · exact State.endCondition_kept h _
      · exact h

theorem State.giveSerial_kept {s₀ s : State} (h : s₀.KeptAll s) (p : Printer) (b : Batch) (running : s₀.phase = .running) :
    s₀.KeptAll (s.giveSerial p b) := by
  have given := State.setLoaded_kept h p (some b.give)
  unfold State.giveSerial
  dsimp only
  apply State.lowStockCrossing_kept
  split
  · exact State.exhaust_kept given p _ running
  · exact given

theorem State.stockMismatch_kept {s₀ s : State} (h : s₀.KeptAll s) (p : Printer) : s₀.KeptAll (s.stockMismatch p) := by
  have raised := State.raise_kept h (.printer p .stockMismatch)
  unfold State.stockMismatch
  dsimp only
  split
  · split
    · exact State.addStockHold_kept (State.setLoaded_kept raised _ _) _ _
    · exact raised
  · exact raised

/-! ### What holds, serials and mismatches leave alone -/

/-- Jobs that stand outside a queue, and all windows, are not touched while the queue is considered. -/
structure State.Spares (s t : State) (p : Printer) : Prop where
  entries : ∀ q, (t.ports.at q).entries = (s.ports.at q).entries
  jobs : ∀ j, j ∉ s.queues.at p → t.jobs.at j = s.jobs.at j
  queues : ∀ j, j ∈ t.queues.at p → j ∈ s.queues.at p

theorem State.Spares.refl (s : State) (p : Printer) : s.Spares s p := ⟨fun _ => rfl, fun _ _ => rfl, fun _ => id⟩

theorem State.Spares.trans {s t u : State} {p : Printer} (a : s.Spares t p) (b : t.Spares u p) : s.Spares u p :=
  ⟨fun q => (b.entries q).trans (a.entries q), fun j m => (b.jobs j fun n => m (a.queues j n)).trans (a.jobs j m),
   fun j m => a.queues j (b.queues j m)⟩

theorem State.Aside.spares {s t : State} (h : s.Aside t) (p : Printer) : s.Spares t p :=
  ⟨fun q => by rw [h.ports], fun j _ => by rw [h.jobs], fun j m => h.queues ▸ m⟩

theorem State.considerJob_jobs_other (concerns : Job → Bool) (refusal : Option AnswerCode) (s : State) (j i : JobNumber)
    (other : i ≠ j) : (State.considerJob concerns refusal s j).jobs.at i = s.jobs.at i := by
  unfold State.considerJob
  split
  · rfl
  · split
    · split
      · exact Vector.at_put_other _ _ (Ne.symm other)
      · rw [State.refuseJob_jobs, Vector.at_put_other _ _ (Ne.symm other)]
      · rfl
    · rfl

theorem State.considerJobs_jobs_other (concerns : Job → Bool) (refusal : Option AnswerCode) (l : List JobNumber)
    (s : State) {j : JobNumber} (out : j ∉ l) : (l.foldl (State.considerJob concerns refusal) s).jobs.at j = s.jobs.at j := by
  induction l generalizing s with
  | nil => rfl
  | cons i l ih =>
    rw [List.mem_cons, not_or] at out
    rw [List.foldl_cons, ih _ out.2, State.considerJob_jobs_other _ _ s i j out.1]

theorem State.resolveQueue_jobs_other (s : State) (p : Printer) (concerns : Job → Bool) (refusal : Option AnswerCode)
    (j : JobNumber) (out : j ∉ s.queues.at p) : (s.resolveQueue p concerns refusal).jobs.at j = s.jobs.at j :=
  State.considerJobs_jobs_other concerns refusal _ s out

/-- What stands in a queue after its jobs were considered stood there before, or its printer is another. -/
theorem State.considerJob_mem_of (concerns : Job → Bool) (refusal : Option AnswerCode) (s : State) (j i : JobNumber)
    (q : Printer) (m : i ∈ (State.considerJob concerns refusal s j).queues.at q) : i ∈ s.queues.at q ∨ i = j := by
  have kept : ∀ r : Printer, i ∈ (s.removeFromQueue r j).queues.at q → i ∈ s.queues.at q := by
    intro r n
    unfold State.removeFromQueue at n
    rw [State.setQueue_queues, Vector.at_put] at n
    split at n
    · rename_i e; subst e; exact (List.mem_filter.mp n).1
    · exact n
  unfold State.considerJob at m
  split at m
  · exact Or.inl m
  · split at m
    · split at m
      · unfold State.moveJob at m
        dsimp only at m
        rw [State.setQueue_queues, Vector.at_put, State.setJob_queues] at m
        split at m
        · rename_i e
          subst e
          rcases List.mem_append.mp m with m | m
          · exact Or.inl (kept _ m)
          · exact Or.inr (List.mem_singleton.mp m)
        · exact Or.inl (kept _ m)
      · unfold State.refuseJob at m
        rw [State.endJob_queues] at m
        exact Or.inl (kept _ m)
      · exact Or.inl m
    · exact Or.inl m

theorem State.resolveQueue_mem_of (s : State) (p : Printer) (concerns : Job → Bool) (refusal : Option AnswerCode)
    (i : JobNumber) (q : Printer) (m : i ∈ (s.resolveQueue p concerns refusal).queues.at q) :
    i ∈ s.queues.at q ∨ i ∈ s.queues.at p := by
  have fold : ∀ (l : List JobNumber) (t : State), i ∈ (l.foldl (State.considerJob concerns refusal) t).queues.at q →
      i ∈ t.queues.at q ∨ i ∈ l := by
    intro l
    induction l with
    | nil => exact fun _ m => Or.inl m
    | cons j l ih =>
      intro t m
      rcases ih _ m with m | m
      · rcases State.considerJob_mem_of _ _ t j i q m with m | m
        · exact Or.inl m
        · exact Or.inr (m ▸ List.mem_cons_self)
      · exact Or.inr (List.mem_cons_of_mem _ m)
  exact fold _ s m

theorem State.resolveQueue_spares (s : State) (p : Printer) (concerns : Job → Bool) (refusal : Option AnswerCode) :
    s.Spares (s.resolveQueue p concerns refusal) p :=
  ⟨fun q => by rw [(State.resolveQueue_sorts s p concerns refusal).ports],
   fun j out => State.resolveQueue_jobs_other s p _ _ j out,
   fun j m => (State.resolveQueue_mem_of s p _ _ j p m).elim id id⟩

theorem State.addHold_spares (s : State) (p : Printer) (r : HoldReason) : s.Spares (s.addHold p r) p := by
  have under : s.Spares (s.setPort p ((s.ports.at p).under r)) p :=
    ⟨fun q => by
      rw [State.setPort_ports, Vector.at_put]
      split
      · rename_i e; subst e; rfl
      · rfl, fun _ _ => rfl, fun _ => id⟩
  rw [State.addHold_eq]
  split
  · exact under.trans (State.resolveQueue_spares _ _ _ _)
  · exact under

theorem State.addStockHold_spares (s : State) (p : Printer) (r : HoldReason) : s.Spares (s.addStockHold p r) p := by
  unfold State.addStockHold
  split
  · exact State.addHold_spares s p r
  · exact .refl s p

theorem State.exhaust_spares (s : State) (p : Printer) (b : Batch) : s.Spares (s.exhaust p b) p :=
  State.Spares.trans (t := s.setLoaded p (some { b with state := .exhausted, closingOwed := true }))
    ⟨fun _ => rfl, fun _ _ => rfl, fun _ => id⟩
    (State.Spares.trans (State.addStockHold_spares _ p .noStock) ⟨fun _ => rfl, fun _ _ => rfl, fun _ => id⟩)

theorem State.lowStockCrossing_notes (s : State) (p : Printer) (before after : Nat) :
    s.Notes (s.lowStockCrossing p before after) := by
  unfold State.lowStockCrossing
  dsimp only
  split
  · exact State.raise_notes s _
  · exact .refl s

theorem State.giveSerial_spares (s : State) (p : Printer) (b : Batch) : s.Spares (s.giveSerial p b) p := by
  have given : s.Spares (s.setLoaded p (some b.give)) p := ⟨fun _ => rfl, fun _ _ => rfl, fun _ => id⟩
  unfold State.giveSerial
  dsimp only
  refine State.Spares.trans ?_ ((State.lowStockCrossing_notes _ p _ _).aside.spares p)
  split
  · exact given.trans (State.exhaust_spares _ p _)
  · exact given

/-! ### An entry and its job -/

/-- The ticket entry at a place, in the window. -/
theorem State.ticketAt_eq_some {s : State} {p : Printer} {k : Nat} {e : Entry} {j : JobNumber} {job : Job}
    (h : s.ticketAt p k = some (e, j, job)) : ∃ older younger t, (s.ports.at p).entries = older ++ e :: younger ∧
      older.length = k ∧ e.ticket = some t ∧ t.job = j ∧ s.jobs.at j = some job := by
  unfold State.ticketAt at h
  simp only [bind, Option.bind_eq_some_iff, pure, Option.some.injEq, Prod.mk.injEq] at h
  obtain ⟨e', at_, t, ticket, x, record, rfl, rfl, rfl⟩ := h
  obtain ⟨lt, rfl⟩ := List.getElem?_eq_some_iff.mp at_
  refine ⟨(s.ports.at p).entries.take k, (s.ports.at p).entries.drop (k + 1), t, ?_, ?_, ticket, rfl, record⟩
  · rw [List.getElem_cons_drop, List.take_append_drop]
  · exact List.length_take_of_le (Nat.le_of_lt lt)

/-- An entry of a window and the job that it sends. -/
structure State.Shows (s : State) (p : Printer) (older : List Entry) (e : Entry) (younger : List Entry) (t : TicketPart)
    (job : Job) : Prop where
  window : (s.ports.at p).entries = older ++ e :: younger
  ticket : e.ticket = some t
  record : s.jobs.at t.job = some job

theorem State.NamesTicket.shows {s : State} {p : Printer} {body : List Byte} {older : List Entry} {e : Entry}
    {younger : List Entry} {t : TicketPart} {job : Job} (h : s.NamesTicket p body older e younger t job) :
    s.Shows p older e younger t job := ⟨h.toNames.window, h.ticket, h.job⟩

theorem State.Shows.ticketAt {s : State} {p : Printer} {older : List Entry} {e : Entry} {younger : List Entry}
    {t : TicketPart} {job : Job} (h : s.Shows p older e younger t job) :
    s.ticketAt p older.length = some (e, t.job, job) := by
  unfold State.ticketAt
  rw [h.window]
  simp [h.ticket, h.record]

theorem State.Shows.job? {s : State} {p : Printer} {older : List Entry} {e : Entry} {younger : List Entry}
    {t : TicketPart} {job : Job} (h : s.Shows p older e younger t job) : e.job? = some t.job := by
  unfold Entry.job?; rw [h.ticket]; rfl

/-- What the pool says of an entry's job. -/
theorem State.Shows.placed {s : State} {p : Printer} {older : List Entry} {e : Entry} {younger : List Entry}
    {t : TicketPart} {job : Job} (h : s.Shows p older e younger t job) (pool : s.PoolPlaced) :
    job.printer = p ∧ job.state = e.phase.job ∧ job.image = some e.image ∧ job.tabled ∧ (∀ q, t.job ∉ s.queues.at q) ∧
      (∀ q, q ≠ p → s.marks q t.job = []) ∧ s.links t.job = 0 ∧ marksOf older t.job = [] ∧ marksOf younger t.job = [] := by
  have marks : (e.image, e.phase) ∈ s.marks p t.job :=
    (mem_marksOf _ _ _).mpr ⟨e, by rw [h.window]; simp, h.job?, rfl⟩
  obtain ⟨x, record, at_, _, _, queues, others, links, tabled⟩ := (pool.jobs t.job).sent (List.ne_nil_of_mem marks)
  obtain ⟨state, image⟩ := (pool.jobs t.job).marked p _ marks x record
  rw [h.record] at record
  cases record
  have single := pool.single p
  rw [h.window, List.filterMap_append, List.filterMap_cons_some h.job?, List.nodup_append] at single
  obtain ⟨_, rest, apart⟩ := single
  refine ⟨at_, state, image, tabled, queues, others, links, marksOf_eq_nil fun m => ?_, marksOf_eq_nil ?_⟩
  · exact apart _ m _ List.mem_cons_self rfl
  · exact (List.nodup_cons.mp rest).1

/-- A change of an entry that keeps its number and its job. -/
structure Entry.Rewritten (e f : Entry) : Prop where
  image : f.image = e.image
  job : f.job? = e.job?

theorem Entry.Rewritten.ticket {e f : Entry} (h : e.Rewritten f) (g : f.ticket ≠ none) : e.ticket ≠ none := by
  have := h.job
  unfold Entry.job? at this
  intro k
  rw [k] at this
  simp only [Option.map_none, Option.map_eq_none_iff] at this
  exact g this

/-- The port with an entry of its window rewritten. -/
theorem Port.Tame.of_rewritten {x : Port} {older younger : List Entry} {e f : Entry}
    (window : x.entries = older ++ e :: younger) (h : e.Rewritten f) :
    x.Tame { x with entries := older ++ f :: younger } := by
  refine ⟨fun ⟨a, b, c, d, l, n, m⟩ => ⟨a, b, c, d, ?_, fun g => absurd (n g) (by rw [window]; simp), m⟩, ?_,
    fun g m k => ?_, Nat.le_refl _, Or.inl rfl, id⟩
  · rw [window] at l
    simpa using l
  · rw [window]
    simp [h.image]
  · rw [window]
    rcases List.mem_append.mp m with m | m
    · exact ⟨g, by simp [m], k⟩
    · rcases List.mem_cons.mp m with rfl | m
      · exact ⟨e, by simp, h.ticket k⟩
      · exact ⟨g, by simp [m], k⟩

/-- An entry is rewritten with its job's record. -/
theorem State.PoolPlaced.of_rewritten {s t : State} {p : Printer} {older younger : List Entry} {e f : Entry}
    {ticket : TicketPart} {job y : Job} (pool : s.PoolPlaced) (shows_ : s.Shows p older e younger ticket job)
    (h : e.Rewritten f) (ports : t.ports = s.ports.put p { s.ports.at p with entries := older ++ f :: younger })
    (jobs : t.jobs = s.jobs.put ticket.job (some y)) (queues : t.queues = s.queues) (links : ∀ j, t.links j = s.links j)
    (printer : y.printer = job.printer) (image : y.image = job.image) (state : y.state = f.phase.job) (tabled : y.tabled) :
    t.PoolPlaced := by
  obtain ⟨at_, _, img, _, out, others, none_, before, after⟩ := shows_.placed pool
  have fjob : f.job? = some ticket.job := h.job.trans shows_.job?
  have marks : ∀ q j, t.marks q j = if p = q then marksOf (older ++ f :: younger) j else s.marks q j := fun q j => by
    unfold State.marks
    rw [ports, Vector.at_put]
    split <;> rfl
  refine ⟨fun j => ?_, fun q => by rw [queues]; exact pool.once q, fun q => ?_⟩
  · by_cases own : j = ticket.job
    · subst own
      have record : t.jobs.at ticket.job = some y := by rw [jobs, Vector.at_put_same]
      have mine : t.marks p ticket.job = [(f.image, f.phase)] := by
        rw [marks, if_pos rfl, marksOf_append, marksOf_cons, if_pos fjob, before, after]
        rfl
      have sent : y.state ≠ .queued ∧ y.state ≠ .presented := by
        rw [state]; cases f.phase <;> exact ⟨JobState.noConfusion, JobState.noConfusion⟩
      refine ⟨fun q => ?_, fun q => ?_, fun q m g x k => ?_, ?_, fun x k => ?_⟩
      · rw [queues, record]
        exact ⟨fun m => absurd m (out q), fun ⟨x, k, _, n⟩ => absurd n (by cases k; exact sent.1)⟩
      · rw [record]
        by_cases e : p = q
        · subst e
          rw [mine]
          exact ⟨fun _ => ⟨y, rfl, printer.trans at_, sent.1, sent.2⟩, fun _ => by simp⟩
        · rw [marks, if_neg e, others q (Ne.symm e)]
          refine ⟨fun n => absurd rfl n, fun ⟨x, k, at', _⟩ => ?_⟩
          cases k
          exact absurd (at_.symm.trans (printer.symm.trans at')) e
      · rw [record] at k
        cases k
        by_cases e : p = q
        · subst e
          rw [mine, List.mem_singleton] at g
          rw [g, image, img, h.image]
          exact ⟨state, rfl⟩
        · rw [marks, if_neg e, others q (Ne.symm e)] at g
          cases g
      · rw [links, none_, record]
        simp [sent.2]
      · rw [record] at k
        cases k
        exact tabled
    · refine (pool.jobs j).congr (by rw [jobs, Vector.at_put_other _ _ (Ne.symm own)]) (fun q => by rw [queues])
        (fun q => ?_) (links j)
      rw [marks]
      split
      · rename_i e
        subst e
        unfold State.marks
        rw [shows_.window]
        have a : ¬ f.job? = some j := by rw [fjob]; exact fun k => own (Option.some.inj k).symm
        have b : ¬ e.job? = some j := by rw [shows_.job?]; exact fun k => own (Option.some.inj k).symm
        simp only [marksOf_append, marksOf_cons, if_neg a, if_neg b]
      · rfl
  · rw [ports, Vector.at_put]
    split
    · rename_i e
      subst e
      have single := pool.single p
      rw [shows_.window] at single
      simpa [List.filterMap_append, List.filterMap_cons, h.job] using single
    · exact pool.single q

theorem State.updateEntry_eq (s : State) (p : Printer) (older younger : List Entry) (e : Entry) (f : Entry → Entry)
    (window : (s.ports.at p).entries = older ++ e :: younger) :
    s.updateEntry p older.length f = s.setPort p { s.ports.at p with entries := older ++ f e :: younger } := by
  unfold State.updateEntry State.updatePort
  dsimp only
  rw [window, modify_at_place]

theorem State.rewrite_calm (s t : State) {p : Printer} {older younger : List Entry} {e f : Entry}
    (window : (s.ports.at p).entries = older ++ e :: younger) (same : e.Rewritten f) (phase : t.phase = s.phase)
    (printers : t.store.tables.printers = s.store.tables.printers) (sent : t.sent = s.sent)
    (ports : t.ports = s.ports.put p { s.ports.at p with entries := older ++ f :: younger }) : s.Calm t :=
  .of_port phase printers sent ports (.of_rewritten window same)

/-- An entry is rewritten, and the places that it gives up are used or returned. -/
theorem State.RoomHeld.of_rewritten {s t : State} (h : s.RoomHeld) {p : Printer} {older younger : List Entry} {e f : Entry}
    (window : (s.ports.at p).entries = older ++ e :: younger)
    (ports : t.ports = s.ports.put p { s.ports.at p with entries := older ++ f :: younger })
    (room : t.journal.queue.length + t.journal.reserved ≤ 32)
    (reserved : t.journal.reserved + e.places = s.journal.reserved + f.places) (held : e.held → f.held) :
    t.RoomHeld := by
  refine h.of_port ports room ?_ fun g m => ?_
  · unfold Port.places
    rw [window]
    simp only [List.map_append, List.map_cons, List.sum_append, List.sum_cons]
    omega
  · have old := fun g m => h.entries p g m
    rw [window] at old
    rcases List.mem_append.mp m with m | m
    · exact old g (by simp [m])
    · rcases List.mem_cons.mp m with rfl | m
      · exact held (old e (by simp))
      · exact old g (by simp [m])

/-- A calm change while the controller runs, after what keeps the limits. -/
theorem State.KeptAll.calm_step {s g t : State} (a : s.KeptAll g) (running : s.phase = .running) (calm : g.Calm t)
    (room : g.ticketsPlaced → g.RoomHeld → t.RoomHeld) (claims : g.journal.claims.Nodup → t.journal.claims.Nodup)
    (pool : s.ticketsPlaced → s.PoolPlaced → g.PoolPlaced → t.PoolPlaced) : s.KeptAll t where
  toKept := a.toKept.trans (.of_calm calm (fun n => absurd (a.running running) n) (fun _ => room) claims)
  pool e p h := pool p h (a.pool e p h)
  audit p h := calm.auditSound (a.audit p h)

end Sys2Proof.Machine
end

