-- ==== Sys2Proof/Proofs/LimitsTickets.lean ====
section
/-! SUPPORT. Feeds, prints, presentations and jams keep the limits. -/

namespace Sys2Proof.Machine

/-! ### Feeds and prints (R55 to R57) -/

theorem State.Shows.phaseAt {s : State} {p : Printer} {older : List Entry} {e : Entry} {younger : List Entry}
    {t : TicketPart} {job : Job} (h : s.Shows p older e younger t job) :
    (s.ports.at p).phaseAt older.length = some e.phase := by
  unfold Port.phaseAt
  rw [h.window]
  simp

/-- The ticket entry at a place, as the window shows it. -/
theorem State.ticketAt_shows {s : State} {p : Printer} {k : Nat} {e : Entry} {j : JobNumber} {job : Job}
    (h : s.ticketAt p k = some (e, j, job)) :
    ∃ older younger t, s.Shows p older e younger t job ∧ older.length = k ∧ t.job = j := by
  obtain ⟨older, younger, t, window, length, ticket, rfl, record⟩ := State.ticketAt_eq_some h
  exact ⟨older, younger, t, ⟨window, ticket, record⟩, length, rfl⟩

theorem Entry.Rewritten.of_phase (e : Entry) (ph : EntryPhase) : e.Rewritten { e with phase := ph } := ⟨rfl, rfl⟩

/-- The entry and its job after jobs of the queue were considered. -/
theorem State.Spares.shows {s g : State} {p : Printer} (a : s.Spares g p) {older younger : List Entry} {e : Entry}
    {t : TicketPart} {job : Job} (h : s.Shows p older e younger t job) (pool : s.PoolPlaced) :
    g.Shows p older e younger t job := by
  obtain ⟨_, _, _, _, out, _⟩ := h.placed pool
  exact ⟨(a.entries p).trans h.window, h.ticket, (a.jobs _ (out p)).trans h.record⟩

theorem State.takeFeed_kept {s₀ s : State} (h : s₀.KeptAll s) (running : s₀.phase = .running) (p : Printer) (k : Nat)
    (sent : (s.ports.at p).phaseAt k = some .sent) : s₀.KeptAll (s.takeFeed p k) := by
  unfold State.takeFeed
  split
  · exact h
  · rename_i e j job at_
    obtain ⟨older, younger, t, shows_, rfl, rfl⟩ := State.ticketAt_shows at_
    have ph : e.phase = .sent := Option.some.inj (shows_.phaseAt.symm.trans sent)
    split
    · rename_i b _
      dsimp only
      have spares := State.giveSerial_spares s p b
      have window := (spares.entries p).trans shows_.window
      refine State.transmit_kept ?_ _ _ rfl
      rw [State.updateEntry_eq _ p older younger e _ window]
      refine h.trans (State.KeptAll.calm_step (g := s.giveSerial p b)
        (State.giveSerial_kept (.refl s) p b (h.running running)) (h.running running)
        (State.rewrite_calm _ _ window (.of_phase e .fed) rfl rfl rfl rfl)
        (fun _ r => r.of_rewritten window rfl r.room rfl id) id fun _ pool given => ?_)
      obtain ⟨_, _, img, _⟩ := shows_.placed pool
      exact given.of_rewritten (spares.shows shows_ pool) (.of_phase e .fed) rfl rfl rfl (fun _ => rfl) rfl rfl rfl
        (by simp [Job.tabled, img])
    · exact State.failPort_kept (State.stockMismatch_kept h p) p none

theorem Entry.Rewritten.of_doubleFed (e : Entry) (spent : Nat) :
    e.Rewritten { e with ticket := e.ticket.map fun t => { t with doubleFed := true, places := t.places - spent } } := by
  refine ⟨rfl, ?_⟩
  unfold Entry.job?
  cases e.ticket <;> rfl

theorem State.Hands.calm {s t : State} (a : s.Hands t) : s.Calm t :=
  .of_ports a.phase (by rw [a.store]) a.sent a.ports

/-- A record that answers no job takes a reserved place. -/
theorem State.handOnPlace_links (s : State) (r : JRecord) (link : Link) (j : JobNumber) (other : link ≠ .job j) :
    (s.handOnPlace r link).links j = s.links j :=
  State.links_of_append (State.handOnPlace_effect s r link).2.1 fun q m => by
    rw [List.mem_singleton] at m
    rw [m]; exact other

theorem State.takeDoubleFeed_kept {s₀ s : State} (h : s₀.KeptAll s) (running : s₀.phase = .running) (p : Printer) (k : Nat)
    (allowed : (s.ports.at p).allowsDoubleFed k = true) : s₀.KeptAll (s.takeDoubleFeed p k) := by
  unfold State.takeDoubleFeed
  split
  · exact h
  · rename_i e j job at_
    obtain ⟨older, younger, t, shows_, rfl, rfl⟩ := State.ticketAt_shows at_
    have entry : e.phase = .fed ∧ t.doubleFed = false := by
      unfold Port.allowsDoubleFed at allowed
      rw [shows_.phaseAt, shows_.window] at allowed
      simpa [shows_.ticket] using allowed
    obtain ⟨ph, single⟩ := entry
    dsimp only
    have running := h.running running
    split
    · rename_i b _
      have spares := State.giveSerial_spares s p b
      have window := (spares.entries p).trans shows_.window
      rw [State.updateEntry_eq _ p older younger e _ window]
      obtain ⟨hands, queue, reserved⟩ := State.handOnPlace_effect
        (((s.giveSerial p b).setPort p { (s.giveSerial p b).ports.at p with
          entries := older ++ { e with ticket := e.ticket.map fun t => { t with doubleFed := true, places := t.places - 1 } } ::
            younger }).setJob t.job (some { job with spare := some b.next }))
        (spoilRecord .doubleFeed job p b.next b.id) .nothing
      have links := fun j => State.handOnPlace_links
        (((s.giveSerial p b).setPort p { (s.giveSerial p b).ports.at p with
          entries := older ++ { e with ticket := e.ticket.map fun t => { t with doubleFed := true, places := t.places - 1 } } ::
            younger }).setJob t.job (some { job with spare := some b.next }))
        (spoilRecord .doubleFeed job p b.next b.id) .nothing j Link.noConfusion
      generalize State.handOnPlace _ _ _ = u at *
      refine h.trans (State.KeptAll.calm_step (g := s.giveSerial p b) (State.giveSerial_kept (.refl s) p b running) running
        (State.rewrite_calm _ _ window (.of_doubleFed e 1) hands.phase (by rw [hands.store]; rfl) hands.sent hands.ports)
        (fun _ r => ?_) (fun g => by rw [hands.claims]; exact g) fun _ pool given => ?_)
      · have held := r.entries p e (by rw [window]; simp) t shows_.ticket
        have two := held.2.2 single
        have room := r.room
        have total := r.reserved
        have part := State.heldPlaces_put (s := s.giveSerial p b)
          (t := (s.giveSerial p b).setPort p { (s.giveSerial p b).ports.at p with entries := [] }) (p := p) rfl
        have mine : e.places ≤ ((s.giveSerial p b).ports.at p).places := by
          unfold Port.places
          rw [window]
          simp
          omega
        have places : e.places = 2 := by unfold Entry.places; rw [shows_.ticket]; exact two
        have empty : ({ (s.giveSerial p b).ports.at p with entries := [] } : Port).places = 0 := rfl
        rw [empty] at part
        simp only [State.setJob_journal, State.setPort_journal] at queue reserved
        refine r.of_rewritten window hands.ports ?_ ?_ fun _ => ?_
        · rw [queue, reserved, List.length_append, List.length_singleton]
          omega
        · rw [reserved, places, shows_.ticket]
          simp only [Entry.places, Option.map_some, Option.getD_some, two]
          omega
        · intro t' m
          rw [shows_.ticket] at m
          cases m
          refine ⟨?_, ?_, fun n => by cases n⟩ <;> dsimp only <;> omega
      · obtain ⟨_, st, img, tab, _⟩ := shows_.placed pool
        exact given.of_rewritten (spares.shows shows_ pool) (.of_doubleFed e 1) hands.ports hands.jobs hands.queues links
          rfl rfl st tab
    · apply State.stockMismatch_kept
      rw [State.updateEntry_eq _ p older younger e _ shows_.window]
      refine h.trans (State.KeptAll.calm_step (.refl s) running
        (State.rewrite_calm _ _ shows_.window (.of_doubleFed e 0) rfl rfl rfl rfl) (fun _ r => ?_) id fun _ pool _ => ?_)
      · have held := r.entries p e (by rw [shows_.window]; simp) t shows_.ticket
        refine r.of_rewritten shows_.window rfl r.room ?_ fun _ t' m => ?_
        · simp [Entry.places, shows_.ticket]
        · rw [shows_.ticket] at m
          cases m
          exact ⟨held.1, held.2.1, fun n => by cases n⟩
      · obtain ⟨_, st, img, tab, _⟩ := shows_.placed pool
        refine pool.of_rewritten shows_ (.of_doubleFed e 0) rfl (y := job) ?_ rfl (fun _ => rfl) rfl rfl st tab
        show s.jobs = _
        rw [← shows_.record, Vector.put_at]

theorem State.takePrint_kept {s₀ s : State} (h : s₀.KeptAll s) (running : s₀.phase = .running) (p : Printer) (k : Nat)
    (fed : (s.ports.at p).phaseAt k = some .fed) : s₀.KeptAll (s.takePrint p k) := by
  unfold State.takePrint
  split
  · exact h
  · rename_i e j job at_
    obtain ⟨older, younger, t, shows_, rfl, rfl⟩ := State.ticketAt_shows at_
    have ph : e.phase = .fed := Option.some.inj (shows_.phaseAt.symm.trans fed)
    rw [State.updateEntry_eq _ p older younger e _ shows_.window]
    refine h.trans (State.KeptAll.calm_step (.refl s) (h.running running)
      (State.rewrite_calm _ _ shows_.window (.of_phase e .printed) rfl rfl rfl rfl)
      (fun _ r => r.of_rewritten shows_.window rfl r.room rfl id) id fun _ pool _ => ?_)
    obtain ⟨_, st, img, tab, _⟩ := shows_.placed pool
    refine pool.of_rewritten shows_ (.of_phase e .printed) rfl rfl rfl (fun _ => rfl) rfl rfl rfl ?_
    rw [ph] at st
    have serial : job.serial ≠ none := fun n => by
      have := tab.2.mp n
      rw [st] at this
      simp [EntryPhase.job] at this
    exact ⟨by simp [img], by simp [serial]⟩

end Sys2Proof.Machine
end

