-- ==== Sys2Proof/Proofs/LimitsPresented.lean ====
section
/-! SUPPORT. Presentations, jams and the reports of roll ports keep the limits. -/

namespace Sys2Proof.Machine

/-! ### Presentations (R57, R64) -/

/-- An audit line joins the audit queue, or the state stands (R64). -/
theorem State.handLine_cases (s : State) (source a : Printer) (line : Text) :
    (s.handLine source a line = s) ∨
    (s.handLine source a line = s.setPort a { s.ports.at a with audit := (s.ports.at a).audit ++ [line] } ∧
      ((s.printerEntry source).auditRequired = true ∨ (s.ports.at a).audit.length < 64)) := by
  unfold State.handLine
  dsimp only
  split
  · rename_i takes
    refine Or.inr ⟨rfl, ?_⟩
    simp only [Bool.or_eq_true, Bool.and_eq_true, decide_eq_true_eq] at takes
    exact takes.imp id And.right
  · exact Or.inl rfl

/-- Only an audit queue changes. -/
theorem State.setAudit_keptPool (s : State) (a : Printer) (lines : List Text) :
    s.KeptPool (s.setPort a { s.ports.at a with audit := lines }) := by
  have entries : ∀ q, ((s.setPort a { s.ports.at a with audit := lines }).ports.at q).entries = (s.ports.at q).entries := by
    intro q
    rw [State.setPort_ports, Vector.at_put]
    split
    · rename_i e; subst e; rfl
    · rfl
  have other : ∀ q, ∃ l, (s.setPort a { s.ports.at a with audit := lines }).ports.at q = { s.ports.at q with audit := l } := by
    intro q
    rw [State.setPort_ports, Vector.at_put]
    split
    · rename_i e; subst e; exact ⟨lines, rfl⟩
    · exact ⟨_, rfl⟩
  have sent : s.itemsSent (s.setPort a { s.ports.at a with audit := lines }) = fun _ => [] := by
    funext q
    exact State.itemsSent_of_append (ms := []) (by simp) q
  refine ⟨⟨rfl, fun _ h => ⟨h.queue, h.reserved, h.claims, h.jobs, h.queues, fun q e m => h.tickets q e (entries q ▸ m)⟩,
    fun h q e m => h q e (entries q ▸ m), fun _ _ h => h.congr rfl rfl entries, id, fun h q => ?_, fun q => ?_⟩,
    fun _ _ h => h.congr rfl rfl entries fun _ => rfl⟩
  · obtain ⟨l, e⟩ := other q
    rw [e]
    exact h q
  · obtain ⟨l, e⟩ := other q
    have same : ((s.setPort a { s.ports.at a with audit := lines }).ports.at q).nextImage = (s.ports.at q).nextImage := by
      rw [e]
    refine ⟨List.prefix_rfl, fun k n g => ?_, ?_, Or.inl ?_, fun g => ⟨by rw [sent], ?_⟩⟩
    · rw [sent] at g; cases g
    · rw [sent, List.append_nil]
      unfold State.images
      rw [entries]
    · rw [sent, same]
      have := (s.ports.at q).nextImage.isLt
      simp only [List.length_nil]
      omega
    · rw [e]; exact g

theorem State.auditPort_some {s : State} {p a : Printer} (h : s.auditPort p = some a) :
    s.function a = .audit ∧ (s.printerEntry a).auditSource = p := by
  have := List.find?_some h
  simpa using this

/-- The state once an entry's image is presented, before its audit line (R10, R57). -/
def State.present (s : State) (p : Printer) (k : Nat) (t : TicketPart) (job : Job) (record : JRecord) : State :=
  (((s.setJob t.job (some { job with state := .presented, image := none })).updatePort p fun x =>
    { x with entries := x.entries.eraseIdx k }).handOnPlace record (.job t.job)).releasePlaces (t.places - 1)

theorem State.takePresent_eq {s : State} {p : Printer} {older younger : List Entry} {e : Entry} {t : TicketPart}
    {job : Job} (h : s.Shows p older e younger t job) {serial batch : Nat} (given : job.serial = some (serial, batch)) :
    s.takePresent p older.length =
      let v := s.present p older.length t job (presentedRecord job p serial batch)
      match v.auditPort p with
      | some a => v.handLine p a (auditLine job (v.clerkOf job.session) serial)
      | none => v := by
  unfold State.takePresent State.present
  simp only [h.ticketAt, h.ticket]
  split
  · simp_all
  · rename_i serial' batch' g
    obtain ⟨rfl, rfl⟩ : serial' = serial ∧ batch' = batch := by simpa [given] using g.symm
    rfl

/-- A presentation before its audit line, field by field. -/
theorem State.present_effect (s : State) {p : Printer} {older younger : List Entry} {e : Entry} {t : TicketPart}
    {job : Job} (window : (s.ports.at p).entries = older ++ e :: younger) (record : JRecord) :
    let v := s.present p older.length t job record
    v.phase = s.phase ∧ v.store = s.store ∧ v.sent = s.sent ∧ v.queues = s.queues ∧
      v.journal.claims = s.journal.claims ∧ v.jobs = s.jobs.put t.job (some { job with state := .presented, image := none }) ∧
      v.ports = s.ports.put p { s.ports.at p with entries := older ++ younger } ∧
      v.journal.queue = s.journal.queue ++ [{ record, link := .job t.job }] ∧
      v.journal.reserved = s.journal.reserved - 1 - (t.places - 1) ∧ v.stock = s.stock ∧ v.office = s.office ∧
      v.monitor = s.monitor := by
  intro v
  have erased : (older ++ e :: younger).eraseIdx older.length = older ++ younger := by simp [List.eraseIdx_append]
  obtain ⟨hands, queue, reserved⟩ := State.handOnPlace_effect ((s.setJob t.job (some { job with
    state := .presented, image := none })).updatePort p fun x => { x with entries := x.entries.eraseIdx older.length })
    record (.job t.job)
  have last : v = (State.handOnPlace ((s.setJob t.job (some { job with
    state := .presented, image := none })).updatePort p fun x => { x with entries := x.entries.eraseIdx older.length })
    record (.job t.job)).releasePlaces (t.places - 1) := rfl
  generalize State.handOnPlace _ record (.job t.job) = u at *
  rw [last]
  refine ⟨hands.phase, hands.store, hands.sent, hands.queues, hands.claims, hands.jobs, ?_, queue, ?_, hands.stock,
    hands.office, hands.monitor⟩
  · show u.ports = _
    rw [hands.ports, State.updatePort_ports]
    show s.ports.put p { s.ports.at p with entries := (s.ports.at p).entries.eraseIdx older.length } = _
    rw [window, erased]
  · show u.journal.reserved - _ = _
    rw [reserved]
    rfl

theorem State.present_kept (s : State) (running : s.phase = .running) {p : Printer} {older younger : List Entry} {e : Entry}
    {t : TicketPart} {job : Job} (h : s.Shows p older e younger t job) (serial : job.serial ≠ none) (record : JRecord) :
    s.KeptAll (s.present p older.length t job record) := by
  obtain ⟨phase, store, sent, queues, claims, jobs, ports, queue, reserved, _⟩ :=
    s.present_effect (t := t) (job := job) h.window record
  generalize s.present p older.length t job record = v at *
  have mem : ∀ g ∈ older ++ younger, g ∈ (s.ports.at p).entries := fun g m => by
    rw [h.window]
    rcases List.mem_append.mp m with m | m <;> simp [m]
  have tame : (s.ports.at p).Tame { s.ports.at p with entries := older ++ younger } := by
    refine ⟨fun ⟨a, b, c, d, l, n, m⟩ => ⟨a, b, c, d, ?_, fun g => absurd (n g) (by rw [h.window]; simp), m⟩, ?_,
      fun g m k => ⟨g, mem g m, k⟩, Nat.le_refl _, Or.inl rfl, id⟩
    · rw [h.window] at l
      simp only [List.length_append, List.length_cons] at l ⊢
      omega
    · rw [h.window]
      exact ((List.Sublist.refl older).append (List.sublist_cons_self e younger)).map _
  refine .of_running running (.of_port phase (by rw [store]) sent ports tame) (fun _ r => ?_) (fun g => by rw [claims]; exact g)
    fun _ pool => ?_
  · have held := r.entries p e (by rw [h.window]; simp) t h.ticket
    have room := r.room
    have total := r.reserved
    have part := State.heldPlaces_put ports
    have places : e.places = t.places := by unfold Entry.places; rw [h.ticket]; rfl
    have split : (s.ports.at p).places = t.places + ({ s.ports.at p with entries := older ++ younger } : Port).places := by
      unfold Port.places
      rw [h.window]
      simp only [List.map_append, List.map_cons, List.sum_append, List.sum_cons, places]
      omega
    refine r.of_port ports ?_ ?_ fun g m => r.entries p g (mem g m)
    · rw [queue, reserved, List.length_append, List.length_singleton]
      omega
    · rw [reserved]
      omega
  · obtain ⟨_, _, _, _, out, others, none_, before, after⟩ := h.placed pool
    have marks : ∀ q j, v.marks q j = if p = q then marksOf (older ++ younger) j else s.marks q j := fun q j => by
      unfold State.marks
      rw [ports, Vector.at_put]
      split <;> rfl
    have links : ∀ j, v.links j = s.links j + if t.job = j then 1 else 0 := fun j => by
      unfold State.links
      rw [queue, List.countP_append, List.countP_singleton]
      simp
    refine ⟨fun j => ?_, fun q => by rw [queues]; exact pool.once q, fun q => ?_⟩
    · by_cases own : t.job = j
      · subst own
        have record : v.jobs.at t.job = some { job with state := .presented, image := none } := by
          rw [jobs, Vector.at_put_same]
        have gone : ∀ q, v.marks q t.job = [] := fun q => by
          rw [marks]
          split
          · rw [marksOf_append, before, after]; rfl
          · rename_i k; exact others q (Ne.symm k)
        refine ⟨fun q => ?_, fun q => ?_, fun q m g => ?_, ?_, fun x k => ?_⟩
        · rw [queues, record]
          simp [out q]
        · rw [gone, record]
          simp
        · rw [gone] at g; cases g
        · rw [links, none_, record]
          simp
        · rw [record] at k
          cases k
          exact ⟨by simp, by simp [serial]⟩
      · refine (pool.jobs j).congr (by rw [jobs, Vector.at_put_other _ _ own]) (fun q => by rw [queues]) (fun q => ?_)
          (by rw [links, if_neg own]; rfl)
        rw [marks]
        split
        · rename_i k
          subst k
          unfold State.marks
          have b : ¬ e.job? = some j := by rw [h.job?]; exact fun k => own (Option.some.inj k)
          rw [h.window]
          simp only [marksOf_append, marksOf_cons, if_neg b, List.nil_append]
        · rfl
    · rw [ports, Vector.at_put]
      split
      · rename_i k
        subst k
        have single := pool.single p
        rw [h.window] at single
        exact single.sublist (((List.Sublist.refl older).append (List.sublist_cons_self e younger)).filterMap _)
      · exact pool.single q

/-- Presenting an image keeps the limits: its line takes the room that its entry leaves (R66). -/
theorem State.takePresent_kept {s₀ s : State} (h : s₀.KeptAll s) (running : s₀.phase = .running) (p : Printer) (k : Nat)
    (ticket : s.function p = .ticket) : s₀.KeptAll (s.takePresent p k) := by
  cases at_ : s.ticketAt p k with
  | none => unfold State.takePresent; rw [at_]; exact h
  | some x =>
    obtain ⟨e, j, job⟩ := x
    obtain ⟨older, younger, t, shows_, rfl, rfl⟩ := State.ticketAt_shows at_
    cases given : job.serial with
    | none =>
      unfold State.takePresent
      rw [at_]
      dsimp only
      rw [given]
      exact h
    | some sb =>
      obtain ⟨serial, batch⟩ := sb
      refine h.trans ?_
      rw [State.takePresent_eq shows_ given]
      have kept := s.present_kept (h.running running) shows_ (by rw [given]; exact nofun) (presentedRecord job p serial batch)
      obtain ⟨_, store, _, _, _, _, ports, _⟩ :=
        s.present_effect (t := t) (job := job) shows_.window (presentedRecord job p serial batch)
      generalize s.present p older.length t job (presentedRecord job p serial batch) = v at *
      dsimp only
      split
      · rename_i a named
        rcases State.handLine_cases v p a (auditLine job (v.clerkOf job.session) serial) with same | ⟨same, room⟩
        · rw [same]; exact kept
        · rw [same]
          refine ⟨kept.toKeptPool.trans (State.setAudit_keptPool v a _), fun _ g => ?_⟩
          have printers : v.store.tables.printers = s.store.tables.printers := by rw [store]
          have entry : ∀ q, v.printerEntry q = s.printerEntry q := fun q => by unfold State.printerEntry; rw [printers]
          have port : ∀ q, v.auditPort q = s.auditPort q := State.auditPort_congr printers
          have function : ∀ q, v.function q = s.function q := fun q => by unfold State.function; rw [entry]
          obtain ⟨isAudit, source⟩ := State.auditPort_some named
          have apart : p ≠ a := fun k => by
            rw [function, ← k, ticket] at isAudit; cases isAudit
          have entries : ∀ q, (v.ports.at q).entries.length + (if p = q then 1 else 0) = (s.ports.at q).entries.length := by
            intro q
            rw [ports, Vector.at_put]
            split
            · rename_i k
              subst k
              rw [shows_.window]
              simp only [List.length_append, List.length_cons]
              omega
            · rfl
          have queue : ∀ q, (v.ports.at q).audit = (s.ports.at q).audit := by
            intro q
            rw [ports, Vector.at_put]
            split
            · rename_i k; subst k; rfl
            · rfl
          have lines : ∀ q, ((v.setPort a { v.ports.at a with
              audit := (v.ports.at a).audit ++ [auditLine job (v.clerkOf job.session) serial] }).ports.at q).audit.length =
              (s.ports.at q).audit.length + if a = q then 1 else 0 := by
            intro q
            rw [State.setPort_ports, Vector.at_put]
            split
            · rename_i k; subst k; simp [queue]
            · simp [queue]
          have windows : ∀ q, ((v.setPort a { v.ports.at a with
              audit := (v.ports.at a).audit ++ [auditLine job (v.clerkOf job.session) serial] }).ports.at q).entries =
              (v.ports.at q).entries := by
            intro q
            rw [State.setPort_ports, Vector.at_put]
            split
            · rename_i k; subst k; rfl
            · rfl
          have mine : (s.printerEntry p).auditRequired = true →
              (s.ports.at a).audit.length + (s.ports.at p).entries.length ≤ 64 := fun r =>
            (g a).2 p ticket r (port p ▸ named)
          intro b
          refine ⟨?_, fun q f r n => ?_⟩
          · rw [lines]
            have old := (g b).1
            simp only [Config.auditQueueLines] at old ⊢
            split
            · rename_i k
              subst k
              rcases room with room | room
              · have := mine (entry p ▸ room)
                have := entries p
                rw [if_pos rfl] at this
                omega
              · rw [queue] at room
                omega
            · omega
          · have named' : s.auditPort q = some b := port q ▸ n
            have old := (g b).2 q (function q ▸ f) (entry q ▸ r) named'
            unfold State.auditLoad at old ⊢
            simp only [Config.auditQueueLines] at old ⊢
            rw [lines, windows]
            have count := entries q
            split
            · rename_i k
              subst k
              have own : q = p := (State.auditPort_some named').2.symm.trans ((entry a ▸ source))
              rw [if_pos own.symm] at count
              omega
            · omega
      · exact kept

/-! ### Jams (R16, R58) -/

/-- A job's record changes in what no place depends on. -/
theorem State.setJob_kept {s₀ s : State} (h : s₀.KeptAll s) {j : JobNumber} {x y : Job} (record : s.jobs.at j = some x)
    (printer : y.printer = x.printer) (state : y.state = x.state) (image : y.image = x.image) (serial : y.serial = x.serial)
    (running : s₀.phase = .running) : s₀.KeptAll (s.setJob j (some y)) := by
  refine h.trans (.of_running (h.running running) (.of_ports rfl rfl rfl rfl) (fun _ r => r.congr rfl rfl fun _ => rfl) id
    fun _ pool => ⟨fun i => ?_, pool.once, pool.single⟩)
  by_cases own : j = i
  · subst own
    have now : (s.setJob j (some y)).jobs.at j = some y := Vector.at_put_same _ _ _
    have old := pool.jobs j
    refine ⟨fun p => ?_, fun p => ?_, fun p m g z k => ?_, ?_, fun z k => ?_⟩
    · rw [now]
      simpa [record, printer, state] using old.queued p
    · rw [now]
      show s.marks p j ≠ [] ↔ _
      simpa [record, printer, state] using old.outstanding p
    · rw [now] at k
      cases k
      rw [state, image]
      exact old.marked p m g x record
    · rw [now]
      show s.links j = _
      simpa [record, state] using old.presented
    · rw [now] at k
      cases k
      have := old.fields x record
      unfold Job.tabled at this ⊢
      rw [image, serial, state]
      exact this
  · exact (pool.jobs i).congr (Vector.at_put_other _ _ own) (fun _ => Iff.rfl) (fun _ => rfl) rfl

theorem State.moveJob_kept {s₀ s : State} (h : s₀.KeptAll s) (running : s₀.phase = .running) (j : JobNumber) (job : Job)
    (q : Printer) (front : Bool) (record : s.jobs.at j = some job) (queued : job.state = .queued) :
    s₀.KeptAll (s.moveJob j job q front) :=
  h.trans (.of_running (h.running running) (State.moveJob_moves s j job q front).sorts.calm
    (fun _ r => r.congr rfl rfl fun _ => rfl) id fun _ pool => State.moveJob_pool s j job q front pool record queued)

theorem State.refuseJob_kept {s₀ s : State} (h : s₀.KeptAll s) (running : s₀.phase = .running) (j : JobNumber) (job : Job)
    (code : AnswerCode) (record : s.jobs.at j = some job) (queued : job.state = .queued) :
    s₀.KeptAll (s.refuseJob j job code) := by
  have sorts := State.refuseJob_sorts s j job code
  exact h.trans (.of_running (h.running running) sorts.calm
    (fun _ r => r.congr (by rw [sorts.queue]) sorts.reserved fun q => by rw [sorts.ports])
    (fun g => by unfold State.refuseJob State.endJob State.jobEnded; exact State.signOffTest_nodup _ _ g) fun _ pool =>
      State.refuseJob_pool s j job code pool record queued)

/-- The jammed job, QUEUED again, stays, moves or is refused (R16). -/
theorem State.settleJammed_kept {s₀ s : State} (h : s₀.KeptAll s) (running : s₀.phase = .running) (p : Printer) (e : Entry)
    (queued : ∀ j job, e.job? = some j → s.jobs.at j = some job → job.state = .queued) :
    s₀.KeptAll (s.settleJammed p e) := by
  unfold State.settleJammed
  split
  · exact h
  · rename_i j named
    split
    · exact h
    · rename_i job record
      have st := queued j job named record
      have again := State.setJob_kept h record (y := { job with retry := job.retry + 1 }) rfl rfl rfl rfl running
      have now : (s.setJob j (some { job with retry := job.retry + 1 })).jobs.at j =
          some { job with retry := job.retry + 1 } := Vector.at_put_same _ _ _
      dsimp only
      split
      · split
        · exact State.moveJob_kept again running j _ _ true now st
        · exact State.refuseJob_kept again running j _ _ now st
      · exact again

/-- The job of an entry that was cut is QUEUED. -/
theorem State.cutWindow_queued (s : State) (p : Printer) (k : Nat) (cause : SpoilCause) {e : Entry}
    (m : e ∈ (s.ports.at p).entries.drop k) {j : JobNumber} {job : Job} (named : e.job? = some j)
    (record : (s.cutWindow p k cause).jobs.at j = some job) : job.state = .queued := by
  rw [State.cutWindow_jobs, if_pos (List.mem_filterMap.mpr ⟨e, m, named⟩), Option.map_eq_some_iff] at record
  obtain ⟨x, _, rfl⟩ := record
  rfl

theorem State.takeJam_kept {s₀ s : State} (h : s₀.KeptAll s) (running : s₀.phase = .running) (p : Printer) (k : Nat) :
    s₀.KeptAll (s.takeJam p k) := by
  have cut := State.cutWindow_kept (State.withdrawClaim_kept h (.engine p)) p k .jam
  rw [State.takeJam_eq]
  apply State.latchJam_kept
  split
  · rename_i e rest window
    refine State.settleJammed_kept cut running p e fun j job named record => ?_
    exact State.cutWindow_queued _ p k .jam (e := e) (by
      show e ∈ (s.ports.at p).entries.drop k
      rw [window]; exact List.mem_cons_self) named record
  · exact cut

/-! ### Roll ports (R65) -/

/-- The window of a port that holds no ticket image shrinks. -/
theorem State.setPort_kept_of_roll {s₀ s : State} (h : s₀.KeptAll s) (running : s₀.phase = .running) (p : Printer) (y : Port)
    (roll : s.function p ≠ .ticket) (entries : y.entries.Sublist (s.ports.at p).entries)
    (slips : y.slips.Sublist (s.ports.at p).slips) (audit : y.audit.length ≤ (s.ports.at p).audit.length)
    (rest : { y with entries := (s.ports.at p).entries, slips := (s.ports.at p).slips, audit := (s.ports.at p).audit } =
      s.ports.at p) : s₀.KeptAll (s.setPort p y) := by
  have state : y.state = (s.ports.at p).state := by rw [← rest]
  have hold : y.hold = (s.ports.at p).hold := by rw [← rest]
  have size : y.window = (s.ports.at p).window := by rw [← rest]
  have next : y.nextImage = (s.ports.at p).nextImage := by rw [← rest]
  have attached : y.attached = (s.ports.at p).attached := by unfold Port.attached; rw [state]
  have tame : (s.ports.at p).Tame y := by
    refine ⟨fun ⟨a, b, c, d, l, n, m⟩ => ⟨by rw [state, hold]; exact a, by rw [state, hold]; exact b, size ▸ c, size ▸ d,
      by rw [size]; exact Nat.le_trans entries.length_le l, fun g => ?_, Nat.le_trans slips.length_le m⟩, entries.map _,
      fun e m k => ⟨e, entries.subset m, k⟩, audit, Or.inl next, fun g => attached.trans g⟩
    rw [n (attached ▸ g)] at entries
    exact List.sublist_nil.mp entries
  have none_ : s.ticketsPlaced → ∀ e ∈ (s.ports.at p).entries, e.ticket = none := fun g e m => by
    by_contra k
    exact roll (g p e m k)
  refine h.trans (.of_running (h.running running) (.of_port rfl rfl rfl rfl tame) (fun g r => ?_) id fun g pool => ?_)
  · have zero : ∀ es : List Entry, es.Sublist (s.ports.at p).entries → (es.map Entry.places).sum = 0 := fun es sub => by
      rw [List.sum_eq_zero_iff_forall_eq_nat]
      intro n m
      obtain ⟨e, me, rfl⟩ := List.mem_map.mp m
      unfold Entry.places
      rw [none_ g e (sub.subset me)]
      rfl
    refine r.of_port rfl r.room ?_ fun e m => r.entries p e (entries.subset m)
    show _ + (List.map Entry.places _).sum = _ + (List.map Entry.places _).sum
    rw [zero _ (.refl _), zero _ entries]
    rfl
  · have unmarked : ∀ es : List Entry, es.Sublist (s.ports.at p).entries → ∀ j, marksOf es j = [] := fun es sub j => by
      refine marksOf_eq_nil fun m => ?_
      obtain ⟨e, me, k⟩ := List.mem_filterMap.mp m
      unfold Entry.job? at k
      rw [none_ g e (sub.subset me)] at k
      cases k
    refine ⟨fun j => (pool.jobs j).congr rfl (fun _ => Iff.rfl) (fun q => ?_) rfl, pool.once, fun q => ?_⟩
    · unfold State.marks
      rw [State.setPort_ports, Vector.at_put]
      split
      · rename_i k
        subst k
        rw [unmarked _ entries, unmarked _ (.refl _)]
      · rfl
    · rw [State.setPort_ports, Vector.at_put]
      split
      · exact (pool.single p).sublist (entries.filterMap _)
      · exact pool.single q

theorem State.takeRollJam_kept {s₀ s : State} (h : s₀.KeptAll s) (running : s₀.phase = .running) (p : Printer) (k : Nat)
    (roll : s.function p ≠ .ticket) : s₀.KeptAll (s.takeRollJam p k) := by
  have cut := State.setPort_kept_of_roll h running p { s.ports.at p with entries := (s.ports.at p).entries.take k } roll
    (List.take_sublist _ _) (.refl _) (Nat.le_refl _) rfl
  exact State.latchJam_kept cut p

theorem State.takeRollPrint_kept {s₀ s : State} (h : s₀.KeptAll s) (running : s₀.phase = .running) (p : Printer)
    (roll : s.function p ≠ .ticket) : s₀.KeptAll (s.takeRollPrint p) := by
  unfold State.takeRollPrint
  refine State.setPort_kept_of_roll h running p _ roll (List.tail_sublist _) ?_ ?_ rfl
  · dsimp only
    split
    · exact List.tail_sublist _
    · exact .refl _
  · dsimp only
    split
    · rw [List.length_tail]; exact Nat.sub_le _ _
    · exact Nat.le_refl _

end Sys2Proof.Machine
end

