-- ==== Sys2Proof/Proofs/RequestsTaken.lean ====
section
/-! SUPPORT. A request that reaches its owner: what it has left in the office link when its owner takes it, when it is
answered at once, and the first checks of a request that needs a journal place (R186 to R188). -/

namespace Sys2Proof.Machine

/-! ### Admission and answers at once -/

theorem State.asks_iff (s : State) (w : Window) (kind : RequestKind) (tag : Byte) (body : List Byte) :
    s.asks w kind tag body = true ↔ s.phase = .running ∧ (s.portEntry w).enabled = true ∧ (s.office.at w).credit < 4 ∧
      (kind.management = true → (s.portEntry w).supervisor = true) ∧
      ∃ f rest, (s.office.at w).buffer = f :: rest ∧ requestKindOf f.kind = some kind ∧ f.tag = tag ∧ f.body = body := by
  unfold State.asks
  cases (s.office.at w).buffer with
  | nil => simp
  | cons f rest =>
    simp only [Bool.and_eq_true, beq_iff_eq, Bool.or_eq_true, Bool.not_eq_true', List.head?_cons,
      Option.any_some, Config.creditLimit, and_assoc]
    constructor
    · rintro ⟨a, b, c, d, e⟩
      exact ⟨a, b, of_decide_eq_true c, fun m => d.resolve_left (by simp [m]), f, rest, rfl, e⟩
    · rintro ⟨a, b, c, d, g, rest', e, k⟩
      cases e
      refine ⟨a, b, decide_eq_true c, ?_, k⟩
      cases m : kind.management
      · exact Or.inl rfl
      · exact Or.inr (d m)

theorem State.admitted_office (s : State) (w : Window) (tag : Byte) :
    (s.admitted w tag).office = s.office.put w { s.office.at w with
      buffer := (s.office.at w).buffer.tail
      unanswered := (s.office.at w).unanswered ++ [{ number := s.nextRequest, tag }] } := rfl

/-- What the owner of an admitted request leaves of the state before it. -/
theorem State.Loud.of_admitted {s u : State} {w : Window} {tag : Byte} (h : (s.admitted w tag).Loud u) :
    s.Keeps u ∧ s.SameBooks u :=
  ⟨State.Keeps.trans (t := s.admitted w tag) ⟨rfl, rfl, rfl, rfl, rfl, rfl, rfl, rfl, rfl, rfl, id, List.prefix_rfl⟩ h.keeps,
    State.SameBooks.trans (t := s.admitted w tag) ⟨fun _ => rfl, rfl, rfl, rfl, rfl⟩ h.books⟩

/-- Closing the newest request leaves those before it. -/
theorem filter_number_append {l : List OpenRequest} {n : Nat} (older : ∀ q ∈ l, q.number < n) (tag : Byte) :
    ((l ++ [({ number := n, tag } : OpenRequest)]).filter fun r => r.number != n) = l := by
  rw [List.filter_append]
  have keep : l.filter (fun r => r.number != n) = l := List.filter_eq_self.mpr fun q m => by
    simpa using Nat.ne_of_lt (older q m)
  simp [keep]

/-- Answering the request that has just been admitted gives back its unit of credit (R188). -/
theorem State.admitted_answer {s : State} (sound : s.officeSound) (w : Window) (tag : Byte) (code : AnswerCode)
    (figures : Figures) :
    (s.admitted w tag).answer (s.asker w tag) code figures = s.answered w tag code figures := by
  have older := (sound w).2.2.2
  unfold State.answer State.answered State.asker OfficePort.close
  simp only [State.admitted_office, Vector.at_put_same, filter_number_append older]
  unfold State.setOffice State.admitted
  simp only [Vector.put_put]

theorem State.admitted_refuse {s : State} (sound : s.officeSound) (w : Window) (tag : Byte) (code : AnswerCode) :
    (s.admitted w tag).refuse (s.asker w tag) code = s.answered w tag code .nothing :=
  State.admitted_answer sound w tag code .nothing

/-- An answer joins what its port has to send and leaves the rest of the state. -/
theorem State.answer_congr {s t : State} (office : t.office = s.office) (r : Reply) (code : AnswerCode)
    (figures : Figures) : (t.answer r code figures).office = (s.answer r code figures).office := by
  unfold State.answer
  simp only [State.setOffice_office, office]

/-- A request admitted, served without a word to the office link, and answered. -/
theorem State.admitted_refuse_office {s t : State} (sound : s.officeSound) (w : Window) (tag : Byte) (code : AnswerCode)
    (office : t.office = (s.admitted w tag).office) :
    (t.refuse (s.asker w tag) code).office = (s.answered w tag code .nothing).office := by
  rw [← State.admitted_refuse sound]
  exact State.answer_congr office _ _ _

/-! ### The owner is reached -/

/-- A frame that its port admits reaches its check (R186 case 3). -/
theorem State.takeFrame_asks {s : State} {w : Window} {kind : RequestKind} {tag : Byte} {body : List Byte}
    (asks : s.asks w kind tag body = true) (mine : Frame → Bool) (cancel : Bool)
    (takes_ : ∀ f : Frame, requestKindOf f.kind = some kind → f.body = body → mine f = true)
    (check : State → Reply → Frame → State) :
    ∃ f : Frame, f.body = body ∧ s.takeFrame w mine cancel check = check (s.admitted w tag) (s.asker w tag) f := by
  obtain ⟨running, enabled, credit, _, f, rest, buffer, of_kind, rfl, of_body⟩ := (s.asks_iff w kind tag body).mp asks
  refine ⟨f, of_body, ?_⟩
  have open_ : ¬ (s.office.at w).credit = Config.creditLimit := by
    simp only [Config.creditLimit]
    omega
  have free : ¬ ((s.setOffice w { s.office.at w with buffer := rest }).office.at w).credit = Config.creditLimit := by
    rw [State.setOffice_office, Vector.at_put_same]
    exact open_
  have admitted : ((s.setOffice w { s.office.at w with buffer := rest }).takeCredit w f.tag) =
      (s.admitted w f.tag, s.asker w f.tag) := by
    unfold State.takeCredit State.admitted State.asker
    simp only [State.setOffice, Vector.at_put_same, Vector.put_put, buffer, List.tail_cons]
  unfold State.takeFrame
  rw [buffer]
  dsimp only
  rw [if_pos (takes_ f of_kind of_body), running]
  dsimp only
  rw [if_pos (show ((s.setOffice w { s.office.at w with buffer := rest }).portEntry w).enabled = true from enabled),
    if_neg free, admitted]

/-- A shaped request that may be made reaches its owner (R187). -/
theorem State.checked_asks {α : Type} {s : State} {w : Window} {kind : RequestKind} {tag : Byte} {body : List Byte}
    (asks : s.asks w kind tag body = true) {read : List Byte → Option α} {a : α} (shaped : read body = some a)
    (owner : State → Reply → α → State) {f : Frame} (of_body : f.body = body) :
    State.checked kind read owner (s.admitted w tag) (s.asker w tag) f = owner (s.admitted w tag) (s.asker w tag) a := by
  obtain ⟨_, _, _, may, _⟩ := (s.asks_iff w kind tag body).mp asks
  unfold State.checked
  rw [of_body, shaped]
  dsimp only
  refine if_neg fun barred => ?_
  rw [Bool.and_eq_true, Bool.not_eq_true'] at barred
  exact absurd (may barred.1) (Bool.eq_false_iff.mp barred.2)

theorem State.takeRequest_asks {α : Type} {s : State} {w : Window} {kind : RequestKind} {tag : Byte} {body : List Byte}
    (asks : s.asks w kind tag body = true) {read : List Byte → Option α} {a : α} (shaped : read body = some a)
    (owner : State → Reply → α → State) :
    s.takeRequest w kind read owner = owner (s.admitted w tag) (s.asker w tag) a := by
  obtain ⟨f, of_body, taken⟩ := State.takeFrame_asks asks (fun f => requestKindOf f.kind == some kind) (kind == .cancel)
    (fun f k _ => by simp [k]) (State.checked kind read owner)
  exact taken.trans (State.checked_asks asks shaped owner of_body)

/-- An admitted request passes the first checks where the journal takes requests. -/
theorem State.withJournal_admitted {s : State} (takes_ : s.journalTakes) (w : Window) (tag : Byte) (r : Reply)
    (own : State) : (s.admitted w tag).withJournal r own = own := by
  have pass : (s.admitted w tag).journalRefusal = none := by
    show s.journalRefusal = none
    unfold State.journalRefusal Journal.stopped
    simp [takes_.1, takes_.2]
  unfold State.withJournal
  rw [pass]

end Sys2Proof.Machine
end

