-- ==== Sys2Proof/Proofs/QueuesConsidered.lean ====
section
/-! SUPPORT. Queues considered, seen from the state before the event: what a move test depends on, and the queue of a port
that a hold reason takes to HELD (R12, R13); and conditions that end (R140). -/

namespace Sys2Proof.Machine

/-! ### The move test -/

theorem State.otherPrinter_ne {s : State} {job : Job} {q : Printer} (h : s.otherPrinter job = some q) :
    q ≠ job.printer := by
  unfold State.otherPrinter RouteEntry.second at h
  simp only [Option.filter_eq_some_iff] at h
  obtain ⟨h, _⟩ := h
  rintro rfl
  split at h
  · rename_i first
    rcases ite_eq_iff.mp h with ⟨_, none_⟩ | ⟨differ, second⟩
    · cases none_
    · exact differ (second.trans first.symm)
  · rename_i differ
    rcases ite_eq_iff.mp h with ⟨_, first⟩ | ⟨_, none_⟩
    · exact differ first
    · cases none_

/-- The move test looks at the tables and at the other printers alone (R12). -/
theorem State.moveTarget_congr {s t : State} (job : Job) (tables : t.store.tables = s.store.tables)
    (others : ∀ q, q ≠ job.printer → t.sendsType q job.stockType = s.sendsType q job.stockType) :
    t.moveTarget job = s.moveTarget job := by
  have other : t.otherPrinter job = s.otherPrinter job := by
    unfold State.otherPrinter State.routeEntry State.function State.printerEntry
    rw [tables]
  unfold State.moveTarget
  rw [other]
  cases named : s.otherPrinter job with
  | none => rfl
  | some q => simp only [Option.filter, others q (State.otherPrinter_ne named)]

/-- A printer that stands, with its batch, takes the same jobs. -/
theorem State.sendsType_congr {s t : State} {q : Printer} (port : (t.ports.at q).state = (s.ports.at q).state)
    (loaded : t.loaded q = s.loaded q) (ty : StockType) : t.sendsType q ty = s.sendsType q ty := by
  unfold State.sendsType
  rw [port, loaded]

/-! ### Queues considered -/

theorem State.placed.queuedAt {s : State} {p : Printer} (h : s.placed p) : s.queuedAt p :=
  fun j m => h.1 j (Or.inl m)

theorem State.placed.queue_nodup {s : State} {p : Printer} (h : s.placed p) : (s.queues.at p).Nodup :=
  (List.nodup_append.mp h.2).2.1

/-- What a queue considered depends on: the jobs, the queues, where the jobs of the queue can move, and the answers. -/
theorem State.Considers.of_same {v v' u u' : State} {p : Printer} {concerns : Job → Bool} {refusal : Option AnswerCode}
    (h : v.Considers p concerns refusal u) (jobs : v'.jobs = v.jobs) (queues : v'.queues = v.queues)
    (targets : ∀ j ∈ v.queues.at p, ∀ y, v.jobs.at j = some y → v'.moveTarget y = v.moveTarget y)
    (jobs' : u'.jobs = u.jobs) (queues' : u'.queues = u.queues)
    (answers : ∀ w, (u.office.at w).sendList ⊆ (u'.office.at w).sendList) : v'.Considers p concerns refusal u' := by
  have sends : ∀ j ∈ v.queues.at p, v'.sendsTo concerns j = v.sendsTo concerns j := fun j m => by
    unfold State.sendsTo
    rw [jobs]
    cases record : v.jobs.at j with
    | none => rfl
    | some y => simp only [Option.bind_some, targets j m y record]
  refine ⟨⟨fun j m y q record c t => ?_, fun j m y code record c t r => ?_, fun j m y record c => ?_⟩, ?_, ?_, ?_⟩
  · rw [queues] at m
    rw [jobs] at record
    rw [targets j m y record] at t
    rw [jobs', queues']
    exact h.moved j m y q record c t
  · rw [queues] at m
    rw [jobs] at record
    rw [targets j m y record] at t
    rw [jobs']
    exact ⟨(h.refused j m y code record c t r).1, answers _ (h.refused j m y code record c t r).2⟩
  · rw [queues] at m
    rw [jobs] at record
    rw [targets j m y record] at c
    rw [jobs', queues']
    exact h.stayed j m y record c
  · rw [queues, jobs, jobs']
    exact h.others
  · rw [queues', queues, h.queue, jobs]
    exact List.filter_congr fun j m => by rw [sends j m]
  · intro q other
    rw [queues', queues, h.tails q other]
    exact congrArg _ (List.filter_congr fun j m => by rw [sends j m])

/-- A queue considered after changes to its own printer and to no job (R12). -/
theorem State.Considers.of_before {v v' u : State} {p : Printer} {concerns : Job → Bool} {refusal : Option AnswerCode}
    (h : v'.Considers p concerns refusal u) (jobs : v'.jobs = v.jobs) (queues : v'.queues = v.queues)
    (tables : v'.store.tables = v.store.tables) (named : v.queuedAt p)
    (others : ∀ q, q ≠ p → (v'.ports.at q).state = (v.ports.at q).state ∧ v'.loaded q = v.loaded q) :
    v.Considers p concerns refusal u := by
  refine h.of_same jobs.symm queues.symm (fun j m y record => ?_) rfl rfl fun _ => List.Subset.refl _
  rw [queues] at m
  rw [jobs] at record
  obtain ⟨x, r, at_⟩ := named j m
  cases record.symm.trans r
  exact State.moveTarget_congr y tables.symm fun q differ =>
    State.sendsType_congr (others q (at_ ▸ differ)).1.symm (others q (at_ ▸ differ)).2.symm y.stockType

/-- A step that leaves jobs and queues leaves what became of a queue. -/
theorem State.HoldsQueue.of_after {v u u' : State} {p : Printer} {entersHeld : Prop} (h : v.HoldsQueue p entersHeld u)
    (jobs : u'.jobs = u.jobs) (queues : u'.queues = u.queues) : v.HoldsQueue p entersHeld u' := by
  refine ⟨fun g => ?_, fun g => ?_⟩
  · obtain ⟨⟨moved, refused, stayed⟩, others, queue, tails⟩ := h.1 g
    refine ⟨⟨?_, fun _ _ _ _ _ _ _ k => (nomatch k), ?_⟩, ?_, ?_, ?_⟩
    · rw [jobs, queues]; exact moved
    · rw [jobs, queues]; exact stayed
    · rw [jobs]; exact others
    · rw [queues]; exact queue
    · rw [queues]; exact tails
  · rw [jobs, queues]
    exact h.2 g

/-- Where the port does not enter HELD, or has no job, the queue is left alone. -/
theorem State.HoldsQueue.of_alone {v u : State} {p : Printer} {entersHeld : Prop} (no : ¬ entersHeld)
    (jobs : u.jobs = v.jobs) (queues : u.queues = v.queues) : v.HoldsQueue p entersHeld u :=
  ⟨fun g => absurd g no, fun _ => ⟨fun _ => by rw [jobs], fun _ => by rw [queues]⟩⟩

/-- The queue of a port that a hold reason takes from ACTIVE to HELD (R13), seen from a state that differs at the port
alone. -/
theorem State.addHold_holdsQueue {v v' : State} {p : Printer} (r : HoldReason) (named : v.queuedAt p)
    (once : (v.queues.at p).Nodup)
    (jobs : v'.jobs = v.jobs) (queues : v'.queues = v.queues) (tables : v'.store.tables = v.store.tables)
    (others : ∀ q, q ≠ p → (v'.ports.at q).state = (v.ports.at q).state ∧ v'.loaded q = v.loaded q) :
    v.HoldsQueue p ((v'.ports.at p).state = .active) (v'.addHold p r) := by
  have named' : v'.queuedAt p := by
    unfold State.queuedAt
    rw [jobs, queues]
    exact named
  rw [State.addHold_eq]
  by_cases active : (v'.ports.at p).state = .active
  · rw [if_pos active]
    refine ⟨fun _ => ?_, fun no => absurd active no⟩
    refine (State.resolveQueue_considers (v'.setPort p _) p (fun _ => true) none named'
      (by rw [State.setPort_queues, queues]; exact once)).of_before jobs queues tables named
      fun q differ => ?_
    rw [State.setPort_ports, Vector.at_put, if_neg (Ne.symm differ)]
    exact others q differ
  · rw [if_neg active]
    exact .of_alone active jobs queues

/-! ### Conditions that end -/

/-- The end of a printer's condition is recorded and said to no one (R140). -/
theorem State.endCondition_rest (s : State) (p : Printer) (k : PrinterFault) :
    s.endCondition (.printer p k) = { s with monitor := (s.endCondition (.printer p k)).monitor } := by
  unfold State.endCondition State.report State.markPresent
  dsimp only
  split <;> rfl

end Sys2Proof.Machine
end

