-- ==== Sys2Proof/Proofs/HoldAndRelease.lean ====
section
/-! SUPPORT. HOLD and RELEASE at every state of the port (R50). -/

namespace Sys2Proof.Machine

theorem execHold_asks {s : State} {w : Window} {tag : Byte} {body : List Byte} {n : Nat}
    (asks : s.asks w .hold tag body = true) (read : readByte body = some n) :
    exec (.hold w) s = .next (ownHold (s.admitted w tag) (s.asker w tag) n) :=
  congrArg Host.Outcome.next (State.takeRequest_asks asks read ownHold)

theorem execRelease_asks {s : State} {w : Window} {tag : Byte} {body : List Byte} {n : Nat}
    (asks : s.asks w .release tag body = true) (read : readByte body = some n) :
    exec (.release w) s = .next (ownRelease (s.admitted w tag) (s.asker w tag) n) :=
  congrArg Host.Outcome.next (State.takeRequest_asks asks read ownRelease)

theorem index?_val {n : Nat} (i : Fin n) : index? n i.val = some i := by
  unfold index?
  rw [dif_pos i.isLt]

theorem index?_of_le {n m : Nat} (h : n ≤ m) : index? n m = none := by
  unfold index?
  rw [dif_neg (by omega)]

theorem HoldReason.place_injective {r q : HoldReason} (h : r.place = q.place) : r = q := by
  cases r <;> cases q <;> first | rfl | exact absurd h (by decide)

theorem Port.under_holds (x : Port) (r q : HoldReason) : (x.under r).holds q = if r = q then true else x.holds q := by
  unfold Port.under Port.holds
  rw [Vector.at_put]
  by_cases same : r = q
  · rw [if_pos same, if_pos (by rw [same])]
  · rw [if_neg same, if_neg fun h => same (HoldReason.place_injective h)]

/-- An attach begun: an ENQUIRE and the port's fields (R42). -/
theorem State.beginAttach_eq (s : State) (p : Printer) :
    s.beginAttach p = { s with
      sent := s.sent ++ [(p, .enquire)]
      ports := s.ports.put p { s.ports.at p with
        state := .attaching, nextImage := 0, unanswered := 0, attachTimer := some (s.printerEntry p).selectTimeout
        pollTimer := none, replyTimer := none, absentTimer := none } } := rfl

/-- A RELEASE at a port that is not FAILED (R50). -/
theorem State.release_of_not_failed {s : State} {p : Printer} (h : (s.ports.at p).state ≠ .failed) :
    s.release p = s.setPort p ((s.ports.at p).relieved .supervisor) := by
  unfold State.release
  rw [State.removeHold_eq]
  dsimp only
  refine if_neg ?_
  rw [State.setPort_ports, Vector.at_put_same]
  unfold Port.relieved
  dsimp only
  split
  · exact fun k => by cases k
  · exact h

/-- A RELEASE at a FAILED port (R50). -/
theorem State.release_of_failed {s : State} {p : Printer} (h : (s.ports.at p).state = .failed) :
    s.release p = (((s.setPort p ((s.ports.at p).setHold .supervisor false)).endCondition
      (.printer p .protocol)).endCondition (.printer p .overrun)).beginAttach p := by
  have relieved : (s.ports.at p).relieved .supervisor = (s.ports.at p).setHold .supervisor false := by
    unfold Port.relieved Port.setHold
    rw [if_neg (by rw [h]; exact fun k => by cases k.1)]
  unfold State.release
  rw [State.removeHold_eq, relieved]
  dsimp only
  exact if_pos (by rw [State.setPort_ports, Vector.at_put_same]; exact h)

/-- What a RELEASE does at a FAILED port (R50). -/
theorem State.release_failed_effect {s : State} {p : Printer} (h : (s.ports.at p).state = .failed) :
    s.release p = { s with
      ports := s.ports.put p { (s.ports.at p).setHold .supervisor false with
        state := .attaching, nextImage := 0, unanswered := 0, attachTimer := some (s.printerEntry p).selectTimeout
        pollTimer := none, replyTimer := none, absentTimer := none }
      sent := s.sent ++ [(p, .enquire)]
      monitor := (s.release p).monitor } ∧
    ((s.release p).monitor.lasting.at p).protocol = false ∧ ((s.release p).monitor.lasting.at p).overrun = false := by
  rw [State.release_of_failed h]
  have first := State.endCondition_rest (s.setPort p ((s.ports.at p).setHold .supervisor false)) p .protocol
  have ended := State.endCondition_lasting (s.setPort p ((s.ports.at p).setHold .supervisor false)) p .protocol
  generalize State.endCondition (s.setPort p ((s.ports.at p).setHold .supervisor false)) (.printer p .protocol) = t at *
  have second := State.endCondition_rest t p .overrun
  have last := State.endCondition_lasting t p .overrun
  generalize t.endCondition (.printer p .overrun) = v at *
  have rest : v = { s with
      ports := s.ports.put p ((s.ports.at p).setHold .supervisor false), monitor := v.monitor } := by
    rw [second, first]
    rfl
  refine ⟨?_, ?_, ?_⟩
  · rw [State.beginAttach_eq, rest]
    simp only [Vector.put_put, Vector.at_put_same]
    rfl
  · show (v.monitor.lasting.at p).protocol = false
    rw [last, Vector.at_put_same, ended, Vector.at_put_same]
    rfl
  · show (v.monitor.lasting.at p).overrun = false
    rw [last, Vector.at_put_same]
    rfl

end Sys2Proof.Machine

open Sys2Proof Sys2Proof.Machine

/-- Settles O39: HOLD is `addHold`, whose queue is that of a port that enters HELD; RELEASE is `removeHold`, with an attach
at a FAILED port. -/
theorem holdAndRelease : Obligations.HoldAndRelease := by
  intro w tag body n s read sound
  refine ⟨fun asks => ?_, fun asks => ?_⟩
  · rw [execHold_asks asks read]
    refine ⟨fun big => ?_, ?_⟩
    · unfold ownHold
      rw [index?_of_le big]
      exact congrArg _ (State.admitted_refuse sound w tag .badValue)
    · rintro p rfl
      have rest := State.addHold_rest (s.admitted w tag) p .supervisor
      have ports := State.addHold_ports (s.admitted w tag) p .supervisor
      have quiet := State.addHold_quiet (.refl (s.admitted w tag)) p .supervisor
      have stands := (State.refuse_loud quiet.loud (s.asker w tag) .done).of_admitted
      refine ⟨((s.admitted w tag).addHold p .supervisor).refuse (s.asker w tag) .done, ?_, ?_, fun r other => ?_, ?_, ?_,
        fun q other => ?_, fun placed => ?_, State.admitted_refuse_office sound w tag .done quiet.silent.office,
        quiet.silent.monitor, ?_, ?_, ?_, stands.1, stands.2⟩
      · unfold ownHold
        rw [index?_val]
      · show (((s.admitted w tag).addHold p .supervisor).ports.at p).holds .supervisor = true
        rw [ports, Vector.at_put_same]
        exact ((s.ports.at p).under_holds .supervisor .supervisor).trans (if_pos rfl)
      · show (((s.admitted w tag).addHold p .supervisor).ports.at p).holds r = _
        rw [ports, Vector.at_put_same]
        exact ((s.ports.at p).under_holds .supervisor r).trans (if_neg (Ne.symm other))
      · show (((s.admitted w tag).addHold p .supervisor).ports.at p).state = _
        rw [ports, Vector.at_put_same]
        rfl
      · show (((s.admitted w tag).addHold p .supervisor).ports.at p).entries = _
        rw [ports, Vector.at_put_same]
        rfl
      · show ((s.admitted w tag).addHold p .supervisor).ports.at q = _
        rw [ports, Vector.at_put_other _ _ (Ne.symm other)]
        rfl
      · exact (State.addHold_holdsQueue (v' := s.admitted w tag) .supervisor placed.queuedAt
          placed.queue_nodup rfl rfl rfl fun _ _ => ⟨rfl, rfl⟩).of_after rfl rfl
      · show ((s.admitted w tag).addHold p .supervisor).stock = _
        rw [rest]
        rfl
      · show ((s.admitted w tag).addHold p .supervisor).journal = _
        rw [rest]
        rfl
      · show ((s.admitted w tag).addHold p .supervisor).sent = _
        rw [rest]
        rfl
  · rw [execRelease_asks asks read]
    refine ⟨fun big => ?_, ?_⟩
    · unfold ownRelease
      rw [index?_of_le big]
      exact congrArg _ (State.admitted_refuse sound w tag .badValue)
    · rintro p rfl
      have own : ownRelease (s.admitted w tag) (s.asker w tag) p.val =
          (((s.admitted w tag).release p).refuse (s.asker w tag) .done).settle := by
        unfold ownRelease
        rw [index?_val]
      rw [own]
      refine ⟨fun up => ?_, fun failed => ?_⟩
      · rw [State.release_of_not_failed (s := s.admitted w tag) up, ← State.admitted_refuse sound w tag .done]
        have relieved : (s.ports.at p).relieved .supervisor =
            if ((s.ports.at p).setHold .supervisor false).state = .held ∧
              ((s.ports.at p).setHold .supervisor false).hold = noHolds
            then { (s.ports.at p).setHold .supervisor false with state := .active }
            else (s.ports.at p).setHold .supervisor false := by
          unfold Port.relieved Port.setHold
          dsimp only
          split <;> rfl
        rw [← relieved]
        rfl
      · have loud := State.refuse_loud (State.release_loud (.refl (s.admitted w tag)) p) (s.asker w tag) .done
        obtain ⟨rest, protocol, overrun⟩ := State.release_failed_effect (s := s.admitted w tag) (p := p) failed
        generalize (s.admitted w tag).release p = v at *
        refine ⟨_, rfl, ?_, ?_, protocol, overrun, State.admitted_refuse_office sound w tag .done (by rw [rest]), ?_, ?_, ?_,
          ?_, loud.of_admitted⟩
        · show v.ports = _
          rw [rest]
          rfl
        · show v.sent = _
          rw [rest]
          rfl
        · show v.jobs = _
          rw [rest]
          rfl
        · show v.queues = _
          rw [rest]
          rfl
        · show v.stock = _
          rw [rest]
          rfl
        · show v.journal = _
          rw [rest]
          rfl
end

