-- ==== Sys2Proof/Proofs/JobsTaken.lean ====
section
/-! SUPPORT. ISSUE, TESTPRINT and CANCEL: the job that is made, and the job that is withdrawn (R4, R7, R8, R18). -/

namespace Sys2Proof.Machine

/-! ### The lowest of a kind -/

theorem allJobs_sorted : allJobs.Pairwise (· < ·) := by decide

theorem mem_allJobs : ∀ j : JobNumber, j ∈ allJobs := by decide

/-- A member of an ordered list parts it into what is lower and what is higher. -/
theorem sorted_split {n : Nat} {l : List (Fin n)} (sorted : l.Pairwise (· < ·)) {a : Fin n} (m : a ∈ l) :
    ∃ lower higher, l = lower ++ a :: higher ∧ ∀ k ∈ lower, k < a := by
  obtain ⟨lower, higher, rfl⟩ := List.append_of_mem m
  exact ⟨lower, higher, rfl, fun k mk => (List.pairwise_append.mp sorted).2.2 k mk a List.mem_cons_self⟩

/-- In an ordered list the first with a property is the lowest. -/
theorem find?_lowest {n : Nat} {l : List (Fin n)} (sorted : l.Pairwise (· < ·)) {a : Fin n} (m : a ∈ l)
    {q : Fin n → Bool} (at_ : q a = true) (before : ∀ k < a, q k = false) : l.find? q = some a := by
  obtain ⟨lower, higher, split, lt⟩ := sorted_split sorted m
  rw [List.find?_eq_some_iff_append]
  exact ⟨at_, lower, higher, split, fun k mk => by simp [before k (lt k mk)]⟩

theorem findSome?_lowest {n : Nat} {β : Type} {l : List (Fin n)} (sorted : l.Pairwise (· < ·)) {a : Fin n} (m : a ∈ l)
    {f : Fin n → Option β} {b : β} (at_ : f a = some b) (before : ∀ k < a, f k = none) : l.findSome? f = some b := by
  obtain ⟨lower, higher, split, lt⟩ := sorted_split sorted m
  rw [List.findSome?_eq_some_iff]
  exact ⟨lower, a, higher, split, at_, fun k mk => before k (lt k mk)⟩

/-! ### Jobs accepted -/

theorem execIssue_asks {s : State} {w : Window} {tag : Byte} {body : List Byte} {a : IssueBody}
    (asks : s.asks w .issue tag body = true) (read : readIssue body = some a) :
    exec (.issue w) s = .next (ownIssue (s.admitted w tag) (s.asker w tag) a) :=
  congrArg Host.Outcome.next (State.takeRequest_asks asks read ownIssue)

theorem execTestprint_asks {s : State} {w : Window} {tag : Byte} {body : List Byte} {n : Nat}
    (asks : s.asks w .testprint tag body = true) (read : readByte body = some n) :
    exec (.testprint w) s = .next (ownTestprint (s.admitted w tag) (s.asker w tag) n) :=
  congrArg Host.Outcome.next (State.takeRequest_asks asks read ownTestprint)

theorem State.freeJob_lowest {s : State} {j : JobNumber} (free : s.jobs.at j = none)
    (lowest : ∀ k < j, s.jobs.at k ≠ none) : s.freeJob = some j :=
  find?_lowest allJobs_sorted (mem_allJobs j) (by simp [free]) fun k h => by
    simpa [Option.isNone_eq_false_iff, Option.isSome_iff_ne_none] using lowest k h

/-- An accepted job takes the lowest free record and the tail of its queue (R1, R7, R99). -/
theorem State.acceptJob_eq {s : State} {j : JobNumber} (free : s.freeJob = some j) (job : Job) :
    s.acceptJob job = State.settle { s with
      jobs := s.jobs.put j (some job)
      queues := s.queues.put job.printer (s.queues.at job.printer ++ [j])
      sessions := s.sessions.modify job.session fun x => { x with jobs := x.jobs + 1 } } := by
  unfold State.acceptJob
  rw [free]
  rfl

theorem index?_eq_some {n m : Nat} {i : Fin n} : index? n m = some i ↔ i.val = m := by
  unfold index?
  split
  · rw [Option.some.injEq, Fin.ext_iff, eq_comm]
  · rename_i out
    exact ⟨fun k => (nomatch k), fun k => absurd (k ▸ i.isLt) out⟩

/-- The values of an ISSUE that pass checks 2 and 3 of R4. -/
theorem State.issueValues_iff (s : State) (a : IssueBody) (ty : StockType) (code : Fin 64) (entry : DiscountEntry) :
    s.issueValues a = some (ty, code, entry) ↔ entry = s.store.tables.discounts.at code ∧ code.val = a.discount ∧
      ty.val = a.stockType ∧ entry.enabled = true ∧ a.gross ≤ 999999 ∧ a.fields.length ≤ 8 ∧
      ∀ f ∈ a.fields, f.length ≤ 32 := by
  unfold State.issueValues
  simp only [Option.bind_eq_bind, Option.bind_eq_some_iff, index?_eq_some, List.all_eq_true, decide_eq_true_eq]
  constructor
  · rintro ⟨c, hc, t, ht, h⟩
    split at h
    · rename_i good
      cases h
      exact ⟨rfl, hc, ht, good⟩
    · cases h
  · rintro ⟨rfl, hc, ht, good⟩
    exact ⟨code, hc, ty, ht, if_pos good⟩

/-- An ISSUE is refused or its job accepted (R4). -/
theorem execIssue_cases {s : State} {w : Window} {tag : Byte} {body : List Byte} {a : IssueBody}
    (asks : s.asks w .issue tag body = true) (read : readIssue body = some a) (journal : s.journalTakes)
    (sound : s.officeSound) :
    exec (.issue w) s = .next (match s.issueJob (s.asker w tag) a with
      | .error e => s.answered w tag e .nothing
      | .ok job => (s.admitted w tag).acceptJob job) := by
  rw [execIssue_asks asks read]
  unfold ownIssue
  rw [State.withJournal_admitted journal]
  show Host.Outcome.next (match s.issueJob (s.asker w tag) a with
    | .error e => (s.admitted w tag).refuse (s.asker w tag) e
    | .ok job => (s.admitted w tag).acceptJob job) = _
  congr 1
  split
  · exact State.admitted_refuse sound w tag _
  · rfl

theorem execTestprint_cases {s : State} {w : Window} {tag : Byte} {body : List Byte} {n : Nat}
    (asks : s.asks w .testprint tag body = true) (read : readByte body = some n) (journal : s.journalTakes)
    (sound : s.officeSound) :
    exec (.testprint w) s = .next (match s.testJob (s.asker w tag) n with
      | .error e => s.answered w tag e .nothing
      | .ok job => (s.admitted w tag).acceptJob job) := by
  rw [execTestprint_asks asks read]
  unfold ownTestprint
  rw [State.withJournal_admitted journal]
  show Host.Outcome.next (match s.testJob (s.asker w tag) n with
    | .error e => (s.admitted w tag).refuse (s.asker w tag) e
    | .ok job => (s.admitted w tag).acceptJob job) = _
  congr 1
  split
  · exact State.admitted_refuse sound w tag _
  · rfl

/-- The state in which an admitted job has been accepted. -/
theorem State.admitted_acceptJob {s : State} {j : JobNumber} (w : Window) (tag : Byte) (job : Job)
    (free : s.jobs.at j = none) (lowest : ∀ k < j, s.jobs.at k ≠ none) :
    (s.admitted w tag).acceptJob job = State.settle { s.admitted w tag with
      jobs := s.jobs.put j (some job)
      queues := s.queues.put job.printer (s.queues.at job.printer ++ [j])
      sessions := s.sessions.modify job.session fun x => { x with jobs := x.jobs + 1 } } :=
  State.acceptJob_eq (s := s.admitted w tag) (State.freeJob_lowest (s := s.admitted w tag) free lowest) job

end Sys2Proof.Machine

open Sys2Proof Sys2Proof.Machine

/-- Settles O28: the request reaches its owner, whose refusals come in order and whose accepted job is `acceptJob`. -/
theorem jobsAccepted : Obligations.JobsAccepted := by
  intro w tag body s journal sound
  refine ⟨fun a asks read => ?_, fun n asks read => ?_⟩
  · rw [execIssue_cases asks read journal sound]
    intro entry good
    refine ⟨fun closed => ?_, fun x opened => ⟨fun bad => ?_, fun code ty ok => ?_⟩⟩
    · unfold State.issueJob
      rw [show s.openSession (s.asker w tag).window = none from closed]
    · have values : s.issueValues a = none := Option.eq_none_iff_forall_ne_some.mpr fun ⟨ty, code, e⟩ v => by
        obtain ⟨rfl, rest⟩ := (s.issueValues_iff a ty code e).mp v
        exact bad ⟨code, ty, rest⟩
      unfold State.issueJob
      rw [show s.openSession (s.asker w tag).window = some x from opened, values]
    · have values : s.issueValues a = some (ty, code, entry code) := (s.issueValues_iff a ty code _).mpr ⟨rfl, ok⟩
      unfold State.issueJob
      rw [show s.openSession (s.asker w tag).window = some x from opened, values]
      dsimp only
      refine ⟨fun e none_ => ?_, fun p j chosen free lowest => ?_⟩
      · rw [show s.choosePrinter (s.asker w tag).window ty = .error e from none_]
      · rw [show s.choosePrinter (s.asker w tag).window ty = .ok p from chosen]
        exact congrArg _ (State.admitted_acceptJob w tag _ free lowest)
  · rw [execTestprint_cases asks read journal sound]
    refine ⟨fun closed => ?_, fun x opened => ⟨fun big => ?_, fun ty ok => ?_⟩⟩
    · unfold State.testJob
      rw [show s.openSession (s.asker w tag).window = none from closed]
    · unfold State.testJob
      rw [show s.openSession (s.asker w tag).window = some x from opened, index?_of_le big]
    · unfold State.testJob
      rw [show s.openSession (s.asker w tag).window = some x from opened, index?_eq_some.mpr ok]
      dsimp only
      refine ⟨fun e none_ => ?_, fun p j chosen free lowest => ?_⟩
      · rw [show s.choosePrinter (s.asker w tag).window ty = .error e from none_]
      · rw [show s.choosePrinter (s.asker w tag).window ty = .ok p from chosen]
        exact congrArg _ (State.admitted_acceptJob w tag _ free lowest)
end

