-- ==== Sys2Proof/Proofs/SessionsTold.lean ====
section
/-! SUPPORT. What sessions are told: the jobs in flight of a session fall with the jobs that end, and a CLOSING session with
nothing left in flight owes its sign-off (R21, R99, R108). -/

namespace Sys2Proof.Machine

/-! ### One session changed -/

/-- The lookup of a session by its number, after a change that keeps numbers. -/
theorem SessionUnit.get_modify (u : SessionUnit) (n : Nat) (f : Session → Session)
    (number : ∀ x, (f x).number = x.number) (m : Nat) :
    (u.modify n f).get (fun x => x.number == m) =
      if n = m then (u.get fun x => x.number == m).map f else u.get fun x => x.number == m := by
  have any_ : ∀ i, (((u.modify n f).table.at i).any fun x => x.number == m) =
      ((u.table.at i).any fun x => x.number == m) := fun i => by
    rw [SessionUnit.modify_at]
    split
    · cases u.table.at i with
      | none => rfl
      | some x => simp [number]
    · rfl
  have find_ : (u.modify n f).find (fun x => x.number == m) = u.find fun x => x.number == m := by
    unfold SessionUnit.find
    simp only [any_]
  unfold SessionUnit.get
  rw [find_]
  cases at_ : u.find (fun x => x.number == m) with
  | none => simp
  | some i =>
    simp only [Option.bind_some, SessionUnit.modify_at]
    by_cases same : n = m
    · subst same
      rw [at_]
      simp
    · rw [if_neg same, if_neg]
      intro other
      have here := List.find?_some at_
      have there := List.find?_some other
      cases record : u.table.at i with
      | none => simp [record] at here
      | some x =>
        simp only [record, Option.any_some, beq_iff_eq] at here there
        exact same (there.symm.trans here)

theorem State.session_modifySession (s : State) (n : Nat) (f : Session → Session) (number : ∀ x, (f x).number = x.number)
    (m : Nat) : (s.modifySession n f).session m = if n = m then (s.session m).map f else s.session m :=
  s.sessions.get_modify n f number m

/-! ### What a session is told -/

/-- What a session may see while jobs end: of its jobs `k` have ended, records of its may have been handed, and it may have
come to owe its sign-off, with a claim. -/
structure Session.Told (k : Nat) (x y : Session) (claimed : Prop) : Prop where
  state : y.state = x.state
  jobs : y.jobs = x.jobs - k
  pending : x.pendingRecords ≤ y.pendingRecords
  owed : x.signOffOwed = true → y.signOffOwed = true
  claims : y.signOffOwed = true → x.signOffOwed = true ∨ claimed
  told : 0 < k → y.finished = true → y.signOffOwed = true

/-- Of each session a number of jobs have ended. -/
structure State.Tells (s : State) (ended : Nat → Nat) (u : State) : Prop where
  claims : ∀ n, Claim.session n ∈ s.journal.claims → Claim.session n ∈ u.journal.claims
  sessions : ∀ n x, s.session n = some x → ∃ y, u.session n = some y ∧
    Session.Told (ended n) x y (.session n ∈ u.journal.claims)

theorem Session.Told.refl (x : Session) (c : Prop) : Session.Told 0 x x c :=
  ⟨rfl, rfl, Nat.le_refl _, id, Or.inl, fun h => absurd h (Nat.lt_irrefl 0)⟩

theorem Session.Told.trans {k l : Nat} {x y z : Session} {c d : Prop} (a : Session.Told k x y c)
    (b : Session.Told l y z d) (lasts : c → d) : Session.Told (k + l) x z d where
  state := b.state.trans a.state
  jobs := by rw [b.jobs, a.jobs, Nat.sub_sub]
  pending := Nat.le_trans a.pending b.pending
  owed h := b.owed (a.owed h)
  claims h := (b.claims h).elim (fun g => (a.claims g).imp id lasts) Or.inr
  told h fin := by
    by_cases l₀ : 0 < l
    · exact b.told l₀ fin
    · have stands : y.finished = true := by
        have jobs := b.jobs
        have pending := b.pending
        unfold Session.finished at fin ⊢
        simp only [Bool.and_eq_true, beq_iff_eq] at fin ⊢
        obtain ⟨⟨closing, none_⟩, empty⟩ := fin
        refine ⟨⟨b.state ▸ closing, ?_⟩, ?_⟩ <;> omega
      exact b.owed (a.told (by omega) stands)

theorem State.Tells.trans {s t u : State} {m n : Nat → Nat} (a : s.Tells m t) (b : t.Tells n u) :
    s.Tells (fun i => m i + n i) u where
  claims i h := b.claims i (a.claims i h)
  sessions i x h := by
    obtain ⟨y, hy, first⟩ := a.sessions i x h
    obtain ⟨z, hz, second⟩ := b.sessions i y hy
    exact ⟨z, hz, first.trans second (b.claims i)⟩

/-- The sessions stand and no claim of theirs goes. -/
theorem State.Tells.of_same {s u : State} (sessions : u.sessions = s.sessions)
    (claims : ∀ n, Claim.session n ∈ s.journal.claims → Claim.session n ∈ u.journal.claims) :
    s.Tells (fun _ => 0) u :=
  ⟨claims, fun n x h => ⟨x, by unfold State.session at h ⊢; rw [sessions]; exact h, .refl _ _⟩⟩

theorem State.Tells.refl (s : State) : s.Tells (fun _ => 0) s := .of_same rfl fun _ h => h

theorem State.Tells.congr {s u : State} {m n : Nat → Nat} (h : s.Tells m u) (same : ∀ i, m i = n i) : s.Tells n u :=
  (funext same : m = n) ▸ h

/-- A step after which no further job has ended. -/
theorem State.Tells.after {s t u : State} {m : Nat → Nat} (a : s.Tells m t) (b : t.Tells (fun _ => 0) u) : s.Tells m u :=
  a.trans b

theorem State.Tells.before {s t u : State} {m : Nat → Nat} (a : s.Tells (fun _ => 0) t) (b : t.Tells m u) : s.Tells m u :=
  (a.trans b).congr fun _ => Nat.zero_add _

/-- A session changed in place. -/
theorem State.modifySession_tells (s : State) (n k : Nat) (f : Session → Session) (number : ∀ x, (f x).number = x.number)
    (told : ∀ x, s.session n = some x → Session.Told k x (f x) (.session n ∈ s.journal.claims)) :
    s.Tells (fun i => if n = i then k else 0) (s.modifySession n f) := by
  refine ⟨fun _ h => h, fun i x h => ?_⟩
  rw [State.session_modifySession s n f number]
  split
  · rename_i same
    subst same
    exact ⟨f x, by rw [h]; rfl, told x h⟩
  · exact ⟨x, h, .refl _ _⟩

theorem State.addClaim_mem (s : State) (c d : Claim) :
    d ∈ (s.addClaim c).journal.claims ↔ d ∈ s.journal.claims ∨ d = c := by
  unfold State.addClaim
  rw [State.updateJournal_journal]
  split
  · rename_i present
    exact ⟨Or.inl, fun h => h.elim id fun e => e ▸ List.contains_iff_mem.mp present⟩
  · simp

theorem State.withdrawClaim_mem (s : State) (c d : Claim) :
    d ∈ (s.withdrawClaim c).journal.claims ↔ d ∈ s.journal.claims ∧ d ≠ c := by
  unfold State.withdrawClaim
  rw [State.updateJournal_journal]
  simp

/-- Withdrawing the claim of an engine or a batch tells no session. -/
theorem State.withdrawClaim_tells (s : State) {c : Claim} (other : ∀ n, c ≠ .session n) :
    s.Tells (fun _ => 0) (s.withdrawClaim c) :=
  .of_same rfl fun n h => (s.withdrawClaim_mem c _).mpr ⟨h, (other n).symm⟩

/-- A record handed may count as pending for its session. -/
theorem State.hand_tells (s : State) (r : JRecord) (link : Link) : s.Tells (fun _ => 0) (s.hand r link) := by
  have next : ∀ t : State, s.Tells (fun _ => 0) t →
      s.Tells (fun _ => 0) (if t.journal.writer = .idle then t.startNext else t) := fun t h => by
    split
    · have hands := State.startNext_hands t
      refine h.after (.of_same ?_ fun n g => by rw [hands.claims]; exact g)
      unfold State.startNext State.beginCheckpoint
      split <;> rfl
    · exact h
  have queued : s.Tells (fun _ => 0) (s.updateJournal fun j => { j with queue := j.queue ++ [{ record := r, link }] }) :=
    .of_same rfl fun _ h => h
  unfold State.hand
  dsimp only
  split
  · rename_i n _
    refine next _ (queued.after ?_)
    refine (State.modifySession_tells _ n 0 (fun x => { x with pendingRecords := x.pendingRecords + 1 }) (fun _ => rfl)
      fun x _ => ?_).congr fun i => ite_self 0
    exact ⟨rfl, rfl, Nat.le_succ _, id, Or.inl, fun h => absurd h (Nat.lt_irrefl 0)⟩
  · exact next _ queued

/-! ### Jobs ended -/

/-- The test of R108 at a session: finished, it owes its sign-off. -/
theorem State.signOffTest_tells (s : State) (n : Nat) :
    s.Tells (fun _ => 0) (s.signOffTest n) ∧
      ∀ y, (s.signOffTest n).session n = some y → y.finished = true → y.signOffOwed = true := by
  unfold State.signOffTest
  cases found : s.session n with
  | none => exact ⟨.refl s, fun y h => absurd (found.symm.trans h) (by simp)⟩
  | some x =>
    dsimp only
    split
    · have session : ∀ m, ((s.modifySession n fun x => { x with signOffOwed := true }).addClaim
          (.session n)).session m = if n = m then (s.session m).map fun x => { x with signOffOwed := true }
            else s.session m := State.session_modifySession s n _ fun _ => rfl
      refine ⟨⟨fun i h => (State.addClaim_mem _ _ _).mpr (Or.inl h), fun i z h => ?_⟩, fun y h _ => ?_⟩
      · rw [session]
        split
        · rename_i same
          subst same
          refine ⟨{ z with signOffOwed := true }, by rw [h]; rfl, rfl, rfl, Nat.le_refl _, fun _ => rfl, fun _ => Or.inr ?_, fun _ _ => rfl⟩
          exact (State.addClaim_mem _ _ _).mpr (Or.inr rfl)
        · exact ⟨z, h, .refl _ _⟩
      · rw [session, if_pos rfl, found] at h
        cases h
        rfl
    · rename_i settled
      refine ⟨.refl s, fun y h fin => ?_⟩
      cases found.symm.trans h
      simpa [fin] using settled

/-- A job of a session has ended (R21, R99, R108). -/
theorem State.jobEnded_tells (s : State) (n : Nat) :
    s.Tells (fun i => if n = i then 1 else 0) (s.jobEnded n) := by
  obtain ⟨test, told⟩ := (s.modifySession n fun x => { x with jobs := x.jobs - 1 }).signOffTest_tells n
  refine ⟨test.claims, fun i x h => ?_⟩
  have counted := State.session_modifySession s n (fun x => { x with jobs := x.jobs - 1 }) (fun _ => rfl) i
  rw [h] at counted
  by_cases same : n = i
  · subst same
    rw [if_pos rfl] at counted
    obtain ⟨y, found, t⟩ := test.sessions n _ counted
    refine ⟨y, found, t.state, ?_, t.pending, t.owed, t.claims, fun _ => told y found⟩
    rw [if_pos rfl, t.jobs]
    rfl
  · rw [if_neg same] at counted ⊢
    exact test.sessions i x counted

theorem State.answer_tells (s : State) (r : Reply) (code : AnswerCode) (figures : Figures) :
    s.Tells (fun _ => 0) (s.answer r code figures) := .of_same rfl fun _ h => h

theorem State.endJob_tells (s : State) (j : JobNumber) (job : Job) (code : AnswerCode) (figures : Figures) :
    s.Tells (fun i => if job.session = i then 1 else 0) (s.endJob j job code figures) :=
  (State.Tells.of_same (s := s) (u := (s.setJob j none).answer job.origin code figures) rfl fun _ h => h).before
    (State.jobEnded_tells _ job.session)

theorem State.refuseJob_tells (s : State) (j : JobNumber) (job : Job) (code : AnswerCode) :
    s.Tells (fun i => if job.session = i then 1 else 0) (s.refuseJob j job code) :=
  (State.Tells.of_same (s := s) (u := s.removeFromQueue job.printer j) rfl fun _ h => h).before
    (State.endJob_tells _ j job code .nothing)

/-- The jobs of a list that have gone from the pool. -/
def State.gone (s u : State) (l : List JobNumber) : List Job :=
  l.filterMap fun j => if u.jobs.at j = none then s.jobs.at j else none

theorem State.considerJob_tells (concerns : Job → Bool) (refusal : Option AnswerCode) (s : State) (j : JobNumber) :
    s.Tells (fun i => (s.gone (State.considerJob concerns refusal s j) [j]).countP fun job => job.session == i)
      (State.considerJob concerns refusal s j) := by
  have stays : ∀ u : State, u.jobs.at j ≠ none → ∀ i, 0 = (s.gone u [j]).countP fun job => job.session == i :=
    fun u h i => by simp [State.gone, h]
  unfold State.considerJob
  split
  · rename_i none_
    exact (State.Tells.refl s).congr fun i => by simp [State.gone, none_]
  · rename_i job record
    split
    · split
      · rename_i q _
        refine (State.Tells.of_same (s := s) (u := s.moveJob j job q false) rfl fun _ h => h).congr (stays _ ?_)
        unfold State.moveJob
        simp
      · rename_i code _
        refine (State.refuseJob_tells s j job code).congr fun i => ?_
        simp [State.gone, State.refuseJob_jobs, record, List.countP_singleton]
      · exact (State.Tells.refl s).congr (stays _ (by simp [record]))
    · exact (State.Tells.refl s).congr (stays _ (by simp [record]))

/-- The sessions of the jobs of a queue that ended are told (R21). -/
theorem State.considerJobs_tells (concerns : Job → Bool) (refusal : Option AnswerCode) (l : List JobNumber)
    (once : l.Nodup) (s : State) :
    s.Tells (fun i => (s.gone (l.foldl (State.considerJob concerns refusal) s) l).countP fun job => job.session == i)
      (l.foldl (State.considerJob concerns refusal) s) := by
  induction l generalizing s with
  | nil => exact .refl s
  | cons j l ih =>
    obtain ⟨out, once⟩ := List.nodup_cons.mp once
    have first := State.considerJob_tells concerns refusal s j
    have same : ∀ k ∈ l, (State.considerJob concerns refusal s j).jobs.at k = s.jobs.at k := fun k m =>
      State.considerJob_jobs_other concerns refusal s j k fun e => out (e ▸ m)
    rw [List.foldl_cons]
    have rest := ih once (State.considerJob concerns refusal s j)
    have settled := State.considerJobs_jobs_other concerns refusal l (State.considerJob concerns refusal s j) out
    generalize State.considerJob concerns refusal s j = t at *
    generalize l.foldl (State.considerJob concerns refusal) t = u at *
    refine (first.trans rest).congr fun i => ?_
    have tail : t.gone u l = s.gone u l := List.filterMap_congr fun k m => by rw [same k m]
    have head : s.gone t [j] = s.gone u [j] := by simp only [State.gone, List.filterMap_cons, List.filterMap_nil, settled]
    rw [tail, head, ← List.countP_append]
    unfold State.gone
    rw [← List.filterMap_append]
    rfl

theorem State.resolveQueue_tells (s : State) (p : Printer) (concerns : Job → Bool) (refusal : Option AnswerCode)
    (once : (s.queues.at p).Nodup) :
    s.Tells (fun i => (s.gone (s.resolveQueue p concerns refusal) (s.queues.at p)).countP fun job => job.session == i)
      (s.resolveQueue p concerns refusal) :=
  State.considerJobs_tells concerns refusal _ once s

/-- What was told is what `JobsEnded` says. -/
theorem State.Tells.jobsEnded {s u : State} {ended : List Job}
    (h : s.Tells (fun i => ended.countP fun job => job.session == i) u) : s.JobsEnded ended u where
  jobs n x found := by
    obtain ⟨y, there, told⟩ := h.sessions n x found
    exact ⟨y, there, told.jobs⟩
  owed n x y lost found there fin := by
    obtain ⟨z, again, told⟩ := h.sessions n x found
    cases there.symm.trans again
    obtain ⟨job, m, of_session⟩ := lost
    have some_ : 0 < ended.countP fun job => job.session == n := List.countP_pos_iff.mpr ⟨job, m, by simp [of_session]⟩
    have owed := told.told some_ fin
    exact ⟨owed, fun unowed => (told.claims owed).resolve_left (by simp [unowed])⟩

/-- Jobs counted along a list in which none stands twice are those of the pool that stand in it. -/
theorem countP_filterMap_allJobs {l : List JobNumber} (once : l.Nodup) (f : JobNumber → Option Job) (q : Job → Bool) :
    (l.filterMap f).countP q = (allJobs.filterMap fun j => if j ∈ l then f j else none).countP q := by
  have perm : l.Perm (allJobs.filter fun j => decide (j ∈ l)) := by
    refine (List.perm_ext_iff_of_nodup once ((allJobs_sorted.imp (fun h => h.ne)).filter _)).mpr fun j => ?_
    simp [mem_allJobs]
  rw [(perm.filterMap f).countP_eq, List.filterMap_filter]
  congr 2
  funext j
  by_cases m : j ∈ l <;> simp [m]

end Sys2Proof.Machine
end

