-- ==== Sys2Proof/Proofs/JobsCancelled.lean ====
section
/-! SUPPORT. CANCEL: it is heard at every credit, and a QUEUED job leaves the pool (R18, R186). -/

namespace Sys2Proof.Machine

/-! ### A CANCEL heard -/

/-- The state in which a CANCEL is decided, and how its answer will name it: the frame has left the buffer, and it holds a
unit of credit unless the port has 4 unanswered requests (R18, R186). -/
structure State.HearsCancel (s : State) (w : Window) (f : Frame) (rest : List Frame) (t : State) (r : Reply) : Prop where
  state : t = { s with
    office := s.office.put w (t.office.at w)
    nextRequest := if (s.office.at w).credit = 4 then s.nextRequest else s.nextRequest + 1 }
  window : r.window = w
  tag : r.tag = f.tag
  sendList : (t.office.at w).sendList = (s.office.at w).sendList
  closed : ∀ number : Option Nat, ((t.office.at w).close number).close r.number =
    { (s.office.at w).close number with buffer := rest }

theorem OfficePort.close_close (o : OfficePort) (a b : Option Nat) : (o.close a).close b = (o.close b).close a := by
  cases a with
  | none => rfl
  | some m =>
    cases b with
    | none => rfl
    | some n =>
      unfold OfficePort.close
      dsimp only
      rw [List.filter_filter, List.filter_filter]
      congr 2
      funext q
      exact Bool.and_comm _ _

theorem OfficePort.close_sendList (o : OfficePort) (frames : List OutFrame) (number : Option Nat) :
    ({ o with sendList := frames } : OfficePort).close number = { o.close number with sendList := frames } := by
  cases number <;> rfl

theorem execCancel_heard {s : State} {w : Window} {f : Frame} {rest : List Frame} {n : Nat}
    (running : s.phase = .running) (enabled : (s.portEntry w).enabled = true)
    (buffer : (s.office.at w).buffer = f :: rest) (kind : requestKindOf f.kind = some .cancel)
    (read : readByte f.body = some n) (sound : s.officeSound) :
    ∃ t r, s.HearsCancel w f rest t r ∧ exec (.cancel w) s = .next (ownCancel t r n) := by
  by_cases full : (s.office.at w).credit = 4
  · refine ⟨s.setOffice w { s.office.at w with buffer := rest }, .uncounted w f.tag, ⟨?_, rfl, rfl, ?_, fun number => ?_⟩,
      congrArg Host.Outcome.next ?_⟩
    · rw [if_pos full]
      simp only [State.setOffice_office, Vector.at_put_same]
      rfl
    · simp
    · rw [State.setOffice_office, Vector.at_put_same]
      unfold Reply.uncounted OfficePort.close
      cases number <;> rfl
    · have credit : ((s.setOffice w { s.office.at w with buffer := rest }).office.at w).credit = Config.creditLimit := by
        rw [State.setOffice_office, Vector.at_put_same]
        exact full
      unfold State.takeRequest State.takeFrame
      rw [buffer]
      dsimp only
      rw [if_pos (by simp [kind]), running]
      dsimp only
      rw [if_pos (show ((s.setOffice w { s.office.at w with buffer := rest }).portEntry w).enabled = true from enabled),
        if_pos credit]
      unfold State.checked
      simp [read, RequestKind.management]
  · have asks : s.asks w .cancel f.tag f.body = true := (s.asks_iff w .cancel f.tag f.body).mpr
      ⟨running, enabled, Nat.lt_of_le_of_ne (sound w).2.1 full, fun m => by simp [RequestKind.management] at m, f, rest,
        buffer, kind, rfl, rfl⟩
    refine ⟨s.admitted w f.tag, s.asker w f.tag, ⟨?_, rfl, rfl, ?_, fun number => ?_⟩,
      congrArg Host.Outcome.next (State.takeRequest_asks asks read ownCancel)⟩
    · rw [if_neg full, State.admitted_office, Vector.at_put_same]
      rfl
    · rw [State.admitted_office, Vector.at_put_same]
    · rw [OfficePort.close_close, State.admitted_office, Vector.at_put_same, buffer]
      unfold State.asker OfficePort.close
      simp only [filter_number_append (sound w).2.2.2, List.tail_cons]
      cases number <;> rfl

/-- A CANCEL answered at once, in a state whose office link is that in which it was heard. -/
theorem State.HearsCancel.refuse {s t : State} {w : Window} {f : Frame} {rest : List Frame} {r : Reply}
    (h : s.HearsCancel w f rest t r) (code : AnswerCode) :
    t.refuse r code = { s with
      office := s.office.put w { s.office.at w with
        buffer := rest, sendList := (s.office.at w).sendList ++ [.answer f.tag code .nothing false] }
      nextRequest := if (s.office.at w).credit = 4 then s.nextRequest else s.nextRequest + 1 } := by
  have closed := h.closed none
  change (t.office.at w).close r.number = { s.office.at w with buffer := rest } at closed
  have office : t.office = s.office.put w (t.office.at w) := congrArg State.office h.state
  have put_ : (t.refuse r code).office = s.office.put w { s.office.at w with
      buffer := rest, sendList := (s.office.at w).sendList ++ [.answer f.tag code .nothing false] } := by
    unfold State.refuse State.answer
    rw [h.window, h.tag, closed, State.setOffice_office, office, Vector.put_put]
  calc t.refuse r code = { t with office := (t.refuse r code).office } := rfl
    _ = _ := by rw [put_, h.state]

/-! ### The job concerned -/

/-- A job carries a tag of a window. -/
def State.carries (s : State) (w : Window) (n : Nat) (j : JobNumber) : Prop :=
  ∃ job, s.jobs.at j = some job ∧ job.origin.window = w ∧ job.origin.tag.toNat = n

theorem State.jobWithTag_none {s : State} {w : Window} {n : Nat} (none_ : ∀ j, ¬ s.carries w n j) :
    s.jobWithTag w n = none := by
  unfold State.jobWithTag
  rw [List.findSome?_eq_none_iff]
  intro j _
  split
  · rename_i job record
    exact if_neg fun h => none_ j ⟨job, record, h⟩
  · rfl

theorem State.jobWithTag_some {s : State} {w : Window} {n : Nat} {j : JobNumber} {job : Job}
    (record : s.jobs.at j = some job) (own : s.carries w n j) (lowest : ∀ k < j, ¬ s.carries w n k) :
    s.jobWithTag w n = some (j, job) := by
  refine findSome?_lowest allJobs_sorted (mem_allJobs j) ?_ fun k lower => ?_
  · obtain ⟨job', again, of_tag⟩ := own
    cases record.symm.trans again
    simp only [record, if_pos of_tag]
  · split
    · rename_i job' record'
      exact if_neg fun h => lowest k lower ⟨job', record', h⟩
    · rfl

/-! ### A job withdrawn -/

/-- The state in which a CANCEL has been taken, before the tests that follow. -/
def State.cancelled (s : State) (r : Reply) (j : JobNumber) (job : Job) : State :=
  ((if (s.queues.at job.printer).head? = some j then s.withdrawClaim (.engine job.printer) else s).refuseJob j job
    .cancelled).refuse r .done

theorem State.cancelJob_eq (s : State) (r : Reply) (j : JobNumber) (job : Job) :
    s.cancelJob r j job = (s.cancelled r j job).settle := rfl

/-- A QUEUED job withdrawn: the claim made for it may go, and it is refused (R18, R158). -/
structure State.Withdraws (s : State) (r : Reply) (j : JobNumber) (job : Job) (u : State) : Prop where
  jobs : u.jobs = s.jobs.put j none
  queues : u.queues = s.queues.put job.printer ((s.queues.at job.printer).filter fun k => k != j)
  office : u.office = ((s.answer job.origin .cancelled .nothing).refuse r .done).office
  loud : s.Loud u
  ports : u.ports = s.ports
  stock : u.stock = s.stock
  monitor : u.monitor = s.monitor
  sent : u.sent = s.sent
  nextRequest : u.nextRequest = s.nextRequest
  tells : s.Tells (fun i => if job.session = i then 1 else 0) u

theorem State.refuseJob_withdraws {s v : State} (r : Reply) (j : JobNumber) (job : Job)
    (same : v = { s with journal := v.journal }) (loud : s.Loud v) (tells : s.Tells (fun _ => 0) v) :
    s.Withdraws r j job ((v.refuseJob j job .cancelled).refuse r .done) := by
  have sorts := State.refuseJob_sorts v j job .cancelled
  refine ⟨?_, ?_, ?_, State.refuse_loud (State.refuseJob_loud loud _ _ _) _ _, ?_, ?_, ?_, ?_, ?_,
    (tells.before (State.refuseJob_tells v j job .cancelled)).after (State.answer_tells _ _ _ _)⟩
  · exact (State.refuseJob_jobs v j job .cancelled).trans (by rw [same])
  · exact (State.refuseJob_queues v j job .cancelled).trans (by rw [same])
  · refine State.answer_congr ?_ r .done .nothing
    refine (State.endJob_answers (v.removeFromQueue job.printer j) j job .cancelled .nothing).trans ?_
    exact State.answer_congr (show v.office = s.office by rw [same]) _ _ _
  · exact sorts.ports.trans (by rw [same])
  · exact sorts.stock.trans (by rw [same])
  · exact sorts.monitor.trans (by rw [same])
  · exact sorts.sent.trans (by rw [same])
  · show (v.refuseJob j job .cancelled).nextRequest = _
    rw [sorts.rest, same]

theorem State.cancelled_withdraws (s : State) (r : Reply) (j : JobNumber) (job : Job) :
    s.Withdraws r j job (s.cancelled r j job) := by
  unfold State.cancelled
  split
  · exact State.refuseJob_withdraws r j job rfl (State.withdrawClaim_quiet (.refl s) _).loud
      (s.withdrawClaim_tells fun n h => nomatch h)
  · exact State.refuseJob_withdraws r j job rfl (.refl s) (.refl s)

/-- The job answered CANCELLED, then the CANCEL answered DONE. -/
theorem State.HearsCancel.office {s t : State} {w : Window} {f : Frame} {rest : List Frame} {r : Reply}
    (h : s.HearsCancel w f rest t r) {origin : Reply} (own : origin.window = w) :
    ((t.answer origin .cancelled .nothing).refuse r .done).office = s.office.put w
      { (s.office.at w).close origin.number with
        buffer := rest
        sendList := (s.office.at w).sendList ++ [.answer origin.tag .cancelled .nothing false,
          .answer f.tag .done .nothing false] } := by
  have put_ : t.office = s.office.put w (t.office.at w) := congrArg State.office h.state
  have closed := h.closed origin.number
  have list : ((t.office.at w).close origin.number).sendList = (s.office.at w).sendList := by
    rw [← h.sendList]
    unfold OfficePort.close
    split <;> rfl
  unfold State.refuse State.answer
  simp only [h.window, h.tag, own, State.setOffice_office, Vector.at_put_same, list]
  rw [put_, Vector.put_put, Vector.put_put, Vector.at_put_same, OfficePort.close_sendList _ _ r.number, closed]
  simp

end Sys2Proof.Machine

open Sys2Proof Sys2Proof.Machine

/-- Settles O29: the CANCEL is heard at every credit, the job concerned is the lowest with the tag, and a QUEUED one is
refused with its session told. -/
theorem cancel : Obligations.Cancel := by
  intro w f rest n s running enabled buffer kind read sound
  obtain ⟨t, r, heard, taken⟩ := execCancel_heard running enabled buffer kind read sound
  rw [taken]
  intro o ofTag counted answer
  have jobs : t.jobs = s.jobs := by rw [heard.state]
  have same : ∀ j, t.carries r.window n j ↔ ofTag j := fun j => by
    unfold State.carries
    rw [jobs, heard.window]
  refine ⟨fun none_ => ?_, fun j job record own lowest => ?_⟩
  · unfold ownCancel
    rw [State.jobWithTag_none fun j h => none_ j ((same j).mp h)]
    exact congrArg _ (heard.refuse .badValue)
  · have found : t.jobWithTag r.window n = some (j, job) :=
      State.jobWithTag_some (jobs ▸ record) ((same j).mpr own) fun k lower h => lowest k lower ((same k).mp h)
    unfold ownCancel
    rw [found]
    dsimp only
    refine ⟨fun other => ?_, fun queued => ?_⟩
    · rw [if_neg other]
      exact congrArg _ (heard.refuse .notCancellable)
    · rw [if_pos queued, State.cancelJob_eq]
      have u := t.cancelled_withdraws r j job
      obtain ⟨job', again, of_window, _⟩ := own
      cases record.symm.trans again
      have keeps : s.Keeps t ∧ s.SameBooks t := by
        rw [heard.state]
        exact ⟨⟨rfl, rfl, rfl, rfl, rfl, rfl, rfl, rfl, rfl, rfl, id, List.prefix_rfl⟩, fun _ => rfl, rfl, rfl, rfl, rfl⟩
      have told : s.Tells (fun _ => 0) t := .of_same (by rw [heard.state]) fun n h => by rw [heard.state]; exact h
      refine ⟨_, rfl, ?_, ?_, u.office.trans (heard.office of_window), keeps.1.trans u.loud.keeps,
        keeps.2.trans u.loud.books, ?_, ?_, ?_, ?_, ?_, ?_⟩
      · rw [u.jobs, jobs]
      · rw [u.queues, show t.queues = s.queues by rw [heard.state]]
      · exact u.ports.trans (by rw [heard.state])
      · exact u.stock.trans (by rw [heard.state])
      · exact u.monitor.trans (by rw [heard.state])
      · exact u.sent.trans (by rw [heard.state])
      · exact u.nextRequest.trans (by rw [heard.state])
      · refine ((told.before u.tells).congr fun i => ?_).jobsEnded
        simp [List.countP_singleton]
end

