-- ==== Sys2Proof/Proofs/StockLoaded.lean ====
section
/-! SUPPORT. STOCKLOAD: the check, and what an accepted one leaves of the blocks (R78). -/

namespace Sys2Proof.Machine

theorem execStockload_asks {s : State} {w : Window} {tag : Byte} {body : List Byte} {id n : Nat}
    (asks : s.asks w .stockload tag body = true) (read : readStockload body = some (id, n)) (journal : s.journalTakes)
    (sound : s.officeSound) :
    exec (.stockload w) s = .next (match s.stockloadCheck id n with
      | .error code => s.answered w tag code .nothing
      | .ok (p, b) => (s.admitted w tag).acceptStockload (s.asker w tag) p b) := by
  refine congrArg Host.Outcome.next ((State.takeRequest_asks asks read ownStockload).trans ?_)
  unfold ownStockload
  rw [State.withJournal_admitted journal]
  show (match s.stockloadCheck id n with
    | .error code => (s.admitted w tag).refuse (s.asker w tag) code
    | .ok (p, b) => (s.admitted w tag).acceptStockload (s.asker w tag) p b) = _
  split
  · exact State.admitted_refuse sound w tag _
  · rfl

/-! ### Records and marks -/

/-- The test of the remaining count at a printer with a batch (R85). -/
theorem State.lowStockTest_effect {s : State} {p : Printer} {b : Batch} (loaded : s.loaded p = some b) :
    s.Notes (s.lowStockTest p) ∧
      ((s.lowStockTest p).monitor.lasting.at p).stockMismatch = (s.monitor.lasting.at p).stockMismatch ∧
      (((s.lowStockTest p).monitor.lasting.at p).stockLow = true ↔ b.remaining ≤ (s.printerEntry p).lowStock) := by
  unfold State.lowStockTest
  rw [loaded]
  dsimp only
  split
  · rename_i low
    refine ⟨State.raise_notes _ _, ?_, ?_⟩ <;> rw [State.raise_lasting, Vector.at_put_same]
    · rfl
    · exact ⟨fun _ => low.1, fun _ => rfl⟩
  · rename_i notLow
    split
    · rename_i high
      refine ⟨State.endCondition_notes _ _, ?_, ?_⟩ <;> rw [State.endCondition_lasting, Vector.at_put_same]
      · rfl
      · exact ⟨fun h => (nomatch h), fun h => absurd h high.1⟩
    · rename_i same
      refine ⟨.refl s, rfl, fun h => ?_, fun h => ?_⟩
      · by_contra high
        exact same ⟨high, h⟩
      · by_contra absent
        exact notLow ⟨h, absent⟩

theorem State.clearClosing_effect (s : State) (p : Printer) :
    s.clearClosing p = { s with journal := { s.journal with claims := (s.clearClosing p).journal.claims } } ∧
      (∀ old, s.loaded p = some old → .batch old.id ∉ (s.clearClosing p).journal.claims) ∧
      s.Tells (fun _ => 0) (s.clearClosing p) := by
  unfold State.clearClosing
  cases loaded : s.loaded p with
  | none => exact ⟨rfl, fun old h => (nomatch h), .refl s⟩
  | some b =>
    refine ⟨rfl, fun old h m => ?_, s.withdrawClaim_tells fun n h => nomatch h⟩
    cases h
    exact ((s.withdrawClaim_mem _ _).mp m).2 rfl

/-! ### An accepted STOCKLOAD -/

/-- An accepted STOCKLOAD up to the marks of the monitor. -/
def State.batchPlaced (s : State) (r : Reply) (p : Printer) (b : Batch) : State :=
  let s := s.clearClosing p
  let s := { s with stock := { s.stock with store := s.stock.store.filter fun x => x.id != b.id } }
  let s := s.setLoaded p (some { b with state := .loaded })
  let s := s.handFor (.batchLoad b.id p) r .done (.remaining b.remaining)
  s.removeHold p .noStock

/-- An accepted STOCKLOAD before its queue is considered. -/
def State.stockloaded (s : State) (r : Reply) (p : Printer) (b : Batch) : State :=
  ((s.batchPlaced r p b).endCondition (.printer p .stockMismatch)).lowStockTest p

theorem State.acceptStockload_eq (s : State) (r : Reply) (p : Printer) (b : Batch) :
    s.acceptStockload r p b =
      ((s.stockloaded r p b).resolveQueue p (fun job => job.stockType != b.stockType) (some .noStock)).settle := rfl

theorem State.removeHold_rest (s : State) (p : Printer) (r : HoldReason) :
    s.removeHold p r = { s with ports := s.ports.put p ((s.ports.at p).relieved r) } := State.removeHold_eq s p r

/-- What an accepted STOCKLOAD has changed before the monitor's marks. -/
structure State.PlacesBatch (s : State) (r : Reply) (p : Printer) (b : Batch) (v : State) : Prop where
  rest : v = { s with
    ports := s.ports.put p ((s.ports.at p).relieved .noStock)
    stock := { store := s.stock.store.filter fun x => x.id != b.id
               loaded := s.stock.loaded.put p (some { b with state := .loaded }) }
    journal := v.journal, sessions := v.sessions }
  queue : v.journal.queue = s.journal.queue ++
    [{ record := .batchLoad b.id p, link := .request r .done (.remaining b.remaining) }]
  claims : ∀ old, s.loaded p = some old → .batch old.id ∉ v.journal.claims
  quiet : s.Quiet v
  tells : s.Tells (fun _ => 0) v

theorem State.batchPlaced_places (s : State) (r : Reply) (p : Printer) (b : Batch) :
    s.PlacesBatch r p b (s.batchPlaced r p b) := by
  obtain ⟨cleared, withdrawn, told⟩ := s.clearClosing_effect p
  have quiet : s.Quiet (s.batchPlaced r p b) :=
    State.removeHold_quiet (State.hand_quiet (State.setLoaded_quiet (State.setStock_quiet (State.clearClosing_quiet
      (.refl s) p) _) _ _) _ _) _ _
  unfold State.batchPlaced State.handFor at *
  dsimp only at *
  generalize s.clearClosing p = c at *
  rw [State.removeHold_rest] at *
  have hands := State.hand_effect (State.setLoaded { c with stock := { c.stock with
    store := c.stock.store.filter fun x => x.id != b.id } } p (some { b with state := .loaded })) (.batchLoad b.id p)
    (.request r .done (.remaining b.remaining))
  have tells := State.hand_tells (State.setLoaded { c with stock := { c.stock with
    store := c.stock.store.filter fun x => x.id != b.id } } p (some { b with state := .loaded })) (.batchLoad b.id p)
    (.request r .done (.remaining b.remaining))
  generalize State.hand _ _ _ = v at *
  obtain ⟨hands, queue, _⟩ := hands
  refine ⟨?_, ?_, fun old h => ?_, quiet, ?_⟩
  · rw [hands.rest, cleared]
    rfl
  · exact queue.trans (by rw [cleared]; rfl)
  · show _ ∉ v.journal.claims
    rw [hands.claims]
    exact withdrawn old h
  · refine told.after (State.Tells.before (t := State.setLoaded { c with stock := { c.stock with
      store := c.stock.store.filter fun x => x.id != b.id } } p (some { b with state := .loaded }))
      (.of_same rfl fun _ h => h) (tells.after (.of_same rfl fun _ h => h)))

theorem State.Notes.tells {s t : State} (h : s.Notes t) : s.Tells (fun _ => 0) t :=
  .of_same h.sessions fun _ m => by rw [h.journal]; exact m

/-- The marks of an accepted STOCKLOAD at the monitor (R78, R85). -/
theorem State.stockloaded_marks (s : State) (r : Reply) (p : Printer) (b : Batch) :
    (s.batchPlaced r p b).Notes (s.stockloaded r p b) ∧
      ((s.stockloaded r p b).monitor.lasting.at p).stockMismatch = false ∧
      (((s.stockloaded r p b).monitor.lasting.at p).stockLow = true ↔ b.remaining ≤ (s.printerEntry p).lowStock) := by
  have placed := s.batchPlaced_places r p b
  have ended := State.endCondition_notes (s.batchPlaced r p b) (.printer p .stockMismatch)
  have mark := State.endCondition_lasting (s.batchPlaced r p b) p .stockMismatch
  have loaded : ((s.batchPlaced r p b).endCondition (.printer p .stockMismatch)).loaded p =
      some { b with state := .loaded } := by
    unfold State.loaded
    rw [ended.stock, placed.rest]
    exact Vector.at_put_same _ _ _
  obtain ⟨notes, mismatch, low⟩ := State.lowStockTest_effect loaded
  refine ⟨ended.trans notes, ?_, ?_⟩
  · refine mismatch.trans ?_
    rw [mark, Vector.at_put_same]
    rfl
  · refine low.trans ?_
    unfold State.printerEntry
    rw [ended.store, placed.rest]
    rfl

/-! ### The check -/

theorem State.mem_batches_of_store {s : State} {id : Nat} {b : Batch}
    (found : (s.stock.store.find? fun x => x.id == id) = some b) : b ∈ s.stock.batches ∧ b.id = id :=
  ⟨List.mem_append_left _ (List.mem_of_find?_eq_some found), by simpa using List.find?_some found⟩

theorem State.find_isNone {s : State} {id : Nat} : (s.stock.find id).isNone = true ↔ ∀ b ∈ s.stock.batches, b.id ≠ id := by
  unfold Stock.find
  simp

/-- A STOCKLOAD of values out of range, or of no batch (R78 checks 1 to 3). -/
theorem State.stockloadCheck_badValue {s : State} {id n : Nat}
    (bad : 12 ≤ n ∨ id = 0 ∨ ∀ b ∈ s.stock.batches, b.id ≠ id) : s.stockloadCheck id n = .error .badValue := by
  unfold State.stockloadCheck
  split
  · rfl
  · rename_i p of_n
    rcases bad with big | zero | none_
    · rw [index?_of_le big] at of_n
      cases of_n
    · rw [if_pos (by omega)]
    · split
      · rfl
      · exact if_pos (State.find_isNone.mpr none_)

theorem State.stockloadCheck_wrongState {s : State} {id : Nat} {p : Printer} (low : 1 ≤ id) (high : id ≤ 65535)
    (known : ∃ b ∈ s.stock.batches, b.id = id) (wrong : (∀ b ∈ s.stock.store, b.id ≠ id) ∨ s.function p ≠ .ticket ∨
      ∃ old, s.loaded p = some old ∧ old.state ≠ .exhausted) : s.stockloadCheck id p.val = .error .wrongState := by
  obtain ⟨b, m, of_id⟩ := known
  unfold State.stockloadCheck
  rw [index?_val]
  dsimp only
  rw [if_neg (by omega), if_neg fun h => State.find_isNone.mp h b m of_id]
  split
  · rfl
  · rename_i x found
    rcases wrong with none_ | other | ⟨old, loaded, state⟩
    · exact absurd (by simpa using List.find?_some found) (none_ x (List.mem_of_find?_eq_some found))
    · exact if_pos other
    · split
      · rfl
      · exact if_pos (by simp [loaded, state])

/-- Checks 5 and 6 of R78. -/
theorem State.stockloadCheck_of_store {s : State} {id : Nat} {p : Printer} {b : Batch} (low : 1 ≤ id) (high : id ≤ 65535)
    (found : (s.stock.store.find? fun x => x.id == id) = some b) (ticket : s.function p = .ticket)
    (spent : ∀ old, s.loaded p = some old → old.state = .exhausted) :
    s.stockloadCheck id p.val = if (s.ports.at p).entries = [] ∧
        (∀ old, s.loaded p = some old → old.inHand = 0 ∧ old.unrecorded = 0) ∧ s.journal.grantsRequest = true
      then .ok (p, b) else .error .busy := by
  obtain ⟨m, of_id⟩ := State.mem_batches_of_store found
  have empty : (s.loaded p).any (fun old => old.state != .exhausted) = false := by
    cases loaded : s.loaded p with
    | none => rfl
    | some old => simp [spent old loaded]
  have settled : (s.loaded p).any (fun old => !old.settled) = true ↔
      ¬ ∀ old, s.loaded p = some old → old.inHand = 0 ∧ old.unrecorded = 0 := by
    cases loaded : s.loaded p with
    | none => simp
    | some old => simp [Batch.settled, imp_iff_not_or]
  unfold State.stockloadCheck
  rw [index?_val]
  dsimp only
  rw [if_neg (by omega), if_neg fun h => State.find_isNone.mp h b m of_id, found]
  dsimp only
  rw [if_neg (by simp [ticket]), if_neg (by simp [empty])]
  by_cases window : (s.ports.at p).entries = []
  · by_cases old : ∀ old, s.loaded p = some old → old.inHand = 0 ∧ old.unrecorded = 0
    · rw [if_neg fun h => h.elim (fun k => k (List.isEmpty_iff.mpr window)) fun k => settled.mp k old]
      exact if_congr ⟨fun g => ⟨window, old, g⟩, fun g => g.2.2⟩ rfl rfl
    · rw [if_pos (Or.inr (settled.mpr old)), if_neg fun h => old h.2.1]
  · rw [if_pos (Or.inl fun h => window (List.isEmpty_iff.mp h)), if_neg fun h => window h.1]

end Sys2Proof.Machine

open Sys2Proof Sys2Proof.Machine

/-- Settles O36: the checks come in order, and an accepted STOCKLOAD places the batch, marks the monitor and has the queue
considered. -/
theorem stockload : Obligations.Stockload := by
  intro w tag body id n s asks read journal sound refused
  have refuses : ∀ code, s.stockloadCheck id n = .error code → refused code := fun code h => by
    show exec (.stockload w) s = _
    rw [execStockload_asks asks read journal sound, h]
  refine ⟨fun bad => refuses _ (State.stockloadCheck_badValue bad), ?_⟩
  rintro p rfl low high
  refine ⟨fun known wrong => refuses _ (State.stockloadCheck_wrongState low high known wrong), fun b found ticket spent => ?_⟩
  have check := State.stockloadCheck_of_store low high found ticket spent
  refine ⟨fun busy => refuses _ (check.trans (if_neg ?_)), fun window old grants named => ?_⟩
  · rintro ⟨window, settled, grants⟩
    rcases busy with h | ⟨old, loaded, h⟩ | h
    · exact h window
    · have := settled old loaded
      omega
    · simp [h] at grants
  · rw [execStockload_asks asks read journal sound, check, if_pos ⟨window, old, grants⟩]
    dsimp only
    rw [State.acceptStockload_eq]
    obtain ⟨_, of_id⟩ := State.mem_batches_of_store found
    have places := (s.admitted w tag).batchPlaced_places (s.asker w tag) p b
    obtain ⟨notes, mismatch, lowMark⟩ := (s.admitted w tag).stockloaded_marks (s.asker w tag) p b
    have loud : (s.admitted w tag).Loud ((s.admitted w tag).stockloaded (s.asker w tag) p b) :=
      State.lowStockTest_loud (State.endCondition_loud places.quiet.loud _) _
    have tells := places.tells.after notes.tells
    generalize State.batchPlaced _ _ p b = v at *
    generalize State.stockloaded _ _ p b = x at *
    have jobs : x.jobs = s.jobs := notes.jobs.trans (by rw [places.rest]; rfl)
    have queues : x.queues = s.queues := notes.queues.trans (by rw [places.rest]; rfl)
    have ports : x.ports = s.ports.put p ((s.ports.at p).relieved .noStock) := notes.ports.trans (by rw [places.rest]; rfl)
    have stock : x.stock = { store := s.stock.store.filter fun x => x.id != id
                             loaded := s.stock.loaded.put p (some { b with state := .loaded }) } :=
      notes.stock.trans (by rw [places.rest, of_id]; rfl)
    have queuedAt : x.queuedAt p := by
      unfold State.queuedAt
      rw [jobs, queues]
      exact fun j m => named j (Or.inl m)
    have sorts := State.resolveQueue_sorts x p (fun job => job.stockType != b.stockType) (some .noStock)
    have last := loud.trans (State.resolveQueue_loud (.refl x) p (fun job => job.stockType != b.stockType) (some .noStock))
    have closed : ∀ job : Job, (job.stockType != b.stockType) = true → x.sendsType p job.stockType = false :=
      fun job other => by
        unfold State.sendsType State.loaded
        rw [stock]
        have : ¬ b.stockType = job.stockType := fun e => by simp [e] at other
        simp [this]
    refine ⟨_, rfl, sorts.stock.trans stock, ?_, sorts.ports.trans ports, ?_, ?_, ?_, ?_, ?_, fun v' => ?_, ?_⟩
    · rw [sorts.queue, notes.journal, places.queue, of_id]
      rfl
    · rw [sorts.monitor]
      exact mismatch
    · rw [sorts.monitor]
      exact lowMark
    · intro old loaded _ m
      have := (sorts.claims (.batch old.id) fun n h => nomatch h).mp m
      rw [notes.journal] at this
      exact places.claims old loaded this
    · intro j m job record
      obtain ⟨_, each⟩ := State.resolveQueue_queue x p (fun job => job.stockType != b.stockType) .noStock closed queuedAt
      obtain ⟨_, same, stays⟩ := each j m
      simpa using stays job (same.symm.trans record)
    · intro placed
      have once : (x.queues.at p).Nodup := by
        rw [queues]
        exact placed.queue_nodup
      refine ⟨?_, ?_⟩
      · refine (State.resolveQueue_considers x p _ _ queuedAt once).of_before jobs queues
          (by rw [notes.store, places.rest]; rfl) placed.queuedAt fun q other => ?_
        unfold State.loaded
        rw [ports, stock, Vector.at_put_other _ _ (Ne.symm other), Vector.at_put_other _ _ (Ne.symm other)]
        exact ⟨rfl, rfl⟩
      · refine State.Tells.jobsEnded ?_
        have gone := State.resolveQueue_tells x p (fun job => job.stockType != b.stockType) (some .noStock) once
        unfold State.gone at gone
        rw [jobs, queues] at gone
        exact (State.Tells.of_same (s := s) (u := s.admitted w tag) rfl fun _ h => h).before (tells.before gone)
    · exact (last.office.ports v').buffer
    · exact last.of_admitted
end

