-- ==== Sys2Proof/Proofs/StockWithdrawn.lean ====
section
/-! SUPPORT. STOCKOUT: the check, and what an accepted one leaves of the blocks (R79). -/

namespace Sys2Proof.Machine

theorem execStockout_asks {s : State} {w : Window} {tag : Byte} {body : List Byte} {n : Nat}
    (asks : s.asks w .stockout tag body = true) (read : readByte body = some n) (journal : s.journalTakes)
    (sound : s.officeSound) :
    exec (.stockout w) s = .next (match s.stockoutCheck n with
      | .error code => s.answered w tag code .nothing
      | .ok (p, b) => (s.admitted w tag).acceptStockout (s.asker w tag) p b) := by
  refine congrArg Host.Outcome.next ((State.takeRequest_asks asks read ownStockout).trans ?_)
  unfold ownStockout
  rw [State.withJournal_admitted journal]
  show (match s.stockoutCheck n with
    | .error code => (s.admitted w tag).refuse (s.asker w tag) code
    | .ok (p, b) => (s.admitted w tag).acceptStockout (s.asker w tag) p b) = _
  split
  · exact State.admitted_refuse sound w tag _
  · rfl

/-! ### Stock holds -/

/-- NO_STOCK or STOCK_UNVERIFIED at a TICKET port, and at no other (R49): the port, and what stands. -/
theorem State.addStockHold_effect (s : State) (p : Printer) (r : HoldReason) :
    s.addStockHold p r = { s with
      ports := (s.addStockHold p r).ports, jobs := (s.addStockHold p r).jobs, queues := (s.addStockHold p r).queues } ∧
    (s.function p = .ticket → (s.addStockHold p r).ports = s.ports.put p ((s.ports.at p).under r)) ∧
    (s.function p ≠ .ticket → s.addStockHold p r = s) := by
  unfold State.addStockHold
  by_cases ticket : s.function p = .ticket
  · rw [if_pos ticket]
    exact ⟨State.addHold_rest s p r, fun _ => State.addHold_ports s p r, fun no => absurd ticket no⟩
  · rw [if_neg ticket]
    exact ⟨rfl, fun yes => absurd yes ticket, fun _ => rfl⟩

/-- The queue of a port that a stock hold may take to HELD, seen from a state that differs at the port alone (R13). -/
theorem State.addStockHold_holdsQueue {v v' : State} {p : Printer} (r : HoldReason) (placed : v.placed p)
    (jobs : v'.jobs = v.jobs) (queues : v'.queues = v.queues) (tables : v'.store.tables = v.store.tables)
    (others : ∀ q, q ≠ p → (v'.ports.at q).state = (v.ports.at q).state ∧ v'.loaded q = v.loaded q) :
    v.HoldsQueue p (v.function p = .ticket ∧ (v'.ports.at p).state = .active) (v'.addStockHold p r) := by
  have function : v'.function p = v.function p := by
    unfold State.function State.printerEntry
    rw [tables]
  by_cases ticket : v.function p = .ticket
  · have same : (v.function p = .ticket ∧ (v'.ports.at p).state = .active) = ((v'.ports.at p).state = .active) :=
      propext (and_iff_right ticket)
    rw [same]
    unfold State.addStockHold
    rw [if_pos (function.trans ticket)]
    exact State.addHold_holdsQueue r placed.queuedAt placed.queue_nodup jobs queues tables others
  · have still := (v'.addStockHold_effect p r).2.2 (function ▸ ticket)
    exact .of_alone (fun h => ticket h.1) (by rw [still, jobs]) (by rw [still, queues])

/-! ### The check -/

theorem State.stockoutCheck_none {s : State} {p : Printer} (empty : s.loaded p = none) :
    s.stockoutCheck p.val = .error .wrongState := by
  unfold State.stockoutCheck
  rw [index?_val]
  dsimp only
  rw [empty]

theorem State.stockoutCheck_some {s : State} {p : Printer} {b : Batch} (loaded : s.loaded p = some b) :
    s.stockoutCheck p.val =
      if ¬ (b.state = .loaded ∨ b.state = .exhausted) then .error .wrongState
      else if (s.ports.at p).entries ≠ [] ∨ b.inHand ≠ 0 ∨ b.unrecorded ≠ 0 then .error .busy
      else if 0 < b.remaining ∧ 32 ≤ s.stock.store.length then .error .tableFull
      else if s.journal.grantsRequest = true then .ok (p, b)
      else .error .busy := by
  have busy : (¬ (s.ports.at p).entries.isEmpty ∨ ¬ b.settled) ↔
      ((s.ports.at p).entries ≠ [] ∨ b.inHand ≠ 0 ∨ b.unrecorded ≠ 0) := by
    simp [Batch.settled, List.isEmpty_iff, imp_iff_not_or]
  unfold State.stockoutCheck
  rw [index?_val]
  dsimp only
  rw [loaded]
  dsimp only
  refine if_congr Iff.rfl rfl (if_congr busy rfl rfl)

/-! ### An accepted STOCKOUT -/

/-- An accepted STOCKOUT before the hold reason. -/
def State.batchWithdrawn (s : State) (r : Reply) (p : Printer) (b : Batch) : State :=
  let s := s.clearClosing p
  let s := s.setLoaded p none
  let s := if 0 < b.remaining then
      { s with stock := { s.stock with store := s.stock.store ++ [newBatch b.id b.stockType b.next b.last] } }
    else s
  s.handFor (.batchOut b.id p b.next b.issued b.spoiled b.unaccounted b.test) r .done (.remainder b.remaining)

theorem State.acceptStockout_eq (s : State) (r : Reply) (p : Printer) (b : Batch) :
    s.acceptStockout r p b = ((s.batchWithdrawn r p b).addStockHold p .noStock).settle := rfl

theorem State.batchWithdrawn_effect (s : State) (r : Reply) {p : Printer} {b : Batch} (loaded : s.loaded p = some b) :
    let v := s.batchWithdrawn r p b
    v = { s with
      stock := { store := s.stock.store ++ if 0 < b.remaining then [newBatch b.id b.stockType b.next b.last] else []
                 loaded := s.stock.loaded.put p none }
      journal := v.journal, sessions := v.sessions } ∧
    v.journal.queue = s.journal.queue ++
      [{ record := .batchOut b.id p b.next b.issued b.spoiled b.unaccounted b.test
         link := .request r .done (.remainder b.remaining) }] ∧
    .batch b.id ∉ v.journal.claims ∧ s.Quiet v := by
  obtain ⟨cleared, withdrawn, _⟩ := s.clearClosing_effect p
  have quiet := State.clearClosing_quiet (.refl s) p
  have stocked : (if 0 < b.remaining then
      { (s.clearClosing p).setLoaded p none with stock := { ((s.clearClosing p).setLoaded p none).stock with
          store := ((s.clearClosing p).setLoaded p none).stock.store ++ [newBatch b.id b.stockType b.next b.last] } }
      else (s.clearClosing p).setLoaded p none) = { s.clearClosing p with
        stock := { store := s.stock.store ++ if 0 < b.remaining then [newBatch b.id b.stockType b.next b.last] else []
                   loaded := s.stock.loaded.put p none } } := by
    rw [cleared]
    split
    · rfl
    · rw [List.append_nil]
      rfl
  unfold State.batchWithdrawn State.handFor
  dsimp only
  rw [stocked]
  generalize s.clearClosing p = c at *
  obtain ⟨hands, queue, _⟩ := State.hand_effect { c with
    stock := { store := s.stock.store ++ if 0 < b.remaining then [newBatch b.id b.stockType b.next b.last] else []
               loaded := s.stock.loaded.put p none } }
    (.batchOut b.id p b.next b.issued b.spoiled b.unaccounted b.test) (.request r .done (.remainder b.remaining))
  refine ⟨?_, queue.trans (by rw [cleared]), ?_, State.hand_quiet (State.setStock_quiet quiet _) _ _⟩
  · rw [hands.rest, cleared]
  · rw [hands.claims]
    exact withdrawn b loaded

end Sys2Proof.Machine

open Sys2Proof Sys2Proof.Machine

/-- Settles O37: the checks come in order, and an accepted STOCKOUT withdraws the batch and holds the printer. -/
theorem stockout : Obligations.Stockout := by
  intro w tag body n s asks read journal sound refused
  have refuses : ∀ code, s.stockoutCheck n = .error code → refused code := fun code h => by
    show exec (.stockout w) s = _
    rw [execStockout_asks asks read journal sound, h]
  refine ⟨fun big => refuses _ ?_, ?_⟩
  · unfold State.stockoutCheck
    rw [index?_of_le big]
  rintro p rfl
  refine ⟨fun empty => refuses _ (State.stockoutCheck_none empty), fun b loaded => ?_⟩
  have check := State.stockoutCheck_some loaded
  refine ⟨fun a c => refuses _ (check.trans (if_pos fun h => h.elim a c)), fun state => ?_⟩
  rw [if_neg (not_not_intro state)] at check
  refine ⟨fun busy => refuses _ (check.trans (if_pos busy)), fun window inHand unrecorded => ?_⟩
  rw [if_neg fun h => h.elim (fun k => k window) fun h => h.elim (fun k => k inHand) fun k => k unrecorded] at check
  refine ⟨fun more full => refuses _ (check.trans (if_pos ⟨more, full⟩)), fun room no => ?_, fun room grants => ?_⟩
  · refine refuses _ (check.trans ?_)
    rw [if_neg (by omega), if_neg (by simp [no])]
  · rw [if_neg (by omega), if_pos grants] at check
    rw [execStockout_asks asks read journal sound, check]
    dsimp only
    rw [State.acceptStockout_eq]
    obtain ⟨rest, queue, claims, quiet⟩ := (s.admitted w tag).batchWithdrawn_effect (s.asker w tag) (p := p) loaded
    generalize State.batchWithdrawn _ _ p b = v at *
    have function : v.function p = s.function p := by
      rw [rest]
      rfl
    obtain ⟨after, ticket, other⟩ := v.addStockHold_effect p .noStock
    have last := State.addStockHold_quiet quiet p .noStock
    have queueKept : (v.addStockHold p .noStock).journal = v.journal := by rw [after]
    refine ⟨_, rfl, ?_, ?_, ?_, fun is => ?_, fun isNot => ?_, fun placed => ?_, last.silent.monitor, last.silent.office,
      last.loud.of_admitted⟩
    · rw [after, rest]
      rfl
    · rw [queueKept, queue]
      rfl
    · rw [queueKept]
      exact claims
    · rw [ticket (function.trans is), rest]
      rfl
    · rw [other (function ▸ isNot), rest]
      rfl
    · have holds := State.addStockHold_holdsQueue (v := s) (v' := v) (p := p) .noStock placed (by rw [rest]; rfl)
        (by rw [rest]; rfl) (by rw [rest]; rfl) fun q differ => ?_
      · rw [show (v.ports.at p).state = (s.ports.at p).state by rw [rest]; rfl] at holds
        exact holds
      · rw [rest]
        exact ⟨rfl, Vector.at_put_other _ _ (Ne.symm differ)⟩
end

