-- ==== Sys2Proof/Proofs/StockCounted.lean ====
section
/-! SUPPORT. STOCKCOUNT: the check, and what an accepted one leaves of the blocks (R80). -/

namespace Sys2Proof.Machine

theorem execStockcount_asks {s : State} {w : Window} {tag : Byte} {body : List Byte} {n observed : Nat}
    (asks : s.asks w .stockcount tag body = true) (read : readStockcount body = some (n, observed))
    (journal : s.journalTakes) (sound : s.officeSound) :
    exec (.stockcount w) s = .next (match s.stockcountCheck n observed with
      | .error code => s.answered w tag code .nothing
      | .ok (p, b) => (s.admitted w tag).acceptStockcount (s.asker w tag) p b observed) := by
  refine congrArg Host.Outcome.next ((State.takeRequest_asks asks read ownStockcount).trans ?_)
  unfold ownStockcount
  rw [State.withJournal_admitted journal]
  show (match s.stockcountCheck n observed with
    | .error code => (s.admitted w tag).refuse (s.asker w tag) code
    | .ok (p, b) => (s.admitted w tag).acceptStockcount (s.asker w tag) p b observed) = _
  split
  · exact State.admitted_refuse sound w tag _
  · rfl

/-! ### A set of hold reasons that becomes empty -/

theorem HoldReason.place_surjective (i : Fin 9) : ∃ r : HoldReason, r.place = i := by
  fin_cases i
  exacts [⟨.supervisor, rfl⟩, ⟨.noStock, rfl⟩, ⟨.stockUnverified, rfl⟩, ⟨.paperOut, rfl⟩, ⟨.coverOpen, rfl⟩,
    ⟨.headHot, rfl⟩, ⟨.jam, rfl⟩, ⟨.cutter, rfl⟩, ⟨.audit, rfl⟩]

theorem HoldSet.eq_noHolds_iff (h : HoldSet) : h = noHolds ↔ ∀ r : HoldReason, h.at r.place = false := by
  refine ⟨fun e r => e ▸ noHolds_at r.place, fun all => Vector.ext fun i m => ?_⟩
  obtain ⟨r, place⟩ := HoldReason.place_surjective ⟨i, m⟩
  have here := all r
  rw [place] at here
  exact here.trans (noHolds_at ⟨i, m⟩).symm

/-- A set loses its last reason. -/
theorem Port.put_eq_noHolds_iff (x : Port) (r : HoldReason) :
    x.hold.put r.place false = noHolds ↔ ∀ q : HoldReason, q ≠ r → x.holds q = false := by
  rw [HoldSet.eq_noHolds_iff]
  refine forall_congr' fun q => ?_
  rw [Vector.at_put]
  by_cases same : q = r
  · simp [same]
  · rw [if_neg fun h => same (HoldReason.place_injective h).symm]
    exact ⟨fun h _ => h, fun h => h same⟩

/-- A port that has lost a hold reason is ACTIVE when it was, or was HELD with no other (R49). -/
theorem Port.relieved_active_iff (x : Port) (r : HoldReason) : (x.relieved r).state = .active ↔
    x.state = .active ∨ (x.state = .held ∧ ∀ q : HoldReason, q ≠ r → x.holds q = false) := by
  rw [← Port.put_eq_noHolds_iff]
  unfold Port.relieved
  dsimp only
  split
  · rename_i h
    exact ⟨fun _ => Or.inr h, fun _ => rfl⟩
  · rename_i h
    exact ⟨Or.inl, fun k => k.resolve_right h⟩

/-! ### The check -/

theorem State.stockcountCheck_none {s : State} {p : Printer} (n : Nat) (empty : s.loaded p = none) :
    s.stockcountCheck p.val n = .error .wrongState := by
  unfold State.stockcountCheck
  rw [index?_val]
  dsimp only
  rw [empty]

theorem State.stockcountCheck_some {s : State} {p : Printer} {b : Batch} (n : Nat) (loaded : s.loaded p = some b) :
    s.stockcountCheck p.val n =
      if ¬ (b.state = .loaded ∨ b.state = .unverified) then .error .wrongState
      else if (s.ports.at p).entries ≠ [] ∨ b.inHand ≠ 0 then .error .busy
      else if ¬ (b.next ≤ n ∧ n ≤ b.last + 1) then .error .badValue
      else if s.journal.grantsRequest = true then .ok (p, b)
      else .error .busy := by
  have busy : (¬ (s.ports.at p).entries.isEmpty ∨ b.inHand ≠ 0) ↔ ((s.ports.at p).entries ≠ [] ∨ b.inHand ≠ 0) := by
    rw [List.isEmpty_iff]
  unfold State.stockcountCheck
  rw [index?_val]
  dsimp only
  rw [loaded]
  dsimp only
  exact if_congr Iff.rfl rfl (if_congr busy rfl rfl)

/-! ### A batch exhausted (R83) -/

/-- The batch is EXHAUSTED and owes its closing record, and the printer is held (R83). -/
theorem State.exhaust_effect (s : State) (p : Printer) (b : Batch) :
    let v := s.setLoaded p (some { b with state := .exhausted, closingOwed := true })
    let u := s.exhaust p b
    u = { s with
      stock := { s.stock with loaded := s.stock.loaded.put p (some { b with state := .exhausted, closingOwed := true }) }
      ports := (v.addStockHold p .noStock).ports, jobs := (v.addStockHold p .noStock).jobs
      queues := (v.addStockHold p .noStock).queues
      journal := { s.journal with claims := u.journal.claims } } ∧
    (∀ c, c ∈ u.journal.claims ↔ c ∈ s.journal.claims ∨ c = .batch b.id) := by
  intro v u
  obtain ⟨rest, _⟩ := v.addStockHold_effect p .noStock
  have claims := (v.addStockHold p .noStock).addClaim_mem (.batch b.id)
  have shape : u = (v.addStockHold p .noStock).addClaim (.batch b.id) := rfl
  have added : u = { v.addStockHold p .noStock with
      journal := { (v.addStockHold p .noStock).journal with claims := u.journal.claims } } := by
    rw [shape]
    unfold State.addClaim State.updateJournal
    dsimp only
    split <;> rfl
  refine ⟨?_, fun c => ?_⟩
  · rw [added, rest]
    rfl
  · rw [shape, claims, rest]
    rfl

/-! ### An accepted STOCKCOUNT -/

/-- An accepted STOCKCOUNT before an exhausted batch holds its printer. -/
def State.batchCounted (s : State) (r : Reply) (p : Printer) (b : Batch) (n : Nat) : State :=
  let s := s.setLoaded p (some (b.settleTo n))
  let s := s.handFor (.count b.id p n (b.counted n) (b.settleTo n).state) r .done (.counted (b.counted n))
  let s := s.removeHold p .stockUnverified
  s.endCondition (.printer p .stockMismatch)

theorem State.acceptStockcount_eq (s : State) (r : Reply) (p : Printer) (b : Batch) (n : Nat) :
    s.acceptStockcount r p b n = (State.lowStockTest (if n = b.last + 1 then
      (s.batchCounted r p b n).exhaust p (b.settleTo n) else s.batchCounted r p b n) p).settle := rfl

theorem State.batchCounted_effect (s : State) (r : Reply) (p : Printer) (b : Batch) (n : Nat) :
    let v := s.batchCounted r p b n
    v = { s with
      stock := { s.stock with loaded := s.stock.loaded.put p (some (b.settleTo n)) }
      ports := s.ports.put p ((s.ports.at p).relieved .stockUnverified)
      journal := v.journal, sessions := v.sessions, monitor := v.monitor } ∧
    v.journal.queue = s.journal.queue ++ [{ record := .count b.id p n (b.counted n) (b.settleTo n).state
                                            link := .request r .done (.counted (b.counted n)) }] ∧
    (v.monitor.lasting.at p).stockMismatch = false ∧ s.Loud v := by
  have quiet : s.Quiet (((s.setLoaded p (some (b.settleTo n))).handFor (.count b.id p n (b.counted n)
      (b.settleTo n).state) r .done (.counted (b.counted n))).removeHold p .stockUnverified) :=
    State.removeHold_quiet (State.hand_quiet (State.setLoaded_quiet (.refl s) _ _) _ _) _ _
  have loud := State.endCondition_loud quiet.loud (.printer p .stockMismatch)
  unfold State.batchCounted State.handFor at *
  dsimp only at *
  obtain ⟨hands, queue, _⟩ := State.hand_effect (s.setLoaded p (some (b.settleTo n)))
    (.count b.id p n (b.counted n) (b.settleTo n).state) (.request r .done (.counted (b.counted n)))
  generalize State.hand _ _ _ = v at *
  rw [State.removeHold_rest] at *
  have ended := State.endCondition_rest { v with ports := v.ports.put p ((v.ports.at p).relieved .stockUnverified) } p
    .stockMismatch
  have mark := State.endCondition_lasting { v with ports := v.ports.put p ((v.ports.at p).relieved .stockUnverified) } p
    .stockMismatch
  generalize State.endCondition _ _ = u at *
  refine ⟨?_, ?_, ?_, loud⟩
  · rw [ended, hands.rest]
    rfl
  · rw [ended]
    exact queue
  · rw [mark, Vector.at_put_same]
    rfl

end Sys2Proof.Machine

open Sys2Proof Sys2Proof.Machine

/-- Settles O38: the checks come in order, and an accepted STOCKCOUNT settles the batch, and exhausts it where the count
reaches its end. -/
theorem stockcount : Obligations.Stockcount := by
  intro w tag body n observed s asks read journal sound refused
  have refuses : ∀ code, s.stockcountCheck n observed = .error code → refused code := fun code h => by
    show exec (.stockcount w) s = _
    rw [execStockcount_asks asks read journal sound, h]
  refine ⟨fun big => refuses _ ?_, ?_⟩
  · unfold State.stockcountCheck
    rw [index?_of_le big]
  rintro p rfl
  refine ⟨fun empty => refuses _ (State.stockcountCheck_none observed empty), fun b loaded => ?_⟩
  have check := State.stockcountCheck_some observed loaded
  refine ⟨fun a c => refuses _ (check.trans (if_pos fun h => h.elim a c)), fun state => ?_⟩
  rw [if_neg (not_not_intro state)] at check
  refine ⟨fun busy => refuses _ (check.trans (if_pos busy)), fun window inHand => ?_⟩
  rw [if_neg fun h => h.elim (fun k => k window) fun k => k inHand] at check
  refine ⟨fun out => refuses _ (check.trans (if_pos (by omega))), fun low high => ?_⟩
  rw [if_neg (by omega)] at check
  refine ⟨fun no => refuses _ (check.trans (if_neg (by simp [no]))), fun grants => ?_⟩
  rw [if_pos grants] at check
  rw [execStockcount_asks asks read journal sound, check]
  dsimp only
  rw [State.acceptStockcount_eq]
  obtain ⟨rest, queue, mismatch, loud⟩ := (s.admitted w tag).batchCounted_effect (s.asker w tag) p b observed
  generalize State.batchCounted _ _ p b observed = v at *
  have entry : ∀ x : State, x.store = v.store → x.printerEntry p = s.printerEntry p := fun x h => by
    unfold State.printerEntry
    rw [h, rest]
    rfl
  have settled : b.settleTo observed = { b with
      next := observed, inHand := observed - b.next + b.unrecorded, unrecorded := 0
      state := if observed = b.last + 1 then .exhausted else .loaded } := by
    unfold Batch.settleTo Batch.counted
    rw [inHand, Nat.zero_add]
  have stock : v.stock = { s.stock with loaded := s.stock.loaded.put p (some (b.settleTo observed)) } := by
    rw [rest]
    rfl
  by_cases ends : observed = b.last + 1
  · rw [if_pos ends]
    obtain ⟨after, claims⟩ := v.exhaust_effect p (b.settleTo observed)
    have last := loud.quiet (State.exhaust_quiet (.refl v) p (b.settleTo observed))
    generalize v.exhaust p (b.settleTo observed) = x at *
    have there : x.loaded p = some { b.settleTo observed with state := .exhausted, closingOwed := true } := by
      rw [after]
      exact Vector.at_put_same _ _ _
    obtain ⟨notes, kept, low_⟩ := State.lowStockTest_effect there
    have last := State.lowStockTest_loud last p
    generalize x.lowStockTest p = u at *
    let held := v.setLoaded p (some { b.settleTo observed with state := .exhausted, closingOwed := true })
    have function : held.function p = s.function p := by
      show (v.printerEntry p).function = _
      rw [entry v rfl]
      rfl
    obtain ⟨_, ticket, other⟩ := held.addStockHold_effect p .noStock
    have ports : u.ports = (held.addStockHold p .noStock).ports := notes.ports.trans (by rw [after])
    have put_ : held.ports = s.ports.put p ((s.ports.at p).relieved .stockUnverified) := by
      show v.ports = _
      rw [rest]
      rfl
    refine ⟨u, rfl, ?_, ?_, ⟨fun no => ?_, fun _ is => ?_⟩, ?_, fun _ => ?_, ?_, fun placed => ?_, last.of_admitted⟩
    · rw [notes.stock, after]
      show ({ v.stock with loaded := v.stock.loaded.put p _ } : Stock) = _
      rw [stock, Vector.put_put, settled]
      simp [ends]
    · rw [notes.journal, after]
      refine queue.trans ?_
      rw [settled]
      rfl
    · rw [ports, other (function ▸ no.resolve_left (by omega)), put_]
      rfl
    · rw [ports, ticket (function.trans is), put_, Vector.put_put, Vector.at_put_same]
      rfl
    · rw [kept, after]
      exact mismatch
    · rw [notes.journal]
      exact (claims _).mpr (Or.inr rfl)
    · rw [low_, entry x (by rw [after])]
      simp [Batch.remaining, Batch.settleTo]
    · have holds := State.addStockHold_holdsQueue (v := s) (v' := held) (p := p) .noStock placed
        (show v.jobs = _ by rw [rest]; rfl) (show v.queues = _ by rw [rest]; rfl) (show v.store.tables = _ by rw [rest]; rfl)
        fun q differ => ?_
      · rw [put_, Vector.at_put_same, propext ((s.ports.at p).relieved_active_iff .stockUnverified)] at holds
        rw [show (observed = b.last + 1 ∧ s.function p = .ticket ∧ _) = _ from propext (and_iff_right ends)]
        exact holds.of_after (notes.jobs.trans (by rw [after])) (notes.queues.trans (by rw [after]))
      · rw [put_, Vector.at_put_other _ _ (Ne.symm differ)]
        refine ⟨rfl, ?_⟩
        unfold State.loaded
        show Vector.at (v.stock.loaded.put p _) q = _
        rw [Vector.at_put_other _ _ (Ne.symm differ), rest]
        exact Vector.at_put_other _ _ (Ne.symm differ)
  · rw [if_neg ends]
    have there : v.loaded p = some (b.settleTo observed) := by
      rw [rest]
      exact Vector.at_put_same _ _ _
    obtain ⟨notes, kept, low_⟩ := State.lowStockTest_effect there
    have last := State.lowStockTest_loud loud p
    generalize v.lowStockTest p = u at *
    refine ⟨u, rfl, ?_, ?_, ⟨fun _ => ?_, fun full => absurd full ends⟩, ?_, fun full => absurd full ends, ?_,
      fun _ => .of_alone (fun h => ends h.1) (notes.jobs.trans ?_) (notes.queues.trans ?_), last.of_admitted⟩
    · rw [notes.stock, stock, settled, beq_eq_false_iff_ne.mpr ends, Bool.or_false]
    · rw [notes.journal]
      refine queue.trans ?_
      rw [settled]
      rfl
    · rw [notes.ports, rest]
      rfl
    · rw [kept]
      exact mismatch
    · rw [low_, entry v rfl]
      simp [Batch.remaining, Batch.settleTo]
    · rw [rest]
      rfl
    · rw [rest]
      rfl
end

