-- ==== Sys2Proof/Proofs/PortsLeft.lean ====
section
/-! SUPPORT. A port that leaves ACTIVE or HELD drops its work: its outstanding jobs return to its queue, and each job of the
queue moves or ends for its session (R11, R12, R14, R21). -/

namespace Sys2Proof.Machine

/-! ### What sessions see of a window cut -/

/-- Jobs that return to their queue leave the other blocks. -/
theorem State.returning_rest (s : State) (p : Printer) (es : List Entry) :
    (s.returning p es).journal = s.journal ∧ (s.returning p es).sessions = s.sessions ∧
      (s.returning p es).ports = s.ports ∧ (s.returning p es).stock = s.stock ∧ (s.returning p es).store = s.store := by
  unfold State.returning
  exact ⟨rfl, rfl, rfl, rfl, rfl⟩

theorem State.returning_tells (s : State) (p : Printer) (es : List Entry) : s.Tells (fun _ => 0) (s.returning p es) := by
  obtain ⟨journal, sessions, _⟩ := s.returning_rest p es
  exact .of_same sessions fun n h => by rw [journal]; exact h

theorem State.dropEntry_tells (cause : SpoilCause) (p : Printer) (s : State) (e : Entry) :
    s.Tells (fun _ => 0) (State.dropEntry cause p s e) := by
  have release : ∀ (t : State) (n : Nat), t.Tells (fun _ => 0) (t.releasePlaces n) := fun t n => .of_same rfl fun _ h => h
  unfold State.dropEntry
  split
  · exact .refl s
  · split
    · split
      · exact release s _
      · exact ((release s 1).after (State.hand_tells _ _ _)).after (release _ _)
    · exact release s _

theorem State.Tells.foldl {α : Type} {f : State → α → State} (each : ∀ (s : State) (a : α), s.Tells (fun _ => 0) (f s a)) (l : List α)
    (s : State) : s.Tells (fun _ => 0) (l.foldl f s) := by
  induction l generalizing s with
  | nil => exact .refl s
  | cons a l ih => exact (each s a).after (ih _)

theorem State.updatePort_tells (s : State) (p : Printer) (f : Port → Port) : s.Tells (fun _ => 0) (s.updatePort p f) :=
  .of_same rfl fun _ h => h

theorem State.cutWindow_tells (s : State) (p : Printer) (k : Nat) (cause : SpoilCause) :
    s.Tells (fun _ => 0) (s.cutWindow p k cause) := by
  have drops := State.Tells.foldl (State.dropEntry_tells cause p) ((s.ports.at p).entries.drop k) s
  unfold State.cutWindow
  dsimp only
  generalize ((s.ports.at p).entries.drop k).foldl (State.dropEntry cause p) s = d at *
  rw [State.returnJobs_returning]
  exact (drops.after (State.updatePort_tells d p _)).after (State.returning_tells _ _ _)

/-! ### The queue of a port that leaves -/

/-- The jobs of a queue to which a window's jobs have returned are those that stood at the printer. -/
theorem State.mem_returning_queue (s : State) (p : Printer) (j : JobNumber) :
    j ∈ (s.returning p (s.ports.at p).entries).queues.at p ↔ s.standsAt p j := by
  unfold State.returning State.standsAt
  dsimp only
  rw [Vector.at_put_same, List.mem_append, or_comm]
  simp

theorem State.returning_session (s : State) (p : Printer) (es : List Entry) (j : JobNumber) :
    ((s.returning p es).jobs.at j).map Job.session = (s.jobs.at j).map Job.session := by
  rw [State.returning_jobs]
  split
  · rw [Option.map_map]
    rfl
  · rfl

theorem State.placed.returning {s : State} {p : Printer} (h : s.placed p) :
    (s.returning p (s.ports.at p).entries).queuedAt p ∧
      ((s.returning p (s.ports.at p).entries).queues.at p).Nodup := by
  refine ⟨fun j m => ?_, ?_⟩
  · obtain ⟨x, record, at_⟩ := h.1 j ((s.mem_returning_queue p j).mp m)
    rw [State.returning_jobs, record]
    split
    · exact ⟨x.returned, rfl, at_⟩
    · exact ⟨x, rfl, at_⟩
  · unfold State.returning
    dsimp only
    rw [Vector.at_put_same]
    exact h.2

/-- Jobs counted by their sessions alone. -/
theorem countP_session_congr {l : List JobNumber} {f g : JobNumber → Option Job}
    (same : ∀ j ∈ l, (f j).map Job.session = (g j).map Job.session) (i : Nat) :
    (l.filterMap f).countP (fun job => job.session == i) = (l.filterMap g).countP fun job => job.session == i := by
  have count : ∀ h : JobNumber → Option Job, (l.filterMap h).countP (fun job => job.session == i) =
      (l.filterMap fun j => (h j).map Job.session).countP (· == i) := fun h => by
    rw [← List.map_filterMap, List.countP_map]
    rfl
  rw [count, count, List.filterMap_congr same]

/-- The jobs that a port had and that are in the pool no more. -/
def State.lostAt (s u : State) (p : Printer) : List Job :=
  allJobs.filterMap fun j => if s.standsAt p j ∧ u.jobs.at j = none then s.jobs.at j else none

/-- The queue of a port that has left, its window's jobs returned, is considered under R14. -/
theorem State.refuseQueue_drops {s z : State} {p : Printer} (placed : s.placed p)
    (jobs : z.jobs = (s.returning p (s.ports.at p).entries).jobs)
    (queues : z.queues = (s.returning p (s.ports.at p).entries).queues)
    (tables : z.store.tables = s.store.tables)
    (others : ∀ q, q ≠ p → (z.ports.at q).state = (s.ports.at q).state ∧ z.loaded q = s.loaded q)
    (tells : s.Tells (fun _ => 0) z) :
    (s.returning p (s.ports.at p).entries).Considers p (fun _ => true) (some .printerUnavailable) (z.refuseQueue p) ∧
      s.JobsEnded (s.lostAt (z.refuseQueue p) p) (z.refuseQueue p) := by
  obtain ⟨named, once⟩ := placed.returning
  have named' : z.queuedAt p := by
    unfold State.queuedAt
    rw [jobs, queues]
    exact named
  have once' : (z.queues.at p).Nodup := by
    rw [queues]
    exact once
  obtain ⟨_, _, ports, stock, store⟩ := s.returning_rest p (s.ports.at p).entries
  refine ⟨(State.resolveQueue_considers z p _ _ named' once').of_before jobs queues (by rw [tables, store]) named
    fun q other => ?_, ?_⟩
  · unfold State.loaded
    rw [ports, stock]
    exact others q other
  have gone : z.Tells (fun i => (z.gone (z.refuseQueue p) (z.queues.at p)).countP fun job => job.session == i)
      (z.refuseQueue p) := State.resolveQueue_tells z p (fun _ => true) (some .printerUnavailable) once'
  generalize z.refuseQueue p = u at *
  refine ((tells.before gone).congr fun i => ?_).jobsEnded
  unfold State.gone State.lostAt
  rw [countP_filterMap_allJobs once']
  refine countP_session_congr (fun j _ => ?_) i
  have stands : j ∈ z.queues.at p ↔ s.standsAt p j := by
    rw [queues]
    exact s.mem_returning_queue p j
  by_cases m : j ∈ z.queues.at p
  · by_cases none_ : u.jobs.at j = none
    · rw [if_pos m, if_pos none_, if_pos ⟨stands.mp m, none_⟩, jobs, State.returning_session]
    · rw [if_pos m, if_neg none_, if_neg fun h => none_ h.2]
  · rw [if_neg m, if_neg fun h => m (stands.mpr h.1)]

/-- A port whose window has been emptied and whose state has changed, before its queue is considered. -/
structure State.Emptied (s : State) (p : Printer) (z : State) : Prop where
  jobs : z.jobs = (s.returning p (s.ports.at p).entries).jobs
  queues : z.queues = (s.returning p (s.ports.at p).entries).queues
  tables : z.store.tables = s.store.tables
  others : ∀ q, q ≠ p → z.ports.at q = s.ports.at q
  stock : z.stock = s.stock
  tells : s.Tells (fun _ => 0) z

theorem State.Emptied.drops {s z : State} {p : Printer} (h : s.Emptied p z) (placed : s.placed p) :
    (s.returning p (s.ports.at p).entries).Considers p (fun _ => true) (some .printerUnavailable) (z.refuseQueue p) ∧
      s.JobsEnded (s.lostAt (z.refuseQueue p) p) (z.refuseQueue p) :=
  State.refuseQueue_drops placed h.jobs h.queues h.tables
    (fun q other => ⟨by rw [h.others q other], by unfold State.loaded; rw [h.stock]⟩) h.tells

/-- A window emptied after notes to the monitor and the withdrawal of the engine's claim (R48, R59). -/
theorem State.resolveWindow_emptied {s v : State} (notes : s.Notes v) (p : Printer) (cause : SpoilCause) (f : Port → Port) :
    s.Emptied p (((v.withdrawClaim (.engine p)).resolveWindow p cause).updatePort p f) := by
  rw [State.resolveWindow_eq]
  have tells := (notes.tells.after (v.withdrawClaim_tells fun n (h : Claim.engine p = .session n) => nomatch h)).after
    ((v.withdrawClaim (.engine p)).cutWindow_tells p 0 cause)
  have ports := (v.withdrawClaim (.engine p)).cutWindow_ports p 0 cause
  obtain ⟨_, store, _, stock, _⟩ := (v.withdrawClaim (.engine p)).cutWindow_rest p 0 cause
  obtain ⟨d, hands, _, _, shape⟩ := (v.withdrawClaim (.engine p)).cutWindow_eq p 0 cause
  have window : ((v.withdrawClaim (.engine p)).ports.at p).entries = (s.ports.at p).entries :=
    congrArg (fun ports => (Vector.at ports p).entries) notes.ports
  refine ⟨?_, ?_, ?_, fun q other => ?_, ?_, tells.after (State.updatePort_tells _ p f)⟩
  · rw [State.updatePort_jobs, shape]
    dsimp only
    rw [window, List.drop_zero]
    unfold State.returning
    simp only [State.withdrawClaim, State.updateJournal_jobs, notes.jobs]
  · rw [State.updatePort_queues, shape]
    dsimp only
    rw [window, List.drop_zero]
    unfold State.returning
    simp only [State.withdrawClaim, State.updateJournal_queues, notes.queues]
  · exact (congrArg TableStore.tables store).trans (congrArg TableStore.tables notes.store)
  · rw [State.updatePort_ports, Vector.at_put_other _ _ (Ne.symm other), ports, Vector.at_put_other _ _ (Ne.symm other)]
    exact congrArg (Vector.at · q) notes.ports
  · exact stock.trans notes.stock

theorem State.raised_notes (s : State) (p : Printer) (condition : Option PrinterFault) :
    s.Notes (s.raised p condition) := by
  cases condition with
  | none => exact .refl s
  | some c => exact State.raise_notes s _

theorem State.failPort_emptied (s : State) (p : Printer) (condition : Option PrinterFault) :
    ∃ z, s.Emptied p z ∧ s.failPort p condition = z.refuseQueue p :=
  ⟨_, State.resolveWindow_emptied (s.raised_notes p condition) p .protocol _, s.failPort_eq p condition⟩

theorem State.goAbsent_emptied (s : State) (p : Printer) : ∃ z, s.Emptied p z ∧ s.goAbsent p = z.refuseQueue p :=
  ⟨_, State.resolveWindow_emptied (State.raise_notes s (.printer p .noAnswer)) p .lost _, rfl⟩

/-! ### The work dropped -/

/-- A port has changed, and not its window; besides it, notes to the monitor and the office link alone. -/
structure State.AtPort (s : State) (p : Printer) (v : State) : Prop where
  rest : v = { s with ports := v.ports, monitor := v.monitor, office := v.office }
  others : ∀ q, q ≠ p → v.ports.at q = s.ports.at q
  entries : (v.ports.at p).entries = (s.ports.at p).entries
  loud : s.Loud v

theorem State.AtPort.refl (s : State) (p : Printer) : s.AtPort p s := ⟨rfl, fun _ _ => rfl, rfl, .refl s⟩

theorem State.AtPort.returning {s v : State} {p : Printer} (h : s.AtPort p v) :
    (v.returning p (v.ports.at p).entries).jobs = (s.returning p (s.ports.at p).entries).jobs ∧
      (v.returning p (v.ports.at p).entries).queues = (s.returning p (s.ports.at p).entries).queues := by
  have jobs : v.jobs = s.jobs := by rw [h.rest]
  have queues : v.queues = s.queues := by rw [h.rest]
  unfold State.returning
  simp only [h.entries, jobs, queues, and_self]

theorem State.Emptied.of_before {s v z : State} {p : Printer} (h : v.Emptied p z) (before : s.AtPort p v) :
    s.Emptied p z where
  jobs := h.jobs.trans before.returning.1
  queues := h.queues.trans before.returning.2
  tables := h.tables.trans (by rw [before.rest])
  others q other := (h.others q other).trans (before.others q other)
  stock := h.stock.trans (by rw [before.rest])
  tells := (State.Tells.of_same (by rw [before.rest]) fun n m => by rw [before.rest]; exact m).before h.tells

theorem State.Leaves.of_before {s v u : State} {p : Printer} {after : PortState} {cause : SpoilCause}
    (h : v.Leaves p after cause u) (before : s.AtPort p v) : s.Leaves p after cause u where
  state := h.state
  entries := h.entries
  timers := h.timers
  others q other := (h.others q other).trans (before.others q other)
  queue placed := h.queue (by
    unfold State.placed State.jobsAt State.standsAt at *
    rw [before.entries, show v.jobs = s.jobs by rw [before.rest], show v.queues = s.queues by rw [before.rest]]
    exact placed)
  records := by
    rw [h.records, before.entries, State.spoils_jobs (show v.jobs = s.jobs by rw [before.rest]),
      show v.journal = s.journal by rw [before.rest]]
  places held := by
    rw [h.places (before.entries ▸ held), show v.journal = s.journal by rw [before.rest]]
    unfold Port.places
    rw [before.entries]
  claim := h.claim
  keeps := before.loud.keeps.trans h.keeps
  books := before.loud.books.trans h.books

/-- A port that leaves drops its work. -/
theorem State.Leaves.drops {s v z u : State} {p : Printer} {after : PortState} {cause : SpoilCause}
    (leaves : v.Leaves p after cause u) (emptied : v.Emptied p z) (shape : u = z.refuseQueue p) (before : s.AtPort p v) :
    s.Drops p after cause u ∧
      (s.placed p → (s.returning p (s.ports.at p).entries).Considers p (fun _ => true) (some .printerUnavailable) u) := by
  subst shape
  have emptied := emptied.of_before before
  exact ⟨⟨leaves.of_before before, fun placed => (emptied.drops placed).1.toResolves,
    fun placed => (emptied.drops placed).2⟩, fun placed => (emptied.drops placed).1⟩

/-- A port that fails drops its work (R59). -/
theorem State.failPort_drops {s v : State} {p : Printer} (before : s.AtPort p v) (condition : Option PrinterFault) :
    s.Drops p .failed .protocol (v.failPort p condition) ∧
      (s.placed p → (s.returning p (s.ports.at p).entries).Considers p (fun _ => true) (some .printerUnavailable)
        (v.failPort p condition)) := by
  obtain ⟨z, emptied, shape⟩ := v.failPort_emptied p condition
  exact (v.failPort_leaves p condition).drops emptied shape before

/-- A port that goes ABSENT drops its work (R48). -/
theorem State.goAbsent_drops {s v : State} {p : Printer} (before : s.AtPort p v) :
    s.Drops p .absent .lost (v.goAbsent p) ∧
      (s.placed p → (s.returning p (s.ports.at p).entries).Considers p (fun _ => true) (some .printerUnavailable)
        (v.goAbsent p)) := by
  obtain ⟨z, emptied, shape⟩ := v.goAbsent_emptied p
  exact (v.goAbsent_leaves p).drops emptied shape before

end Sys2Proof.Machine
end

