-- ==== Sys2Proof/Proofs/ReportsHeard.lean ====
section
/-! SUPPORT. Reports at an ACTIVE or HELD port: which are taken, and what the port makes of one it does not take (R45, R54,
R59, R131). -/

namespace Sys2Proof.Machine

/-! ### Which reports are taken -/

/-- The port's function knows the report: a roll port knows PRINTED and JAMMED alone (R54, R65). -/
def ImageReport.known (r : ImageReport) (function : PortFunction) : Bool := function == .ticket || r == .printed || r == .jammed

/-- The report is taken for the entry at a place (Table 3-6, R65). -/
def State.admits (s : State) (p : Printer) (r : ImageReport) (k : Nat) : Bool :=
  if s.function p = .ticket then
    match r with
    | .fed => (s.ports.at p).allowsFed k
    | .doublefed => (s.ports.at p).allowsDoubleFed k
    | .printed => (s.ports.at p).allowsPrinted k
    | .presented => (s.ports.at p).allowsPresented k
    | .jammed => (s.ports.at p).allowsJammed k
  else
    match r with
    | .printed => k == 0
    | .jammed => true
    | .fed => false
    | .doublefed => false
    | .presented => false

/-- What a report taken does (R55 to R58, R65). -/
def State.takeImageReport (s : State) (p : Printer) (r : ImageReport) (k : Nat) : State :=
  if s.function p = .ticket then
    match r with
    | .fed => s.takeFeed p k
    | .doublefed => s.takeDoubleFeed p k
    | .printed => s.takePrint p k
    | .presented => s.takePresent p k
    | .jammed => s.takeJam p k
  else
    match r with
    | .printed => s.takeRollPrint p
    | .jammed => s.takeRollJam p k
    | .fed => s
    | .doublefed => s
    | .presented => s

/-- A report that names the entry at a place. -/
def State.reportAt (s : State) (p : Printer) (r : ImageReport) (k : Nat) : State :=
  if s.admits p r k then (s.takeImageReport p r k).settle else s.mismatch p .protocol

theorem ticketReport_eq {s : State} {p : Printer} (ticket : s.function p = .ticket) (allowed : Bool) (taken : State) :
    s.ticketReport p allowed taken = if allowed then taken.settle else s.mismatch p .protocol := by
  unfold State.ticketReport
  exact if_congr (and_iff_right ticket) rfl rfl

/-- A report about an image at an ACTIVE or HELD port (R54). -/
theorem exec_report {s : State} {p : Printer} (takes_ : s.takesReports p) (r : ImageReport) (body : List Byte) :
    exec (r.command p body) s = .next (if r.known (s.function p) then s.takeReport p body (s.reportAt p r)
      else s.mismatch p .protocol) := by
  have ready : (s.isRunning && (s.ports.at p).attached) = true := by simp [takes_.running, takes_.attached]
  have only : ∀ report : State, s.ticketOnly p report = if s.function p = .ticket then report else s.mismatch p .protocol :=
    fun report => by
      unfold State.ticketOnly
      rw [ready, Bool.true_and]
      by_cases ticket : s.function p = .ticket <;> simp [ticket]
  have told : ∀ take take' : Nat → State, (∀ k, take k = take' k) → s.takeReport p body take = s.takeReport p body take' :=
    fun take take' same => congrArg _ (funext same)
  have ofTicket : ∀ (allows : Nat → Bool) (take : Nat → State), s.function p = .ticket →
      (∀ k, s.admits p r k = allows k) → (∀ k, s.takeImageReport p r k = take k) →
      s.takeReport p body (fun k => s.ticketReport p (allows k) (take k)) = s.takeReport p body (s.reportAt p r) :=
    fun allows take ticket admits takes' => told _ _ fun k => by
      unfold State.reportAt
      rw [ticketReport_eq ticket, admits, takes']
  unfold State.admits State.takeImageReport at ofTicket
  by_cases ticket : s.function p = .ticket
  · simp only [if_pos ticket] at ofTicket
    have known : r.known (s.function p) = true := by simp [ImageReport.known, ticket]
    rw [if_pos known]
    cases r with
    | fed => exact congrArg Host.Outcome.next ((only _).trans ((if_pos ticket).trans
        (ofTicket _ _ ticket (fun _ => rfl) fun _ => rfl)))
    | doublefed => exact congrArg Host.Outcome.next ((only _).trans ((if_pos ticket).trans
        (ofTicket _ _ ticket (fun _ => rfl) fun _ => rfl)))
    | presented => exact congrArg Host.Outcome.next ((only _).trans ((if_pos ticket).trans
        (ofTicket _ _ ticket (fun _ => rfl) fun _ => rfl)))
    | printed =>
      refine congrArg Host.Outcome.next ((told _ _ fun k => ?_).trans (ofTicket _ _ ticket (fun _ => rfl) fun _ => rfl))
      exact if_pos ticket
    | jammed =>
      refine congrArg Host.Outcome.next ((told _ _ fun k => ?_).trans (ofTicket _ _ ticket (fun _ => rfl) fun _ => rfl))
      exact if_pos ticket
  · have notTicket : (s.function p == .ticket) = false := by simpa using ticket
    cases r with
    | fed => exact congrArg Host.Outcome.next ((only _).trans ((if_neg ticket).trans
        (if_neg (by simp [ImageReport.known, notTicket])).symm))
    | doublefed => exact congrArg Host.Outcome.next ((only _).trans ((if_neg ticket).trans
        (if_neg (by simp [ImageReport.known, notTicket])).symm))
    | presented => exact congrArg Host.Outcome.next ((only _).trans ((if_neg ticket).trans
        (if_neg (by simp [ImageReport.known, notTicket])).symm))
    | printed =>
      rw [if_pos (by simp [ImageReport.known])]
      refine congrArg Host.Outcome.next (told _ _ fun k => ?_)
      rw [if_neg ticket]
      unfold State.reportAt State.admits State.takeImageReport
      simp only [if_neg ticket, beq_iff_eq]
    | jammed =>
      rw [if_pos (by simp [ImageReport.known])]
      refine congrArg Host.Outcome.next (told _ _ fun k => ?_)
      rw [if_neg ticket]
      unfold State.reportAt State.admits State.takeImageReport
      simp only [if_neg ticket, if_true]

/-- Table 3-6 read from the entry named and the older ones. -/
theorem State.Names.admits_iff {s : State} {p : Printer} {body : List Byte} {older : List Entry} {e : Entry}
    {younger : List Entry} (h : s.Names p body older e younger) (r : ImageReport) :
    s.admits p r older.length = true ↔ r.allowed (s.function p) older e := by
  have at_ : (s.ports.at p).entries[older.length]? = some e := by
    rw [h.window]
    simp
  unfold State.admits ImageReport.allowed
  by_cases ticket : s.function p = .ticket
  · rw [if_pos ticket, if_pos ticket]
    cases r <;>
      simp only [Port.allowsFed, Port.allowsDoubleFed, Port.allowsPrinted, Port.allowsPresented, Port.allowsJammed, h.phaseAt,
        h.olderAll, at_, EntryPhase.wasFed, Bool.and_eq_true, Bool.or_eq_true, beq_iff_eq, Option.some.injEq,
        List.all_eq_true, Option.bind_some, Option.any_eq_true, Bool.not_eq_true', List.length_eq_zero_iff]
  · rw [if_neg ticket, if_neg ticket]
    cases r <;> simp

/-- A report that Table 3-6 allows is taken. -/
theorem State.Names.taken {s : State} {p : Printer} {body : List Byte} {older : List Entry} {e : Entry}
    {younger : List Entry} (h : s.Names p body older e younger) {r : ImageReport}
    (allowed : r.allowed (s.function p) older e) :
    exec (r.command p body) s = .next (s.takeImageReport p r older.length).settle := by
  have known : r.known (s.function p) = true := by
    unfold ImageReport.allowed at allowed
    unfold ImageReport.known
    by_cases ticket : s.function p = .ticket
    · simp [ticket]
    · rw [if_neg ticket] at allowed
      cases r <;> simp at allowed ⊢
  rw [exec_report h.takes, if_pos known, h.report]
  unfold State.reportAt
  rw [if_pos ((h.admits_iff r).mpr allowed)]

/-! ### What the port does not take -/

theorem State.takesReports.mismatch {s : State} {p : Printer} (h : s.takesReports p) (c : PrinterFault) :
    s.mismatch p c = (s.failPort p (some c)).settle := by
  unfold State.mismatch
  rw [if_pos h.attached]

/-- The latched marks of a printer after one is raised. -/
theorem State.failPort_marks (s : State) (p : Printer) (c : PrinterFault) :
    (s.failPort p (some c)).monitor.lasting.at p = (s.monitor.lasting.at p).set c true := by
  obtain ⟨_, _, _, _, _, _, _, monitor⟩ := s.failPort_effect p (some c)
  rw [monitor]
  show (s.raise (.printer p c)).monitor.lasting.at p = _
  rw [State.raise_lasting, Vector.at_put_same]

end Sys2Proof.Machine

open Sys2Proof Sys2Proof.Machine

/-- Settles O47: each of these comes to `mismatch`, which fails the port; a port that fails drops its work. -/
theorem portFails : Obligations.PortFails := by
  intro p s takes_ fails
  have failing : ∀ (c : Instr) (f : PrinterFault), f = .protocol ∨ f = .overrun → exec c s = .next (s.mismatch p f) →
      fails c f := fun c f kind h => by
    obtain ⟨drops, considers⟩ := State.failPort_drops (.refl s p) (some f)
    have marks := s.failPort_marks p f
    refine ⟨s.failPort p (some f), ?_, drops, considers, ?_, ?_, (s.failPort_effect p (some f)).2.1⟩
    · rw [h, takes_.mismatch]
    · rw [marks]
      rcases kind with rfl | rfl <;> simp [Lasting.set]
    · rw [marks]
      rcases kind with rfl | rfl <;> simp [Lasting.set]
  have ready : (s.isRunning && (s.ports.at p).attached) = true := by simp [takes_.running, takes_.attached]
  refine ⟨fun kind body => ⟨failing _ _ (Or.inl rfl) ?_, failing _ _ (Or.inl rfl) ?_⟩,
    fun body bad => failing _ _ (Or.inl rfl) ?_, ?_⟩
  · refine congrArg Host.Outcome.next ?_
    rw [if_pos takes_.running]
  · refine congrArg Host.Outcome.next ?_
    rw [if_pos takes_.running]
    rcases takes_.2 with state | state <;> rw [state]
  · refine congrArg Host.Outcome.next ?_
    rw [if_pos ready, bad]
  · intro r body knows
    have known : r.known (s.function p) = true ↔ knows := by simp [ImageReport.known, knows, or_assoc]
    have heard : knows → exec (r.command p body) s = .next (s.takeReport p body (s.reportAt p r)) := fun k => by
      rw [exec_report takes_, if_pos (known.mpr k)]
    refine ⟨fun no => failing _ _ (Or.inl rfl) ?_, fun k bad => failing _ _ (Or.inl rfl) ?_,
      fun n k read absent => failing _ _ (Or.inr rfl) ?_, fun older e younger k names refused =>
        failing _ _ (Or.inl rfl) ?_⟩
    · rw [exec_report takes_, if_neg (mt known.mp no)]
    · rw [heard k]
      unfold State.takeReport readImage
      rw [if_pos ready, bad]
      rfl
    · rw [heard k]
      unfold State.takeReport readImage
      rw [if_pos ready, read, Option.map_some]
      cases image : index? 16 n with
      | none => rfl
      | some i =>
        have nowhere : (s.ports.at p).placeOf i = none := by
          unfold Port.placeOf
          rw [List.findIdx?_eq_none_iff]
          intro e m
          have := absent e m
          rw [← index?_eq_some.mp image] at this
          simpa [Fin.ext_iff] using this
        dsimp only
        rw [nowhere]
    · rw [heard k, names.report]
      unfold State.reportAt
      rw [if_neg (mt (names.admits_iff r).mp refused)]
end

