-- ==== Sys2Proof/Proofs/CapsTaken.lean ====
section
/-! SUPPORT. CAPS at an ATTACHING or ABSENT port (R43, R44). -/

namespace Sys2Proof.Machine

/-- The queue of a port that enters HELD, seen from a state that differs at the port alone (R13). -/
theorem State.enterHeld_considers {v v' : State} {p : Printer} (placed : v.placed p) (jobs : v'.jobs = v.jobs)
    (queues : v'.queues = v.queues) (tables : v'.store.tables = v.store.tables)
    (others : ∀ q, q ≠ p → (v'.ports.at q).state = (v.ports.at q).state ∧ v'.loaded q = v.loaded q) :
    v.Considers p (fun _ => true) none (v'.enterHeld p) := by
  have named : v'.queuedAt p := by
    unfold State.queuedAt
    rw [jobs, queues]
    exact placed.queuedAt
  refine (State.resolveQueue_considers (v'.updatePort p fun x => { x with state := .held }) p (fun _ => true) none named
    (by rw [State.updatePort_queues, queues]; exact placed.queue_nodup)).of_before jobs queues tables placed.queuedAt
    fun q differ => ?_
  rw [State.updatePort_ports, Vector.at_put_other _ _ (Ne.symm differ)]
  exact others q differ

/-- The kind of a device suits the port's function (R43). -/
theorem suits_iff (function : PortFunction) (kind : DeviceKind) : suits function kind = true ↔
    (kind = .ticket ∧ function = .ticket) ∨ (kind = .roll ∧ (function = .audit ∨ function = .report)) := by
  cases function <;> cases kind <;> simp [suits]

theorem State.capsCheck_eq_some (s : State) (p : Printer) (body : List Byte) (kind : DeviceKind) (depth : Nat) :
    s.capsCheck p body = some (kind, depth) ↔ readCaps body = some (kind, depth) ∧ ((kind = .ticket ∧ s.function p = .ticket) ∨
      (kind = .roll ∧ (s.function p = .audit ∨ s.function p = .report))) ∧ 1 ≤ depth ∧ depth ≤ 8 := by
  unfold State.capsCheck
  rw [Option.filter_eq_some_iff]
  simp only [Bool.and_eq_true, suits_iff, decide_eq_true_eq, and_assoc]

/-- Table 3-4. -/
theorem codeLimit_eq (code : Nat) : codeLimit code = if code = 0 ∨ code = 15 then 1 else min code 4 := by
  unfold codeLimit
  split
  · rfl
  · split <;> omega

/-- A port of which a CAPS has been heard, before the check (R43). -/
def State.capsHeard (s : State) (p : Printer) : State :=
  (s.updatePort p fun x => { x with attachTimer := none, absentTimer := none, unanswered := 0 }).endCondition
    (.printer p .noAnswer)

theorem State.capsHeard_effect (s : State) (p : Printer) :
    s.capsHeard p = { s with
      ports := s.ports.put p { s.ports.at p with attachTimer := none, absentTimer := none, unanswered := 0 }
      monitor := (s.capsHeard p).monitor } ∧
    ((s.capsHeard p).monitor.lasting.at p).noAnswer = false ∧ s.Loud (s.capsHeard p) ∧
    (s.capsHeard p).monitor.lasting = s.monitor.lasting.put p ((s.monitor.lasting.at p).set .noAnswer false) := by
  have rest := State.endCondition_rest (s.updatePort p fun x =>
    { x with attachTimer := none, absentTimer := none, unanswered := 0 }) p .noAnswer
  have marks := State.endCondition_lasting (s.updatePort p fun x =>
    { x with attachTimer := none, absentTimer := none, unanswered := 0 }) p .noAnswer
  refine ⟨rest, ?_, State.endCondition_loud (State.updatePort_quiet (.refl s) _ _).loud _, marks⟩
  exact (congrArg (fun l => (Vector.at l p).noAnswer) marks).trans (by rw [Vector.at_put_same])

theorem State.capsHeard_atPort (s : State) (p : Printer) : s.AtPort p (s.capsHeard p) := by
  obtain ⟨rest, _, loud, _⟩ := s.capsHeard_effect p
  refine ⟨?_, fun q other => ?_, ?_, loud⟩
  · rw [rest]
  · rw [rest]
    exact Vector.at_put_other _ _ (Ne.symm other)
  · rw [rest]
    dsimp only
    rw [Vector.at_put_same]

/-- The port as a CAPS that passes its check leaves it, ACTIVE (R43). -/
def Port.capable (x : Port) (e : PrinterEntry) (kind : DeviceKind) (depth : Nat) : Port :=
  { x with
    state := .active, device := some (kind, depth), window := min depth (codeLimit e.windowCode), unanswered := 0
    attachTimer := none, absentTimer := none, pollTimer := some e.pollInterval }

theorem State.takeCaps_eq (s : State) (p : Printer) (body : List Byte) :
    s.takeCaps p body = match (s.capsHeard p).capsCheck p body with
      | none => (s.capsHeard p).failPort p (some .protocol)
      | some (kind, depth) =>
        let v := (s.capsHeard p).setPort p ((s.ports.at p).capable (s.printerEntry p) kind depth)
        if (s.ports.at p).hold = noHolds then v else v.enterHeld p := by
  have ports : (s.capsHeard p).ports.at p = { s.ports.at p with attachTimer := none, absentTimer := none, unanswered := 0 } := by
    rw [(s.capsHeard_effect p).1]
    exact Vector.at_put_same _ _ _
  have entry : (s.capsHeard p).printerEntry p = s.printerEntry p := by
    rw [(s.capsHeard_effect p).1]
    rfl
  have activated : ∀ kind depth, ((s.capsHeard p).updatePort p fun x => { x with
      device := some (kind, depth), window := min depth (codeLimit ((s.capsHeard p).printerEntry p).windowCode)
      pollTimer := some ((s.capsHeard p).printerEntry p).pollInterval, state := .active }) =
      (s.capsHeard p).setPort p ((s.ports.at p).capable (s.printerEntry p) kind depth) := fun kind depth => by
    unfold State.updatePort
    rw [ports, entry]
    rfl
  have shape : s.takeCaps p body = match (s.capsHeard p).capsCheck p body with
      | none => (s.capsHeard p).failPort p (some .protocol)
      | some (kind, depth) =>
        let v := (s.capsHeard p).updatePort p fun x => { x with
          device := some (kind, depth), window := min depth (codeLimit ((s.capsHeard p).printerEntry p).windowCode)
          pollTimer := some ((s.capsHeard p).printerEntry p).pollInterval, state := .active }
        if (v.ports.at p).free then v else v.enterHeld p := rfl
  rw [shape]
  split
  · rfl
  · rw [activated]
    refine if_congr ?_ rfl rfl
    rw [State.setPort_ports, Vector.at_put_same]
    unfold Port.free Port.capable
    exact beq_iff_eq

theorem execCaps_attaching {s : State} {p : Printer} (running : s.phase = .running)
    (state : (s.ports.at p).state = .attaching ∨ (s.ports.at p).state = .absent) (body : List Byte) :
    exec (.caps p body) s = .next (s.takeCaps p body).settle := by
  refine congrArg Host.Outcome.next ?_
  have ready : s.isRunning = true := by simp [State.isRunning, running]
  rw [if_pos ready]
  rcases state with h | h <;> rw [h]

end Sys2Proof.Machine

open Sys2Proof Sys2Proof.Machine

/-- Settles O46: a CAPS that passes makes the port ACTIVE, and HELD with its queue considered where it has a hold reason;
another fails the port. -/
theorem capsTaken : Obligations.CapsTaken := by
  intro p body s running state x e suited limit
  rw [execCaps_attaching running state body, State.takeCaps_eq]
  obtain ⟨rest, noAnswer, loud, marks⟩ := s.capsHeard_effect p
  have atPort := s.capsHeard_atPort p
  have function : (s.capsHeard p).function p = s.function p := by
    rw [rest]
    rfl
  refine ⟨fun kind depth read suits_ low high => ?_, fun bad => ?_⟩
  · have check : (s.capsHeard p).capsCheck p body = some (kind, depth) :=
      (State.capsCheck_eq_some _ p body kind depth).mpr ⟨read, by rw [function]; exact suits_, low, high⟩
    rw [check]
    dsimp only
    generalize s.capsHeard p = v at *
    have limit_ : codeLimit e.windowCode = limit := codeLimit_eq _
    have quiet := loud.quiet (State.setPort_quiet (.refl v) p ((s.ports.at p).capable (s.printerEntry p) kind depth))
    have ports : (v.setPort p (x.capable e kind depth)).ports = s.ports.put p (x.capable e kind depth) := by
      rw [State.setPort_ports, rest]
      exact Vector.put_put _ _ _ _
    by_cases free : x.hold = noHolds
    · rw [if_pos free]
      refine ⟨_, rfl, ?_, fun _ => .of_alone (fun h => h free) (by rw [rest]; rfl) (by rw [rest]; rfl), noAnswer,
        by rw [rest]; rfl, by rw [rest]; rfl, by rw [rest]; rfl, quiet.keeps, quiet.books⟩
      rw [ports, if_pos free, ← limit_]
      rfl
    · rw [if_neg free]
      have moves := State.resolveQueue_moves ((v.setPort p (x.capable e kind depth)).updatePort p fun y =>
        { y with state := .held }) p (fun _ => true)
      have held := State.enterHeld_ports (v.setPort p (x.capable e kind depth)) p
      have last := quiet.quiet (State.enterHeld_quiet (.refl _) p)
      have considers : s.placed p → s.Considers p (fun _ => true) none ((v.setPort p (x.capable e kind depth)).enterHeld p) :=
        fun placed => State.enterHeld_considers placed (by rw [rest]; rfl) (by rw [rest]; rfl) (by rw [rest]; rfl)
          fun q other => by
            rw [ports, Vector.at_put_other _ _ (Ne.symm other)]
            exact ⟨rfl, by rw [rest]; rfl⟩
      change State.Moves _ ((v.setPort p (x.capable e kind depth)).enterHeld p) at moves
      generalize State.enterHeld _ p = u at *
      refine ⟨u, rfl, ?_, fun placed => ⟨fun _ => considers placed, fun no => absurd free no⟩, ?_, ?_, ?_, ?_, last.keeps,
        last.books⟩
      · rw [held, ports, Vector.put_put, Vector.at_put_same, if_neg free, ← limit_]
        rfl
      · rw [moves.monitor]
        exact noAnswer
      · rw [moves.stock, State.updatePort_stock, State.setPort_stock, rest]
      · rw [moves.journal, State.updatePort_journal, State.setPort_journal, rest]
      · rw [moves.sent, State.updatePort_sent, State.setPort_sent, rest]
  · have check : (s.capsHeard p).capsCheck p body = none := Option.eq_none_iff_forall_ne_some.mpr fun ⟨kind, depth⟩ h => by
      obtain ⟨read, suits_, low, high⟩ := (State.capsCheck_eq_some _ p body kind depth).mp h
      rw [function] at suits_
      exact bad ⟨kind, depth, read, suits_, low, high⟩
    rw [check]
    obtain ⟨drops, considers⟩ := State.failPort_drops atPort (some .protocol)
    have failed := (s.capsHeard p).failPort_marks p .protocol
    rw [marks, Vector.at_put_same] at failed
    exact ⟨_, rfl, drops, considers, by rw [failed]; rfl, by rw [failed]; rfl⟩
end

