-- ==== Sys2Proof/Proofs/EngineTimers.lean ====
section
/-! SUPPORT. Reports that no port expects, messages with line errors, and the timers of the engines (R41, R44 to R46,
R48). -/

namespace Sys2Proof.Machine

/-- A port that is neither ACTIVE nor HELD discards a report about an image (R45). -/
theorem exec_report_discarded {s : State} {p : Printer} (away : (s.ports.at p).attached = false) (r : ImageReport)
    (body : List Byte) : exec (r.command p body) s = .next s := by
  have discards : ∀ take : Nat → State, s.takeReport p body take = s := fun take => by
    unfold State.takeReport
    rw [away, Bool.and_false]
    rfl
  have passes_ : ∀ report : State, s.ticketOnly p report = report := fun report => by
    unfold State.ticketOnly
    rw [away, Bool.and_false, Bool.false_and]
    rfl
  cases r with
  | fed => exact congrArg Host.Outcome.next ((passes_ _).trans (discards _))
  | doublefed => exact congrArg Host.Outcome.next ((passes_ _).trans (discards _))
  | printed => exact congrArg Host.Outcome.next (discards _)
  | presented => exact congrArg Host.Outcome.next ((passes_ _).trans (discards _))
  | jammed => exact congrArg Host.Outcome.next (discards _)

/-- A port that goes ABSENT with an empty window: its state and its queue (R44). -/
theorem State.enterAbsent_effect (s : State) (p : Printer) :
    (s.enterAbsent p).ports = s.ports.put p { s.ports.at p with
      state := .absent, attachTimer := none, pollTimer := none, replyTimer := none, absentTimer := some 5000 } ∧
    (s.enterAbsent p).monitor = s.monitor ∧ (s.enterAbsent p).stock = s.stock ∧
    (s.enterAbsent p).journal.queue = s.journal.queue ∧ (s.enterAbsent p).sent = s.sent := by
  have sorts := State.resolveQueue_sorts (s.updatePort p fun x => { x with
    state := .absent, attachTimer := none, pollTimer := none, replyTimer := none
    absentTimer := some Config.absentRepeatMs }) p (fun _ => true) (some .printerUnavailable)
  exact ⟨sorts.ports, sorts.monitor, sorts.stock, sorts.queue, sorts.sent⟩

theorem State.enterAbsent_considers {s v : State} {p : Printer} (placed : s.placed p)
    (before : s.AtPort p v) :
    (v.enterAbsent p).queues.at p = [] ∧ s.Considers p (fun _ => true) (some .printerUnavailable) (v.enterAbsent p) ∧
      s.JobsEnded ((s.queues.at p).filterMap fun j => if (v.enterAbsent p).jobs.at j = none then s.jobs.at j else none)
        (v.enterAbsent p) := by
  have jobs : v.jobs = s.jobs := by rw [before.rest]
  have queues : v.queues = s.queues := by rw [before.rest]
  have told : s.Tells (fun _ => 0) v := .of_same (by rw [before.rest]) fun n m => by rw [before.rest]; exact m
  let left := v.updatePort p fun x => { x with
    state := .absent, attachTimer := none, pollTimer := none, replyTimer := none
    absentTimer := some Config.absentRepeatMs }
  have named : left.queuedAt p := by
    show v.queuedAt p
    unfold State.queuedAt
    rw [jobs, queues]
    exact placed.queuedAt
  have once : (left.queues.at p).Nodup := by
    show (v.queues.at p).Nodup
    rw [queues]
    exact placed.queue_nodup
  have closed : (left.ports.at p).state ≠ .active := by
    rw [State.updatePort_ports, Vector.at_put_same]
    exact fun h => nomatch h
  have gone := State.resolveQueue_tells left p (fun _ => true) (some .printerUnavailable) once
  refine ⟨State.refuseQueue_empty left p closed named, ?_, ?_⟩
  · refine (State.resolveQueue_considers left p _ _ named once).of_before jobs queues (by
      show v.store.tables = _
      rw [before.rest]) placed.queuedAt fun q other => ?_
    rw [State.updatePort_ports, Vector.at_put_other _ _ (Ne.symm other), before.others q other]
    exact ⟨rfl, by
      unfold State.loaded
      show v.stock.loaded.at q = _
      rw [before.rest]⟩
  · unfold State.gone at gone
    rw [show left.jobs = s.jobs from jobs, show left.queues = s.queues from queues] at gone
    exact ((told.after (State.updatePort_tells v p _)).before gone).jobsEnded

/-- What a port that goes ABSENT leaves besides (R48). -/
theorem State.goAbsent_rest (s : State) (p : Printer) :
    ((s.goAbsent p).monitor.lasting.at p).noAnswer = true ∧ (s.goAbsent p).stock = s.stock ∧
      (s.goAbsent p).sent = s.sent := by
  have notes := State.raise_notes s (.printer p .noAnswer)
  obtain ⟨_, _, _, _, _, stock, monitor, sent, _⟩ :=
    State.leave_effect ((s.raise (.printer p .noAnswer)).withdrawClaim (.engine p)) p .lost (fun x =>
      { x with state := .absent, attachTimer := none, pollTimer := none, replyTimer := none
               absentTimer := some Config.absentRepeatMs }) (fun _ => by simp)
  change (s.goAbsent p).stock = _ at stock
  change (s.goAbsent p).monitor = (s.raise (.printer p .noAnswer)).monitor at monitor
  change (s.goAbsent p).sent = _ at sent
  refine ⟨?_, stock.trans notes.stock, sent.trans notes.sent⟩
  rw [monitor, State.raise_lasting, Vector.at_put_same]
  rfl

theorem State.raise_atPort (s : State) (p : Printer) (c : Condition) : s.AtPort p (s.raise c) := by
  have notes := State.raise_notes s c
  refine ⟨?_, fun q _ => by rw [notes.ports], by rw [notes.ports], State.raise_loud (.refl s) c⟩
  rw [notes.rest]

theorem State.linkCheck_eq (s : State) (p : Printer) :
    s.linkCheck p = if s.phase = .running ∧ (s.ports.at p).state ≠ .unused then s.raise (.printer p .linkCheck) else s := by
  unfold State.linkCheck State.isRunning
  simp only [beq_iff_eq]

/-- The reply timer of an answered poll expires (R46, R48). -/
theorem execPollReply_eq {s : State} {p : Printer} (attached : (s.ports.at p).attached = true)
    (timer : (s.ports.at p).replyTimer ≠ none) :
    exec (.pollReplyTimerExpiry p) s = .next (
      let v := s.setPort p { s.ports.at p with replyTimer := none, unanswered := (s.ports.at p).unanswered + 1 }
      if 3 ≤ (s.ports.at p).unanswered + 1 then (v.goAbsent p).settle
      else s.setPort p { s.ports.at p with
        replyTimer := none, unanswered := (s.ports.at p).unanswered + 1
        pollTimer := some (s.printerEntry p).pollInterval }) := by
  refine congrArg Host.Outcome.next ?_
  rw [if_pos ⟨attached, Option.isSome_iff_ne_none.mpr timer⟩]
  unfold State.updatePort State.setPort
  simp only [Vector.at_put_same, Vector.put_put]

end Sys2Proof.Machine

open Sys2Proof Sys2Proof.Machine

/-- Settles O53: what is discarded leaves the state, and a port that goes ABSENT drops its work. -/
theorem engineTimers : Obligations.EngineTimers := by
  intro p s x e
  have attached_iff : x.attached = true ↔ x.state = .active ∨ x.state = .held := by
    unfold Port.attached
    simp
  refine ⟨fun r kind body notActive notHeld => ?_, fun body st read timer => ?_, fun c m => ?_, fun state timer running => ?_,
    fun state timer => ?_, fun state => ⟨fun timer => ?_, fun timer few => ?_, fun timer third running => ?_⟩⟩
  · have away : x.attached = false := by
      rw [← Bool.not_eq_true, attached_iff]
      exact fun h => h.elim notActive notHeld
    refine ⟨exec_report_discarded away r body, congrArg Host.Outcome.next ?_, congrArg Host.Outcome.next ?_, fun state => ?_⟩
    · rw [show (s.isRunning && (s.ports.at p).attached) = false by rw [away, Bool.and_false]]
      rfl
    · unfold State.mismatch
      rw [if_neg (show ¬ (s.ports.at p).attached = true by rw [away]; exact Bool.false_ne_true)]
      exact ite_self s
    · refine congrArg Host.Outcome.next ?_
      rcases state with h | h <;> rw [h] <;> exact ite_self s
  · refine congrArg Host.Outcome.next ?_
    rw [read, show (s.ports.at p).replyTimer = none from timer]
    exact ite_self s
  · simp only [List.mem_cons, List.not_mem_nil, or_false] at m
    rcases m with rfl | rfl <;> exact congrArg Host.Outcome.next (s.linkCheck_eq p)
  · have before := s.raise_atPort p (.printer p .noAnswer)
    obtain ⟨ports, monitor, stock, queue, sent⟩ := (s.raise (.printer p .noAnswer)).enterAbsent_effect p
    have notes := State.raise_notes s (.printer p .noAnswer)
    have loud := State.enterAbsent_loud before.loud p
    refine ⟨_, congrArg Host.Outcome.next (if_pos ⟨state, Option.isSome_iff_ne_none.mpr timer⟩), ?_, ?_, fun placed _ =>
      State.enterAbsent_considers placed before, stock.trans notes.stock, queue.trans (by rw [notes.journal]),
      sent.trans notes.sent, loud.keeps, loud.books⟩
    · rw [ports, notes.ports]
    · rw [monitor, State.raise_lasting, Vector.at_put_same]
      rfl
  · refine congrArg Host.Outcome.next ?_
    rw [if_pos ⟨state, Option.isSome_iff_ne_none.mpr timer⟩]
    rfl
  · refine congrArg Host.Outcome.next ?_
    rw [if_pos ⟨attached_iff.mpr state, Option.isSome_iff_ne_none.mpr timer⟩]
    rfl
  · rw [execPollReply_eq (attached_iff.mpr state) timer]
    exact congrArg Host.Outcome.next (if_neg (by show ¬ 3 ≤ x.unanswered + 1; omega))
  · rw [execPollReply_eq (attached_iff.mpr state) timer]
    dsimp only
    rw [if_pos (by show 3 ≤ x.unanswered + 1; omega)]
    have before : s.AtPort p (s.setPort p { s.ports.at p with
        replyTimer := none, unanswered := (s.ports.at p).unanswered + 1 }) := by
      refine ⟨rfl, fun q other => Vector.at_put_other _ _ (Ne.symm other), ?_, (State.setPort_quiet (.refl s) _ _).loud⟩
      rw [State.setPort_ports, Vector.at_put_same]
    obtain ⟨drops, considers⟩ := State.goAbsent_drops before
    obtain ⟨mark, stock, sent⟩ := (s.setPort p { s.ports.at p with
      replyTimer := none, unanswered := (s.ports.at p).unanswered + 1 }).goAbsent_rest p
    exact ⟨_, rfl, drops, considers, mark, stock, sent⟩
end

