-- ==== Sys2Proof/Proofs/PrintsTaken.lean ====
section
/-! SUPPORT. PRINTED and PRESENTED: the audit line's text, and what a presented job leaves (R36, R57, R60, R63, R64). -/

namespace Sys2Proof.Machine

/-! ### The audit line (Table 2-7) -/

theorem fixedDigits_length (k n : Nat) : (fixedDigits k n).length = k := by
  induction k with
  | zero => rfl
  | succ k ih => exact congrArg (· + 1) ih

/-- Leading zeros do not count. -/
theorem dropWhile_fixedDigits {k n : Nat} (small : n < 10 ^ k) (m : Nat) :
    (fixedDigits (k + m) n).dropWhile (· == 0x30#8) = (fixedDigits k n).dropWhile (· == 0x30#8) := by
  induction m with
  | zero => rfl
  | succ m ih =>
    have zero : n / 10 ^ (k + m) = 0 :=
      Nat.div_eq_of_lt (Nat.lt_of_lt_of_le small (Nat.pow_le_pow_right (by decide) (Nat.le_add_right k m)))
    show (BitVec.ofNat 8 (48 + n / 10 ^ (k + m) % 10) :: fixedDigits (k + m) n).dropWhile _ = _
    rw [zero]
    exact ih

theorem wholeUnits_length {k n : Nat} (small : n < 10 ^ k) (some_ : 1 ≤ k) (few : k ≤ 12) : (wholeUnits n).length ≤ k := by
  have short := List.length_dropWhile_le (· == 0x30#8) (fixedDigits k n)
  rw [fixedDigits_length] at short
  have drop := dropWhile_fixedDigits small (12 - k)
  rw [Nat.add_sub_cancel' few] at drop
  unfold wholeUnits
  rw [drop]
  split
  · exact some_
  · exact short

theorem amountText_length {n : Nat} (small : n ≤ 999999) : (amountText n).length ≤ 7 := by
  have units : (wholeUnits (n / 100)).length ≤ 4 := wholeUnits_length (by omega) (by decide) (by decide)
  unfold amountText chars
  simp only [List.length_append, List.length_map, List.length_cons, List.length_nil, fixedDigits_length]
  omega

theorem tenderText_length (t : Option Tender) : (tenderText t).length = 4 := by
  cases t with
  | none => rfl
  | some t => cases t <;> rfl

theorem auditLine_length (job : Job) (clerk serial : Nat) (small : job.net ≤ 999999) :
    (auditLine job clerk serial).length = 33 := by
  have net := amountText_length small
  unfold auditLine windowText setRight chars
  simp only [List.length_append, List.length_map, List.length_cons, List.length_nil, fixedDigits_length,
    tenderText_length, List.length_replicate]
  omega

theorem tenderText_eq (t : Option Tender) : tenderText t = chars (match t with
    | some .cash => "CASH"
    | some .card => "CARD"
    | some .warrant => "WARR"
    | none => "TEST").toList := by
  cases t with
  | none => decide
  | some t => cases t <;> decide

/-! ### Printings -/

theorem allPrinters_sorted : allPrinters.Pairwise (· < ·) := by decide

/-- The audit port of a ticket port is the lowest AUDIT port that names it (R63). -/
theorem State.auditPort_lowest {s : State} {p a : Printer} (audit : s.function a = .audit)
    (source : (s.printerEntry a).auditSource = p)
    (lowest : ¬ ∃ b < a, s.function b = .audit ∧ (s.printerEntry b).auditSource = p) : s.auditPort p = some a :=
  find?_lowest allPrinters_sorted (mem_allPrinters a) (by simp [audit, source]) fun b lower => by
    rw [← Bool.not_eq_true, Bool.and_eq_true, beq_iff_eq, beq_iff_eq]
    exact fun h => lowest ⟨b, lower, h⟩

theorem State.auditPort_first {s : State} {p a : Printer} (named : s.auditPort p = some a) :
    ¬ ∃ b < a, s.function b = .audit ∧ (s.printerEntry b).auditSource = p := by
  rintro ⟨b, lower, audit, source⟩
  obtain ⟨_, before, after, split, none_⟩ := List.find?_eq_some_iff_append.mp named
  have sorted := allPrinters_sorted
  have m := mem_allPrinters b
  rw [split] at sorted m
  rcases List.mem_append.mp m with m | m
  · have := none_ b m
    simp [audit, source] at this
  · rcases List.mem_cons.mp m with rfl | m
    · exact lt_irrefl _ lower
    · exact lt_asymm lower ((List.pairwise_cons.mp (List.pairwise_append.mp sorted).2.1).1 b m)

/-- A printing taken for the entry named (R57). -/
theorem State.takePrint_eq {s : State} {p : Printer} {older younger : List Entry} {e : Entry} {t : TicketPart} {job : Job}
    (h : s.Shows p older e younger t job) :
    s.takePrint p older.length = { s with
      ports := s.ports.put p { s.ports.at p with entries := older ++ { e with phase := .printed } :: younger }
      jobs := s.jobs.put t.job (some { job with state := .printed }) } := by
  unfold State.takePrint
  rw [h.ticketAt]
  dsimp only
  rw [State.updateEntry_eq _ _ _ _ _ _ h.window]
  rfl

/-- The oldest line or slip printed (R65). -/
theorem State.takeRollPrint_eq {s : State} {p : Printer} {e : Entry} {younger : List Entry}
    (window : (s.ports.at p).entries = e :: younger) :
    s.takeRollPrint p = { s with ports := s.ports.put p { s.ports.at p with
      entries := younger
      audit := if s.function p = .audit then (s.ports.at p).audit.tail else (s.ports.at p).audit
      slips := if s.function p = .report then (s.ports.at p).slips.tail else (s.ports.at p).slips } } := by
  unfold State.takeRollPrint State.updatePort State.setPort
  dsimp only
  rw [window, List.tail_cons]

/-! ### Presentations -/

/-- The audit port takes the line (R64). -/
abbrev State.takesLine (s : State) (source a : Printer) : Prop :=
  (s.printerEntry source).auditRequired = true ∨
    (((s.ports.at a).state = .active ∨ (s.ports.at a).state = .held ∨ (s.ports.at a).state = .attaching) ∧
      (s.ports.at a).audit.length < 64)

theorem State.handLine_eq (s : State) (source a : Printer) (line : Text) : s.handLine source a line =
    if s.takesLine source a then s.setPort a { s.ports.at a with audit := (s.ports.at a).audit ++ [line] } else s := by
  unfold State.handLine State.takesLine
  refine if_congr ?_ rfl rfl
  simp only [Bool.or_eq_true, Bool.and_eq_true, beq_iff_eq, Config.auditQueueLines, or_assoc]
  exact or_congr Iff.rfl (and_congr Iff.rfl ⟨of_decide_eq_true, decide_eq_true⟩)

/-- The audit line of a presented job, or none (R63, R64). -/
def State.lineHanded (v : State) (p : Printer) (job : Job) (serial : Nat) : State :=
  match v.auditPort p with
  | some a => v.handLine p a (auditLine job (v.clerkOf job.session) serial)
  | none => v

/-- The line joins the queue of the audit port, and no other port changes. -/
theorem State.lineHanded_effect (v : State) (p : Printer) (job : Job) (serial : Nat) :
    v.lineHanded p job serial = { v with ports := (v.lineHanded p job serial).ports } ∧
      (∀ q, v.auditPort p ≠ some q → (v.lineHanded p job serial).ports.at q = v.ports.at q) ∧
      ∀ a, v.auditPort p = some a →
        (v.takesLine p a → (v.lineHanded p job serial).ports.at a = { v.ports.at a with
          audit := (v.ports.at a).audit ++ [auditLine job (v.clerkOf job.session) serial] }) ∧
        (¬ v.takesLine p a → (v.lineHanded p job serial).ports.at a = v.ports.at a) := by
  unfold State.lineHanded
  cases named : v.auditPort p with
  | none => exact ⟨rfl, fun _ _ => rfl, fun a h => nomatch h⟩
  | some a =>
    dsimp only
    rw [State.handLine_eq]
    by_cases takes_ : v.takesLine p a
    · rw [if_pos takes_]
      refine ⟨rfl, fun q other => Vector.at_put_other _ _ fun h => other (h ▸ rfl), fun b h => ⟨fun _ => ?_, fun no => ?_⟩⟩
      · cases h
        exact Vector.at_put_same _ _ _
      · cases h
        exact absurd takes_ no
    · rw [if_neg takes_]
      exact ⟨rfl, fun _ _ => rfl, fun b h => ⟨fun yes => absurd (Option.some.inj h ▸ yes) takes_, fun _ => rfl⟩⟩

/-- A presentation taken: the presented job's record and places, then its audit line (R57, R64). -/
theorem State.takePresent_lineHanded {s : State} {p : Printer} {older younger : List Entry} {e : Entry} {t : TicketPart}
    {job : Job} (h : s.Shows p older e younger t job) {serial batch : Nat} (given : job.serial = some (serial, batch)) :
    s.takePresent p older.length =
      (s.present p older.length t job (presentedRecord job p serial batch)).lineHanded p job serial :=
  State.takePresent_eq h given

/-- Where the accounts stand, so does every session without what is in flight for it. -/
theorem State.session_books {s v : State} (books : s.SameBooks v) (n : Nat) :
    (v.session n).map Session.books = (s.session n).map Session.books := by
  have any_ : ∀ i, ((v.sessions.table.at i).any fun x => x.number == n) = (s.sessions.table.at i).any fun x => x.number == n :=
    fun i => by
      have number : ∀ o : Option Session, (o.any fun x => x.number == n) = ((o.map Session.books).any fun x => x.number == n) :=
        fun o => by cases o <;> rfl
      rw [number (v.sessions.table.at i), number (s.sessions.table.at i), books.sessions i]
  unfold State.session SessionUnit.get SessionUnit.find
  simp only [any_]
  cases allRecords.find? fun i => (s.sessions.table.at i).any fun x => x.number == n with
  | none => rfl
  | some i => exact books.sessions i

/-- Sessions keep their clerks through a presentation. -/
theorem State.clerkOf_congr {s v : State} (books : s.SameBooks v) (n : Nat) : v.clerkOf n = s.clerkOf n := by
  have same := State.session_books books n
  unfold State.clerkOf
  cases hv : v.session n <;> cases hs : s.session n <;> rw [hv, hs] at same
  · cases same
  · cases same
  · rw [Option.map_some, Option.map_some, Option.some.injEq] at same
    exact (congrArg Session.clerk same : _)

end Sys2Proof.Machine

open Sys2Proof Sys2Proof.Machine

/-- Settles O49: the line's text by its columns; printings and presentations by what taking them leaves. -/
theorem printsTaken : Obligations.PrintsTaken := by
  refine ⟨fun job clerk serial => ⟨?_, auditLine_length job clerk serial⟩, ?_⟩
  · unfold auditLine
    rw [tenderText_eq]
    rfl
  intro p body older younger e s names x
  refine ⟨fun t job named allowed => ?_, fun t job serial batch named allowed given some_ => ?_, fun roll first => ?_⟩
  · refine (names.taken (r := .printed) (named.function ▸ allowed)).trans ?_
    unfold State.takeImageReport
    rw [if_pos named.function]
    dsimp only
    rw [State.takePrint_eq named.shows]
  · have first : older = [] := allowed.2
    subst first
    have taken := names.taken (r := .presented) (named.function ▸ allowed)
    unfold State.takeImageReport at taken
    rw [if_pos named.function] at taken
    dsimp only at taken
    have quiet := State.takePresent_quiet (.refl s) p ([] : List Entry).length
    rw [State.takePresent_lineHanded named.shows given] at taken quiet
    obtain ⟨_, store, sent, queues, _, jobs, ports, queue, reserved, stock, office, monitor⟩ :=
      s.present_effect (t := t) (job := job) named.window (presentedRecord job p serial batch)
    have books : s.SameBooks (s.present p ([] : List Entry).length t job (presentedRecord job p serial batch)) :=
      (State.releasePlaces_quiet (State.handOnPlace_quiet (State.updatePort_quiet (State.setJob_quiet (.refl s) _ _) _ _) _ _)
        _).books
    generalize s.present p ([] : List Entry).length t job (presentedRecord job p serial batch) = v at *
    obtain ⟨rest, others, line⟩ := v.lineHanded_effect p job serial
    have printers : v.store.tables.printers = s.store.tables.printers := by rw [store]
    have audits : ∀ q, v.auditPort q = s.auditPort q := State.auditPort_congr printers
    have clerk : v.clerkOf job.session = s.clerkOf job.session := State.clerkOf_congr books job.session
    rw [audits] at line
    simp only [audits] at others
    generalize v.lineHanded p job serial = u at *
    have unchanged : ∀ q, q ≠ p → v.ports.at q = s.ports.at q := fun q other => by
      rw [ports, Vector.at_put_other _ _ (Ne.symm other)]
    have self : s.auditPort p ≠ some p := fun h => by
      have := (State.auditPort_some h).1
      rw [named.function] at this
      cases this
    refine ⟨u, taken, by rw [rest, jobs], by rw [rest]; exact queue, ?_, ?_, by rw [rest, stock], by rw [rest, queues],
      by rw [rest, office], by rw [rest, monitor], by rw [rest, sent], quiet.keeps, quiet.books, fun q other notAudit => ?_,
      fun a audit source => ?_⟩
    · rw [rest]
      show v.journal.reserved = _
      rw [reserved]
      omega
    · rw [others p self, ports, Vector.at_put_same]
      rfl
    · rw [others q fun h => notAudit (State.auditPort_some h), unchanged q other]
    · have apart : a ≠ p := fun h => by
        rw [h, named.function] at audit
        cases audit
      by_cases lower : ∃ b < a, s.function b = .audit ∧ (s.printerEntry b).auditSource = p
      · refine Or.inl ⟨lower, ?_⟩
        rw [others a fun h => State.auditPort_first h lower, unchanged a apart]
      · refine Or.inr ⟨lower, ?_⟩
        obtain ⟨takes_, discards⟩ := line a (State.auditPort_lowest audit source lower)
        have same : v.takesLine p a = s.takesLine p a := by
          unfold State.takesLine State.printerEntry
          rw [printers, unchanged a apart]
        rw [same, unchanged a apart, clerk] at takes_
        rw [same, unchanged a apart] at discards
        exact ⟨takes_, discards⟩
  · subst first
    refine (names.taken (r := .printed) ?_).trans ?_
    · unfold ImageReport.allowed
      rw [if_neg (by rcases roll with h | h <;> simp [h])]
    · unfold State.takeImageReport
      rw [if_neg (by rcases roll with h | h <;> simp [h])]
      dsimp only
      rw [State.takeRollPrint_eq names.window]
end

