-- ==== Sys2Proof/Proofs/FeedsTaken.lean ====
section
/-! SUPPORT. FED and DOUBLEFED: the serial given, the stock mismatch, and the work dropped by a port whose queue has been
considered before it fails (R55, R56, R82, R83, R85, R86). -/

namespace Sys2Proof.Machine

/-! ### The queue beside a window entry -/

/-- A job of a window stands in no queue of its printer. -/
theorem State.placed.window_not_queue {s : State} {p : Printer} (h : s.placed p) {j : JobNumber}
    (m : j ∈ (s.ports.at p).entries.filterMap Entry.job?) : j ∉ s.queues.at p := fun q =>
  (List.nodup_append.mp h.2).2.2 j m j q rfl

theorem State.Shows.mem_window {s : State} {p : Printer} {older : List Entry} {e : Entry} {younger : List Entry}
    {t : TicketPart} {job : Job} (h : s.Shows p older e younger t job) :
    t.job ∈ (s.ports.at p).entries.filterMap Entry.job? := by
  rw [h.window, List.filterMap_append, List.filterMap_cons_some (show e.job? = some t.job by
    unfold Entry.job?
    rw [h.ticket]
    rfl)]
  simp

/-- A queue considered while a job outside it changes. -/
theorem State.Considers.put_job {v u : State} {p : Printer} {concerns : Job → Bool} {refusal : Option AnswerCode}
    (h : v.Considers p concerns refusal u) {j : JobNumber} (out : j ∉ v.queues.at p) (x : Option Job) :
    State.Considers { v with jobs := v.jobs.put j x } p concerns refusal { u with jobs := u.jobs.put j x } := by
  have apart : ∀ i ∈ v.queues.at p, j ≠ i := fun i m same => out (same ▸ m)
  have stands : ∀ (jobs : Vector (Option Job) 32), ∀ i ∈ v.queues.at p, (jobs.put j x).at i = jobs.at i := fun jobs i m =>
    Vector.at_put_other _ _ (apart i m)
  have sends : ∀ i ∈ v.queues.at p, State.sendsTo { v with jobs := v.jobs.put j x } concerns i = v.sendsTo concerns i :=
    fun i m => by
      unfold State.sendsTo
      dsimp only
      rw [stands _ i m]
      rfl
  refine ⟨⟨fun i m y q record c t => ?_, fun i m y code record c t r => ?_, fun i m y record c => ?_⟩, ?_, ?_, ?_⟩
  · dsimp only at m record ⊢
    rw [stands _ i m] at record ⊢
    exact h.moved i m y q record c t
  · dsimp only at m record ⊢
    rw [stands _ i m] at record ⊢
    exact h.refused i m y code record c t r
  · dsimp only at m record ⊢
    rw [stands _ i m] at record ⊢
    exact h.stayed i m y record c
  · intro i m
    dsimp only
    rw [Vector.at_put, Vector.at_put, h.others i m]
  · refine h.queue.trans (List.filter_congr fun i m => ?_)
    rw [sends i m]
    dsimp only
    rw [stands _ i m]
  · intro q other
    exact (h.tails q other).trans (congrArg _ (List.filter_congr fun i m => by rw [sends i m]))

theorem State.HoldsQueue.put_job {v u : State} {p : Printer} {entersHeld : Prop} (h : v.HoldsQueue p entersHeld u)
    {j : JobNumber} (out : j ∉ v.queues.at p) (x : Option Job) :
    State.HoldsQueue { v with jobs := v.jobs.put j x } p entersHeld { u with jobs := u.jobs.put j x } :=
  ⟨fun g => (h.1 g).put_job out x, fun g => ⟨fun i => by
    show (u.jobs.put j x).at i = (v.jobs.put j x).at i
    rw [Vector.at_put, Vector.at_put, (h.2 g).1 i], (h.2 g).2⟩⟩

/-! ### A serial given -/

/-- The last serial of a loaded batch. -/
abbrev Batch.ends (b : Batch) : Prop := b.state = .loaded ∧ b.remaining = 1

theorem Batch.give_remaining (b : Batch) : b.give.remaining = b.remaining - 1 := by
  unfold Batch.remaining Batch.give
  dsimp only
  omega

/-- STOCK_LOW is raised when the serial given takes the remaining count to the threshold (R85). -/
theorem State.lowStockCrossing_effect (s : State) (p : Printer) (b : Batch) :
    let u := s.lowStockCrossing p b.remaining b.give.remaining
    (b.remaining = (s.printerEntry p).lowStock + 1 → (u.monitor.lasting.at p).stockLow = true) ∧
      (b.remaining ≠ (s.printerEntry p).lowStock + 1 → u = s) := by
  unfold State.lowStockCrossing
  dsimp only
  rw [b.give_remaining]
  refine ⟨fun low => ?_, fun differ => ?_⟩
  · rw [if_pos (by omega), State.raise_lasting, Vector.at_put_same]
    rfl
  · rw [if_neg (by omega)]

/-- The record of a batch that has given a serial (R82, R83). -/
def Batch.given (b : Batch) : Batch :=
  { b.give with
    state := if b.state = .loaded ∧ b.remaining = 1 then .exhausted else b.state
    closingOwed := b.closingOwed || decide (b.state = .loaded ∧ b.remaining = 1) }

/-- A serial given from a TICKET port's batch (R82, R83, R85). -/
theorem State.giveSerial_effect {s : State} {p : Printer} {b : Batch} (ticket : s.function p = .ticket)
    (some_ : 0 < b.remaining) :
    let u := s.giveSerial p b
    u = { s with
      stock := { s.stock with loaded := s.stock.loaded.put p (some b.given) }
      ports := u.ports, jobs := u.jobs, queues := u.queues, monitor := u.monitor, office := u.office
      journal := { s.journal with claims := u.journal.claims } } ∧
    (b.ends → .batch b.id ∈ u.journal.claims ∧ u.ports = s.ports.put p ((s.ports.at p).under .noStock) ∧
      (s.queuedAt p → (s.queues.at p).Nodup → s.HoldsQueue p ((s.ports.at p).state = .active) u)) ∧
    (¬ b.ends → u.ports = s.ports ∧ u.jobs = s.jobs ∧ u.queues = s.queues) ∧
    (b.remaining = (s.printerEntry p).lowStock + 1 → (u.monitor.lasting.at p).stockLow = true) ∧
    (b.remaining ≠ (s.printerEntry p).lowStock + 1 → u.monitor = s.monitor) := by
  intro u
  have zero : b.give.remaining = 0 ↔ b.remaining = 1 := by
    rw [b.give_remaining]
    omega
  have shape : u = State.lowStockCrossing (if b.state = .loaded ∧ b.give.remaining = 0 then
      (s.setLoaded p (some b.give)).exhaust p b.give else s.setLoaded p (some b.give)) p b.remaining b.give.remaining := rfl
  simp only [zero] at shape
  clear_value u
  subst shape
  by_cases ends : b.ends
  · rw [if_pos ends]
    have given : ({ b.give with state := .exhausted, closingOwed := true } : Batch) = b.given := by
      unfold Batch.given
      rw [if_pos ends, decide_eq_true ends, Bool.or_true]
    obtain ⟨rest, claims⟩ := (s.setLoaded p (some b.give)).exhaust_effect p b.give
    have held : (((s.setLoaded p (some b.give)).setLoaded p (some b.given)).addStockHold p .noStock) =
        ((s.setLoaded p (some b.give)).setLoaded p (some b.given)).addHold p .noStock := if_pos ticket
    rw [given, held] at rest
    have ports := ((s.setLoaded p (some b.give)).setLoaded p (some b.given)).addHold_ports p .noStock
    have queue : s.queuedAt p → (s.queues.at p).Nodup → s.HoldsQueue p ((s.ports.at p).state = .active)
        (((s.setLoaded p (some b.give)).setLoaded p (some b.given)).addHold p .noStock) := fun named once =>
      State.addHold_holdsQueue (v' := (s.setLoaded p (some b.give)).setLoaded p (some b.given)) .noStock named once rfl rfl
        rfl fun q other => ⟨rfl, by
          unfold State.loaded State.setLoaded
          dsimp only
          rw [Vector.at_put_other _ _ (Ne.symm other), Vector.at_put_other _ _ (Ne.symm other)]⟩
    generalize ((s.setLoaded p (some b.give)).setLoaded p (some b.given)).addHold p .noStock = h at *
    generalize (s.setLoaded p (some b.give)).exhaust p b.give = x at *
    have entry : x.printerEntry p = s.printerEntry p := by
      unfold State.printerEntry
      rw [rest]
      rfl
    obtain ⟨low, level⟩ := x.lowStockCrossing_effect p b
    rw [entry] at low level
    have notes := x.lowStockCrossing_notes p b.remaining b.give.remaining
    generalize x.lowStockCrossing p b.remaining b.give.remaining = y at *
    have jobs : y.jobs = h.jobs := notes.jobs.trans (by rw [rest])
    have queues : y.queues = h.queues := notes.queues.trans (by rw [rest])
    refine ⟨?_, fun _ => ⟨?_, ?_, fun named once => (queue named once).of_after jobs queues⟩, fun no => absurd ends no,
      low, fun differ => ?_⟩
    · rw [notes.rest, rest]
      unfold State.setLoaded
      dsimp only
      rw [Vector.put_put]
    · rw [notes.journal]
      exact (claims _).mpr (Or.inr rfl)
    · rw [notes.ports, rest]
      exact ports
    · rw [level differ, rest]
      rfl
  · rw [if_neg ends]
    have given : b.give = b.given := by
      unfold Batch.given
      rw [if_neg ends, decide_eq_false ends, Bool.or_false]
      rfl
    obtain ⟨low, level⟩ := (s.setLoaded p (some b.give)).lowStockCrossing_effect p b
    have notes := (s.setLoaded p (some b.give)).lowStockCrossing_notes p b.remaining b.give.remaining
    generalize (s.setLoaded p (some b.give)).lowStockCrossing p b.remaining b.give.remaining = y at *
    refine ⟨?_, fun yes => absurd yes ends, fun _ => ⟨notes.ports, notes.jobs, notes.queues⟩, low, fun differ => ?_⟩
    · rw [notes.rest, given]
      rfl
    · rw [level differ]
      rfl

/-! ### A stock mismatch (R86) -/

/-- The printer's batch is one that a mismatch takes to UNVERIFIED. -/
def State.mismatches (s : State) (p : Printer) : Prop := ∃ b, s.loaded p = some b ∧ (b.state = .loaded ∨ b.state = .exhausted)

/-- A stock mismatch at a TICKET port (R86). -/
theorem State.stockMismatch_effect {s : State} {p : Printer} (ticket : s.function p = .ticket) :
    let u := s.stockMismatch p
    u = { s with stock := u.stock, ports := u.ports, jobs := u.jobs, queues := u.queues, monitor := u.monitor,
                 office := u.office } ∧
    u.monitor.lasting.at p = (s.monitor.lasting.at p).set .stockMismatch true ∧
    (¬ s.mismatches p → u.stock = s.stock ∧ u.ports = s.ports ∧ u.jobs = s.jobs ∧ u.queues = s.queues) ∧
    (∀ b, s.loaded p = some b → b.state = .loaded ∨ b.state = .exhausted →
      u.stock = { s.stock with loaded := s.stock.loaded.put p (some { b with state := .unverified }) } ∧
      u.ports = s.ports.put p ((s.ports.at p).under .stockUnverified) ∧
      (s.queuedAt p → (s.queues.at p).Nodup → s.HoldsQueue p ((s.ports.at p).state = .active) u)) := by
  have notes := s.raise_notes (.printer p .stockMismatch)
  have mark := s.raise_lasting p .stockMismatch
  unfold State.stockMismatch
  dsimp only
  generalize s.raise (.printer p .stockMismatch) = r at *
  have loaded : r.loaded p = s.loaded p := by
    unfold State.loaded
    rw [notes.stock]
  have stands : r = { s with stock := r.stock, ports := r.ports, jobs := r.jobs, queues := r.queues, monitor := r.monitor,
                             office := r.office } ∧
      r.monitor.lasting.at p = (s.monitor.lasting.at p).set .stockMismatch true ∧
      (r.stock = s.stock ∧ r.ports = s.ports ∧ r.jobs = s.jobs ∧ r.queues = s.queues) := by
    refine ⟨?_, by rw [mark, Vector.at_put_same], notes.stock, notes.ports, notes.jobs, notes.queues⟩
    rw [notes.rest]
  rw [loaded]
  cases batch : s.loaded p with
  | none => exact ⟨stands.1, stands.2.1, fun _ => stands.2.2, fun b h => nomatch h⟩
  | some b =>
    dsimp only
    by_cases fits : b.state = .loaded ∨ b.state = .exhausted
    · rw [if_pos fits]
      unfold State.addStockHold
      rw [if_pos (show (r.setLoaded p _).function p = .ticket by
        unfold State.function State.printerEntry at *
        rw [← ticket]
        exact congrArg (fun store : TableStore => (store.tables.printers.at p).function) notes.store)]
      have rest := (r.setLoaded p (some { b with state := .unverified })).addHold_rest p .stockUnverified
      have ports := (r.setLoaded p (some { b with state := .unverified })).addHold_ports p .stockUnverified
      have queue : s.queuedAt p → (s.queues.at p).Nodup → s.HoldsQueue p ((s.ports.at p).state = .active)
          ((r.setLoaded p (some { b with state := .unverified })).addHold p .stockUnverified) := fun named once => by
        have same : (r.setLoaded p (some { b with state := .unverified })).ports = s.ports := notes.ports
        rw [← same]
        exact State.addHold_holdsQueue .stockUnverified named once notes.jobs notes.queues
          (congrArg TableStore.tables notes.store) fun q other => ⟨by rw [same], by
            unfold State.loaded State.setLoaded
            dsimp only
            rw [Vector.at_put_other _ _ (Ne.symm other), notes.stock]⟩
      generalize (r.setLoaded p (some { b with state := .unverified })).addHold p .stockUnverified = u at *
      refine ⟨?_, ?_, fun no => absurd ⟨b, batch, fits⟩ no, ?_⟩
      · rw [rest]
        unfold State.setLoaded
        rw [notes.rest]
      · rw [rest]
        exact stands.2.1
      · rintro c same -
        cases same
        refine ⟨?_, ?_, queue⟩
        · rw [rest]
          unfold State.setLoaded
          dsimp only
          rw [notes.stock]
        · rw [ports]
          show r.ports.put p _ = _
          rw [show (r.setLoaded p (some { b with state := .unverified })).ports = s.ports from notes.ports, notes.ports]
          rfl
    · rw [if_neg fits]
      refine ⟨stands.1, stands.2.1, fun _ => stands.2.2, ?_⟩
      rintro c same yes
      cases same
      exact absurd yes fits

end Sys2Proof.Machine
end

