-- ==== Sys2Proof/Proofs/FeedsRefused.lean ====
section
/-! SUPPORT. A port that fails after its queue was considered for the hold of a stock mismatch drops its work all the same
(R55, R59, R86). -/

namespace Sys2Proof.Machine

/-! ### Jobs that move keep their particulars -/

theorem State.moveJob_particulars {s : State} {j : JobNumber} {job : Job} (record : s.jobs.at j = some job) (q : Printer)
    (front : Bool) (i : JobNumber) :
    ((s.moveJob j job q front).jobs.at i).map Job.particulars = (s.jobs.at i).map Job.particulars := by
  show ((s.jobs.put j (some { job with printer := q, retry := 0 })).at i).map Job.particulars = _
  rw [Vector.at_put]
  by_cases same : j = i
  · subst same
    rw [if_pos rfl, record]
    rfl
  · rw [if_neg same]

theorem State.considerJob_particulars (concerns : Job → Bool) (s : State) (j i : JobNumber) :
    ((State.considerJob concerns none s j).jobs.at i).map Job.particulars = (s.jobs.at i).map Job.particulars := by
  unfold State.considerJob
  split
  · rfl
  · rename_i job record
    split
    · cases s.moveTarget job with
      | none => rfl
      | some q => exact State.moveJob_particulars record q false i
    · rfl

theorem State.considerJobs_particulars (concerns : Job → Bool) (l : List JobNumber) (s : State) (i : JobNumber) :
    ((l.foldl (State.considerJob concerns none) s).jobs.at i).map Job.particulars = (s.jobs.at i).map Job.particulars := by
  induction l generalizing s with
  | nil => rfl
  | cons j l ih => rw [List.foldl_cons, ih, State.considerJob_particulars]

theorem State.addHold_particulars (s : State) (p : Printer) (r : HoldReason) (i : JobNumber) :
    ((s.addHold p r).jobs.at i).map Job.particulars = (s.jobs.at i).map Job.particulars := by
  rw [State.addHold_eq]
  split
  · exact State.considerJobs_particulars _ _ _ i
  · rfl

theorem State.stockMismatch_particulars (s : State) (p : Printer) (i : JobNumber) :
    ((s.stockMismatch p).jobs.at i).map Job.particulars = (s.jobs.at i).map Job.particulars := by
  have raised : (s.raise (.printer p .stockMismatch)).jobs = s.jobs := (s.raise_notes _).jobs
  unfold State.stockMismatch
  dsimp only
  split
  · split
    · unfold State.addStockHold
      split
      · rw [State.addHold_particulars]
        exact congrArg (fun jobs => (Vector.at jobs i).map Job.particulars) raised
      · exact congrArg (fun jobs => (Vector.at jobs i).map Job.particulars) raised
    · rw [raised]
  · rw [raised]

/-- SPOIL records look at the particulars of the jobs alone. -/
theorem State.spoils_particulars {s t : State}
    (same : ∀ j, (t.jobs.at j).map Job.particulars = (s.jobs.at j).map Job.particulars) (cause : SpoilCause) (p : Printer)
    (es : List Entry) : t.spoils cause p es = s.spoils cause p es := by
  have record : ∀ x : Job, spoilRecord cause x p = spoilRecord cause x.particulars p := fun x => rfl
  have serial : ∀ x : Job, x.serial = x.particulars.serial := fun x => rfl
  unfold State.spoils
  refine List.filterMap_congr fun e _ => ?_
  congr 1
  cases e.ticket with
  | none => rfl
  | some t' =>
    have here := same t'.job
    simp only [Option.bind_some]
    cases ht : t.jobs.at t'.job <;> cases hs : s.jobs.at t'.job <;> rw [ht, hs] at here
    · cases here
    · cases here
    · have eq := Option.some.inj here
      dsimp only
      rw [record, serial, eq]
      rfl

/-! ### The queue considered twice -/

/-- Jobs that return to their queue leave the move test as it was. -/
theorem State.returning_moveTarget (s : State) (p : Printer) (es : List Entry) (y : Job) :
    (s.returning p es).moveTarget y = s.moveTarget y := by
  obtain ⟨_, _, ports, stock, store⟩ := s.returning_rest p es
  refine State.moveTarget_congr y (by rw [store]) fun q _ => State.sendsType_congr (by rw [ports]) ?_ _
  unfold State.loaded
  rw [stock]

/-- The other queues lose no job to a queue considered after jobs returned to it. -/
theorem State.Considers.returning_tails {m u : State} {p : Printer} {es : List Entry} {concerns : Job → Bool}
    {refusal : Option AnswerCode} (h : (m.returning p es).Considers p concerns refusal u) {q : Printer} (other : q ≠ p)
    {j : JobNumber} (k : j ∈ m.queues.at q) : j ∈ u.queues.at q := by
  rw [h.tails q other]
  refine List.mem_append_left _ ?_
  unfold State.returning
  dsimp only
  rw [Vector.at_put_other _ _ (Ne.symm other)]
  exact k

/-- A printer's queue has been considered for a hold, or stands; its window, the other ports, the sessions and the journal
stand. -/
structure State.Sifted (s : State) (p : Printer) (m : State) : Prop where
  journal : m.journal = s.journal
  sessions : m.sessions = s.sessions
  tables : m.store.tables = s.store.tables
  others : ∀ q, q ≠ p → m.ports.at q = s.ports.at q
  loaded : ∀ q, q ≠ p → m.loaded q = s.loaded q
  entries : (m.ports.at p).entries = (s.ports.at p).entries
  particulars : ∀ j, (m.jobs.at j).map Job.particulars = (s.jobs.at j).map Job.particulars
  queue : s.placed p → ∃ g : Prop, s.HoldsQueue p g m
  loud : s.Loud m

namespace State.Sifted

variable {s m u : State} {p : Printer}

/-- A job that stood at the printer stays as it was, or has moved and stands there no more. -/
theorem stays_or_moves (h : s.Sifted p m) (placed : s.placed p) (j : JobNumber) :
    m.jobs.at j = s.jobs.at j ∧ (j ∈ m.queues.at p ↔ j ∈ s.queues.at p) ∨
      j ∈ s.queues.at p ∧ j ∉ m.queues.at p ∧ ∃ y q, s.jobs.at j = some y ∧ s.moveTarget y = some q ∧
        m.jobs.at j = some { y with printer := q, retry := 0 } ∧ j ∈ m.queues.at q := by
  obtain ⟨g, considered, alone⟩ := h.queue placed
  by_cases held : g
  · have c := considered held
    by_cases m' : j ∈ s.queues.at p
    · obtain ⟨y, record, _⟩ := placed.1 j (Or.inl m')
      cases target : s.moveTarget y with
      | none =>
        obtain ⟨same, stands⟩ := c.stayed j m' y record (Or.inr ⟨target, rfl⟩)
        exact Or.inl ⟨same.trans record.symm, fun _ => m', fun _ => stands⟩
      | some q =>
        obtain ⟨moved, stands⟩ := c.moved j m' y q record rfl target
        refine Or.inr ⟨m', fun k => ?_, y, q, record, target, moved, stands⟩
        rw [c.queue, List.mem_filter] at k
        unfold State.sendsTo at k
        simp [record, target] at k
    · refine Or.inl ⟨c.others j m', fun k => ?_, fun k => absurd k m'⟩
      rw [c.queue, List.mem_filter] at k
      exact k.1
  · exact Or.inl ⟨(alone held).1 j, by rw [(alone held).2 p]⟩

theorem standsAt_of (h : s.Sifted p m) (placed : s.placed p) {j : JobNumber} (stands : m.standsAt p j) : s.standsAt p j := by
  refine stands.imp (fun q => ?_) fun w => h.entries ▸ w
  rcases h.stays_or_moves placed j with ⟨_, same⟩ | ⟨old, _⟩
  · exact same.mp q
  · exact old

/-- A job that stands at the printer still is as it was. -/
theorem job_of_standsAt (h : s.Sifted p m) (placed : s.placed p) {j : JobNumber} (stands : m.standsAt p j) :
    m.jobs.at j = s.jobs.at j := by
  rcases h.stays_or_moves placed j with ⟨same, _⟩ | ⟨old, gone, _⟩
  · exact same
  · refine stands.elim (fun q => absurd q gone) fun w => absurd old (placed.window_not_queue ?_)
    rw [h.entries, List.mem_map] at w
    exact List.mem_filterMap.mpr w

theorem placed (h : s.Sifted p m) (placed : s.placed p) : m.placed p := by
  refine ⟨fun j stands => ?_, ?_⟩
  · rw [h.job_of_standsAt placed stands]
    exact placed.1 j (h.standsAt_of placed stands)
  · have window := (List.nodup_append.mp placed.2).1
    obtain ⟨g, considered, alone⟩ := h.queue placed
    have sub : (m.queues.at p).Sublist (s.queues.at p) := by
      by_cases held : g
      · rw [(considered held).queue]
        exact List.filter_sublist
      · rw [(alone held).2 p]
    rw [h.entries]
    exact placed.2.sublist (List.Sublist.append (List.Sublist.refl _) sub)

/-- The move test of a job of the printer (R12). -/
theorem moveTarget (h : s.Sifted p m) {y : Job} (at_ : y.printer = p) (es : List Entry) :
    (m.returning p es).moveTarget y = (s.returning p es).moveTarget y := by
  rw [State.returning_moveTarget, State.returning_moveTarget]
  exact State.moveTarget_congr y h.tables fun q differ =>
    State.sendsType_congr (by rw [h.others q (at_ ▸ differ)]) (h.loaded q (at_ ▸ differ)) _

/-- What became of each job of the window and the queue, the two considerations taken together. -/
theorem resolves (h : s.Sifted p m) (placed : s.placed p) {code : AnswerCode}
    (second : (m.returning p (m.ports.at p).entries).Considers p (fun _ => true) (some code) u) :
    (s.returning p (s.ports.at p).entries).Resolves p (fun _ => true) (some code) u := by
  rw [h.entries] at second
  have stands : ∀ {j}, m.standsAt p j → j ∈ (m.returning p (s.ports.at p).entries).queues.at p := fun {j} k => by
    rw [← h.entries]
    exact (m.mem_returning_queue p j).mpr k
  have same : ∀ {j}, m.standsAt p j →
      (m.returning p (s.ports.at p).entries).jobs.at j = (s.returning p (s.ports.at p).entries).jobs.at j := fun {j} k => by
    rw [State.returning_jobs, State.returning_jobs, h.job_of_standsAt placed k]
  have old : ∀ {j}, j ∈ (s.returning p (s.ports.at p).entries).queues.at p → m.standsAt p j ∨
      j ∈ s.queues.at p ∧ j ∉ m.queues.at p ∧ ∃ y q, s.jobs.at j = some y ∧ s.moveTarget y = some q ∧
        m.jobs.at j = some { y with printer := q, retry := 0 } ∧ j ∈ m.queues.at q := fun {j} k => by
    rcases (s.mem_returning_queue p j).mp k with q | w
    · exact (h.stays_or_moves placed j).imp (fun a => Or.inl (a.2.mpr q)) id
    · exact Or.inl (Or.inr (h.entries ▸ w))
  have named : ∀ {j y}, j ∈ (s.returning p (s.ports.at p).entries).queues.at p →
      (s.returning p (s.ports.at p).entries).jobs.at j = some y → y.printer = p := fun {j y} k record => by
    obtain ⟨x, r, at_⟩ := placed.returning.1 j k
    cases r.symm.trans record
    exact at_
  have window : ∀ {j}, j ∈ s.queues.at p → j ∉ (s.ports.at p).entries.filterMap Entry.job? := fun k w =>
    placed.window_not_queue w k
  refine ⟨fun j k y q record _ target => ?_, fun j k y c record _ target is => ?_, fun j k y record c => ?_⟩
  · rcases old k with here | ⟨queued, gone, x, q', r, t, moved, elsewhere⟩
    · exact second.moved j (stands here) y q ((same here).trans record) rfl ((h.moveTarget (named k record) _).trans target)
    · have out := window queued
      rw [State.returning_jobs, if_neg out, r] at record
      cases record
      rw [State.returning_moveTarget, t] at target
      cases target
      have away : q ≠ p := fun e => gone (e ▸ elsewhere)
      refine ⟨?_, second.returning_tails away elsewhere⟩
      have untouched : j ∉ (m.returning p (s.ports.at p).entries).queues.at p := fun w => by
        rw [← h.entries, m.mem_returning_queue p j] at w
        refine w.elim gone fun w => out ?_
        rw [h.entries, List.mem_map] at w
        exact List.mem_filterMap.mpr w
      rw [second.others j untouched, State.returning_jobs, if_neg out, moved]
  · rcases old k with here | ⟨queued, gone, x, q', r, t, moved, elsewhere⟩
    · exact second.refused j (stands here) y c ((same here).trans record) rfl
        ((h.moveTarget (named k record) _).trans target) is
    · rw [State.returning_jobs, if_neg (window queued), r] at record
      cases record
      rw [State.returning_moveTarget, t] at target
      cases target
  · rcases c with c | ⟨_, c⟩
    · cases c
    · cases c

/-- A port whose queue has been considered fails: it drops its work (R59). -/
theorem drops (h : s.Sifted p m) : s.Drops p .failed .protocol (m.failPort p none) := by
  have leaves := m.failPort_leaves p none
  obtain ⟨dropped, considers⟩ := State.failPort_drops (.refl m p) none
  generalize m.failPort p none = u at *
  refine ⟨⟨leaves.state, leaves.entries, leaves.timers, fun q other => (leaves.others q other).trans (h.others q other),
    fun placed => leaves.queue (h.placed placed), ?_, fun held => ?_, leaves.claim, h.loud.keeps.trans leaves.keeps,
    h.loud.books.trans leaves.books⟩, fun placed => ?_, fun placed => ?_⟩
  · rw [leaves.records, h.journal, h.entries, State.spoils_particulars h.particulars]
  · rw [leaves.places (h.entries ▸ held), h.journal]
    unfold Port.places
    rw [h.entries]
  · exact h.resolves placed (considers (h.placed placed))
  · obtain ⟨jobs, owed⟩ := dropped.ended (h.placed placed)
    have session : ∀ n, m.session n = s.session n := fun n => by
      unfold State.session
      rw [h.sessions]
    have gone : ∀ j, (m.standsAt p j ∧ u.jobs.at j = none) ↔ (s.standsAt p j ∧ u.jobs.at j = none) := fun j => by
      refine and_congr_left fun none_ => ⟨h.standsAt_of placed, fun stands => ?_⟩
      rcases stands with q | w
      · rcases h.stays_or_moves placed j with ⟨_, same⟩ | ⟨_, not_, y, q', record, target, _, _⟩
        · exact Or.inl (same.mpr q)
        · have moved := (h.resolves placed (considers (h.placed placed))).moved j
            ((s.mem_returning_queue p j).mpr (Or.inl q)) y q'
            (by rw [State.returning_jobs, if_neg fun w => placed.window_not_queue w q, record]) rfl
            (by rw [State.returning_moveTarget, target])
          rw [none_] at moved
          cases moved.1
      · exact Or.inr (h.entries ▸ w)
    have same : (allJobs.filterMap fun j => if m.standsAt p j ∧ u.jobs.at j = none then m.jobs.at j else none) =
        allJobs.filterMap fun j => if s.standsAt p j ∧ u.jobs.at j = none then s.jobs.at j else none := by
      refine List.filterMap_congr fun j _ => ?_
      by_cases lost : m.standsAt p j ∧ u.jobs.at j = none
      · rw [if_pos lost, if_pos ((gone j).mp lost), h.job_of_standsAt placed lost.1]
      · rw [if_neg lost, if_neg (mt (gone j).mpr lost)]
    rw [same] at jobs owed
    simp only [session] at jobs owed
    exact ⟨jobs, owed⟩

end State.Sifted

end Sys2Proof.Machine
end

