-- ==== Sys2Proof/Proofs/FeedsSettled.lean ====
section
/-! SUPPORT. FED and DOUBLEFED, put together. -/

namespace Sys2Proof.Machine

/-- The stock mismatch of a TICKET port sifts its queue. -/
theorem State.stockMismatch_sifted {s : State} {p : Printer} (ticket : s.function p = .ticket) :
    s.Sifted p (s.stockMismatch p) := by
  obtain ⟨rest, _, none_, some_⟩ := State.stockMismatch_effect ticket
  have loud := State.stockMismatch_loud (.refl s) p
  have particulars := s.stockMismatch_particulars p
  generalize s.stockMismatch p = m at *
  have journal : m.journal = s.journal := by rw [rest]
  have sessions : m.sessions = s.sessions := by rw [rest]
  have store : m.store = s.store := by rw [rest]
  by_cases mismatches : s.mismatches p
  · obtain ⟨b, batch, fits⟩ := mismatches
    obtain ⟨stock, ports, queue⟩ := some_ b batch fits
    refine ⟨journal, sessions, by rw [store], fun q other => ?_, fun q other => ?_, ?_, particulars,
      fun placed => ⟨_, queue placed.queuedAt placed.queue_nodup⟩, loud⟩
    · rw [ports, Vector.at_put_other _ _ (Ne.symm other)]
    · unfold State.loaded
      rw [stock]
      exact Vector.at_put_other _ _ (Ne.symm other)
    · rw [ports, Vector.at_put_same]
      rfl
  · obtain ⟨stock, ports, jobs, queues⟩ := none_ mismatches
    refine ⟨journal, sessions, by rw [store], fun q _ => by rw [ports], fun q _ => ?_, by rw [ports], particulars,
      fun _ => ⟨False, .of_alone id jobs queues⟩, loud⟩
    unfold State.loaded
    rw [stock]

theorem State.stockMismatch_spares (s : State) (p : Printer) : s.Spares (s.stockMismatch p) p := by
  have raised := (s.raise_notes (.printer p .stockMismatch)).aside.spares p
  unfold State.stockMismatch
  dsimp only
  split
  · split
    · exact raised.trans (State.Spares.trans (t := State.setLoaded _ p _) ⟨fun _ => rfl, fun _ _ => rfl, fun _ => id⟩
        (State.addStockHold_spares _ p _))
    · exact raised
  · exact raised

/-- A queue that a hold takes to HELD, seen from a state that differs at the printer alone. -/
theorem State.HoldsQueue.of_before {v v' u : State} {p : Printer} {g : Prop} (h : v'.HoldsQueue p g u)
    (jobs : v'.jobs = v.jobs) (queues : v'.queues = v.queues) (tables : v'.store.tables = v.store.tables)
    (named : v.queuedAt p)
    (others : ∀ q, q ≠ p → (v'.ports.at q).state = (v.ports.at q).state ∧ v'.loaded q = v.loaded q) :
    v.HoldsQueue p g u :=
  ⟨fun yes => (h.1 yes).of_before jobs queues tables named others, fun no => by rw [← jobs, ← queues]; exact h.2 no⟩

/-- The batch that numbers a feed. -/
theorem State.feedBatch_some {s : State} {p : Printer} {job : Job} {b : Batch} (loaded : s.loaded p = some b)
    (type : b.stockType = job.stockType) (state : b.state = .loaded ∨ b.state = .unverified) (some_ : 0 < b.remaining) :
    s.feedBatch p job = some b := by
  unfold State.feedBatch Batch.gives
  rw [loaded]
  simp [type, state, some_]

theorem State.feedBatch_none {s : State} {p : Printer} {job : Job} (no : ∀ b, s.loaded p = some b →
    b.stockType ≠ job.stockType ∨ (b.state ≠ .loaded ∧ b.state ≠ .unverified) ∨ b.remaining = 0) :
    s.feedBatch p job = none := by
  unfold State.feedBatch Batch.gives
  rw [Option.filter_eq_none_iff]
  intro b loaded
  have := no b loaded
  simp only [Bool.and_eq_true, Bool.or_eq_true, beq_iff_eq, decide_eq_true_eq]
  rintro ⟨type, state, some_⟩
  rcases this with h | ⟨h, k⟩ | h
  · exact h type
  · exact state.elim h k
  · omega

/-- The batch that numbers a double feed. -/
theorem State.doubleBatch_some {s : State} {p : Printer} {b : Batch} (loaded : s.loaded p = some b)
    (state : b.state = .loaded ∨ b.state = .unverified) (some_ : 0 < b.remaining) :
    (s.loaded p).filter Batch.gives = some b := by
  unfold Batch.gives
  rw [loaded]
  simp [state, some_]

theorem State.doubleBatch_none {s : State} {p : Printer} (no : ∀ b, s.loaded p = some b →
    (b.state ≠ .loaded ∧ b.state ≠ .unverified) ∨ b.remaining = 0) : (s.loaded p).filter Batch.gives = none := by
  rw [Option.filter_eq_none_iff]
  intro b loaded
  have := no b loaded
  unfold Batch.gives
  simp only [Bool.and_eq_true, Bool.or_eq_true, beq_iff_eq, decide_eq_true_eq]
  rintro ⟨state, some_⟩
  rcases this with ⟨h, k⟩ | h
  · exact state.elim h k
  · omega

/-- What a serial given does with the job's record and the window entry changed besides (R55, R56, R82, R83, R85). -/
theorem State.giveSerial_given {s : State} {p : Printer} {older younger : List Entry} {e : Entry} {t : TicketPart}
    {job : Job} {b : Batch} (shows_ : s.Shows p older e younger t job) (ticket : s.function p = .ticket)
    (some_ : 0 < b.remaining) (fed : Job) (e' : Entry) (u : State)
    (stock : u.stock = (s.giveSerial p b).stock)
    (ports : u.ports = (s.giveSerial p b).ports.put p { (s.giveSerial p b).ports.at p with entries := older ++ e' :: younger })
    (jobs : u.jobs = (s.giveSerial p b).jobs.put t.job (some fed)) (queues : u.queues = (s.giveSerial p b).queues)
    (monitor : u.monitor = (s.giveSerial p b).monitor) (claims : u.journal.claims = (s.giveSerial p b).journal.claims)
    (loud : s.Loud u) :
    let ends := b.state = .loaded ∧ b.remaining = 1
    let low := (s.printerEntry p).lowStock
    u.stock = { s.stock with loaded := s.stock.loaded.put p (some { b.give with
      state := if ends then .exhausted else b.state, closingOwed := b.closingOwed || ends }) } ∧
    (ends → .batch b.id ∈ u.journal.claims ∧ (u.ports.at p).holds .noStock = true ∧ (s.placed p →
      State.HoldsQueue { s with jobs := s.jobs.put t.job (some fed) } p ((s.ports.at p).state = .active) u)) ∧
    (¬ ends → u.queues = s.queues ∧ (u.ports.at p).hold = (s.ports.at p).hold ∧
      (u.ports.at p).state = (s.ports.at p).state) ∧
    (b.remaining = low + 1 → (u.monitor.lasting.at p).stockLow = true) ∧
    (b.remaining ≠ low + 1 → u.monitor = s.monitor) ∧ s.Keeps u ∧ s.SameBooks u := by
  intro ends low
  obtain ⟨rest, last, more, lowered, level⟩ := State.giveSerial_effect ticket some_
  generalize s.giveSerial p b = g at *
  refine ⟨?_, fun yes => ?_, fun no => ?_, fun h => ?_, fun h => ?_, loud.keeps, loud.books⟩
  · rw [stock, rest]
    rfl
  · obtain ⟨claim, held, queue⟩ := last yes
    refine ⟨claims ▸ claim, ?_, fun placed => ?_⟩
    · rw [ports, Vector.at_put_same, held, Vector.at_put_same]
      show ((s.ports.at p).under .noStock).holds .noStock = true
      rw [Port.under_holds, if_pos rfl]
    · exact ((queue placed.queuedAt placed.queue_nodup).put_job (placed.window_not_queue shows_.mem_window)
        (some fed)).of_after jobs queues
  · obtain ⟨port, _, same⟩ := more no
    rw [queues, same, ports, Vector.at_put_same, port]
    exact ⟨rfl, rfl, rfl⟩
  · rw [monitor]
    exact lowered h
  · rw [monitor]
    exact level h

end Sys2Proof.Machine

open Sys2Proof Sys2Proof.Machine

/-- Settles O48: a feed with a serial to give is `giveSerial` and a window entry; one with none is a stock mismatch, after
which a FED fails the port. -/
theorem feedsTaken : Obligations.FeedsTaken := by
  intro p body older younger e t job s names low given mismatched mismatches
  have shows_ := names.shows
  have at_ := shows_.ticketAt
  have ticket := names.function
  obtain ⟨mmRest, mmMark, mmNone, mmSome⟩ := State.stockMismatch_effect ticket
  refine ⟨fun allowed => ⟨fun b loaded type state some_ => ?_, fun no => ?_⟩,
    fun allowed => ⟨fun b loaded state some_ => ?_, fun no => ?_⟩⟩
  · have taken := names.toNames.taken (r := .fed) (names.function ▸ allowed)
    unfold State.takeImageReport at taken
    rw [if_pos ticket] at taken
    have loud := State.takeFeed_loud (.refl s) p older.length
    obtain ⟨rest, _, _, _⟩ := State.giveSerial_effect ticket some_
    have spares := State.giveSerial_spares s p b
    have window := (spares.entries p).trans shows_.window
    have shape : s.takeFeed p older.length = (((s.giveSerial p b).setPort p { (s.giveSerial p b).ports.at p with
        entries := older ++ { e with phase := .fed } :: younger }).setJob t.job
          (some { job with serial := some (b.next, b.id), state := .fed })).transmit p (.serial e.image b.next) := by
      unfold State.takeFeed
      rw [at_]
      dsimp only
      rw [State.feedBatch_some loaded type state some_]
      dsimp only
      rw [State.updateEntry_eq _ p older younger e _ window]
    dsimp only at taken
    rw [shape] at taken loud
    refine ⟨_, taken, State.giveSerial_given shows_ ticket some_ _ _ _ rfl rfl rfl rfl rfl rfl loud, ?_, ?_, ?_, ?_, ?_⟩
    · exact Vector.at_put_same ..
    · exact congrArg Port.entries (Vector.at_put_same ..)
    · show (s.giveSerial p b).sent ++ _ = _
      rw [rest]
    · show (s.giveSerial p b).journal.queue = _
      rw [rest]
    · show (s.giveSerial p b).journal.reserved = _
      rw [rest]
  · have taken := names.toNames.taken (r := .fed) (names.function ▸ allowed)
    unfold State.takeImageReport at taken
    rw [if_pos ticket] at taken
    have shape : s.takeFeed p older.length = (s.stockMismatch p).failPort p none := by
      unfold State.takeFeed
      rw [at_]
      dsimp only
      rw [State.feedBatch_none no]
    dsimp only at taken
    rw [shape] at taken
    have sifted := State.stockMismatch_sifted ticket
    have drops := sifted.drops
    obtain ⟨_, stock, sent, ports, _, _, _, monitor⟩ := (s.stockMismatch p).failPort_effect p none
    generalize s.stockMismatch p = m at *
    refine ⟨_, taken, drops, ⟨?_, fun none_ => ?_, fun b loaded fits => ?_⟩, ?_, ?_⟩
    · rw [monitor]
      show (m.monitor.lasting.at p).stockMismatch = true
      rw [mmMark]
      rfl
    · rw [stock]
      refine (mmNone ?_).1
      rintro ⟨b, loaded, fits⟩
      exact fits.elim (none_ b loaded).1 (none_ b loaded).2
    · obtain ⟨stock', ports', _⟩ := mmSome b loaded fits
      refine ⟨stock.trans stock', ?_⟩
      rw [ports, Vector.at_put_same, ports', Vector.at_put_same]
      show ((s.ports.at p).under .stockUnverified).holds .stockUnverified = true
      rw [Port.under_holds, if_pos rfl]
    · rw [monitor]
      show (m.monitor.lasting.at p).protocol = _
      rw [mmMark]
      rfl
    · rw [sent, mmRest]
  · have taken := names.toNames.taken (r := .doublefed) (names.function ▸ allowed)
    unfold State.takeImageReport at taken
    rw [if_pos ticket] at taken
    have loud := State.takeDoubleFeed_loud (.refl s) p older.length
    obtain ⟨rest, _, _, _⟩ := State.giveSerial_effect ticket some_
    have spares := State.giveSerial_spares s p b
    have window := (spares.entries p).trans shows_.window
    have shape : s.takeDoubleFeed p older.length = (((s.giveSerial p b).setPort p { (s.giveSerial p b).ports.at p with
        entries := older ++ { e with ticket := some { t with doubleFed := true, places := t.places - 1 } } :: younger }).setJob
          t.job (some { job with spare := some b.next })).handOnPlace (spoilRecord .doubleFeed job p b.next b.id)
            .nothing := by
      unfold State.takeDoubleFeed
      rw [at_]
      dsimp only
      rw [State.doubleBatch_some loaded state some_]
      dsimp only
      rw [State.updateEntry_eq _ p older younger e _ window, names.ticket]
      rfl
    dsimp only at taken
    rw [shape] at taken loud
    obtain ⟨hands, queue, reserved⟩ := State.handOnPlace_effect (((s.giveSerial p b).setPort p
      { (s.giveSerial p b).ports.at p with
        entries := older ++ { e with ticket := some { t with doubleFed := true, places := t.places - 1 } } :: younger }).setJob
          t.job (some { job with spare := some b.next })) (spoilRecord .doubleFeed job p b.next b.id) .nothing
    generalize State.handOnPlace _ _ _ = u at *
    refine ⟨u, taken, State.giveSerial_given shows_ ticket some_ _ _ u hands.stock hands.ports hands.jobs hands.queues
      hands.monitor hands.claims loud, ?_, ?_, ?_, ?_, ?_⟩
    · rw [hands.jobs]
      exact Vector.at_put_same ..
    · rw [hands.ports]
      exact congrArg Port.entries (Vector.at_put_same ..)
    · rw [queue]
      show (s.giveSerial p b).journal.queue ++ _ = _
      rw [rest]
      rfl
    · rw [reserved]
      show (s.giveSerial p b).journal.reserved - 1 = _
      rw [rest]
    · rw [hands.sent]
      show (s.giveSerial p b).sent = _
      rw [rest]
  · have taken := names.toNames.taken (r := .doublefed) (names.function ▸ allowed)
    unfold State.takeImageReport at taken
    rw [if_pos ticket] at taken
    have loud := State.takeDoubleFeed_loud (.refl s) p older.length
    let v := s.setPort p { s.ports.at p with
      entries := older ++ { e with ticket := some { t with doubleFed := true } } :: younger }
    have shape : s.takeDoubleFeed p older.length = v.stockMismatch p := by
      unfold State.takeDoubleFeed
      rw [at_]
      dsimp only
      rw [State.doubleBatch_none no]
      dsimp only
      rw [State.updateEntry_eq _ p older younger e _ shows_.window, names.ticket]
      rfl
    dsimp only at taken
    rw [shape] at taken loud
    have port : v.ports.at p = { s.ports.at p with
        entries := older ++ { e with ticket := some { t with doubleFed := true } } :: younger } := Vector.at_put_same ..
    obtain ⟨rest, mark, none_, some_⟩ := State.stockMismatch_effect (s := v) (p := p) ticket
    have spares := v.stockMismatch_spares p
    generalize v.stockMismatch p = u at *
    have same : ∀ {b}, s.loaded p = some b → v.loaded p = some b := fun h => h
    refine ⟨u, taken, ⟨?_, fun none' => ?_, fun b loaded fits => ?_⟩, ?_, fun mm => ?_, ?_, ?_, ?_, ?_, ?_, loud.keeps,
      loud.books⟩
    · rw [mark]
      rfl
    · refine (none_ ?_).1
      rintro ⟨b, loaded, fits⟩
      exact fits.elim (none' b loaded).1 (none' b loaded).2
    · obtain ⟨stock, ports, _⟩ := some_ b (same loaded) fits
      refine ⟨stock, ?_⟩
      rw [ports, Vector.at_put_same, Port.under_holds, if_pos rfl]
    · rintro ⟨b, loaded, fits⟩
      obtain ⟨_, ports, queue⟩ := some_ b (same loaded) fits
      refine ⟨fun active => ?_, fun placed => ?_⟩
      · rw [ports, Vector.at_put_same, port]
        exact if_pos active
      · rw [port] at queue
        exact (queue placed.queuedAt placed.queue_nodup).of_before rfl rfl rfl placed.queuedAt fun q other =>
          ⟨congrArg Port.state (Vector.at_put_other _ _ (Ne.symm other)), rfl⟩
    · obtain ⟨_, ports, jobs, queues⟩ := none_ mm
      rw [ports, port]
      exact ⟨rfl, rfl, jobs, queues⟩
    · rw [spares.entries p, port]
    · split
      · rfl
      · rename_i out
        rw [spares.jobs t.job out]
        exact shows_.record
    · rw [rest]
      rfl
    · rw [rest]
      rfl
    · rw [rest]
      rfl
end

