-- ==== Sys2Proof/Proofs/JamsTaken.lean ====
section
/-! SUPPORT. R12's move test in words, and JAMMED: what is cut off the window, what becomes of the job named, and the hold
(R16, R51, R58). -/

namespace Sys2Proof.Machine

/-! ### The move test (R12) -/

/-- The other place of a route entry that names the printer (R12; log 32). -/
theorem RouteEntry.other_eq_some_iff (e : RouteEntry) (p q : Printer) :
    (if e.primary = some p then e.second else if e.second = some p then e.primary else none) = some q ↔
      q ≠ p ∧ ((e.primary = some p ∧ e.alternate = some q) ∨ (e.alternate = some p ∧ e.primary = some q)) := by
  unfold RouteEntry.second
  by_cases first : e.primary = some p
  · rw [if_pos first, first]
    by_cases twice : e.alternate = some p
    · rw [if_pos twice, twice]
      refine ⟨fun h => (nomatch h), fun ⟨differ, named⟩ => ?_⟩
      exact named.elim (fun h => absurd (Option.some.inj h.2).symm differ) fun h => absurd (Option.some.inj h.2).symm differ
    · rw [if_neg twice]
      refine ⟨fun named => ⟨?_, Or.inl ⟨rfl, named⟩⟩, fun ⟨_, named⟩ => ?_⟩
      · rintro rfl
        exact twice named
      · exact named.elim And.right fun h => absurd h.1 twice
  · rw [if_neg first]
    by_cases second : e.alternate = some p
    · have differ : ¬ e.alternate = e.primary := fun h => first (h ▸ second)
      rw [if_neg differ, if_pos second]
      refine ⟨fun named => ⟨?_, Or.inr ⟨second, named⟩⟩, fun ⟨_, named⟩ => ?_⟩
      · rintro rfl
        exact first named
      · exact named.elim (fun h => absurd h.1 first) And.right
    · have neither : ¬ (if e.alternate = e.primary then none else e.alternate) = some p := by
        split
        · exact fun h => nomatch h
        · exact second
      rw [if_neg neither]
      refine ⟨fun h => (nomatch h), fun ⟨_, named⟩ => ?_⟩
      exact named.elim (fun h => absurd h.1 first) fun h => absurd h.1 second

theorem State.moveTarget_iff (s : State) (job : Job) (q : Printer) :
    let e := s.routeEntry job.origin.window job.stockType
    s.moveTarget job = some q ↔ q ≠ job.printer ∧
      ((e.primary = some job.printer ∧ e.alternate = some q) ∨ (e.alternate = some job.printer ∧ e.primary = some q)) ∧
      s.function q = .ticket ∧ (s.ports.at q).state = .active ∧
      ∃ b, s.loaded q = some b ∧ b.stockType = job.stockType ∧ b.state = .loaded := by
  intro e
  unfold State.moveTarget State.otherPrinter State.sendsType
  simp only [Option.filter_eq_some_iff, RouteEntry.other_eq_some_iff, beq_iff_eq, Bool.and_eq_true, Option.any_eq_true]
  tauto

/-! ### The hold of a jam (R51) -/

/-- A jam latched: the port with its latch and JAM among its hold reasons. -/
def Port.latched (x : Port) : Port := Port.under { x with jamLatch := true } .jam

theorem State.latchJam_ports (s : State) (p : Printer) :
    (s.latchJam p).ports = s.ports.put p (s.ports.at p).latched := by
  unfold State.latchJam
  rw [State.addHold_ports, State.updatePort_ports, Vector.at_put_same, Vector.put_put]
  rfl

/-- At an ACTIVE or HELD port. -/
theorem Port.latched_attached {x : Port} (attached : x.state = .active ∨ x.state = .held) :
    x.latched = { x with jamLatch := true, hold := x.hold.put HoldReason.jam.place true, state := .held } := by
  unfold Port.latched Port.under
  rcases attached with h | h <;> rw [h] <;> rfl

theorem State.latchJam_rest (s : State) (p : Printer) :
    s.latchJam p = { s with
      ports := (s.latchJam p).ports, jobs := (s.latchJam p).jobs, queues := (s.latchJam p).queues } :=
  State.addHold_rest _ p .jam

/-- Where the port has no queue, a jam latched changes the port alone. -/
theorem State.latchJam_of_nil {s : State} {p : Printer} (empty : s.queues.at p = []) :
    s.latchJam p = { s with ports := s.ports.put p (s.ports.at p).latched } := by
  have ports := s.latchJam_ports p
  have shape : ∃ x, s.latchJam p = { s with ports := x } := by
    unfold State.latchJam
    rw [State.addHold_eq]
    split
    · exact ⟨_, State.resolveQueue_of_nil _ p _ _ empty⟩
    · exact ⟨_, rfl⟩
  obtain ⟨x, shape⟩ := shape
  rw [shape] at ports ⊢
  rw [show x = _ from ports]

/-! ### The jobs of a part of the window return -/

theorem State.placed.returning_part {s : State} {p : Printer} (h : s.placed p) {es : List Entry}
    (part : es.Sublist (s.ports.at p).entries) :
    (s.returning p es).queuedAt p ∧ ((s.returning p es).queues.at p).Nodup := by
  have queue : (s.returning p es).queues.at p = es.filterMap Entry.job? ++ s.queues.at p := Vector.at_put_same ..
  have sub : (es.filterMap Entry.job?).Sublist ((s.ports.at p).entries.filterMap Entry.job?) := part.filterMap _
  refine ⟨fun j m => ?_, ?_⟩
  · rw [queue] at m
    have stands : s.standsAt p j := (List.mem_append.mp m).elim (fun w => Or.inr ?_) Or.inl
    · obtain ⟨x, record, at_⟩ := h.1 j stands
      rw [State.returning_jobs, record]
      split
      · exact ⟨x.returned, rfl, at_⟩
      · exact ⟨x, rfl, at_⟩
    · exact List.mem_map.mpr (List.mem_filterMap.mp (sub.subset w))
  · rw [queue]
    exact h.2.sublist (sub.append (List.Sublist.refl _))

/-! ### The job named (R16) -/

/-- What becomes of the job named: it stays, ends or moves (R16). -/
theorem State.settleJammed_eq {v : State} {p : Printer} {e : Entry} {j : JobNumber} {x : Job} (named : e.job? = some j)
    (record : v.jobs.at j = some x) :
    v.settleJammed p e =
      if (v.printerEntry p).retryLimit < x.retry + 1 then
        match v.moveTarget { x with retry := x.retry + 1 } with
        | some q => (v.setJob j (some { x with retry := x.retry + 1 })).moveJob j { x with retry := x.retry + 1 } q true
        | none => (v.setJob j (some { x with retry := x.retry + 1 })).refuseJob j { x with retry := x.retry + 1 } .jammed
      else v.setJob j (some { x with retry := x.retry + 1 }) := by
  unfold State.settleJammed
  rw [named]
  dsimp only
  rw [record]
  rfl

theorem State.settleJammed_sorts (v : State) (p : Printer) (e : Entry) : v.Sorts (v.settleJammed p e) := by
  have put : ∀ j x, v.Sorts (v.setJob j x) := fun j x => ⟨rfl, fun _ _ => Iff.rfl⟩
  unfold State.settleJammed
  split
  · exact .refl v
  · split
    · exact .refl v
    · dsimp only
      split
      · split
        · exact (put _ _).trans (State.moveJob_moves ..).sorts
        · exact (put _ _).trans (State.refuseJob_sorts ..)
      · exact put _ _

/-- The queue after a jam is latched, seen from the state with the jobs and queues that the jam left (R13). -/
theorem State.latchJam_holdsQueue {s w : State} {p : Printer} {jobs : Tab (Option Job) 32} {queues : Tab (List JobNumber) 12}
    (named : State.queuedAt { s with jobs := jobs, queues := queues } p) (once : (queues.at p).Nodup)
    (jobs' : w.jobs = jobs) (queues' : w.queues = queues) (tables : w.store.tables = s.store.tables)
    (state : (w.ports.at p).state = (s.ports.at p).state)
    (others : ∀ q, q ≠ p → (w.ports.at q).state = (s.ports.at q).state ∧ w.loaded q = s.loaded q) :
    State.HoldsQueue { s with jobs := jobs, queues := queues } p ((s.ports.at p).state = .active) (w.latchJam p) := by
  have port : ((w.updatePort p fun x => { x with jamLatch := true }).ports.at p).state = (s.ports.at p).state := by
    rw [State.updatePort_ports, Vector.at_put_same]
    exact state
  rw [← port]
  refine State.addHold_holdsQueue .jam named once jobs' queues' tables fun q other => ?_
  rw [State.updatePort_ports, Vector.at_put_other _ _ (Ne.symm other)]
  exact others q other

/-- A queue whose jobs stood in another, one of them with a new record. -/
theorem State.queuedAt.put {v : State} {p : Printer} (named : v.queuedAt p) {queues : Tab (List JobNumber) 12}
    (sub : ∀ i ∈ queues.at p, i ∈ v.queues.at p) (s : State) (j : JobNumber) (x : Option Job)
    (own : j ∈ queues.at p → ∃ y, x = some y ∧ y.printer = p) :
    State.queuedAt { s with jobs := v.jobs.put j x, queues := queues } p := fun i m => by
  dsimp only at m ⊢
  rw [Vector.at_put]
  by_cases same : j = i
  · rw [if_pos same]
    exact own (same ▸ m)
  · rw [if_neg same]
    exact named i (sub i m)

/-- The window cut at the entry that a jam names (R58). -/
theorem State.jamCut_effect {s : State} {p : Printer} {older younger : List Entry} {e : Entry} {t : TicketPart} {job : Job}
    (shows_ : s.Shows p older e younger t job) :
    let v := (s.withdrawClaim (.engine p)).cutWindow p older.length .jam
    v = { s with
      ports := s.ports.put p { s.ports.at p with entries := older }
      jobs := (s.returning p (e :: younger)).jobs
      queues := s.queues.put p (t.job :: (younger.filterMap Entry.job? ++ s.queues.at p))
      journal := v.journal, sessions := v.sessions } ∧
    v.journal.queue = s.journal.queue ++ s.spoils .jam p (e :: younger) ∧ .engine p ∉ v.journal.claims ∧
    ((∀ f ∈ e :: younger, ∀ k ∈ f.ticket, 1 ≤ k.places) →
      v.journal.reserved = s.journal.reserved - ((e :: younger).map Entry.places).sum) ∧
    v.jobs.at t.job = some job.returned := by
  intro v
  have drop : (s.ports.at p).entries.drop older.length = e :: younger := by rw [shows_.window, List.drop_left]
  have take : (s.ports.at p).entries.take older.length = older := by rw [shows_.window, List.take_left]
  have head : (e :: younger).filterMap Entry.job? = t.job :: younger.filterMap Entry.job? :=
    List.filterMap_cons_some (by unfold Entry.job?; rw [shows_.ticket]; rfl)
  obtain ⟨d, hands, queue, reserved, shape⟩ := (s.withdrawClaim (.engine p)).cutWindow_eq p older.length .jam
  have claims : .engine p ∉ d.journal.claims := by
    rw [hands.claims]
    simp [State.withdrawClaim]
  have window : ((s.withdrawClaim (.engine p)).ports.at p).entries.drop older.length = e :: younger := drop
  rw [window] at queue reserved shape
  have vd : v = { d with
      ports := s.ports.put p { s.ports.at p with entries := older }
      jobs := (s.returning p (e :: younger)).jobs
      queues := s.queues.put p (t.job :: (younger.filterMap Entry.job? ++ s.queues.at p)) } := by
    show (s.withdrawClaim (.engine p)).cutWindow p older.length .jam = _
    rw [shape]
    show ({ d with
      ports := s.ports.put p { s.ports.at p with entries := (s.ports.at p).entries.take older.length }
      jobs := (s.returning p (e :: younger)).jobs
      queues := s.queues.put p ((e :: younger).filterMap Entry.job? ++ s.queues.at p) } : State) = _
    rw [take, head, List.cons_append]
  clear_value v
  subst vd
  refine ⟨?_, queue, claims, reserved, ?_⟩
  · dsimp only
    rw [hands.rest]
    rfl
  · show (s.returning p (e :: younger)).jobs.at t.job = _
    rw [State.returning_jobs, if_pos (by rw [head]; exact List.mem_cons_self), shows_.record]
    rfl

/-- What became of the job named by a jam, which stands at the front of its queue: it stays, ends or moves (R16). -/
inductive State.JamSettled (v : State) (p : Printer) (j : JobNumber) (behind : List JobNumber) (x : Job) (w : State) : Prop
  | stays (few : x.retry + 1 ≤ (v.printerEntry p).retryLimit) (jobs : w.jobs = v.jobs.put j (some { x with retry := x.retry + 1 }))
      (queues : w.queues = v.queues) (office : w.office = v.office) (tells : v.Tells (fun _ => 0) w)
  | ends (many : (v.printerEntry p).retryLimit < x.retry + 1) (target : v.moveTarget x = none)
      (jobs : w.jobs = v.jobs.put j none) (queues : w.queues = v.queues.put p behind)
      (office : w.office = (v.answer x.origin .jammed .nothing).office)
      (tells : v.Tells (fun i => if x.session = i then 1 else 0) w)
  | moves (q : Printer) (many : (v.printerEntry p).retryLimit < x.retry + 1) (target : v.moveTarget x = some q)
      (jobs : w.jobs = v.jobs.put j (some { x with printer := q, retry := 0 }))
      (queues : w.queues = (v.queues.put p behind).put q (j :: v.queues.at q)) (office : w.office = v.office)
      (tells : v.Tells (fun _ => 0) w)

theorem State.settleJammed_settled {v : State} {p : Printer} {e : Entry} {j : JobNumber} {x : Job} {behind : List JobNumber}
    (named : e.job? = some j) (record : v.jobs.at j = some x) (at_ : x.printer = p) (queue : v.queues.at p = j :: behind)
    (once : j ∉ behind) : v.JamSettled p j behind x (v.settleJammed p e) := by
  have out : (v.queues.at p).filter (fun i => i != j) = behind := by
    rw [queue, List.filter_cons_of_neg (by simp), List.filter_eq_self.mpr fun i m => by
      simp only [bne_iff_ne, ne_eq]
      rintro rfl
      exact once m]
  rw [State.settleJammed_eq named record]
  by_cases many : (v.printerEntry p).retryLimit < x.retry + 1
  · rw [if_pos many, show v.moveTarget { x with retry := x.retry + 1 } = v.moveTarget x from rfl]
    cases target : v.moveTarget x with
    | none =>
      have told := State.Tells.before (State.Tells.of_same (s := v) (u := v.setJob j (some { x with retry := x.retry + 1 })) rfl
        fun _ h => h) (State.refuseJob_tells _ j { x with retry := x.retry + 1 } .jammed)
      refine .ends many target ?_ ?_ ?_ told
      · refine (State.endJob_jobs _ _ _ _ _).trans ?_
        show (v.jobs.put j _).put j none = _
        rw [Vector.put_put]
      · refine (State.endJob_queues _ _ _ _ _).trans ?_
        rw [← out, ← at_]
        rfl
      · exact (State.endJob_answers _ _ _ _ _).trans (State.answer_congr rfl _ _ _)
    | some q =>
      have away : q ≠ p := at_ ▸ ((v.moveTarget_iff x q).mp target).1
      have moves := State.moveJob_moves (v.setJob j (some { x with retry := x.retry + 1 })) j
        { x with retry := x.retry + 1 } q true
      have journal := moves.journal
      have sessions : ((v.setJob j (some { x with retry := x.retry + 1 })).moveJob j { x with retry := x.retry + 1 } q
          true).sessions = v.sessions := by rw [moves.rest]; rfl
      refine .moves q many target ?_ ?_ moves.office
        (.of_same (s := v) sessions fun n h => journal ▸ h)
      · show (v.jobs.put j _).put j _ = _
        rw [Vector.put_put]
      · show (v.queues.put x.printer ((v.queues.at x.printer).filter fun i => i != j)).put q
          (j :: (v.queues.put x.printer ((v.queues.at x.printer).filter fun i => i != j)).at q) = _
        rw [at_, out, Vector.at_put_other _ _ (Ne.symm away)]
  · rw [if_neg many]
    exact .stays (by omega) rfl rfl rfl (.of_same rfl fun _ h => h)

/-- A jam latched leaves the jobs that are in no queue of the port, and no job ends. -/
theorem State.latchJam_jobs_none (w : State) (p : Printer) (j : JobNumber) :
    (w.latchJam p).jobs.at j = none ↔ w.jobs.at j = none := by
  have same : ((w.latchJam p).jobs.at j).map Job.particulars = (w.jobs.at j).map Job.particulars :=
    State.addHold_particulars (w.updatePort p fun x => { x with jamLatch := true }) p .jam j
  cases h : w.jobs.at j <;> cases h' : (w.latchJam p).jobs.at j <;> rw [h, h'] at same
  · cases same
  · cases same
  · exact ⟨fun h => (nomatch h), fun h => (nomatch h)⟩

end Sys2Proof.Machine

open Sys2Proof Sys2Proof.Machine

/-- Settles O50: the move test is its definition read out; a jam is a window cut, the job named settled, and a hold. -/
theorem jamTaken : Obligations.JamTaken := by
  refine ⟨State.moveTarget_iff, ?_⟩
  intro p body older younger e s names x jammed
  refine ⟨fun roll empty => ?_, ?_⟩
  · refine (names.taken (r := .jammed) ?_).trans ?_
    · unfold ImageReport.allowed
      rw [if_neg roll]
      trivial
    · unfold State.takeImageReport
      rw [if_neg roll]
      dsimp only
      unfold State.takeRollJam
      rw [State.latchJam_of_nil (s := s.updatePort p fun x => { x with entries := x.entries.take older.length })
        empty, State.updatePort_ports, Vector.at_put_same,
        Vector.put_put, Port.latched_attached
          (x := { s.ports.at p with entries := (s.ports.at p).entries.take older.length }) names.takes.2, names.window, List.take_left]
      rfl
  · intro t job named allowed placed
    have shows_ := named.shows
    have taken := names.taken (r := .jammed) (named.function ▸ allowed)
    unfold State.takeImageReport at taken
    rw [if_pos named.function] at taken
    dsimp only at taken
    have loud := State.takeJam_loud (.refl s) p older.length
    have drop : (s.ports.at p).entries.drop older.length = e :: younger := by rw [shows_.window, List.drop_left]
    have number : e.job? = some t.job := by unfold Entry.job?; rw [shows_.ticket]; rfl
    rw [State.takeJam_eq, drop] at taken loud
    dsimp only at taken loud
    obtain ⟨rest, queue, claim, reserved, record⟩ := State.jamCut_effect shows_
    have cutTells : s.Tells (fun _ => 0) ((s.withdrawClaim (.engine p)).cutWindow p older.length .jam) :=
      (s.withdrawClaim_tells fun n (h : Claim.engine p = .session n) => nomatch h).after (State.cutWindow_tells _ p _ _)
    generalize (s.withdrawClaim (.engine p)).cutWindow p older.length .jam = v at *
    have sub : (e :: younger).Sublist (s.ports.at p).entries := by
      rw [shows_.window]
      exact List.sublist_append_right _ _
    obtain ⟨returned, once⟩ := placed.returning_part sub
    have backQueue : (s.returning p (e :: younger)).queues.at p =
        t.job :: (younger.filterMap Entry.job? ++ s.queues.at p) := by
      refine (Vector.at_put_same ..).trans ?_
      rw [List.filterMap_cons_some number, List.cons_append]
    rw [backQueue] at once
    obtain ⟨out, once⟩ := List.nodup_cons.mp once
    obtain ⟨y, record', at_⟩ := placed.1 t.job (Or.inr (List.mem_map.mpr (List.mem_filterMap.mp shows_.mem_window)))
    cases shows_.record.symm.trans record'
    have vjobs : v.jobs = (s.returning p (e :: younger)).jobs := by rw [rest]
    have vqueues : v.queues = s.queues.put p (t.job :: (younger.filterMap Entry.job? ++ s.queues.at p)) := by rw [rest]
    have voffice : v.office = s.office := by rw [rest]
    have vstore : v.store = s.store := by rw [rest]
    have vports : v.ports = s.ports.put p { s.ports.at p with entries := older } := by rw [rest]
    have vstock : v.stock = s.stock := by rw [rest]
    have entry : v.printerEntry p = s.printerEntry p := by
      unfold State.printerEntry
      rw [vstore]
    have target : v.moveTarget job.returned = s.moveTarget job := by
      refine (State.moveTarget_congr (s := s) job.returned (by rw [vstore]) fun q _ => State.sendsType_congr ?_ ?_ _).trans
        rfl
      · rw [vports, Vector.at_put]
        split
        · rename_i same
          subst same
          rfl
        · rfl
      · unfold State.loaded
        rw [vstock]
    have settled := State.settleJammed_settled (v := v) number record at_ (by rw [vqueues, Vector.at_put_same]) out
    have sorts := v.settleJammed_sorts p e
    generalize v.settleJammed p e = w at *
    have wstore : w.store = s.store := sorts.store.trans vstore
    have wports : w.ports = s.ports.put p { s.ports.at p with entries := older } := sorts.ports.trans vports
    have considered : ∀ (jobs : Tab (Option Job) 32) (queues : Tab (List JobNumber) 12),
        State.queuedAt { s with jobs := jobs, queues := queues } p → (queues.at p).Nodup → w.jobs = jobs →
        w.queues = queues →
        State.HoldsQueue { s with jobs := jobs, queues := queues } p (x.state = .active) (w.latchJam p) :=
      fun jobs queues at_ once jobs' queues' => State.latchJam_holdsQueue at_ once jobs' queues' (by rw [wstore])
        (by rw [wports, Vector.at_put_same]) fun q other => ⟨by rw [wports, Vector.at_put_other _ _ (Ne.symm other)], by
          unfold State.loaded
          rw [sorts.stock, vstock]⟩
    have named' : ∀ (queues : Tab (List JobNumber) 12) (y : Option Job),
        (∀ i ∈ queues.at p, i ∈ t.job :: (younger.filterMap Entry.job? ++ s.queues.at p)) →
        (t.job ∈ queues.at p → ∃ z, y = some z ∧ z.printer = p) →
        State.queuedAt { s with jobs := (s.returning p (e :: younger)).jobs.put t.job y, queues := queues } p :=
      fun queues y sub own => State.queuedAt.put returned (by rw [backQueue]; exact sub) s t.job y own
    have none_ := w.latchJam_jobs_none p t.job
    have latched := w.latchJam_rest p
    have ports := w.latchJam_ports p
    have tells : w.Tells (fun _ => 0) (w.latchJam p) := .of_same (by rw [latched]) fun n h => by rw [latched]; exact h
    have office : (w.latchJam p).office = w.office := by rw [latched]
    have journal : (w.latchJam p).journal = w.journal := by rw [latched]
    refine ⟨w.latchJam p, taken, ?_, ?_, ?_, ?_, ?_, ?_, loud.keeps, loud.books, fun held => ?_, ?_⟩
    · rw [ports, wports, Vector.at_put_same, Vector.put_put,
        Port.latched_attached (x := { s.ports.at p with entries := older }) names.takes.2]
    · rw [journal, sorts.queue, queue]
    · rw [journal, sorts.claims (.engine p) fun n h => nomatch h]
      exact claim
    · rw [latched]
      exact sorts.stock.trans vstock
    · rw [latched]
      exact sorts.monitor.trans (by rw [rest])
    · rw [latched]
      exact sorts.sent.trans (by rw [rest])
    · rw [journal, sorts.reserved, reserved held]
    · rw [office]
      generalize w.latchJam p = u at *
      have kept : w.jobs.at t.job ≠ none → v.Tells (fun _ => 0) w →
          (u.jobs.at t.job ≠ none → s.JobsEnded [] u) ∧ (u.jobs.at t.job = none → s.JobsEnded [job] u) := fun here told =>
        ⟨fun _ => State.Tells.jobsEnded (((cutTells.after told).after tells).congr fun _ => rfl), fun no => absurd (none_.mp no) here⟩
      cases settled with
      | stays few jobs queues office' told =>
        have here : w.jobs.at t.job ≠ none := by
          rw [jobs, Vector.at_put_same]
          exact Option.some_ne_none _
        obtain ⟨ended, gone⟩ := kept here told
        refine ⟨ended, gone, fun _ => ⟨office'.trans voffice, ?_⟩, fun many => ?_, fun q many => ?_⟩
        · refine considered _ _ (named' _ _ (fun i m => ?_) fun _ => ⟨_, rfl, at_⟩) ?_ (by rw [jobs, vjobs]; rfl)
            (by rw [queues, vqueues])
          · rwa [Vector.at_put_same] at m
          · rw [Vector.at_put_same]
            exact List.nodup_cons.mpr ⟨out, once⟩
        · rw [entry] at few
          exact absurd few (Nat.not_le.mpr many)
        · rw [entry] at few
          exact absurd few (Nat.not_le.mpr many)
      | ends many no jobs queues office' told =>
        rw [entry] at many
        rw [target] at no
        have here : w.jobs.at t.job = none := by rw [jobs, Vector.at_put_same]
        refine ⟨fun some_ => absurd (none_.mpr here) some_, fun _ => State.Tells.jobsEnded (((cutTells.before told).after tells).congr
          fun i => ?_), fun few => absurd few (Nat.not_le.mpr many), fun _ _ => ⟨?_, ?_⟩, fun q _ yes => ?_⟩
        · by_cases own : job.session = i
          · simp [own, Job.returned]
          · simp [own, Job.returned]
        · exact office'.trans (State.answer_congr voffice _ _ _)
        · refine considered _ _ (named' _ _ (fun i m => ?_) fun m => ?_) ?_ (by rw [jobs, vjobs])
            (by rw [queues, vqueues, Vector.put_put])
          · rw [Vector.at_put_same] at m
            exact List.mem_cons_of_mem _ m
          · rw [Vector.at_put_same] at m
            exact absurd m out
          · rw [Vector.at_put_same]
            exact once
        · rw [no] at yes
          cases yes
      | moves q many yes jobs queues office' told =>
        rw [entry] at many
        rw [target] at yes
        have here : w.jobs.at t.job ≠ none := by
          rw [jobs, Vector.at_put_same]
          exact Option.some_ne_none _
        obtain ⟨ended, gone⟩ := kept here told
        have away : p ≠ q := fun h => ((s.moveTarget_iff job q).mp yes).1 (h.symm.trans at_.symm)
        refine ⟨ended, gone, fun few => absurd few (Nat.not_le.mpr many), fun _ no => ?_, fun q' _ yes' => ?_⟩
        · rw [no] at yes
          cases yes
        · cases yes.symm.trans yes'
          refine ⟨office'.trans voffice, considered _ _ (named' _ _ (fun i m => ?_) fun m => ?_) ?_
            (by rw [jobs, vjobs]) (by rw [queues, vqueues, Vector.put_put, Vector.at_put_other _ _ away])⟩
          · rw [Vector.at_put_other _ _ away.symm, Vector.at_put_same] at m
            exact List.mem_cons_of_mem _ m
          · rw [Vector.at_put_other _ _ away.symm, Vector.at_put_same] at m
            exact absurd m out
          · rw [Vector.at_put_other _ _ away.symm, Vector.at_put_same]
            exact once
end

