-- ==== Sys2Proof/Proofs/TestsAllowed.lean ====
section
/-! SUPPORT. What the tests that follow an event change of ports, jobs and queues at most (`State.Tests`). -/

namespace Sys2Proof.Machine

/-! ### A port through the tests -/

theorem Port.Tested.refl (x : Port) : Port.Tested x x := ⟨fun _ _ => rfl, rfl, fun h _ => h, rfl, List.prefix_refl _, fun _ => rfl⟩

theorem Port.Tested.trans {x y z : Port} (a : Port.Tested x y) (b : Port.Tested y z) : Port.Tested x z where
  holds r h := (b.holds r h).trans (a.holds r h)
  attached := b.attached.trans a.attached
  heldFast h := fun ⟨r, other, on⟩ => b.heldFast (a.heldFast h ⟨r, other, on⟩) ⟨r, other, (a.holds r other).trans on⟩
  rest := b.rest.trans a.rest
  window := a.window.trans b.window
  unattached h := (b.unattached (a.attached.trans h)).trans (a.unattached h)

/-- AUDIT added. -/
theorem Port.Tested.under (x : Port) : Port.Tested x (x.under .audit) where
  holds r h := by rw [Port.under_holds, if_neg (Ne.symm h)]
  attached := by
    unfold Port.under Port.attached
    dsimp only
    split
    · rename_i h
      rw [h]
      rfl
    · rfl
  heldFast h _ := by
    unfold Port.under
    dsimp only
    rw [h]
    rfl
  rest := rfl
  window := List.prefix_refl _
  unattached h := by
    unfold Port.under
    dsimp only
    rw [if_neg]
    intro active
    unfold Port.attached at h
    rw [active] at h
    cases h

theorem Port.relieved_holds (x : Port) (r q : HoldReason) : (x.relieved r).holds q = if r = q then false else x.holds q := by
  have same : (x.relieved r).hold = x.hold.put r.place false := by
    unfold Port.relieved
    dsimp only
  unfold Port.holds
  rw [same, Vector.at_put]
  by_cases h : r = q
  · rw [if_pos h, if_pos (by rw [h])]
  · rw [if_neg h, if_neg fun k => h (HoldReason.place_injective k)]

/-- AUDIT removed. -/
theorem Port.Tested.relieved (x : Port) : Port.Tested x (x.relieved .audit) where
  holds r h := by rw [Port.relieved_holds, if_neg (Ne.symm h)]
  attached := by
    unfold Port.relieved Port.attached
    dsimp only
    split
    · rename_i h
      rw [h.1]
      rfl
    · rfl
  heldFast h := fun ⟨r, other, on⟩ => by
    unfold Port.relieved
    dsimp only
    rw [if_neg]
    · exact h
    · rintro ⟨_, none_⟩
      rw [(x.put_eq_noHolds_iff .audit).mp none_ r other] at on
      cases on
  rest := by
    unfold Port.relieved
    dsimp only
  window := by
    rw [show (x.relieved .audit).entries = x.entries by
      unfold Port.relieved
      dsimp only]
  unattached h := by
    unfold Port.relieved
    dsimp only
    rw [if_neg]
    rintro ⟨held, _⟩
    unfold Port.attached at h
    rw [held] at h
    cases h

/-- An entry sent from an ACTIVE port. -/
theorem Port.Tested.entered {x : Port} (active : x.state = .active) (e : Entry) (n : ImageNumber) :
    Port.Tested x { x with entries := x.entries ++ [e], nextImage := n } where
  holds _ _ := rfl
  attached := rfl
  heldFast h _ := h
  rest := rfl
  window := List.prefix_append _ _
  unattached h := by
    unfold Port.attached at h
    rw [active] at h
    cases h

/-! ### The state through the tests -/

theorem State.Tests.refl (s : State) : s.Tests s :=
  ⟨fun _ => .refl _, fun _ => rfl, fun _ h => ⟨rfl, h⟩, rfl, fun _ => rfl, List.prefix_refl _, List.prefix_refl _⟩

theorem State.Tests.trans {s t u : State} (a : s.Tests t) (b : t.Tests u) : s.Tests u where
  ports p := (a.ports p).trans (b.ports p)
  jobs j := (b.jobs j).trans (a.jobs j)
  unqueued j h := by
    obtain ⟨same, out⟩ := a.unqueued j h
    obtain ⟨same', out'⟩ := b.unqueued j out
    exact ⟨same'.trans same, out'⟩
  store := b.store.trans a.store
  loaded p := (b.loaded p).trans (a.loaded p)
  queue := a.queue.trans b.queue
  sent := a.sent.trans b.sent

/-- A port tested, and queued jobs moved. -/
theorem State.Tests.of_moves {s v u : State} {p : Printer} {x : Port} (port : Port.Tested (s.ports.at p) x)
    (set : v = s.setPort p x) (moves : v.Moves u)
    (jobs : ∀ j, (u.jobs.at j).map Job.particulars = (v.jobs.at j).map Job.particulars)
    (unqueued : ∀ j, (∀ q, j ∉ v.queues.at q) → u.jobs.at j = v.jobs.at j ∧ ∀ q, j ∉ u.queues.at q) : s.Tests u := by
  subst set
  refine ⟨fun q => ?_, jobs, unqueued, by rw [moves.stock]; rfl, fun q => ?_, ?_, ?_⟩
  · rw [moves.ports, State.setPort_ports, Vector.at_put]
    split
    · rename_i same
      subst same
      exact port
    · exact .refl _
  · unfold State.loaded
    rw [moves.stock]
    rfl
  · rw [moves.journal]
    exact List.prefix_refl _
  · rw [moves.sent]
    exact List.prefix_refl _

/-- Jobs in no queue are not considered. -/
theorem State.resolveQueue_unqueued (s : State) (p : Printer) (concerns : Job → Bool) (refusal : Option AnswerCode)
    (j : JobNumber) (out : ∀ q, j ∉ s.queues.at q) : (s.resolveQueue p concerns refusal).jobs.at j = s.jobs.at j ∧
      ∀ q, j ∉ (s.resolveQueue p concerns refusal).queues.at q :=
  ⟨State.resolveQueue_jobs_other s p _ _ j (out p), fun q m =>
    (State.resolveQueue_mem_of s p _ _ j q m).elim (out q) (out p)⟩

theorem State.addHold_tests (s : State) (p : Printer) : s.Tests (s.addHold p .audit) := by
  rw [State.addHold_eq]
  split
  · exact .of_moves (.under _) rfl (State.resolveQueue_moves _ _ _) (State.considerJobs_particulars _ _ _)
      fun j out => State.resolveQueue_unqueued _ _ _ _ j out
  · exact .of_moves (.under _) rfl (.refl _) (fun _ => rfl) fun _ out => ⟨rfl, out⟩

theorem State.removeHold_tests (s : State) (p : Printer) : s.Tests (s.removeHold p .audit) := by
  rw [State.removeHold_rest]
  exact .of_moves (p := p) (.relieved _) rfl (.refl _) (fun _ => rfl) fun _ out => ⟨rfl, out⟩

theorem State.testAudit_tests (s : State) (p : Printer) : s.Tests (s.testAudit p) := by
  have gain : s.Tests (if (s.ports.at p).holds .audit then s else s.addHold p .audit) := by
    split
    · exact .refl s
    · exact s.addHold_tests p
  have lose : s.Tests (if (s.ports.at p).holds .audit then s.removeHold p .audit else s) := by
    split
    · exact s.removeHold_tests p
    · exact .refl s
  unfold State.testAudit
  dsimp only
  split
  · split
    · exact gain
    · split
      · exact gain
      · split
        · exact lose
        · exact .refl s
  · exact lose

theorem State.sendRoll_tests (s : State) (p : Printer) : s.Tests (s.sendRoll p) := by
  unfold State.sendRoll
  dsimp only
  split
  · rename_i opens
    split
    · refine State.Tests.trans (.of_moves (p := p) (.entered opens.1 _ _) rfl (.refl _) (fun _ => rfl)
        fun _ out => ⟨rfl, out⟩) ⟨fun _ => .refl _, fun _ => rfl, fun _ h => ⟨rfl, h⟩, rfl, fun _ => rfl,
          List.prefix_refl _, List.prefix_append _ _⟩
    · exact .refl s
  · exact .refl s

/-- Claims come and go and places are used. -/
theorem State.updateJournal_tests (s : State) (f : Journal → Journal) (queue : (f s.journal).queue = s.journal.queue) :
    s.Tests (s.updateJournal f) :=
  ⟨fun _ => .refl _, fun _ => rfl, fun _ h => ⟨rfl, h⟩, rfl, fun _ => rfl, by
    show s.journal.queue <+: (f s.journal).queue
    rw [queue], List.prefix_refl _⟩

theorem State.addClaim_tests (s : State) (c : Claim) : s.Tests (s.addClaim c) :=
  s.updateJournal_tests _ (by split <;> rfl)

theorem State.withdrawClaim_tests (s : State) (c : Claim) : s.Tests (s.withdrawClaim c) := s.updateJournal_tests _ rfl

theorem State.refreshClaim_tests (s : State) (p : Printer) : s.Tests (s.refreshClaim p) := by
  unfold State.refreshClaim
  split
  · exact s.addClaim_tests _
  · exact s.withdrawClaim_tests _

theorem State.hand_tests (s : State) (r : JRecord) (link : Link) : s.Tests (s.hand r link) := by
  obtain ⟨hands, queue, _⟩ := s.hand_effect r link
  refine ⟨fun p => by rw [hands.ports]; exact .refl _, fun j => by rw [hands.jobs], fun j h => ?_, by rw [hands.stock],
    fun p => ?_, by rw [queue]; exact List.prefix_append _ _, by rw [hands.sent]⟩
  · rw [hands.jobs, hands.queues]
    exact ⟨rfl, h⟩
  · unfold State.loaded
    rw [hands.stock]

/-! ### Grants -/

/-- The gate of an engine that sends its head job (R52). -/
theorem State.gate_iff (s : State) (p : Printer) :
    let x := s.ports.at p
    s.gate p = true ↔ x.state = .active ∧ s.function p = .ticket ∧ x.entries.length < x.window ∧ s.supply = .normal ∧
      ∃ j rest job b, s.queues.at p = j :: rest ∧ s.jobs.at j = some job ∧ s.loaded p = some b ∧
        job.stockType = b.stockType ∧ b.state = .loaded ∧
        1 + x.entries.countP (fun e => e.phase == .sent) ≤ b.last + 1 - b.next := by
  dsimp only
  unfold State.gate Batch.remaining
  dsimp only
  cases queue : s.queues.at p with
  | nil => simp
  | cons j rest =>
    cases record : s.jobs.at j with
    | none => simp [record]
    | some job =>
      cases loaded : s.loaded p with
      | none => simp
      | some b =>
        simp only [List.head?_cons, Option.bind_some, record, Bool.and_eq_true, beq_iff_eq, decide_eq_true_eq]
        constructor
        · rintro ⟨⟨⟨⟨⟨⟨active, ticket⟩, type⟩, room⟩, supply⟩, state⟩, remains⟩
          exact ⟨active, ticket, room, supply, j, rest, job, b, rfl, record, rfl, type, state, by omega⟩
        · rintro ⟨active, ticket, room, supply, j', rest', job', b', queue', record', loaded', type, state, remains⟩
          cases queue'
          cases loaded'
          cases record.symm.trans record'
          exact ⟨⟨⟨⟨⟨⟨active, ticket⟩, type⟩, room⟩, supply⟩, state⟩, by omega⟩

/-- The head job sent (R9, R53). -/
theorem State.sendImage_eq {s : State} {p : Printer} {j : JobNumber} {rest : List JobNumber} {job : Job} {b : Batch}
    (queue : s.queues.at p = j :: rest) (record : s.jobs.at j = some job) (loaded : s.loaded p = some b) :
    let x := s.ports.at p
    s.sendImage p = { s with
      queues := s.queues.put p rest
      jobs := s.jobs.put j (some { job with state := .sent, image := some x.nextImage })
      ports := s.ports.put p { x with
        entries := x.entries ++
          [{ image := x.nextImage, phase := .sent, ticket := some { job := j, doubleFed := false, places := 2 } }]
        nextImage := x.nextImage + 1 }
      sent := s.sent ++ [(p, .image x.nextImage
        (composeImage (s.store.tables.layouts.at job.stockType) job (s.clerkOf job.session) b.id))] } := by
  intro x
  unfold State.sendImage
  rw [queue, loaded]
  dsimp only
  rw [record]
  rfl

theorem State.sendImage_tests {s : State} {p : Printer} (gate : s.gate p = true) : s.Tests (s.sendImage p) := by
  obtain ⟨active, _, _, _, j, rest, job, b, queue, record, loaded, _⟩ := (s.gate_iff p).mp gate
  rw [State.sendImage_eq queue record loaded]
  have apart : ∀ {i}, (∀ q, i ∉ s.queues.at q) → j ≠ i := fun out same => out p (by
    rw [queue, ← same]
    exact List.mem_cons_self)
  refine ⟨fun q => ?_, fun i => ?_, fun i out => ⟨?_, fun q => ?_⟩, rfl, fun _ => rfl, List.prefix_refl _,
    List.prefix_append _ _⟩
  · dsimp only
    rw [Vector.at_put]
    split
    · rename_i same
      subst same
      exact .entered active _ _
    · exact .refl _
  · dsimp only
    rw [Vector.at_put]
    split
    · rename_i same
      subst same
      rw [record]
      rfl
    · rfl
  · dsimp only
    rw [Vector.at_put_other _ _ (apart out)]
  · dsimp only
    rw [Vector.at_put]
    split
    · intro m
      exact out p (by rw [queue]; exact List.mem_cons_of_mem _ m)
    · exact out q

/-- The batch of a claim is loaded where it is found. -/
theorem Stock.loadedIn_loaded {k : Stock} {id : Nat} {p : Printer} {b : Batch} (h : k.loadedIn id = some (p, b)) :
    k.loaded.at p = some b ∧ b.id = id := by
  unfold Stock.loadedIn at h
  have m := List.mem_of_find?_eq_some h
  have named := List.find?_some h
  unfold Stock.loadedBatches at m
  obtain ⟨q, _, pair⟩ := List.mem_filterMap.mp m
  rw [Option.map_eq_some_iff] at pair
  obtain ⟨c, loaded, same⟩ := pair
  cases same
  exact ⟨loaded, by simpa using named⟩

theorem State.grant_tests {s : State} {c : Claim} (gate : ∀ p, c = .engine p → s.gate p = true) : s.Tests (s.grant c) := by
  have withdrawn := s.withdrawClaim_tests c
  unfold State.grant
  dsimp only
  cases c with
  | engine p =>
    have used := (s.withdrawClaim (.engine p)).updateJournal_tests (fun j => { j with reserved := j.reserved + 2 }) rfl
    exact (withdrawn.trans used).trans (State.sendImage_tests (gate p rfl))
  | batch id =>
    generalize s.withdrawClaim (.batch id) = t at *
    dsimp only
    cases found : t.stock.loadedIn id with
    | none => exact withdrawn
    | some pb =>
      obtain ⟨p, b⟩ := pb
      refine (withdrawn.trans ?_).trans (State.hand_tests _ _ _)
      refine ⟨fun _ => .refl _, fun _ => rfl, fun _ h => ⟨rfl, h⟩, rfl, fun q => ?_, List.prefix_refl _,
        List.prefix_refl _⟩
      show ((t.stock.loaded.put p (some { b with closingOwed := false })).at q).map Batch.unmarked = _
      rw [Vector.at_put]
      split
      · rename_i same
        subst same
        rw [show t.loaded p = some b from (Stock.loadedIn_loaded found).1]
        rfl
      · rfl
  | session n =>
    generalize s.withdrawClaim (.session n) = t at *
    dsimp only
    split
    · refine (withdrawn.trans ?_).trans (State.hand_tests _ _ _)
      exact ⟨fun _ => .refl _, fun _ => rfl, fun _ h => ⟨rfl, h⟩, rfl, fun _ => rfl, List.prefix_refl _, List.prefix_refl _⟩
    · exact withdrawn

/-- What the tests after an event do at most. -/
theorem State.settle_tests (s : State) : s.Tests s.settle :=
  State.settle_induct (R := State.Tests) .refl (fun _ _ _ => .trans) State.testAudit_tests State.sendRoll_tests
    State.refreshClaim_tests (fun _ _ _ gate => State.grant_tests gate) s

end Sys2Proof.Machine
end

