-- ==== Sys2Proof/Proofs/TestsSettled.lean ====
section
/-! SUPPORT. How the tests after an event leave AUDIT, the roll queues, the send gate and the claims (R52, R65, R66,
R157). -/

namespace Sys2Proof.Machine

/-! ### The AUDIT test (R66) -/

theorem State.Keeps.tables {s t : State} (h : s.Keeps t) : t.store.tables = s.store.tables := by
  have tables := congrArg TableStore.tables h.store
  exact tables

/-- The lowest-numbered AUDIT port that names a source. -/
theorem State.auditPort_iff (s : State) (p a : Printer) : s.auditPort p = some a ↔
    (s.function a = .audit ∧ (s.printerEntry a).auditSource = p) ∧
      ∀ b < a, ¬ (s.function b = .audit ∧ (s.printerEntry b).auditSource = p) :=
  ⟨fun h => ⟨State.auditPort_some h, fun b lower other => State.auditPort_first h ⟨b, lower, other⟩⟩,
    fun ⟨⟨audit, source⟩, lowest⟩ => State.auditPort_lowest audit source fun ⟨b, lower, other⟩ => lowest b lower other⟩

/-- The port's source is marked "audit required" (R66). -/
def State.audited (s : State) (p : Printer) : Prop := s.function p = .ticket ∧ (s.printerEntry p).auditRequired = true

/-- The audit load asks for the AUDIT hold. -/
def State.gainsAudit (s : State) (p : Printer) : Prop :=
  s.audited p ∧ ∀ a, s.auditPort p = some a → (s.ports.at a).state ≠ .active ∨ 64 ≤ s.auditLoad p a

/-- The audit load releases the AUDIT hold. -/
def State.losesAudit (s : State) (p : Printer) : Prop :=
  ¬ s.audited p ∨ ∃ a, s.auditPort p = some a ∧ (s.ports.at a).state = .active ∧ s.auditLoad p a ≤ 48

/-- The three outcomes of the AUDIT test. -/
theorem State.testAudit_eq (s : State) (p : Printer) :
    (s.gainsAudit p → s.testAudit p = if (s.ports.at p).holds .audit then s else s.addHold p .audit) ∧
    (s.losesAudit p → s.testAudit p = if (s.ports.at p).holds .audit then s.removeHold p .audit else s) ∧
    (¬ s.gainsAudit p → ¬ s.losesAudit p → s.testAudit p = s) := by
  unfold State.testAudit State.gainsAudit State.losesAudit
  dsimp only
  by_cases asked : s.audited p
  · rw [if_pos (show s.function p = .ticket ∧ (s.printerEntry p).auditRequired = true from asked)]
    cases named : s.auditPort p with
    | none =>
      refine ⟨fun _ => rfl, fun h => ?_, fun h => absurd ⟨asked, fun a k => nomatch k⟩ h⟩
      rcases h with h | ⟨a, k, _⟩
      · exact absurd asked h
      · cases k
    | some a =>
      dsimp only
      by_cases gains : (s.ports.at a).state ≠ .active ∨ 64 ≤ s.auditLoad p a
      · rw [if_pos (show (s.ports.at a).state ≠ .active ∨ Config.auditQueueLines ≤ s.auditLoad p a from gains)]
        refine ⟨fun _ => rfl, fun h => ?_, fun h => absurd ⟨asked, fun b k => ?_⟩ h⟩
        · rcases h with h | ⟨b, k, active, low⟩
          · exact absurd asked h
          · cases k
            exact absurd gains fun g => g.elim (fun n => n active) fun n => by omega
        · cases k
          exact gains
      · rw [if_neg (show ¬ ((s.ports.at a).state ≠ .active ∨ Config.auditQueueLines ≤ s.auditLoad p a) from gains)]
        rw [not_or, not_not] at gains
        refine ⟨fun h => ?_, fun h => ?_, fun _ h => ?_⟩
        · exact absurd (h.2 a rfl) fun g => g.elim (fun n => n gains.1) gains.2
        · rcases h with h | ⟨b, k, _, low⟩
          · exact absurd asked h
          · cases k
            exact if_pos low
        · exact if_neg fun low => h (Or.inr ⟨a, rfl, gains.1, low⟩)
  · rw [if_neg (show ¬ (s.function p = .ticket ∧ (s.printerEntry p).auditRequired = true) from asked)]
    exact ⟨fun h => absurd h.1 asked, fun _ => rfl, fun _ h => absurd (Or.inl asked) h⟩

/-- What the test leaves of the hold. -/
theorem State.testAudit_holds (s : State) (p : Printer) :
    (s.gainsAudit p → ((s.testAudit p).ports.at p).holds .audit = true) ∧
    (s.losesAudit p → ((s.testAudit p).ports.at p).holds .audit = false) ∧
    (¬ s.gainsAudit p → ¬ s.losesAudit p → s.testAudit p = s) := by
  obtain ⟨gains, loses, else_⟩ := s.testAudit_eq p
  refine ⟨fun h => ?_, fun h => ?_, else_⟩
  · rw [gains h]
    split
    · assumption
    · rw [State.addHold_ports, Vector.at_put_same]
      exact ((s.ports.at p).under_holds .audit .audit).trans (if_pos rfl)
  · rw [loses h]
    split
    · rw [State.removeHold_rest, Vector.at_put_same]
      exact ((s.ports.at p).relieved_holds .audit .audit).trans (if_pos rfl)
    · rename_i off
      exact Bool.eq_false_iff.mpr off

/-- The test changes its own port alone, and neither its entries nor its lines. -/
theorem State.testAudit_ports (s : State) (p : Printer) :
    ∃ x : Port, (s.testAudit p).ports = s.ports.put p x ∧ x.entries = (s.ports.at p).entries ∧
      x.audit = (s.ports.at p).audit := by
  have stands : ∃ x : Port, s.ports = s.ports.put p x ∧ x.entries = (s.ports.at p).entries ∧
      x.audit = (s.ports.at p).audit := ⟨s.ports.at p, (Vector.put_at _ _).symm, rfl, rfl⟩
  have gain : ∃ x : Port, (s.addHold p .audit).ports = s.ports.put p x ∧ x.entries = (s.ports.at p).entries ∧
      x.audit = (s.ports.at p).audit := ⟨_, State.addHold_ports s p .audit, rfl, rfl⟩
  have lose : ∃ x : Port, (s.removeHold p .audit).ports = s.ports.put p x ∧ x.entries = (s.ports.at p).entries ∧
      x.audit = (s.ports.at p).audit := by
    rw [State.removeHold_rest]
    have tested := Port.Tested.relieved (s.ports.at p)
    refine ⟨(s.ports.at p).relieved .audit, rfl, ?_, ?_⟩
    · unfold Port.relieved
      dsimp only
    · unfold Port.relieved
      dsimp only
  obtain ⟨gains, loses, else_⟩ := s.testAudit_eq p
  by_cases g : s.gainsAudit p
  · rw [gains g]
    split
    · exact stands
    · exact gain
  · by_cases l : s.losesAudit p
    · rw [loses l]
      split
      · exact lose
      · exact stands
    · rw [else_ g l]
      exact stands

/-- No port but a TICKET port is held by AUDIT. -/
def State.auditHoldsTickets (s : State) : Prop := ∀ q : Printer, s.function q ≠ .ticket → (s.ports.at q).holds .audit = false

/-- What the AUDIT test of every port looks at stands. -/
structure State.AuditStands (s t : State) : Prop where
  tables : t.store.tables = s.store.tables
  lines : ∀ q, (t.ports.at q).audit = (s.ports.at q).audit
  entries : ∀ q, s.function q = .ticket → (t.ports.at q).entries = (s.ports.at q).entries
  states : ∀ q, s.function q ≠ .ticket → (t.ports.at q).state = (s.ports.at q).state

theorem State.function_congr {s t : State} (tables : t.store.tables = s.store.tables) (q : Printer) :
    t.function q = s.function q := by
  unfold State.function State.printerEntry
  rw [tables]

theorem State.AuditStands.refl (s : State) : s.AuditStands s := ⟨rfl, fun _ => rfl, fun _ _ => rfl, fun _ _ => rfl⟩

theorem State.AuditStands.trans {s t u : State} (a : s.AuditStands t) (b : t.AuditStands u) : s.AuditStands u where
  tables := b.tables.trans a.tables
  lines q := (b.lines q).trans (a.lines q)
  entries q h := (b.entries q ((State.function_congr a.tables q).trans h)).trans (a.entries q h)
  states q h := (b.states q fun k => h ((State.function_congr a.tables q).symm.trans k)).trans (a.states q h)

theorem State.AuditStands.audited_iff {s t : State} (h : s.AuditStands t) (p : Printer) : t.audited p ↔ s.audited p := by
  unfold State.audited State.function State.printerEntry
  rw [h.tables]

theorem State.AuditStands.auditor {s t : State} (h : s.AuditStands t) {p a : Printer} (asked : s.audited p)
    (named : s.auditPort p = some a) :
    (t.ports.at a).state = (s.ports.at a).state ∧ t.auditLoad p a = s.auditLoad p a := by
  refine ⟨h.states a fun k => ?_, ?_⟩
  · rw [(State.auditPort_some named).1] at k
    cases k
  · unfold State.auditLoad
    rw [h.lines, h.entries p asked.1]

theorem State.AuditStands.auditPort {s t : State} (h : s.AuditStands t) (p : Printer) : t.auditPort p = s.auditPort p :=
  State.auditPort_congr (by rw [h.tables]) p

theorem State.AuditStands.gains_iff {s t : State} (h : s.AuditStands t) (p : Printer) : t.gainsAudit p ↔ s.gainsAudit p := by
  unfold State.gainsAudit
  rw [h.audited_iff, h.auditPort]
  refine and_congr_right fun asked => forall_congr' fun a => imp_congr_right fun named => ?_
  rw [(h.auditor asked named).1, (h.auditor asked named).2]

theorem State.AuditStands.loses_iff {s t : State} (h : s.AuditStands t) (p : Printer) : t.losesAudit p ↔ s.losesAudit p := by
  unfold State.losesAudit
  rw [h.audited_iff, h.auditPort]
  by_cases asked : s.audited p
  · refine or_congr Iff.rfl (exists_congr fun a => and_congr_right fun named => ?_)
    rw [(h.auditor asked named).1, (h.auditor asked named).2]
  · exact iff_of_true (Or.inl asked) (Or.inl asked)

/-- AUDIT holds a port as its rule says. -/
def State.auditSettled (s : State) (p : Printer) : Prop :=
  (s.gainsAudit p → (s.ports.at p).holds .audit = true) ∧ (s.losesAudit p → (s.ports.at p).holds .audit = false)

theorem State.AuditStands.settled {s t : State} (h : s.AuditStands t) {p : Printer} (done : s.auditSettled p)
    (hold : (t.ports.at p).holds .audit = (s.ports.at p).holds .audit) : t.auditSettled p := by
  unfold State.auditSettled
  rw [h.gains_iff, h.loses_iff, hold]
  exact done

/-- The AUDIT test of a port that is no TICKET port, none of which AUDIT holds. -/
theorem State.testAudit_other {s : State} {p : Printer} (h : s.auditHoldsTickets) (other : s.function p ≠ .ticket) :
    s.testAudit p = s := by
  rw [(s.testAudit_eq p).2.1 (Or.inl fun asked => other asked.1), h p other]
  rfl

theorem State.testAudit_stands {s : State} (h : s.auditHoldsTickets) (p : Printer) : s.AuditStands (s.testAudit p) := by
  obtain ⟨x, ports, entries, audit⟩ := s.testAudit_ports p
  refine ⟨(State.testAudit_quiet (.refl s) p).keeps.tables, fun q => ?_, fun q _ => ?_, fun q other => ?_⟩
  · rw [ports, Vector.at_put]
    split
    · rename_i same
      subst same
      exact audit
    · rfl
  · rw [ports, Vector.at_put]
    split
    · rename_i same
      subst same
      exact entries
    · rfl
  · by_cases same : p = q
    · subst same
      rw [State.testAudit_other h other]
    · rw [ports, Vector.at_put_other _ _ same]

theorem State.testAudit_holdsTickets {s : State} (h : s.auditHoldsTickets) (p : Printer) :
    (s.testAudit p).auditHoldsTickets := by
  intro q other
  have other' : s.function q ≠ .ticket := fun k => other ((State.function_congr (State.testAudit_stands h p).tables q).trans k)
  by_cases same : p = q
  · subst same
    rw [State.testAudit_other h other']
    exact h p other'
  · obtain ⟨x, ports, _⟩ := s.testAudit_ports p
    rw [ports, Vector.at_put_other _ _ same]
    exact h q other'

/-- After every port has been tested, AUDIT stands as its rule says. -/
theorem State.testAudits_settled {s : State} (h : s.auditHoldsTickets) :
    (allPrinters.foldl State.testAudit s).auditHoldsTickets ∧
      ∀ p, (allPrinters.foldl State.testAudit s).auditSettled p := by
  have fold : ∀ (l : List Printer) (s : State), s.auditHoldsTickets → (∀ q, q ∉ l → s.auditSettled q) →
      (l.foldl State.testAudit s).auditHoldsTickets ∧ ∀ q, (l.foldl State.testAudit s).auditSettled q := by
    intro l
    induction l with
    | nil => exact fun s h done => ⟨h, fun q => done q List.not_mem_nil⟩
    | cons p l ih =>
      refine fun s h done => ih _ (State.testAudit_holdsTickets h p) fun q out => ?_
      have stands := State.testAudit_stands h p
      by_cases same : p = q
      · subst same
        obtain ⟨gains, loses, _⟩ := s.testAudit_holds p
        exact ⟨fun g => gains ((stands.gains_iff p).mp g), fun l => loses ((stands.loses_iff p).mp l)⟩
      · refine stands.settled (done q fun m => (List.mem_cons.mp m).elim (Ne.symm same) out) ?_
        obtain ⟨x, ports, _⟩ := s.testAudit_ports p
        rw [ports, Vector.at_put_other _ _ same]
  exact fold _ s h fun q out => absurd (mem_allPrinters q) out

/-! ### Lines and slips (R65) -/

/-- A roll port can send (R65). -/
def State.rollOpens (s : State) (p : Printer) : Prop :=
  (s.ports.at p).state = .active ∧ (s.ports.at p).entries.length < (s.ports.at p).window ∧ s.supply = .normal

/-- A roll port after it has sent an item. -/
def State.rolled (s : State) (p : Printer) (m : Message) : State := { s with
  ports := s.ports.put p { s.ports.at p with
    entries := (s.ports.at p).entries ++ [{ image := (s.ports.at p).nextImage, phase := .sent, ticket := none }]
    nextImage := (s.ports.at p).nextImage + 1 }
  sent := s.sent ++ [(p, m)] }

theorem State.sendRoll_eq (s : State) (p : Printer) :
    (∀ m, s.rollOpens p → s.rollMessage p (s.ports.at p).nextImage = some m → s.sendRoll p = s.rolled p m) ∧
    (¬ s.rollOpens p → s.sendRoll p = s) ∧
    (s.rollMessage p (s.ports.at p).nextImage = none → s.sendRoll p = s) := by
  unfold State.sendRoll
  dsimp only
  refine ⟨fun m opens sends => ?_, fun shut => if_neg shut, fun none_ => ?_⟩
  · rw [if_pos (show (s.ports.at p).state = .active ∧ (s.ports.at p).entries.length < (s.ports.at p).window ∧
      s.supply = .normal from opens), sends]
    rfl
  · rw [none_]
    split <;> rfl

/-- A roll port has nothing left that it can send. -/
def State.rollDone (s : State) (p : Printer) : Prop :=
  s.rollOpens p → s.rollMessage p (s.ports.at p).nextImage = none

theorem State.rollMessage_other (s : State) (p : Printer) {q : Printer} (x : Port) (other : p ≠ q) (m : List (Printer × Message))
    (n : ImageNumber) : State.rollMessage { s with ports := s.ports.put p x, sent := m } q n = s.rollMessage q n := by
  unfold State.rollMessage
  dsimp only
  rw [Vector.at_put_other _ _ other]
  rfl

theorem State.sendRoll_done_other {s : State} {p q : Printer} (other : p ≠ q) (done : s.rollDone q) :
    (s.sendRoll p).rollDone q := by
  obtain ⟨sends, shut, none_⟩ := s.sendRoll_eq p
  by_cases opens : s.rollOpens p
  · cases message : s.rollMessage p (s.ports.at p).nextImage with
    | none => rw [none_ message]; exact done
    | some m =>
      rw [sends m opens message]
      have port : (s.rolled p m).ports.at q = s.ports.at q := Vector.at_put_other _ _ other
      unfold State.rollDone State.rollOpens at *
      rw [port]
      unfold State.rolled
      rw [State.rollMessage_other s p _ other]
      exact done
  · rw [shut opens]
    exact done

/-- A roll port that still has something to send after a sending has sent. -/
theorem State.sendRoll_grows {s : State} {p : Printer} (more : ¬ (s.sendRoll p).rollDone p) :
    ¬ s.rollDone p ∧ ((s.sendRoll p).ports.at p).entries.length = (s.ports.at p).entries.length + 1 ∧
      ((s.sendRoll p).ports.at p).window = (s.ports.at p).window := by
  obtain ⟨sends, shut, none_⟩ := s.sendRoll_eq p
  by_cases opens : s.rollOpens p
  · cases message : s.rollMessage p (s.ports.at p).nextImage with
    | none =>
      rw [none_ message] at more
      exact absurd (fun _ => message) more
    | some m =>
      refine ⟨fun done => ?_, ?_, ?_⟩
      · rw [done opens] at message
        cases message
      · rw [sends m opens message]
        unfold State.rolled
        dsimp only
        rw [Vector.at_put_same, List.length_append]
        rfl
      · rw [sends m opens message]
        unfold State.rolled
        dsimp only
        rw [Vector.at_put_same]
  · rw [shut opens] at more
    exact absurd (fun yes => absurd yes opens) more

/-- Four sendings leave nothing that a window of 4 entries can take. -/
theorem State.sendRolls_done (s : State) (p : Printer) : ((s.sendRolls p).ports.at p).window ≤ 4 →
    (s.sendRolls p).rollDone p := by
  intro window
  by_contra more
  have room : ((s.sendRolls p).ports.at p).entries.length < ((s.sendRolls p).ports.at p).window := by
    unfold State.rollDone at more
    rw [Classical.not_imp] at more
    exact more.1.2.1
  unfold State.sendRolls at *
  obtain ⟨more3, grows4, _⟩ := State.sendRoll_grows more
  obtain ⟨more2, grows3, _⟩ := State.sendRoll_grows more3
  obtain ⟨more1, grows2, _⟩ := State.sendRoll_grows more2
  obtain ⟨_, grows1, _⟩ := State.sendRoll_grows more1
  omega

theorem State.sendRolls_tests (s : State) (p : Printer) : s.Tests (s.sendRolls p) := by
  unfold State.sendRolls
  exact (((s.sendRoll_tests p).trans (State.sendRoll_tests _ p)).trans (State.sendRoll_tests _ p)).trans
    (State.sendRoll_tests _ p)

theorem Port.Tested.window_eq {x y : Port} (h : Port.Tested x y) : y.window = x.window :=
  (congrArg Port.window h.rest : _)

theorem State.sendRolls_window (s : State) (p q : Printer) : ((s.sendRolls p).ports.at q).window = (s.ports.at q).window :=
  ((s.sendRolls_tests p).ports q).window_eq

theorem State.sendRolls_done_other {s : State} {p q : Printer} (other : p ≠ q) (done : s.rollDone q) :
    (s.sendRolls p).rollDone q := by
  unfold State.sendRolls
  exact State.sendRoll_done_other other (State.sendRoll_done_other other (State.sendRoll_done_other other
    (State.sendRoll_done_other other done)))

/-- After every roll port has sent, each has nothing left that it can send. -/
theorem State.sendAllRolls_done (s : State) (p : Printer)
    (window : ((allPrinters.foldl State.sendRolls s).ports.at p).window ≤ 4) :
    (allPrinters.foldl State.sendRolls s).rollDone p := by
  have fold : ∀ (l : List Printer) (s : State), (p ∉ l → (s.ports.at p).window ≤ 4 → s.rollDone p) →
      ((l.foldl State.sendRolls s).ports.at p).window ≤ 4 → (l.foldl State.sendRolls s).rollDone p := by
    intro l
    induction l with
    | nil => exact fun s done => done List.not_mem_nil
    | cons q l ih =>
      intro s done
      rw [List.foldl_cons]
      refine ih (s.sendRolls q) fun out window => ?_
      by_cases same : q = p
      · subst same
        exact s.sendRolls_done q window
      · rw [State.sendRolls_window] at window
        have first := done (fun m => (List.mem_cons.mp m).elim (Ne.symm same) out) window
        exact State.sendRolls_done_other same first
  exact fold allPrinters s (fun out => absurd (mem_allPrinters p) out) window

/-- Sendings leave what AUDIT looks at. -/
theorem State.sendRoll_stands (s : State) (p : Printer) : s.AuditStands (s.sendRoll p) ∧
    ∀ q, ((s.sendRoll p).ports.at q).hold = (s.ports.at q).hold := by
  obtain ⟨sends, shut, none_⟩ := s.sendRoll_eq p
  have same : s.AuditStands s ∧ ∀ q, (s.ports.at q).hold = (s.ports.at q).hold := ⟨.refl s, fun _ => rfl⟩
  by_cases opens : s.rollOpens p
  · cases message : s.rollMessage p (s.ports.at p).nextImage with
    | none => rw [none_ message]; exact same
    | some m =>
      have roll : s.function p ≠ .ticket := fun ticket => by
        unfold State.rollMessage at message
        rw [ticket] at message
        cases message
      rw [sends m opens message]
      have at_ : ∀ q, (s.rolled p m).ports.at q = if p = q then _ else s.ports.at q := fun q => Vector.at_put ..
      refine ⟨⟨rfl, fun q => ?_, fun q ticket => ?_, fun q _ => ?_⟩, fun q => ?_⟩
      · rw [at_]
        split
        · rename_i same
          subst same
          rfl
        · rfl
      · rw [at_, if_neg fun same : p = q => roll (same ▸ ticket)]
      · rw [at_]
        split
        · rename_i same
          subst same
          rfl
        · rfl
      · rw [at_]
        split
        · rename_i same
          subst same
          rfl
        · rfl
  · rw [shut opens]
    exact same

end Sys2Proof.Machine
end

