-- ==== Sys2Proof/Proofs/ClaimsServed.lean ====
section
/-! SUPPORT. The tests end with every port tested; claims are served until the oldest does not fit; and what a grant does
(R53, R65, R66, R83, R108, R157). -/

namespace Sys2Proof.Machine

/-! ### The three rounds of tests -/

theorem State.Tests.fold {f : State → Printer → State} (each : ∀ (s : State) p, s.Tests (f s p)) (l : List Printer) (s : State) :
    s.Tests (l.foldl f s) := by
  induction l generalizing s with
  | nil => exact .refl s
  | cons p l ih => exact (each s p).trans (ih _)

theorem State.testEngines_tests (s : State) : s.Tests s.testEngines := by
  unfold State.testEngines
  exact ((State.Tests.fold State.testAudit_tests _ s).trans (State.Tests.fold State.sendRolls_tests _ _)).trans
    (State.Tests.fold State.refreshClaim_tests _ _)

theorem State.sendRolls_stands (s : State) (p : Printer) : s.AuditStands (s.sendRolls p) ∧
    ∀ q, ((s.sendRolls p).ports.at q).hold = (s.ports.at q).hold := by
  have twice : ∀ {s t u : State}, (s.AuditStands t ∧ ∀ q, (t.ports.at q).hold = (s.ports.at q).hold) →
      (t.AuditStands u ∧ ∀ q, (u.ports.at q).hold = (t.ports.at q).hold) →
      s.AuditStands u ∧ ∀ q, (u.ports.at q).hold = (s.ports.at q).hold :=
    fun a b => ⟨a.1.trans b.1, fun q => (b.2 q).trans (a.2 q)⟩
  unfold State.sendRolls
  exact twice (twice (twice (s.sendRoll_stands p) (State.sendRoll_stands _ p)) (State.sendRoll_stands _ p))
    (State.sendRoll_stands _ p)

theorem State.sendAllRolls_stands (l : List Printer) (s : State) : s.AuditStands (l.foldl State.sendRolls s) ∧
    ∀ q, ((l.foldl State.sendRolls s).ports.at q).hold = (s.ports.at q).hold := by
  induction l generalizing s with
  | nil => exact ⟨State.AuditStands.refl s, fun _ => rfl⟩
  | cons p l ih =>
    obtain ⟨first, hold⟩ := s.sendRolls_stands p
    obtain ⟨rest, hold'⟩ := ih (s.sendRolls p)
    rw [List.foldl_cons]
    generalize s.sendRolls p = t at *
    exact ⟨first.trans rest, fun q => (hold' q).trans (hold q)⟩

/-- A refresh changes the claims alone. -/
theorem State.refreshClaim_rest (s : State) (p : Printer) :
    s.refreshClaim p = { s with journal := { s.journal with claims := (s.refreshClaim p).journal.claims } } := by
  unfold State.refreshClaim State.addClaim State.withdrawClaim State.updateJournal
  split
  · dsimp only
    split <;> rfl
  · rfl

theorem State.refreshClaims_rest (l : List Printer) (s : State) : l.foldl State.refreshClaim s =
    { s with journal := { s.journal with claims := (l.foldl State.refreshClaim s).journal.claims } } := by
  induction l generalizing s with
  | nil => rfl
  | cons p l ih =>
    rw [List.foldl_cons, ih]
    rw [s.refreshClaim_rest p]

/-- The engines tested: AUDIT stands as its rule says, and no roll port has anything left that it can send. -/
theorem State.testEngines_settled (s : State) :
    (s.auditHoldsTickets → s.testEngines.auditHoldsTickets ∧ ∀ p, s.testEngines.auditSettled p) ∧
      ∀ p, (s.testEngines.ports.at p).window ≤ 4 → s.testEngines.rollDone p := by
  have audits := fun h : s.auditHoldsTickets => State.testAudits_settled h
  unfold State.testEngines
  dsimp only
  generalize allPrinters.foldl State.testAudit s = a at *
  have rolls := State.sendAllRolls_done a
  obtain ⟨stands, hold⟩ := State.sendAllRolls_stands allPrinters a
  generalize allPrinters.foldl State.sendRolls a = r at *
  have rest := State.refreshClaims_rest allPrinters r
  generalize allPrinters.foldl State.refreshClaim r = t at *
  have ports : t.ports = r.ports := by rw [rest]
  have tables : t.store.tables = r.store.tables := by rw [rest]
  refine ⟨fun h => ?_, fun p window => ?_⟩
  · obtain ⟨holds, settled⟩ := audits h
    have same : ∀ q, (t.ports.at q).holds .audit = (a.ports.at q).holds .audit := fun q => by
      unfold Port.holds
      rw [ports, hold q]
    have stands' : a.AuditStands t := stands.trans ⟨tables, fun q => by rw [ports], fun q _ => by rw [ports], fun q _ => by
      rw [ports]⟩
    refine ⟨fun q other => ?_, fun p => stands'.settled (settled p) (same p)⟩
    rw [same]
    exact holds q fun k => other ((State.function_congr stands'.tables q).trans k)
  · rw [ports] at window
    have done := rolls p window
    rw [rest]
    exact done

/-- An engine has a claim exactly when its gate holds (R157). -/
theorem State.testEngines_claims_iff (s : State) (p : Printer) :
    .engine p ∈ s.testEngines.journal.claims ↔ s.testEngines.gate p = true := by
  have fold : ∀ (l : List Printer) (s : State), (p ∉ l → (.engine p ∈ s.journal.claims ↔ s.gate p = true)) →
      (.engine p ∈ (l.foldl State.refreshClaim s).journal.claims ↔ (l.foldl State.refreshClaim s).gate p = true) := by
    intro l
    induction l with
    | nil => exact fun s h => h List.not_mem_nil
    | cons q l ih =>
      intro s h
      rw [List.foldl_cons]
      refine ih (s.refreshClaim q) fun out => ?_
      rw [State.refreshClaim_gate, State.refreshClaim_mem]
      by_cases same : q = p
      · rw [if_pos same]
      · rw [if_neg same]
        exact h fun m => (List.mem_cons.mp m).elim (Ne.symm same) out
  unfold State.testEngines
  dsimp only
  generalize allPrinters.foldl State.sendRolls (allPrinters.foldl State.testAudit s) = r
  exact fold allPrinters r fun out => absurd (mem_allPrinters p) out

/-! ### The last round -/

/-- Serving ends with a round of tests. -/
theorem State.serve_last {R : State → State → Prop} (refl : ∀ s, R s s) (trans : ∀ s t u, R s t → R t u → R s u)
    (tests : ∀ s : State, R s s.testEngines)
    (grant : ∀ (s : State) c, s.testEngines.journal.grantable = some c → R s.testEngines (s.testEngines.grant c)) (n : Nat) (s : State) :
    ∃ u : State, R s u ∧ State.serve n s = u.testEngines := by
  induction n generalizing s with
  | zero => exact ⟨s, refl s, rfl⟩
  | succ n ih =>
    rw [State.serve_succ]
    unfold State.grantOldest
    cases fits : s.testEngines.journal.grantable with
    | none => exact ⟨s, refl s, rfl⟩
    | some c =>
      obtain ⟨u, h, same⟩ := ih (s.testEngines.grant c)
      exact ⟨u, trans _ _ _ (trans _ _ _ (tests s) (grant s c fits)) h, same⟩

/-- A grant leaves the ports' hold reasons and the tables. -/
theorem State.grant_holds (s : State) (c : Claim) : (∀ q, ((s.grant c).ports.at q).hold = (s.ports.at q).hold) ∧
    (s.grant c).store.tables = s.store.tables := by
  refine ⟨?_, (State.grant_quiet (.refl s) c).keeps.tables⟩
  unfold State.grant
  dsimp only
  cases c with
  | engine p =>
    intro q
    dsimp only
    unfold State.sendImage
    dsimp only
    split
    · split
      · show ((s.ports.put p _).at q).hold = _
        rw [Vector.at_put]
        split
        · rename_i same
          subst same
          rfl
        · rfl
      · rfl
    · rfl
  | batch id =>
    intro q
    dsimp only
    split
    · rw [(State.hand_effect _ _ _).1.ports]
      rfl
    · rfl
  | session n =>
    intro q
    dsimp only
    split
    · rw [(State.hand_effect _ _ _).1.ports]
      rfl
    · rfl

theorem State.settle_last (s : State) : ∃ u : State, s.settle = u.testEngines ∧ (s.auditHoldsTickets → u.auditHoldsTickets) := by
  obtain ⟨u, h, same⟩ := State.serve_last (R := fun s u => s.auditHoldsTickets → u.auditHoldsTickets) (fun _ => id)
    (fun _ _ _ a b => b ∘ a) (fun s h => ((State.testEngines_settled s).1 h).1) (fun s c _ h q other => by
      obtain ⟨hold, tables⟩ := s.testEngines.grant_holds c
      unfold Port.holds
      rw [hold q]
      exact h q fun k => other ((State.function_congr tables q).trans k)) Config.journalPlaces s
  exact ⟨u, same, h⟩

/-! ### Claims served (R157) -/

/-- A claim fits the free room. -/
def Journal.takesClaim (j : Journal) (c : Claim) : Prop := j.writer ≠ .stopped ∧ c.places ≤ j.freeRoom

theorem Journal.stopped_iff (j : Journal) : j.stopped = true ↔ j.writer = .stopped := by
  unfold Journal.stopped
  simp

theorem Journal.grantable_cons {j : Journal} {c : Claim} {rest : List Claim} (claims : j.claims = c :: rest) :
    (j.takesClaim c → j.grantable = some c) ∧ (¬ j.takesClaim c → j.grantable = none) := by
  unfold Journal.grantable Journal.takesClaim
  rw [claims]
  dsimp only
  refine ⟨fun h => if_pos ?_, fun h => if_neg fun k => h ?_⟩
  · have := mt j.stopped_iff.mp h.1
    simp [this, h.2]
  · simp only [Bool.and_eq_true, Bool.not_eq_true', decide_eq_true_eq] at k
    obtain ⟨running, room⟩ := k
    exact ⟨fun stop => Bool.eq_false_iff.mp running (j.stopped_iff.mpr stop), room⟩

theorem State.serve_grants {s : State} {c : Claim} {rest : List Claim} (n : Nat)
    (claims : s.testEngines.journal.claims = c :: rest) (fits : s.testEngines.journal.takesClaim c) :
    State.serve (n + 1) s = State.serve n (s.testEngines.grant c) := by
  rw [State.serve_succ]
  unfold State.grantOldest
  rw [(Journal.grantable_cons claims).1 fits]

theorem State.serve_ends {s : State} (n : Nat)
    (stuck : ∀ c rest, s.testEngines.journal.claims = c :: rest → ¬ s.testEngines.journal.takesClaim c) :
    State.serve (n + 1) s = s.testEngines := by
  rw [State.serve_succ]
  unfold State.grantOldest
  cases claims : s.testEngines.journal.claims with
  | nil =>
    unfold Journal.grantable
    rw [claims]
  | cons c rest => rw [(Journal.grantable_cons claims).2 (stuck c rest claims)]

/-- The free room and the claims of batches and sessions through tests that grant nothing. -/
structure State.RoomStands (s t : State) : Prop where
  queue : t.journal.queue = s.journal.queue
  reserved : t.journal.reserved = s.journal.reserved
  claims : ∀ c ∈ t.journal.claims, (∀ p, c ≠ .engine p) → c ∈ s.journal.claims

theorem State.RoomStands.refl (s : State) : s.RoomStands s := ⟨rfl, rfl, fun _ m _ => m⟩

theorem State.RoomStands.trans {s t u : State} (a : s.RoomStands t) (b : t.RoomStands u) : s.RoomStands u :=
  ⟨b.queue.trans a.queue, b.reserved.trans a.reserved, fun c m other => a.claims c (b.claims c m other) other⟩

theorem State.RoomStands.of_journal {s t : State} (journal : t.journal = s.journal) : s.RoomStands t :=
  ⟨by rw [journal], by rw [journal], fun c m _ => journal ▸ m⟩

theorem State.RoomStands.fold {f : State → Printer → State} (each : ∀ (s : State) p, s.RoomStands (f s p)) (l : List Printer)
    (s : State) : s.RoomStands (l.foldl f s) := by
  induction l generalizing s with
  | nil => exact .refl s
  | cons p l ih => exact (each s p).trans (ih _)

theorem State.testAudit_journal (s : State) (p : Printer) : (s.testAudit p).journal = s.journal := by
  have add : (s.addHold p .audit).journal = s.journal := by rw [State.addHold_rest]
  have remove : (s.removeHold p .audit).journal = s.journal := by rw [State.removeHold_rest]
  obtain ⟨gains, loses, else_⟩ := s.testAudit_eq p
  by_cases g : s.gainsAudit p
  · rw [gains g]
    split
    · rfl
    · exact add
  · by_cases l : s.losesAudit p
    · rw [loses l]
      split
      · exact remove
      · rfl
    · rw [else_ g l]

theorem State.sendRoll_journal (s : State) (p : Printer) : (s.sendRoll p).journal = s.journal := by
  obtain ⟨sends, shut, none_⟩ := s.sendRoll_eq p
  by_cases opens : s.rollOpens p
  · cases message : s.rollMessage p (s.ports.at p).nextImage with
    | none => rw [none_ message]
    | some m =>
      rw [sends m opens message]
      rfl
  · rw [shut opens]

theorem State.sendRolls_journal (s : State) (p : Printer) : (s.sendRolls p).journal = s.journal := by
  unfold State.sendRolls
  rw [State.sendRoll_journal, State.sendRoll_journal, State.sendRoll_journal, State.sendRoll_journal]

theorem State.refreshClaim_room (s : State) (p : Printer) : s.RoomStands (s.refreshClaim p) := by
  refine ⟨by rw [State.refreshClaim_rest], by rw [State.refreshClaim_rest], fun c m other => ?_⟩
  unfold State.refreshClaim at m
  split at m
  · exact ((State.addClaim_mem s (.engine p) c).mp m).resolve_right (other p)
  · exact ((State.withdrawClaim_mem s (.engine p) c).mp m).1

theorem State.testEngines_room (s : State) : s.RoomStands s.testEngines := by
  unfold State.testEngines
  exact ((State.RoomStands.fold (fun s p => .of_journal (s.testAudit_journal p)) _ s).trans
    (State.RoomStands.fold (fun s p => .of_journal (s.sendRolls_journal p)) _ _)).trans
    (State.RoomStands.fold State.refreshClaim_room _ _)

end Sys2Proof.Machine
end

