-- ==== Sys2Proof/Proofs/TestsEnded.lean ====
section
/-! SUPPORT. The grants one by one, and the obligation about the tests that follow an event. -/

namespace Sys2Proof.Machine

/-! ### A record handed for no session -/

/-- An IDLE writer takes what has been queued (R151). -/
def State.handQueued (t : State) : State := if t.journal.writer = .idle then t.startNext else t

/-- A record that counts for no session changes the journal alone (R151, R154). -/
theorem State.hand_takes {s : State} {r : JRecord} (none_ : r.pendingFor = none) (link : Link) :
    s.journal.Takes { record := r, link } (s.hand r link).journal ∧
      ({ s.hand r link with journal := s.journal } : State) = s := by
  have shape : s.hand r link = State.handQueued { s with
      journal := { s.journal with queue := s.journal.queue ++ [{ record := r, link }] } } := by
    unfold State.hand
    rw [none_]
    rfl
  rw [shape]
  unfold State.handQueued
  split
  · rename_i idle
    unfold State.startNext State.beginCheckpoint State.updateJournal
    dsimp only at idle ⊢
    by_cases due : (s.journal.checkpointDue && s.supply == .normal) = true
    · rw [if_pos due]
      rw [Bool.and_eq_true] at due
      exact ⟨⟨rfl, fun busy => absurd idle busy, fun _ no => (Bool.eq_false_iff.mp no due.1).elim, rfl⟩, rfl⟩
    · rw [if_neg due]
      refine ⟨⟨rfl, fun busy => absurd idle busy, fun _ no => ⟨?_, no⟩, rfl⟩, rfl⟩
      simp
  · rename_i busy
    exact ⟨⟨rfl, fun _ => ⟨rfl, rfl⟩, fun yes => absurd yes busy, rfl⟩, rfl⟩

/-! ### Grants (R157) -/

/-- The journal once a claim is granted. -/
def Journal.without (j : Journal) (c : Claim) : Journal := { j with claims := j.claims.filter fun x => x != c }

theorem State.withdrawClaim_eq (s : State) (c : Claim) : s.withdrawClaim c = { s with journal := s.journal.without c } := rfl

/-- An engine's claim granted (R53). -/
theorem State.grant_engine {s : State} {p : Printer} {j : JobNumber} {rest : List JobNumber} {job : Job} {b : Batch}
    (queue : s.queues.at p = j :: rest) (record : s.jobs.at j = some job) (loaded : s.loaded p = some b) :
    let x := s.ports.at p
    s.grant (.engine p) = { s with
      journal := { s.journal.without (.engine p) with reserved := s.journal.reserved + 2 }
      queues := s.queues.put p rest
      jobs := s.jobs.put j (some { job with state := .sent, image := some x.nextImage })
      ports := s.ports.put p { x with
        entries := x.entries ++
          [{ image := x.nextImage, phase := .sent, ticket := some { job := j, doubleFed := false, places := 2 } }]
        nextImage := x.nextImage + 1 }
      sent := s.sent ++ [(p, .image x.nextImage
        (composeImage (s.store.tables.layouts.at job.stockType) job (s.clerkOf job.session) b.id))] } :=
  State.sendImage_eq (s := { s with journal := { s.journal.without (.engine p) with reserved := s.journal.reserved + 2 } })
    queue record loaded

/-- The batch that a claim names, where it is loaded at one printer alone. -/
theorem Stock.loadedIn_of {k : Stock} {p : Printer} {b : Batch} (loaded : k.loaded.at p = some b)
    (single : ∀ q c, k.loaded.at q = some c → c.id = b.id → q = p) : k.loadedIn b.id = some (p, b) := by
  have m : (p, b) ∈ k.loadedBatches := List.mem_filterMap.mpr ⟨p, mem_allPrinters p, by rw [loaded]; rfl⟩
  cases found : k.loadedIn b.id with
  | none =>
    have := List.find?_eq_none.mp found _ m
    simp at this
  | some qc =>
    obtain ⟨q, c⟩ := qc
    obtain ⟨at_, id⟩ := Stock.loadedIn_loaded found
    have same := single q c at_ id
    subst same
    cases at_.symm.trans loaded
    rfl

/-- A batch's claim granted (R83). -/
theorem State.grant_batch {s : State} {p : Printer} {b : Batch} (found : s.stock.loadedIn b.id = some (p, b)) :
    let u := s.grant (.batch b.id)
    u.stock = { s.stock with loaded := s.stock.loaded.put p (some { b with closingOwed := false }) } ∧
    (s.journal.without (.batch b.id)).Takes { record := .batchEnd b.id p, link := .nothing } u.journal ∧
    ({ u with stock := s.stock, journal := s.journal } : State) = s := by
  intro u
  have shape : u = State.hand { s with
      stock := { s.stock with loaded := s.stock.loaded.put p (some { b with closingOwed := false }) }
      journal := s.journal.without (.batch b.id) } (.batchEnd b.id p) .nothing := by
    show s.grant (.batch b.id) = _
    unfold State.grant
    rw [State.withdrawClaim_eq]
    dsimp only
    rw [found]
    rfl
  clear_value u
  obtain ⟨takes_, rest⟩ := State.hand_takes (s := { s with
    stock := { s.stock with loaded := s.stock.loaded.put p (some { b with closingOwed := false }) }
    journal := s.journal.without (.batch b.id) }) (r := .batchEnd b.id p) rfl .nothing
  rw [← shape] at takes_ rest
  refine ⟨congrArg State.stock rest, takes_, ?_⟩
  have same := congrArg (fun v : State => ({ v with stock := s.stock, journal := s.journal } : State)) rest
  exact same

/-- A session's claim granted (R108). -/
theorem State.grant_session {s : State} {n : Nat} {x : Session} {i : Fin 24}
    (found : (s.sessions.find fun y => y.number == n) = some i) (record : s.sessions.table.at i = some x) :
    let u := s.grant (.session n)
    u.sessions = { s.sessions with table := s.sessions.table.put i (some { x with signOffOwed := false, signOff := none }) } ∧
    (s.journal.without (.session n)).Takes
      { record := x.signOffRecord, link := (x.signOff.map fun r => Link.request r .done (.session n)).getD .nothing }
      u.journal ∧
    ({ u with sessions := s.sessions, journal := s.journal } : State) = s := by
  intro u
  have get : s.session n = some x := by
    unfold State.session SessionUnit.get
    rw [found]
    exact record
  have link : (match x.signOff with | some r => Link.request r .done (.session n) | none => .nothing) =
      (x.signOff.map fun r => Link.request r .done (.session n)).getD .nothing := by
    cases x.signOff <;> rfl
  have shape : u = State.hand { s with
      sessions := { s.sessions with table := s.sessions.table.put i (some { x with signOffOwed := false, signOff := none }) }
      journal := s.journal.without (.session n) } x.signOffRecord
        ((x.signOff.map fun r => Link.request r .done (.session n)).getD .nothing) := by
    show s.grant (.session n) = _
    unfold State.grant
    rw [State.withdrawClaim_eq]
    dsimp only
    rw [show State.session { s with journal := s.journal.without (.session n) } n = some x from get]
    dsimp only
    unfold State.modifySession SessionUnit.modify
    dsimp only
    rw [found, ← link]
    dsimp only
    rw [record]
    rfl
  clear_value u
  obtain ⟨takes_, rest⟩ := State.hand_takes (s := { s with
    sessions := { s.sessions with table := s.sessions.table.put i (some { x with signOffOwed := false, signOff := none }) }
    journal := s.journal.without (.session n) }) (r := x.signOffRecord) rfl
      ((x.signOff.map fun r => Link.request r .done (.session n)).getD .nothing)
  rw [← shape] at takes_ rest
  refine ⟨congrArg State.sessions rest, takes_, ?_⟩
  have same := congrArg (fun v : State => ({ v with sessions := s.sessions, journal := s.journal } : State)) rest
  exact same

/-! ### Served until the oldest claim does not fit -/

/-- Every claim on the list of a batch or a session names one that there is. -/
structure State.ClaimsNamed (s : State) : Prop where
  batches : ∀ id : Nat, .batch id ∈ s.journal.claims → ∃ p b, s.loaded p = some b ∧ b.id = id
  sessions : ∀ n : Nat, .session n ∈ s.journal.claims → s.session n ≠ none

theorem State.ClaimsNamed.of_tests {s t : State} (h : s.ClaimsNamed) (tests : s.Tests t) (books : s.SameBooks t)
    (claims : ∀ c ∈ t.journal.claims, (∀ p, c ≠ .engine p) → c ∈ s.journal.claims) : t.ClaimsNamed where
  batches id m := by
    obtain ⟨p, b, loaded, same⟩ := h.batches id (claims _ m fun p => nofun)
    have stands := tests.loaded p
    rw [loaded] at stands
    obtain ⟨c, there, unmarked⟩ := Option.map_eq_some_iff.mp stands
    exact ⟨p, c, there, (congrArg Batch.id unmarked).trans same⟩
  sessions n m none_ := by
    have same := State.session_books books n
    rw [none_] at same
    exact h.sessions n (claims _ m fun p => nofun) (Option.map_eq_none_iff.mp same.symm)

/-- A grant takes free room, and the claim leaves the list. -/
theorem State.grant_room {s : State} (h : s.ClaimsNamed) {c : Claim} (m : c ∈ s.journal.claims)
    (gate : ∀ p, c = .engine p → s.gate p = true) (fits : c.places ≤ s.journal.freeRoom) :
    (s.grant c).journal.freeRoom < s.journal.freeRoom ∧ ∀ d ∈ (s.grant c).journal.claims, d ∈ s.journal.claims := by
  have without : ∀ d ∈ (s.journal.without c).claims, d ∈ s.journal.claims := fun d k => (List.mem_filter.mp k).1
  have handed : ∀ {q k}, (s.journal.without c).Takes q k → c.places = 1 →
      k.freeRoom < s.journal.freeRoom ∧ ∀ d ∈ k.claims, d ∈ s.journal.claims := fun {q k} takes_ one => by
    have reserved : k.reserved = s.journal.reserved := (congrArg Journal.reserved takes_.rest :)
    have claims : k.claims = (s.journal.without c).claims := (congrArg Journal.claims takes_.rest :)
    have queue : k.queue.length = s.journal.queue.length + 1 := by
      rw [takes_.queue, List.length_append]
      rfl
    unfold Journal.freeRoom at *
    refine ⟨by omega, fun d k => without d (claims ▸ k)⟩
  cases c with
  | engine p =>
    obtain ⟨_, _, _, _, j, rest, job, b, queue, record, loaded, _⟩ := (s.gate_iff p).mp (gate p rfl)
    rw [State.grant_engine queue record loaded]
    refine ⟨?_, without⟩
    have wants : 2 ≤ s.journal.freeRoom := fits
    unfold Journal.freeRoom at *
    show Config.journalPlaces - s.journal.queue.length - (s.journal.reserved + 2) < _
    omega
  | batch id =>
    obtain ⟨p, b, loaded, named⟩ := h.batches id m
    have found : ∃ q c, s.stock.loadedIn id = some (q, c) := by
      cases h : s.stock.loadedIn id with
      | some qc => exact ⟨qc.1, qc.2, rfl⟩
      | none =>
        have m : (p, b) ∈ s.stock.loadedBatches :=
          List.mem_filterMap.mpr ⟨p, mem_allPrinters p, by rw [show s.stock.loaded.at p = some b from loaded]; rfl⟩
        have := List.find?_eq_none.mp h _ m
        simp [named] at this
    obtain ⟨q, c, found⟩ := found
    obtain rfl := (Stock.loadedIn_loaded found).2
    exact handed (State.grant_batch found).2.1 rfl
  | session n =>
    cases found : s.sessions.find fun y => y.number == n with
    | none =>
      refine absurd ?_ (h.sessions n m)
      unfold State.session SessionUnit.get
      rw [found]
      rfl
    | some i =>
      cases record : s.sessions.table.at i with
      | none =>
        refine absurd ?_ (h.sessions n m)
        unfold State.session SessionUnit.get
        rw [found]
        exact record
      | some x => exact handed (State.grant_session found record).2.1 rfl

theorem State.serve_stuck (n : Nat) (s : State) (named : s.ClaimsNamed) (room : s.journal.freeRoom ≤ n) :
    ∀ c ∈ (State.serve n s).journal.claims.head?, ¬ (State.serve n s).journal.takesClaim c := by
  induction n generalizing s with
  | zero =>
    rintro c - ⟨_, fits⟩
    rw [State.serve_zero] at fits
    have stands := s.testEngines_room
    have some_ : 1 ≤ c.places := by
      cases c with
      | engine _ => exact Nat.le_succ 1
      | batch _ => exact Nat.le_refl 1
      | session _ => exact Nat.le_refl 1
    unfold Journal.freeRoom at *
    rw [stands.queue, stands.reserved] at fits
    omega
  | succ n ih =>
    have stands := s.testEngines_room
    have tests := s.testEngines_tests
    have quiet := State.testEngines_quiet (.refl s)
    have named' := named.of_tests tests quiet.books stands.claims
    cases claims : s.testEngines.journal.claims with
    | nil =>
      rw [State.serve_ends n (by rw [claims]; exact fun c rest k => nomatch k), claims]
      exact fun c m => nomatch m
    | cons c rest =>
      by_cases fits : s.testEngines.journal.takesClaim c
      · rw [State.serve_grants n claims fits]
        have m : c ∈ s.testEngines.journal.claims := by
          rw [claims]
          exact List.mem_cons_self
        have gate : ∀ p, c = .engine p → s.testEngines.gate p = true := fun p same =>
          (s.testEngines_claims_iff p).mp (same ▸ m)
        obtain ⟨less, kept⟩ := State.grant_room named' m gate fits.2
        refine ih _ (named'.of_tests (State.grant_tests gate) (State.grant_quiet (.refl _) c).books fun d k _ => kept d k) ?_
        have same : s.testEngines.journal.freeRoom = s.journal.freeRoom := by
          unfold Journal.freeRoom
          rw [stands.queue, stands.reserved]
        omega
      · rw [State.serve_ends n fun d rest' k => by
          rw [claims] at k
          cases k
          exact fits, claims]
        rintro d k
        cases k
        exact fits

/-! ### Images (R31, R32) -/

/-- The items of an image, one for each segment that yields a text. -/
theorem composeImage_eq (layout : List Segment) (job : Job) (clerk batch : Nat) : composeImage layout job clerk batch =
    layout.flatMap fun g =>
      let text := (segmentText job clerk batch g.kind).take (48 - g.column)
      if text = [] then [] else [{ row := g.row, column := g.column, text }] := by
  unfold composeImage itemOf
  rw [List.filterMap_eq_flatMap_toList]
  refine List.flatMap_congr fun g _ => ?_
  dsimp only
  show (if ((segmentText job clerk batch g.kind).take (48 - g.column)).isEmpty = true then none
    else some { row := g.row, column := g.column, text := (segmentText job clerk batch g.kind).take (48 - g.column) } :
      Option Item).toList = _
  generalize (segmentText job clerk batch g.kind).take (48 - g.column) = text
  cases text <;> rfl

end Sys2Proof.Machine

open Sys2Proof Sys2Proof.Machine

/-- Settles O8: what the tests do at most is an induction over them; what they do is each test's own lemma, the last round
of tests stands, and a served list is one whose oldest claim does not fit. -/
theorem settleFrame : Obligations.SettleFrame := by
  intro s t auditsOf auditor load asked gains loses room wants fits granted printed
  have settled : t = s.settle := rfl
  clear_value t
  have served : t = State.serve Config.journalPlaces s := by
    rw [settled]
    unfold State.settle
    rfl
  have auditor_iff : ∀ u p a, auditor u p a ↔ u.auditPort p = some a := fun u p a => (u.auditPort_iff p a).symm
  have gains_iff : ∀ u p, gains u p ↔ u.gainsAudit p := fun u p => by
    refine and_congr_right fun _ => forall_congr' fun a => ?_
    rw [auditor_iff]
    exact Iff.rfl
  have loses_iff : ∀ u p, loses u p ↔ u.losesAudit p := fun u p => by
    refine or_congr Iff.rfl (exists_congr fun a => ?_)
    rw [auditor_iff]
    exact Iff.rfl
  have fits_iff : ∀ j c, fits j c ↔ j.takesClaim c := fun j c => by cases c <;> exact Iff.rfl
  obtain ⟨u, last, tickets⟩ := s.settle_last
  rw [← settled] at last
  have quiet : s.Quiet t := by
    rw [settled]
    exact State.settle_quiet (.refl s)
  have tests : s.Tests t := by
    rw [settled]
    exact s.settle_tests
  have held := u.testEngines_settled
  refine ⟨⟨quiet.keeps, quiet.books, quiet.silent, tests⟩, fun p => ?_, fun h p => ?_, fun p => ?_, fun p => ?_,
    s.gate_iff, fun p => ?_, ⟨served, fun n => ⟨fun c rest claims k => ?_, fun stuck => ?_⟩⟩, fun batches sessions c m => ?_,
    fun p j rest job b queue record loaded => State.grant_engine queue record loaded, fun layout job clerk batch => ?_,
    fun p b loaded single => State.grant_batch (Stock.loadedIn_of loaded single),
    fun n x i found record => ?_⟩
  · rw [gains_iff, loses_iff]
    exact s.testAudit_holds p
  · rw [gains_iff, loses_iff]
    show t.auditSettled p
    rw [last]
    exact (held.1 (tickets h)).2 p
  · intro x opens sends
    obtain ⟨sent, shut, _⟩ := s.sendRoll_eq p
    refine ⟨fun line audit open_ waits => sent _ open_ ?_, fun slip report open_ waits => sent _ open_ ?_, shut⟩
    · unfold State.rollMessage
      rw [audit]
      show (x.audit[x.entries.length]?).map _ = _
      rw [waits]
      rfl
    · unfold State.rollMessage
      rw [report]
      show (x.slips[x.entries.length]?).map _ = _
      rw [waits]
      rfl
  · intro y window active length normal
    have done : t.rollDone p := by
      rw [last]
      refine held.2 p ?_
      rw [← last]
      exact window
    have none_ := done ⟨active, length, normal⟩
    unfold State.rollMessage at none_
    refine ⟨fun audit => ?_, fun report => ?_⟩
    · rw [show t.function p = .audit from audit] at none_
      exact List.getElem?_eq_none_iff.mp (Option.map_eq_none_iff.mp none_)
    · rw [show t.function p = .report from report] at none_
      exact List.getElem?_eq_none_iff.mp (Option.map_eq_none_iff.mp none_)
  · rw [last]
    exact u.testEngines_claims_iff p
  · exact State.serve_grants n claims ((fits_iff _ _).mp k)
  · exact State.serve_ends n fun c rest claims k => stuck c rest claims ((fits_iff _ _).mpr k)
  · rw [fits_iff]
    rw [served] at m ⊢
    refine State.serve_stuck Config.journalPlaces s ⟨batches, sessions⟩ ?_ c m
    unfold Journal.freeRoom
    omega
  · rw [composeImage_eq]
    refine List.flatMap_congr fun g _ => ?_
    have same : segmentText job clerk batch g.kind = printed job clerk batch g.kind := by
      cases g.kind with
      | field n => exact List.getD_eq_getElem?_getD
      | _ => rfl
    dsimp only
    rw [same]
  · obtain ⟨sessions, takes_, rest⟩ := State.grant_session found record
    refine ⟨sessions, ?_, rest⟩
    have number : x.number = n := by
      have holds := List.find?_some found
      rw [record] at holds
      simpa using holds
    rw [← number] at takes_ ⊢
    exact takes_
end

