-- ==== Sys2Proof/Proofs/StatusFollowed.lean ====
section
/-! SUPPORT. What the steps of an answered STATUS keep of the port, of its filters' conditions and of its batch (R46, R47,
R61, R62). -/

namespace Sys2Proof.Machine

/-! ### A port through reconciliation and tests -/

/-- Hold reasons that reconciliation and tests may add or take away. -/
def HoldReason.loose : HoldReason → Bool
  | .audit => true
  | .jam => true
  | .noStock => true
  | .stockUnverified => true
  | _ => false

/-- Among ACTIVE and HELD ports the HELD ones are those with a hold reason (R49). -/
def Port.heldRightly (x : Port) : Prop := (x.state = .active → x.hold = noHolds) ∧ (x.state = .held → x.hold ≠ noHolds)

/-- The port has answered, and is ACTIVE, HELD or FAILED. -/
def Port.engaged (x : Port) : Prop := x.state = .active ∨ x.state = .held ∨ x.state = .failed

structure Port.Follows (x y : Port) : Prop where
  status : y.lastStatus = x.lastStatus
  unanswered : y.unanswered = x.unanswered
  reply : x.replyTimer = none → y.replyTimer = none
  engaged : x.engaged → y.engaged
  rightly : x.heldRightly → y.heldRightly
  stands : ∀ r : HoldReason, r.loose = false → y.holds r = x.holds r
  added : ∀ r : HoldReason, r ≠ .audit → x.holds r = true → y.holds r = true

theorem Port.Follows.refl (x : Port) : Port.Follows x x :=
  ⟨rfl, rfl, id, id, id, fun _ _ => rfl, fun _ _ h => h⟩

theorem Port.Follows.trans {x y z : Port} (a : Port.Follows x y) (b : Port.Follows y z) : Port.Follows x z where
  status := b.status.trans a.status
  unanswered := b.unanswered.trans a.unanswered
  reply h := b.reply (a.reply h)
  engaged h := b.engaged (a.engaged h)
  rightly h := b.rightly (a.rightly h)
  stands r h := (b.stands r h).trans (a.stands r h)
  added r h on := b.added r h (a.added r h on)

theorem Port.under_rightly (x : Port) (r : HoldReason) : (x.under r).heldRightly := by
  have some_ : (x.under r).hold ≠ noHolds := fun none_ => by
    have := (HoldSet.eq_noHolds_iff _).mp none_ r
    rw [show (x.under r).hold.at r.place = true from (x.under_holds r r).trans (if_pos rfl)] at this
    cases this
  refine ⟨fun active => ?_, fun _ => some_⟩
  unfold Port.under at active
  dsimp only at active
  split at active
  · cases active
  · contradiction

theorem Port.relieved_rightly {x : Port} (h : x.heldRightly) (r : HoldReason) : (x.relieved r).heldRightly := by
  have hold : (x.relieved r).hold = x.hold.put r.place false := by
    unfold Port.relieved
    dsimp only
  unfold Port.heldRightly
  rw [hold]
  unfold Port.relieved
  dsimp only
  split
  · rename_i free
    exact ⟨fun _ => free.2, fun no => nomatch no⟩
  · rename_i busy
    refine ⟨fun active => ?_, fun held none_ => busy ⟨held, none_⟩⟩
    have none_ : x.hold.put r.place false = noHolds := by
      rw [Port.put_eq_noHolds_iff]
      intro q _
      exact (HoldSet.eq_noHolds_iff _).mp (h.1 active) q
    exact none_

/-- A loose hold reason added. -/
theorem Port.Follows.under (x : Port) {r : HoldReason} (loose : r.loose = true) : Port.Follows x (x.under r) where
  status := rfl
  unanswered := rfl
  reply h := h
  engaged h := by
    unfold Port.engaged Port.under at *
    dsimp only
    split
    · exact Or.inr (Or.inl rfl)
    · exact h
  rightly _ := x.under_rightly r
  stands q tight := by
    rw [Port.under_holds, if_neg]
    rintro rfl
    rw [loose] at tight
    cases tight
  added q _ on := by
    rw [Port.under_holds]
    split
    · rfl
    · exact on

/-- AUDIT removed. -/
theorem Port.Follows.relieved (x : Port) : Port.Follows x (x.relieved .audit) where
  status := by unfold Port.relieved; dsimp only
  unanswered := by unfold Port.relieved; dsimp only
  reply h := by unfold Port.relieved; dsimp only; exact h
  engaged h := by
    unfold Port.engaged Port.relieved at *
    dsimp only
    split
    · exact Or.inl rfl
    · exact h
  rightly h := Port.relieved_rightly h .audit
  stands q tight := by
    rw [Port.relieved_holds, if_neg]
    rintro rfl
    cases tight
  added q other on := by rw [Port.relieved_holds, if_neg (Ne.symm other)]; exact on

/-- Fields that the steps do not speak of. -/
theorem Port.Follows.of_same {x y : Port} (status : y.lastStatus = x.lastStatus) (unanswered : y.unanswered = x.unanswered)
    (reply : x.replyTimer = none → y.replyTimer = none) (state : y.state = x.state) (hold : y.hold = x.hold) :
    Port.Follows x y := by
  have holds : ∀ r, y.holds r = x.holds r := fun r => by
    unfold Port.holds
    rw [hold]
  refine ⟨status, unanswered, reply, fun h => ?_, fun h => ?_, fun r _ => holds r, fun r _ on => (holds r).trans on⟩
  · unfold Port.engaged
    rw [state]
    exact h
  · unfold Port.heldRightly
    rw [state, hold]
    exact h

/-! ### The state through reconciliation and tests -/

structure State.Follows (p : Printer) (s t : State) : Prop where
  filters : t.monitor.filters = s.monitor.filters
  faults : ∀ c : Sensed, t.monitor.faults.filter (fun f => f.condition == .sensed p c) =
    s.monitor.faults.filter fun f => f.condition == .sensed p c
  mark : (s.monitor.lasting.at p).stockMismatch = true → (t.monitor.lasting.at p).stockMismatch = true
  batch : ∀ b, s.loaded p = some b → ∃ c, t.loaded p = some c ∧ c.id = b.id ∧
    (b.state = .unverified → c.state = .unverified)
  port : Port.Follows (s.ports.at p) (t.ports.at p)

namespace State.Follows

variable {p : Printer} {s t u : State}

theorem refl (p : Printer) (s : State) : State.Follows p s s :=
  ⟨rfl, fun _ => rfl, id, fun b h => ⟨b, h, rfl, id⟩, .refl _⟩

theorem trans (a : State.Follows p s t) (b : State.Follows p t u) : State.Follows p s u where
  filters := b.filters.trans a.filters
  faults c := (b.faults c).trans (a.faults c)
  mark h := b.mark (a.mark h)
  batch x h := by
    obtain ⟨y, hy, id, state⟩ := a.batch x h
    obtain ⟨z, hz, id', state'⟩ := b.batch y hy
    exact ⟨z, hz, id'.trans id, fun k => state' (state k)⟩
  port := a.port.trans b.port

/-- The monitor and the stock stand. -/
theorem of_port (monitor : t.monitor = s.monitor) (stock : t.stock = s.stock)
    (port : Port.Follows (s.ports.at p) (t.ports.at p)) : State.Follows p s t :=
  ⟨by rw [monitor], fun _ => by rw [monitor], fun h => by rw [monitor]; exact h,
    fun b h => ⟨b, by unfold State.loaded at *; rw [stock]; exact h, rfl, id⟩, port⟩

/-- The monitor, the stock and the ports stand. -/
theorem of_still (monitor : t.monitor = s.monitor) (stock : t.stock = s.stock) (ports : t.ports = s.ports) :
    State.Follows p s t := of_port monitor stock (by rw [ports]; exact .refl _)

theorem of_sorts (h : s.Sorts t) : State.Follows p s t := of_still h.monitor h.stock h.ports

theorem of_hands (h : s.Hands t) : State.Follows p s t := of_still h.monitor h.stock h.ports

theorem foldl {α : Type} {f : State → α → State} (each : ∀ s a, State.Follows p s (f s a)) (l : List α) (s : State) :
    State.Follows p s (l.foldl f s) := by
  induction l generalizing s with
  | nil => exact refl p s
  | cons a l ih => exact (each s a).trans (ih _)

end State.Follows

/-! ### Conditions that are not the port's filtered ones -/

/-- An occurrence of another condition leaves the records of a condition. -/
theorem recordedFaults_filter {faults : List FaultRecord} {c d : Condition} (other : c ≠ d) (priority : Priority) (n : Nat) :
    (recordedFaults faults c priority n).filter (fun f => f.condition == d) = faults.filter fun f => f.condition == d := by
  have map : ∀ g : FaultRecord → FaultRecord, (∀ f, (g f).condition = f.condition) → (∀ f, f.condition = d → g f = f) →
      (faults.map g).filter (fun f => f.condition == d) = faults.filter fun f => f.condition == d := fun g same id => by
    rw [List.filter_map]
    have keeps : (fun f => (f.condition == d)) ∘ g = fun f : FaultRecord => f.condition == d := funext fun f => by
      simp only [Function.comp, same]
    rw [keeps, List.map_congr_left (g := fun f => f) fun f m => id f (by simpa using (List.mem_filter.mp m).2), List.map_id']
  unfold recordedFaults
  dsimp only
  split
  · refine map _ (fun f => by split <;> rfl) fun f is => if_neg fun k => other (k.symm.trans is)
  · rw [List.filter_append, List.filter_cons_of_neg (by simpa using other), List.filter_nil, List.append_nil]

theorem State.report_faults_filter {s : State} {r : Report} {d : Condition} (other : r ≠ .occurred d ∧ r ≠ .ended d) :
    (s.report r).monitor.faults.filter (fun f => f.condition == d) = s.monitor.faults.filter fun f => f.condition == d := by
  unfold State.report
  cases s.phase with
  | running =>
    dsimp only
    unfold State.recordReport
    cases r with
    | occurred c =>
      dsimp only
      unfold State.recordOccurrence
      dsimp only
      rw [State.notice_monitor]
      exact recordedFaults_filter (fun h => other.1 (congrArg _ h)) _ _
    | ended c =>
      have apart : c ≠ d := fun h => other.2 (congrArg _ h)
      unfold State.recordEnding
      dsimp only
      rw [List.filter_map]
      have keeps : (fun f : FaultRecord => (f.condition == d)) ∘ (fun f => if f.condition = c then { f with present := false } else f) =
          fun f : FaultRecord => f.condition == d := funext fun f => by
        simp only [Function.comp]
        split <;> rfl
      rw [keeps, List.map_congr_left (g := fun f => f) fun f m => if_neg fun k => apart (k.symm.trans
        (by simpa using (List.mem_filter.mp m).2)), List.map_id']
  | recovering _ _ => rfl
  | restarting _ => rfl

/-- A printer's own condition raised leaves its filtered ones. -/
theorem State.raise_follows (s : State) (p q : Printer) (k : PrinterFault) : State.Follows p s (s.raise (.printer q k)) := by
  have notes := s.raise_notes (.printer q k)
  have lasting := s.raise_lasting q k
  refine ⟨State.raise_filters s _, fun c => ?_, fun h => ?_, fun b h => ⟨b, ?_, rfl, id⟩, by rw [notes.ports]; exact .refl _⟩
  · unfold State.raise
    exact (State.report_faults_filter (d := .sensed p c)
      ⟨fun h => Condition.noConfusion (Report.occurred.inj h), fun h => Report.noConfusion h⟩).trans rfl
  · rw [lasting, Vector.at_put]
    split
    · rename_i same
      subst same
      cases k with
      | stockMismatch => rfl
      | _ => exact h
    · exact h
  · unfold State.loaded at *
    rw [notes.stock]
    exact h

/-! ### Holds -/

theorem State.addHold_follows (s : State) (p : Printer) {r : HoldReason} (loose : r.loose = true) :
    State.Follows p s (s.addHold p r) := by
  refine .of_port (by rw [State.addHold_rest]) (by rw [State.addHold_rest]) ?_
  rw [State.addHold_ports, Vector.at_put_same]
  exact .under _ loose

theorem State.addHold_follows_other (s : State) {p q : Printer} (other : q ≠ p) (r : HoldReason) :
    State.Follows p s (s.addHold q r) := by
  refine .of_port (by rw [State.addHold_rest]) (by rw [State.addHold_rest]) ?_
  rw [State.addHold_ports, Vector.at_put_other _ _ other]
  exact .refl _

theorem State.addStockHold_follows (s : State) (p : Printer) {r : HoldReason} (loose : r.loose = true) :
    State.Follows p s (s.addStockHold p r) := by
  unfold State.addStockHold
  split
  · exact s.addHold_follows p loose
  · exact .refl p s

/-- A port changed in what the steps do not speak of. -/
theorem State.updatePort_follows (s : State) (p : Printer) {f : Port → Port} (port : ∀ x, Port.Follows x (f x)) :
    State.Follows p s (s.updatePort p f) :=
  .of_port rfl rfl (by rw [State.updatePort_ports, Vector.at_put_same]; exact port _)

theorem State.updateEntry_follows (s : State) (p : Printer) (k : Nat) (f : Entry → Entry) :
    State.Follows p s (s.updateEntry p k f) :=
  s.updatePort_follows p fun _ => .of_same rfl rfl id rfl rfl

/-! ### Stock -/

/-- The batch stands but for its counts, or leaves LOADED or EXHAUSTED. -/
theorem State.setLoaded_follows {s : State} {p : Printer} {b c : Batch} (loaded : s.loaded p = some b) (id_ : c.id = b.id)
    (state : b.state = .unverified → c.state = .unverified) : State.Follows p s (s.setLoaded p (some c)) := by
  refine ⟨rfl, fun _ => rfl, id, fun x h => ⟨c, ?_, ?_, ?_⟩, .refl _⟩
  · exact Vector.at_put_same ..
  · cases loaded.symm.trans h
    exact id_
  · cases loaded.symm.trans h
    exact state

theorem State.lowStockCrossing_follows (s : State) (p : Printer) (before after : Nat) :
    State.Follows p s (s.lowStockCrossing p before after) := by
  unfold State.lowStockCrossing
  dsimp only
  split
  · exact s.raise_follows p p _
  · exact .refl p s

theorem State.giveSerial_follows {s : State} {p : Printer} {b : Batch} (loaded : s.loaded p = some b) :
    State.Follows p s (s.giveSerial p b) := by
  have give : State.Follows p s (s.setLoaded p (some b.give)) := State.setLoaded_follows loaded rfl id
  have now : (s.setLoaded p (some b.give)).loaded p = some b.give := Vector.at_put_same ..
  unfold State.giveSerial
  dsimp only
  refine State.Follows.trans ?_ (State.lowStockCrossing_follows _ p _ _)
  split
  · rename_i ends
    unfold State.exhaust
    dsimp only
    refine (give.trans (State.setLoaded_follows now (c := { b.give with state := .exhausted, closingOwed := true }) rfl
      fun k => ?_)).trans ((State.addStockHold_follows _ p rfl).trans (.of_still rfl rfl rfl))
    have loaded : b.state = .unverified := k
    rw [ends.1] at loaded
    cases loaded
  · exact give

theorem State.stockMismatch_follows (s : State) (p : Printer) : State.Follows p s (s.stockMismatch p) := by
  have raised := s.raise_follows p p .stockMismatch
  unfold State.stockMismatch
  dsimp only
  split
  · rename_i b loaded
    split
    · exact raised.trans ((State.setLoaded_follows loaded (c := { b with state := .unverified }) rfl fun _ => rfl).trans
        (State.addStockHold_follows _ p rfl))
    · exact raised
  · exact raised

/-! ### Ports that fail -/

theorem State.failPort_follows (s : State) (p : Printer) : State.Follows p s (s.failPort p none) := by
  obtain ⟨_, stock, _, ports, _, _, _, monitor⟩ := s.failPort_effect p none
  refine .of_port monitor stock ?_
  rw [ports, Vector.at_put_same]
  exact ⟨rfl, rfl, fun _ => rfl, fun _ => Or.inr (Or.inr rfl), fun _ => ⟨fun h => (nomatch h), fun h => nomatch h⟩,
    fun _ _ => rfl, fun _ _ on => on⟩

/-! ### Reports taken -/

theorem State.takeFeed_follows (s : State) (p : Printer) (k : Nat) : State.Follows p s (s.takeFeed p k) := by
  unfold State.takeFeed
  split
  · exact .refl p s
  · split
    · rename_i b batch
      have loaded : s.loaded p = some b := (Option.filter_eq_some_iff.mp batch).1
      dsimp only
      exact ((State.giveSerial_follows loaded).trans (State.updateEntry_follows _ p k _)).trans (.of_still rfl rfl rfl)
    · exact (s.stockMismatch_follows p).trans (State.failPort_follows _ p)

theorem State.takePrint_follows (s : State) (p : Printer) (k : Nat) : State.Follows p s (s.takePrint p k) := by
  unfold State.takePrint
  split
  · exact .refl p s
  · exact (s.updateEntry_follows p k _).trans (.of_still rfl rfl rfl)

theorem State.handLine_follows (s : State) (p source a : Printer) (line : Text) :
    State.Follows p s (s.handLine source a line) := by
  unfold State.handLine
  dsimp only
  split
  · refine .of_port rfl rfl ?_
    rw [State.setPort_ports, Vector.at_put]
    split
    · rename_i same
      subst same
      exact .of_same rfl rfl id rfl rfl
    · exact .refl _
  · exact .refl p s

theorem State.takePresent_follows (s : State) (p : Printer) (k : Nat) : State.Follows p s (s.takePresent p k) := by
  unfold State.takePresent
  split
  · exact .refl p s
  · split
    · exact .refl p s
    · dsimp only
      have handed : ∀ (t : State) (r : JRecord) (link : Link) (n : Nat),
          State.Follows p t ((t.handOnPlace r link).releasePlaces n) := fun t r link n =>
        (State.Follows.of_hands (t.handOnPlace_effect r link).1).trans (.of_still rfl rfl rfl)
      have cut : ∀ (t : State), State.Follows p t (t.updatePort p fun x => { x with entries := x.entries.eraseIdx k }) :=
        fun t => t.updatePort_follows p fun _ => .of_same rfl rfl id rfl rfl
      have set : ∀ (j : JobNumber) (x : Option Job), State.Follows p s (s.setJob j x) := fun _ _ => .of_still rfl rfl rfl
      split
      · exact ((set _ _).trans ((cut _).trans (handed _ _ _ _))).trans (State.handLine_follows _ p p _ _)
      · exact (set _ _).trans ((cut _).trans (handed _ _ _ _))

theorem State.latchJam_follows (s : State) (p : Printer) : State.Follows p s (s.latchJam p) := by
  refine .of_port (by rw [State.latchJam_rest]) (by rw [State.latchJam_rest]) ?_
  rw [State.latchJam_ports, Vector.at_put_same]
  exact Port.Follows.trans (y := { s.ports.at p with jamLatch := true }) (.of_same rfl rfl id rfl rfl) (.under _ rfl)

theorem State.cutWindow_follows (s : State) (p : Printer) (k : Nat) (cause : SpoilCause) :
    State.Follows p s (s.cutWindow p k cause) := by
  obtain ⟨_, _, _, stock, monitor, _⟩ := s.cutWindow_rest p k cause
  refine .of_port monitor stock ?_
  rw [State.cutWindow_ports, Vector.at_put_same]
  exact .of_same rfl rfl id rfl rfl

theorem State.takeJam_follows (s : State) (p : Printer) (k : Nat) : State.Follows p s (s.takeJam p k) := by
  rw [State.takeJam_eq]
  have cut : State.Follows p s ((s.withdrawClaim (.engine p)).cutWindow p k .jam) :=
    (State.Follows.of_still (s := s) (t := s.withdrawClaim (.engine p)) rfl rfl rfl).trans (State.cutWindow_follows _ p k .jam)
  refine State.Follows.trans ?_ (State.latchJam_follows _ p)
  split
  · exact cut.trans (.of_sorts (State.settleJammed_sorts _ p _))
  · exact cut

theorem State.takeRollJam_follows (s : State) (p : Printer) (k : Nat) : State.Follows p s (s.takeRollJam p k) :=
  (s.updatePort_follows p (f := fun x => { x with entries := x.entries.take k }) fun _ => .of_same rfl rfl id rfl rfl).trans
    (State.latchJam_follows _ p)

theorem State.takeRollPrint_follows (s : State) (p : Printer) : State.Follows p s (s.takeRollPrint p) := by
  unfold State.takeRollPrint
  exact s.updatePort_follows p fun _ => .of_same rfl rfl id rfl rfl

/-! ### Tests -/

theorem State.removeHold_follows (s : State) (p q : Printer) : State.Follows p s (s.removeHold q .audit) := by
  rw [State.removeHold_rest]
  refine .of_port rfl rfl ?_
  show Port.Follows _ ((s.ports.put q _).at p)
  rw [Vector.at_put]
  split
  · rename_i same
    subst same
    exact .relieved _
  · exact .refl _

theorem State.testAudit_follows (s : State) (p q : Printer) : State.Follows p s (s.testAudit q) := by
  have add : State.Follows p s (s.addHold q .audit) := by
    by_cases same : q = p
    · subst same
      exact s.addHold_follows q rfl
    · exact s.addHold_follows_other same _
  obtain ⟨gains, loses, else_⟩ := s.testAudit_eq q
  by_cases g : s.gainsAudit q
  · rw [gains g]
    split
    · exact .refl p s
    · exact add
  · by_cases l : s.losesAudit q
    · rw [loses l]
      split
      · exact s.removeHold_follows p q
      · exact .refl p s
    · rw [else_ g l]
      exact .refl p s

theorem State.sendRoll_follows (s : State) (p q : Printer) : State.Follows p s (s.sendRoll q) := by
  obtain ⟨sends, shut, none_⟩ := s.sendRoll_eq q
  by_cases opens : s.rollOpens q
  · cases message : s.rollMessage q (s.ports.at q).nextImage with
    | none => rw [none_ message]; exact .refl p s
    | some m =>
      rw [sends m opens message]
      refine .of_port rfl rfl ?_
      show Port.Follows _ ((s.ports.put q _).at p)
      rw [Vector.at_put]
      split
      · rename_i same
        subst same
        exact .of_same rfl rfl id rfl rfl
      · exact .refl _
  · rw [shut opens]
    exact .refl p s

theorem State.refreshClaim_follows (s : State) (p q : Printer) : State.Follows p s (s.refreshClaim q) := by
  rw [State.refreshClaim_rest]
  exact .of_still rfl rfl rfl

theorem State.sendImage_follows (s : State) (p q : Printer) : State.Follows p s (s.sendImage q) := by
  unfold State.sendImage
  dsimp only
  split
  · split
    · refine .of_port rfl rfl ?_
      show Port.Follows _ ((s.ports.put q _).at p)
      rw [Vector.at_put]
      split
      · rename_i same
        subst same
        exact .of_same rfl rfl id rfl rfl
      · exact .refl _
    · exact .refl p s
  · exact .refl p s

theorem State.grant_follows (s : State) (p : Printer) (c : Claim) : State.Follows p s (s.grant c) := by
  unfold State.grant
  dsimp only
  have withdrawn : State.Follows p s (s.withdrawClaim c) := .of_still rfl rfl rfl
  refine withdrawn.trans ?_
  generalize s.withdrawClaim c = t
  cases c with
  | engine q =>
    have used : State.Follows p t (t.updateJournal fun j => { j with reserved := j.reserved + 2 }) := .of_still rfl rfl rfl
    exact used.trans (State.sendImage_follows _ p q)
  | batch number =>
    dsimp only
    split
    · rename_i q b found
      have loaded := (Stock.loadedIn_loaded found).1
      refine State.Follows.trans ?_ (.of_hands (State.hand_effect _ _ _).1)
      by_cases same : q = p
      · subst same
        exact State.setLoaded_follows loaded rfl id
      · refine ⟨rfl, fun _ => rfl, id, fun x h => ⟨x, ?_, rfl, id⟩, .refl _⟩
        exact (Vector.at_put_other _ _ same).trans h
    · exact .refl p t
  | session n =>
    dsimp only
    split
    · exact (State.Follows.of_still (s := t) (t := t.modifySession n _) rfl rfl rfl).trans (.of_hands (State.hand_effect _ _ _).1)
    · exact .refl p t

theorem State.settle_follows (s : State) (p : Printer) : State.Follows p s s.settle :=
  State.settle_induct (R := State.Follows p) (.refl p) (fun _ _ _ => .trans) (fun s q => s.testAudit_follows p q)
    (fun s q => s.sendRoll_follows p q) (fun s q => s.refreshClaim_follows p q) (fun s c _ _ => s.grant_follows p c) s

/-! ### Steps 3 and 4 of a STATUS -/

theorem State.impliedFeed_follows (p : Printer) (s : State) (k : Nat) : State.Follows p s (State.impliedFeed p s k) := by
  unfold State.impliedFeed
  split
  · exact (s.takeFeed_follows p k).trans (State.settle_follows _ p)
  · exact .refl p s

theorem State.impliedPresent_follows (s : State) (p : Printer) : State.Follows p s (s.impliedPresent p) := by
  have fed := State.impliedFeed_follows p s 0
  unfold State.impliedPresent State.impliedPrint
  dsimp only
  split
  · refine (fed.trans ?_).trans ((State.takePresent_follows _ p 0).trans (State.settle_follows _ p))
    split
    · exact State.takePrint_follows _ p 0
    · exact .refl p _
  · exact fed

theorem State.reconcile_follows (s : State) (p : Printer) (st : StatusReport) : State.Follows p s (s.reconcile p st) := by
  unfold State.reconcile
  split
  · unfold State.reconcileTicket
    dsimp only
    exact (State.Follows.foldl (State.impliedFeed_follows p) _ s).trans
      (State.Follows.foldl (fun s _ => s.impliedPresent_follows p) _ _)
  · exact State.Follows.foldl (fun s _ => (s.takeRollPrint_follows p).trans (State.settle_follows _ p)) _ s

theorem State.impliedJam_follows (s : State) (p : Printer) (st : StatusReport) : State.Follows p s (s.impliedJam p st) := by
  unfold State.impliedJam
  dsimp only
  split
  · refine State.Follows.trans ?_ (State.settle_follows _ p)
    split
    · exact s.takeJam_follows p 0
    · exact s.takeRollJam_follows p 0
  · exact .refl p s

end Sys2Proof.Machine
end

