-- ==== Sys2Proof/Proofs/FiltersStepped.lean ====
section
/-! SUPPORT. What one filter step makes of its own condition, and what it leaves of the others (R134, R135). -/

namespace Sys2Proof.Machine

/-! ### Some conditions apart -/

/-- What the steps keep of a port, the hold reasons of some conditions apart. -/
structure Port.Stays (E : Sensed → Prop) (x y : Port) : Prop where
  status : y.lastStatus = x.lastStatus
  unanswered : y.unanswered = x.unanswered
  reply : x.replyTimer = none → y.replyTimer = none
  engaged : x.engaged → y.engaged
  rightly : x.heldRightly → y.heldRightly
  stands : ∀ r : HoldReason, r.loose = false → (∀ c, E c → c.holdReason ≠ some r) → y.holds r = x.holds r
  added : ∀ r : HoldReason, r ≠ .audit → (∀ c, E c → c.holdReason ≠ some r) → x.holds r = true → y.holds r = true

theorem Port.Follows.stays {x y : Port} (h : Port.Follows x y) (E : Sensed → Prop) : Port.Stays E x y :=
  ⟨h.status, h.unanswered, h.reply, h.engaged, h.rightly, fun r tight _ => h.stands r tight, fun r other _ => h.added r other⟩

theorem Port.Stays.trans {E : Sensed → Prop} {x y z : Port} (a : Port.Stays E x y) (b : Port.Stays E y z) :
    Port.Stays E x z where
  status := b.status.trans a.status
  unanswered := b.unanswered.trans a.unanswered
  reply h := b.reply (a.reply h)
  engaged h := b.engaged (a.engaged h)
  rightly h := b.rightly (a.rightly h)
  stands r h e := (b.stands r h e).trans (a.stands r h e)
  added r h e on := b.added r h e (a.added r h e on)

theorem Port.Stays.mono {E F : Sensed → Prop} {x y : Port} (h : Port.Stays E x y) (sub : ∀ c, E c → F c) : Port.Stays F x y :=
  { h with
    stands := fun r tight e => h.stands r tight fun c m => e c (sub c m)
    added := fun r other e => h.added r other fun c m => e c (sub c m) }

/-- The hold reason of a condition apart. -/
theorem Port.Stays.under {c : Sensed} {r : HoldReason} (x : Port) (reason : c.holdReason = some r) :
    Port.Stays (· = c) x (x.under r) where
  status := rfl
  unanswered := rfl
  reply h := h
  engaged h := by
    unfold Port.engaged Port.under at *
    dsimp only
    split
    · exact Or.inr (Or.inl rfl)
    · exact h
  rightly _ := x.under_rightly r
  stands q _ apart := by rw [Port.under_holds, if_neg fun same : r = q => apart c rfl (same ▸ reason)]
  added q _ apart on := by rw [Port.under_holds, if_neg fun same : r = q => apart c rfl (same ▸ reason)]; exact on

theorem Port.Stays.relieved {c : Sensed} {r : HoldReason} (x : Port) (reason : c.holdReason = some r) :
    Port.Stays (· = c) x (x.relieved r) where
  status := by unfold Port.relieved; dsimp only
  unanswered := by unfold Port.relieved; dsimp only
  reply h := by unfold Port.relieved; dsimp only; exact h
  engaged h := by
    unfold Port.engaged Port.relieved at *
    dsimp only
    split
    · exact Or.inl rfl
    · exact h
  rightly h := Port.relieved_rightly h r
  stands q _ apart := by rw [Port.relieved_holds, if_neg fun same : r = q => apart c rfl (same ▸ reason)]
  added q _ apart on := by rw [Port.relieved_holds, if_neg fun same : r = q => apart c rfl (same ▸ reason)]; exact on

/-- What the steps keep, some conditions apart. -/
structure State.Stays (E : Sensed → Prop) (p : Printer) (s t : State) : Prop where
  filters : ∀ c, ¬ E c → t.filter p c = s.filter p c
  faults : ∀ c : Sensed, ¬ E c → t.monitor.faults.filter (fun f => f.condition == .sensed p c) =
    s.monitor.faults.filter fun f => f.condition == .sensed p c
  mark : (s.monitor.lasting.at p).stockMismatch = true → (t.monitor.lasting.at p).stockMismatch = true
  batch : ∀ b, s.loaded p = some b → ∃ c, t.loaded p = some c ∧ c.id = b.id ∧
    (b.state = .unverified → c.state = .unverified)
  port : Port.Stays E (s.ports.at p) (t.ports.at p)

theorem State.filter_congr {s t : State} (filters : t.monitor.filters = s.monitor.filters) (p : Printer) (c : Sensed) :
    t.filter p c = s.filter p c := by
  unfold State.filter
  rw [filters]

theorem State.Follows.stays {p : Printer} {s t : State} (h : State.Follows p s t) (E : Sensed → Prop) :
    State.Stays E p s t :=
  ⟨fun c _ => State.filter_congr h.filters p c, fun c _ => h.faults c, h.mark, h.batch, h.port.stays E⟩

theorem State.Stays.trans {E : Sensed → Prop} {p : Printer} {s t u : State} (a : State.Stays E p s t)
    (b : State.Stays E p t u) : State.Stays E p s u where
  filters c h := (b.filters c h).trans (a.filters c h)
  faults c h := (b.faults c h).trans (a.faults c h)
  mark h := b.mark (a.mark h)
  batch x h := by
    obtain ⟨y, hy, id, state⟩ := a.batch x h
    obtain ⟨z, hz, id', state'⟩ := b.batch y hy
    exact ⟨z, hz, id'.trans id, fun k => state' (state k)⟩
  port := a.port.trans b.port

theorem State.Stays.mono {E F : Sensed → Prop} {p : Printer} {s t : State} (h : State.Stays E p s t)
    (sub : ∀ c, E c → F c) : State.Stays F p s t :=
  ⟨fun c n => h.filters c fun m => n (sub c m), fun c n => h.faults c fun m => n (sub c m), h.mark, h.batch, h.port.mono sub⟩

/-! ### One filter step -/

theorem Sensed.place_injective {c d : Sensed} (h : c.place = d.place) : c = d := by
  have listed : ∀ c : Sensed, allSensed[c.place]? = some c := fun c => by cases c <;> rfl
  exact Option.some.inj ((listed c).symm.trans ((congrArg (fun i : Fin 6 => allSensed[i]?) h).trans (listed d)))

/-- The filters of a port after one is set. -/
theorem State.setFilter_filter (s : State) (p : Printer) (c d : Sensed) (f : Filter) :
    (s.setFilter p c f).filter p d = if c = d then f else s.filter p d := by
  unfold State.filter State.setFilter
  dsimp only
  rw [Vector.at_put_same, Vector.at_put]
  by_cases same : c = d
  · rw [if_pos same, if_pos (by rw [same])]
  · rw [if_neg same, if_neg fun h => same (Sensed.place_injective h)]

theorem State.setFilter_stays (s : State) (p : Printer) (c : Sensed) (f : Filter) :
    State.Stays (· = c) p s (s.setFilter p c f) :=
  ⟨fun d other => by rw [State.setFilter_filter, if_neg fun h => other h.symm], fun _ _ => rfl, id,
    fun b h => ⟨b, h, rfl, id⟩, (Port.Follows.refl _).stays _⟩

/-- A filtered condition raised or ended leaves the records of the others. -/
theorem State.raise_sensed_stays (s : State) (p : Printer) (c : Sensed) :
    State.Stays (· = c) p s (s.raise (.sensed p c)) ∧ (s.raise (.sensed p c)).monitor.filters = s.monitor.filters := by
  have notes := s.raise_notes (.sensed p c)
  have filters := s.raise_filters (.sensed p c)
  have lasting : (s.raise (.sensed p c)).monitor.lasting = s.monitor.lasting := by
    unfold State.raise
    rw [State.report_lasting]
    rfl
  refine ⟨⟨fun d _ => State.filter_congr filters p d, fun d other => ?_, fun h => by rw [lasting]; exact h,
    fun b h => ⟨b, ?_, rfl, id⟩, by rw [notes.ports]; exact (Port.Follows.refl _).stays _⟩, filters⟩
  · refine (State.report_faults_filter (d := .sensed p d) ⟨fun h => ?_, fun h => Report.noConfusion h⟩).trans rfl
    exact other (Condition.sensed.inj (Report.occurred.inj h)).2.symm
  · unfold State.loaded at *
    rw [notes.stock]
    exact h

theorem State.endCondition_sensed_stays (s : State) (p : Printer) (c : Sensed) :
    State.Stays (· = c) p s (s.endCondition (.sensed p c)) ∧
      (s.endCondition (.sensed p c)).monitor.filters = s.monitor.filters := by
  have notes := s.endCondition_notes (.sensed p c)
  have filters := s.endCondition_filters (.sensed p c)
  have lasting : (s.endCondition (.sensed p c)).monitor.lasting = s.monitor.lasting := by
    unfold State.endCondition
    rw [State.report_lasting]
    rfl
  refine ⟨⟨fun d _ => State.filter_congr filters p d, fun d other => ?_, fun h => by rw [lasting]; exact h,
    fun b h => ⟨b, ?_, rfl, id⟩, by rw [notes.ports]; exact (Port.Follows.refl _).stays _⟩, filters⟩
  · refine (State.report_faults_filter (d := .sensed p d) ⟨fun h => Report.noConfusion h, fun h => ?_⟩).trans rfl
    exact other (Condition.sensed.inj (Report.ended.inj h)).2.symm
  · unfold State.loaded at *
    rw [notes.stock]
    exact h

/-- A port changed and neither the monitor nor the stock. -/
theorem State.Stays.of_port {E : Sensed → Prop} {p : Printer} {s t : State} (monitor : t.monitor = s.monitor)
    (stock : t.stock = s.stock) (port : Port.Stays E (s.ports.at p) (t.ports.at p)) : State.Stays E p s t :=
  ⟨fun c _ => by unfold State.filter; rw [monitor], fun c _ => by rw [monitor], fun h => by rw [monitor]; exact h,
    fun b h => ⟨b, by unfold State.loaded at *; rw [stock]; exact h, rfl, id⟩, port⟩

theorem State.addHold_stays (s : State) (p : Printer) {c : Sensed} {r : HoldReason} (reason : c.holdReason = some r) :
    State.Stays (· = c) p s (s.addHold p r) := by
  refine .of_port (by rw [State.addHold_rest]) (by rw [State.addHold_rest]) ?_
  rw [State.addHold_ports, Vector.at_put_same]
  exact .under _ reason

theorem State.removeHold_stays (s : State) (p : Printer) {c : Sensed} {r : HoldReason} (reason : c.holdReason = some r) :
    State.Stays (· = c) p s (s.removeHold p r) := by
  rw [State.removeHold_rest]
  refine .of_port rfl rfl ?_
  show Port.Stays _ _ ((s.ports.put p _).at p)
  rw [Vector.at_put_same]
  exact .relieved _ reason

/-- A filtered condition that begins: its hold, and for PAPER_OUT the stock mismatch (R135, R86). -/
def State.sensedHeld (s : State) (p : Printer) (c : Sensed) : State :=
  match c.holdReason with
  | some r => (s.raise (.sensed p c)).addHold p r
  | none => s.raise (.sensed p c)

theorem State.sensedBegins_eq (s : State) (p : Printer) (c : Sensed) :
    s.sensedBegins p c = if c = .paperOut ∧ (s.sensedHeld p c).function p = .ticket ∧
        ((s.sensedHeld p c).loaded p).any (fun b => 0 < b.remaining) then (s.sensedHeld p c).stockMismatch p
      else s.sensedHeld p c := rfl

theorem State.sensedHeld_stays (s : State) (p : Printer) (c : Sensed) : State.Stays (· = c) p s (s.sensedHeld p c) := by
  unfold State.sensedHeld
  split
  · rename_i r reason
    exact (s.raise_sensed_stays p c).1.trans (State.addHold_stays _ p reason)
  · exact (s.raise_sensed_stays p c).1

theorem State.sensedBegins_stays (s : State) (p : Printer) (c : Sensed) : State.Stays (· = c) p s (s.sensedBegins p c) := by
  rw [State.sensedBegins_eq]
  split
  · exact (s.sensedHeld_stays p c).trans ((State.stockMismatch_follows _ p).stays _)
  · exact s.sensedHeld_stays p c

theorem State.sensedEnds_stays (s : State) (p : Printer) (c : Sensed) : State.Stays (· = c) p s (s.sensedEnds p c) := by
  unfold State.sensedEnds
  dsimp only
  split
  · rename_i r reason
    split
    · exact (s.endCondition_sensed_stays p c).1
    · exact (s.endCondition_sensed_stays p c).1.trans (State.removeHold_stays _ p reason)
  · exact (s.endCondition_sensed_stays p c).1

/-- What a filter is to become, and what it brings about (Table 7-2). -/
def State.steps (s : State) (p : Printer) (sensed : SensedSet) (c : Sensed) : Filter × FilterEvent :=
  (s.filter p c).step (s.printerEntry p).filterDepth (sensed.at c.place)

theorem State.filterStep_eq (sensed : SensedSet) (p : Printer) (s : State) (c : Sensed) :
    State.filterStep sensed p s c = match (s.steps p sensed c).2 with
      | .begins => ((s.setFilter p c (s.steps p sensed c).1).sensedBegins p c).settle
      | .ends => ((s.setFilter p c (s.steps p sensed c).1).sensedEnds p c).settle
      | .nothing => s.setFilter p c (s.steps p sensed c).1 := rfl

theorem State.filterStep_stays (sensed : SensedSet) (p : Printer) (s : State) (c : Sensed) :
    State.Stays (· = c) p s (State.filterStep sensed p s c) := by
  have set := s.setFilter_stays p c (s.steps p sensed c).1
  rw [State.filterStep_eq]
  split
  · exact (set.trans (State.sensedBegins_stays _ p c)).trans ((State.settle_follows _ p).stays _)
  · exact (set.trans (State.sensedEnds_stays _ p c)).trans ((State.settle_follows _ p).stays _)
  · exact set

theorem State.filterSteps_stays (sensed : SensedSet) (p : Printer) (l : List Sensed) (s : State) :
    State.Stays (· ∈ l) p s (l.foldl (State.filterStep sensed p) s) := by
  induction l generalizing s with
  | nil => exact (State.Follows.refl p s).stays _
  | cons c l ih =>
    rw [List.foldl_cons]
    exact ((State.filterStep_stays sensed p s c).mono fun d same => same ▸ List.mem_cons_self).trans
      ((ih _).mono fun d m => List.mem_cons_of_mem _ m)

end Sys2Proof.Machine
end

