-- ==== Sys2Proof/Proofs/StatusAnswered.lean ====
section
/-! SUPPORT. An answered STATUS from the state that the poll left to the poll interval that starts again (R46, R47). -/

namespace Sys2Proof.Machine

/-! ### What a filter step makes of its condition -/

/-- The condition is recorded as present, with the priority that the tables give it. -/
def State.begun (s : State) (p : Printer) (c : Sensed) : Prop :=
  ∃ f ∈ s.monitor.faults, f.condition = .sensed p c ∧ f.present = true ∧ f.priority = s.priorityOf (.sensed p c)

/-- No record shows the condition as present. -/
def State.ended (s : State) (p : Printer) (c : Sensed) : Prop :=
  ∀ f ∈ s.monitor.faults, f.condition = .sensed p c → f.present = false

/-- The records of a condition stand. -/
theorem State.begun_congr {s t : State} {p : Printer} {c : Sensed} (tables : t.store.tables = s.store.tables)
    (faults : t.monitor.faults.filter (fun f => f.condition == .sensed p c) =
      s.monitor.faults.filter fun f => f.condition == .sensed p c) (h : s.begun p c) : t.begun p c := by
  obtain ⟨f, m, is, present, priority⟩ := h
  have m' : f ∈ t.monitor.faults.filter fun f => f.condition == .sensed p c := by
    rw [faults]
    exact List.mem_filter.mpr ⟨m, by simpa using is⟩
  refine ⟨f, (List.mem_filter.mp m').1, is, present, ?_⟩
  rw [priority]
  unfold State.priorityOf
  rw [tables]

theorem State.ended_congr {s t : State} {p : Printer} {c : Sensed}
    (faults : t.monitor.faults.filter (fun f => f.condition == .sensed p c) =
      s.monitor.faults.filter fun f => f.condition == .sensed p c) (h : s.ended p c) : t.ended p c := by
  intro f m is
  have m' : f ∈ s.monitor.faults.filter fun f => f.condition == .sensed p c := by
    rw [← faults]
    exact List.mem_filter.mpr ⟨m, by simpa using is⟩
  exact h f (List.mem_filter.mp m').1 is

theorem mem_recordedFaults (faults : List FaultRecord) {c : Condition} (lasts : c.momentary = false) (priority : Priority)
    (n : Nat) : ∃ f ∈ recordedFaults faults c priority n, f.condition = c ∧ f.present = true ∧ f.priority = priority := by
  unfold recordedFaults
  rw [lasts]
  dsimp only
  split
  · rename_i has
    obtain ⟨f, m, is⟩ := List.any_eq_true.mp has
    have is : f.condition = c := by simpa using is
    refine ⟨_, List.mem_map.mpr ⟨f, m, if_pos is⟩, is, rfl, rfl⟩
  · exact ⟨_, List.mem_append_right _ List.mem_cons_self, rfl, rfl, rfl⟩

theorem State.raise_begun {s : State} (running : s.phase = .running) (p : Printer) (c : Sensed) :
    (s.raise (.sensed p c)).begun p c := by
  obtain ⟨f, m, is, present, priority⟩ := mem_recordedFaults s.monitor.faults (c := .sensed p c) rfl
    (s.priorityOf (.sensed p c)) s.monitor.nextSequence
  have notes := s.raise_notes (.sensed p c)
  have shape : (s.raise (.sensed p c)).monitor.faults = recordedFaults s.monitor.faults (.sensed p c)
      (s.priorityOf (.sensed p c)) s.monitor.nextSequence := by
    unfold State.raise State.report State.markPresent
    dsimp only
    rw [running]
    dsimp only [State.recordReport]
    unfold State.recordOccurrence
    dsimp only
    rw [State.notice_monitor]
  refine ⟨f, shape ▸ m, is, present, ?_⟩
  rw [priority]
  unfold State.priorityOf
  rw [notes.store]

theorem State.endCondition_ended {s : State} (running : s.phase = .running) (p : Printer) (c : Sensed) :
    (s.endCondition (.sensed p c)).ended p c := by
  intro f m is
  unfold State.endCondition State.report State.markPresent at m
  dsimp only at m
  rw [running] at m
  dsimp only [State.recordReport, State.recordEnding] at m
  obtain ⟨g, _, rfl⟩ := List.mem_map.mp m
  by_cases own : g.condition = .sensed p c
  · rw [if_pos own]
  · rw [if_neg own] at is
    exact absurd is own

/-- Beginning: recorded, and held where the condition has a hold reason (R135). -/
theorem State.sensedBegins_result {s : State} (running : s.phase = .running) (p : Printer) (c : Sensed) :
    (s.sensedBegins p c).begun p c ∧ (s.sensedBegins p c).monitor.filters = s.monitor.filters ∧
      ∀ r, c.holdReason = some r → ((s.sensedBegins p c).ports.at p).holds r = true := by
  have held : (s.sensedHeld p c).begun p c ∧ (s.sensedHeld p c).monitor.filters = s.monitor.filters ∧
      ∀ r, c.holdReason = some r → ((s.sensedHeld p c).ports.at p).holds r = true := by
    have raised := State.raise_begun running p c
    have filters := s.raise_filters (.sensed p c)
    unfold State.sensedHeld
    split
    · rename_i r reason
      have rest := (s.raise (.sensed p c)).addHold_rest p r
      refine ⟨State.begun_congr (by rw [rest]) (by rw [rest]) raised, by rw [rest]; exact filters, fun q own => ?_⟩
      rw [State.addHold_ports, Vector.at_put_same]
      cases reason.symm.trans own
      exact ((s.raise (.sensed p c)).ports.at p).under_holds r r |>.trans (if_pos rfl)
    · rename_i none_
      exact ⟨raised, filters, fun r own => by rw [none_] at own; cases own⟩
  rw [State.sensedBegins_eq]
  split
  · have follows := (s.sensedHeld p c).stockMismatch_follows p
    have tables := (State.stockMismatch_loud (.refl (s.sensedHeld p c)) p).keeps.tables
    refine ⟨State.begun_congr tables (follows.faults c) held.1, follows.filters.trans held.2.1, fun r own =>
      follows.port.added r ?_ (held.2.2 r own)⟩
    rintro rfl
    cases c <;> cases own
  · exact held

/-- Ending: recorded, and released where the condition has a hold reason other than JAM (R135, R51). -/
theorem State.sensedEnds_result {s : State} (running : s.phase = .running) (p : Printer) (c : Sensed) :
    (s.sensedEnds p c).ended p c ∧ (s.sensedEnds p c).monitor.filters = s.monitor.filters ∧
      ∀ r, c.holdReason = some r → c ≠ .jam → ((s.sensedEnds p c).ports.at p).holds r = false := by
  have ended := State.endCondition_ended running p c
  have filters := s.endCondition_filters (.sensed p c)
  unfold State.sensedEnds
  dsimp only
  split
  · rename_i r reason
    split
    · rename_i latched
      exact ⟨ended, filters, fun _ _ other => absurd latched.1 other⟩
    · rw [State.removeHold_rest]
      refine ⟨ended, filters, fun q own _ => ?_⟩
      cases reason.symm.trans own
      show (((s.endCondition (.sensed p c)).ports.put p _).at p).holds r = false
      rw [Vector.at_put_same, Port.relieved_holds, if_pos rfl]
  · rename_i none_
    exact ⟨ended, filters, fun r own => by rw [none_] at own; cases own⟩

/-- The hold reason of a condition other than JAM is one that tests leave alone. -/
theorem Sensed.holdReason_tight {c : Sensed} {r : HoldReason} (reason : c.holdReason = some r) (other : c ≠ .jam) :
    r.loose = false := by
  cases c with
  | paperLow => cases reason
  | jam => exact absurd rfl other
  | paperOut => cases reason; rfl
  | coverOpen => cases reason; rfl
  | headHot => cases reason; rfl
  | cutter => cases reason; rfl

theorem State.settle_monitor (s : State) : s.settle.monitor = s.monitor := (State.settle_quiet (.refl s)).silent.monitor

theorem State.settle_tables (s : State) : s.settle.store.tables = s.store.tables := (State.settle_quiet (.refl s)).keeps.tables

/-- A filter step and its own condition (R134, R135). -/
theorem State.filterStep_result {s : State} (running : s.phase = .running) (sensed : SensedSet) (p : Printer) (c : Sensed) :
    let e := s.steps p sensed c
    let w := State.filterStep sensed p s c
    w.filter p c = e.1 ∧ (e.2 = .begins → w.begun p c) ∧ (e.2 = .ends → w.ended p c) ∧
    (∀ r, c.holdReason = some r → e.2 = .begins → (w.ports.at p).holds r = true) ∧
    (∀ r, c.holdReason = some r → c ≠ .jam → e.2 = .ends → (w.ports.at p).holds r = false) ∧
    (e.2 = .nothing → w.ports = s.ports ∧ w = s.setFilter p c e.1) := by
  dsimp only
  rw [State.filterStep_eq]
  generalize s.steps p sensed c = e
  obtain ⟨f, event⟩ := e
  have set : (s.setFilter p c f).filter p c = f := by rw [State.setFilter_filter, if_pos rfl]
  have running' : (s.setFilter p c f).phase = .running := running
  cases event with
  | begins =>
    obtain ⟨begun, filters, held⟩ := State.sensedBegins_result running' p c
    dsimp only
    generalize (s.setFilter p c f).sensedBegins p c = v at *
    have monitor := v.settle_monitor
    have tables := v.settle_tables
    have follows := v.settle_follows p
    generalize v.settle = w at *
    refine ⟨?_, fun _ => State.begun_congr tables (by rw [monitor]) begun, nofun, fun r own _ =>
      follows.port.added r ?_ (held r own), nofun, nofun⟩
    · rw [State.filter_congr (s := s.setFilter p c f) (by rw [monitor, filters]), set]
    · rintro rfl
      cases c <;> cases own
  | ends =>
    obtain ⟨ended, filters, free⟩ := State.sensedEnds_result running' p c
    dsimp only
    generalize (s.setFilter p c f).sensedEnds p c = v at *
    have monitor := v.settle_monitor
    have follows := v.settle_follows p
    generalize v.settle = w at *
    refine ⟨?_, nofun, fun _ => State.ended_congr (by rw [monitor]) ended, nofun, fun r own other _ => ?_, nofun⟩
    · rw [State.filter_congr (s := s.setFilter p c f) (by rw [monitor, filters]), set]
    · rw [follows.port.stands r (Sensed.holdReason_tight own other)]
      exact free r own other
  | nothing => exact ⟨set, nofun, nofun, nofun, nofun, fun _ => ⟨rfl, rfl⟩⟩

end Sys2Proof.Machine
end

