-- ==== Sys2Proof/Proofs/StatusEnded.lean ====
section
/-! SUPPORT. The filters of an answered STATUS one after another, its latch, and its stock mismatch (R47, R51, R86). -/

namespace Sys2Proof.Machine

/-! ### The latch (R51) -/

theorem State.clearLatch_result (s : State) (p : Printer) (st : StatusReport) :
    (s.clearLatch p st).monitor = s.monitor ∧ State.Stays (· = .jam) p s (s.clearLatch p st) ∧
    (st.sensed.at Sensed.jam.place = true → s.clearLatch p st = s) ∧
    (st.sensed.at Sensed.jam.place = false → ((s.clearLatch p st).ports.at p).jamLatch = false ∧
      ((s.filter p .jam).present = false → ((s.clearLatch p st).ports.at p).holds .jam = false)) := by
  unfold State.clearLatch
  dsimp only
  cases st.sensed.at Sensed.jam.place with
  | true => exact ⟨rfl, (State.Follows.refl p s).stays _, fun _ => rfl, nofun⟩
  | false =>
    have cleared : State.Stays (· = .jam) p s (s.updatePort p fun x => { x with jamLatch := false }) :=
      (s.updatePort_follows p (f := fun x => { x with jamLatch := false }) fun _ => .of_same rfl rfl id rfl rfl).stays _
    have latch : ((s.updatePort p fun x => { x with jamLatch := false }).ports.at p).jamLatch = false := by
      rw [State.updatePort_ports, Vector.at_put_same]
    rw [if_neg Bool.false_ne_true]
    have filter : (s.updatePort p fun x => { x with jamLatch := false }).filter p .jam = s.filter p .jam := rfl
    have same : (s.updatePort p fun x => { x with jamLatch := false }).monitor = s.monitor := rfl
    rw [filter]
    cases present : (s.filter p .jam).present with
    | true =>
      rw [if_pos rfl]
      exact ⟨rfl, cleared, nofun, fun _ => ⟨latch, nofun⟩⟩
    | false =>
      rw [if_neg Bool.false_ne_true]
      generalize (s.updatePort p fun x => { x with jamLatch := false }) = v at *
      have removed := State.removeHold_stays v p (c := .jam) rfl
      have ports : (v.removeHold p .jam).ports = v.ports.put p ((v.ports.at p).relieved .jam) := by
        rw [State.removeHold_rest]
      have monitor : (v.removeHold p .jam).monitor = v.monitor := by rw [State.removeHold_rest]
      have jam : ((v.removeHold p .jam).ports.at p).holds .jam = false := by
        rw [ports, Vector.at_put_same, Port.relieved_holds, if_pos rfl]
      have latch' : ((v.removeHold p .jam).ports.at p).jamLatch = false := by
        rw [ports, Vector.at_put_same]
        unfold Port.relieved
        dsimp only
        exact latch
      generalize v.removeHold p .jam = u at *
      have tested := u.settle_tests.ports p
      have follows := u.settle_follows p
      have settled := u.settle_monitor
      generalize u.settle = w at *
      refine ⟨(settled.trans monitor).trans same, cleared.trans (removed.trans (follows.stays _)), nofun, fun _ => ⟨?_, fun _ => ?_⟩⟩
      · exact (congrArg Port.jamLatch tested.rest :).trans latch'
      · exact (tested.holds .jam (by decide)).trans jam

/-! ### Each condition's step among the others -/

theorem Sensed.mem_all (c : Sensed) : c ∈ allSensed := by cases c <;> decide

theorem allSensed_nodup : allSensed.Nodup := by decide

/-- The step of one condition, with what comes before and after it. -/
structure State.StepOf (p : Printer) (sensed : SensedSet) (c : Sensed) (s a w t : State) : Prop where
  step : w = State.filterStep sensed p a c
  before : State.Stays (· ≠ c) p s a
  after : State.Stays (· ≠ c) p w t
  loudly : s.Loud a
  loud : w.Loud t
  batch : c = .paperOut → (a.loaded p).map Batch.unmarked = (s.loaded p).map Batch.unmarked

theorem State.filterSteps_loud (sensed : SensedSet) (p : Printer) (l : List Sensed) (s : State) :
    s.Loud (l.foldl (State.filterStep sensed p) s) := by
  induction l generalizing s with
  | nil => exact .refl s
  | cons c l ih => exact (State.filterStep_loud (.refl s) sensed p c).trans (ih _)

/-- Holding for a condition leaves the stock and the tables. -/
theorem State.sensedHeld_stands (v : State) (p : Printer) (c : Sensed) :
    (v.sensedHeld p c).stock = v.stock ∧ (v.sensedHeld p c).store = v.store := by
  have notes := v.raise_notes (.sensed p c)
  unfold State.sensedHeld
  split
  · rw [State.addHold_rest]
    exact ⟨notes.stock, notes.store⟩
  · exact ⟨notes.stock, notes.store⟩

/-- A step of another condition than PAPER_OUT leaves the batch, its mark apart. -/
theorem State.filterStep_loaded {sensed : SensedSet} {p : Printer} {s : State} {c : Sensed} (other : c ≠ .paperOut) :
    ((State.filterStep sensed p s c).loaded p).map Batch.unmarked = (s.loaded p).map Batch.unmarked := by
  have begins : ∀ v : State, (v.sensedBegins p c).stock = v.stock := fun v => by
    rw [State.sensedBegins_eq, if_neg fun h => other h.1]
    exact (v.sensedHeld_stands p c).1
  have ends : ∀ v : State, (v.sensedEnds p c).stock = v.stock := fun v => by
    have ended : (v.endCondition (.sensed p c)).stock = v.stock := (v.endCondition_notes _).stock
    unfold State.sensedEnds
    dsimp only
    split
    · split
      · exact ended
      · rw [State.removeHold_rest]
        exact ended
    · exact ended
  have settled : ∀ v : State, v.stock = s.stock →
      (v.settle.loaded p).map Batch.unmarked = (s.loaded p).map Batch.unmarked := fun v same => by
    rw [v.settle_tests.loaded p]
    unfold State.loaded
    rw [same]
  rw [State.filterStep_eq]
  split
  · exact settled _ (begins _)
  · exact settled _ (ends _)
  · rfl

theorem State.filterSteps_loaded {sensed : SensedSet} {p : Printer} {l : List Sensed} (out : Sensed.paperOut ∉ l) (s : State) :
    ((l.foldl (State.filterStep sensed p) s).loaded p).map Batch.unmarked = (s.loaded p).map Batch.unmarked := by
  induction l generalizing s with
  | nil => rfl
  | cons c l ih =>
    rw [List.mem_cons, not_or] at out
    rw [List.foldl_cons, ih out.2, State.filterStep_loaded (Ne.symm out.1)]

theorem State.filterSteps_of (sensed : SensedSet) (p : Printer) (s : State) (c : Sensed) :
    ∃ a w, State.StepOf p sensed c s a w (allSensed.foldl (State.filterStep sensed p) s) := by
  obtain ⟨before, after, split⟩ := List.append_of_mem c.mem_all
  have once := allSensed_nodup
  rw [split] at once ⊢
  obtain ⟨_, right, apart⟩ := List.nodup_append.mp once
  have out : ∀ d ∈ before, d ≠ c := fun d m => apart d m c List.mem_cons_self
  have out' : ∀ d ∈ after, d ≠ c := fun d m same => (List.nodup_cons.mp right).1 (same ▸ m)
  rw [List.foldl_append, List.foldl_cons]
  exact ⟨_, _, rfl, (State.filterSteps_stays sensed p before s).mono out, (State.filterSteps_stays sensed p after _).mono out',
    State.filterSteps_loud sensed p before s, State.filterSteps_loud sensed p after _, fun same =>
      State.filterSteps_loaded (fun m => out _ m same.symm) s⟩

/-- The step finds the condition's filter as it was. -/
theorem State.StepOf.steps {p : Printer} {sensed : SensedSet} {c : Sensed} {s a w t : State}
    (h : State.StepOf p sensed c s a w t) : a.steps p sensed c = s.steps p sensed c := by
  unfold State.steps State.printerEntry
  rw [h.before.filters c fun no => no rfl, h.loudly.keeps.tables]

/-- The hold reason of a condition is no other condition's. -/
theorem Sensed.holdReason_injective {c d : Sensed} {r : HoldReason} (hc : c.holdReason = some r) (hd : d.holdReason = some r) :
    c = d := by
  cases c <;> cases hc <;> cases d <;> cases hd <;> rfl

/-- What all the filter steps make of one condition. -/
theorem State.filterSteps_result {s : State} (running : s.phase = .running) (sensed : SensedSet) (p : Printer) (c : Sensed) :
    let e := s.steps p sensed c
    let t := allSensed.foldl (State.filterStep sensed p) s
    t.filter p c = e.1 ∧ (e.2 = .begins → t.begun p c) ∧ (e.2 = .ends → t.ended p c) ∧
    (∀ r, c.holdReason = some r → e.2 = .begins → (t.ports.at p).holds r = true) ∧
    (∀ r, c.holdReason = some r → c ≠ .jam → (t.ports.at p).holds r =
      match e.2 with
      | .begins => true
      | .ends => false
      | .nothing => (s.ports.at p).holds r) := by
  dsimp only
  obtain ⟨a, w, of⟩ := State.filterSteps_of sensed p s c
  generalize allSensed.foldl (State.filterStep sensed p) s = t at *
  have steps := of.steps
  have running' : a.phase = .running := of.loudly.keeps.phase.trans running
  obtain ⟨filter, begins, ends, held, free, nothing⟩ := State.filterStep_result running' sensed p c
  rw [← of.step, steps] at filter begins ends held free nothing
  generalize s.steps p sensed c = e at *
  have after := of.after
  have faults := after.faults c fun no => no rfl
  have tables := of.loud.keeps.tables
  have apart : ∀ {r}, c.holdReason = some r → ∀ d, d ≠ c → d.holdReason ≠ some r := fun own d other h =>
    other (Sensed.holdReason_injective h own)
  have notAudit : ∀ {r}, c.holdReason = some r → r ≠ .audit := fun own same => by
    subst same
    cases c <;> cases own
  refine ⟨(after.filters c fun no => no rfl).trans filter, fun h => State.begun_congr tables faults (begins h),
    fun h => State.ended_congr faults (ends h), fun r own h => after.port.added r (notAudit own) (apart own) (held r own h),
    fun r own other => ?_⟩
  rw [after.port.stands r (Sensed.holdReason_tight own other) (apart own)]
  cases event : e.2 with
  | begins => exact held r own event
  | ends => exact free r own other event
  | nothing =>
    rw [(nothing event).1]
    exact of.before.port.stands r (Sensed.holdReason_tight own other) (apart own)

/-- PAPER_OUT that begins at a TICKET port whose batch has serials left is a stock mismatch (R86). -/
theorem State.filterSteps_paperOut {s : State} {sensed : SensedSet} {p : Printer} {b : Batch}
    (begins : (s.steps p sensed .paperOut).2 = .begins) (ticket : s.function p = .ticket) (loaded : s.loaded p = some b)
    (some_ : 0 < b.remaining) :
    let t := allSensed.foldl (State.filterStep sensed p) s
    (t.monitor.lasting.at p).stockMismatch = true ∧ ∃ c, t.loaded p = some c ∧ c.id = b.id ∧
      (b.state = .loaded ∨ b.state = .exhausted → c.state = .unverified ∧ (t.ports.at p).holds .stockUnverified = true) := by
  dsimp only
  obtain ⟨a, w, of⟩ := State.filterSteps_of sensed p s .paperOut
  generalize allSensed.foldl (State.filterStep sensed p) s = t at *
  have steps := of.steps
  have after := of.after
  obtain ⟨b', loaded', unmarked⟩ := Option.map_eq_some_iff.mp ((of.batch rfl).trans (congrArg (Option.map _) loaded))
  have id_ : b'.id = b.id := (congrArg Batch.id unmarked : _)
  have state_ : b'.state = b.state := (congrArg Batch.state unmarked : _)
  have remains : 0 < b'.remaining := by
    have last : b'.last = b.last := (congrArg Batch.last unmarked : _)
    have next : b'.next = b.next := (congrArg Batch.next unmarked : _)
    unfold Batch.remaining at *
    rw [last, next]
    exact some_
  have shape : w = ((a.setFilter p .paperOut (s.steps p sensed .paperOut).1).sensedBegins p .paperOut).settle := by
    rw [of.step, State.filterStep_eq, steps, begins]
  have held : ∃ v : State, (a.setFilter p .paperOut (s.steps p sensed .paperOut).1).sensedBegins p .paperOut = v.stockMismatch p ∧
      v.function p = .ticket ∧ v.loaded p = some b' := by
    have stock : (a.setFilter p .paperOut (s.steps p sensed .paperOut).1).stock = a.stock := rfl
    have store : (a.setFilter p .paperOut (s.steps p sensed .paperOut).1).store = a.store := rfl
    generalize a.setFilter p .paperOut (s.steps p sensed .paperOut).1 = x at *
    obtain ⟨stock', store'⟩ := x.sensedHeld_stands p .paperOut
    have function : (x.sensedHeld p .paperOut).function p = .ticket :=
      (State.function_congr (by rw [store', store, of.loudly.keeps.tables]) p).trans ticket
    have batch : (x.sensedHeld p .paperOut).loaded p = some b' := by
      unfold State.loaded at *
      rw [stock', stock]
      exact loaded'
    refine ⟨x.sensedHeld p .paperOut, ?_, function, batch⟩
    rw [State.sensedBegins_eq, if_pos ⟨rfl, function, by rw [batch]; simpa using remains⟩]
  obtain ⟨v, eq, ticket', stock⟩ := held
  obtain ⟨_, mark, none_, some_⟩ := State.stockMismatch_effect ticket'
  rw [eq] at shape
  have settled := (v.stockMismatch p).settle_follows p
  rw [← shape] at settled
  generalize v.stockMismatch p = m at *
  have mark' : (m.monitor.lasting.at p).stockMismatch = true := by rw [mark]; rfl
  refine ⟨after.mark (settled.mark mark'), ?_⟩
  by_cases fits : b'.state = .loaded ∨ b'.state = .exhausted
  · obtain ⟨stock', ports, _⟩ := some_ b' stock fits
    have now : m.loaded p = some { b' with state := .unverified } := by
      unfold State.loaded
      rw [stock']
      exact Vector.at_put_same ..
    obtain ⟨c, hc, idc, un⟩ := settled.batch _ now
    obtain ⟨d, hd, idd, un'⟩ := after.batch _ hc
    refine ⟨d, hd, (idd.trans idc).trans id_, fun _ => ⟨un' (un rfl), ?_⟩⟩
    refine after.port.added _ (by decide) (fun c _ h => by cases c <;> cases h) (settled.port.added _ (by decide) ?_)
    rw [ports, Vector.at_put_same, Port.under_holds, if_pos rfl]
  · have now : m.loaded p = some b' := by
      unfold State.loaded
      rw [(none_ fun ⟨c, hc, fits'⟩ => fits (by cases hc.symm.trans stock; exact fits')).1]
      exact stock
    obtain ⟨c, hc, idc, _⟩ := settled.batch _ now
    obtain ⟨d, hd, idd, _⟩ := after.batch _ hc
    exact ⟨d, hd, (idd.trans idc).trans id_, fun yes => absurd (state_ ▸ yes) fits⟩

end Sys2Proof.Machine
end

