-- ==== Sys2Proof/Proofs/StatusQueued.lean ====
section
/-! SUPPORT. The queue of a port that an answered STATUS takes to HELD stands through the tests that follow (R12, R13,
R47). -/

namespace Sys2Proof.Machine

/-- The jobs of every queue have records that name its printer. -/
def State.queuesNamed (s : State) : Prop := ∀ q : Printer, s.queuedAt q

/-- A port is HELD by a reason other than AUDIT. -/
def State.heldFast (s : State) (p : Printer) : Prop :=
  (s.ports.at p).state = .held ∧ ∃ r : HoldReason, r ≠ .audit ∧ (s.ports.at p).holds r = true

/-- No printer but one can take the job (R12). -/
def State.onlyOther (s : State) (p : Printer) (y : Job) : Prop := ∀ q, s.otherPrinter y = some q → q = p

/-- What tests leave of the queue of a port held fast, and of the jobs that could move nowhere else. -/
structure State.Rests (p : Printer) (s t : State) : Prop where
  named : t.queuesNamed
  fast : t.heldFast p
  tables : t.store.tables = s.store.tables
  queue : t.queues.at p = s.queues.at p
  stays : ∀ j ∈ s.queues.at p, t.jobs.at j = s.jobs.at j
  moved : ∀ j y, s.jobs.at j = some y → s.onlyOther p y → ∃ z, t.jobs.at j = some z ∧ z.printer = y.printer ∧
    z.retry = y.retry ∧ z.particulars = y.particulars

theorem State.otherPrinter_congr {s t : State} (tables : t.store.tables = s.store.tables) {y z : Job}
    (printer : z.printer = y.printer) (same : z.particulars = y.particulars) : t.otherPrinter z = s.otherPrinter y := by
  have origin : z.origin = y.origin := (congrArg Job.origin same :)
  have type : z.stockType = y.stockType := (congrArg Job.stockType same :)
  unfold State.otherPrinter State.routeEntry State.function State.printerEntry
  rw [tables, printer, origin, type]

namespace State.Rests

variable {p : Printer} {s t u : State}

theorem refl (named : s.queuesNamed) (fast : s.heldFast p) : State.Rests p s s :=
  ⟨named, fast, rfl, rfl, fun _ _ => rfl, fun _ y h _ => ⟨y, h, rfl, rfl, rfl⟩⟩

theorem trans (a : State.Rests p s t) (b : State.Rests p t u) : State.Rests p s u where
  named := b.named
  fast := b.fast
  tables := b.tables.trans a.tables
  queue := b.queue.trans a.queue
  stays j m := (b.stays j (a.queue ▸ m)).trans (a.stays j m)
  moved j y h only := by
    obtain ⟨z, hz, printer, retry, same⟩ := a.moved j y h only
    obtain ⟨x, hx, printer', retry', same'⟩ := b.moved j z hz fun q k => only q
      ((State.otherPrinter_congr a.tables printer same).symm.trans k)
    exact ⟨x, hx, printer'.trans printer, retry'.trans retry, same'.trans same⟩

/-- Jobs and queues stand. -/
theorem of_same (named : s.queuesNamed) (fast : t.heldFast p) (tables : t.store.tables = s.store.tables)
    (jobs : t.jobs = s.jobs) (queues : t.queues = s.queues) : State.Rests p s t := by
  refine ⟨fun q j m => ?_, fast, tables, by rw [queues], fun _ _ => by rw [jobs],
    fun _ y h _ => ⟨y, by rw [jobs]; exact h, rfl, rfl, rfl⟩⟩
  rw [queues] at m
  rw [jobs]
  exact named q j m

end State.Rests

/-- A job is not moved to a port that is HELD. -/
theorem State.moveTarget_active {s : State} {y : Job} {q : Printer} (h : s.moveTarget y = some q) :
    (s.ports.at q).state = .active :=
  ((s.moveTarget_iff y q).mp h).2.2.2.1

/-- A job considered that stands at another port. -/
theorem State.considerJob_rests {s : State} {p : Printer} (named : s.queuesNamed) (fast : s.heldFast p) {j : JobNumber}
    (elsewhere : ∀ y, s.jobs.at j = some y → y.printer ≠ p) :
    State.Rests p s (State.considerJob (fun _ => true) none s j) ∧
      ∀ i y, (State.considerJob (fun _ => true) none s j).jobs.at i = some y →
        (∀ z, s.jobs.at i = some z → z.printer ≠ p) → y.printer ≠ p := by
  unfold State.considerJob
  cases record : s.jobs.at j with
  | none => exact ⟨.refl named fast, fun i y h other => other y h⟩
  | some job =>
    dsimp only
    rw [if_pos rfl]
    cases target : s.moveTarget job with
    | none => exact ⟨.refl named fast, fun i y h other => other y h⟩
    | some q =>
      dsimp only
      have away : job.printer ≠ p := elsewhere job record
      have other : q ≠ p := fun same => by
        have := State.moveTarget_active target
        rw [same, fast.1] at this
        cases this
      have differ : q ≠ job.printer := ((s.moveTarget_iff job q).mp target).1
      have moves := State.moveJob_moves s j job q false
      have jobs : (s.moveJob j job q false).jobs = s.jobs.put j (some { job with printer := q, retry := 0 }) := rfl
      have out : ∀ i ∈ s.queues.at p, j ≠ i := fun i m same => by
        obtain ⟨y, r, at_⟩ := named p i m
        exact elsewhere y (same ▸ r) at_
      have queues : ∀ r, (s.moveJob j job q false).queues.at r =
          if r = q then s.queues.at q ++ [j] else if r = job.printer then (s.queues.at r).filter fun i => i != j
            else s.queues.at r := fun r => by
        show ((s.queues.put job.printer ((s.queues.at job.printer).filter fun i => i != j)).put q
          ((s.queues.put job.printer ((s.queues.at job.printer).filter fun i => i != j)).at q ++ [j])).at r = _
        rw [Vector.at_put_other _ _ (Ne.symm differ), Vector.at_put]
        by_cases first : q = r
        · rw [if_pos first, if_pos first.symm]
        · rw [if_neg first, if_neg (Ne.symm first), Vector.at_put]
          by_cases second : job.printer = r
          · rw [if_pos second, if_pos second.symm, second]
          · rw [if_neg second, if_neg (Ne.symm second)]
      have ports : (s.moveJob j job q false).ports = s.ports := moves.ports
      have store : (s.moveJob j job q false).store = s.store := moves.store
      generalize s.moveJob j job q false = t at *
      refine ⟨⟨fun r i m => ?_, ?_, by rw [store], ?_, fun i m => ?_, fun i y h only => ?_⟩, fun i y h apart => ?_⟩
      · rw [jobs, Vector.at_put]
        rw [queues] at m
        by_cases own : j = i
        · subst own
          rw [if_pos rfl]
          refine ⟨_, rfl, ?_⟩
          by_cases here : r = q
          · exact here.symm
          · rw [if_neg here] at m
            split at m
            · simp at m
            · rename_i apart
              obtain ⟨y, k, at_⟩ := named r j m
              cases record.symm.trans k
              exact absurd at_.symm apart
        · rw [if_neg own]
          by_cases here : r = q
          · rw [if_pos here] at m
            rcases List.mem_append.mp m with m | m
            · rw [here]
              exact named q i m
            · exact absurd (List.mem_singleton.mp m).symm own
          · rw [if_neg here] at m
            split at m
            · exact named r i (List.mem_filter.mp m).1
            · exact named r i m
      · unfold State.heldFast
        rw [ports]
        exact fast
      · rw [queues, if_neg (Ne.symm other), if_neg (Ne.symm away)]
      · rw [jobs, Vector.at_put_other _ _ (out i m)]
      · rw [jobs, Vector.at_put]
        by_cases own : j = i
        · subst own
          cases record.symm.trans h
          have named' : s.otherPrinter job = some q := by
            unfold State.moveTarget at target
            exact (Option.filter_eq_some_iff.mp target).1
          exact absurd (only q named') other
        · rw [if_neg own]
          exact ⟨y, h, rfl, rfl, rfl⟩
      · rw [jobs, Vector.at_put] at h
        by_cases own : j = i
        · rw [if_pos own] at h
          cases h
          exact other
        · rw [if_neg own] at h
          exact apart y h

/-- A queue considered at another port. -/
theorem State.resolveQueue_rests {s : State} {p q : Printer} (named : s.queuesNamed) (fast : s.heldFast p) (other : q ≠ p) :
    State.Rests p s (s.resolveQueue q (fun _ => true) none) := by
  have fold : ∀ (l : List JobNumber) (s : State), s.queuesNamed → s.heldFast p →
      (∀ j ∈ l, ∀ y, s.jobs.at j = some y → y.printer ≠ p) →
      State.Rests p s (l.foldl (State.considerJob (fun _ => true) none) s) := by
    intro l
    induction l with
    | nil => exact fun s named fast _ => .refl named fast
    | cons j l ih =>
      intro s named fast elsewhere
      obtain ⟨rests, apart⟩ := State.considerJob_rests named fast (elsewhere j List.mem_cons_self)
      rw [List.foldl_cons]
      exact rests.trans (ih _ rests.named rests.fast fun i m y h => apart i y h
        (elsewhere i (List.mem_cons_of_mem _ m)))
  refine fold _ s named fast fun j m y h => ?_
  obtain ⟨x, r, at_⟩ := named q j m
  cases r.symm.trans h
  rw [at_]
  exact other

/-- A port held fast stays so under tests. -/
theorem State.Tests.fast {s t : State} {p : Printer} (h : s.Tests t) (fast : s.heldFast p) : t.heldFast p := by
  obtain ⟨held, r, other, on⟩ := fast
  exact ⟨(h.ports p).heldFast held ⟨r, other, on⟩, r, other, ((h.ports p).holds r other).trans on⟩

theorem State.addHold_rests {s : State} {p : Printer} (named : s.queuesNamed) (fast : s.heldFast p) (q : Printer) :
    State.Rests p s (s.addHold q .audit) := by
  have after := (s.addHold_tests q).fast fast
  have tables : (s.addHold q .audit).store.tables = s.store.tables := by rw [State.addHold_rest]
  by_cases active : (s.ports.at q).state = .active
  · rw [State.addHold_eq, if_pos active]
    have other : q ≠ p := fun same => by
      rw [same, fast.1] at active
      cases active
    have fast' : (s.setPort q ((s.ports.at q).under .audit)).heldFast p := by
      unfold State.heldFast
      rw [State.setPort_ports, Vector.at_put_other _ _ other]
      exact fast
    exact (State.Rests.of_same named fast' rfl rfl rfl).trans (State.resolveQueue_rests (s := s.setPort q _) named fast' other)
  · rw [State.addHold_still s q .audit active] at after ⊢
    exact .of_same named after rfl rfl rfl

theorem State.testAudit_rests {s : State} {p : Printer} (named : s.queuesNamed) (fast : s.heldFast p) (q : Printer) :
    State.Rests p s (s.testAudit q) := by
  have remove : State.Rests p s (s.removeHold q .audit) := by
    have after := (s.removeHold_tests q).fast fast
    rw [State.removeHold_rest] at after ⊢
    exact .of_same named after rfl rfl rfl
  obtain ⟨gains, loses, else_⟩ := s.testAudit_eq q
  by_cases g : s.gainsAudit q
  · rw [gains g]
    split
    · exact .refl named fast
    · exact State.addHold_rests named fast q
  · by_cases l : s.losesAudit q
    · rw [loses l]
      split
      · exact remove
      · exact .refl named fast
    · rw [else_ g l]
      exact .refl named fast

theorem State.sendRoll_rests {s : State} {p : Printer} (named : s.queuesNamed) (fast : s.heldFast p) (q : Printer) :
    State.Rests p s (s.sendRoll q) := by
  have after := (s.sendRoll_tests q).fast fast
  have stands := (s.sendRoll_stands q).1.tables
  obtain ⟨sends, shut, none_⟩ := s.sendRoll_eq q
  by_cases opens : s.rollOpens q
  · cases message : s.rollMessage q (s.ports.at q).nextImage with
    | none => rw [none_ message]; exact .refl named fast
    | some m =>
      rw [sends m opens message] at after ⊢
      exact .of_same named after rfl rfl rfl
  · rw [shut opens]
    exact .refl named fast

theorem State.sendImage_rests {s : State} {p q : Printer} (named : s.queuesNamed) (fast : s.heldFast p)
    (gate : s.gate q = true) : State.Rests p s (s.sendImage q) := by
  have after := (State.sendImage_tests gate).fast fast
  obtain ⟨active, _, _, _, j, rest, job, b, queue, record, loaded, _⟩ := (s.gate_iff q).mp gate
  have other : q ≠ p := fun same => by
    rw [same, fast.1] at active
    cases active
  rw [State.sendImage_eq queue record loaded] at after ⊢
  obtain ⟨x, r, at_⟩ := named q j (by rw [queue]; exact List.mem_cons_self)
  cases record.symm.trans r
  refine ⟨fun r i m => ?_, after, rfl, Vector.at_put_other _ _ other, fun i m => ?_, fun i y h _ => ?_⟩
  · dsimp only at m ⊢
    have stood : i ∈ s.queues.at r := by
      rw [Vector.at_put] at m
      split at m
      · rename_i same
        subst same
        rw [queue]
        exact List.mem_cons_of_mem _ m
      · exact m
    obtain ⟨y, k, at'⟩ := named r i stood
    rw [Vector.at_put]
    split
    · rename_i own
      subst own
      cases record.symm.trans k
      exact ⟨_, rfl, at'⟩
    · exact ⟨y, k, at'⟩
  · dsimp only
    rw [Vector.at_put_other]
    intro own
    subst own
    obtain ⟨y, k, at'⟩ := named p j m
    cases record.symm.trans k
    exact other (at_.symm.trans at')
  · dsimp only
    rw [Vector.at_put]
    split
    · rename_i own
      subst own
      cases record.symm.trans h
      exact ⟨_, rfl, rfl, rfl, rfl⟩
    · exact ⟨y, h, rfl, rfl, rfl⟩

/-- The claim of a batch or of a session granted leaves the jobs and the queues. -/
theorem State.grant_queues (s : State) {c : Claim} (other : ∀ p, c ≠ .engine p) :
    (s.grant c).jobs = s.jobs ∧ (s.grant c).queues = s.queues := by
  unfold State.grant
  dsimp only
  cases c with
  | engine p => exact absurd rfl (other p)
  | batch number =>
    dsimp only
    split
    · rw [(State.hand_effect _ _ _).1.jobs, (State.hand_effect _ _ _).1.queues]
      exact ⟨rfl, rfl⟩
    · exact ⟨rfl, rfl⟩
  | session n =>
    dsimp only
    split
    · rw [(State.hand_effect _ _ _).1.jobs, (State.hand_effect _ _ _).1.queues]
      exact ⟨rfl, rfl⟩
    · exact ⟨rfl, rfl⟩

theorem State.grant_rests {s : State} {p : Printer} (named : s.queuesNamed) (fast : s.heldFast p) {c : Claim}
    (gate : ∀ q, c = .engine q → s.gate q = true) : State.Rests p s (s.grant c) := by
  have after := (State.grant_tests gate).fast fast
  have tables := (s.grant_holds c).2
  have standing : (∀ q, c ≠ .engine q) → State.Rests p s (s.grant c) := fun other =>
    .of_same named after tables (s.grant_queues other).1 (s.grant_queues other).2
  cases c with
  | engine q =>
    exact State.Rests.trans (t := (s.withdrawClaim (.engine q)).updateJournal fun j => { j with reserved := j.reserved + 2 })
      (.of_same named fast rfl rfl rfl) (State.sendImage_rests named fast (gate q rfl))
  | batch _ => exact standing fun _ => nofun
  | session _ => exact standing fun _ => nofun

/-- The tests leave the queue of a port held fast. -/
theorem State.settle_rests {s : State} {p : Printer} (named : s.queuesNamed) (fast : s.heldFast p) :
    State.Rests p s s.settle :=
  State.settle_induct (R := fun s t => s.queuesNamed → s.heldFast p → State.Rests p s t) (fun _ => .refl)
    (fun _ _ _ a b named fast => (a named fast).trans (b (a named fast).named (a named fast).fast))
    (fun _ q named fast => State.testAudit_rests named fast q) (fun _ q named fast => State.sendRoll_rests named fast q)
    (fun s q named fast => by
      rw [State.refreshClaim_rest]
      exact .of_same named fast rfl rfl rfl)
    (fun _ _ _ gate named fast => State.grant_rests named fast gate) s named fast

end Sys2Proof.Machine
end

