-- ==== Sys2Proof/Proofs/StatusTaken.lean ====
section
/-! SUPPORT. The one condition that takes an ACTIVE port to HELD, and an answered STATUS put together. -/

namespace Sys2Proof.Machine

/-! ### Filters that bring nothing about -/

theorem State.filterSteps_nothing {sensed : SensedSet} {p : Printer} {l : List Sensed} (once : l.Nodup) (s : State)
    (nothing : ∀ d ∈ l, (s.steps p sensed d).2 = .nothing) : ∃ m, l.foldl (State.filterStep sensed p) s = { s with monitor := m } := by
  induction l generalizing s with
  | nil => exact ⟨s.monitor, rfl⟩
  | cons c l ih =>
    obtain ⟨out, once⟩ := List.nodup_cons.mp once
    have step : State.filterStep sensed p s c = s.setFilter p c (s.steps p sensed c).1 := by
      rw [State.filterStep_eq, nothing c List.mem_cons_self]
    rw [List.foldl_cons, step]
    obtain ⟨m, rest⟩ := ih once (s.setFilter p c (s.steps p sensed c).1) fun d m => by
      have same : (s.setFilter p c (s.steps p sensed c).1).steps p sensed d = s.steps p sensed d := by
        unfold State.steps
        rw [State.setFilter_filter, if_neg fun h : c = d => out (h ▸ m)]
        rfl
      rw [same]
      exact nothing d (List.mem_cons_of_mem _ m)
    exact ⟨m, rest⟩

/-- A stock mismatch at a port that is not ACTIVE moves no job. -/
theorem State.stockMismatch_still {s : State} {p : Printer} (held : (s.ports.at p).state ≠ .active) :
    (s.stockMismatch p).jobs = s.jobs ∧ (s.stockMismatch p).queues = s.queues := by
  have notes := s.raise_notes (.printer p .stockMismatch)
  unfold State.stockMismatch
  dsimp only
  generalize s.raise (.printer p .stockMismatch) = r at *
  split
  · split
    · unfold State.addStockHold
      split
      · rw [State.addHold_still _ p _ (show ((r.setLoaded p _).ports.at p).state ≠ .active by
          rw [State.setLoaded_ports, notes.ports]
          exact held)]
        exact ⟨notes.jobs, notes.queues⟩
      · exact ⟨notes.jobs, notes.queues⟩
    · exact ⟨notes.jobs, notes.queues⟩
  · exact ⟨notes.jobs, notes.queues⟩

/-! ### The condition that begins -/

/-- Queues considered leave every queue with jobs whose records name it. -/
theorem State.Considers.queuesNamed {v u : State} {p : Printer} (h : v.Considers p (fun _ => true) none u)
    (named : v.queuesNamed) : u.queuesNamed := by
  intro q j m
  by_cases here : q = p
  · subst here
    rw [h.queue, List.mem_filter] at m
    obtain ⟨y, record, at_⟩ := named q j m.1
    refine ⟨y, ?_, at_⟩
    refine (h.stayed j m.1 y record (Or.inr ⟨?_, rfl⟩)).1
    have := m.2
    unfold State.sendsTo at this
    simpa [record] using this
  · rw [h.tails q here, List.mem_append] at m
    rcases m with m | m
    · obtain ⟨y, record, at_⟩ := named q j m
      refine ⟨y, ?_, at_⟩
      rw [h.others j fun k => ?_]
      · exact record
      · obtain ⟨z, record', at_'⟩ := named p j k
        cases record.symm.trans record'
        exact here (at_.symm.trans at_')
    · obtain ⟨k, sends⟩ := List.mem_filter.mp m
      obtain ⟨y, record, _⟩ := named p j k
      unfold State.sendsTo at sends
      rw [record] at sends
      have target : v.moveTarget y = some q := by simpa using sends
      exact ⟨_, (h.moved j k y q record rfl target).1, rfl⟩

/-- The one condition that begins at an ACTIVE port, before the tests: the port is held fast and its queue is
considered. -/
theorem State.sensedBegins_considers {s a : State} {p : Printer} {c : Sensed} {r : HoldReason} (reason : c.holdReason = some r)
    (placed : ∀ q, s.placed q) (active : (s.ports.at p).state = .active) (jobs : a.jobs = s.jobs) (queues : a.queues = s.queues)
    (tables : a.store.tables = s.store.tables) (stock : a.stock = s.stock)
    (ports : ∀ q, (a.ports.at q).state = (s.ports.at q).state) :
    s.Considers p (fun _ => true) none (a.sensedBegins p c) ∧ (a.sensedBegins p c).heldFast p ∧
      ((a.sensedBegins p c).ports.at p).holds r = true ∧ (a.sensedBegins p c).queuesNamed ∧
      (a.sensedBegins p c).store.tables = s.store.tables := by
  have notes := a.raise_notes (.sensed p c)
  have shape : a.sensedHeld p c = (a.raise (.sensed p c)).addHold p r := by
    unfold State.sensedHeld
    rw [reason]
  have others : ∀ q, ((a.raise (.sensed p c)).ports.at q).state = (s.ports.at q).state := fun q => by
    rw [notes.ports]
    exact ports q
  have holdsQueue := State.addHold_holdsQueue (v := s) (v' := a.raise (.sensed p c)) r (placed p).queuedAt
    (placed p).queue_nodup (notes.jobs.trans jobs) (notes.queues.trans queues) (by rw [notes.store, tables])
    fun q _ => ⟨others q, by
      unfold State.loaded
      rw [notes.stock, stock]⟩
  have considers := holdsQueue.1 ((others p).trans active)
  rw [← shape] at considers
  have held : ((a.sensedHeld p c).ports.at p).state = .held := by
    rw [shape, State.addHold_ports, Vector.at_put_same]
    exact if_pos ((others p).trans active)
  have on : ((a.sensedHeld p c).ports.at p).holds r = true := by
    rw [shape, State.addHold_ports, Vector.at_put_same]
    exact (((a.raise (.sensed p c)).ports.at p).under_holds r r).trans (if_pos rfl)
  have notAudit : r ≠ .audit := fun same => by
    subst same
    cases c <;> cases reason
  have named := considers.queuesNamed fun q => (placed q).queuedAt
  have tables' : (a.sensedHeld p c).store.tables = s.store.tables := by rw [(a.sensedHeld_stands p c).2, tables]
  rw [State.sensedBegins_eq]
  split
  · have still := State.stockMismatch_still (s := a.sensedHeld p c) (p := p) (by rw [held]; nofun)
    have follows := (a.sensedHeld p c).stockMismatch_follows p
    have mismatchTables := (State.stockMismatch_loud (.refl (a.sensedHeld p c)) p).keeps.tables
    have state : (((a.sensedHeld p c).stockMismatch p).ports.at p).state = .held := by
      rename_i cond
      obtain ⟨_, _, none_, some_⟩ := State.stockMismatch_effect (s := a.sensedHeld p c) cond.2.1
      by_cases mm : (a.sensedHeld p c).mismatches p
      · obtain ⟨b, loaded, fits⟩ := mm
        rw [(some_ b loaded fits).2.1, Vector.at_put_same]
        unfold Port.under
        dsimp only
        rw [held]
        rfl
      · rw [(none_ mm).2.1]
        exact held
    have on' := follows.port.added r notAudit on
    generalize (a.sensedHeld p c).stockMismatch p = u at *
    refine ⟨?_, ⟨state, r, notAudit, on'⟩, on', ?_, mismatchTables.trans tables'⟩
    · exact ((State.HoldsQueue.of_after (entersHeld := True) ⟨fun _ => considers, fun no => absurd trivial no⟩ still.1
        still.2).1 trivial)
    · intro q j m
      rw [still.2] at m
      rw [still.1]
      exact named q j m
  · exact ⟨considers, ⟨held, r, notAudit, on⟩, on, named, tables'⟩

/-- All the filter steps, where one condition begins and takes the port from ACTIVE to HELD (R12, R13). -/
theorem State.filterSteps_held {s : State} {sensed : SensedSet} {p : Printer} {c : Sensed} {r : HoldReason}
    (reason : c.holdReason = some r) (placed : ∀ q, s.placed q) (active : (s.ports.at p).state = .active)
    (begins : (s.steps p sensed c).2 = .begins) (only : ∀ d, d ≠ c → (s.steps p sensed d).2 = .nothing) :
    let t := allSensed.foldl (State.filterStep sensed p) s
    ∃ y, s.Considers p (fun _ => true) none y ∧ y.store.tables = s.store.tables ∧ State.Rests p y t ∧
      (t.ports.at p).holds r = true := by
  dsimp only
  obtain ⟨before, after, split⟩ := List.append_of_mem c.mem_all
  have once := allSensed_nodup
  rw [split] at once ⊢
  obtain ⟨left, right, apart⟩ := List.nodup_append.mp once
  have out : ∀ d ∈ before, d ≠ c := fun d m => apart d m c List.mem_cons_self
  have out' : ∀ d ∈ after, d ≠ c := fun d m same => (List.nodup_cons.mp right).1 (same ▸ m)
  rw [List.foldl_append, List.foldl_cons]
  have stays := State.filterSteps_stays sensed p before s
  obtain ⟨m, first⟩ := State.filterSteps_nothing left s fun d m => only d (out d m)
  generalize before.foldl (State.filterStep sensed p) s = a at *
  have steps : ∀ {v : State} d, v.filter p d = s.filter p d → v.store.tables = s.store.tables →
      v.steps p sensed d = s.steps p sensed d := fun d filter tables => by
    unfold State.steps State.printerEntry
    rw [filter, tables]
  have tablesA : a.store.tables = s.store.tables := by rw [first]
  have begins' : (a.steps p sensed c).2 = .begins := by
    rw [steps c (stays.filters c fun no => out c no rfl) tablesA]
    exact begins
  have stepped := State.filterStep_stays sensed p a c
  have loud := State.filterStep_loud (.refl a) sensed p c
  have shape : State.filterStep sensed p a c = ((a.setFilter p c (a.steps p sensed c).1).sensedBegins p c).settle := by
    rw [State.filterStep_eq, begins']
  obtain ⟨considers, fast, on, named, tables⟩ := State.sensedBegins_considers
    (a := a.setFilter p c (a.steps p sensed c).1) reason placed active (by rw [first]; rfl) (by rw [first]; rfl) tablesA
    (by rw [first]; rfl) (fun q => by rw [first]; rfl)
  generalize (a.setFilter p c (a.steps p sensed c).1).sensedBegins p c = y at *
  have rests := State.settle_rests named fast
  have tested := y.settle_tests.ports p
  rw [← shape] at rests tested
  generalize State.filterStep sensed p a c = w at *
  obtain ⟨m', last⟩ := State.filterSteps_nothing (List.nodup_cons.mp right).2 w (sensed := sensed) (p := p) fun d m => by
    rw [steps d ?_ (loud.keeps.tables.trans tablesA)]
    · exact only d (out' d m)
    · exact (stepped.filters d (out' d m)).trans
        (stays.filters d fun is => apart d is d (List.mem_cons_of_mem _ m) rfl)
  rw [last]
  refine ⟨y, considers, tables, rests.trans (.of_same rests.named rests.fast rfl rfl rfl), ?_⟩
  have notAudit : r ≠ .audit := fun same => by
    subst same
    cases c <;> cases reason
  exact (tested.holds r notAudit).trans on

/-! ### The steps together -/

/-- The port as the poll's answer leaves it. -/
def State.answering (s : State) (p : Printer) (st : StatusReport) : State :=
  s.updatePort p fun x => { x with replyTimer := none, unanswered := 0, lastStatus := some st }

/-- An answered STATUS before the poll interval starts again. -/
def State.statusTaken (s : State) (p : Printer) (st : StatusReport) : State :=
  let v := allSensed.foldl (State.filterStep st.sensed p) (s.answering p st)
  ((v.reconcile p st).impliedJam p st).clearLatch p st

theorem State.takeStatus_eq (s : State) (p : Printer) (st : StatusReport) :
    s.takeStatus p st = if ((s.statusTaken p st).ports.at p).attached then
        (s.statusTaken p st).updatePort p fun x =>
          { x with pollTimer := some ((s.statusTaken p st).printerEntry p).pollInterval }
      else s.statusTaken p st := rfl

theorem exec_status {s : State} {p : Printer} {body : List Byte} {st : StatusReport} (takes_ : s.takesReports p)
    (polled : (s.ports.at p).replyTimer ≠ none) (read : readStatus body = some st) :
    exec (.status p body) s = .next (s.takeStatus p st) := by
  have ready : (s.isRunning && (s.ports.at p).attached) = true := by simp [takes_.running, takes_.attached]
  refine congrArg Host.Outcome.next ?_
  rw [if_pos ready, read]
  exact if_pos (Option.isSome_iff_ne_none.mpr polled)

/-- The poll interval starts again, and nothing else changes, unless the port has failed. -/
theorem State.takeStatus_polls (s : State) (p : Printer) (st : StatusReport) :
    let u := s.statusTaken p st
    let t := s.takeStatus p st
    t = { u with ports := t.ports } ∧ (∀ q, q ≠ p → t.ports.at q = u.ports.at q) ∧
      (∃ timer, t.ports.at p = { u.ports.at p with pollTimer := timer }) ∧
      ((u.ports.at p).attached = true → (t.ports.at p).pollTimer = some (u.printerEntry p).pollInterval) := by
  dsimp only
  rw [State.takeStatus_eq]
  split
  · refine ⟨rfl, fun q other => ?_, ⟨some ((s.statusTaken p st).printerEntry p).pollInterval, ?_⟩, fun _ => ?_⟩
    · rw [State.updatePort_ports, Vector.at_put_other _ _ (Ne.symm other)]
    · rw [State.updatePort_ports, Vector.at_put_same]
    · rw [State.updatePort_ports, Vector.at_put_same]
  · rename_i no
    exact ⟨rfl, fun _ _ => rfl, ⟨(_ : Port).pollTimer, rfl⟩, fun yes => absurd yes no⟩

/-- With nothing named and no jam implied, reconciliation does nothing (R61, R62). -/
theorem State.reconciled_nothing {s : State} {p : Printer} {st : StatusReport} (fed : st.fedThrough = none)
    (presented : st.presentedThrough = none) (quiet : st.held ≠ 0 ∨ st.sensed.at Sensed.jam.place = false) :
    (s.reconcile p st).impliedJam p st = s := by
  have none_ : ∀ x : Port, x.through none = 0 := fun _ => rfl
  have reconciled : s.reconcile p st = s := by
    unfold State.reconcile State.reconcileTicket State.reconcileRoll
    dsimp only
    rw [fed, presented]
    simp only [none_, List.range_zero, List.foldl_nil, ite_self]
  rw [reconciled]
  unfold State.impliedJam
  dsimp only
  rw [if_neg]
  rintro ⟨_, empty, jam, _⟩
  rcases quiet with h | h
  · exact h empty
  · rw [h] at jam
    cases jam

/-- The latch leaves the queue of a port held fast by another condition than JAM, or by JAM sensed still. -/
theorem State.clearLatch_rests {s : State} {p : Printer} {st : StatusReport} {c : Sensed} {r : HoldReason}
    (reason : c.holdReason = some r) (on : (s.ports.at p).holds r = true) (held : (s.ports.at p).state = .held)
    (jam : c = .jam → st.sensed.at Sensed.jam.place = true) (named : s.queuesNamed) :
    State.Rests p s (s.clearLatch p st) := by
  have notAudit : r ≠ .audit := fun same => by
    subst same
    cases c <;> cases reason
  have fast : s.heldFast p := ⟨held, r, notAudit, on⟩
  unfold State.clearLatch
  dsimp only
  cases sensed : st.sensed.at Sensed.jam.place with
  | true =>
    rw [if_pos rfl]
    exact .refl named fast
  | false =>
    have other : r ≠ .jam := fun same => by
      have is : c = .jam := Sensed.holdReason_injective reason (same ▸ rfl)
      rw [jam is] at sensed
      cases sensed
    have cleared : State.Rests p s (s.updatePort p fun x => { x with jamLatch := false }) := by
      refine .of_same named ?_ rfl rfl rfl
      unfold State.heldFast
      rw [State.updatePort_ports, Vector.at_put_same]
      exact fast
    rw [if_neg Bool.false_ne_true]
    have port : (s.updatePort p fun x => { x with jamLatch := false }).ports.at p = { s.ports.at p with jamLatch := false } :=
      Vector.at_put_same ..
    split
    · exact cleared
    · refine cleared.trans ?_
      generalize (s.updatePort p fun x => { x with jamLatch := false }) = v at *
      have removed : State.Rests p v (v.removeHold p .jam) := by
        rw [State.removeHold_rest]
        refine .of_same cleared.named ?_ rfl rfl rfl
        have on' : (v.ports.at p).holds r = true := by
          rw [port]
          exact on
        have kept : ((v.ports.at p).relieved .jam).holds r = true := by
          rw [Port.relieved_holds, if_neg (Ne.symm other)]
          exact on'
        refine ⟨?_, r, notAudit, ?_⟩
        · rw [Vector.at_put_same]
          unfold Port.relieved
          dsimp only
          rw [if_neg]
          · rw [port]
            exact held
          · rintro ⟨_, empty⟩
            rw [(Port.put_eq_noHolds_iff _ _).mp empty r other] at on'
            cases on'
        · rw [Vector.at_put_same]
          exact kept
      exact removed.trans (State.settle_rests removed.named removed.fast)

end Sys2Proof.Machine
end

