-- ==== Sys2Proof/Proofs/StatusSettled.lean ====
section
/-! SUPPORT. An answered STATUS at every port. -/

namespace Sys2Proof.Machine

/-- What an answered STATUS leaves before the poll interval starts again, from the state that the filters left. -/
structure State.StatusEnds (p : Printer) (st : StatusReport) (v u : State) : Prop where
  stays : State.Stays (· = .jam) p v u
  filters : ∀ c, u.filter p c = v.filter p c
  faults : ∀ c : Sensed, u.monitor.faults.filter (fun f => f.condition == .sensed p c) =
    v.monitor.faults.filter fun f => f.condition == .sensed p c
  sensed : st.sensed.at Sensed.jam.place = true → State.Follows p v u
  unsensed : st.sensed.at Sensed.jam.place = false → (u.ports.at p).jamLatch = false ∧
    ((v.filter p .jam).present = false → (u.ports.at p).holds .jam = false)

theorem State.statusEnds (p : Printer) (st : StatusReport) (v : State) :
    State.StatusEnds p st v (((v.reconcile p st).impliedJam p st).clearLatch p st) := by
  have follows := (v.reconcile_follows p st).trans (State.impliedJam_follows (v.reconcile p st) p st)
  generalize (v.reconcile p st).impliedJam p st = x at *
  obtain ⟨monitor, stays, sensed, unsensed⟩ := x.clearLatch_result p st
  refine ⟨(follows.stays _).trans stays, fun c => ?_, fun c => ?_, fun h => ?_, fun h => ?_⟩
  · exact (State.filter_congr (by rw [monitor]) p c).trans (State.filter_congr follows.filters p c)
  · rw [monitor]
    exact follows.faults c
  · rw [sensed h]
    exact follows
  · obtain ⟨latch, hold⟩ := unsensed h
    exact ⟨latch, fun none_ => hold ((congrArg Filter.present (State.filter_congr follows.filters p .jam)).trans none_)⟩

theorem State.statusTaken_loud (s : State) (p : Printer) (st : StatusReport) : s.Loud (s.statusTaken p st) :=
  State.clearLatch_loud (State.impliedJam_loud (State.reconcile_loud
    (((State.Loud.refl s).quiet (State.updatePort_quiet (.refl s) p _)).trans (State.filterSteps_loud st.sensed p allSensed _))
      p st) p st) p st

/-- A condition begins only where it is sensed (Table 7-2). -/
theorem Filter.step_begins {f : Filter} {depth : Nat} {sensed : Bool} (h : (f.step depth sensed).2 = .begins) : sensed = true := by
  unfold Filter.step at h
  split at h
  · cases h
  · split at h
    · cases sensed with
      | true => rfl
      | false => cases h
    · cases h

/-- The queue after the one condition that takes the port from ACTIVE to HELD, seen from the state before the STATUS. -/
theorem State.Considers.settled {s y t : State} {p : Printer} (considers : s.Considers p (fun _ => true) none y)
    (tables : y.store.tables = s.store.tables) (rests : State.Rests p y t) (named : s.queuedAt p) :
    let target (j : JobNumber) : Option Printer := (s.jobs.at j).bind fun y => s.moveTarget y
    t.queues.at p = (s.queues.at p).filter (fun j => target j == none) ∧
      ∀ j ∈ s.queues.at p, ∀ y, s.jobs.at j = some y →
        (target j = none → t.jobs.at j = some y) ∧
        ∀ q, target j = some q → ∃ z, t.jobs.at j = some z ∧ z.printer = q ∧ z.retry = 0 ∧ z.particulars = y.particulars := by
  intro target
  have sends : ∀ j, s.sendsTo (fun _ => true) j = target j := fun j => rfl
  refine ⟨?_, fun j m x record => ⟨fun none_ => ?_, fun q yes => ?_⟩⟩
  · rw [rests.queue, considers.queue]
    refine List.filter_congr fun j _ => ?_
    rw [sends]
    simp
  · have none' : s.moveTarget x = none := by
      have : target j = s.moveTarget x := by
        show (s.jobs.at j).bind _ = _
        rw [record]
        rfl
      rw [← this]
      exact none_
    obtain ⟨stayed, stands⟩ := considers.stayed j m x record (Or.inr ⟨none', rfl⟩)
    have here : j ∈ y.queues.at p := stands
    rw [rests.stays j here, stayed]
  · have target' : s.moveTarget x = some q := by
      have : target j = s.moveTarget x := by
        show (s.jobs.at j).bind _ = _
        rw [record]
        rfl
      rw [← this]
      exact yes
    have moved := (considers.moved j m x q record rfl target').1
    obtain ⟨x', record', at_⟩ := named j m
    cases record.symm.trans record'
    obtain ⟨differ, route, _⟩ := (s.moveTarget_iff x q).mp target'
    obtain ⟨z, hz, printer, retry, same⟩ := rests.moved j { x with printer := q, retry := 0 } moved fun r other => by
      have iff := (RouteEntry.other_eq_some_iff (s.routeEntry x.origin.window x.stockType) q r).mp (by
        have same : y.otherPrinter { x with printer := q, retry := 0 } = s.otherPrinter { x with printer := q, retry := 0 } :=
          State.otherPrinter_congr tables rfl rfl
        rw [same] at other
        exact (Option.filter_eq_some_iff.mp other).1)
      obtain ⟨apart, places⟩ := iff
      rw [at_] at route differ
      rcases route with ⟨first, second⟩ | ⟨second, first⟩
      · rcases places with ⟨a, b⟩ | ⟨a, b⟩
        · exact absurd (Option.some.inj (first.symm.trans a)) (Ne.symm differ)
        · exact (Option.some.inj (first.symm.trans b)).symm
      · rcases places with ⟨a, b⟩ | ⟨a, b⟩
        · exact (Option.some.inj (second.symm.trans b)).symm
        · exact absurd (Option.some.inj (second.symm.trans a)) (Ne.symm differ)
    exact ⟨z, hz, printer, retry, same⟩

end Sys2Proof.Machine

open Sys2Proof Sys2Proof.Machine

/-- Settles O51: the filters step one after another and leave one another's conditions alone; reconciliation, the implied
jam, the latch and the tests leave them all. -/
theorem statusTaken : Obligations.StatusTaken := by
  intro p body st s takes_ polled read step
  have loud := State.takeStatus_loud (.refl s) p st
  obtain ⟨shape, _, ⟨timer, port⟩, polls⟩ := s.takeStatus_polls p st
  have uloud := s.statusTaken_loud p st
  have results := fun c => State.filterSteps_result (s := s.answering p st) takes_.1 st.sensed p c
  have mismatch := fun b => State.filterSteps_paperOut (s := s.answering p st) (sensed := st.sensed) (p := p) (b := b)
  have ends : State.StatusEnds p st (allSensed.foldl (State.filterStep st.sensed p) (s.answering p st)) (s.statusTaken p st) :=
    State.statusEnds p st _
  have stays := State.filterSteps_stays st.sensed p allSensed (s.answering p st)
  have floud := State.filterSteps_loud st.sensed p allSensed (s.answering p st)
  have answered : (s.answering p st).ports.at p = { s.ports.at p with replyTimer := none, unanswered := 0, lastStatus := some st } :=
    Vector.at_put_same ..
  rw [exec_status takes_ polled read]
  generalize s.takeStatus p st = t at *
  have tmonitor : t.monitor = (s.statusTaken p st).monitor := by rw [shape]
  have tloaded : t.loaded p = (s.statusTaken p st).loaded p := by rw [shape]; rfl
  have ttables : t.store.tables = s.store.tables := loud.keeps.tables
  have whole : State.Stays (fun _ => True) p (s.answering p st) (s.statusTaken p st) :=
    (stays.mono fun _ _ => trivial).trans (ends.stays.mono fun _ _ => trivial)
  have uport := whole.port
  rw [answered] at uport
  have holds : ∀ r, (t.ports.at p).holds r = ((s.statusTaken p st).ports.at p).holds r := fun r => by rw [port]; rfl
  have filter : ∀ c, t.filter p c = (step c).1 := fun c => by
    have first := (results c).1
    have second := ends.filters c
    have same : t.filter p c = (s.statusTaken p st).filter p c := State.filter_congr (by rw [tmonitor]) p c
    exact same.trans (second.trans first)
  have tfaults : ∀ c : Sensed, t.monitor.faults.filter (fun f => f.condition == .sensed p c) =
      (allSensed.foldl (State.filterStep st.sensed p) (s.answering p st)).monitor.faults.filter fun f =>
        f.condition == .sensed p c := fun c => by
    rw [tmonitor]
    exact ends.faults c
  have jamSensed : (step .jam).2 = .begins → st.sensed.at Sensed.jam.place = true := fun h => Filter.step_begins h
  refine ⟨t, rfl, ?_, ?_, ?_, fun alive => ?_, filter, fun c begins => ?_, fun c is => ?_, fun c r own other => ?_,
    fun quiet => ?_, fun begins => ?_, ?_, fun b begins ticket loaded some_ => ?_, fun active held => ?_,
    fun c reason begins only active fed presented quiet placed => ?_, loud.keeps, loud.books⟩
  · rw [port]
    exact uport.status
  · rw [port]
    exact uport.reply rfl
  · rw [port]
    exact uport.unanswered
  · have engaged : ((s.statusTaken p st).ports.at p).engaged := uport.engaged (takes_.2.imp id Or.inl)
    have state : (t.ports.at p).state = ((s.statusTaken p st).ports.at p).state := by rw [port]
    have entry : (s.statusTaken p st).printerEntry p = s.printerEntry p := by
      unfold State.printerEntry
      rw [uloud.keeps.tables]
    rw [polls, entry]
    unfold Port.attached
    rcases engaged with h | h | h
    · rw [h]
      rfl
    · rw [h]
      rfl
    · exact absurd (state.trans h) alive
  · have begun := (results c).2.1 begins
    have tables : t.store.tables = (allSensed.foldl (State.filterStep st.sensed p) (s.answering p st)).store.tables :=
      ttables.trans floud.keeps.tables.symm
    obtain ⟨f, m, is, present, priority⟩ := State.begun_congr tables (tfaults c) begun
    refine ⟨f, m, is, present, priority.trans ?_⟩
    unfold State.priorityOf
    rw [ttables]
  · exact State.ended_congr (tfaults c) ((results c).2.2.1 is)
  · rw [holds, ends.stays.port.stands r (Sensed.holdReason_tight own other) (fun d is h => by
      subst is
      exact other (Sensed.holdReason_injective own h)), (results c).2.2.2.2 r own other]
    have first : ((s.answering p st).ports.at p).holds r = (s.ports.at p).holds r := by rw [answered]; rfl
    rw [first]
    rfl
  · obtain ⟨latch, hold⟩ := ends.unsensed quiet
    refine ⟨by rw [port]; exact latch, fun absent => ?_⟩
    rw [holds]
    refine hold ?_
    rw [(results .jam).1]
    exact absent
  · rw [holds]
    exact (ends.sensed (jamSensed begins)).port.added .jam (by decide) ((results .jam).2.2.2.1 .jam rfl begins)
  · rintro r rfl
    rw [holds]
    refine (uport.stands .supervisor rfl fun c _ h => ?_).trans rfl
    cases c <;> cases h
  · obtain ⟨mark, c, now, id_, un⟩ := mismatch b begins ticket loaded some_
    obtain ⟨d, later, id_', un'⟩ := ends.stays.batch c now
    rw [tmonitor, tloaded]
    refine ⟨ends.stays.mark mark, d, later, id_'.trans id_, fun fits => ?_⟩
    obtain ⟨state, on⟩ := un fits
    refine ⟨un' state, ?_⟩
    rw [holds]
    exact ends.stays.port.added _ (by decide) (fun d is h => by subst is; cases h) on
  · have rightly : ((s.statusTaken p st).ports.at p).heldRightly := uport.rightly ⟨active, held⟩
    have engaged : ((s.statusTaken p st).ports.at p).engaged := uport.engaged (takes_.2.imp id Or.inl)
    rw [port]
    rcases engaged with h | h | h
    · exact Or.inl ⟨h, rightly.1 h⟩
    · exact Or.inr (Or.inl ⟨h, rightly.2 h⟩)
    · exact Or.inr (Or.inr h)
  · obtain ⟨r, reason⟩ := Option.ne_none_iff_exists'.mp reason
    have entries : ∀ q, ((s.answering p st).ports.at q).entries = (s.ports.at q).entries ∧
        ((s.answering p st).ports.at q).state = (s.ports.at q).state := fun q => by
      show ((s.ports.put p _).at q).entries = _ ∧ ((s.ports.put p _).at q).state = _
      rw [Vector.at_put]
      split
      · rename_i same
        subst same
        exact ⟨rfl, rfl⟩
      · exact ⟨rfl, rfl⟩
    have placed' : ∀ q, (s.answering p st).placed q := fun q => by
      unfold State.placed State.jobsAt State.standsAt
      rw [(entries q).1]
      exact placed q
    obtain ⟨y, considers, tables, rests, on⟩ := State.filterSteps_held (s := s.answering p st) (sensed := st.sensed) (p := p)
      (c := c) reason placed' ((entries p).2.trans active) begins fun d other => only d other
    have latch := State.clearLatch_rests (st := st) reason on rests.fast.1 (fun is => jamSensed (is ▸ begins)) rests.named
    have nothing := State.reconciled_nothing (s := allSensed.foldl (State.filterStep st.sensed p) (s.answering p st)) (p := p)
      fed presented quiet
    have last : State.Rests p y (s.statusTaken p st) := by
      refine rests.trans ?_
      unfold State.statusTaken
      dsimp only
      rw [nothing]
      exact latch
    have last : State.Rests p y t := last.trans (.of_same last.named ⟨by rw [port]; exact last.fast.1, by
      simp only [holds]
      exact last.fast.2⟩ (by rw [shape]) (by rw [shape]) (by rw [shape]))
    have settled := considers.settled tables last (placed' p).queuedAt
    have targets : ∀ y, (s.answering p st).moveTarget y = s.moveTarget y := fun y =>
      State.moveTarget_congr y rfl fun q _ => State.sendsType_congr (entries q).2 rfl _
    simp only [targets] at settled
    exact ⟨last.fast.1, settled⟩
end

