-- ==== Sys2Proof/Proofs/EntriesApplied.lean ====
section
/-! SUPPORT. A new printer entry at the port itself: the conditions that end, the filters, and UNUSED or an attach (R69,
R131, R136). -/

namespace Sys2Proof.Machine

/-! ### Filters changed one after the other -/

/-- A pass over filters of a port that changes each one of them and no other. -/
theorem foldl_filters {p : Printer} {f : State → Sensed → State} {g : Filter → Filter}
    (own : ∀ s c, (f s c).filter p c = g (s.filter p c)) (others : ∀ s c d, d ≠ c → (f s c).filter p d = s.filter p d)
    {l : List Sensed} (once : l.Nodup) (s : State) (d : Sensed) :
    (l.foldl f s).filter p d = if d ∈ l then g (s.filter p d) else s.filter p d := by
  induction l generalizing s with
  | nil => simp
  | cons c l ih =>
    obtain ⟨fresh, once⟩ := List.nodup_cons.mp once
    rw [List.foldl_cons, ih once]
    by_cases same : d = c
    · subst same
      rw [if_neg fresh, own, if_pos List.mem_cons_self]
    · rw [others s c d same]
      simp [same]

theorem mem_allSensed (c : Sensed) : c ∈ allSensed := by cases c <;> decide

/-- What the passes over one port's filters leave. -/
structure State.AtFilters (p : Printer) (s t : State) : Prop where
  rest : t = { s with ports := t.ports, monitor := t.monitor }
  ports : ∀ q, q ≠ p → t.ports.at q = s.ports.at q
  filters : ∀ q, q ≠ p → t.monitor.filters.at q = s.monitor.filters.at q
  lasting : t.monitor.lasting = s.monitor.lasting

theorem State.AtFilters.refl (p : Printer) (s : State) : State.AtFilters p s s := ⟨rfl, fun _ _ => rfl, fun _ _ => rfl, rfl⟩

theorem State.AtFilters.trans {p : Printer} {s t u : State} (a : State.AtFilters p s t) (b : State.AtFilters p t u) :
    State.AtFilters p s u where
  rest := by rw [b.rest, a.rest]
  ports q other := (b.ports q other).trans (a.ports q other)
  filters q other := (b.filters q other).trans (a.filters q other)
  lasting := b.lasting.trans a.lasting

theorem State.AtFilters.foldl {p : Printer} {α : Type} {f : State → α → State}
    (each : ∀ s a, State.AtFilters p s (f s a)) (l : List α) (s : State) : State.AtFilters p s (l.foldl f s) := by
  induction l generalizing s with
  | nil => exact .refl p s
  | cons a l ih => exact (each s a).trans (ih _)

theorem State.setFilter_at (s : State) (p : Printer) (c : Sensed) (f : Filter) : State.AtFilters p s (s.setFilter p c f) where
  rest := rfl
  ports _ _ := rfl
  filters _ other := Vector.at_put_other _ _ (Ne.symm other)
  lasting := rfl

theorem State.clearRuns_at (s : State) (p : Printer) : State.AtFilters p s (s.clearRuns p) ∧
    (s.clearRuns p).ports = s.ports ∧ ∀ c, (s.clearRuns p).filter p c = { s.filter p c with run := 0 } := by
  refine ⟨.foldl (fun t c => t.setFilter_at p c _) _ s, ?_, fun c => ?_⟩
  · unfold State.clearRuns
    generalize allSensed = l
    induction l generalizing s with
    | nil => rfl
    | cons c l ih => exact (ih (s.setFilter p c _)).trans rfl
  · unfold State.clearRuns
    rw [foldl_filters (g := fun f => { f with run := 0 }) (fun s c => by rw [State.setFilter_filter, if_pos rfl])
      (fun s c d other => by rw [State.setFilter_filter, if_neg other.symm]) allSensed_nodup s c, if_pos (mem_allSensed c)]

/-! ### The filtered conditions of a port set to OFF -/

theorem State.endCondition_sensed_rest (s : State) (p : Printer) (c : Sensed) :
    s.endCondition (.sensed p c) = { s with monitor := (s.endCondition (.sensed p c)).monitor } := by
  unfold State.endCondition State.report State.markPresent
  dsimp only
  split <;> rfl

theorem State.endCondition_sensed_lasting (s : State) (p : Printer) (c : Sensed) :
    (s.endCondition (.sensed p c)).monitor.lasting = s.monitor.lasting := by
  unfold State.endCondition
  rw [State.report_lasting]
  rfl

/-- A condition whose ending takes its hold reason away: one that is present, JAM with its latch clear alone (R135, R51). -/
def State.releases (s : State) (p : Printer) (c : Sensed) : Prop :=
  (s.filter p c).present = true ∧ (c = .jam → (s.ports.at p).jamLatch = false)

/-- The end of a filtered condition at a port that is not HELD. -/
theorem State.sensedEnds_idle {s : State} {p : Printer} (idle : (s.ports.at p).state ≠ .held) (c : Sensed) :
    State.AtFilters p s (s.sensedEnds p c) ∧ (s.sensedEnds p c).monitor.filters = s.monitor.filters ∧
      (s.sensedEnds p c).ports.at p = { s.ports.at p with hold := ((s.sensedEnds p c).ports.at p).hold } ∧
      ∀ r, ((s.sensedEnds p c).ports.at p).holds r = true ↔ (s.ports.at p).holds r = true ∧
        ((c = .jam → (s.ports.at p).jamLatch = false) → c.holdReason ≠ some r) := by
  have rest := s.endCondition_sensed_rest p c
  have filters := s.endCondition_filters (.sensed p c)
  have lasting := s.endCondition_sensed_lasting p c
  have ports : (s.endCondition (.sensed p c)).ports = s.ports := by rw [rest]
  unfold State.sensedEnds
  dsimp only
  generalize s.endCondition (.sensed p c) = t at *
  have still : State.AtFilters p s t :=
    ⟨by rw [rest], fun q _ => by rw [ports], fun q _ => by rw [filters], lasting⟩
  split
  · rename_i r reason
    split
    · rename_i latched
      rw [ports] at latched
      refine ⟨still, filters, by rw [ports], fun q => ⟨fun on => ⟨by rw [← ports]; exact on, fun clear => ?_⟩, fun h => ?_⟩⟩
      · rw [clear latched.1] at latched
        cases latched.2
      · rw [ports]
        exact h.1
    · rename_i clear
      have port : (t.removeHold p r).ports.at p = { s.ports.at p with hold := ((t.removeHold p r).ports.at p).hold } := by
        rw [State.removeHold_rest]
        dsimp only
        rw [Vector.at_put_same, ports]
        unfold Port.relieved
        dsimp only
        rw [if_neg fun h => idle h.1]
      refine ⟨still.trans ?_, ?_, port, fun q => ?_⟩
      · rw [State.removeHold_rest]
        exact ⟨rfl, fun q other => Vector.at_put_other _ _ (Ne.symm other), fun _ _ => rfl, rfl⟩
      · rw [State.removeHold_rest]
        exact filters
      · rw [State.removeHold_rest]
        show ((t.ports.put p _).at p).holds q = true ↔ _
        rw [Vector.at_put_same, Port.relieved_holds, ports]
        rw [ports] at clear
        have free : c = .jam → (s.ports.at p).jamLatch = false := fun jam => by
          simpa [jam] using clear
        by_cases same : r = q
        · subst same
          rw [if_pos rfl]
          exact ⟨fun off => (nomatch off), fun h => absurd reason (h.2 free)⟩
        · rw [if_neg same]
          exact ⟨fun on => ⟨on, fun _ own => same (by cases reason.symm.trans own; rfl)⟩, fun h => h.1⟩
  · rename_i none_
    refine ⟨still, filters, by rw [ports], fun q => ?_⟩
    rw [ports, none_]
    exact ⟨fun on => ⟨on, fun _ h => by cases h⟩, fun h => h.1⟩

/-- One condition of the pass: its filter becomes absent, and if it was present it ends. -/
def State.absentFilter (p : Printer) (s : State) (c : Sensed) : State :=
  if (s.filter p c).present then (s.setFilter p c { present := false, run := 0 }).sensedEnds p c
  else s.setFilter p c { present := false, run := 0 }

theorem State.absentFilter_idle {s : State} {p : Printer} (idle : (s.ports.at p).state ≠ .held) (c : Sensed) :
    let t := State.absentFilter p s c
    State.AtFilters p s t ∧ (∀ d, t.filter p d = if c = d then ({ present := false, run := 0 } : Filter) else s.filter p d) ∧
      t.ports.at p = { s.ports.at p with hold := (t.ports.at p).hold } ∧
      ∀ r, (t.ports.at p).holds r = true ↔ (s.ports.at p).holds r = true ∧ (s.releases p c → c.holdReason ≠ some r) := by
  have set := s.setFilter_at p c { present := false, run := 0 }
  have filter := fun d => s.setFilter_filter p c d { present := false, run := 0 }
  have ports : (s.setFilter p c { present := false, run := 0 }).ports = s.ports := rfl
  unfold State.absentFilter State.releases
  generalize s.setFilter p c { present := false, run := 0 } = v at *
  by_cases present : (s.filter p c).present = true
  · rw [if_pos present]
    obtain ⟨atFilters, filters, port, holds⟩ := State.sensedEnds_idle (s := v) (p := p) (by rw [ports]; exact idle) c
    rw [ports] at port holds
    refine ⟨set.trans atFilters, fun d => by rw [State.filter_congr filters, filter], port, fun r => ?_⟩
    rw [holds]
    exact ⟨fun h => ⟨h.1, fun g => h.2 g.2⟩, fun h => ⟨h.1, fun g => h.2 ⟨present, g⟩⟩⟩
  · rw [if_neg present]
    refine ⟨set, filter, by rw [ports], fun r => ?_⟩
    rw [ports]
    exact ⟨fun on => ⟨on, fun h => absurd h.1 present⟩, fun h => h.1⟩

/-- A port set to OFF: its filters become absent, and the hold reasons of the conditions that end go (R136, R69). -/
theorem State.endFiltered_idle {s : State} {p : Printer} (idle : (s.ports.at p).state ≠ .held) :
    let t := s.endFiltered p
    State.AtFilters p s t ∧ (∀ c, t.filter p c = { present := false, run := 0 }) ∧
      t.ports.at p = { s.ports.at p with hold := (t.ports.at p).hold } ∧
      ∀ r, (t.ports.at p).holds r = true ↔ (s.ports.at p).holds r = true ∧
        ∀ c, s.releases p c → c.holdReason ≠ some r := by
  have pass : ∀ (l : List Sensed), l.Nodup → ∀ v : State, (v.ports.at p).state ≠ .held →
      let t := l.foldl (State.absentFilter p) v
      State.AtFilters p v t ∧ (∀ d, t.filter p d = if d ∈ l then { present := false, run := 0 } else v.filter p d) ∧
        t.ports.at p = { v.ports.at p with hold := (t.ports.at p).hold } ∧
        ∀ r, (t.ports.at p).holds r = true ↔ (v.ports.at p).holds r = true ∧
          ∀ c ∈ l, v.releases p c → c.holdReason ≠ some r := by
    intro l
    induction l with
    | nil => exact fun _ v _ => ⟨.refl p v, fun d => by simp, rfl, fun r => by simp⟩
    | cons c l ih =>
      intro once v idle
      obtain ⟨fresh, once⟩ := List.nodup_cons.mp once
      obtain ⟨first, filter, port, holds⟩ := State.absentFilter_idle idle c
      rw [List.foldl_cons]
      generalize State.absentFilter p v c = w at *
      obtain ⟨second, filter', port', holds'⟩ := ih once w (by rw [port]; exact idle)
      generalize l.foldl (State.absentFilter p) w = t at *
      have releases : ∀ d ∈ l, (w.releases p d ↔ v.releases p d) := fun d m => by
        unfold State.releases
        rw [filter, if_neg fun same : c = d => fresh (same ▸ m), port]
      refine ⟨first.trans second, fun d => ?_, ?_, fun r => ?_⟩
      · rw [filter', filter]
        by_cases same : c = d
        · simp [same]
        · simp [same, Ne.symm same]
      · rw [port', port]
      · rw [holds', holds]
        constructor
        · rintro ⟨⟨on, own⟩, rest⟩
          refine ⟨on, fun d m => ?_⟩
          rcases List.mem_cons.mp m with rfl | m
          · exact own
          · exact fun g => rest d m ((releases d m).mpr g)
        · rintro ⟨on, all⟩
          exact ⟨⟨on, all c List.mem_cons_self⟩, fun d m g => all d (List.mem_cons_of_mem c m) ((releases d m).mp g)⟩
  obtain ⟨atFilters, filter, port, holds⟩ := pass allSensed allSensed_nodup s idle
  refine ⟨atFilters, fun c => (filter c).trans (if_pos (mem_allSensed c)), port, fun r => (holds r).trans ?_⟩
  exact ⟨fun h => ⟨h.1, fun c => h.2 c (mem_allSensed c)⟩, fun h => ⟨h.1, fun c _ => h.2 c⟩⟩

/-! ### Lasting conditions that end -/

theorem Lasting.protocol_ended (x : Lasting) :
    (if x.protocol then x.set .protocol false else x) = { x with protocol := false } := by
  split
  · rfl
  · rename_i off
    rw [← Bool.eq_false_of_not_eq_true off]

theorem Lasting.overrun_ended (x : Lasting) :
    (if x.overrun then x.set .overrun false else x) = { x with overrun := false } := by
  split
  · rfl
  · rename_i off
    rw [← Bool.eq_false_of_not_eq_true off]

theorem Lasting.noAnswer_ended (x : Lasting) :
    (if x.noAnswer then x.set .noAnswer false else x) = { x with noAnswer := false } := by
  split
  · rfl
  · rename_i off
    rw [← Bool.eq_false_of_not_eq_true off]

/-- The marks of a port's lasting conditions: one ends if it was present. -/
theorem State.endPresent_effect (s : State) (p : Printer) (c : PrinterFault) (present : Bool) :
    let t := s.endPresent p c present
    t = { s with monitor := t.monitor } ∧ t.monitor.filters = s.monitor.filters ∧
      t.monitor.lasting.at p = (if present then (s.monitor.lasting.at p).set c false else s.monitor.lasting.at p) ∧
      ∀ q, q ≠ p → t.monitor.lasting.at q = s.monitor.lasting.at q := by
  unfold State.endPresent
  cases present with
  | true =>
    have lasting := s.endCondition_lasting p c
    exact ⟨s.endCondition_rest p c, s.endCondition_filters _, by rw [if_pos rfl, lasting, Vector.at_put_same]; rfl,
      fun q other => by rw [if_pos rfl, lasting, Vector.at_put_other _ _ (Ne.symm other)]⟩
  | false => exact ⟨rfl, rfl, rfl, fun _ _ => rfl⟩

/-- PROTOCOL and OVERRUN have ended. -/
def State.linkFaultsEnded (s : State) (p : Printer) : State :=
  (s.endPresent p .protocol (s.monitor.lasting.at p).protocol).endPresent p .overrun (s.monitor.lasting.at p).overrun

theorem State.linkFaultsEnded_effect (s : State) (p : Printer) :
    let t := s.linkFaultsEnded p
    t = { s with monitor := t.monitor } ∧ t.monitor.filters = s.monitor.filters ∧
      t.monitor.lasting.at p = { s.monitor.lasting.at p with protocol := false, overrun := false } ∧
      ∀ q, q ≠ p → t.monitor.lasting.at q = s.monitor.lasting.at q := by
  obtain ⟨rest, filters, marks, others⟩ := s.endPresent_effect p .protocol (s.monitor.lasting.at p).protocol
  rw [Lasting.protocol_ended] at marks
  unfold State.linkFaultsEnded
  generalize s.endPresent p .protocol _ = t at *
  obtain ⟨rest', filters', marks', others'⟩ := t.endPresent_effect p .overrun (s.monitor.lasting.at p).overrun
  generalize t.endPresent p .overrun _ = u at *
  refine ⟨by rw [rest', rest], filters'.trans filters, ?_, fun q other => (others' q other).trans (others q other)⟩
  rw [marks', marks]
  exact Lasting.overrun_ended { s.monitor.lasting.at p with protocol := false }

/-! ### The entry applied -/

/-- What a new entry makes of the port itself. -/
structure State.EntryApplied (s : State) (p : Printer) (old : PrinterEntry) (t : State) : Prop where
  rest : t = { s with ports := t.ports, monitor := t.monitor, sent := t.sent }
  ports : ∀ q, q ≠ p → t.ports.at q = s.ports.at q
  filters : ∀ q, q ≠ p → t.monitor.filters.at q = s.monitor.filters.at q
  lasting : ∀ q, q ≠ p → t.monitor.lasting.at q = s.monitor.lasting.at q
  sent : s.sent <+: t.sent
  marks : (t.monitor.lasting.at p).protocol = false ∧ (t.monitor.lasting.at p).overrun = false
  off : (s.printerEntry p).function = .off →
    t.ports.at p = { s.ports.at p with
      state := .unused, attachTimer := none, pollTimer := none, replyTimer := none, absentTimer := none
      hold := (t.ports.at p).hold } ∧
    (∀ r, (t.ports.at p).holds r = true ↔ (s.ports.at p).holds r = true ∧ ∀ c, s.releases p c → c.holdReason ≠ some r) ∧
    (t.monitor.lasting.at p).noAnswer = false ∧ ∀ c, t.filter p c = { present := false, run := 0 }
  attach : (s.printerEntry p).function ≠ .off →
    t.ports.at p = { s.ports.at p with
      state := .attaching, nextImage := 0, unanswered := 0, attachTimer := some (s.printerEntry p).selectTimeout
      pollTimer := none, replyTimer := none, absentTimer := none } ∧
    (p, .enquire) ∈ t.sent.drop s.sent.length ∧
    ∀ c, t.filter p c = if old.filterDepth = (s.printerEntry p).filterDepth then s.filter p c
      else { s.filter p c with run := 0 }

theorem State.applyEntry_applied (s : State) (p : Printer) (old : PrinterEntry) :
    s.EntryApplied p old (s.applyEntry p old) := by
  obtain ⟨rest, filters, marks, others⟩ := s.linkFaultsEnded_effect p
  have shape : s.applyEntry p old =
      let t := if old.filterDepth = (s.printerEntry p).filterDepth then s.linkFaultsEnded p
        else (s.linkFaultsEnded p).clearRuns p
      if (s.printerEntry p).function = .off then
        ((t.endPresent p .noAnswer (s.monitor.lasting.at p).noAnswer).updatePort p fun x =>
          { x with state := .unused, attachTimer := none, pollTimer := none, replyTimer := none
                   absentTimer := none }).endFiltered p
      else t.beginAttach p := rfl
  rw [shape]
  generalize s.linkFaultsEnded p = e at *
  obtain ⟨t, is_t, rest_t, ports_t, filters_t, lasting_t, filter_t⟩ : ∃ t : State,
      (if old.filterDepth = (s.printerEntry p).filterDepth then e else e.clearRuns p) = t ∧
      t = { s with monitor := t.monitor } ∧ t.ports = s.ports ∧
      (∀ q, q ≠ p → t.monitor.filters.at q = s.monitor.filters.at q) ∧ t.monitor.lasting = e.monitor.lasting ∧
      ∀ c, t.filter p c = if old.filterDepth = (s.printerEntry p).filterDepth then s.filter p c
        else { s.filter p c with run := 0 } := by
    by_cases same : old.filterDepth = (s.printerEntry p).filterDepth
    · refine ⟨e, if_pos same, rest, by rw [rest], fun q _ => by rw [filters], rfl, fun c => ?_⟩
      rw [if_pos same, State.filter_congr filters]
    · obtain ⟨runs, ports, cleared⟩ := e.clearRuns_at p
      have still : (e.clearRuns p).ports = s.ports := by rw [ports, rest]
      refine ⟨e.clearRuns p, if_neg same, ?_, still, fun q other => ?_, runs.lasting, fun c => ?_⟩
      · have shape := runs.rest
        rw [still] at shape
        rw [shape, rest]
      · rw [runs.filters q other, filters]
      · rw [cleared, if_neg same, State.filter_congr filters]
  rw [is_t]
  clear is_t
  dsimp only
  split
  · rename_i off
    obtain ⟨rest_n, filters_n, marks_n, others_n⟩ := t.endPresent_effect p .noAnswer (s.monitor.lasting.at p).noAnswer
    generalize t.endPresent p .noAnswer _ = n at *
    have ports_n : n.ports = s.ports := by rw [rest_n]; exact ports_t
    let unused (x : Port) : Port :=
      { x with state := .unused, attachTimer := none, pollTimer := none, replyTimer := none, absentTimer := none }
    have port_u : (n.updatePort p unused).ports.at p = unused (s.ports.at p) := by
      rw [State.updatePort_ports, Vector.at_put_same, ports_n]
    have ended := State.endFiltered_idle (s := n.updatePort p unused) (p := p) (by rw [port_u]; exact nofun)
    have lasting_u : (n.updatePort p unused).monitor.lasting = n.monitor.lasting := rfl
    have filters_u : (n.updatePort p unused).monitor.filters = n.monitor.filters := rfl
    have ports_u : ∀ q, q ≠ p → (n.updatePort p unused).ports.at q = s.ports.at q := fun q other => by
      rw [State.updatePort_ports, Vector.at_put_other _ _ (Ne.symm other), ports_n]
    have rest_u : n.updatePort p unused = { s with ports := (n.updatePort p unused).ports, monitor := n.monitor } := by
      unfold State.updatePort State.setPort
      rw [rest_n, rest_t]
    show s.EntryApplied p old ((n.updatePort p unused).endFiltered p)
    have releases_u : ∀ c, (n.updatePort p unused).releases p c ↔ s.releases p c := fun c => by
      unfold State.releases
      rw [port_u, State.filter_congr (filters_u.trans filters_n), filter_t]
      split <;> rfl
    generalize n.updatePort p unused = u at *
    obtain ⟨away, filter, port, holds⟩ := ended
    generalize u.endFiltered p = v at *
    have lasting : v.monitor.lasting.at p = { s.monitor.lasting.at p with
        protocol := false, overrun := false, noAnswer := false } := by
      rw [away.lasting, lasting_u, marks_n, lasting_t, marks]
      exact Lasting.noAnswer_ended { s.monitor.lasting.at p with protocol := false, overrun := false }
    have sent : v.sent = s.sent := by rw [away.rest, rest_u]
    refine ⟨?_, fun q other => (away.ports q other).trans (ports_u q other), fun q other => ?_, fun q other => ?_, ?_, ?_,
      fun _ => ⟨?_, fun r => ?_, by rw [lasting], filter⟩, fun on => absurd off on⟩
    · rw [away.rest, rest_u]
    · rw [away.filters q other, filters_u, filters_n, filters_t q other]
    · rw [away.lasting, lasting_u, others_n q other, lasting_t, others q other]
    · rw [sent]
    · rw [lasting]
      exact ⟨rfl, rfl⟩
    · rw [port, port_u]
    · rw [holds, port_u]
      simp only [releases_u]
      exact Iff.rfl
  · rename_i on
    have entry : t.printerEntry p = s.printerEntry p := by rw [rest_t]; rfl
    have sent : (t.beginAttach p).sent = s.sent ++ [(p, .enquire)] := by
      show t.sent ++ _ = _
      rw [rest_t]
    refine ⟨?_, fun q other => ?_, fun q other => filters_t q other, fun q other => ?_, ?_, ?_, fun off => absurd off on,
      fun _ => ⟨?_, ?_, filter_t⟩⟩
    · unfold State.beginAttach State.updatePort State.transmit State.setPort
      rw [rest_t]
    · show (t.ports.put p _).at q = _
      rw [Vector.at_put_other _ _ (Ne.symm other), ports_t]
    · show t.monitor.lasting.at q = _
      rw [lasting_t, others q other]
    · rw [sent]
      exact List.prefix_append _ _
    · show (t.monitor.lasting.at p).protocol = false ∧ (t.monitor.lasting.at p).overrun = false
      rw [lasting_t, marks]
      exact ⟨rfl, rfl⟩
    · show (t.ports.put p _).at p = _
      rw [Vector.at_put_same]
      show { t.ports.at p with
        state := .attaching, nextImage := 0, unanswered := 0, attachTimer := some (t.printerEntry p).selectTimeout
        pollTimer := none, replyTimer := none, absentTimer := none } = _
      rw [ports_t, entry]
    · rw [sent, List.drop_left]
      exact List.mem_cons_self

end Sys2Proof.Machine
end

