-- ==== Sys2Proof/Proofs/FunctionsApplied.lean ====
section
/-! SUPPORT. A new function at the port: hold reasons, queues of lines and slips, and the jobs that leave (R69, R15). -/

namespace Sys2Proof.Machine

/-! ### Send lists grow -/

/-- No frame leaves a send list. -/
def State.Sends (s t : State) : Prop := ∀ w, (s.office.at w).sendList <+: (t.office.at w).sendList

theorem State.Sends.refl (s : State) : s.Sends s := fun _ => List.prefix_rfl

theorem State.Sends.trans {s t u : State} (a : s.Sends t) (b : t.Sends u) : s.Sends u := fun w => (a w).trans (b w)

theorem State.Sends.of_office {s t : State} (office : t.office = s.office) : s.Sends t := fun w => by
  rw [office]

theorem State.Sends.foldl {α : Type} {f : State → α → State} (each : ∀ (s : State) (a : α), s.Sends (f s a)) (l : List α) (s : State) :
    s.Sends (l.foldl f s) := by
  induction l generalizing s with
  | nil => exact .refl s
  | cons a l ih => exact (each s a).trans (ih _)

theorem State.queueNotice_sends (s : State) (f : OutFrame) (w : Window) : s.Sends (s.queueNotice f w) := by
  unfold State.queueNotice
  dsimp only
  split
  · intro v
    unfold State.queueFrame
    dsimp only
    rw [State.setOffice_office, Vector.at_put]
    split
    · rename_i same
      rw [← same]
      exact List.prefix_append _ _
    · exact List.prefix_rfl
  · exact .refl s

theorem State.notice_sends (s : State) (c : Condition) : s.Sends (s.notice c) := by
  unfold State.notice
  split
  · exact State.Sends.foldl (fun t w => t.queueNotice_sends _ w) allWindows s
  · exact .refl s

theorem State.recordOccurrence_sends (s : State) (c : Condition) : s.Sends (s.recordOccurrence c) := by
  unfold State.recordOccurrence
  dsimp only
  refine State.Sends.trans ?_ (State.notice_sends _ c)
  exact .of_office rfl

theorem State.report_sends (s : State) (r : Report) : s.Sends (s.report r) := by
  unfold State.report
  split
  · cases r with
    | occurred c => exact s.recordOccurrence_sends c
    | ended c => exact .of_office rfl
  · exact .of_office rfl
  · exact .refl s

theorem State.raise_sends (s : State) (p : Printer) (k : PrinterFault) : s.Sends (s.raise (.printer p k)) :=
  (State.Sends.of_office rfl).trans (State.report_sends (s.markPresent (.printer p k) true) _)

theorem State.resolveQueue_sends (s : State) (p : Printer) (concerns : Job → Bool) (refusal : Option AnswerCode) :
    s.Sends (s.resolveQueue p concerns refusal) :=
  State.Sends.foldl (fun t j => (State.considerJob_effect concerns refusal t j).1) _ s

/-! ### A port relabelled -/

/-- The port and the marks of its lasting conditions change, no state of a port does, and no job moves. -/
structure State.Relabels (p : Printer) (s t : State) : Prop where
  rest : t = { s with ports := t.ports, monitor := t.monitor, office := t.office }
  sends : s.Sends t
  ports : ∀ q, q ≠ p → t.ports.at q = s.ports.at q
  state : (t.ports.at p).state = (s.ports.at p).state
  filters : t.monitor.filters = s.monitor.filters
  lasting : ∀ q, q ≠ p → t.monitor.lasting.at q = s.monitor.lasting.at q
  marks : (t.monitor.lasting.at p).protocol = (s.monitor.lasting.at p).protocol ∧
    (t.monitor.lasting.at p).overrun = (s.monitor.lasting.at p).overrun ∧
    (t.monitor.lasting.at p).noAnswer = (s.monitor.lasting.at p).noAnswer

namespace State.Relabels

variable {p : Printer} {s t u : State}

theorem refl (p : Printer) (s : State) : State.Relabels p s s :=
  ⟨rfl, .refl s, fun _ _ => rfl, rfl, rfl, fun _ _ => rfl, rfl, rfl, rfl⟩

theorem trans (a : State.Relabels p s t) (b : State.Relabels p t u) : State.Relabels p s u where
  rest := by rw [b.rest, a.rest]
  sends := a.sends.trans b.sends
  ports q other := (b.ports q other).trans (a.ports q other)
  state := b.state.trans a.state
  filters := b.filters.trans a.filters
  lasting q other := (b.lasting q other).trans (a.lasting q other)
  marks := ⟨b.marks.1.trans a.marks.1, b.marks.2.1.trans a.marks.2.1, b.marks.2.2.trans a.marks.2.2⟩

theorem of_port {y : Port} (state : y.state = (s.ports.at p).state) :
    State.Relabels p s { s with ports := s.ports.put p y } where
  rest := rfl
  sends := .of_office rfl
  ports _ other := Vector.at_put_other _ _ (Ne.symm other)
  state := by rw [Vector.at_put_same]; exact state
  filters := rfl
  lasting _ _ := rfl
  marks := ⟨rfl, rfl, rfl⟩

end State.Relabels

/-- The test of the remaining count relabels its port's STOCK_LOW alone (R85). -/
theorem State.lowStockTest_relabels (s : State) (p : Printer) :
    State.Relabels p s (s.lowStockTest p) ∧ (s.lowStockTest p).ports = s.ports := by
  unfold State.lowStockTest
  split
  · exact ⟨.refl p s, rfl⟩
  · dsimp only
    split
    · have notes := s.raise_notes (.printer p .stockLow)
      have lasting := s.raise_lasting p .stockLow
      refine ⟨⟨notes.rest.trans (by rw [notes.ports]), s.raise_sends p _, fun q _ => by rw [notes.ports], by rw [notes.ports],
        s.raise_filters _, fun q other => ?_, ?_⟩, notes.ports⟩
      · rw [lasting, Vector.at_put_other _ _ (Ne.symm other)]
      · rw [lasting, Vector.at_put_same]
        exact ⟨rfl, rfl, rfl⟩
    · split
      · have rest := s.endCondition_rest p .stockLow
        have lasting := s.endCondition_lasting p .stockLow
        have ports : (s.endCondition (.printer p .stockLow)).ports = s.ports := by rw [rest]
        refine ⟨⟨by rw [rest], .of_office (by rw [rest]), fun q _ => by rw [ports], by rw [ports],
          s.endCondition_filters _, fun q other => ?_, ?_⟩, ports⟩
        · rw [lasting, Vector.at_put_other _ _ (Ne.symm other)]
        · rw [lasting, Vector.at_put_same]
          exact ⟨rfl, rfl, rfl⟩
      · exact ⟨.refl p s, rfl⟩

/-! ### The port under its new function -/

/-- A port whose function leaves TICKET. -/
def Port.leavesTicket (x : Port) : Port := ((x.relieved .noStock).relieved .stockUnverified).relieved .audit

/-- A port that becomes a TICKET port, with the batch loaded at it (R69). -/
def Port.joinsTicket (x : Port) (batch : Option Batch) : Port :=
  match batch with
  | none => x.under .noStock
  | some b =>
    let x := if b.state = .exhausted then x.under .noStock else x
    if b.state = .unverified then x.under .stockUnverified else x

/-- What the old function left at the port goes. -/
def Port.unfitted (x : Port) (old new : PortFunction) : Port :=
  if old = new then x
  else match old with
    | .ticket => x.leavesTicket
    | .audit => { x with audit := [] }
    | .report => { x with slips := [] }
    | .off => x

def Port.refitted (x : Port) (old new : PortFunction) (batch : Option Batch) : Port :=
  if old ≠ .ticket ∧ new = .ticket then (x.unfitted old new).joinsTicket batch else x.unfitted old new

/-- Neither ACTIVE nor HELD: hold reasons change no state. -/
def Port.idle (x : Port) : Prop := x.state ≠ .active ∧ x.state ≠ .held

theorem Port.idle.under {x : Port} (h : x.idle) (r : HoldReason) : x.under r = { x with hold := (x.under r).hold } := by
  unfold Port.under
  rw [if_neg h.1]

theorem Port.idle.relieved {x : Port} (h : x.idle) (r : HoldReason) :
    x.relieved r = { x with hold := (x.relieved r).hold } := by
  unfold Port.relieved
  dsimp only
  rw [if_neg fun g => h.2 g.1]

theorem Port.idle.of_state {x y : Port} (h : x.idle) (state : y.state = x.state) : y.idle := by
  unfold Port.idle
  rw [state]
  exact h

theorem Port.idle.leavesTicket {x : Port} (h : x.idle) : x.leavesTicket = { x with hold := x.leavesTicket.hold } := by
  unfold Port.leavesTicket
  have first := h.relieved .noStock
  have idle₁ : (x.relieved .noStock).idle := h.of_state (by rw [first])
  have second := idle₁.relieved .stockUnverified
  have idle₂ : ((x.relieved .noStock).relieved .stockUnverified).idle := idle₁.of_state (by rw [second])
  have third := idle₂.relieved .audit
  rw [third, second, first]

theorem Port.leavesTicket_holds (x : Port) (r : HoldReason) : x.leavesTicket.holds r =
    if r = .noStock ∨ r = .stockUnverified ∨ r = .audit then false else x.holds r := by
  unfold Port.leavesTicket
  rw [Port.relieved_holds, Port.relieved_holds, Port.relieved_holds]
  cases r <;> rfl

theorem Port.idle.joinsTicket {x : Port} (h : x.idle) (batch : Option Batch) :
    x.joinsTicket batch = { x with hold := (x.joinsTicket batch).hold } := by
  unfold Port.joinsTicket
  split
  · exact h.under _
  · rename_i b
    dsimp only
    have first : (if b.state = .exhausted then x.under .noStock else x) =
        { x with hold := (if b.state = .exhausted then x.under .noStock else x).hold } := by
      split
      · exact h.under _
      · rfl
    generalize (if b.state = .exhausted then x.under .noStock else x) = y at *
    split
    · rw [(h.of_state (by rw [first]) : y.idle).under .stockUnverified, first]
    · exact first

theorem Port.joinsTicket_other (x : Port) (batch : Option Batch) {r : HoldReason} (first : r ≠ .noStock)
    (second : r ≠ .stockUnverified) : (x.joinsTicket batch).holds r = x.holds r := by
  have under : ∀ (y : Port) (q : HoldReason), r ≠ q → (y.under q).holds r = y.holds r := fun y q other => by
    rw [Port.under_holds, if_neg (Ne.symm other)]
  unfold Port.joinsTicket
  split
  · exact under x _ first
  · dsimp only
    split
    · split
      · rw [under _ _ second, under _ _ first]
      · rw [under _ _ second]
    · split
      · rw [under _ _ first]
      · rfl

theorem Port.joinsTicket_stock (x : Port) (batch : Option Batch) :
    (batch = none → (x.joinsTicket batch).holds .noStock = true) ∧
      ∀ b, batch = some b → (b.state = .exhausted → (x.joinsTicket batch).holds .noStock = true) ∧
        (b.state = .unverified → (x.joinsTicket batch).holds .stockUnverified = true) := by
  refine ⟨?_, ?_⟩
  · rintro rfl
    exact (x.under_holds .noStock .noStock).trans (if_pos rfl)
  · rintro b rfl
    refine ⟨fun exhausted => ?_, fun unverified => ?_⟩ <;> unfold Port.joinsTicket <;> dsimp only
    · rw [if_pos exhausted, if_neg (by rw [exhausted]; decide), Port.under_holds, if_pos rfl]
    · rw [if_pos unverified, Port.under_holds, if_pos rfl]

/-- What a port keeps under its new function, and what becomes of its hold reasons, lines and slips. -/
structure Port.Refits (old new : PortFunction) (batch : Option Batch) (x y : Port) : Prop where
  rest : y = { x with hold := y.hold, audit := y.audit, slips := y.slips }
  holds : ∀ r, r ≠ .noStock → r ≠ .stockUnverified → r ≠ .audit → y.holds r = x.holds r
  left : old = .ticket → new ≠ .ticket →
    y.holds .noStock = false ∧ y.holds .stockUnverified = false ∧ y.holds .audit = false
  audit : old = .audit → new ≠ .audit → y.audit = []
  slips : old = .report → new ≠ .report → y.slips = []
  joined : old ≠ .ticket → new = .ticket → (batch = none → y.holds .noStock = true) ∧
    ∀ b, batch = some b → (b.state = .exhausted → y.holds .noStock = true) ∧
      (b.state = .unverified → y.holds .stockUnverified = true)

theorem Port.idle.unfitted {x : Port} (h : x.idle) (old new : PortFunction) :
    x.unfitted old new = { x with
      hold := (x.unfitted old new).hold, audit := (x.unfitted old new).audit, slips := (x.unfitted old new).slips } := by
  unfold Port.unfitted
  split
  · rfl
  · split
    · rw [h.leavesTicket]
    · rfl
    · rfl
    · rfl

theorem Port.idle.refits {x : Port} (h : x.idle) (old new : PortFunction) (batch : Option Batch) :
    Port.Refits old new batch x (x.refitted old new batch) := by
  have rest := h.unfitted old new
  have idle : (x.unfitted old new).idle := h.of_state (by rw [rest])
  have holds : ∀ r, r ≠ .noStock → r ≠ .stockUnverified → r ≠ .audit → (x.unfitted old new).holds r = x.holds r := by
    intro r a b c
    unfold Port.unfitted
    split
    · rfl
    · split
      · rw [Port.leavesTicket_holds, if_neg (by simp [a, b, c])]
      · rfl
      · rfl
      · rfl
  have audit : old = .audit → new ≠ .audit → (x.unfitted old new).audit = [] := by
    rintro rfl other
    unfold Port.unfitted
    rw [if_neg (Ne.symm other)]
  have slips : old = .report → new ≠ .report → (x.unfitted old new).slips = [] := by
    rintro rfl other
    unfold Port.unfitted
    rw [if_neg (Ne.symm other)]
  unfold Port.refitted
  split
  · rename_i joins
    have joined := idle.joinsTicket batch
    refine ⟨?_, fun r a b c => ?_, fun g => absurd g joins.1, fun g k => ?_, fun g k => ?_,
      fun _ _ => (x.unfitted old new).joinsTicket_stock batch⟩
    · rw [joined, rest]
    · rw [Port.joinsTicket_other _ _ a b, holds r a b c]
    · rw [joined]
      exact audit g k
    · rw [joined]
      exact slips g k
  · rename_i stays
    refine ⟨rest, holds, ?_, audit, slips, fun a b => absurd ⟨a, b⟩ stays⟩
    rintro rfl other
    unfold Port.unfitted
    rw [if_neg (Ne.symm other)]
    simp [Port.leavesTicket_holds]

/-! ### The function applied -/

/-- What a new function does at its port; the jobs of a port that leaves TICKET move or are refused in between. -/
structure State.FunctionApplied (s : State) (p : Printer) (old : PrinterEntry) (t : State) : Prop where
  port : t.ports.at p = (s.ports.at p).refitted old.function (s.printerEntry p).function (s.loaded p)
  stockLow : old.lowStock ≠ (s.printerEntry p).lowStock → ∀ b, s.loaded p = some b →
    ((t.monitor.lasting.at p).stockLow = true ↔ b.remaining ≤ (s.printerEntry p).lowStock)
  stays : ¬ (old.function = .ticket ∧ (s.printerEntry p).function ≠ .ticket) → State.Relabels p s t
  refuses : old.function = .ticket → (s.printerEntry p).function ≠ .ticket →
    ∃ v, State.Relabels p s v ∧ State.Relabels p (v.refuseQueue p) t

theorem State.addHold_idle {s : State} {p : Printer} (idle : (s.ports.at p).idle) (r : HoldReason) :
    s.addHold p r = { s with ports := s.ports.put p ((s.ports.at p).under r) } := by
  rw [State.addHold_still s p r idle.1, idle.under r]
  rfl

theorem State.becomesTicket_idle {s : State} {p : Printer} (idle : (s.ports.at p).idle) :
    s.becomesTicket p = { s with ports := s.ports.put p ((s.ports.at p).joinsTicket (s.loaded p)) } := by
  unfold State.becomesTicket
  cases s.loaded p with
  | none => exact s.addHold_idle idle _
  | some b =>
    unfold Port.joinsTicket
    dsimp only
    by_cases exhausted : b.state = .exhausted
    · have other : b.state ≠ .unverified := by rw [exhausted]; decide
      rw [if_pos exhausted, if_pos exhausted, if_neg other, if_neg other]
      exact s.addHold_idle idle _
    · rw [if_neg exhausted, if_neg exhausted]
      split
      · exact s.addHold_idle idle _
      · rw [Vector.put_at]

theorem State.setPort_becomesTicket (s : State) {p : Printer} {y : Port} (idle : y.idle) :
    (s.setPort p y).becomesTicket p = s.setPort p (y.joinsTicket (s.loaded p)) := by
  have port : (s.setPort p y).ports.at p = y := Vector.at_put_same ..
  rw [State.becomesTicket_idle (by rw [port]; exact idle), port]
  show { s with ports := (s.ports.put p y).put p (y.joinsTicket (s.loaded p)) } = _
  rw [Vector.put_put]
  rfl

/-- The hold reasons of a TICKET port removed. -/
def State.ticketHoldsRemoved (s : State) (p : Printer) : State :=
  ((s.removeHold p .noStock).removeHold p .stockUnverified).removeHold p .audit

theorem State.ticketHoldsRemoved_eq (s : State) (p : Printer) :
    s.ticketHoldsRemoved p = { s with ports := s.ports.put p (s.ports.at p).leavesTicket } := by
  unfold State.ticketHoldsRemoved Port.leavesTicket
  simp only [State.removeHold_rest, Vector.put_put, Vector.at_put_same]

/-- What the old function left goes: hold reasons and jobs, lines, or slips. -/
def State.unfit (s : State) (p : Printer) (old : PrinterEntry) : State :=
  if old.function = (s.printerEntry p).function then s
  else match old.function with
    | .ticket => (s.ticketHoldsRemoved p).refuseQueue p
    | .audit => s.updatePort p fun x => { x with audit := [] }
    | .report => s.updatePort p fun x => { x with slips := [] }
    | .off => s

theorem State.applyFunction_eq (s : State) (p : Printer) (old : PrinterEntry) :
    s.applyFunction p old =
      let t := if old.function ≠ .ticket ∧ (s.printerEntry p).function = .ticket then (s.unfit p old).becomesTicket p
        else s.unfit p old
      if old.lowStock = (s.printerEntry p).lowStock then t else t.lowStockTest p := rfl

theorem State.unfit_leaves {s : State} {p : Printer} {old : PrinterEntry} (ticket : old.function = .ticket)
    (leaves : (s.printerEntry p).function ≠ .ticket) : s.unfit p old = (s.ticketHoldsRemoved p).refuseQueue p := by
  unfold State.unfit
  rw [ticket, if_neg (Ne.symm leaves)]

theorem State.setPort_at (s : State) (p : Printer) : s.setPort p (s.ports.at p) = s := by
  unfold State.setPort
  rw [Vector.put_at]

theorem State.unfit_stays {s : State} {p : Printer} {old : PrinterEntry}
    (stays : ¬ (old.function = .ticket ∧ (s.printerEntry p).function ≠ .ticket)) :
    s.unfit p old = s.setPort p ((s.ports.at p).unfitted old.function (s.printerEntry p).function) := by
  unfold State.unfit Port.unfitted
  split
  · exact (s.setPort_at p).symm
  · rename_i other
    cases function : old.function with
    | ticket => exact absurd ⟨function, fun new => other (function.trans new.symm)⟩ stays
    | audit => rfl
    | report => rfl
    | off => exact (s.setPort_at p).symm

theorem State.lowStockTest_marks {s : State} {p : Printer} {b : Batch} (loaded : s.loaded p = some b) :
    ((s.lowStockTest p).monitor.lasting.at p).stockLow = true ↔ b.remaining ≤ (s.printerEntry p).lowStock :=
  (State.lowStockTest_effect loaded).2.2

theorem State.applyFunction_applied {s : State} {p : Printer} (idle : (s.ports.at p).idle) (old : PrinterEntry) :
    s.FunctionApplied p old (s.applyFunction p old) := by
  rw [State.applyFunction_eq]
  by_cases leaves : old.function = .ticket ∧ (s.printerEntry p).function ≠ .ticket
  · obtain ⟨ticket, other⟩ := leaves
    dsimp only
    have no : ¬ (old.function ≠ .ticket ∧ (s.printerEntry p).function = .ticket) := fun h => h.1 ticket
    rw [State.unfit_leaves ticket other, if_neg no]
    have removed := s.ticketHoldsRemoved_eq p
    have left : State.Relabels p s (s.ticketHoldsRemoved p) := by
      rw [removed]
      exact .of_port (by rw [idle.leavesTicket])
    have sorts := (s.ticketHoldsRemoved p).resolveQueue_sorts p (fun _ => true) (some .printerUnavailable)
    have port : ((s.ticketHoldsRemoved p).refuseQueue p).ports.at p =
        (s.ports.at p).refitted old.function (s.printerEntry p).function (s.loaded p) := by
      refine (congrArg (fun x => Vector.at x p) sorts.ports).trans ?_
      rw [removed]
      show (s.ports.put p _).at p = _
      rw [Vector.at_put_same]
      unfold Port.refitted Port.unfitted
      rw [if_neg fun h => h.1 ticket, ticket, if_neg (Ne.symm other)]
    have loaded : ((s.ticketHoldsRemoved p).refuseQueue p).loaded p = s.loaded p := by
      unfold State.loaded
      refine (congrArg (fun x => Vector.at (Stock.loaded x) p) sorts.stock).trans ?_
      rw [removed]
    have entry : ((s.ticketHoldsRemoved p).refuseQueue p).printerEntry p = s.printerEntry p := by
      unfold State.printerEntry
      refine (congrArg (fun x => (Tables.printers (TableStore.tables x)).at p) sorts.store).trans ?_
      rw [removed]
    obtain ⟨tested, ports⟩ := ((s.ticketHoldsRemoved p).refuseQueue p).lowStockTest_relabels p
    refine ⟨?_, fun changed b held => ?_, fun stays => absurd ⟨ticket, other⟩ stays, fun _ _ => ⟨_, left, ?_⟩⟩
    · split
      · exact port
      · rw [ports]
        exact port
    · rw [if_neg changed, State.lowStockTest_marks (loaded.trans held), entry]
    · split
      · exact .refl p _
      · exact tested
  · dsimp only
    rw [State.unfit_stays leaves]
    have shape : (if old.function ≠ .ticket ∧ (s.printerEntry p).function = .ticket then
          (s.setPort p ((s.ports.at p).unfitted old.function (s.printerEntry p).function)).becomesTicket p
        else s.setPort p ((s.ports.at p).unfitted old.function (s.printerEntry p).function)) =
        s.setPort p ((s.ports.at p).refitted old.function (s.printerEntry p).function (s.loaded p)) := by
      unfold Port.refitted
      split
      · exact s.setPort_becomesTicket (idle.of_state (by rw [idle.unfitted]))
      · rfl
    rw [shape]
    have refitted : State.Relabels p s (s.setPort p
        ((s.ports.at p).refitted old.function (s.printerEntry p).function (s.loaded p))) :=
      .of_port (by rw [(idle.refits old.function (s.printerEntry p).function (s.loaded p)).rest])
    have port : (s.ports.put p ((s.ports.at p).refitted old.function (s.printerEntry p).function (s.loaded p))).at p =
        (s.ports.at p).refitted old.function (s.printerEntry p).function (s.loaded p) := Vector.at_put_same ..
    generalize is_y : (s.ports.at p).refitted old.function (s.printerEntry p).function (s.loaded p) = y at *
    obtain ⟨tested, ports⟩ := State.lowStockTest_relabels (s.setPort p y) p
    refine ⟨?_, fun changed b held => ?_, fun _ => ?_, fun ticket other => absurd ⟨ticket, other⟩ leaves⟩
    · split
      · exact port.trans is_y.symm
      · rw [ports]
        exact port.trans is_y.symm
    · rw [if_neg changed, State.lowStockTest_marks (s := (s.setPort p y)) held]
      rfl
    · split
      · exact refitted
      · exact refitted.trans tested

end Sys2Proof.Machine
end

