-- ==== Sys2Proof/Proofs/QueuesLeft.lean ====
section
/-! SUPPORT. The jobs of the ports that leave TICKET, port after port (R15, R12, R21). -/

namespace Sys2Proof.Machine

/-- The jobs of a list of ports that move to a printer, where those ports' queues are left. -/
def State.sendingTo (g : State) (leaves : Printer → Bool) (ports : List Printer) (q : Printer) : List JobNumber :=
  ports.flatMap fun p => if leaves p then
    (g.queues.at p).filter fun j => ((g.jobs.at j).bind fun y => g.moveTarget y) == some q else []

/-- The jobs of the queues left. -/
def State.leaving (g : State) (leaves : Printer → Bool) (ports : List Printer) : List JobNumber :=
  ports.flatMap fun p => if leaves p then g.queues.at p else []

/-- The queues of some ports have been left: each job has moved or is refused, and its session told. -/
structure State.QueuesLeft (g : State) (leaves : Printer → Bool) (ports : List Printer) (t : State) : Prop where
  store : t.store = g.store
  stock : t.stock = g.stock
  states : ∀ q, (t.ports.at q).state = (g.ports.at q).state
  jobs : ∀ j, (∀ p ∈ ports, leaves p = true → j ∉ g.queues.at p) → t.jobs.at j = g.jobs.at j
  moved : ∀ p ∈ ports, leaves p = true → ∀ j ∈ g.queues.at p, ∀ y, g.jobs.at j = some y →
    ∀ q, g.moveTarget y = some q → t.jobs.at j = some { y with printer := q, retry := 0 }
  refused : ∀ p ∈ ports, leaves p = true → ∀ j ∈ g.queues.at p, ∀ y, g.jobs.at j = some y → g.moveTarget y = none →
    t.jobs.at j = none ∧ .answer y.origin.tag .printerUnavailable .nothing false ∈ (t.office.at y.origin.window).sendList
  queues : ∀ q, leaves q = false ∨ q ∉ ports → t.queues.at q = g.queues.at q ++ g.sendingTo leaves ports q
  emptied : ∀ p ∈ ports, leaves p = true → t.queues.at p = []
  tells : g.Tells (fun i => (g.gone t (g.leaving leaves ports)).countP fun job => job.session == i) t
  sends : g.Sends t

theorem State.QueuesLeft.refl (g : State) (leaves : Printer → Bool) : g.QueuesLeft leaves [] g where
  store := rfl
  stock := rfl
  states _ := rfl
  jobs _ _ := rfl
  moved := nofun
  refused := nofun
  queues _ _ := (List.append_nil _).symm
  emptied := nofun
  tells := .refl g
  sends := .refl g

theorem State.QueuesLeft.moveTarget {g t : State} {leaves : Printer → Bool} {ports : List Printer}
    (h : g.QueuesLeft leaves ports t) (y : Job) : t.moveTarget y = g.moveTarget y :=
  State.moveTarget_congr y (by rw [h.store]) fun q _ =>
    State.sendsType_congr (h.states q) (by unfold State.loaded; rw [h.stock]) _

/-- A port relabelled after its predecessors. -/
theorem State.QueuesLeft.relabels {g t u : State} {leaves : Printer → Bool} {ports : List Printer} {p : Printer}
    (h : g.QueuesLeft leaves ports t) (b : State.Relabels p t u) : g.QueuesLeft leaves ports u := by
  have jobs : u.jobs = t.jobs := by rw [b.rest]
  have queues : u.queues = t.queues := by rw [b.rest]
  have tells : t.Tells (fun _ => 0) u := .of_same (by rw [b.rest]) fun n m => by rw [b.rest]; exact m
  refine ⟨?_, ?_, fun q => ?_, ?_, ?_, fun p m l j k y r n => ?_, ?_, ?_, ?_, h.sends.trans b.sends⟩
  · rw [b.rest]
    exact h.store
  · rw [b.rest]
    exact h.stock
  · by_cases same : q = p
    · rw [same, b.state]
      exact h.states p
    · rw [b.ports q same]
      exact h.states q
  · rw [jobs]
    exact h.jobs
  · rw [jobs]
    exact h.moved
  · rw [jobs]
    obtain ⟨gone, answered⟩ := h.refused p m l j k y r n
    exact ⟨gone, (b.sends _).subset answered⟩
  · rw [queues]
    exact h.queues
  · rw [queues]
    exact h.emptied
  · have gone : ∀ l, g.gone u l = g.gone t l := fun l => by
      unfold State.gone
      rw [jobs]
    rw [gone]
    exact h.tells.after tells

/-- What the jobs in the queues must be for them to be left one after the other: the queues are those of the jobs'
printers, no job stands twice, and a port that leaves is not ACTIVE. -/
structure State.Leavable (g : State) (leaves : Printer → Bool) : Prop where
  named : ∀ p, g.queuedAt p
  once : ∀ p, (g.queues.at p).Nodup
  closed : ∀ p, leaves p = true → (g.ports.at p).state ≠ .active

theorem State.Leavable.apart {g : State} {leaves : Printer → Bool} (h : g.Leavable leaves) {p q : Printer}
    {j : JobNumber} (a : j ∈ g.queues.at p) (b : j ∈ g.queues.at q) : p = q := by
  obtain ⟨x, record, here⟩ := h.named p j a
  obtain ⟨y, record', there⟩ := h.named q j b
  cases record.symm.trans record'
  exact here.symm.trans there

/-- No job moves to a port that leaves. -/
theorem State.Leavable.not_target {g : State} {leaves : Printer → Bool} (h : g.Leavable leaves) {p : Printer}
    (left : leaves p = true) (y : Job) : g.moveTarget y ≠ some p := by
  intro target
  unfold State.moveTarget at target
  have sends := (Option.filter_eq_some_iff.mp target).2
  unfold State.sendsType at sends
  rw [Bool.and_eq_true, beq_iff_eq] at sends
  exact h.closed p left sends.1

theorem State.Leavable.sendingTo {g : State} {leaves : Printer → Bool} (h : g.Leavable leaves) {q : Printer}
    (left : leaves q = true) (ports : List Printer) : g.sendingTo leaves ports q = [] := by
  unfold State.sendingTo
  refine List.flatMap_eq_nil_iff.mpr fun p _ => ?_
  split
  · refine List.filter_eq_nil_iff.mpr fun j _ => ?_
    cases g.jobs.at j with
    | none => exact nofun
    | some y => simpa using h.not_target left y
  · rfl

/-- The next port leaves: its queue is considered under R14. -/
theorem State.QueuesLeft.refuse {g v : State} {leaves : Printer → Bool} {ports : List Printer} {p : Printer}
    (able : g.Leavable leaves) (h : g.QueuesLeft leaves ports v) (fresh : p ∉ ports) (left : leaves p = true) :
    g.QueuesLeft leaves (ports ++ [p]) (v.refuseQueue p) := by
  have queue : v.queues.at p = g.queues.at p := by
    rw [h.queues p (Or.inr fresh), able.sendingTo left, List.append_nil]
  have still : ∀ j ∈ g.queues.at p, v.jobs.at j = g.jobs.at j := fun j m =>
    h.jobs j fun r k _ n => fresh (able.apart m n ▸ k)
  have named : v.queuedAt p := fun j m => by
    rw [queue] at m
    rw [still j m]
    exact able.named p j m
  have once : (v.queues.at p).Nodup := by
    rw [queue]
    exact able.once p
  have considers := v.resolveQueue_considers p (fun _ => true) (some .printerUnavailable) named once
  have sorts := v.resolveQueue_sorts p (fun _ => true) (some .printerUnavailable)
  have sends := v.resolveQueue_sends p (fun _ => true) (some .printerUnavailable)
  have told := v.resolveQueue_tells p (fun _ => true) (some .printerUnavailable) once
  have target : ∀ j ∈ g.queues.at p, v.sendsTo (fun _ => true) j = (g.jobs.at j).bind fun y => g.moveTarget y :=
    fun j m => by
      unfold State.sendsTo
      rw [still j m]
      exact Option.bind_congr fun y _ => h.moveTarget y
  have before : ∀ r ∈ ports, leaves r = true → ∀ j ∈ g.queues.at r, j ∉ v.queues.at p := fun r m _ j a c => by
    rw [queue] at c
    exact fresh (able.apart c a ▸ m)
  unfold State.refuseQueue
  generalize v.resolveQueue p (fun _ => true) (some .printerUnavailable) = u at *
  have joined : ∀ q, g.sendingTo leaves (ports ++ [p]) q = g.sendingTo leaves ports q ++
      (g.queues.at p).filter fun j => ((g.jobs.at j).bind fun y => g.moveTarget y) == some q := fun q => by
    unfold State.sendingTo
    rw [List.flatMap_append, List.flatMap_singleton, if_pos left]
  have tail : ∀ q, q ≠ p → u.queues.at q = v.queues.at q ++
      (g.queues.at p).filter fun j => ((g.jobs.at j).bind fun y => g.moveTarget y) == some q := fun q other => by
    rw [considers.tails q other, queue]
    exact congrArg _ (List.filter_congr fun j m => by rw [target j m])
  have moved : ∀ j ∈ g.queues.at p, ∀ y, g.jobs.at j = some y → ∀ q, g.moveTarget y = some q →
      u.jobs.at j = some { y with printer := q, retry := 0 } := fun j m y record q goes =>
    (considers.moved j (by rw [queue]; exact m) y q (by rw [still j m]; exact record) rfl
      (by rw [h.moveTarget]; exact goes)).1
  have refused : ∀ j ∈ g.queues.at p, ∀ y, g.jobs.at j = some y → g.moveTarget y = none → u.jobs.at j = none ∧
      .answer y.origin.tag .printerUnavailable .nothing false ∈ (u.office.at y.origin.window).sendList :=
    fun j m y record stuck => considers.refused j (by rw [queue]; exact m) y .printerUnavailable
      (by rw [still j m]; exact record) rfl (by rw [h.moveTarget]; exact stuck) rfl
  have emptied : u.queues.at p = [] := by
    rw [considers.queue, queue]
    refine List.filter_eq_nil_iff.mpr fun j m => ?_
    obtain ⟨y, record, _⟩ := able.named p j m
    rw [still j m, record]
    simp
  refine ⟨sorts.store.trans h.store, sorts.stock.trans h.stock, fun q => ?_, fun j out => ?_, fun r m l j k => ?_,
    fun r m l j k => ?_, fun q apart => ?_, fun r m l => ?_, ?_, h.sends.trans sends⟩
  · rw [sorts.ports]
    exact h.states q
  · have here : j ∉ v.queues.at p := by
      rw [queue]
      exact out p (by simp) left
    rw [considers.others j here]
    exact h.jobs j fun r m => out r (List.mem_append_left _ m)
  · rcases List.mem_append.mp m with m | m
    · intro y record q goes
      rw [considers.others j (before r m l j k)]
      exact h.moved r m l j k y record q goes
    · cases List.mem_singleton.mp m
      exact moved j k
  · rcases List.mem_append.mp m with m | m
    · intro y record stuck
      rw [considers.others j (before r m l j k)]
      obtain ⟨gone, answered⟩ := h.refused r m l j k y record stuck
      exact ⟨gone, (sends _).subset answered⟩
    · cases List.mem_singleton.mp m
      exact refused j k
  · have other : q ≠ p := by
      rintro rfl
      exact apart.elim (fun no => by rw [left] at no; cases no) fun out => out (by simp)
    rw [tail q other, joined, ← List.append_assoc]
    congr 1
    exact h.queues q (apart.imp id fun out m => out (List.mem_append_left _ m))
  · by_cases same : r = p
    · rw [same]
      exact emptied
    · have m : r ∈ ports := (List.mem_append.mp m).resolve_right fun k => same (List.mem_singleton.mp k)
      rw [tail r same, h.emptied r m l, List.nil_append]
      have none_ := able.sendingTo l (ports ++ [p])
      rw [joined] at none_
      exact (List.append_eq_nil_iff.mp none_).2
  · refine (h.tells.trans told).congr fun i => ?_
    have split : g.leaving leaves (ports ++ [p]) = g.leaving leaves ports ++ g.queues.at p := by
      unfold State.leaving
      rw [List.flatMap_append, List.flatMap_singleton, if_pos left]
    have first : g.gone u (g.leaving leaves ports) = g.gone v (g.leaving leaves ports) := by
      unfold State.gone
      refine List.filterMap_congr fun j m => ?_
      obtain ⟨r, here, m⟩ := List.mem_flatMap.mp m
      split at m
      · rename_i l
        rw [considers.others j (before r here l j m)]
      · cases m
    have second : v.gone u (v.queues.at p) = g.gone u (g.queues.at p) := by
      rw [queue]
      unfold State.gone
      exact List.filterMap_congr fun j m => by rw [still j m]
    rw [second, split, ← first, ← List.countP_append]
    unfold State.gone
    rw [List.filterMap_append]

/-- A port that does not leave has no part in it. -/
theorem State.QueuesLeft.skip {g t : State} {leaves : Printer → Bool} {ports : List Printer} {p : Printer}
    (h : g.QueuesLeft leaves ports t) (stays : leaves p = false) : g.QueuesLeft leaves (ports ++ [p]) t := by
  have mem : ∀ r ∈ ports ++ [p], leaves r = true → r ∈ ports := fun r m l =>
    (List.mem_append.mp m).resolve_right fun k => by
      rw [List.mem_singleton.mp k, stays] at l
      cases l
  have sending : ∀ q, g.sendingTo leaves (ports ++ [p]) q = g.sendingTo leaves ports q := fun q => by
    unfold State.sendingTo
    rw [List.flatMap_append, List.flatMap_singleton, stays]
    exact List.append_nil _
  have leaving : g.leaving leaves (ports ++ [p]) = g.leaving leaves ports := by
    unfold State.leaving
    rw [List.flatMap_append, List.flatMap_singleton, stays]
    exact List.append_nil _
  refine ⟨h.store, h.stock, h.states, fun j out => h.jobs j fun r m => out r (List.mem_append_left _ m),
    fun r m l => h.moved r (mem r m l) l, fun r m l => h.refused r (mem r m l) l, fun q apart => ?_,
    fun r m l => h.emptied r (mem r m l) l, ?_, h.sends⟩
  · rw [sending]
    exact h.queues q (apart.imp id fun out m => out (List.mem_append_left _ m))
  · rw [leaving]
    exact h.tells

/-- A function applied after its predecessors. -/
theorem State.QueuesLeft.applied {g t u : State} {leaves : Printer → Bool} {ports : List Printer} {p : Printer}
    {old : PrinterEntry} (able : g.Leavable leaves) (h : g.QueuesLeft leaves ports t) (fresh : p ∉ ports)
    (a : t.FunctionApplied p old u)
    (agrees : leaves p = true ↔ old.function = .ticket ∧ (t.printerEntry p).function ≠ .ticket) :
    g.QueuesLeft leaves (ports ++ [p]) u := by
  by_cases left : leaves p = true
  · obtain ⟨ticket, other⟩ := agrees.mp left
    obtain ⟨v, before, after⟩ := a.refuses ticket other
    exact ((h.relabels before).refuse able fresh left).relabels after
  · exact (h.relabels (a.stays fun c => left (agrees.mpr c))).skip (Bool.eq_false_of_not_eq_true left)

end Sys2Proof.Machine
end

