-- ==== Sys2Proof/Proofs/PrinterLoads.lean ====
section
/-! SUPPORT. A printer-table load at every port: each changed entry applied, then each changed function (R69; log 23). -/

namespace Sys2Proof.Machine

/-! ### One port among others -/

/-- What the changes at other ports leave of a port. -/
structure State.Apart (p : Printer) (s t : State) : Prop where
  store : t.store = s.store
  stock : t.stock = s.stock
  port : t.ports.at p = s.ports.at p
  filters : t.monitor.filters.at p = s.monitor.filters.at p
  lasting : t.monitor.lasting.at p = s.monitor.lasting.at p
  sent : s.sent <+: t.sent

theorem State.Apart.refl (p : Printer) (s : State) : State.Apart p s s := ⟨rfl, rfl, rfl, rfl, rfl, List.prefix_rfl⟩

theorem State.Apart.trans {p : Printer} {s t u : State} (a : State.Apart p s t) (b : State.Apart p t u) :
    State.Apart p s u where
  store := b.store.trans a.store
  stock := b.stock.trans a.stock
  port := b.port.trans a.port
  filters := b.filters.trans a.filters
  lasting := b.lasting.trans a.lasting
  sent := a.sent.trans b.sent

theorem State.Apart.filter {p : Printer} {s t : State} (h : State.Apart p s t) (c : Sensed) : t.filter p c = s.filter p c := by
  unfold State.filter
  rw [h.filters]

theorem State.Apart.printerEntry {p : Printer} {s t : State} (h : State.Apart p s t) (q : Printer) :
    t.printerEntry q = s.printerEntry q := by
  unfold State.printerEntry
  rw [h.store]

theorem State.Apart.loaded {p : Printer} {s t : State} (h : State.Apart p s t) (q : Printer) : t.loaded q = s.loaded q := by
  unfold State.loaded
  rw [h.stock]

theorem State.Relabels.apart {p q : Printer} {s t : State} (h : State.Relabels q s t) (other : p ≠ q) :
    State.Apart p s t := by
  refine ⟨?_, ?_, h.ports p other, by rw [h.filters], h.lasting p other, ?_⟩ <;> rw [h.rest]

theorem State.Sorts.apart {s t : State} (h : s.Sorts t) (p : Printer) : State.Apart p s t :=
  ⟨h.store, h.stock, by rw [h.ports], by rw [h.monitor], by rw [h.monitor], by rw [h.sent]⟩

theorem State.EntryApplied.apart {p q : Printer} {s t : State} {old : PrinterEntry} (h : s.EntryApplied q old t)
    (other : p ≠ q) : State.Apart p s t := by
  refine ⟨?_, ?_, h.ports p other, h.filters p other, h.lasting p other, h.sent⟩ <;> rw [h.rest]

/-- The functions of the ports and what is loaded at them, and the state of every port, stand. -/
theorem State.FunctionApplied.rest {q : Printer} {s t : State} {old : PrinterEntry} (h : s.FunctionApplied q old t) :
    (∀ p, p ≠ q → State.Apart p s t) ∧ (∀ p, (t.ports.at p).state = (s.ports.at p).state) ∧
      t.monitor.filters = s.monitor.filters ∧ t.store = s.store ∧ t.stock = s.stock ∧ s.sent <+: t.sent ∧
      (t.monitor.lasting.at q).protocol = (s.monitor.lasting.at q).protocol ∧
      (t.monitor.lasting.at q).overrun = (s.monitor.lasting.at q).overrun ∧
      (t.monitor.lasting.at q).noAnswer = (s.monitor.lasting.at q).noAnswer := by
  have states : ∀ {a b : State}, State.Relabels q a b → ∀ p, (b.ports.at p).state = (a.ports.at p).state := fun r p => by
    by_cases same : p = q
    · rw [same]
      exact r.state
    · rw [r.ports p same]
  by_cases leaves : old.function = .ticket ∧ (s.printerEntry q).function ≠ .ticket
  · obtain ⟨v, before, after⟩ := h.refuses leaves.1 leaves.2
    have sorts : v.Sorts (v.refuseQueue q) := v.resolveQueue_sorts q _ _
    refine ⟨fun p other => ((before.apart other).trans (sorts.apart p)).trans (after.apart other), fun p => ?_, ?_, ?_, ?_,
      ?_, ?_, ?_, ?_⟩
    · rw [states after p, sorts.ports, states before p]
    · rw [after.filters, sorts.monitor, before.filters]
    · rw [after.rest, sorts.store, before.rest]
    · rw [after.rest, sorts.stock, before.rest]
    · rw [after.rest, sorts.sent, before.rest]
    · rw [after.marks.1, sorts.monitor, before.marks.1]
    · rw [after.marks.2.1, sorts.monitor, before.marks.2.1]
    · rw [after.marks.2.2, sorts.monitor, before.marks.2.2]
  · have r := h.stays leaves
    obtain ⟨protocol, overrun, noAnswer⟩ := r.marks
    exact ⟨fun p other => r.apart other, states r, r.filters, by rw [r.rest], by rw [r.rest], by rw [r.rest], protocol,
      overrun, noAnswer⟩

/-- A pass over some printers that leaves each other one apart, with an invariant of the pass. -/
theorem foldl_around {inv : State → Prop} {f : State → Printer → State} {p : Printer} {l : List Printer}
    (keeps : ∀ s, inv s → ∀ q ∈ l, inv (f s q)) (others : ∀ s, inv s → ∀ q ∈ l, q ≠ p → State.Apart p s (f s q))
    (once : l.Nodup) {s : State} (start : inv s) :
    (p ∉ l → State.Apart p s (l.foldl f s)) ∧
      (p ∈ l → ∃ a, inv a ∧ State.Apart p s a ∧ State.Apart p (f a p) (l.foldl f s)) := by
  induction l generalizing s with
  | nil => exact ⟨fun _ => .refl p s, nofun⟩
  | cons q l ih =>
    obtain ⟨fresh, once⟩ := List.nodup_cons.mp once
    have next := keeps s start q List.mem_cons_self
    obtain ⟨out, in_⟩ := ih (fun s h r m => keeps s h r (List.mem_cons_of_mem q m))
      (fun s h r m => others s h r (List.mem_cons_of_mem q m)) once next
    by_cases same : q = p
    · subst same
      exact ⟨fun no => absurd List.mem_cons_self no, fun _ => ⟨s, start, .refl q s, out fresh⟩⟩
    · have first := others s start q List.mem_cons_self same
      refine ⟨fun no => first.trans (out fun m => no (List.mem_cons_of_mem q m)), fun m => ?_⟩
      obtain ⟨a, ok, before, after⟩ := in_ ((List.mem_cons.mp m).resolve_left fun h => same h.symm)
      exact ⟨a, ok, first.trans before, after⟩

/-! ### The changed printers -/

/-- The printers whose entry a load changes. -/
def changedPorts (before after : Tab PrinterEntry 12) : List Printer :=
  allPrinters.filter fun p => before.at p ≠ after.at p

theorem mem_changedPorts (before after : Tab PrinterEntry 12) (p : Printer) :
    p ∈ changedPorts before after ↔ before.at p ≠ after.at p := by
  unfold changedPorts
  simp [mem_allPrinters]

theorem changedPorts_nodup (before after : Tab PrinterEntry 12) : (changedPorts before after).Nodup :=
  allPrinters_nodup.filter _

theorem changedPrinters_eq (before after : Tab PrinterEntry 12) :
    changedPrinters before after = (changedPorts before after).map fun p => (p, before.at p) := by
  unfold changedPrinters changedPorts
  induction allPrinters with
  | nil => rfl
  | cons p l ih =>
    rw [List.filterMap_cons, List.filter_cons, ih]
    by_cases same : before.at p = after.at p <;> simp [same]

/-- The entries applied at every changed port. -/
def State.entriesApplied (s : State) (before : Tab PrinterEntry 12) : State :=
  (changedPorts before s.store.tables.printers).foldl (fun t p => t.applyEntry p (before.at p)) s

/-- The functions applied at some ports. -/
def State.functionsApplied (s : State) (before : Tab PrinterEntry 12) (ports : List Printer) : State :=
  ports.foldl (fun t p => t.applyFunction p (before.at p)) s

theorem State.printerTableWritten_eq (s : State) (before : Tab PrinterEntry 12) :
    s.printerTableWritten before = ((s.entriesApplied before).functionsApplied before
      (changedPorts before s.store.tables.printers)).settle := by
  unfold State.printerTableWritten State.entriesApplied State.functionsApplied
  rw [changedPrinters_eq]
  dsimp only
  rw [List.foldl_map, List.foldl_map]

theorem State.entriesApplied_loud (s : State) (before : Tab PrinterEntry 12) : s.Loud (s.entriesApplied before) :=
  State.Loud.foldl (fun t p => t.applyEntry_loud p _) _ s

theorem State.functionsApplied_loud (s : State) (before : Tab PrinterEntry 12) (ports : List Printer) :
    s.Loud (s.functionsApplied before ports) :=
  State.Loud.foldl (fun t p => t.applyFunction_loud p _) _ s

/-! ### The entries applied -/

theorem State.entriesApplied_rest (s : State) (before : Tab PrinterEntry 12) :
    s.entriesApplied before = { s with
      ports := (s.entriesApplied before).ports
      monitor := (s.entriesApplied before).monitor
      sent := (s.entriesApplied before).sent } := by
  unfold State.entriesApplied
  generalize changedPorts before s.store.tables.printers = l
  induction l generalizing s with
  | nil => rfl
  | cons p l ih =>
    rw [List.foldl_cons, ih, (s.applyEntry_applied p (before.at p)).rest]

/-- What a changed entry has made of its port, seen from before the load. -/
structure State.EntryTaken (s : State) (p : Printer) (old : PrinterEntry) (t : State) : Prop where
  marks : (t.monitor.lasting.at p).protocol = false ∧ (t.monitor.lasting.at p).overrun = false
  off : (s.printerEntry p).function = .off →
    t.ports.at p = { s.ports.at p with
      state := .unused, attachTimer := none, pollTimer := none, replyTimer := none, absentTimer := none
      hold := (t.ports.at p).hold } ∧
    (∀ r, (t.ports.at p).holds r = true ↔ (s.ports.at p).holds r = true ∧ ∀ c, s.releases p c → c.holdReason ≠ some r) ∧
    (t.monitor.lasting.at p).noAnswer = false ∧ ∀ c, t.filter p c = { present := false, run := 0 }
  attach : (s.printerEntry p).function ≠ .off →
    t.ports.at p = { s.ports.at p with
      state := .attaching, nextImage := 0, unanswered := 0, attachTimer := some (s.printerEntry p).selectTimeout
      pollTimer := none, replyTimer := none, absentTimer := none } ∧
    (p, .enquire) ∈ t.sent.drop s.sent.length ∧
    ∀ c, t.filter p c = if old.filterDepth = (s.printerEntry p).filterDepth then s.filter p c
      else { s.filter p c with run := 0 }

/-- What was sent between two states was sent between two states around them. -/
theorem mem_drop_of_prefix {α : Type} {a b c d : List α} {x : α} (first : a <+: b) (last : c <+: d)
    (m : x ∈ c.drop b.length) : x ∈ d.drop a.length := by
  obtain ⟨ys, rfl⟩ := last
  have m : x ∈ (c ++ ys).drop b.length := by
    rw [List.drop_append]
    exact List.mem_append_left _ m
  refine List.mem_of_mem_drop (i := b.length - a.length) ?_
  rw [List.drop_drop, Nat.add_sub_cancel' first.length_le]
  exact m

theorem State.EntryApplied.taken {p : Printer} {s a b t : State} {old : PrinterEntry} (h : a.EntryApplied p old b)
    (first : State.Apart p s a) (last : State.Apart p b t) : s.EntryTaken p old t := by
  have entry := first.printerEntry p
  have releases : ∀ c, a.releases p c ↔ s.releases p c := fun c => by
    unfold State.releases
    rw [first.filter, first.port]
  refine ⟨by rw [last.lasting]; exact h.marks, fun off => ?_, fun on => ?_⟩
  · obtain ⟨port, holds, noAnswer, filters⟩ := h.off (entry ▸ off)
    rw [first.port] at port
    refine ⟨by rw [last.port]; exact port, fun r => ?_, by rw [last.lasting]; exact noAnswer, fun c => ?_⟩
    · rw [last.port, holds, first.port]
      simp only [releases]
    · rw [last.filter]
      exact filters c
  · obtain ⟨port, sent, filters⟩ := h.attach (entry ▸ on)
    rw [first.port, entry] at port
    refine ⟨by rw [last.port]; exact port, mem_drop_of_prefix first.sent last.sent sent, fun c => ?_⟩
    rw [last.filter, filters, entry, first.filter]

theorem State.EntryTaken.idle {p : Printer} {s t : State} {old : PrinterEntry} (h : s.EntryTaken p old t) :
    (t.ports.at p).idle := by
  by_cases off : (s.printerEntry p).function = .off
  · rw [(h.off off).1]
    exact ⟨nofun, nofun⟩
  · rw [(h.attach off).1]
    exact ⟨nofun, nofun⟩

theorem State.entriesApplied_at (s : State) (before : Tab PrinterEntry 12) (p : Printer) :
    (before.at p = s.printerEntry p → State.Apart p s (s.entriesApplied before)) ∧
      (before.at p ≠ s.printerEntry p → s.EntryTaken p (before.at p) (s.entriesApplied before)) := by
  obtain ⟨out, in_⟩ := foldl_around (inv := fun _ => True) (f := fun t p => t.applyEntry p (before.at p)) (p := p)
    (fun _ _ _ _ => trivial) (fun t _ q _ other => (t.applyEntry_applied q (before.at q)).apart (Ne.symm other))
    (changedPorts_nodup before s.store.tables.printers) (s := s) trivial
  refine ⟨fun same => out fun m => (mem_changedPorts _ _ p).mp m same, fun changed => ?_⟩
  obtain ⟨a, _, first, last⟩ := in_ ((mem_changedPorts _ _ p).mpr changed)
  exact (a.applyEntry_applied p (before.at p)).taken first last

/-! ### The functions applied -/

/-- What a changed function has made of its port, seen from before. -/
structure State.FunctionTaken (s : State) (p : Printer) (old : PrinterEntry) (t : State) : Prop where
  refits : Port.Refits old.function (s.printerEntry p).function (s.loaded p) (s.ports.at p) (t.ports.at p)
  stockLow : old.lowStock ≠ (s.printerEntry p).lowStock → ∀ b, s.loaded p = some b →
    ((t.monitor.lasting.at p).stockLow = true ↔ b.remaining ≤ (s.printerEntry p).lowStock)
  filters : t.monitor.filters.at p = s.monitor.filters.at p
  marks : (t.monitor.lasting.at p).protocol = (s.monitor.lasting.at p).protocol ∧
    (t.monitor.lasting.at p).overrun = (s.monitor.lasting.at p).overrun ∧
    (t.monitor.lasting.at p).noAnswer = (s.monitor.lasting.at p).noAnswer

theorem State.FunctionApplied.taken {p : Printer} {s a b t : State} {old : PrinterEntry} (h : a.FunctionApplied p old b)
    (idle : (a.ports.at p).idle) (first : State.Apart p s a) (last : State.Apart p b t) : s.FunctionTaken p old t := by
  obtain ⟨_, _, filters, _, _, _, protocol, overrun, noAnswer⟩ := h.rest
  have entry := first.printerEntry p
  have loaded := first.loaded p
  have port := h.port
  have refits := idle.refits old.function (a.printerEntry p).function (a.loaded p)
  rw [← port, entry, loaded, first.port, ← last.port] at refits
  refine ⟨refits, ?_, ?_, ?_, ?_, ?_⟩
  · rw [last.lasting, ← entry, ← loaded]
    exact h.stockLow
  · rw [last.filters, filters, first.filters]
  · rw [last.lasting, protocol, first.lasting]
  · rw [last.lasting, overrun, first.lasting]
  · rw [last.lasting, noAnswer, first.lasting]

/-- The functions applied at ports that are neither ACTIVE nor HELD. -/
theorem State.functionsApplied_at {s : State} (before : Tab PrinterEntry 12) {ports : List Printer} (once : ports.Nodup)
    (idle : ∀ q ∈ ports, (s.ports.at q).idle) (p : Printer) :
    (p ∉ ports → State.Apart p s (s.functionsApplied before ports)) ∧
      (p ∈ ports → s.FunctionTaken p (before.at p) (s.functionsApplied before ports)) := by
  have keeps : ∀ t : State, (∀ q ∈ ports, (t.ports.at q).idle) → ∀ q ∈ ports, ∀ r ∈ ports,
      ((t.applyFunction q (before.at q)).ports.at r).idle := fun t h q m r n =>
    (h r n).of_state ((State.applyFunction_applied (h q m) (before.at q)).rest.2.1 r)
  obtain ⟨out, in_⟩ := foldl_around (inv := fun t => ∀ q ∈ ports, (t.ports.at q).idle)
    (f := fun t p => t.applyFunction p (before.at p)) (p := p) keeps
    (fun t h q m other => (State.applyFunction_applied (h q m) (before.at q)).rest.1 p (Ne.symm other)) once idle
  refine ⟨out, fun m => ?_⟩
  obtain ⟨a, ok, first, last⟩ := in_ m
  exact (State.applyFunction_applied (ok p m) (before.at p)).taken (ok p m) first last

/-- The queues of the ports that leave TICKET, port after port. -/
theorem State.functionsApplied_queues {g : State} (before : Tab PrinterEntry 12) {leaves : Printer → Bool}
    (able : g.Leavable leaves) {ports : List Printer} (once : ports.Nodup) (idle : ∀ q ∈ ports, (g.ports.at q).idle)
    (agrees : ∀ p ∈ ports, leaves p = true ↔
      (before.at p).function = .ticket ∧ (g.printerEntry p).function ≠ .ticket) :
    g.QueuesLeft leaves ports (g.functionsApplied before ports) := by
  have pass : ∀ (todo done : List Printer) (t : State), (done ++ todo).Nodup → (∀ p ∈ todo, p ∈ ports) →
      g.QueuesLeft leaves done t → g.QueuesLeft leaves (done ++ todo) (t.functionsApplied before todo) := by
    intro todo
    induction todo with
    | nil =>
      intro done t _ _ h
      rw [List.append_nil]
      exact h
    | cons p todo ih =>
      intro done t once sub h
      have fresh : p ∉ done := fun m => (List.nodup_append.mp once).2.2 p m p List.mem_cons_self rfl
      have here : (t.ports.at p).idle := (idle p (sub p List.mem_cons_self)).of_state (h.states p)
      have entry : t.printerEntry p = g.printerEntry p := by
        unfold State.printerEntry
        rw [h.store]
      have next := h.applied able fresh (State.applyFunction_applied here (before.at p))
        (by rw [entry]; exact agrees p (sub p List.mem_cons_self))
      have shift : done ++ p :: todo = (done ++ [p]) ++ todo := by simp
      rw [shift] at once ⊢
      exact ih _ _ once (fun q m => sub q (List.mem_cons_of_mem p m)) next
  exact pass ports [] g once (fun _ m => m) (.refl g leaves)

end Sys2Proof.Machine
end

