-- ==== Sys2Proof/Proofs/PrinterLoadEnds.lean ====
section
/-! SUPPORT. The end of a printer-table load from the write to the ports (R193, R69). -/

namespace Sys2Proof.Machine

/-! ### The queue of one port that leaves -/

/-- The queue of a port that no job can move to, as another port's queue, or its own, is left. -/
theorem State.refuseQueue_keepsNamed {s : State} {p : Printer} (closed : (s.ports.at p).state ≠ .active)
    (named : s.queuedAt p) (q : Printer) :
    (s.refuseQueue q).queuedAt p ∧ (s.refuseQueue q).queues.at p ⊆ s.queues.at p := by
  unfold State.refuseQueue State.resolveQueue
  generalize s.queues.at q = l
  induction l generalizing s with
  | nil => exact ⟨named, List.Subset.refl _⟩
  | cons j l ih =>
    have shut : ∀ job : Job, (fun _ : Job => true) job = true → s.sendsType p job.stockType = false := fun job _ => by
      unfold State.sendsType
      simp [closed]
    obtain ⟨named', sub⟩ := State.considerJob_queue (fun _ => true) .printerUnavailable s p j shut named
    have sorts := State.considerJob_sorts (fun _ => true) (some .printerUnavailable) s j
    obtain ⟨last, sub'⟩ := ih (s := State.considerJob (fun _ => true) (some .printerUnavailable) s j)
      (by rw [sorts.ports]; exact closed) named'
    exact ⟨last, fun k m => (sub k (sub' m)).1⟩

/-- Jobs and queues under a relabelled port. -/
theorem State.Relabels.jobs {p : Printer} {s t : State} (h : State.Relabels p s t) :
    t.jobs = s.jobs ∧ t.queues = s.queues := by
  rw [h.rest]
  exact ⟨rfl, rfl⟩

theorem State.queuedAt.congr {s t : State} {p : Printer} (h : s.queuedAt p) (jobs : t.jobs = s.jobs)
    (queues : t.queues = s.queues) : t.queuedAt p := by
  unfold State.queuedAt
  rw [jobs, queues]
  exact h

theorem State.Relabels.states {q : Printer} {s t : State} (h : State.Relabels q s t) (p : Printer) :
    (t.ports.at p).state = (s.ports.at p).state := by
  by_cases same : p = q
  · rw [same, h.state]
  · rw [h.ports p same]

/-- The queue of a port that is not ACTIVE as a function is applied, at the port or elsewhere. -/
theorem State.FunctionApplied.keepsNamed {s t : State} {p q : Printer} {old : PrinterEntry} (h : s.FunctionApplied q old t)
    (closed : (s.ports.at p).state ≠ .active) (named : s.queuedAt p) :
    t.queuedAt p ∧ t.queues.at p ⊆ s.queues.at p ∧
      (p = q → old.function = .ticket → (s.printerEntry p).function ≠ .ticket → t.queues.at p = []) := by
  by_cases leaves : old.function = .ticket ∧ (s.printerEntry q).function ≠ .ticket
  · obtain ⟨v, before, after⟩ := h.refuses leaves.1 leaves.2
    obtain ⟨jobs, queues⟩ := before.jobs
    obtain ⟨jobs', queues'⟩ := after.jobs
    have closed : (v.ports.at p).state ≠ .active := by
      rw [before.states]
      exact closed
    have named := named.congr jobs queues
    obtain ⟨kept, sub⟩ := State.refuseQueue_keepsNamed closed named q
    refine ⟨kept.congr jobs' queues', ?_, ?_⟩
    · rw [queues', ← queues]
      exact sub
    · rintro rfl _ _
      rw [queues']
      exact State.refuseQueue_empty v p closed named
  · obtain ⟨jobs, queues⟩ := (h.stays leaves).jobs
    refine ⟨named.congr jobs queues, by rw [queues]; exact List.Subset.refl _, ?_⟩
    rintro rfl a b
    exact absurd ⟨a, b⟩ leaves

/-- The queue of a port that leaves TICKET is empty when all functions have been applied. -/
theorem State.functionsApplied_emptied (before : Tab PrinterEntry 12) {p : Printer} {ports : List Printer} :
    ∀ {s : State}, (∀ q ∈ ports, (s.ports.at q).idle) → (s.ports.at p).state ≠ .active → s.queuedAt p →
      (s.functionsApplied before ports).queues.at p ⊆ s.queues.at p ∧
      (p ∈ ports → (before.at p).function = .ticket → (s.printerEntry p).function ≠ .ticket →
        (s.functionsApplied before ports).queues.at p = []) := by
  induction ports with
  | nil => exact fun _ _ _ => ⟨List.Subset.refl _, nofun⟩
  | cons q ports ih =>
    intro s idle closed named
    have first := State.applyFunction_applied (idle q List.mem_cons_self) (before.at q)
    obtain ⟨named', sub, empties⟩ := first.keepsNamed closed named
    obtain ⟨_, states, _, store, _⟩ := first.rest
    have shape : s.functionsApplied before (q :: ports) =
        (s.applyFunction q (before.at q)).functionsApplied before ports := rfl
    rw [shape]
    generalize s.applyFunction q (before.at q) = t at *
    have entry : t.printerEntry p = s.printerEntry p := by
      unfold State.printerEntry
      rw [store]
    obtain ⟨sub', empties'⟩ := ih (s := t) (fun r m => (idle r (List.mem_cons_of_mem q m)).of_state (states r))
      (by rw [states]; exact closed) named'
    refine ⟨List.Subset.trans sub' sub, fun m ticket other => ?_⟩
    rcases List.mem_cons.mp m with same | m
    · subst same
      exact List.subset_nil.mp (empties rfl ticket other ▸ sub')
    · exact empties' m ticket (by rw [entry]; exact other)

/-- What the functions leave of the state, whatever stands in the queues. -/
theorem State.functionsApplied_rest (before : Tab PrinterEntry 12) {ports : List Printer} :
    ∀ {s : State}, (∀ q ∈ ports, (s.ports.at q).idle) → let t := s.functionsApplied before ports
      t.store = s.store ∧ t.stock = s.stock ∧ s.sent <+: t.sent ∧ s.Sends t := by
  induction ports with
  | nil => exact fun {s} _ => ⟨rfl, rfl, List.prefix_rfl, .refl s⟩
  | cons q ports ih =>
    intro s idle
    have first := State.applyFunction_applied (idle q List.mem_cons_self) (before.at q)
    obtain ⟨_, states, _, store, stock, sent, _⟩ := first.rest
    have sends : s.Sends (s.applyFunction q (before.at q)) := by
      by_cases leaves : (before.at q).function = .ticket ∧ (s.printerEntry q).function ≠ .ticket
      · obtain ⟨v, r, r'⟩ := first.refuses leaves.1 leaves.2
        exact (r.sends.trans (v.resolveQueue_sends q _ _)).trans r'.sends
      · exact (first.stays leaves).sends
    have shape : s.functionsApplied before (q :: ports) =
        (s.applyFunction q (before.at q)).functionsApplied before ports := rfl
    rw [shape]
    generalize s.applyFunction q (before.at q) = t at *
    obtain ⟨store', stock', sent', sends'⟩ := ih (s := t)
      fun r m => (idle r (List.mem_cons_of_mem q m)).of_state (states r)
    exact ⟨store'.trans store, stock'.trans stock, sent.trans sent', sends.trans sends'⟩

/-! ### The write and its answer -/

theorem State.answerIf_rest (s : State) (r : Option Reply) (code : AnswerCode) (figures : Figures) :
    s.answerIf r code figures = { s with office := (s.answerIf r code figures).office } := by
  cases r <;> rfl

theorem State.answerIf_sends (s : State) (r : Option Reply) (code : AnswerCode) (figures : Figures) :
    ∀ x ∈ r, (s.office.at x.window).sendList ++ [.answer x.tag code figures false] <+:
      ((s.answerIf r code figures).office.at x.window).sendList := by
  rintro x ⟨⟩
  show _ <+: ((s.answer x code figures).office.at x.window).sendList
  rw [State.answer_sendList, if_pos rfl]

/-- The load in the table store, its request answered. -/
def State.loadStored (s : State) (es : List (Printer × PrinterEntry)) (reply : Option Reply) : State :=
  State.answerIf { s with
    store := { s.store with tables := s.store.tables.with (.printers es), write := none } } reply .done .nothing

theorem State.loadStored_rest (s : State) (es : List (Printer × PrinterEntry)) (reply : Option Reply) :
    s.loadStored es reply = { s with
      store := { s.store with tables := s.store.tables.with (.printers es), write := none }
      office := (s.loadStored es reply).office } := by
  unfold State.loadStored
  rw [State.answerIf_rest]

theorem exec_tableloadWriteEnds {s : State} {es : List (Printer × PrinterEntry)} {reply : Option Reply}
    (writing : s.store.write = some (.tableload (.printers es) reply))
    (free : s.changesBusyPort (.printers es) = false) :
    exec .tableloadWriteEnds s = .next ((s.loadStored es reply).printerTableWritten s.store.tables.printers) := by
  show execTableloadWriteEnds s = _
  have free' : State.changesBusyPort { s with store := { s.store with write := none } } (.printers es) = false := free
  unfold execTableloadWriteEnds
  rw [writing]
  dsimp only
  rw [if_neg (by rw [free']; decide), if_pos (show TableEntries.isPrinters (.printers es) = true from rfl)]
  unfold State.loadStored
  rfl

/-! ### Jobs that end -/

theorem flatMap_filter_of_nil {α β : Type} {q : α → Bool} {f : α → List β} {l : List α}
    (none_ : ∀ a ∈ l, q a = false → f a = []) : (l.filter q).flatMap f = l.flatMap f := by
  induction l with
  | nil => rfl
  | cons a l ih =>
    have tail := ih fun b m => none_ b (List.mem_cons_of_mem a m)
    rw [List.filter_cons, List.flatMap_cons]
    split
    · rw [List.flatMap_cons, tail]
    · rename_i out
      rw [tail, none_ a List.mem_cons_self (Bool.eq_false_of_not_eq_true out), List.nil_append]

theorem State.Leavable.leaving_nodup {g : State} {leaves : Printer → Bool} (h : g.Leavable leaves) {ports : List Printer}
    (once : ports.Nodup) : (g.leaving leaves ports).Nodup := by
  unfold State.leaving
  refine List.nodup_flatMap.mpr ⟨fun p _ => ?_, once.imp fun {p q} other => ?_⟩
  · split
    · exact h.once p
    · exact List.nodup_nil
  · intro j a b
    dsimp only at a b
    split at a
    · split at b
      · exact other (h.apart a b)
      · cases b
    · cases a

theorem mem_leaving {g : State} {leaves : Printer → Bool} {ports : List Printer} {j : JobNumber} :
    j ∈ g.leaving leaves ports ↔ ∃ p ∈ ports, leaves p = true ∧ j ∈ g.queues.at p := by
  unfold State.leaving
  rw [List.mem_flatMap]
  refine exists_congr fun p => and_congr_right fun _ => ?_
  by_cases l : leaves p = true <;> simp [l]

/-- The sessions of the jobs that ended are told (R21). -/
theorem State.QueuesLeft.ended {g t : State} {leaves : Printer → Bool} {ports : List Printer} (able : g.Leavable leaves)
    (once : ports.Nodup) (h : g.QueuesLeft leaves ports t) :
    g.Tells (fun i => (allJobs.filterMap fun j => if t.jobs.at j = none then g.jobs.at j else none).countP
      fun job => job.session == i) t := by
  refine h.tells.congr fun i => ?_
  unfold State.gone
  rw [countP_filterMap_allJobs (able.leaving_nodup once)]
  congr 2
  funext j
  split
  · rfl
  · rename_i out
    rw [h.jobs j fun p m l n => out (mem_leaving.mpr ⟨p, m, l, n⟩)]
    by_cases none_ : g.jobs.at j = none <;> simp [none_]

/-! ### The port's own figures -/

/-- The hold reasons of the filtered conditions under a changed entry (R136, R51). -/
theorem State.EntryTaken.sensed {s t : State} {p : Printer} {old : PrinterEntry} (h : s.EntryTaken p old t) {c : Sensed}
    {r : HoldReason} (reason : c.holdReason = some r) :
    ((s.printerEntry p).function = .off ∧ s.releases p c → (t.ports.at p).holds r = false) ∧
      (¬ ((s.printerEntry p).function = .off ∧ s.releases p c) → (t.ports.at p).holds r = (s.ports.at p).holds r) := by
  refine ⟨fun ends => ?_, fun stands => ?_⟩
  · refine Bool.eq_false_iff.mpr fun on => ?_
    exact (((h.off ends.1).2.1 r).mp on).2 c ends.2 reason
  · by_cases off : (s.printerEntry p).function = .off
    · refine Bool.eq_iff_iff.mpr (((h.off off).2.1 r).trans ⟨fun g => g.1, fun on => ⟨on, fun d rel own => ?_⟩⟩)
      cases Sensed.holdReason_injective own reason
      exact stands ⟨off, rel⟩
    · rw [(h.attach off).1]
      rfl

/-- What a changed entry keeps of the port. -/
theorem State.EntryTaken.keeps {s t : State} {p : Printer} {old : PrinterEntry} (h : s.EntryTaken p old t) :
    (t.ports.at p).device = (s.ports.at p).device ∧ (t.ports.at p).window = (s.ports.at p).window ∧
      (t.ports.at p).entries = (s.ports.at p).entries ∧ (t.ports.at p).jamLatch = (s.ports.at p).jamLatch ∧
      (t.ports.at p).lastStatus = (s.ports.at p).lastStatus ∧
      (t.ports.at p).holds .supervisor = (s.ports.at p).holds .supervisor := by
  by_cases off : (s.printerEntry p).function = .off
  · obtain ⟨port, holds, _⟩ := h.off off
    have supervisor : (t.ports.at p).holds .supervisor = (s.ports.at p).holds .supervisor := by
      refine Bool.eq_iff_iff.mpr ((holds _).trans ⟨fun g => g.1, fun on => ⟨on, fun c _ own => ?_⟩⟩)
      cases c <;> cases own
    refine ⟨?_, ?_, ?_, ?_, ?_, supervisor⟩ <;> rw [port]
  · rw [(h.attach off).1]
    exact ⟨rfl, rfl, rfl, rfl, rfl, rfl⟩

theorem Sensed.holdReason_unstocked {c : Sensed} {r : HoldReason} (reason : c.holdReason = some r) :
    r ≠ .noStock ∧ r ≠ .stockUnverified ∧ r ≠ .audit := by
  cases c <;> cases reason <;> decide

end Sys2Proof.Machine
end

