-- ==== Sys2Proof/Proofs/PrinterLoadActs.lean ====
section
/-! SUPPORT. A printer-table load at its end, put together. -/

namespace Sys2Proof.Machine

/-- The state between a load's writing and the tests after it. -/
structure State.LoadActs (s : State) (es : List (Printer × PrinterEntry)) (reply : Option Reply) (g u : State) : Prop where
  first : (s.loadStored es reply).entriesApplied s.store.tables.printers = g
  last : g.functionsApplied s.store.tables.printers
    (changedPorts s.store.tables.printers (s.loadStored es reply).store.tables.printers) = u

namespace State.LoadActs

variable {s g u : State} {es : List (Printer × PrinterEntry)} {reply : Option Reply}

theorem before (h : s.LoadActs es reply g u) :
    g.jobs = s.jobs ∧ g.queues = s.queues ∧ g.stock = s.stock ∧ g.sessions = s.sessions ∧ g.journal = s.journal ∧
      g.store = (s.loadStored es reply).store ∧ g.office = (s.loadStored es reply).office := by
  have rest := (s.loadStored es reply).entriesApplied_rest s.store.tables.printers
  rw [h.first] at rest
  have stored := s.loadStored_rest es reply
  refine ⟨?_, ?_, ?_, ?_, ?_, ?_, ?_⟩ <;> rw [rest]
  all_goals rw [stored]

/-- The ports' values before the load are those of the state in which its writing ends. -/
theorem stored (_ : s.LoadActs es reply g u) (p : Printer) :
    (s.loadStored es reply).ports = s.ports ∧ (s.loadStored es reply).monitor = s.monitor ∧
      (s.loadStored es reply).sent = s.sent ∧ (s.loadStored es reply).loaded p = s.loaded p ∧
      (∀ c, (s.loadStored es reply).filter p c = s.filter p c) ∧
      ∀ c, (s.loadStored es reply).releases p c ↔ s.releases p c := by
  rw [s.loadStored_rest]
  exact ⟨rfl, rfl, rfl, rfl, fun _ => rfl, fun _ => Iff.rfl⟩

theorem idle (h : s.LoadActs es reply g u) : ∀ q ∈ changedPorts s.store.tables.printers
    (s.loadStored es reply).store.tables.printers, (g.ports.at q).idle := fun q m => by
  have taken := ((s.loadStored es reply).entriesApplied_at s.store.tables.printers q).2 ((mem_changedPorts _ _ q).mp m)
  rw [h.first] at taken
  exact taken.idle

theorem rest (h : s.LoadActs es reply g u) :
    u.store = (s.loadStored es reply).store ∧ u.stock = s.stock ∧ g.sent <+: u.sent ∧ g.Sends u := by
  obtain ⟨_, _, stock, _, _, store, _⟩ := h.before
  have rest := State.functionsApplied_rest s.store.tables.printers h.idle
  rw [h.last] at rest
  exact ⟨rest.1.trans store, rest.2.1.trans stock, rest.2.2⟩

theorem printerEntry (h : s.LoadActs es reply g u) (p : Printer) :
    u.printerEntry p = (s.loadStored es reply).printerEntry p ∧ g.printerEntry p = u.printerEntry p := by
  obtain ⟨_, _, _, _, _, store, _⟩ := h.before
  have store' := h.rest.1
  unfold State.printerEntry
  rw [store, store']
  exact ⟨rfl, rfl⟩

/-- A port whose entry stands. -/
theorem same (h : s.LoadActs es reply g u) {p : Printer} (same : s.printerEntry p = u.printerEntry p) :
    State.Apart p (s.loadStored es reply) u := by
  rw [(h.printerEntry p).1] at same
  have first := ((s.loadStored es reply).entriesApplied_at s.store.tables.printers p).1 same
  have last := (State.functionsApplied_at s.store.tables.printers (changedPorts_nodup _ _) h.idle p).1
    fun m => (mem_changedPorts _ _ p).mp m same
  rw [h.first] at first
  rw [h.last] at last
  exact first.trans last

/-- A port whose entry changes. -/
theorem changed (h : s.LoadActs es reply g u) {p : Printer} (changed : s.printerEntry p ≠ u.printerEntry p) :
    (s.loadStored es reply).EntryTaken p (s.printerEntry p) g ∧ g.FunctionTaken p (s.printerEntry p) u := by
  rw [(h.printerEntry p).1] at changed
  have first := ((s.loadStored es reply).entriesApplied_at s.store.tables.printers p).2 changed
  have last := (State.functionsApplied_at s.store.tables.printers (changedPorts_nodup _ _) h.idle p).2
    ((mem_changedPorts _ _ p).mpr changed)
  rw [h.first] at first
  rw [h.last] at last
  exact ⟨first, last⟩

theorem loud (h : s.LoadActs es reply g u) :
    State.Loud { s with store := { s.store with tables := s.store.tables.with (.printers es), write := none } } u := by
  have stored : State.Loud { s with
      store := { s.store with tables := s.store.tables.with (.printers es), write := none } } (s.loadStored es reply) :=
    State.answerIf_loud (.refl _) reply .done .nothing
  have first := (s.loadStored es reply).entriesApplied_loud s.store.tables.printers
  rw [h.first] at first
  have last := g.functionsApplied_loud s.store.tables.printers
    (changedPorts s.store.tables.printers (s.loadStored es reply).store.tables.printers)
  rw [h.last] at last
  exact (stored.trans first).trans last

/-- The ports that leave TICKET. -/
def leaves (s u : State) (p : Printer) : Bool := decide (s.function p = .ticket ∧ u.function p ≠ .ticket)

theorem mem_of_leaves (h : s.LoadActs es reply g u) {p : Printer} (l : leaves s u p = true) :
    p ∈ changedPorts s.store.tables.printers (s.loadStored es reply).store.tables.printers := by
  refine (mem_changedPorts _ _ p).mpr fun same => ?_
  obtain ⟨ticket, other⟩ := of_decide_eq_true l
  refine other ?_
  have entry : s.printerEntry p = u.printerEntry p := by
    rw [(h.printerEntry p).1]
    exact same
  unfold State.function at *
  rw [← entry]
  exact ticket

theorem leavable (h : s.LoadActs es reply g u) (placed : ∀ p, s.placed p) : g.Leavable (leaves s u) := by
  obtain ⟨jobs, queues, _⟩ := h.before
  refine ⟨fun p => ((placed p).queuedAt).congr jobs queues, fun p => ?_, fun p l => (h.idle p (h.mem_of_leaves l)).1⟩
  rw [queues]
  exact (placed p).queue_nodup

theorem queues (h : s.LoadActs es reply g u) (placed : ∀ p, s.placed p) : g.QueuesLeft (leaves s u)
    (changedPorts s.store.tables.printers (s.loadStored es reply).store.tables.printers) u := by
  have left := State.functionsApplied_queues s.store.tables.printers (h.leavable placed)
    (changedPorts_nodup s.store.tables.printers (s.loadStored es reply).store.tables.printers) h.idle fun p _ => by
      rw [(h.printerEntry p).2]
      exact decide_eq_true_iff
  rw [h.last] at left
  exact left

/-- The queue of a port that leaves TICKET, however the other queues stand. -/
theorem emptied (h : s.LoadActs es reply g u) {p : Printer} (placed : s.placed p)
    (ticket : (s.printerEntry p).function = .ticket) (other : (u.printerEntry p).function ≠ .ticket) :
    u.queues.at p = [] := by
  obtain ⟨jobs, queues, _⟩ := h.before
  have m : p ∈ changedPorts s.store.tables.printers (s.loadStored es reply).store.tables.printers :=
    h.mem_of_leaves (decide_eq_true ⟨ticket, other⟩)
  have empty := (State.functionsApplied_emptied s.store.tables.printers h.idle (h.idle p m).1
    (placed.queuedAt.congr jobs queues)).2 m ticket (by rw [(h.printerEntry p).2]; exact other)
  rw [h.last] at empty
  exact empty

end State.LoadActs

end Sys2Proof.Machine

open Sys2Proof Sys2Proof.Machine

/-- Settles O45: the entries are applied port by port, then the functions, and what is done at one port stands while the
others are changed; the jobs of the ports that leave TICKET move or are refused in between, no one to a port that
leaves. -/
theorem printerLoadActs : Obligations.PrinterLoadActs := by
  intro s es reply writing free _
  obtain ⟨g, first⟩ : ∃ g, (s.loadStored es reply).entriesApplied s.store.tables.printers = g := ⟨_, rfl⟩
  obtain ⟨u, last⟩ : ∃ u, g.functionsApplied s.store.tables.printers
    (changedPorts s.store.tables.printers (s.loadStored es reply).store.tables.printers) = u := ⟨_, rfl⟩
  have acts : s.LoadActs es reply g u := ⟨first, last⟩
  obtain ⟨jobs, queues, _, sessions, journal, _, office⟩ := acts.before
  obtain ⟨store, stock, sent, sends⟩ := acts.rest
  have stored : (s.loadStored es reply).store =
      { s.store with tables := s.store.tables.with (.printers es), write := none } := by
    rw [s.loadStored_rest]
  have same : State.Keeps { s with store := u.store } u ∧ State.SameBooks { s with store := u.store } u := by
    rw [store, stored]
    exact ⟨acts.loud.keeps, acts.loud.books⟩
  refine ⟨u, ?_, store.trans stored, fun r m => ?_, stock, same.1, same.2, fun placed => ?_, fun p => ?_⟩
  · rw [exec_tableloadWriteEnds writing free, State.printerTableWritten_eq, first, last]
  · refine List.IsPrefix.trans ?_ (sends r.window)
    rw [office]
    unfold State.loadStored
    exact State.answerIf_sends { s with
      store := { s.store with tables := s.store.tables.with (.printers es), write := none } } reply .done .nothing r m
  · have able := acts.leavable placed
    have left := acts.queues placed
    have once := changedPorts_nodup s.store.tables.printers (s.loadStored es reply).store.tables.printers
    have told := (State.Tells.of_same (s := s) sessions fun n m => by rw [journal]; exact m).before (left.ended able once)
    refine ⟨fun p l j m y record => ?_, fun j out => ?_, fun q stays => ?_, State.Tells.jobsEnded ?_⟩
    · have l := decide_eq_true l
      rw [← queues] at m
      rw [← jobs] at record
      refine ⟨fun q goes => ?_, fun stuck => ?_⟩
      · exact left.moved p (acts.mem_of_leaves l) l j m y record q (by rw [← left.moveTarget]; exact goes)
      · exact left.refused p (acts.mem_of_leaves l) l j m y record (by rw [← left.moveTarget]; exact stuck)
    · rw [← jobs]
      refine left.jobs j fun p _ l => ?_
      rw [queues]
      exact out p (of_decide_eq_true l)
    · rw [left.queues q (Or.inl (decide_eq_false stays)), queues]
      congr 1
      unfold State.sendingTo changedPorts
      rw [flatMap_filter_of_nil]
      · refine List.flatMap_congr fun p _ => ?_
        rw [queues, jobs]
        refine (ite_congr (propext decide_eq_true_iff) (fun _ => ?_) fun _ => rfl)
        refine List.filter_congr fun j _ => ?_
        rw [show (s.jobs.at j).bind (fun y => g.moveTarget y) = (s.jobs.at j).bind fun y => u.moveTarget y from
          Option.bind_congr fun y _ => (left.moveTarget y).symm]
      · intro p _ unchanged
        refine if_neg fun l => ?_
        have m := (mem_changedPorts _ _ p).mp (acts.mem_of_leaves l)
        simp [m] at unchanged
    · rw [← jobs]
      exact told
  · obtain ⟨ports, monitor, sent', loaded, filter, releases⟩ := acts.stored p
    refine ⟨fun stands => ?_, fun changed => ?_⟩
    · have apart := acts.same stands
      exact ⟨apart.port.trans (by rw [ports]), apart.filters.trans (by rw [monitor])⟩
    · obtain ⟨entry, function⟩ := acts.changed changed
      obtain ⟨of_load, of_g⟩ := acts.printerEntry p
      obtain ⟨device, window, entries, latch, status, supervisor⟩ := entry.keeps
      have refits := function.refits
      obtain ⟨protocol, overrun, noAnswer⟩ := function.marks
      have loaded' : g.loaded p = s.loaded p := by
        unfold State.loaded
        rw [acts.before.2.2.1]
      have filters : ∀ c, u.filter p c = g.filter p c := fun c => by
        unfold State.filter
        rw [function.filters]
      rw [of_g, loaded'] at refits
      rw [ports] at device window entries latch status supervisor
      have fields := refits.rest
      refine ⟨?_, ?_, ?_, ?_, ?_, ?_, fun c r reason => ?_, ?_, ?_, fun off => ?_, fun on => ?_, fun ticket other => ?_,
        refits.audit, refits.slips, refits.joined, fun changes b held => ?_⟩
      · rw [fields]; exact device
      · rw [fields]; exact window
      · rw [fields]; exact entries
      · rw [fields]; exact latch
      · rw [fields]; exact status
      · rw [refits.holds _ (by decide) (by decide) (by decide)]
        exact supervisor
      · obtain ⟨a, b, c'⟩ := Sensed.holdReason_unstocked reason
        obtain ⟨ends, stands⟩ := entry.sensed reason
        rw [← of_load, releases] at ends stands
        rw [ports] at stands
        rw [refits.holds r a b c']
        exact ⟨ends, stands⟩
      · rw [protocol]
        exact entry.marks.1
      · rw [overrun]
        exact entry.marks.2
      · obtain ⟨port, _, absent, filters'⟩ := entry.off (by rw [← of_load]; exact off)
        rw [port] at fields
        refine ⟨?_, ?_, ?_, ?_, ?_, noAnswer.trans absent, fun c => (filters c).trans (filters' c)⟩ <;> rw [fields]
      · obtain ⟨port, enquired, filters'⟩ := entry.attach (by rw [← of_load]; exact on)
        rw [port, ← of_load] at fields
        rw [sent'] at enquired
        rw [← of_load] at filters'
        refine ⟨?_, ?_, ?_, ?_, ?_, ?_, ?_, mem_drop_of_prefix List.prefix_rfl sent enquired, fun c => ?_⟩
        iterate 7 rw [fields]
        rw [filters, filters', filter]
      · obtain ⟨a, b, c⟩ := refits.left ticket other
        exact ⟨a, b, c, fun placed => acts.emptied placed ticket other⟩
      · rw [← of_g] at changes ⊢
        exact function.stockLow changes b (loaded'.trans held)
end

