-- ==== Sys2Proof/Proofs/Restarted.lean ====
section
/-! SUPPORT. What a restart leaves of journal memory, and the monitor and the engines after recovery from there (R173,
R178, R71). -/

namespace Sys2Proof.Machine

/-! ### Journal memory -/

theorem Vector.at_replicate {α : Type} (n : Nat) (x : α) (i : Fin n) : (Vector.replicate n x).at i = x := by
  unfold Vector.at
  simp

/-- Bytes written over a stretch leave what lies outside it. -/
theorem read_tear (draw : Nat) {m : List Host.Cell} (sound : Memory.wf m) {a n : Nat} (size : a + n ≤ Memory.size) {x : Nat}
    (out : x < a ∨ a + n ≤ x) : Memory.read (tear draw m a n) x = Memory.read m x := by
  have length : ((List.range n).map fun i => Config.tornByte draw (a + i)).length = n := by
    rw [List.length_map, List.length_range]
  unfold tear
  rw [Memory.read_writeAll sound (by rw [length]; exact size), length, if_neg (by omega)]

/-- A slot lies in its page. -/
theorem slot_within_page (page : Fin 128) (slot : Fin 16) : slotAddress page 0 ≤ slotAddress page slot ∧
    slotAddress page slot + 32 ≤ slotAddress page 0 + 512 := by
  have := slot.isLt
  simp only [slotAddress, Config.pageBytes, Config.slotBytes, Fin.val_zero]
  omega

/-- The writer is at a slot of the head's page. -/
def Journal.writesSlot (j : Journal) : Prop := j.writer = .writing ∨ ∃ rs ab, j.writer = .checkpoint rs false ab

/-- A write cut short touches its slot or, in an erase, its page (R173). -/
theorem Journal.read_tornMemory {j : Journal} (sound : Memory.wf j.memory) (draw x : Nat) :
    (x < slotAddress j.page 0 ∨ slotAddress j.page 0 + 512 ≤ x →
      Memory.read (j.tornMemory draw) x = Memory.read j.memory x) ∧
    (j.writesSlot → x < slotAddress j.page j.slot ∨ slotAddress j.page j.slot + 32 ≤ x →
      Memory.read (j.tornMemory draw) x = Memory.read j.memory x) := by
  have slot : x < slotAddress j.page j.slot ∨ slotAddress j.page j.slot + 32 ≤ x →
      Memory.read (tear draw j.memory (slotAddress j.page j.slot) Config.slotBytes) x = Memory.read j.memory x :=
    read_tear draw sound (slotAddress_lt _ _)
  have page : x < slotAddress j.page 0 ∨ slotAddress j.page 0 + 512 ≤ x →
      Memory.read (tear draw j.memory (slotAddress j.page 0) Config.pageBytes) x = Memory.read j.memory x :=
    read_tear draw sound (pageAddress_lt _)
  have within := slot_within_page j.page j.slot
  have slot' : x < slotAddress j.page 0 ∨ slotAddress j.page 0 + 512 ≤ x →
      Memory.read (tear draw j.memory (slotAddress j.page j.slot) Config.slotBytes) x = Memory.read j.memory x :=
    fun out => slot (by omega)
  unfold Journal.writesSlot Journal.tornMemory
  cases j.writer with
  | idle => exact ⟨fun _ => rfl, fun _ _ => rfl⟩
  | stopped => exact ⟨fun _ => rfl, fun _ _ => rfl⟩
  | writing => exact ⟨slot', fun _ => slot⟩
  | erasing => exact ⟨page, fun at_ => by rcases at_ with at_ | ⟨_, _, at_⟩ <;> cases at_⟩
  | checkpoint rest erasing abandoned =>
    cases erasing with
    | true => exact ⟨page, fun at_ => by rcases at_ with at_ | ⟨_, _, at_⟩ <;> cases at_⟩
    | false => exact ⟨slot', fun _ => slot⟩

/-! ### The monitor through recovery -/

/-- Filters and the marks of lasting conditions stand. -/
structure State.SameMarks (s t : State) : Prop where
  filters : t.monitor.filters = s.monitor.filters
  lasting : t.monitor.lasting = s.monitor.lasting

theorem State.SameMarks.refl (s : State) : s.SameMarks s := ⟨rfl, rfl⟩

theorem State.SameMarks.trans {s t u : State} (a : s.SameMarks t) (b : t.SameMarks u) : s.SameMarks u :=
  ⟨b.filters.trans a.filters, b.lasting.trans a.lasting⟩

theorem State.SameMarks.of_monitor {s t : State} (monitor : t.monitor = s.monitor) : s.SameMarks t := by
  refine ⟨?_, ?_⟩ <;> rw [monitor]

theorem State.stopJournal_marks (s : State) : s.SameMarks s.stopJournal := by
  unfold State.stopJournal
  refine State.SameMarks.trans (t := s.updateJournal fun j => { j with writer := .stopped }) (.of_monitor rfl) ?_
  refine ⟨State.raise_filters _ _, ?_⟩
  unfold State.raise
  rw [State.report_lasting]
  rfl

theorem State.replay_marks (s : State) (cause : RestartCause) : s.SameMarks (s.replay cause).1 := by
  unfold State.replay
  split
  · exact .of_monitor rfl
  · dsimp only
    split
    · split
      · exact .of_monitor rfl
      · refine State.SameMarks.trans ?_ (State.stopJournal_marks _)
        exact .of_monitor rfl
    · unfold State.startWriter
      split
      · exact .of_monitor (State.startNext_hands _).monitor
      · exact .of_monitor rfl

theorem State.recordReport_marks (s : State) (r : Report) :
    s.SameMarks (s.recordReport r) ∧ (s.recordReport r).monitor.waiting = s.monitor.waiting := by
  cases r with
  | occurred c =>
    show s.SameMarks (s.recordOccurrence c) ∧ (s.recordOccurrence c).monitor.waiting = _
    unfold State.recordOccurrence
    dsimp only
    rw [State.notice_monitor]
    exact ⟨⟨by rw [State.notice_monitor], by rw [State.notice_monitor]⟩, rfl⟩
  | ended c => exact ⟨⟨rfl, rfl⟩, rfl⟩

/-- What waited is recorded, and nothing waits any more (R178 step 2). -/
theorem State.recordWaiting_marks (s : State) : s.SameMarks s.recordWaiting ∧ s.recordWaiting.monitor.waiting = [] := by
  have fold : ∀ (l : List Report) (t : State), t.monitor.waiting = [] → s.SameMarks t →
      s.SameMarks (l.foldl State.recordReport t) ∧ (l.foldl State.recordReport t).monitor.waiting = [] := by
    intro l
    induction l with
    | nil => exact fun _ none_ marks => ⟨marks, none_⟩
    | cons r l ih =>
      intro t none_ marks
      obtain ⟨same, waiting⟩ := t.recordReport_marks r
      exact ih _ (waiting.trans none_) (marks.trans same)
  exact fold s.monitor.waiting _ rfl ⟨rfl, rfl⟩

/-! ### The engines after recovery -/

/-- A port's values under restart, its hold reasons apart (Table 3-1, R71). -/
def Port.restarted (function : PortFunction) (timeout : Nat) (hold : HoldSet) : Port :=
  if function = .off then { emptyPort with hold := hold }
  else { emptyPort with hold := hold, state := .attaching, attachTimer := some timeout }

theorem State.beginAttach_ports (s : State) (p : Printer) : (s.beginAttach p).ports = s.ports.put p { s.ports.at p with
    state := .attaching, nextImage := 0, unanswered := 0, attachTimer := some (s.printerEntry p).selectTimeout
    pollTimer := none, replyTimer := none, absentTimer := none } := rfl

theorem State.restartPort_ports (s : State) (p : Printer) : (s.restartPort p).ports =
    s.ports.put p (Port.restarted (s.function p) (s.printerEntry p).selectTimeout (s.restartHolds p)) := by
  unfold State.restartPort Port.restarted
  dsimp only
  generalize same : ({ emptyPort with hold := s.restartHolds p } : Port) = y
  have function : (s.setPort p y).function p = s.function p := rfl
  rw [function]
  split
  · rfl
  · have attach := (s.setPort p y).beginAttach_ports p
    have at_ : (s.setPort p y).ports.at p = y := Vector.at_put_same ..
    rw [attach, at_]
    show (s.ports.put p y).put p _ = _
    rw [Vector.put_put, ← same]
    rfl

theorem State.restartPort_rest (s : State) (p : Printer) :
    s.restartPort p = { s with ports := (s.restartPort p).ports, sent := (s.restartPort p).sent } := by
  unfold State.restartPort
  dsimp only
  split <;> rfl

/-- Every engine takes its values after a restart. -/
theorem State.restartPorts_effect (s : State) (l : List Printer) :
    let t := l.foldl State.restartPort s
    t = { s with ports := t.ports, sent := t.sent } ∧ ∀ p ∈ l, t.ports.at p =
      Port.restarted (s.function p) (s.printerEntry p).selectTimeout (s.restartHolds p) := by
  have others : ∀ (l : List Printer) (t : State), t.store = s.store → t.stock = s.stock →
      let u := l.foldl State.restartPort t
      u = { t with ports := u.ports, sent := u.sent } ∧ (∀ p ∉ l, u.ports.at p = t.ports.at p) ∧
        ∀ p ∈ l, u.ports.at p = Port.restarted (s.function p) (s.printerEntry p).selectTimeout (s.restartHolds p) := by
    intro l
    induction l with
    | nil => exact fun t _ _ => ⟨rfl, fun _ _ => rfl, nofun⟩
    | cons q l ih =>
      intro t store stock
      have rest := t.restartPort_rest q
      have ports := t.restartPort_ports q
      have own : (t.restartPort q).ports.at q =
          Port.restarted (s.function q) (s.printerEntry q).selectTimeout (s.restartHolds q) := by
        rw [ports, Vector.at_put_same]
        unfold State.restartHolds State.loaded State.function State.printerEntry
        rw [store, stock]
      obtain ⟨rest', stays, takes⟩ := ih (t.restartPort q) (by rw [rest]; exact store) (by rw [rest]; exact stock)
      rw [List.foldl_cons]
      refine ⟨by rw [rest', rest], fun p out => ?_, fun p m => ?_⟩
      · rw [stays p fun m => out (List.mem_cons_of_mem q m), ports,
          Vector.at_put_other _ _ fun same : q = p => out (same ▸ List.mem_cons_self)]
      · by_cases later : p ∈ l
        · exact takes p later
        · have same : p = q := (List.mem_cons.mp m).resolve_right later
          rw [stays p later, same]
          exact own
  obtain ⟨rest, _, takes⟩ := others l s rfl rfl
  exact ⟨rest, takes⟩

/-- Recovery as it leaves the controller RUNNING, before the tests (R178). -/
def State.recovered (s : State) (cause : RestartCause) (last : Nat) : State :=
  { allPrinters.foldl State.restartPort (s.hand (.restart cause last) .nothing).recordWaiting with phase := .running }

theorem State.completeRecovery_eq (s : State) (cause : RestartCause) (last : Nat) :
    s.completeRecovery cause last = (s.recovered cause last).settle := rfl

theorem State.recovered_effect (s : State) (cause : RestartCause) (last : Nat) :
    let v := s.recovered cause last
    s.SameMarks v ∧ v.monitor.waiting = [] ∧ ∀ p, v.ports.at p =
      Port.restarted (v.function p) (v.printerEntry p).selectTimeout (v.ports.at p).hold := by
  have handed := (s.hand_effect (.restart cause last) .nothing).1
  have marks : s.SameMarks (s.hand (.restart cause last) .nothing) := .of_monitor handed.monitor
  unfold State.recovered
  generalize s.hand (.restart cause last) .nothing = h at *
  obtain ⟨same, waiting⟩ := h.recordWaiting_marks
  generalize h.recordWaiting = w at *
  obtain ⟨rest, ports⟩ := w.restartPorts_effect allPrinters
  generalize allPrinters.foldl State.restartPort w = v at *
  have monitor : v.monitor = w.monitor := by rw [rest]
  refine ⟨(marks.trans same).trans (.of_monitor monitor), (congrArg Monitor.waiting monitor).trans waiting, fun p => ?_⟩
  have port := ports p (mem_allPrinters p)
  have hold : (v.ports.at p).hold = w.restartHolds p := by
    rw [port]
    unfold Port.restarted
    split <;> rfl
  have entry : v.printerEntry p = w.printerEntry p := by
    rw [rest]
    rfl
  show v.ports.at p = Port.restarted (v.function p) (v.printerEntry p).selectTimeout (v.ports.at p).hold
  rw [hold, port]
  unfold State.function
  rw [entry]

end Sys2Proof.Machine

open Sys2Proof Sys2Proof.Machine

/-- Settles O59: a restart sets every block anew but for the stores, a write cut short touches its own bytes alone, and
recovery records what waited and sets every engine, whatever replay finds. -/
theorem restarts : Obligations.Restarts := by
  intro c cause s event
  have restart : exec c s = .next (s.restart cause) := by
    simp only [List.mem_cons, Prod.mk.injEq, List.not_mem_nil, or_false] at event
    rcases event with ⟨rfl, rfl⟩ | ⟨rfl, rfl⟩ | ⟨rfl, rfl⟩ <;> rfl
  refine ⟨s.restart cause, restart, rfl, rfl, rfl, fun w => Vector.at_replicate 8 _ w, fun j => Vector.at_replicate 32 _ j,
    fun p => ⟨Vector.at_replicate 12 _ p, Vector.at_replicate 12 _ p, Vector.at_replicate 12 _ p⟩, rfl, rfl,
    fun i => Vector.at_replicate 24 _ i, rfl, rfl, fun p d => ?_, fun p => Vector.at_replicate 12 _ p, rfl, rfl, rfl, rfl,
    fun still => ?_, fun sound a => Journal.read_tornMemory sound s.draws a, rfl, rfl, rfl, ?_⟩
  · show ((emptyFilters.at p).at d.place) = _
    unfold emptyFilters
    rw [Vector.at_replicate, Vector.at_replicate]
  · show s.journal.tornMemory s.draws = _
    unfold Journal.tornMemory
    rcases still with still | still <;> rw [still]
  · let u := (s.restart cause).beginRecovery cause
    let z : State := { u with store := { u.store with valid := true, causes := u.store.causes.put cause.place true, write := none } }
    have marks := z.replay_marks cause
    have ended : exec .causeWriteEnds u = .next ((z.replay cause).1.completeRecovery cause (z.replay cause).2) := rfl
    rw [State.completeRecovery_eq] at ended
    obtain ⟨same, waiting, ports⟩ := (z.replay cause).1.recovered_effect cause (z.replay cause).2
    refine ⟨u, _, rfl, ended, fun p d => ?_, fun p => ?_, waiting, fun p => ?_⟩
    · show ((State.monitor _).filters.at p).at d.place = _
      rw [same.filters, marks.filters]
      show ((emptyFilters.at p).at d.place) = _
      unfold emptyFilters
      rw [Vector.at_replicate, Vector.at_replicate]
    · rw [same.lasting, marks.lasting]
      exact Vector.at_replicate 12 _ p
    · refine (ports p).trans ?_
      unfold Port.restarted
      split <;> rfl
end

