-- ==== Sys2Proof/Proofs/RecordsReported.lean ====
section
/-! SUPPORT. A written record reported to its blocks: what sessions see of it, and its answer (R19, R20, R99, R108, R151). -/

namespace Sys2Proof.Machine

/-! ### A session's jobs and pending records counted down -/

/-- What a session sees as so many jobs and so many pending records of it end. -/
structure Session.Counted (k l : Nat) (x y : Session) (claimed : Prop) : Prop where
  state : y.state = x.state
  jobs : y.jobs = x.jobs - k
  pending : y.pendingRecords = x.pendingRecords - l
  owed : x.signOffOwed = true → y.signOffOwed = true
  claims : y.signOffOwed = true → x.signOffOwed = true ∨ claimed
  told : 0 < k + l → y.finished = true → y.signOffOwed = true

theorem Session.Counted.refl (x : Session) (c : Prop) : Session.Counted 0 0 x x c :=
  ⟨rfl, rfl, rfl, id, Or.inl, fun h => absurd h (Nat.lt_irrefl 0)⟩

theorem Session.finished_iff (x : Session) :
    x.finished = true ↔ x.state = .closing ∧ x.jobs = 0 ∧ x.pendingRecords = 0 := by
  unfold Session.finished
  simp only [Bool.and_eq_true, beq_iff_eq, and_assoc]

theorem Session.Counted.trans {i j k l : Nat} {x y z : Session} {c d : Prop} (a : Session.Counted i j x y c)
    (b : Session.Counted k l y z d) (lasts : c → d) : Session.Counted (i + k) (j + l) x z d where
  state := b.state.trans a.state
  jobs := by rw [b.jobs, a.jobs, Nat.sub_sub]
  pending := by rw [b.pending, a.pending, Nat.sub_sub]
  owed h := b.owed (a.owed h)
  claims h := (b.claims h).elim (fun g => (a.claims g).imp id lasts) Or.inr
  told h fin := by
    by_cases later : 0 < k + l
    · exact b.told later fin
    · obtain ⟨closing, jobs, pending⟩ := (z.finished_iff).mp fin
      have none_ := b.jobs
      have none_' := b.pending
      exact b.owed (a.told (by omega) ((y.finished_iff).mpr ⟨b.state ▸ closing, by omega, by omega⟩))

/-- Of each session some jobs and some pending records have ended. -/
structure State.Counts (s : State) (jobs pending : Nat → Nat) (u : State) : Prop where
  claims : ∀ n, Claim.session n ∈ s.journal.claims → Claim.session n ∈ u.journal.claims
  sessions : ∀ n x, s.session n = some x → ∃ y, u.session n = some y ∧
    Session.Counted (jobs n) (pending n) x y (.session n ∈ u.journal.claims)

theorem State.Counts.of_same {s u : State} (sessions : u.sessions = s.sessions)
    (claims : u.journal.claims = s.journal.claims) : s.Counts (fun _ => 0) (fun _ => 0) u :=
  ⟨fun _ h => by rw [claims]; exact h, fun n x h => ⟨x, by unfold State.session at h ⊢; rw [sessions]; exact h, .refl _ _⟩⟩

theorem State.Counts.trans {s t u : State} {i j k l : Nat → Nat} (a : s.Counts i j t) (b : t.Counts k l u) :
    s.Counts (fun n => i n + k n) (fun n => j n + l n) u where
  claims n h := b.claims n (a.claims n h)
  sessions n x h := by
    obtain ⟨y, hy, first⟩ := a.sessions n x h
    obtain ⟨z, hz, second⟩ := b.sessions n y hy
    exact ⟨z, hz, first.trans second (b.claims n)⟩

theorem State.Counts.congr {s u : State} {i j k l : Nat → Nat} (h : s.Counts i j u) (jobs : ∀ n, i n = k n)
    (pending : ∀ n, j n = l n) : s.Counts k l u :=
  (funext jobs : i = k) ▸ (funext pending : j = l) ▸ h

theorem State.Counts.after {s t u : State} {i j : Nat → Nat} (a : s.Counts i j t)
    (b : t.Counts (fun _ => 0) (fun _ => 0) u) : s.Counts i j u := a.trans b

theorem State.Counts.before {s t u : State} {i j : Nat → Nat} (a : s.Counts (fun _ => 0) (fun _ => 0) t)
    (b : t.Counts i j u) : s.Counts i j u := (a.trans b).congr (fun _ => Nat.zero_add _) fun _ => Nat.zero_add _

/-- The test of R108 counts nothing down, and a finished session owes its sign-off after it. -/
theorem State.signOffTest_counts (s : State) (n : Nat) : s.Counts (fun _ => 0) (fun _ => 0) (s.signOffTest n) ∧
    ∀ y, (s.signOffTest n).session n = some y → y.finished = true → y.signOffOwed = true := by
  refine ⟨?_, (s.signOffTest_tells n).2⟩
  unfold State.signOffTest
  cases found : s.session n with
  | none => exact .of_same rfl rfl
  | some x =>
    dsimp only
    split
    · have session : ∀ m, ((s.modifySession n fun x => { x with signOffOwed := true }).addClaim
          (.session n)).session m = if n = m then (s.session m).map fun x => { x with signOffOwed := true }
            else s.session m := State.session_modifySession s n _ fun _ => rfl
      refine ⟨fun i h => (State.addClaim_mem _ _ _).mpr (Or.inl h), fun i z h => ?_⟩
      rw [session]
      split
      · rename_i same
        subst same
        refine ⟨{ z with signOffOwed := true }, by rw [h]; rfl, rfl, rfl, rfl, fun _ => rfl, fun _ => Or.inr ?_,
          fun _ _ => rfl⟩
        exact (State.addClaim_mem _ _ _).mpr (Or.inr rfl)
      · exact ⟨z, h, .refl _ _⟩
    · exact .of_same rfl rfl

/-- A count taken down at one session, and its test. -/
theorem State.countDown_counts (s : State) (n k l : Nat) (f : Session → Session) (number : ∀ x, (f x).number = x.number)
    (state : ∀ x, (f x).state = x.state) (jobs : ∀ x, (f x).jobs = x.jobs - k)
    (pending : ∀ x, (f x).pendingRecords = x.pendingRecords - l) (owed : ∀ x, (f x).signOffOwed = x.signOffOwed) :
    s.Counts (fun i => if n = i then k else 0) (fun i => if n = i then l else 0) ((s.modifySession n f).signOffTest n) := by
  obtain ⟨test, told⟩ := (s.modifySession n f).signOffTest_counts n
  refine ⟨test.claims, fun i x h => ?_⟩
  have counted := State.session_modifySession s n f number i
  rw [h] at counted
  by_cases same : n = i
  · subst same
    rw [if_pos rfl] at counted
    obtain ⟨y, found, t⟩ := test.sessions n _ counted
    refine ⟨y, found, t.state.trans (state x), ?_, ?_, fun o => t.owed ((owed x).trans o), fun o => ?_, fun _ => told y found⟩
    · rw [if_pos rfl, t.jobs, jobs, Nat.sub_zero]
    · rw [if_pos rfl, t.pending, pending, Nat.sub_zero]
    · rw [← owed x]
      exact t.claims o
  · rw [if_neg same] at counted
    simp only [if_neg same]
    exact test.sessions i x counted

theorem State.recordEnded_counts (s : State) (n : Nat) :
    s.Counts (fun _ => 0) (fun i => if n = i then 1 else 0) (s.recordEnded n) :=
  (s.countDown_counts n 0 1 (fun x => { x with pendingRecords := x.pendingRecords - 1 }) (fun _ => rfl) (fun _ => rfl)
    (fun _ => rfl) (fun _ => rfl) fun _ => rfl).congr (fun _ => by split <;> rfl) fun _ => rfl

theorem State.endJob_counts (s : State) (j : JobNumber) (job : Job) (code : AnswerCode) (figures : Figures) :
    s.Counts (fun i => if job.session = i then 1 else 0) (fun _ => 0) (s.endJob j job code figures) :=
  (State.Counts.of_same (s := s) (u := (s.setJob j none).answer job.origin code figures) rfl rfl).before
    ((State.countDown_counts _ job.session 1 0 (fun x => { x with jobs := x.jobs - 1 }) (fun _ => rfl) (fun _ => rfl)
      (fun _ => rfl) (fun _ => rfl) fun _ => rfl).congr (fun _ => rfl) fun _ => by split <;> rfl)

/-! ### A record in the accounts of the sessions -/

/-- Every session stays, with its jobs, its pending records and the sign-off it owes. -/
def SessionUnit.Carries (u v : SessionUnit) : Prop := ∀ n x, u.get (fun x => x.number == n) = some x →
  ∃ y, v.get (fun x => x.number == n) = some y ∧ y.jobs = x.jobs ∧ y.pendingRecords = x.pendingRecords ∧
    y.signOffOwed = x.signOffOwed

theorem SessionUnit.Carries.refl (u : SessionUnit) : u.Carries u := fun _ x h => ⟨x, h, rfl, rfl, rfl⟩

theorem SessionUnit.Carries.trans {u v w : SessionUnit} (a : u.Carries v) (b : v.Carries w) : u.Carries w := fun n x h => by
  obtain ⟨y, hy, jobs, pending, owed⟩ := a n x h
  obtain ⟨z, hz, jobs', pending', owed'⟩ := b n y hy
  exact ⟨z, hz, jobs'.trans jobs, pending'.trans pending, owed'.trans owed⟩

theorem SessionUnit.Carries.of_table {u v : SessionUnit} (table : v.table = u.table) : u.Carries v := fun n x h =>
  ⟨x, by unfold SessionUnit.get SessionUnit.find at h ⊢; rw [table]; exact h, rfl, rfl, rfl⟩

/-- A change of a session that leaves its number, its counts and its sign-off. -/
theorem SessionUnit.modify_carries (u : SessionUnit) (n : Nat) {f : Session → Session}
    (same : ∀ x, (f x).number = x.number ∧ (f x).jobs = x.jobs ∧ (f x).pendingRecords = x.pendingRecords ∧
      (f x).signOffOwed = x.signOffOwed) : u.Carries (u.modify n f) := fun m x h => by
  rw [u.get_modify n f (fun x => (same x).1) m, h]
  obtain ⟨_, jobs, pending, owed⟩ := same x
  split
  · exact ⟨f x, rfl, jobs, pending, owed⟩
  · exact ⟨x, rfl, rfl, rfl, rfl⟩

theorem SessionUnit.addFigures_carries (u : SessionUnit) (r : JRecord) : u.Carries (u.addFigures r) := by
  unfold SessionUnit.addFigures
  split
  · exact u.modify_carries _ fun _ => ⟨rfl, rfl, rfl, rfl⟩
  · exact u.modify_carries _ fun _ => ⟨rfl, rfl, rfl, rfl⟩
  · exact u.modify_carries _ fun _ => ⟨rfl, rfl, rfl, rfl⟩
  · exact u.modify_carries _ fun _ => ⟨rfl, rfl, rfl, rfl⟩
  · exact u.modify_carries _ fun _ => ⟨rfl, rfl, rfl, rfl⟩
  · exact .refl u

/-- A record other than a CLOSE frees no session. -/
theorem SessionUnit.written_carries (u : SessionUnit) (rest : List Queued) {r : JRecord}
    (stays : ∀ n band given, r ≠ .close n band given) : u.Carries (u.written rest r) := by
  unfold SessionUnit.written
  split
  · exact u.modify_carries _ fun _ => ⟨rfl, rfl, rfl, rfl⟩
  · exact u.modify_carries _ fun _ => ⟨rfl, rfl, rfl, rfl⟩
  · exact .of_table rfl
  · unfold SessionUnit.settleVoid
    split
    · exact .refl u
    · exact .of_table rfl
  · exact u.modify_carries _ fun _ => ⟨rfl, rfl, rfl, rfl⟩
  · exact absurd rfl (stays _ _ _)
  · exact .refl u

theorem SessionUnit.written_nextNumber (u : SessionUnit) (rest : List Queued) (r : JRecord) :
    (u.written rest r).nextNumber = u.nextNumber := by
  unfold SessionUnit.written
  split
  · exact SessionUnit.modify_nextNumber ..
  · exact SessionUnit.modify_nextNumber ..
  · rfl
  · unfold SessionUnit.settleVoid
    split <;> rfl
  · exact SessionUnit.modify_nextNumber ..
  · split <;> rfl
  · rfl

theorem SessionUnit.addFigures_nextNumber (u : SessionUnit) (r : JRecord) : (u.addFigures r).nextNumber = u.nextNumber := by
  unfold SessionUnit.addFigures
  split
  · exact SessionUnit.modify_nextNumber ..
  · exact SessionUnit.modify_nextNumber ..
  · exact SessionUnit.modify_nextNumber ..
  · exact SessionUnit.modify_nextNumber ..
  · exact SessionUnit.modify_nextNumber ..
  · rfl

/-! ### The answer -/

theorem State.signOffTest_rest (s : State) (n : Nat) : s.signOffTest n = { s with
    sessions := (s.signOffTest n).sessions
    journal := { s.journal with claims := (s.signOffTest n).journal.claims } } := by
  unfold State.signOffTest
  split
  · split
    · unfold State.addClaim State.updateJournal State.modifySession
      dsimp only
      split <;> rfl
    · rfl
  · rfl

theorem State.recordEnded_rest (s : State) (n : Nat) : s.recordEnded n = { s with
    sessions := (s.recordEnded n).sessions
    journal := { s.journal with claims := (s.recordEnded n).journal.claims } } := by
  have rest := (s.modifySession n fun x => { x with pendingRecords := x.pendingRecords - 1 }).signOffTest_rest n
  unfold State.recordEnded
  rw [rest]
  rfl

/-- A slip that is composed touches the ports alone. -/
theorem State.slipFor_rest (s : State) (n : Nat) : (s.slipFor n).1 = { s with ports := (s.slipFor n).1.ports } := by
  unfold State.slipFor State.handSlip
  split
  · split
    · split
      · rfl
      · split <;> rfl
    · rfl
  · rfl

/-- What the answer to a written record leaves. -/
structure State.Answers (s t : State) : Prop where
  rest : t = { s with
    ports := t.ports, jobs := t.jobs, office := t.office, sessions := t.sessions
    journal := { s.journal with claims := t.journal.claims } }
  books : s.SameBooks t

theorem State.answerWritten_answers (s : State) (r : JRecord) (link : Link) : s.Answers (s.answerWritten r link) := by
  refine ⟨?_, (s.answerWritten_loud r link).books⟩
  unfold State.answerWritten
  cases link with
  | nothing =>
    dsimp only
    split
    · rw [State.slipFor_rest]
    · rfl
  | request reply code figures => rfl
  | job j =>
    dsimp only
    split
    · have sorts := s.endJob_sorts j ‹Job› (Job.completion ‹Job›).1 (Job.completion ‹Job›).2
      have queues := s.endJob_queues j ‹Job› (Job.completion ‹Job›).1 (Job.completion ‹Job›).2
      rw [sorts.rest, queues]
    · rfl
  | declare reply =>
    dsimp only
    split
    · rename_i n _ _ _ _ _
      have rest := s.slipFor_rest n
      show (s.slipFor n).1.answer _ _ _ = _
      unfold State.answer State.setOffice
      rw [rest]
    · rfl

/-- The sessions see of the answer that their job has ended. -/
theorem State.answerWritten_counts (s : State) (r : JRecord) (link : Link) :
    ((∀ k, link ≠ .job k) → s.Counts (fun _ => 0) (fun _ => 0) (s.answerWritten r link)) ∧
      ∀ k, link = .job k → (s.jobs.at k = none → s.answerWritten r link = s) ∧
        ∀ job, s.jobs.at k = some job →
          s.answerWritten r link = s.endJob k job job.completion.1 job.completion.2 := by
  refine ⟨fun other => ?_, ?_⟩
  · unfold State.answerWritten
    cases link with
    | nothing =>
      dsimp only
      split
      · rw [State.slipFor_rest]
        exact .of_same rfl rfl
      · exact .of_same rfl rfl
    | request reply code figures => exact .of_same rfl rfl
    | job j => exact absurd rfl (other j)
    | declare reply =>
      dsimp only
      split
      · rename_i n _ _ _ _ _
        have rest := s.slipFor_rest n
        show s.Counts _ _ ((s.slipFor n).1.answer _ _ _)
        refine .of_same ?_ ?_
        · show (s.slipFor n).1.sessions = _
          rw [rest]
        · show (s.slipFor n).1.journal.claims = _
          rw [rest]
      · exact .of_same rfl rfl
  · rintro k rfl
    refine ⟨fun none_ => ?_, fun job record => ?_⟩
    · show (match s.jobs.at k with
        | some job => s.endJob k job job.completion.1 job.completion.2
        | none => s) = s
      rw [none_]
    · show (match s.jobs.at k with
        | some job => s.endJob k job job.completion.1 job.completion.2
        | none => s) = _
      rw [record]

end Sys2Proof.Machine
end

