-- ==== Sys2Proof/Proofs/RecordWritten.lean ====
section
/-! SUPPORT. The end of a record's write: the slot, the head and the writer (R150, R151, R153). -/

namespace Sys2Proof.Machine

/-! ### Where the writer goes -/

theorem mem_recordedFaults_last (faults : List FaultRecord) (c : Condition) (priority : Priority) (n : Nat) :
    ∃ f ∈ recordedFaults faults c priority n, f.condition = c ∧ f.last = n := by
  unfold recordedFaults
  dsimp only
  split
  · rename_i has
    obtain ⟨f, m, is⟩ := List.any_eq_true.mp has
    have is : f.condition = c := by simpa using is
    exact ⟨_, List.mem_map.mpr ⟨f, m, if_pos is⟩, is, rfl⟩
  · exact ⟨_, List.mem_append_right _ List.mem_cons_self, rfl, rfl⟩

/-- A condition raised while the controller runs has a record that names the occurrence. -/
theorem State.raise_recorded {s : State} (running : s.phase = .running) (o : OfficeFault) :
    ∃ f ∈ (s.raise (.office o)).monitor.faults, f.condition = .office o ∧ f.last = s.monitor.nextSequence := by
  have shape : (s.raise (.office o)).monitor.faults = recordedFaults s.monitor.faults (.office o)
      (s.priorityOf (.office o)) s.monitor.nextSequence := by
    unfold State.raise State.report State.markPresent
    dsimp only
    rw [running]
    dsimp only [State.recordReport]
    unfold State.recordOccurrence
    dsimp only
    rw [State.notice_monitor]
  rw [shape]
  exact mem_recordedFaults_last _ _ _ _

/-- What the writer's next step leaves, and where it goes (R150, R151, R153). -/
structure State.WriterGoes (e : State) (before : Journal) (u : State) : Prop where
  rest : u = { e with journal := u.journal, monitor := u.monitor, office := u.office }
  kept : u.journal.memory = e.journal.memory ∧ u.journal.nextSequence = e.journal.nextSequence ∧
    u.journal.queue = e.journal.queue ∧ u.journal.reserved = e.journal.reserved ∧ u.journal.claims = e.journal.claims
  stops : before.nextSequence = 4294967295 → u.journal.writer = .stopped ∧ u.journal.page = e.journal.page ∧
    (e.phase = .running → ∃ f ∈ u.monitor.faults, f.condition = .office .journalFault ∧ f.last = e.monitor.nextSequence)
  goes : before.nextSequence ≠ 4294967295 → u.monitor = e.monitor ∧ u.office = e.office
  next : before.nextSequence ≠ 4294967295 → before.slot.val < 15 → u.journal.page = e.journal.page ∧
    u.journal.slot = e.journal.slot ∧
    (e.journal.checkpointDue = true → e.supply = .normal → u.journal.checkpointDue = false ∧
      u.journal.writer = .checkpoint u.checkpointRecords false false) ∧
    (e.journal.checkpointDue = false ∨ e.supply = .warning → u.journal.checkpointDue = e.journal.checkpointDue ∧
      u.journal.writer = if e.journal.queue = [] then .idle else .writing)
  enters : before.nextSequence ≠ 4294967295 → before.slot.val = 15 → u.journal.page = nextPage e.journal.page ∧
    u.journal.pageSequence = e.journal.pageSequence + 1 ∧ u.journal.writer = .erasing ∧
    u.journal.checkpointDue = (e.journal.checkpointDue || (nextPage e.journal.page == 0) || (nextPage e.journal.page == 64))

theorem makesDue_eq (p : Fin 128) : makesDue p = (p == 0 || p == 64) := by
  unfold makesDue
  have zero : (p.val == 0) = (p == 0) := by
    rw [Bool.eq_iff_iff, beq_iff_eq, beq_iff_eq, Fin.ext_iff]
    rfl
  have half : (p.val == 64) = (p == 64) := by
    rw [Bool.eq_iff_iff, beq_iff_eq, beq_iff_eq, Fin.ext_iff]
    rfl
  rw [zero, half]

theorem State.startNext_goes (s : State) : let u := s.startNext
    (s.journal.checkpointDue = true → s.supply = .normal → u.journal.checkpointDue = false ∧
      u.journal.writer = .checkpoint u.checkpointRecords false false) ∧
    (s.journal.checkpointDue = false ∨ s.supply = .warning → u.journal.checkpointDue = s.journal.checkpointDue ∧
      u.journal.writer = if s.journal.queue = [] then .idle else .writing) := by
  refine ⟨fun due normal => ?_, fun no => ?_⟩
  · have begins : s.startNext = s.beginCheckpoint := if_pos (by rw [due, normal]; rfl)
    rw [begins]
    exact ⟨rfl, rfl⟩
  · have goes : s.startNext = s.updateJournal fun j => { j with writer := if j.queue.isEmpty then .idle else .writing } :=
      if_neg (by rcases no with no | no <;> simp [no])
    rw [goes]
    refine ⟨rfl, ?_⟩
    show (if s.journal.queue.isEmpty then Writer.idle else .writing) = _
    exact if_congr List.isEmpty_iff rfl rfl

theorem State.afterRecord_goes (e : State) (before : Journal) : e.WriterGoes before (e.afterRecord before) := by
  unfold State.afterRecord Journal.exhausted
  by_cases last : before.nextSequence = 4294967295
  · rw [if_pos (by rw [last]; rfl)]
    have notes := State.raise_notes (e.updateJournal fun j => { j with writer := .stopped }) (.office .journalFault)
    have recorded := fun running => State.raise_recorded
      (s := e.updateJournal fun j => { j with writer := .stopped }) running .journalFault
    show e.WriterGoes before ((e.updateJournal fun j => { j with writer := .stopped }).raise (.office .journalFault))
    generalize State.raise _ _ = u at *
    have journal : u.journal = { e.journal with writer := .stopped } := notes.journal
    refine ⟨?_, ?_, fun _ => ⟨?_, ?_, recorded⟩, fun no => absurd last no, fun no => absurd last no,
      fun no => absurd last no⟩
    · rw [notes.rest]
      rfl
    · rw [journal]
      exact ⟨rfl, rfl, rfl, rfl, rfl⟩
    · rw [journal]
    · rw [journal]
  · rw [if_neg (by simpa [Config.lastSequence] using last)]
    by_cases full : before.slot = 15
    · rw [if_pos full]
      refine ⟨rfl, ⟨rfl, rfl, rfl, rfl, rfl⟩, fun yes => absurd yes last, fun _ => ⟨rfl, rfl⟩, fun _ low => ?_,
        fun _ _ => ⟨rfl, rfl, rfl, ?_⟩⟩
      · rw [full] at low
        exact absurd low (by decide)
      · show (e.journal.checkpointDue || (!false && makesDue (nextPage e.journal.page))) = _
        rw [makesDue_eq, Bool.not_false, Bool.true_and, Bool.or_assoc]
    · rw [if_neg full]
      have hands := e.startNext_hands
      have goes := e.startNext_goes
      have journal : e.startNext.journal = { e.journal with
          writer := e.startNext.journal.writer, checkpointDue := e.startNext.journal.checkpointDue } := by
        unfold State.startNext State.beginCheckpoint
        dsimp only
        split <;> rfl
      have rest : e.startNext = { e with journal := e.startNext.journal } := by
        unfold State.startNext State.beginCheckpoint
        dsimp only
        split <;> rfl
      generalize e.startNext = u at *
      refine ⟨?_, ?_, fun yes => absurd yes last, fun _ => ?_, fun _ _ => ⟨?_, ?_, goes⟩, fun _ high => ?_⟩
      · rw [rest]
      · rw [journal]
        exact ⟨rfl, rfl, rfl, rfl, rfl⟩
      · rw [rest]
        exact ⟨rfl, rfl⟩
      · rw [journal]
      · rw [journal]
      · exact absurd (Fin.ext high) full

theorem State.WriterGoes.counts {e u : State} {before : Journal} (h : e.WriterGoes before u) :
    e.Counts (fun _ => 0) (fun _ => 0) u := .of_same (by rw [h.rest]) h.kept.2.2.2.2

/-! ### The record entered in the accounts -/

/-- The stock accounts unit and the session unit take a written record. -/
def State.entered (s : State) (r : JRecord) : State := { s with
  stock := s.stock.written r
  standing := s.standing.apply r
  sessions := (s.sessions.addFigures r).written s.journal.queue r }

/-- Its session, where it counted as pending, has one record less in flight. -/
def State.enteredFor (s : State) (r : JRecord) : State :=
  match r.pendingFor with
  | some n => (s.entered r).recordEnded n
  | none => s.entered r

theorem State.reportWritten_eq (s : State) (q : Queued) :
    s.reportWritten q = (s.enteredFor q.record).answerWritten q.record q.link := by
  unfold State.reportWritten State.enteredFor State.entered
  dsimp only
  cases q.record.pendingFor <;> rfl

theorem State.enteredFor_rest (s : State) (r : JRecord) : s.enteredFor r = { s.entered r with
    sessions := (s.enteredFor r).sessions
    journal := { s.journal with claims := (s.enteredFor r).journal.claims } } := by
  unfold State.enteredFor
  split
  · rw [State.recordEnded_rest]
    rfl
  · rfl

theorem State.enteredFor_books (s : State) (r : JRecord) : (s.entered r).SameBooks (s.enteredFor r) := by
  unfold State.enteredFor
  split
  · exact (State.recordEnded_quiet (.refl _) _).books
  · exact .refl _

/-- Where no session is freed, each one sees its own record end and no other does. -/
theorem State.enteredFor_counts (s : State) {r : JRecord} (stays : ∀ n band given, r ≠ .close n band given) :
    (∀ n x, s.session n = some x → ∃ y, (s.entered r).session n = some y ∧ y.jobs = x.jobs ∧
      y.pendingRecords = x.pendingRecords ∧ y.signOffOwed = x.signOffOwed) ∧
    (s.entered r).Counts (fun _ => 0) (fun i => if r.pendingFor = some i then 1 else 0) (s.enteredFor r) := by
  refine ⟨(s.sessions.addFigures_carries r).trans ((s.sessions.addFigures r).written_carries s.journal.queue stays), ?_⟩
  unfold State.enteredFor
  cases of : r.pendingFor with
  | none => exact (State.Counts.of_same rfl rfl).congr (fun _ => rfl) fun i => by simp
  | some n => exact (State.recordEnded_counts _ n).congr (fun _ => rfl) fun i => by simp

/-! ### The write -/

/-- The record's slot is written and the head has moved on (R150, R151). -/
def State.slotWritten (s : State) (slot : List Byte) (rest : List Queued) : State :=
  s.updateJournal fun j => j.recordDone slot rest

theorem exec_recordWriteEnds {s : State} {found : Option (List Byte)} {q : Queued} {rest : List Queued}
    (writing : s.journal.writer = .writing) (queue : s.journal.queue = q :: rest)
    (good : found = none ∨ found = some (recordSlot s.journal.nextSequence q.record)) :
    exec (.recordWriteEnds found) s = .next
      (((s.slotWritten (recordSlot s.journal.nextSequence q.record) rest).reportWritten q).afterRecord s.journal).settle := by
  have read : readBack (recordSlot s.journal.nextSequence q.record) found =
      (recordSlot s.journal.nextSequence q.record, true) := by
    unfold readBack
    rcases good with rfl | rfl
    · rfl
    · simp
  show execRecordWriteEnds found s = _
  unfold execRecordWriteEnds
  dsimp only
  rw [writing, queue]
  dsimp only
  rw [read]
  exact congrArg Host.Outcome.next (if_pos rfl)

/-- The head after a good write. -/
theorem Journal.recordDone_effect (j : Journal) (slot : List Byte) (rest : List Queued) :
    let k := j.recordDone slot rest
    k.memory = Memory.writeAll j.memory (slotAddress j.page j.slot) slot ∧ k.nextSequence = j.nextSequence + 1 ∧
      k.queue = rest ∧ k.reserved = j.reserved ∧ k.page = j.page ∧ k.pageSequence = j.pageSequence ∧
      k.checkpointDue = j.checkpointDue ∧ k.claims = j.claims ∧ (j.slot.val < 15 → k.slot.val = j.slot.val + 1) := by
  refine ⟨rfl, rfl, rfl, rfl, rfl, rfl, rfl, rfl, fun low => ?_⟩
  unfold Journal.recordDone Journal.advance Journal.putSlot
  dsimp only
  rw [dif_pos low]

end Sys2Proof.Machine

open Sys2Proof Sys2Proof.Machine

/-- Settles O54: the record enters the accounts, its session has one record less in flight, its request or job is answered,
and the writer goes on; each step leaves what the others have made. -/
theorem recordWritten : Obligations.RecordWritten := by
  intro found q rest s running writing queue j slot good last
  obtain ⟨memory, number, left, reserved, page, pageSequence, due, claims, head⟩ := j.recordDone_effect slot rest
  obtain ⟨a, is_a⟩ : ∃ a, s.slotWritten slot rest = a := ⟨_, rfl⟩
  have journal_a : a.journal = j.recordDone slot rest := by rw [← is_a]; rfl
  have rest_a : a = { s with journal := a.journal } := by rw [← is_a]; rfl
  rw [← journal_a] at memory number left reserved page pageSequence due claims head
  obtain ⟨d, is_d⟩ : ∃ d, a.enteredFor q.record = d := ⟨_, rfl⟩
  have rest_d := a.enteredFor_rest q.record
  have books_d := a.enteredFor_books q.record
  rw [is_d] at rest_d books_d
  have answers := d.answerWritten_answers q.record q.link
  obtain ⟨counts_other, counts_job⟩ := d.answerWritten_counts q.record q.link
  have goes := (d.answerWritten q.record q.link).afterRecord_goes j
  refine ⟨((d.answerWritten q.record q.link).afterRecord j), ?_, ?_⟩
  · rw [exec_recordWriteEnds writing queue good]
    show Host.Outcome.next (((s.slotWritten slot rest).reportWritten q).afterRecord j).settle = _
    rw [is_a, State.reportWritten_eq, is_d]
  generalize is_e : d.answerWritten q.record q.link = e at *
  generalize e.afterRecord j = u at *
  -- the journal, the monitor and the office between the write and the answer
  have journal_d : d.journal = { a.journal with claims := d.journal.claims } := by rw [rest_d]
  have journal_e : e.journal = { a.journal with claims := e.journal.claims } := by
    rw [answers.rest, journal_d]
  have monitor_e : e.monitor = s.monitor := by rw [answers.rest, rest_d]; show a.monitor = _; rw [rest_a]
  have supply_e : e.supply = s.supply := by rw [answers.rest, rest_d]; show a.supply = _; rw [rest_a]
  have phase_e : e.phase = s.phase := by rw [answers.rest, rest_d]; show a.phase = _; rw [rest_a]
  have office_d : d.office = s.office := by rw [rest_d]; show a.office = _; rw [rest_a]
  have jobs_d : d.jobs = s.jobs := by rw [rest_d]; show a.jobs = _; rw [rest_a]
  have sessions_a : a.sessions = s.sessions := by rw [rest_a]
  have queue_a : a.journal.queue = rest := left
  -- the books of the sessions
  have booked : ∀ i : Fin 24, (u.sessions.table.at i).map Session.books =
      (((s.sessions.addFigures q.record).written rest q.record).table.at i).map Session.books := fun i => by
    have sessions_u : u.sessions = e.sessions := by rw [goes.rest]
    rw [sessions_u, answers.books.sessions i, books_d.sessions i]
    show ((((a.sessions.addFigures q.record).written a.journal.queue q.record).table.at i)).map _ = _
    rw [sessions_a, queue_a]
  have logged : u.sessions.log = ((s.sessions.addFigures q.record).written rest q.record).log ∧
      u.sessions.nextNumber = s.sessions.nextNumber := by
    have sessions_u : u.sessions = e.sessions := by rw [goes.rest]
    rw [sessions_u, answers.books.log, books_d.log, answers.books.nextNumber, books_d.nextNumber]
    show ((a.sessions.addFigures q.record).written a.journal.queue q.record).log = _ ∧
      ((a.sessions.addFigures q.record).written a.journal.queue q.record).nextNumber = _
    rw [SessionUnit.written_nextNumber, SessionUnit.addFigures_nextNumber, sessions_a, queue_a]
    exact ⟨rfl, rfl⟩
  -- what its session sees
  have ended : ∀ k l : Nat → Nat, d.Counts k l e → (∀ m band given, q.record ≠ .close m band given) →
      ∀ n x, s.session n = some x → ∃ y, u.session n = some y ∧ y.jobs = x.jobs - k n ∧
        y.pendingRecords = x.pendingRecords - ((if q.record.pendingFor = some n then 1 else 0) + l n) ∧
        (0 < k n + ((if q.record.pendingFor = some n then 1 else 0) + l n) → y.finished = true → y.signOffOwed = true ∧
          (x.signOffOwed = false → .session n ∈ u.journal.claims)) := fun k l counts stays n x here => by
    obtain ⟨carries, counted⟩ := a.enteredFor_counts stays
    rw [is_d] at counted
    obtain ⟨x', there, jobs, pending, owed⟩ := carries n x (by unfold State.session at here ⊢; rw [sessions_a]; exact here)
    obtain ⟨y, found, c⟩ := ((counted.trans counts).after goes.counts).sessions n x' there
    rw [Nat.zero_add] at c
    refine ⟨y, found, by rw [c.jobs, jobs], by rw [c.pending, pending], fun some_ fin => ?_⟩
    have owes := c.told some_ fin
    exact ⟨owes, fun unowed => (c.claims owes).resolve_left (by rw [owed, unowed]; decide)⟩
  have job_counts : ∀ k job, q.link = .job k → s.jobs.at k = some job →
      e = d.endJob k job job.completion.1 job.completion.2 := fun k job link record =>
    (counts_job k link).2 job (by rw [jobs_d]; exact record)
  refine ⟨?_, ?_, ?_, ?_, fun yes => ?_, fun no => ⟨?_, fun low => ?_, fun high => ?_⟩, ?_, ?_, booked, logged.1, logged.2,
    fun n x y of stays here there => ?_, fun k job link record stays => ?_, fun r code figures no link => ?_,
    fun k job no link record => ?_, fun none_ => ?_, ?_, ?_, ?_, ?_, ?_⟩
  · rw [goes.kept.1, journal_e]
    exact memory
  · rw [goes.kept.2.1, journal_e]
    exact number
  · rw [goes.kept.2.2.1, journal_e]
    exact left
  · rw [goes.kept.2.2.2.1, journal_e]
    exact reserved
  · obtain ⟨stopped, stays, recorded⟩ := goes.stops yes
    refine ⟨stopped, by rw [stays, journal_e]; exact page, ?_⟩
    rw [← monitor_e]
    exact recorded (phase_e.trans running)
  · rw [(goes.goes no).1, monitor_e]
  · obtain ⟨stays, slot_u, begins, continues⟩ := goes.next no low
    rw [journal_e, supply_e] at begins continues
    rw [journal_e] at stays slot_u
    refine ⟨stays.trans page, (congrArg Fin.val slot_u).trans (head low), fun yes => begins (due.trans yes), fun other => ?_⟩
    obtain ⟨stays_due, writer⟩ := continues (other.imp due.trans id)
    exact ⟨stays_due.trans due, writer.trans (by rw [← left])⟩
  · obtain ⟨turned, sequence, erases, due_u⟩ := goes.enters no high
    rw [journal_e] at turned sequence due_u
    exact ⟨by rw [turned]; exact congrArg nextPage page, by rw [sequence]; exact congrArg (· + 1) pageSequence, erases,
      by rw [due_u]; show (a.journal.checkpointDue || nextPage a.journal.page == 0 || nextPage a.journal.page == 64) = _
         rw [due, page]⟩
  · rw [goes.rest, answers.rest, rest_d]
    show a.stock.written q.record = _
    rw [rest_a]
  · rw [goes.rest, answers.rest, rest_d]
    show a.standing.apply q.record = _
    rw [rest_a]
  · have counts : ∃ k, d.Counts k (fun _ => 0) e := by
      by_cases other : ∀ k, q.link ≠ .job k
      · exact ⟨_, counts_other other⟩
      · obtain ⟨k, link⟩ := Classical.not_forall.mp other
        have link := Classical.not_not.mp link
        cases record : s.jobs.at k with
        | none =>
          rw [(counts_job k link).1 (by rw [jobs_d]; exact record)]
          exact ⟨_, .of_same rfl rfl⟩
        | some job =>
          rw [job_counts k job link record]
          exact ⟨_, d.endJob_counts k job _ _⟩
    obtain ⟨k, counts⟩ := counts
    have never : ∀ m band given, q.record ≠ .close m band given := fun m band given is => by
      rw [is] at of
      cases of
      exact stays band given is
    obtain ⟨y', there', _, pending, told⟩ := ended k _ counts never n x here
    cases there.symm.trans there'
    rw [if_pos of] at pending told
    exact ⟨pending, told (by omega)⟩
  · have counts := d.endJob_counts k job job.completion.1 job.completion.2
    rw [← job_counts k job link record] at counts
    have one : ∀ n, ([job].countP fun job => job.session == n) = if job.session = n then 1 else 0 := fun n => by
      simp [List.countP_singleton]
    refine ⟨fun n x here => ?_, fun n x y lost here there fin => ?_⟩
    · obtain ⟨y, there, jobs, _⟩ := ended _ _ counts stays n x here
      exact ⟨y, there, by rw [jobs, one]⟩
    · obtain ⟨job', m, of⟩ := lost
      cases List.mem_singleton.mp m
      obtain ⟨y', there', _, _, told⟩ := ended _ _ counts stays n x here
      cases there.symm.trans there'
      rw [if_pos of] at told
      exact told (by omega) fin
  · rw [(goes.goes no).2, ← is_e, link]
    exact State.answer_congr office_d r code figures
  · have u_jobs : u.jobs = e.jobs := by rw [goes.rest]
    rw [u_jobs, (goes.goes no).2, job_counts k job link record, State.endJob_jobs, State.endJob_answers, jobs_d]
    refine ⟨rfl, (State.answer_congr office_d _ _ _).trans ?_⟩
    unfold Job.completion
    cases job.kind <;> rfl
  · have still : e.jobs = d.jobs ∧ e.office = d.office := by
      rw [← is_e, none_]
      unfold State.answerWritten
      dsimp only
      split
      · rw [State.slipFor_rest]
        exact ⟨rfl, rfl⟩
      · exact ⟨rfl, rfl⟩
    have u_jobs : u.jobs = e.jobs := by rw [goes.rest]
    exact ⟨by rw [u_jobs, still.1, jobs_d], fun no => by rw [(goes.goes no).2, still.2, office_d]⟩
  · rw [goes.rest, answers.rest, rest_d]
    show a.store = _
    rw [rest_a]
  · rw [goes.rest]
    exact supply_e
  · rw [goes.rest]
    exact phase_e
  · rw [goes.rest, answers.rest, rest_d]
    show a.sent = _
    rw [rest_a]
  · rw [goes.rest, answers.rest, rest_d]
    show a.queues = _
    rw [rest_a]
end

