-- ==== Sys2Proof/Proofs/EnginesReset.lean ====
section
/-! SUPPORT. A path reset at every engine (R70). -/

namespace Sys2Proof.Machine

/-! ### A writer that is not IDLE goes on -/

/-- A writer with something to do goes on with it. -/
def State.WritesOn (s t : State) : Prop := s.journal.writer ≠ .idle →
  t.journal.writer = s.journal.writer ∧ t.journal.checkpointDue = s.journal.checkpointDue

theorem State.WritesOn.of_same {s t : State} (writer : t.journal.writer = s.journal.writer)
    (due : t.journal.checkpointDue = s.journal.checkpointDue) : s.WritesOn t := fun _ => ⟨writer, due⟩

theorem State.WritesOn.trans {s t u : State} (a : s.WritesOn t) (b : t.WritesOn u) : s.WritesOn u := fun busy => by
  obtain ⟨writer, due⟩ := a busy
  obtain ⟨writer', due'⟩ := b (by rw [writer]; exact busy)
  exact ⟨writer'.trans writer, due'.trans due⟩

theorem State.hand_writesOn (s : State) (r : JRecord) (link : Link) : s.WritesOn (s.hand r link) := fun busy => by
  have next : ∀ t : State, t.journal.writer = s.journal.writer → t.journal.checkpointDue = s.journal.checkpointDue →
      (if t.journal.writer = .idle then t.startNext else t).journal.writer = s.journal.writer ∧
      (if t.journal.writer = .idle then t.startNext else t).journal.checkpointDue = s.journal.checkpointDue :=
    fun t writer due => by
      rw [if_neg (by rw [writer]; exact busy)]
      exact ⟨writer, due⟩
  unfold State.hand
  dsimp only
  split
  · exact next _ rfl rfl
  · exact next _ rfl rfl

theorem State.dropEntries_writesOn (cause : SpoilCause) (p : Printer) (es : List Entry) (s : State) :
    s.WritesOn (es.foldl (State.dropEntry cause p) s) := by
  have one : ∀ (t : State) (e : Entry), t.WritesOn (State.dropEntry cause p t e) := fun t e => by
    unfold State.dropEntry
    split
    · exact .of_same rfl rfl
    · split
      · split
        · exact .of_same rfl rfl
        · exact (State.hand_writesOn (t.releasePlaces 1) _ _).trans (.of_same rfl rfl)
      · exact .of_same rfl rfl
  induction es generalizing s with
  | nil => exact .of_same rfl rfl
  | cons e es ih => exact (one s e).trans (ih _)

/-! ### One engine -/

/-- A port's values after a path reset (Table 3-1, R70). -/
def Port.pathReset (x : Port) (e : PrinterEntry) : Port :=
  { x with
    entries := [], audit := [], slips := [], nextImage := 0, unanswered := 0
    state := if e.function = .off then .unused else .attaching
    attachTimer := if e.function = .off then none else some e.selectTimeout
    pollTimer := none, replyTimer := none, absentTimer := none }

/-- What a path reset at some engines has done. -/
structure State.EnginesReset (s : State) (ports : List Printer) (t : State) : Prop where
  rest : t = { s with
    ports := t.ports, sent := t.sent, sessions := t.sessions
    journal := { s.journal with
      queue := t.journal.queue, reserved := t.journal.reserved, writer := t.journal.writer
      checkpointDue := t.journal.checkpointDue } }
  reset : ∀ p ∈ ports, t.ports.at p = (s.ports.at p).pathReset (s.printerEntry p)
  others : ∀ p, p ∉ ports → t.ports.at p = s.ports.at p
  sent : t.sent = s.sent ++ (ports.filter fun p => s.function p != .off).map fun p => (p, .enquire)
  queue : t.journal.queue = s.journal.queue ++ ports.flatMap fun p => s.spoils .reset p (s.ports.at p).entries
  reserved : (∀ p, ∀ e ∈ (s.ports.at p).entries, ∀ t ∈ e.ticket, 1 ≤ t.places) →
    t.journal.reserved = s.journal.reserved - (ports.map fun p => (s.ports.at p).places).sum
  writesOn : s.WritesOn t
  tells : s.Tells (fun _ => 0) t

theorem State.EnginesReset.refl (s : State) : s.EnginesReset [] s where
  rest := rfl
  reset := nofun
  others _ _ := rfl
  sent := (List.append_nil _).symm
  queue := (List.append_nil _).symm
  reserved _ := rfl
  writesOn := .of_same rfl rfl
  tells := .refl s

theorem State.resetEngine_reset (s : State) (p : Printer) : s.EnginesReset [p] (s.resetEngine p) := by
  obtain ⟨hands, queue, reserved⟩ := State.dropEntries_effect .reset p (s.ports.at p).entries s
  have writesOn := State.dropEntries_writesOn .reset p (s.ports.at p).entries s
  have tells := State.Tells.foldl (State.dropEntry_tells .reset p) (s.ports.at p).entries s
  unfold State.resetEngine
  dsimp only
  generalize (s.ports.at p).entries.foldl (State.dropEntry .reset p) s = d at *
  have ports_d := hands.ports
  have sent_d := hands.sent
  have function_d : (d.updatePort p fun x => { x with entries := [], audit := [], slips := [] }).function p = s.function p := by
    show d.function p = _
    unfold State.function State.printerEntry
    rw [hands.rest]
  have entry_d : (d.updatePort p fun x => { x with entries := [], audit := [], slips := [] }).printerEntry p =
      s.printerEntry p := by
    show d.printerEntry p = _
    unfold State.printerEntry
    rw [hands.rest]
  rw [function_d]
  -- what the two branches share
  have shared : ∀ (x : Port) (ms : List (Printer × Message)), x = (s.ports.at p).pathReset (s.printerEntry p) →
      ms = ([p].filter fun p => s.function p != .off).map (fun p => (p, .enquire)) →
      s.EnginesReset [p] { d with ports := s.ports.put p x, sent := s.sent ++ ms } := by
    rintro x ms rfl rfl
    refine ⟨?_, fun q m => ?_, fun q out => ?_, rfl, ?_, fun sound => ?_, writesOn, ?_⟩
    · rw [hands.rest]
    · cases List.mem_singleton.mp m
      exact Vector.at_put_same ..
    · exact Vector.at_put_other _ _ fun same : p = q => out (same ▸ List.mem_singleton_self p)
    · rw [List.flatMap_singleton]
      exact queue
    · rw [List.map_singleton, List.sum_singleton]
      exact reserved (sound p)
    · exact tells.after (.of_same rfl fun _ h => h)
  have put : d.ports.put p { d.ports.at p with entries := [], audit := [], slips := [] } =
      s.ports.put p { s.ports.at p with entries := [], audit := [], slips := [] } := by
    rw [ports_d]
  have entry_function : (s.printerEntry p).function = s.function p := rfl
  split
  · rename_i off
    have filtered : ([p].filter fun p => s.function p != .off).map (fun p => ((p, .enquire) : Printer × Message)) = [] := by
      simp [off]
    have done := shared _ [] rfl filtered.symm
    rw [List.append_nil, ← sent_d] at done
    refine (congrArg (s.EnginesReset [p]) ?_).mp done
    unfold State.updatePort State.setPort
    dsimp only
    rw [put, Vector.put_put, Vector.at_put_same]
    unfold Port.pathReset
    rw [entry_function, if_pos off, if_pos off]
  · rename_i on
    have filtered : ([p].filter fun p => s.function p != .off).map (fun p => ((p, .enquire) : Printer × Message)) =
        [(p, .enquire)] := by
      simp [on]
    have done := shared _ [(p, .enquire)] rfl filtered.symm
    rw [← sent_d] at done
    refine (congrArg (s.EnginesReset [p]) ?_).mp done
    unfold State.beginAttach
    dsimp only
    rw [entry_d]
    unfold State.updatePort State.setPort State.transmit
    dsimp only
    rw [put, Vector.put_put, Vector.at_put_same]
    unfold Port.pathReset
    rw [entry_function, if_neg on, if_neg on]

/-- One more engine. -/
theorem State.EnginesReset.next {s t u : State} {ports : List Printer} {p : Printer} (h : s.EnginesReset ports t)
    (fresh : p ∉ ports) (g : t.EnginesReset [p] u) : s.EnginesReset (ports ++ [p]) u := by
  have store : t.store = s.store := by rw [h.rest]
  have jobs : t.jobs = s.jobs := by rw [h.rest]
  have entry : ∀ q, t.printerEntry q = s.printerEntry q := fun q => by
    unfold State.printerEntry
    rw [store]
  have port := h.others p fresh
  have reserved : (∀ p, ∀ e ∈ (s.ports.at p).entries, ∀ t ∈ e.ticket, 1 ≤ t.places) →
      ∀ q, ∀ e ∈ (t.ports.at q).entries, ∀ t ∈ e.ticket, 1 ≤ t.places := fun sound q => by
    by_cases m : q ∈ ports
    · rw [h.reset q m]
      exact nofun
    · rw [h.others q m]
      exact sound q
  refine ⟨?_, fun q m => ?_, fun q out => ?_, ?_, ?_, fun sound => ?_, h.writesOn.trans g.writesOn, h.tells.after g.tells⟩
  · rw [g.rest, h.rest]
  · rcases List.mem_append.mp m with m | m
    · have other : q ∉ [p] := fun k => fresh (List.mem_singleton.mp k ▸ m)
      rw [g.others q other, h.reset q m]
    · cases List.mem_singleton.mp m
      rw [g.reset p (List.mem_singleton_self p), port, entry]
  · rw [g.others q fun m => out (List.mem_append_right _ m), h.others q fun m => out (List.mem_append_left _ m)]
  · rw [g.sent, h.sent, List.filter_append, List.map_append, List.append_assoc]
    unfold State.function
    simp only [entry]
  · rw [g.queue, h.queue, List.flatMap_append, List.append_assoc, List.flatMap_singleton, List.flatMap_singleton, port,
      State.spoils_jobs jobs]
  · rw [g.reserved (reserved sound), h.reserved sound, List.map_append, List.sum_append, List.map_singleton,
      List.map_singleton, List.sum_singleton, List.sum_singleton, port]
    omega

theorem State.resetEngines_reset (s : State) : s.EnginesReset allPrinters (allPrinters.foldl State.resetEngine s) := by
  have pass : ∀ (todo done : List Printer) (t : State), (done ++ todo).Nodup → s.EnginesReset done t →
      s.EnginesReset (done ++ todo) (todo.foldl State.resetEngine t) := by
    intro todo
    induction todo with
    | nil =>
      intro done t _ h
      rw [List.append_nil]
      exact h
    | cons p todo ih =>
      intro done t once h
      have fresh : p ∉ done := fun m => (List.nodup_append.mp once).2.2 p m p List.mem_cons_self rfl
      have shift : done ++ p :: todo = (done ++ [p]) ++ todo := by simp
      rw [shift] at once ⊢
      exact ih _ _ once (h.next fresh (t.resetEngine_reset p))
  exact pass allPrinters [] s allPrinters_nodup (.refl s)

end Sys2Proof.Machine
end

