-- ==== Sys2Proof/Proofs/RequestsInOrder.lean ====
section
/-! SUPPORT. The unanswered requests of all ports in the order in which they were taken (R22, R182). -/

namespace Sys2Proof.Machine

theorem takeWhile_dropWhile_mem {α : Type} (q : α → Bool) (l : List α) (a : α) :
    a ∈ l.takeWhile q ∨ a ∈ l.dropWhile q ↔ a ∈ l := by
  rw [← List.mem_append, List.takeWhile_append_dropWhile]

theorem mem_mergeRequests (xs ys : List (Window × OpenRequest)) (a : Window × OpenRequest) :
    a ∈ mergeRequests xs ys ↔ a ∈ xs ∨ a ∈ ys := by
  induction xs generalizing ys with
  | nil => simp [mergeRequests]
  | cons x xs ih =>
    unfold mergeRequests
    rw [List.mem_append, List.mem_cons, ih, List.mem_cons,
      ← takeWhile_dropWhile_mem (fun y => decide (y.2.number < x.2.number)) ys a]
    tauto

/-- Requests of a kind that are all in one of two lists keep that list's order. -/
theorem mergeRequests_filter_left {q : Window × OpenRequest → Bool} (xs ys : List (Window × OpenRequest))
    (none_ : ∀ y ∈ ys, q y = false) : (mergeRequests xs ys).filter q = xs.filter q := by
  induction xs generalizing ys with
  | nil =>
    show ys.filter q = []
    exact List.filter_eq_nil_iff.mpr fun y m => by rw [none_ y m]; decide
  | cons x xs ih =>
    have parts := takeWhile_dropWhile_mem (fun y => decide (y.2.number < x.2.number)) ys
    have first : (ys.takeWhile fun y => y.2.number < x.2.number).filter q = [] :=
      List.filter_eq_nil_iff.mpr fun y m => by rw [none_ y ((parts y).mp (Or.inl m))]; decide
    unfold mergeRequests
    rw [List.filter_append, first, List.nil_append, List.filter_cons, List.filter_cons,
      ih _ fun y m => none_ y ((parts y).mp (Or.inr m))]

theorem mergeRequests_filter_right {q : Window × OpenRequest → Bool} (xs ys : List (Window × OpenRequest))
    (none_ : ∀ x ∈ xs, q x = false) : (mergeRequests xs ys).filter q = ys.filter q := by
  induction xs generalizing ys with
  | nil => rfl
  | cons x xs ih =>
    unfold mergeRequests
    rw [List.filter_append, List.filter_cons_of_neg (by rw [none_ x List.mem_cons_self]; decide),
      ih _ fun y m => none_ y (List.mem_cons_of_mem x m), ← List.filter_append, List.takeWhile_append_dropWhile]

/-- Requests in the order of their numbers. -/
def Ordered (l : List (Window × OpenRequest)) : Prop := l.Pairwise fun a b => a.2.number < b.2.number

theorem Ordered.dropWhile {ys : List (Window × OpenRequest)} (h : Ordered ys) (n : Nat) :
    ∀ y ∈ ys.dropWhile (fun y => y.2.number < n), n ≤ y.2.number := by
  induction ys with
  | nil => exact nofun
  | cons y ys ih =>
    obtain ⟨below, h⟩ := List.pairwise_cons.mp h
    intro z m
    rw [List.dropWhile_cons] at m
    split at m
    · exact ih h z m
    · rename_i high
      have high : n ≤ y.2.number := by simpa using high
      rcases List.mem_cons.mp m with rfl | m
      · exact high
      · exact Nat.le_trans high (Nat.le_of_lt (below z m))

theorem Ordered.merge {xs ys : List (Window × OpenRequest)} (hx : Ordered xs) (hy : Ordered ys)
    (apart : ∀ x ∈ xs, ∀ y ∈ ys, x.2.number ≠ y.2.number) : Ordered (mergeRequests xs ys) := by
  induction xs generalizing ys with
  | nil => exact hy
  | cons x xs ih =>
    obtain ⟨below, hx⟩ := List.pairwise_cons.mp hx
    have parts := takeWhile_dropWhile_mem (fun y => decide (y.2.number < x.2.number)) ys
    have low : ∀ y ∈ ys.takeWhile (fun y => y.2.number < x.2.number), y.2.number < x.2.number := fun y m => by
      simpa using List.mem_takeWhile_imp m
    have high : ∀ y ∈ ys.dropWhile (fun y => y.2.number < x.2.number), x.2.number < y.2.number := fun y m =>
      Nat.lt_of_le_of_ne (hy.dropWhile x.2.number y m) (apart x List.mem_cons_self y ((parts y).mp (Or.inr m)))
    have sub : (ys.dropWhile fun y => y.2.number < x.2.number).Sublist ys := List.dropWhile_sublist _
    have rest := ih hx (hy.sublist sub) fun z m y n => apart z (List.mem_cons_of_mem x m) y (sub.subset n)
    have above : ∀ z ∈ mergeRequests xs (ys.dropWhile fun y => y.2.number < x.2.number), x.2.number < z.2.number :=
      fun z m => ((mem_mergeRequests _ _ z).mp m).elim (below z) (high z)
    unfold mergeRequests
    refine List.pairwise_append.mpr ⟨hy.sublist (List.takeWhile_sublist _), List.pairwise_cons.mpr ⟨above, rest⟩, ?_⟩
    intro y m z n
    rcases List.mem_cons.mp n with rfl | n
    · exact low y m
    · exact Nat.lt_trans (low y m) (above z n)

/-- One port's unanswered requests, with the port. -/
def State.requestsOf (s : State) (w : Window) : List (Window × OpenRequest) :=
  (s.office.at w).unanswered.map fun q => (w, q)

theorem State.mem_requestsOf (s : State) (w v : Window) (q : OpenRequest) :
    (v, q) ∈ s.requestsOf w ↔ v = w ∧ q ∈ (s.office.at w).unanswered := by
  unfold State.requestsOf
  rw [List.mem_map]
  constructor
  · rintro ⟨r, m, same⟩
    cases same
    exact ⟨rfl, m⟩
  · rintro ⟨rfl, m⟩
    exact ⟨q, m, rfl⟩

theorem State.mergedRequests (s : State) (l : List Window) (once : l.Nodup) :
    let rs := l.foldl (fun qs w => mergeRequests qs (s.requestsOf w)) []
    (∀ v q, (v, q) ∈ rs ↔ v ∈ l ∧ q ∈ (s.office.at v).unanswered) ∧
      (∀ v ∈ l, rs.filter (fun x => x.1 == v) = s.requestsOf v) ∧
      ((∀ v : Window, ((s.office.at v).unanswered.map OpenRequest.number).Pairwise (· < ·)) →
        (∀ v v' : Window, ∀ q ∈ (s.office.at v).unanswered, ∀ q' ∈ (s.office.at v').unanswered,
          q.number = q'.number → v = v') → Ordered rs) := by
  induction l using List.reverseRecOn with
  | nil => exact ⟨fun v q => by simp, nofun, fun _ _ => List.Pairwise.nil⟩
  | append_singleton l w ih =>
    have once' : l.Nodup ∧ w ∉ l := by
      obtain ⟨a, _, b⟩ := List.nodup_append.mp once
      exact ⟨a, fun m => b w m w (List.mem_singleton_self w) rfl⟩
    obtain ⟨mem, filters, ordered⟩ := ih once'.1
    rw [List.foldl_append, List.foldl_cons, List.foldl_nil]
    generalize l.foldl (fun qs w => mergeRequests qs (s.requestsOf w)) [] = rs at *
    refine ⟨fun v q => ?_, fun v m => ?_, fun sorted apart => ?_⟩
    · rw [mem_mergeRequests, mem, s.mem_requestsOf, List.mem_append, List.mem_singleton]
      constructor
      · rintro (⟨m, n⟩ | ⟨rfl, n⟩)
        · exact ⟨Or.inl m, n⟩
        · exact ⟨Or.inr rfl, n⟩
      · rintro ⟨m | rfl, n⟩
        · exact Or.inl ⟨m, n⟩
        · exact Or.inr ⟨rfl, n⟩
    · by_cases same : v = w
      · subst same
        rw [mergeRequests_filter_right]
        · refine List.filter_eq_self.mpr fun x n => ?_
          obtain ⟨u, q⟩ := x
          simpa using ((s.mem_requestsOf v u q).mp n).1
        · rintro ⟨u, q⟩ n
          refine beq_eq_false_iff_ne.mpr fun here => once'.2 ?_
          have here : u = v := here
          exact here ▸ ((mem u q).mp n).1
      · rw [mergeRequests_filter_left]
        · exact filters v ((List.mem_append.mp m).resolve_right fun k => same (List.mem_singleton.mp k))
        · rintro ⟨u, q⟩ n
          refine beq_eq_false_iff_ne.mpr fun here => same ?_
          have here : u = v := here
          exact here.symm.trans ((s.mem_requestsOf w u q).mp n).1
    · refine (ordered sorted apart).merge (List.pairwise_map.mpr (List.pairwise_map.mp (sorted w))) ?_
      rintro ⟨u, q⟩ m ⟨u', q'⟩ m' same
      obtain ⟨rfl, m'⟩ := (s.mem_requestsOf w u' q').mp m'
      obtain ⟨in_, m⟩ := (mem u q).mp m
      exact once'.2 (apart u u' q m q' m' same ▸ in_)

theorem mem_allWindows (w : Window) : w ∈ allWindows := by revert w; decide

theorem allWindows_nodup : allWindows.Nodup := by decide

/-- The open requests: each unanswered one, each port's in its own order, and all in the order of their numbers. -/
theorem State.openRequests_effect (s : State) :
    (∀ v q, (v, q) ∈ s.openRequests ↔ q ∈ (s.office.at v).unanswered) ∧
      (∀ v, s.openRequests.filter (fun x => x.1 == v) = s.requestsOf v) ∧
      ((∀ v : Window, ((s.office.at v).unanswered.map OpenRequest.number).Pairwise (· < ·)) →
        (∀ v v' : Window, ∀ q ∈ (s.office.at v).unanswered, ∀ q' ∈ (s.office.at v').unanswered,
          q.number = q'.number → v = v') → Ordered s.openRequests) := by
  obtain ⟨mem, filters, ordered⟩ := s.mergedRequests allWindows allWindows_nodup
  exact ⟨fun v q => (mem v q).trans (and_iff_right (mem_allWindows v)), fun v => filters v (mem_allWindows v), ordered⟩

end Sys2Proof.Machine
end

