-- ==== Sys2Proof/Proofs/RequestsReset.lean ====
section
/-! SUPPORT. Every other request answered RESET, in order, and what the sessions of the jobs among them see (R22, R21,
R99, R108, R182). -/

namespace Sys2Proof.Machine

/-! ### The job that a request is -/

/-- A job of the pool, if the request with a number is that job. -/
def State.jobAsked (s : State) (n : Nat) (j : JobNumber) : Option (JobNumber × Job) :=
  (s.jobs.at j).bind fun job => if job.origin.number = some n then some (j, job) else none

theorem State.jobOfRequest_eq (s : State) (n : Nat) : s.jobOfRequest n = allJobs.findSome? (s.jobAsked n) := by
  unfold State.jobOfRequest
  congr 1
  funext j
  unfold State.jobAsked
  cases s.jobs.at j <;> rfl

theorem State.jobAsked_eq_some {s : State} {n : Nat} {j k : JobNumber} {job : Job} :
    s.jobAsked n j = some (k, job) ↔ k = j ∧ s.jobs.at j = some job ∧ job.origin.number = some n := by
  unfold State.jobAsked
  rw [Option.bind_eq_some_iff]
  constructor
  · rintro ⟨x, record, h⟩
    split at h
    · rename_i asked
      cases h
      exact ⟨rfl, record, asked⟩
    · cases h
  · rintro ⟨rfl, record, asked⟩
    exact ⟨job, record, if_pos asked⟩

theorem State.jobOfRequest_some {s : State} {n : Nat} {j : JobNumber} {job : Job} (h : s.jobOfRequest n = some (j, job)) :
    s.jobs.at j = some job ∧ job.origin.number = some n := by
  rw [State.jobOfRequest_eq] at h
  obtain ⟨k, _, at_⟩ := List.exists_of_findSome?_eq_some h
  obtain ⟨rfl, record, asked⟩ := State.jobAsked_eq_some.mp at_
  exact ⟨record, asked⟩

/-- The request of a job, where no two jobs have one number. -/
theorem State.jobOfRequest_of_job {s : State} (apart : ∀ (j k : JobNumber) (x y : Job), s.jobs.at j = some x →
      s.jobs.at k = some y → x.origin.number = y.origin.number → j = k) {n : Nat} {j : JobNumber} {job : Job}
    (record : s.jobs.at j = some job) (asked : job.origin.number = some n) : s.jobOfRequest n = some (j, job) := by
  cases found : s.jobOfRequest n with
  | none =>
    rw [State.jobOfRequest_eq, List.findSome?_eq_none_iff] at found
    have none_ := found j (mem_allJobs j)
    rw [State.jobAsked_eq_some.mpr ⟨rfl, record, asked⟩] at none_
    cases none_
  | some x =>
    obtain ⟨k, other⟩ := x
    obtain ⟨record', asked'⟩ := State.jobOfRequest_some found
    cases apart j k job other record record' (asked.trans asked'.symm)
    cases record.symm.trans record'
    rfl

theorem State.jobOfRequest_congr {s t : State} {n : Nat} (jobs : ∀ j, t.jobAsked n j = s.jobAsked n j) :
    t.jobOfRequest n = s.jobOfRequest n := by
  rw [State.jobOfRequest_eq, State.jobOfRequest_eq, funext jobs]

/-- A job that has ended was no other request's. -/
theorem State.jobOfRequest_put {s t : State} {n m : Nat} {j : JobNumber} {job : Job} (record : s.jobs.at j = some job)
    (asked : job.origin.number = some m) (other : m ≠ n) (jobs : t.jobs = s.jobs.put j none) :
    t.jobOfRequest n = s.jobOfRequest n := by
  refine State.jobOfRequest_congr fun k => ?_
  unfold State.jobAsked
  rw [jobs, Vector.at_put]
  split
  · rename_i same
    subst same
    have number : some m ≠ some n := fun h => other (Option.some.inj h)
    simp [record, asked, number]
  · rfl

theorem State.jobOfRequest_of_none {s : State} (none_ : ∀ j, s.jobs.at j = none) (n : Nat) : s.jobOfRequest n = none := by
  rw [State.jobOfRequest_eq, List.findSome?_eq_none_iff]
  intro j _
  unfold State.jobAsked
  rw [none_ j]
  rfl

/-! ### One request -/

/-- A request answered RESET: with the serial of its job, or with no figures. -/
theorem State.resetRequest_cases (t : State) (q : Window × OpenRequest) :
    (t.jobOfRequest q.2.number = none ∧ t.resetRequest q =
      t.answer { window := q.1, tag := q.2.tag, number := some q.2.number } .reset .nothing) ∨
    ∃ j job, t.jobOfRequest q.2.number = some (j, job) ∧ t.resetRequest q = t.endJob j job .reset job.resetFigures := by
  cases found : t.jobOfRequest q.2.number with
  | none =>
    refine Or.inl ⟨rfl, ?_⟩
    unfold State.resetRequest
    rw [found]
    rfl
  | some x =>
    refine Or.inr ⟨x.1, x.2, rfl, ?_⟩
    unfold State.resetRequest
    rw [found]

theorem State.resetRequest_sorts (t : State) (q : Window × OpenRequest) : t.Sorts (t.resetRequest q) := by
  rcases t.resetRequest_cases q with ⟨_, shape⟩ | ⟨j, job, _, shape⟩ <;> rw [shape]
  · exact ⟨rfl, fun _ _ => Iff.rfl⟩
  · exact t.endJob_sorts j job _ _

theorem State.resetRequests_sorts (qs : List (Window × OpenRequest)) (t : State) :
    t.Sorts (qs.foldl State.resetRequest t) := by
  induction qs generalizing t with
  | nil => exact .refl t
  | cons q qs ih => exact (t.resetRequest_sorts q).trans (ih _)

theorem State.resetRequest_sends (t : State) (q : Window × OpenRequest) : t.Sends (t.resetRequest q) := fun w => by
  rcases t.resetRequest_cases q with ⟨_, shape⟩ | ⟨j, job, _, shape⟩ <;> rw [shape]
  · rw [State.answer_sendList]
    exact List.prefix_append _ _
  · rw [State.endJob_answers, State.answer_sendList]
    exact List.prefix_append _ _

/-- A claim joins the list at its end, when the last of its session's jobs has ended (R108, R157). -/
theorem State.endJob_claims (t : State) (j : JobNumber) (job : Job) (code : AnswerCode) (figures : Figures) :
    let u := t.endJob j job code figures
    u.journal.claims = t.journal.claims ∨
      (Claim.session job.session ∉ t.journal.claims ∧ u.journal.claims = t.journal.claims ++ [.session job.session] ∧
        ∃ x, t.session job.session = some x ∧ x.jobs - 1 = 0) := by
  let v := ((t.setJob j none).answer job.origin code figures).modifySession job.session fun x => { x with jobs := x.jobs - 1 }
  have claims : v.journal.claims = t.journal.claims := rfl
  have session : v.session job.session = (t.session job.session).map fun x => { x with jobs := x.jobs - 1 } :=
    (State.session_modifySession _ job.session (fun x => { x with jobs := x.jobs - 1 }) (fun _ => rfl) _).trans (if_pos rfl)
  show (v.signOffTest job.session).journal.claims = _ ∨ _ ∧ (v.signOffTest job.session).journal.claims = _ ∧ _
  rw [← claims]
  unfold State.signOffTest
  cases found : v.session job.session with
  | none => exact Or.inl rfl
  | some y =>
    dsimp only
    split
    · rename_i owes
      have fin := ((y.finished_iff).mp (Bool.and_eq_true _ _ |>.mp owes).1).2.1
      rw [session, Option.map_eq_some_iff] at found
      obtain ⟨x, here, rfl⟩ := found
      unfold State.addClaim
      rw [State.updateJournal_journal]
      show (if v.journal.claims.contains (.session job.session) then v.journal
        else { v.journal with claims := v.journal.claims ++ [.session job.session] }).claims = _ ∨ _ ∧
        (if v.journal.claims.contains (.session job.session) then v.journal
        else { v.journal with claims := v.journal.claims ++ [.session job.session] }).claims = _ ∧ _
      split
      · exact Or.inl rfl
      · rename_i absent
        exact Or.inr ⟨by simpa using absent, rfl, x, here, fin⟩
    · exact Or.inl rfl

/-! ### The requests in order -/

/-- The job that the request with a number is. -/
def State.resetJob (s : State) (q : Window × OpenRequest) : Option Job := (s.jobOfRequest q.2.number).map Prod.snd

/-- The figures of a request's RESET answer (R22). -/
def State.resetFigures (s : State) (q : Window × OpenRequest) : Figures :=
  ((s.resetJob q).map Job.resetFigures).getD .nothing

/-- The requests that wait are those of the same jobs in both states. -/
def State.SameRequests (s t : State) (qs : List (Window × OpenRequest)) : Prop :=
  ∀ q ∈ qs, t.jobOfRequest q.2.number = s.jobOfRequest q.2.number

/-- One request out of the way, in the order of numbers. -/
theorem State.SameRequests.next {s t : State} {q : Window × OpenRequest} {qs : List (Window × OpenRequest)}
    (h : s.SameRequests t (q :: qs)) (ordered : Ordered (q :: qs)) : s.SameRequests (t.resetRequest q) qs := fun r m => by
  refine Eq.trans ?_ (h r (List.mem_cons_of_mem q m))
  have other : q.2.number ≠ r.2.number := Nat.ne_of_lt ((List.pairwise_cons.mp ordered).1 r m)
  rcases t.resetRequest_cases q with ⟨_, shape⟩ | ⟨j, job, found, shape⟩
  · rw [shape]
    exact State.jobOfRequest_congr fun _ => rfl
  · obtain ⟨record, asked⟩ := State.jobOfRequest_some found
    rw [shape]
    exact State.jobOfRequest_put record asked other (t.endJob_jobs j job _ _)

/-- The jobs of requests are answered where the requests were taken. -/
def State.AskedThere (s : State) (qs : List (Window × OpenRequest)) : Prop :=
  ∀ q ∈ qs, ∀ job, s.resetJob q = some job → job.origin.window = q.1 ∧ job.origin.tag = q.2.tag

theorem State.resetRequests_sendList {s : State} {qs : List (Window × OpenRequest)} :
    ∀ {t : State}, s.SameRequests t qs → Ordered qs → s.AskedThere qs → ∀ w,
      ((qs.foldl State.resetRequest t).office.at w).sendList = (t.office.at w).sendList ++
        (qs.filter fun q => q.1 == w).map fun q => .answer q.2.tag .reset (s.resetFigures q) false := by
  induction qs with
  | nil => exact fun _ _ _ w => (List.append_nil _).symm
  | cons q qs ih =>
    intro t same ordered there w
    rw [List.foldl_cons, ih (same.next ordered) (List.pairwise_cons.mp ordered).2
      (fun r m => there r (List.mem_cons_of_mem q m)) w]
    have first : ((t.resetRequest q).office.at w).sendList = (t.office.at w).sendList ++
        if q.1 = w then [.answer q.2.tag .reset (s.resetFigures q) false] else [] := by
      have agrees := same q List.mem_cons_self
      rcases t.resetRequest_cases q with ⟨found, shape⟩ | ⟨j, job, found, shape⟩
      · have none_ : s.resetFigures q = .nothing := by
          unfold State.resetFigures State.resetJob
          rw [← agrees, found]
          rfl
        rw [shape, State.answer_sendList, none_]
      · have own : s.resetJob q = some job := by
          unfold State.resetJob
          rw [← agrees, found]
          rfl
        obtain ⟨window, tag⟩ := there q List.mem_cons_self job own
        have figures : s.resetFigures q = job.resetFigures := by
          unfold State.resetFigures
          rw [own]
          rfl
        rw [shape, State.endJob_answers, State.answer_sendList, figures, window, tag]
    rw [first, List.filter_cons, List.append_assoc]
    by_cases here : q.1 = w <;> simp [here]

/-- With no job in the pool every request is answered with no figures. -/
theorem State.resetRequests_bare (qs : List (Window × OpenRequest)) :
    ∀ {t : State}, (∀ j, t.jobs.at j = none) → ∀ w,
      ((qs.foldl State.resetRequest t).office.at w).sendList = (t.office.at w).sendList ++
        (qs.filter fun q => q.1 == w).map fun q => .answer q.2.tag .reset .nothing false := by
  induction qs with
  | nil => exact fun _ w => (List.append_nil _).symm
  | cons q qs ih =>
    intro t none_ w
    rcases t.resetRequest_cases q with ⟨_, shape⟩ | ⟨j, job, found, _⟩
    · have jobs : (t.resetRequest q).jobs = t.jobs := by rw [shape]; rfl
      rw [List.foldl_cons, ih (by rw [jobs]; exact none_) w, shape, State.answer_sendList, List.filter_cons,
        List.append_assoc]
      by_cases here : q.1 = w <;> simp [here]
    · rw [State.jobOfRequest_of_none none_] at found
      cases found

/-- The sessions are told of the jobs among the requests (R21). -/
theorem State.resetRequests_tells {s : State} {qs : List (Window × OpenRequest)} :
    ∀ {t : State}, s.SameRequests t qs → Ordered qs →
      t.Tells (fun i => (qs.filterMap s.resetJob).countP fun job => job.session == i) (qs.foldl State.resetRequest t) := by
  induction qs with
  | nil => exact fun _ _ => (State.Tells.refl _).congr fun _ => rfl
  | cons q qs ih =>
    intro t same ordered
    have later := ih (same.next ordered) (List.pairwise_cons.mp ordered).2
    rw [List.foldl_cons]
    have agrees := same q List.mem_cons_self
    rcases t.resetRequest_cases q with ⟨found, shape⟩ | ⟨j, job, found, shape⟩
    · have none_ : s.resetJob q = none := by
        unfold State.resetJob
        rw [← agrees, found]
        rfl
      rw [List.filterMap_cons_none none_]
      refine State.Tells.before ?_ later
      rw [shape]
      exact t.answer_tells _ _ _
    · have own : s.resetJob q = some job := by
        unfold State.resetJob
        rw [← agrees, found]
        rfl
      rw [List.filterMap_cons_some own]
      have first : t.Tells (fun i => if job.session = i then 1 else 0) (t.resetRequest q) := by
        rw [shape]
        exact t.endJob_tells j job _ _
      refine (first.trans later).congr fun i => ?_
      rw [List.countP_cons, Nat.add_comm]
      simp

end Sys2Proof.Machine
end

