-- ==== Sys2Proof/Proofs/ClaimsInOrder.lean ====
section
/-! SUPPORT. The order in which the sessions of the jobs answered RESET come to claim their sign-offs (R108, R157, R182). -/

namespace Sys2Proof.Machine

/-- How many of some requests are jobs of a session. -/
def State.jobsAmong (s : State) (n : Nat) (qs : List (Window × OpenRequest)) : Nat :=
  (qs.filterMap s.resetJob).countP fun job => job.session == n

/-- No one of some requests is a job of a session. -/
def State.NoJobs (s : State) (n : Nat) (qs : List (Window × OpenRequest)) : Prop :=
  ∀ q ∈ qs, ∀ a, s.resetJob q = some a → a.session ≠ n

theorem State.NoJobs.tail {s : State} {n : Nat} {q : Window × OpenRequest} {qs : List (Window × OpenRequest)}
    (h : s.NoJobs n (q :: qs)) : s.NoJobs n qs := fun r m => h r (List.mem_cons_of_mem q m)

theorem State.jobsAmong_pos {s : State} {n : Nat} {q : Window × OpenRequest} {qs : List (Window × OpenRequest)} {b : Job}
    (m : q ∈ qs) (job : s.resetJob q = some b) (own : b.session = n) : 0 < s.jobsAmong n qs :=
  List.countP_pos_iff.mpr ⟨b, List.mem_filterMap.mpr ⟨q, m, job⟩, by simp [own]⟩

theorem State.jobsAmong_cons (s : State) (n : Nat) (q : Window × OpenRequest) (qs : List (Window × OpenRequest)) :
    s.jobsAmong n (q :: qs) = s.jobsAmong n qs + (if (s.resetJob q).any (fun job => job.session == n) then 1 else 0) := by
  unfold State.jobsAmong
  cases own : s.resetJob q with
  | none =>
    rw [List.filterMap_cons_none own]
    rfl
  | some job =>
    rw [List.filterMap_cons_some own, List.countP_cons]
    rfl

/-- A job of the one session is asked after all jobs of the other, if any of those are left. -/
def State.AskedAfter (s : State) (n m : Nat) (qs : List (Window × OpenRequest)) : Prop :=
  (∃ r ∈ qs, (∃ b, s.resetJob r = some b ∧ b.session = m) ∧
    ∀ q ∈ qs, ∀ a, s.resetJob q = some a → a.session = n → q.2.number < r.2.number) ∨ s.NoJobs n qs

theorem State.AskedAfter.tail {s : State} {n m : Nat} {q : Window × OpenRequest} {qs : List (Window × OpenRequest)}
    (h : s.AskedAfter n m (q :: qs)) (ordered : Ordered (q :: qs)) : s.AskedAfter n m qs := by
  rcases h with ⟨r, in_, job, later⟩ | none_
  · rcases List.mem_cons.mp in_ with rfl | in_
    · refine Or.inr fun q' m' a own is => ?_
      have low := later q' (List.mem_cons_of_mem r m') a own is
      have high := (List.pairwise_cons.mp ordered).1 q' m'
      omega
    · exact Or.inl ⟨r, in_, job, fun q' m' => later q' (List.mem_cons_of_mem q m')⟩
  · exact Or.inr none_.tail

/-- When the last job of the one session is answered, none of the other is left. -/
theorem State.AskedAfter.last {s : State} {n m : Nat} {q : Window × OpenRequest} {qs : List (Window × OpenRequest)} {job : Job}
    (h : s.AskedAfter n m (q :: qs)) (ordered : Ordered (q :: qs)) (own : s.resetJob q = some job)
    (is : job.session = m) (none_ : s.jobsAmong m qs = 0) : n ≠ m ∧ s.NoJobs n qs := by
  rcases h with ⟨r, in_, ⟨b, job_r, is_r⟩, later⟩ | no
  · rcases List.mem_cons.mp in_ with rfl | in_
    · refine ⟨fun same => ?_, fun q' m' a own' is' => ?_⟩
      · exact absurd (later r List.mem_cons_self job own (is.trans same.symm)) (Nat.lt_irrefl _)
      · have low := later q' (List.mem_cons_of_mem r m') a own' is'
        have high := (List.pairwise_cons.mp ordered).1 q' m'
        omega
    · have some_ := State.jobsAmong_pos in_ job_r is_r
      omega
  · exact ⟨fun same => no q List.mem_cons_self job own (is.trans same.symm), no.tail⟩

/-- The claims of two sessions as far as the requests have been answered. -/
def State.ClaimsInOrder (s t : State) (n m : Nat) (qs : List (Window × OpenRequest)) : Prop :=
  Claim.session m ∉ t.journal.claims ∨
    (Claim.session n ∈ t.journal.claims ∧ Claim.session m ∈ t.journal.claims ∧
      t.journal.claims.idxOf (.session n) < t.journal.claims.idxOf (.session m)) ∨
    (Claim.session n ∉ t.journal.claims ∧ s.NoJobs n qs)

/-- Claims that stay. -/
theorem State.ClaimsInOrder.same {s t u : State} {n m : Nat} {q : Window × OpenRequest}
    {qs : List (Window × OpenRequest)} (h : s.ClaimsInOrder t n m (q :: qs)) (claims : u.journal.claims = t.journal.claims) :
    s.ClaimsInOrder u n m qs := by
  unfold State.ClaimsInOrder
  rw [claims]
  exact h.imp id (Or.imp id (And.imp id State.NoJobs.tail))

/-- A session claims its sign-off when its last job has been answered. -/
theorem State.ClaimsInOrder.joins {s t u : State} {n m : Nat} {q : Window × OpenRequest}
    {qs : List (Window × OpenRequest)} {job : Job} (h : s.ClaimsInOrder t n m (q :: qs)) (ordered : Ordered (q :: qs))
    (after : s.AskedAfter n m (q :: qs)) (own : s.resetJob q = some job)
    (claims : u.journal.claims = t.journal.claims ++ [.session job.session])
    (last : job.session = m → s.jobsAmong m qs = 0) : s.ClaimsInOrder u n m qs := by
  unfold State.ClaimsInOrder
  rw [claims]
  have mem : ∀ k, Claim.session k ∈ t.journal.claims ++ [.session job.session] ↔
      Claim.session k ∈ t.journal.claims ∨ k = job.session := fun k => by
    simp
  rcases h with absent | ⟨in_n, in_m, before⟩ | ⟨absent, none_⟩
  · by_cases is : job.session = m
    · obtain ⟨other, no⟩ := after.last ordered own is (last is)
      by_cases in_n : Claim.session n ∈ t.journal.claims
      · refine Or.inr (Or.inl ⟨(mem n).mpr (Or.inl in_n), (mem m).mpr (Or.inr is.symm), ?_⟩)
        rw [List.idxOf_append_of_mem in_n, List.idxOf_append_of_notMem absent]
        exact Nat.lt_of_lt_of_le (List.idxOf_lt_length_iff.mpr in_n) (Nat.le_add_right _ _)
      · exact Or.inr (Or.inr ⟨fun k => ((mem n).mp k).elim in_n fun same => other (same.trans is), no⟩)
    · exact Or.inl fun k => ((mem m).mp k).elim absent fun same => is same.symm
  · refine Or.inr (Or.inl ⟨(mem n).mpr (Or.inl in_n), (mem m).mpr (Or.inl in_m), ?_⟩)
    rw [List.idxOf_append_of_mem in_n, List.idxOf_append_of_mem in_m]
    exact before
  · exact Or.inr (Or.inr ⟨fun k => ((mem n).mp k).elim absent
      fun same => none_ q List.mem_cons_self job own same.symm, none_.tail⟩)

/-- The session whose last job was taken first claims its sign-off first. -/
theorem State.resetRequests_claims {s : State} {n m : Nat} {qs : List (Window × OpenRequest)} :
    ∀ {t : State}, s.SameRequests t qs → Ordered qs → s.ClaimsInOrder t n m qs → s.AskedAfter n m qs →
      (∃ z, t.session m = some z ∧ z.jobs = s.jobsAmong m qs) →
      let u := qs.foldl State.resetRequest t
      Claim.session n ∈ u.journal.claims → Claim.session m ∈ u.journal.claims →
        u.journal.claims.idxOf (.session n) < u.journal.claims.idxOf (.session m) := by
  induction qs with
  | nil =>
    intro t _ _ order _ _ u in_n in_m
    rcases order with absent | ⟨_, _, before⟩ | ⟨absent, _⟩
    · exact absurd in_m absent
    · exact before
    · exact absurd in_n absent
  | cons q qs ih =>
    intro t same ordered order after ⟨z, found, jobs⟩
    have agrees := same q List.mem_cons_self
    have ordered' := (List.pairwise_cons.mp ordered).2
    have left := s.jobsAmong_cons m q qs
    rw [List.foldl_cons]
    rcases t.resetRequest_cases q with ⟨none_, shape⟩ | ⟨j, job, here, shape⟩
    · have no : s.resetJob q = none := by
        unfold State.resetJob
        rw [← agrees, none_]
        rfl
      rw [no] at left
      have claims : (t.resetRequest q).journal.claims = t.journal.claims := by rw [shape]; rfl
      have session : (t.resetRequest q).session m = t.session m := by rw [shape]; rfl
      exact ih (same.next ordered) ordered' (order.same claims) (after.tail ordered)
        ⟨z, session.trans found, jobs.trans left⟩
    · have own : s.resetJob q = some job := by
        unfold State.resetJob
        rw [← agrees, here]
        rfl
      rw [own] at left
      have left : s.jobsAmong m (q :: qs) = s.jobsAmong m qs + if job.session = m then 1 else 0 := by simpa using left
      have claims := t.endJob_claims j job .reset job.resetFigures
      have told := (t.endJob_tells j job .reset job.resetFigures).sessions m z found
      rw [← shape] at claims told
      obtain ⟨z', found', told⟩ := told
      have counted : z'.jobs = s.jobsAmong m qs := by
        rw [told.jobs, jobs, left, Nat.add_sub_cancel]
      refine ih (same.next ordered) ordered' ?_ (after.tail ordered) ⟨z', found', counted⟩
      rcases claims with claims | ⟨_, claims, x, session, spent⟩
      · exact order.same claims
      · refine order.joins ordered after own claims fun is => ?_
        rw [is] at session
        cases found.symm.trans session
        rw [jobs, left, if_pos is, Nat.add_sub_cancel] at spent
        exact spent

end Sys2Proof.Machine
end

