-- ==== Sys2Proof/Proofs/PathReset.lean ====
section
/-! SUPPORT. A path reset from the accepted RESET to the tests after it (R182; log 24). -/

namespace Sys2Proof.Machine

/-! ### Answers cut -/

theorem Vector.at_map {α β : Type} {n : Nat} (t : Vector α n) (f : α → β) (i : Fin n) : (t.map f).at i = f (t.at i) := by
  unfold Vector.at
  exact Vector.getElem_map ..

theorem State.cutAnswers_at (s : State) (i : Fin 24) : s.cutAnswers.sessions.table.at i =
    (s.sessions.table.at i).map fun x => { x with signOff := none } := Vector.at_map ..

theorem State.cutAnswers_session (s : State) (n : Nat) :
    s.cutAnswers.session n = (s.session n).map fun x => { x with signOff := none } := by
  have any_ : ∀ i, ((s.cutAnswers.sessions.table.at i).any fun x => x.number == n) =
      (s.sessions.table.at i).any fun x => x.number == n := fun i => by
    rw [State.cutAnswers_at]
    cases s.sessions.table.at i <;> rfl
  have find : (s.cutAnswers.sessions.find fun x => x.number == n) = s.sessions.find fun x => x.number == n := by
    unfold SessionUnit.find
    simp only [any_]
  show (s.cutAnswers.sessions.find _).bind s.cutAnswers.sessions.table.at = ((s.sessions.find _).bind _).map _
  rw [find]
  cases s.sessions.find fun x => x.number == n with
  | none => rfl
  | some i => exact s.cutAnswers_at i

theorem State.cutAnswers_tells (s : State) : s.Tells (fun _ => 0) s.cutAnswers := by
  refine ⟨fun _ h => h, fun n x h => ⟨{ x with signOff := none }, ?_, rfl, rfl, Nat.le_refl _, id, Or.inl, ?_⟩⟩
  · rw [State.cutAnswers_session, h]
    rfl
  · exact fun h => absurd h (Nat.lt_irrefl 0)

theorem State.cutAnswers_books (s : State) (i : Fin 24) :
    (s.cutAnswers.sessions.table.at i).map Session.books = (s.sessions.table.at i).map Session.books := by
  rw [State.cutAnswers_at, Option.map_map]
  rfl

/-! ### Ports of the link emptied -/

/-- Some ports of the link emptied, their send lists kept (R182, R198). -/
theorem State.resetWindows_effect (l : List Window) (once : l.Nodup) (s : State) :
    let t := l.foldl State.resetWindow s
    t = { s with office := t.office } ∧ ∀ w, t.office.at w = if w ∈ l then
      { s.office.at w with buffer := [], unanswered := [], conditions := noLines } else s.office.at w := by
  induction l generalizing s with
  | nil => exact ⟨rfl, fun w => by simp⟩
  | cons v l ih =>
    obtain ⟨fresh, once⟩ := List.nodup_cons.mp once
    obtain ⟨rest, ports⟩ := ih once (s.resetWindow v)
    rw [List.foldl_cons]
    refine ⟨by rw [rest]; rfl, fun w => ?_⟩
    have at_ : (s.resetWindow v).office.at w = if v = w then
        { s.office.at v with buffer := [], unanswered := [], conditions := noLines } else s.office.at w := by
      unfold State.resetWindow
      dsimp only
      rw [State.setOffice_office, Vector.at_put]
    rw [ports, at_]
    by_cases same : v = w
    · subst same
      simp [fresh]
    · simp [same, Ne.symm same]

theorem State.openRequests_congr {s t : State} (same : ∀ w, (t.office.at w).unanswered = (s.office.at w).unanswered) :
    t.openRequests = s.openRequests := by
  unfold State.openRequests
  simp only [same]

/-! ### The path reset, block by block -/

/-- The engines' claims withdrawn. -/
def State.enginesWithdrawn (s : State) : State :=
  s.updateJournal fun j => { j with claims := j.claims.filter fun c =>
    match c with
    | .engine _ => false
    | .batch _ => true
    | .session _ => true }

theorem State.mem_enginesWithdrawn (s : State) (c : Claim) :
    c ∈ s.enginesWithdrawn.journal.claims ↔ c ∈ s.journal.claims ∧ ∀ p, c ≠ .engine p := by
  show c ∈ s.journal.claims.filter _ ↔ _
  rw [List.mem_filter]
  cases c <;> simp

/-- The blocks before the requests are answered: claims, engines, and the answers cut. -/
def State.blocksReset (s : State) : State := (allPrinters.foldl State.resetEngine s.enginesWithdrawn).cutAnswers

/-- The requests answered and the link emptied. -/
def State.linkReset (s : State) : State :=
  allWindows.foldl State.resetWindow (s.blocksReset.openRequests.foldl State.resetRequest s.blocksReset)

/-- The pool and the fault queue emptied: what the tests after a path reset find. -/
def State.poolReset (s : State) : State := { s.linkReset with
  jobs := Vector.replicate 32 none
  queues := Vector.replicate 12 []
  monitor := s.linkReset.monitor.pathReset }

theorem State.pathReset_eq (s : State) : s.pathReset = s.poolReset.settle := rfl

/-- What the blocks have lost and kept before the requests are answered. -/
structure State.BlocksReset (s c : State) : Prop where
  rest : c = { s with
    ports := c.ports, sent := c.sent, sessions := c.sessions, journal := c.journal, store := c.store }
  write : c.store = { s.store with write := s.store.write.map StoreWrite.unanswered }
  ports : ∀ p, c.ports.at p = (s.ports.at p).pathReset (s.printerEntry p)
  sent : c.sent = s.sent ++ (allPrinters.filter fun p => s.function p != .off).map fun p => (p, .enquire)
  claims : ∀ x, x ∈ c.journal.claims ↔ x ∈ s.journal.claims ∧ ∀ p, x ≠ .engine p
  records : c.journal.queue.map Queued.record = s.journal.queue.map Queued.record ++
    (allPrinters.flatMap fun p => (s.spoils .reset p (s.ports.at p).entries).map Queued.record)
  links : ∀ q ∈ c.journal.queue, q.link = .nothing
  reserved : s.roomSound → c.journal.reserved = 0
  writesOn : s.WritesOn c
  tells : s.Tells (fun _ => 0) c
  books : ∀ i : Fin 24, (c.sessions.table.at i).map Session.books = (s.sessions.table.at i).map Session.books
  accounts : c.sessions.log = s.sessions.log ∧ c.sessions.nextNumber = s.sessions.nextNumber
  keeps : s.Keeps c

theorem State.blocksReset_effect (s : State) : s.BlocksReset s.blocksReset := by
  have engines := s.enginesWithdrawn.resetEngines_reset
  have quiet := State.Quiet.foldl State.resetEngine_quiet allPrinters s.enginesWithdrawn
  have withdrawn : s.Keeps s.enginesWithdrawn :=
    ⟨rfl, rfl, rfl, rfl, rfl, rfl, rfl, rfl, rfl, rfl, id, List.prefix_rfl⟩
  have told : s.Tells (fun _ => 0) s.enginesWithdrawn :=
    .of_same rfl fun n h => (s.mem_enginesWithdrawn _).mpr ⟨h, fun _ => nofun⟩
  have cut := (State.cutAnswers_mild (allPrinters.foldl State.resetEngine s.enginesWithdrawn)).keeps
  unfold State.blocksReset
  generalize allPrinters.foldl State.resetEngine s.enginesWithdrawn = e at *
  have rest := engines.rest
  refine ⟨?_, ?_, fun p => ?_, ?_, fun x => ?_, ?_, fun q m => ?_, fun sound => ?_, ?_,
    (told.after engines.tells).after (State.cutAnswers_tells e), fun i => ?_, ?_, (withdrawn.trans quiet.keeps).trans cut⟩
  · show ({ e with journal := _, sessions := _, store := _ } : State) = _
    rw [rest]
    rfl
  · show ({ e.store with write := e.store.write.map StoreWrite.unanswered } : TableStore) = _
    rw [rest]
    rfl
  · exact engines.reset p (mem_allPrinters p)
  · exact engines.sent
  · show x ∈ e.journal.claims ↔ _
    rw [rest]
    exact s.mem_enginesWithdrawn x
  · show ((e.journal.queue.map fun q : Queued => { q with link := .nothing })).map Queued.record = _
    rw [List.map_map, engines.queue]
    show (s.journal.queue ++ _).map Queued.record = _
    rw [List.map_append, List.map_flatMap]
    rfl
  · obtain ⟨_, _, rfl⟩ := List.mem_map.mp m
    rfl
  · obtain ⟨_, reserved, held, _⟩ := sound
    show e.journal.reserved = 0
    rw [engines.reserved fun p a m t of => (held p a m t of).1]
    show s.journal.reserved - _ = 0
    rw [reserved]
    exact Nat.sub_self _
  · exact fun busy => engines.writesOn busy
  · rw [State.cutAnswers_books]
    exact quiet.books.sessions i
  · exact ⟨quiet.books.log, quiet.books.nextNumber⟩

/-- What the whole path reset leaves, seen from the blocks before the requests are answered. -/
structure State.LinkReset (c t u : State) : Prop where
  sorts : c.Sorts t
  sends : c.Sends t
  loud : c.Loud t
  shape : u = { t with
    office := u.office, jobs := Vector.replicate 32 none, queues := Vector.replicate 12 []
    monitor := t.monitor.pathReset }
  office : ∀ w, u.office.at w = { t.office.at w with buffer := [], unanswered := [], conditions := noLines }

theorem State.poolReset_effect (s : State) : s.blocksReset.LinkReset
    (s.blocksReset.openRequests.foldl State.resetRequest s.blocksReset) s.poolReset := by
  obtain ⟨rest, office⟩ := State.resetWindows_effect allWindows allWindows_nodup
    (s.blocksReset.openRequests.foldl State.resetRequest s.blocksReset)
  refine ⟨State.resetRequests_sorts _ _, State.Sends.foldl State.resetRequest_sends _ _,
    State.Loud.foldl State.resetRequest_loud _ _, ?_, fun w => (office w).trans (if_pos (mem_allWindows w))⟩
  unfold State.poolReset State.linkReset
  rw [rest]

/-! ### The jobs among the requests -/

theorem find_filterMap {α β : Type} (f : α → Option β) (q : β → Bool) (l : List α) :
    (l.filterMap f).find? q = (l.findSome? fun a => (f a).filter q) := by
  induction l with
  | nil => rfl
  | cons a l ih =>
    cases at_ : f a with
    | none =>
      rw [List.filterMap_cons_none at_, List.findSome?_cons, at_]
      exact ih
    | some b =>
      rw [List.filterMap_cons_some at_, List.findSome?_cons, at_, List.find?_cons]
      by_cases holds : q b = true
      · simp [holds, Option.filter_some]
      · simp [holds, ih, Option.filter_some]

theorem findSome_map {α β γ : Type} (f : α → Option β) (g : β → γ) (l : List α) :
    (l.findSome? f).map g = l.findSome? fun a => (f a).map g := by
  induction l with
  | nil => rfl
  | cons a l ih =>
    rw [List.findSome?_cons, List.findSome?_cons]
    cases f a with
    | none => exact ih
    | some b => rfl

/-- The first job of the pool with a request's number. -/
theorem State.resetJob_eq (s : State) (q : Window × OpenRequest) :
    s.resetJob q = (allJobs.filterMap s.jobs.at).find? fun x => x.origin.number == some q.2.number := by
  unfold State.resetJob
  rw [State.jobOfRequest_eq, findSome_map, find_filterMap]
  congr 1
  funext j
  unfold State.jobAsked
  cases s.jobs.at j with
  | none => rfl
  | some job => by_cases asked : job.origin.number = some q.2.number <;> simp [asked, Option.filter_some]

/-- The jobs of the pool and the open requests correspond (R22). -/
structure State.RequestsOwned (s : State) : Prop where
  sorted : ∀ v : Window, ((s.office.at v).unanswered.map OpenRequest.number).Pairwise (· < ·)
  apart : ∀ v v' : Window, ∀ q ∈ (s.office.at v).unanswered, ∀ q' ∈ (s.office.at v').unanswered, q.number = q'.number →
    v = v'
  single : ∀ (j k : JobNumber) (x y : Job), s.jobs.at j = some x → s.jobs.at k = some y →
    x.origin.number = y.origin.number → j = k
  asked : ∀ (j : JobNumber) (x : Job), s.jobs.at j = some x →
    ∃ q ∈ (s.office.at x.origin.window).unanswered, x.origin.number = some q.number ∧ x.origin.tag = q.tag

namespace State.RequestsOwned

variable {s : State}

theorem ordered (h : s.RequestsOwned) : Ordered s.openRequests := s.openRequests_effect.2.2 h.sorted h.apart

theorem there (h : s.RequestsOwned) : s.AskedThere s.openRequests := by
  rintro ⟨v, q⟩ m job own
  unfold State.resetJob at own
  obtain ⟨⟨j, job'⟩, found, rfl⟩ := Option.map_eq_some_iff.mp own
  obtain ⟨record, number⟩ := State.jobOfRequest_some found
  have m := (s.openRequests_effect.1 v q).mp m
  obtain ⟨q', m', number', tag⟩ := h.asked j job' record
  have same : q'.number = q.number := Option.some.inj (number'.symm.trans number)
  have window := h.apart _ v q' m' q m same
  rw [window] at m'
  have once : ((s.office.at v).unanswered.map OpenRequest.number).Nodup := (h.sorted v).imp Nat.ne_of_lt
  cases List.inj_on_of_nodup_map once m' m same
  exact ⟨window, tag⟩

theorem mem_jobs (h : s.RequestsOwned) (x : Job) :
    x ∈ s.openRequests.filterMap s.resetJob ↔ x ∈ allJobs.filterMap s.jobs.at := by
  rw [List.mem_filterMap, List.mem_filterMap]
  constructor
  · rintro ⟨q, _, own⟩
    obtain ⟨⟨j, job⟩, found, rfl⟩ := Option.map_eq_some_iff.mp own
    exact ⟨j, mem_allJobs j, (State.jobOfRequest_some found).1⟩
  · rintro ⟨j, _, record⟩
    obtain ⟨q, m, number, _⟩ := h.asked j x record
    refine ⟨(x.origin.window, q), (s.openRequests_effect.1 _ q).mpr m, ?_⟩
    unfold State.resetJob
    rw [State.jobOfRequest_of_job h.single record number]
    rfl

theorem jobs_perm (h : s.RequestsOwned) : (s.openRequests.filterMap s.resetJob).Perm (allJobs.filterMap s.jobs.at) := by
  refine (List.perm_ext_iff_of_nodup ?_ ?_).mpr h.mem_jobs
  · refine List.Pairwise.filterMap _ (fun q r low a own b own' => ?_) h.ordered
    obtain ⟨⟨j, x⟩, found, rfl⟩ := Option.map_eq_some_iff.mp own
    obtain ⟨⟨k, y⟩, found', rfl⟩ := Option.map_eq_some_iff.mp own'
    rintro rfl
    have number := (State.jobOfRequest_some found).2
    have number' := (State.jobOfRequest_some found').2
    exact Nat.ne_of_lt low (Option.some.inj (number.symm.trans number'))
  · refine List.Pairwise.filterMap _ (fun j k low a record b record' => ?_) allJobs_sorted
    rintro rfl
    exact low.ne (h.single j k a a record record' rfl)

end State.RequestsOwned

end Sys2Proof.Machine
end

