-- ==== Sys2Proof/Proofs/PathResetAnswers.lean ====
section
/-! SUPPORT. A RESET of scope PATH, put together. -/

namespace Sys2Proof.Machine

theorem exec_resetPath {s : State} {w : Window} {tag : Byte} {body : List Byte} (asks : s.asks w .reset tag body = true)
    (path : readEither body = some false) (sound : s.officeSound) :
    exec (.resetPath w) s = .next (s.answered w tag .done .nothing).poolReset.settle := by
  obtain ⟨f, of_body, taken⟩ := State.takeFrame_asks asks (isReset false) false
    (fun f kind is => by unfold isReset; rw [kind, is, path]; rfl) (State.checked .reset readEither ownResetPath)
  show Host.Outcome.next (s.takeFrame w (isReset false) false (State.checked .reset readEither ownResetPath)) = _
  rw [taken, State.checked_asks asks path ownResetPath of_body]
  unfold ownResetPath
  rw [State.admitted_refuse sound, State.pathReset_eq]

theorem State.answered_office (s : State) (w v : Window) (tag : Byte) (code : AnswerCode) (figures : Figures) :
    ((s.answered w tag code figures).office.at v).sendList =
        (s.office.at v).sendList ++ (if v = w then [.answer tag code figures false] else []) ∧
      ((s.answered w tag code figures).office.at v).unanswered = (s.office.at v).unanswered := by
  unfold State.answered
  dsimp only
  rw [Vector.at_put]
  by_cases same : w = v
  · subst same
    simp
  · simp [same, Ne.symm same]

/-- An answered request changes its port and the request counter alone. -/
theorem State.answered_blocks {s c : State} {w : Window} {tag : Byte} {code : AnswerCode} {figures : Figures}
    (h : (s.answered w tag code figures).BlocksReset c) : (∀ j, c.jobs.at j = s.jobs.at j) ∧ c.jobs = s.jobs ∧
      c.stock = s.stock ∧ c.standing = s.standing ∧ c.monitor = s.monitor ∧ c.supply = s.supply ∧
      c.office = (s.answered w tag code figures).office := by
  rw [h.rest]
  exact ⟨fun _ => rfl, rfl, rfl, rfl, rfl, rfl, rfl⟩

theorem State.openRequests_same {s c : State} {w : Window} {tag : Byte} {code : AnswerCode} {figures : Figures}
    (office : c.office = (s.answered w tag code figures).office) : c.openRequests = s.openRequests :=
  State.openRequests_congr fun v => by rw [office]; exact (s.answered_office w v tag code figures).2

/-! ### What a path reset leaves -/

section PathDone

variable {s c t u : State}

theorem State.LinkReset.keeps (link : c.LinkReset t u) : c.Keeps u := by
  refine link.loud.keeps.trans ?_
  rw [link.shape]
  exact ⟨rfl, rfl, rfl, rfl, rfl, rfl, rfl, rfl, rfl, rfl, id, List.prefix_rfl⟩

/-- The fields that answering the requests and emptying the link, the pool and the fault queue leave. -/
theorem State.LinkReset.leaves (link : c.LinkReset t u) : u.ports = c.ports ∧ u.stock = c.stock ∧
    u.standing = c.standing ∧ u.sent = c.sent ∧ u.store = c.store ∧ u.supply = c.supply ∧
    u.monitor = c.monitor.pathReset ∧ u.sessions = t.sessions ∧ u.journal.claims = t.journal.claims ∧
    u.journal = { c.journal with claims := t.journal.claims } := by
  rw [link.shape, link.sorts.rest]
  exact ⟨rfl, rfl, rfl, rfl, rfl, rfl, rfl, rfl, rfl, rfl⟩

theorem State.LinkReset.jobs (link : c.LinkReset t u) (j : JobNumber) : u.jobs.at j = none := by
  rw [link.shape]
  exact Vector.at_replicate ..

theorem State.LinkReset.queues (link : c.LinkReset t u) (p : Printer) : u.queues.at p = [] := by
  rw [link.shape]
  exact Vector.at_replicate ..

theorem State.LinkReset.tells {n : Nat → Nat} (link : c.LinkReset t u) (told : c.Tells n t) : c.Tells n u := by
  obtain ⟨_, _, _, _, _, _, _, sessions, claims, _⟩ := link.leaves
  exact told.after (.of_same sessions fun _ h => by rw [claims]; exact h)

/-- A session claim lasts through the answers to the requests. -/
theorem State.resetRequests_sessionClaims (qs : List (Window × OpenRequest)) (s : State) (n : Nat)
    (h : Claim.session n ∈ s.journal.claims) : Claim.session n ∈ (qs.foldl State.resetRequest s).journal.claims := by
  induction qs generalizing s with
  | nil => exact h
  | cons q qs ih =>
    refine ih _ ?_
    rcases s.resetRequest_cases q with ⟨_, shape⟩ | ⟨j, job, _, shape⟩ <;> rw [shape]
    · exact h
    · exact (s.endJob_tells j job _ _).claims n h

/-- The claims of engines are withdrawn and every other one kept. -/
theorem State.claims_reset (blocks : s.BlocksReset c) (link : c.LinkReset t u)
    (sessions : ∀ n, Claim.session n ∈ c.journal.claims → Claim.session n ∈ t.journal.claims) :
    (∀ p, Claim.engine p ∉ u.journal.claims) ∧
      ∀ x ∈ s.journal.claims, (∀ p, x ≠ Claim.engine p) → x ∈ u.journal.claims := by
  obtain ⟨_, _, _, _, _, _, _, _, claims, _⟩ := link.leaves
  rw [claims]
  refine ⟨fun p m => ?_, fun x m none_ => ?_⟩
  · exact ((blocks.claims _).mp ((link.sorts.claims (.engine p) nofun).mp m)).2 p rfl
  · have in_c := (blocks.claims x).mpr ⟨m, none_⟩
    cases x with
    | engine p => exact absurd rfl (none_ p)
    | batch b => exact (link.sorts.claims (.batch b) nofun).mpr in_c
    | session n => exact sessions n in_c

/-- A port with the values of Table 3-1. -/
theorem Port.pathReset_state (x : Port) (e : PrinterEntry) :
    (e.function ≠ .off → (x.pathReset e).state = .attaching ∧ (x.pathReset e).attachTimer = some e.selectTimeout) ∧
      (e.function = .off → (x.pathReset e).state = .unused ∧ (x.pathReset e).attachTimer = none) := by
  unfold Port.pathReset
  exact ⟨fun on => ⟨if_neg on, if_neg on⟩, fun off => ⟨if_pos off, if_pos off⟩⟩

theorem Monitor.pathReset_lasting (m : Monitor) (p : Printer) :
    m.pathReset.lasting.at p = { m.lasting.at p with protocol := false, overrun := false } := Vector.at_map ..

theorem State.resetJob_some {q : Window × OpenRequest} {job : Job} (h : s.resetJob q = some job) :
    job ∈ allJobs.filterMap s.jobs.at ∧ job.origin.number = some q.2.number := by
  obtain ⟨⟨j, job'⟩, found, rfl⟩ := Option.map_eq_some_iff.mp h
  obtain ⟨record, number⟩ := State.jobOfRequest_some found
  exact ⟨List.mem_filterMap.mpr ⟨j, mem_allJobs j, record⟩, number⟩

theorem State.RequestsOwned.jobsAmong (owned : s.RequestsOwned) (n : Nat) : s.jobsAmong n s.openRequests =
    ((allJobs.filterMap s.jobs.at).filter fun job => job.session == n).length :=
  (owned.jobs_perm.countP_eq _).trans List.countP_eq_length_filter

/-- The session whose last job was taken last has a job asked after all jobs of the other. -/
theorem State.RequestsOwned.askedAfter (owned : s.RequestsOwned) {n m : Nat}
    (last : ∃ b ∈ (allJobs.filterMap s.jobs.at).filter fun job => job.session == m, ∃ k, b.origin.number = some k ∧
      ∀ a ∈ (allJobs.filterMap s.jobs.at).filter fun job => job.session == n, ∀ l, a.origin.number = some l → l < k) :
    s.AskedAfter n m s.openRequests := by
  obtain ⟨b, in_, k, number, later⟩ := last
  obtain ⟨in_, of_m⟩ := List.mem_filter.mp in_
  obtain ⟨q, m_q, own⟩ := List.mem_filterMap.mp ((owned.mem_jobs b).mpr in_)
  have asked := (State.resetJob_some own).2
  cases Option.some.inj (number.symm.trans asked)
  refine Or.inl ⟨q, m_q, ⟨b, own, beq_iff_eq.mp of_m⟩, fun q' _ a own' of_n => ?_⟩
  obtain ⟨in_a, number_a⟩ := State.resetJob_some own'
  exact later a (List.mem_filter.mpr ⟨in_a, beq_iff_eq.mpr of_n⟩) _ number_a

/-- The sessions told in the order of the requests (R22, R108, R157). -/
theorem State.sessions_inOrder (owned : s.RequestsOwned) (same : s.SameRequests c s.openRequests)
    (told : s.Tells (fun _ => 0) c) {n m : Nat} {y : Session} (found : s.session m = some y)
    (jobs : y.jobs = ((allJobs.filterMap s.jobs.at).filter fun job => job.session == m).length)
    (absent : Claim.session m ∉ c.journal.claims) (after : s.AskedAfter n m s.openRequests) :
    let v := s.openRequests.foldl State.resetRequest c
    Claim.session n ∈ v.journal.claims → Claim.session m ∈ v.journal.claims →
      v.journal.claims.idxOf (.session n) < v.journal.claims.idxOf (.session m) := by
  obtain ⟨z, there, tell⟩ := told.sessions m y found
  refine State.resetRequests_claims same owned.ordered (Or.inl absent) after ⟨z, there, ?_⟩
  rw [tell.jobs, jobs, owned.jobsAmong m]
  rfl

/-- The send lists with the answers to the requests, port by port in the order of the requests. -/
theorem State.answers_reset (link : c.LinkReset t u) {v : Window} {head : List OutFrame}
    {given : Window × OpenRequest → Figures} {figures : OpenRequest → Figures}
    (begun : (c.office.at v).sendList = (s.office.at v).sendList ++ head)
    (answers : (t.office.at v).sendList = (c.office.at v).sendList ++
      (s.openRequests.filter fun q => q.1 == v).map fun q => .answer q.2.tag .reset (given q) false)
    (agree : ∀ q, given (v, q) = figures q) :
    (u.office.at v).sendList = (s.office.at v).sendList ++
      (head ++ (s.office.at v).unanswered.map fun q => .answer q.tag .reset (figures q) false) := by
  rw [link.office v]
  dsimp only
  rw [answers, begun, s.openRequests_effect.2.1 v, List.append_assoc]
  unfold State.requestsOf
  rw [List.map_map]
  congr 2
  refine List.map_congr_left fun q _ => ?_
  show OutFrame.answer q.tag .reset (given (v, q)) false = _
  rw [agree q]

/-- The figures of a request's answer are those of the job with its number. -/
theorem State.resetFigures_eq (s : State) (v : Window) (q : OpenRequest) : s.resetFigures (v, q) =
    (match ((allJobs.filterMap s.jobs.at).find? fun x => x.origin.number == some q.number).bind Job.serial with
    | some sb => .resetSerial sb.1 sb.2
    | none => .nothing) := by
  unfold State.resetFigures
  rw [State.resetJob_eq]
  cases (allJobs.filterMap s.jobs.at).find? fun x => x.origin.number == some q.number with
  | none => rfl
  | some job =>
    show job.resetFigures = match job.serial with | some sb => Figures.resetSerial sb.1 sb.2 | none => .nothing
    unfold Job.resetFigures
    cases job.serial <;> rfl

end PathDone

end Sys2Proof.Machine

open Sys2Proof Sys2Proof.Machine

/-- Settles O43: the blocks are reset one after the other, then every open request is answered in the order of the numbers,
a job's session told as it is; a session claims its sign-off with the answer to its last job. -/
theorem resetPath : Obligations.ResetPath := by
  intro w tag body s asks path sound
  have blocks := (s.answered w tag .done .nothing).blocksReset_effect
  have link := (s.answered w tag .done .nothing).poolReset_effect
  obtain ⟨a, is_a⟩ : ∃ a, s.answered w tag .done .nothing = a := ⟨_, rfl⟩
  have lists := fun v => (s.answered_office w v tag .done .nothing).1
  obtain ⟨jobs_at, jobs, stock, standing, monitor, supply, office⟩ := State.answered_blocks blocks
  have requests := State.openRequests_same office
  have keeps_a : s.Keeps a := by
    rw [← is_a]
    exact ⟨rfl, rfl, rfl, rfl, rfl, rfl, rfl, rfl, rfl, rfl, id, List.prefix_rfl⟩
  have tells_a : s.Tells (fun _ => 0) a := by
    rw [← is_a]
    exact .of_same rfl fun _ h => h
  refine ⟨a.poolReset, by rw [exec_resetPath asks path sound, is_a], ?_⟩
  rw [is_a] at blocks link office lists
  rw [is_a] at requests
  have same : s.SameRequests a.blocksReset s.openRequests := fun q _ => State.jobOfRequest_congr fun j => by
    unfold State.jobAsked
    rw [← is_a, jobs_at]
  rw [is_a] at jobs_at jobs stock standing monitor supply
  rw [requests] at link
  generalize a.poolReset = u at *
  generalize a.blocksReset = c at *
  obtain ⟨ports, stock', standing', sent, store, supply', monitor', sessions, claims, journal⟩ := link.leaves
  have told_c : s.Tells (fun _ => 0) c := tells_a.after blocks.tells
  obtain ⟨engines, kept⟩ := State.claims_reset blocks link (State.resetRequests_sessionClaims s.openRequests c)
  have begun : ∀ v, (c.office.at v).sendList = (s.office.at v).sendList ++
      if v = w then [.answer tag .done .nothing false] else [] := fun v => by
    rw [office]
    exact lists v
  refine ⟨(keeps_a.trans blocks.keeps).trans link.keeps, fun v => ?_, fun none_ v => ?_, fun sorted apart single asked => ?_,
    link.jobs, fun p => ?_, stock'.trans stock, standing'.trans standing, ?_, ?_, fun i => ?_, ?_, ?_, ?_, fun p => ?_,
    fun sound => ?_, ?_, fun busy => ?_, ?_, ?_, ?_, supply'.trans supply, ?_⟩
  · rw [link.office v]
    refine ⟨rfl, rfl, rfl, ?_⟩
    rw [← begun v]
    exact link.sends v
  · exact State.answers_reset link (begun v) (State.resetRequests_bare s.openRequests (fun j => (jobs_at j).trans (none_ j)) v)
      fun _ => rfl
  · have owned : s.RequestsOwned := ⟨sorted, apart, single, asked⟩
    have ended := (State.resetRequests_tells same owned.ordered).congr fun i => owned.jobs_perm.countP_eq fun job => job.session == i
    refine ⟨fun v => ?_, (told_c.before (link.tells ended)).jobsEnded, List.pairwise_map.mpr owned.ordered,
      s.openRequests_effect.1, fun n m x y _ found_m _ jobs_m _ absent_m in_n in_m last => ?_⟩
    · exact State.answers_reset link (begun v) (State.resetRequests_sendList same owned.ordered owned.there v)
        fun q => s.resetFigures_eq v q
    · rw [claims] at in_n in_m ⊢
      have absent : Claim.session m ∉ c.journal.claims := fun k => by
        subst is_a
        exact absent_m ((blocks.claims _).mp k).1
      exact State.sessions_inOrder owned same told_c found_m jobs_m absent (owned.askedAfter last) in_n in_m
  · subst is_a
    have values := blocks.ports p
    obtain ⟨on, off⟩ := (s.ports.at p).pathReset_state (s.printerEntry p)
    rw [ports, values]
    exact ⟨link.queues p, rfl, rfl, rfl, rfl, rfl, rfl, rfl, rfl, rfl, rfl, rfl, rfl, rfl, on, off, engines p⟩
  · subst is_a
    rw [sessions, link.loud.books.log, blocks.accounts.1]
    rfl
  · subst is_a
    rw [sessions, link.loud.books.nextNumber, blocks.accounts.2]
    rfl
  · subst is_a
    rw [sessions, link.loud.books.sessions i, blocks.books i]
    rfl
  · rw [monitor']
    rfl
  · rw [monitor', monitor]
    rfl
  · rw [monitor', monitor]
    rfl
  · rw [monitor', monitor]
    exact s.monitor.pathReset_lasting p
  · subst is_a
    rw [journal]
    exact blocks.reserved sound
  · subst is_a
    exact kept
  · subst is_a
    rw [journal]
    exact blocks.writesOn busy
  · subst is_a
    exact sent.trans blocks.sent
  · subst is_a
    rw [journal]
    exact blocks.records
  · rw [journal]
    exact blocks.links
  · subst is_a
    rw [store, blocks.write]
    show s.store.write.map StoreWrite.unanswered = _
    refine Option.map_congr fun write _ => ?_
    cases write <;> rfl
end

