-- ==== Sys2Proof/Proofs/LimitsSettled.lean ====
section
/-! SUPPORT. The tests after an event keep the limits: sendings, claims and grants (R52, R53, R65, R66, R157). -/

namespace Sys2Proof.Machine

/-! ### Items sent -/

/-- A port takes the next image number into its window with the item it is sent. -/
structure State.SendsItem (s t : State) (p : Printer) (y : Port) (m : Message) : Prop where
  ports : t.ports = s.ports.put p y
  sent : t.sent = s.sent ++ [(p, m)]
  item : m.item? = some (s.ports.at p).nextImage
  images : y.entries.map Entry.image = (s.ports.at p).entries.map Entry.image ++ [(s.ports.at p).nextImage]
  next : y.nextImage = (s.ports.at p).nextImage + 1
  active : (s.ports.at p).state = .active

theorem ImageNumber.succ_val (n : ImageNumber) : (n + 1).val = (n.val + 1) % 16 := by
  rw [Fin.val_add]
  rfl

theorem State.SendsItem.turns {s t : State} {p : Printer} {y : Port} {m : Message} (h : s.SendsItem t p y m) (q : Printer) :
    s.Turns t q := by
  have items := State.itemsSent_of_append h.sent q
  have low := (s.ports.at q).nextImage.isLt
  by_cases same : p = q
  · subst same
    have items : s.itemsSent t p = [(s.ports.at p).nextImage] := by simp [items, itemsFor, h.item]
    have at_ : t.ports.at p = y := by rw [h.ports, Vector.at_put_same]
    refine ⟨⟨_, h.sent.symm⟩, fun k n is => ?_, ?_, Or.inl ?_, fun idle => ?_⟩
    · rw [items] at is
      cases k with
      | zero =>
        cases is
        rw [Nat.add_zero, Nat.mod_eq_of_lt low]
      | succ k => cases is
    · rw [items]
      unfold State.images
      rw [at_, h.images]
    · rw [items, at_, h.next, ImageNumber.succ_val]
      rfl
    · unfold Port.attached at idle
      rw [h.active] at idle
      cases idle
  · have items : s.itemsSent t q = [] := by simp [items, itemsFor, same]
    have at_ : t.ports.at q = s.ports.at q := by rw [h.ports, Vector.at_put_other _ _ same]
    refine ⟨⟨_, h.sent.symm⟩, fun k n is => ?_, ?_, Or.inl ?_, fun idle => ⟨items, by rw [at_]; exact idle⟩⟩
    · rw [items] at is
      cases is
    · rw [items, List.append_nil]
      unfold State.images
      rw [at_]
    · rw [items, at_, List.length_nil, Nat.add_zero, Nat.mod_eq_of_lt low]

/-- An entry joins the window of an ACTIVE port where one more fits. -/
theorem Port.sound_entered {x y : Port} (h : x.sound) (active : x.state = .active) (room : x.entries.length < x.window)
    (rest : { y with entries := x.entries, nextImage := x.nextImage } = x) (more : y.entries.length = x.entries.length + 1) :
    y.sound := by
  have state : y.state = x.state := by rw [← rest]
  have hold : y.hold = x.hold := by rw [← rest]
  have window : y.window = x.window := by rw [← rest]
  have slips : y.slips = x.slips := by rw [← rest]
  have attached : y.attached = true := by unfold Port.attached; rw [state, active]; rfl
  obtain ⟨free, held, low, high, _, _, few⟩ := h
  refine ⟨fun _ => hold ▸ free active, fun k => ?_, window ▸ low, window ▸ high, by rw [more, window]; exact room,
    fun k => ?_, slips ▸ few⟩
  · rw [state, active] at k
    cases k
  · rw [attached] at k
    cases k

/-! ### Lines and slips (R65) -/

theorem State.rollMessage_item {s : State} {p : Printer} {n : ImageNumber} {m : Message} (h : s.rollMessage p n = some m) :
    m.item? = some n ∧ s.function p ≠ .ticket := by
  unfold State.rollMessage at h
  cases function : s.function p <;> rw [function] at h
  case ticket => cases h
  case off => cases h
  all_goals
    obtain ⟨_, _, rfl⟩ := Option.map_eq_some_iff.mp h
    exact ⟨rfl, nofun⟩

/-- A window that has only been entered by an item that is no ticket. -/
theorem State.rolled_kept (s : State) {p : Printer} {m : Message} (opens : s.rollOpens p)
    (message : s.rollMessage p (s.ports.at p).nextImage = some m) : s.KeptAll (s.rolled p m) := by
  obtain ⟨item, roll⟩ := State.rollMessage_item message
  obtain ⟨active, room, _⟩ := opens
  let e : Entry := { image := (s.ports.at p).nextImage, phase := .sent, ticket := none }
  have at_ : ∀ q, (s.rolled p m).ports.at q = if p = q then { s.ports.at p with
      entries := (s.ports.at p).entries ++ [e], nextImage := (s.ports.at p).nextImage + 1 } else s.ports.at q :=
    fun q => Vector.at_put ..
  have entries : ∀ q, ((s.rolled p m).ports.at q).entries = if p = q then (s.ports.at q).entries ++ [e] else
      (s.ports.at q).entries := fun q => by
    rw [at_]
    split
    · rename_i same
      subst same
      rfl
    · rfl
  have mem : ∀ q f, f ∈ ((s.rolled p m).ports.at q).entries → f.ticket ≠ none → f ∈ (s.ports.at q).entries := fun q f k t => by
    rw [entries] at k
    split at k
    · rcases List.mem_append.mp k with k | k
      · exact k
      · exact absurd (List.mem_singleton.mp k ▸ rfl) t
    · exact k
  have none_ : e.job? = none := rfl
  refine ⟨⟨⟨rfl, fun _ h => ⟨h.queue, h.reserved, h.claims, h.jobs, h.queues, fun q f k => ?_⟩, fun h q f k t => h q f (mem q f k t) t,
    fun _ _ h => ?_, id, fun h q => ?_, State.SendsItem.turns ⟨rfl, rfl, item, by simp, rfl, active⟩⟩,
    fun _ _ h => ⟨fun j => (h.jobs j).congr rfl (fun _ => Iff.rfl) (fun q => ?_) rfl, h.once, fun q => ?_⟩⟩, fun _ h a => ?_⟩
  · by_contra t
    exact t (h.tickets q f (mem q f k t))
  · refine h.of_port (y := { s.ports.at p with
      entries := (s.ports.at p).entries ++ [e], nextImage := (s.ports.at p).nextImage + 1 }) rfl h.room ?_ fun f k t own => ?_
    · unfold Port.places
      dsimp only
      rw [List.map_append, List.sum_append]
      rfl
    · rcases List.mem_append.mp k with k | k
      · exact h.entries p f k t own
      · rw [List.mem_singleton.mp k] at own
        cases own
  · rw [at_]
    split
    · exact Port.sound_entered (h p) active room rfl (by simp)
    · exact h q
  · unfold State.marks
    rw [entries]
    split
    · rw [marksOf_append, marksOf_cons, none_]
      simp
    · rfl
  · rw [entries]
    split
    · rw [List.filterMap_append, List.filterMap_cons_none none_, List.filterMap_nil, List.append_nil]
      exact h.single q
    · exact h.single q
  · have lines : ((s.rolled p m).ports.at a).audit = (s.ports.at a).audit := by
      rw [at_]
      split
      · rename_i same
        subst same
        rfl
      · rfl
    refine ⟨by rw [lines]; exact (h a).1, fun q ticket asked named => ?_⟩
    have same : ((s.rolled p m).ports.at q).entries = (s.ports.at q).entries := by
      rw [entries, if_neg fun same : p = q => roll (same ▸ ticket)]
    unfold State.auditLoad
    rw [lines, same]
    exact (h a).2 q ticket asked named

theorem State.sendRoll_kept (s : State) (p : Printer) : s.KeptAll (s.sendRoll p) := by
  obtain ⟨sends, shut, none_⟩ := s.sendRoll_eq p
  by_cases opens : s.rollOpens p
  · cases message : s.rollMessage p (s.ports.at p).nextImage with
    | none => rw [none_ message]; exact .refl s
    | some m => rw [sends m opens message]; exact s.rolled_kept opens message
  · rw [shut opens]
    exact .refl s

/-! ### AUDIT and claims -/

theorem State.testAudit_kept (s : State) (p : Printer) : s.KeptAll (s.testAudit p) := by
  obtain ⟨gains, loses, else_⟩ := s.testAudit_eq p
  by_cases g : s.gainsAudit p
  · rw [gains g]
    split
    · exact .refl s
    · exact State.addHold_kept (.refl s) _ _
  · by_cases l : s.losesAudit p
    · rw [loses l]
      split
      · exact State.removeHold_kept (.refl s) _ _
      · exact .refl s
    · rw [else_ g l]
      exact .refl s

/-- A state in which something waits while the controller does not run does not occur. -/
theorem State.KeptAll.busy_step {s₀ s t : State} (h : s₀.KeptAll s) (busy : s₀.phase ≠ .running → ¬ s₀.Empty)
    (calm : s.Calm t) (room : s.RoomHeld → t.RoomHeld) (claims : s.journal.claims.Nodup → t.journal.claims.Nodup)
    (pool : s.PoolPlaced → t.PoolPlaced) : s₀.KeptAll t where
  phase := calm.phase.trans h.phase
  empty g e := absurd e (busy g)
  placed g := calm.ticketsPlaced (h.placed g)
  room e p r := room (h.room e p r)
  claims g := claims (h.claims g)
  ports g := calm.portsSound (h.ports g)
  turns p := (h.turns p).trans (calm.turns p)
  pool e p g := pool (h.pool e p g)
  audit p g := calm.auditSound (h.audit p g)

/-- A record handed where a place is free and nothing has to be empty. -/
theorem State.hand_kept {s₀ s : State} (h : s₀.KeptAll s) (busy : s₀.phase ≠ .running → ¬ s₀.Empty) (r : JRecord) (link : Link)
    (free : s.journal.queue.length + s.journal.reserved < 32) (other : ∀ j, link ≠ .job j) : s₀.KeptAll (s.hand r link) := by
  obtain ⟨hands, queue, reserved⟩ := s.hand_effect r link
  refine h.busy_step busy hands.calm (fun g => ⟨?_, ?_, fun p e m => ?_⟩) (fun g => by rw [hands.claims]; exact g) fun g =>
    g.congr hands.jobs hands.queues (fun p => by rw [hands.ports]) fun j => ?_
  · rw [queue, reserved, List.length_append, List.length_singleton]
    omega
  · rw [reserved, g.reserved, State.heldPlaces_congr fun p => by rw [hands.ports]]
  · rw [hands.ports] at m
    exact g.entries p e m
  · rw [State.links_of_append queue]
    simp [other j]

/-- A gate that holds shows that something waits. -/
theorem State.gate_busy {s : State} {p : Printer} (gate : s.gate p = true) : ¬ s.Empty := fun e => by
  obtain ⟨_, _, _, _, j, rest, _, _, queue, _⟩ := (s.gate_iff p).mp gate
  rw [e.queues p] at queue
  cases queue

theorem State.refreshClaim_kept (s : State) (p : Printer) : s.KeptAll (s.refreshClaim p) := by
  unfold State.refreshClaim
  split
  · rename_i gate
    refine (State.KeptAll.refl s).busy_step (fun _ => State.gate_busy gate) (.of_ports rfl rfl rfl rfl) (fun h => h.congr ?_ ?_ fun _ => rfl)
      (s.addClaim_nodup _) fun h => h.congr rfl rfl (fun _ => rfl) fun j => ?_
    all_goals
      unfold State.addClaim
      try unfold State.links
      simp only [State.updateJournal_journal]
      split <;> rfl
  · exact State.withdrawClaim_kept (.refl s) _

end Sys2Proof.Machine
end

