-- ==== Sys2Proof/Proofs/LimitsGranted.lean ====
section
/-! SUPPORT. Grants keep the limits, and so do all tests after an event (R53, R83, R108, R157). -/

namespace Sys2Proof.Machine

/-! ### A ticket image sent -/

/-- The entry of a ticket image that has just been sent. -/
def sentEntry (n : ImageNumber) (j : JobNumber) : Entry :=
  { image := n, phase := .sent, ticket := some { job := j, doubleFed := false, places := 2 } }

/-- What an engine changes that sends its head job on two places. -/
structure State.SendsTicket (s t : State) (p : Printer) (j : JobNumber) (rest : List JobNumber) (job : Job) (m : Message) :
    Prop where
  phase : t.phase = s.phase
  printers : t.store.tables.printers = s.store.tables.printers
  queues : t.queues = s.queues.put p rest
  jobs : t.jobs = s.jobs.put j (some { job with state := .sent, image := some (s.ports.at p).nextImage })
  ports : t.ports = s.ports.put p { s.ports.at p with
    entries := (s.ports.at p).entries ++ [sentEntry (s.ports.at p).nextImage j]
    nextImage := (s.ports.at p).nextImage + 1 }
  sent : t.sent = s.sent ++ [(p, m)]
  item : m.item? = some (s.ports.at p).nextImage
  queue : t.journal.queue = s.journal.queue
  reserved : t.journal.reserved = s.journal.reserved + 2
  claims : t.journal.claims.Sublist s.journal.claims

section SendsTicket

variable {s t : State} {p : Printer} {j : JobNumber} {rest : List JobNumber} {job : Job} {m : Message}

theorem State.SendsTicket.entries (h : s.SendsTicket t p j rest job m) (q : Printer) : (t.ports.at q).entries =
    if p = q then (s.ports.at q).entries ++ [sentEntry (s.ports.at p).nextImage j] else (s.ports.at q).entries := by
  rw [h.ports, Vector.at_put]
  split
  · rename_i same
    subst same
    rfl
  · rfl

theorem State.SendsTicket.marks (h : s.SendsTicket t p j rest job m) (q : Printer) (i : JobNumber) : t.marks q i =
    s.marks q i ++ if p = q ∧ j = i then [((s.ports.at p).nextImage, .sent)] else [] := by
  unfold State.marks
  rw [h.entries]
  by_cases same : p = q
  · by_cases is : j = i <;> simp [same, is, marksOf_cons, sentEntry, Entry.job?]
  · simp [same]

/-- The head job stands in the window of its printer (R2). -/
theorem State.SendsTicket.placed (h : s.SendsTicket t p j rest job m) (pool : s.PoolPlaced) (queue : s.queues.at p = j :: rest)
    (record : s.jobs.at j = some job) (i : JobNumber) : t.JobPlaced i := by
  have place := pool.jobs i
  have links : t.links i = s.links i := by unfold State.links; rw [h.queue]
  have once := pool.once p
  rw [queue] at once
  have fresh := (List.nodup_cons.mp once).1
  by_cases is : j = i
  · subst is
    obtain ⟨x, here, printer, queued⟩ := ((pool.jobs j).queued p).mp (queue ▸ List.mem_cons_self)
    cases record.symm.trans here
    obtain ⟨_, _, stands, unmarked, unlinked⟩ := place.standing record queued
    have now : t.jobs.at j = some { job with state := .sent, image := some (s.ports.at p).nextImage } := by
      rw [h.jobs, Vector.at_put_same]
    have marks : ∀ q, t.marks q j = if p = q then [((s.ports.at p).nextImage, .sent)] else [] := fun q => by
      rw [h.marks, unmarked q]
      simp
    refine ⟨fun q => ?_, fun q => ?_, fun q n k x is => ?_, ?_, fun x is => ?_⟩
    · rw [h.queues, Vector.at_put, now]
      split
      · simp [fresh]
      · rename_i other
        rw [stands q]
        simp [printer, other]
    · rw [marks, now]
      by_cases same : p = q <;> simp [same, printer]
    · rw [marks] at k
      rw [now] at is
      cases is
      split at k
      · rw [List.mem_singleton.mp k]
        exact ⟨rfl, rfl⟩
      · cases k
    · rw [links, unlinked, now]
      rfl
    · rw [now] at is
      cases is
      have serial := ((place.fields job record).2).mpr (Or.inl queued)
      simp [Job.tabled, serial]
  · refine place.congr (by rw [h.jobs, Vector.at_put_other _ _ is]) (fun q => ?_) (fun q => ?_) links
    · rw [h.queues, Vector.at_put]
      split
      · rename_i same
        subst same
        rw [queue, List.mem_cons]
        exact ⟨Or.inr, fun k => k.resolve_left (Ne.symm is)⟩
      · rfl
    · rw [h.marks, if_neg fun k => is k.2, List.append_nil]

theorem State.SendsTicket.pool (h : s.SendsTicket t p j rest job m) (pool : s.PoolPlaced) (queue : s.queues.at p = j :: rest)
    (record : s.jobs.at j = some job) : t.PoolPlaced := by
  refine ⟨h.placed pool queue record, fun q => ?_, fun q => ?_⟩
  · rw [h.queues, Vector.at_put]
    split
    · have once := pool.once p
      rw [queue] at once
      exact (List.nodup_cons.mp once).2
    · exact pool.once q
  · rw [h.entries]
    split
    · rename_i same
      subst same
      obtain ⟨x, here, _, queued⟩ := ((pool.jobs j).queued p).mp (queue ▸ List.mem_cons_self)
      obtain ⟨_, _, _, unmarked, _⟩ := (pool.jobs j).standing here queued
      have out : j ∉ (s.ports.at p).entries.filterMap Entry.job? := fun k => (marksOf_ne_nil _ j).mpr k (unmarked p)
      rw [List.filterMap_append, List.nodup_append]
      refine ⟨pool.single p, by simp [sentEntry, Entry.job?], fun a k b l same => out ?_⟩
      have is : b = j := by simpa [sentEntry, Entry.job?] using l
      rw [← is, ← same]
      exact k
    · exact pool.single q

/-- The limits that a sending keeps, but for the audit load. -/
theorem State.SendsTicket.kept (h : s.SendsTicket t p j rest job m) (gate : s.gate p = true) (queue : s.queues.at p = j :: rest)
    (record : s.jobs.at j = some job) (free : s.journal.queue.length + s.journal.reserved + 2 ≤ 32) : s.KeptPool t := by
  obtain ⟨active, ticket, room, _⟩ := (s.gate_iff p).mp gate
  have function : ∀ q, t.function q = s.function q := fun q => by
    unfold State.function State.printerEntry
    rw [h.printers]
  refine ⟨⟨h.phase, fun _ e => absurd e (State.gate_busy gate), fun g q e k own => ?_, fun _ _ g => ?_,
    fun g => g.sublist h.claims, fun g q => ?_,
    State.SendsItem.turns ⟨h.ports, h.sent, h.item, by simp [sentEntry], rfl, active⟩⟩, fun _ _ g => h.pool g queue record⟩
  · rw [function]
    by_cases same : p = q
    · exact same ▸ ticket
    · rw [h.entries, if_neg same] at k
      exact g q e k own
  · refine g.of_port h.ports (by rw [h.queue, h.reserved]; omega) ?_ fun e k t own => ?_
    · unfold Port.places
      dsimp only
      rw [h.reserved, List.map_append, List.sum_append, show ([sentEntry (s.ports.at p).nextImage j].map Entry.places).sum = 2 from rfl]
      omega
    · rcases List.mem_append.mp k with k | k
      · exact g.entries p e k t own
      · rw [List.mem_singleton.mp k] at own
        cases own
        exact ⟨Nat.le_succ 1, Nat.le_refl 2, fun _ => rfl⟩
  · rw [h.ports, Vector.at_put]
    split
    · exact Port.sound_entered (g p) active room rfl (by simp)
    · exact g q

/-- The audit load after a sending from a port whose load is below its limit (R66). -/
theorem State.SendsTicket.auditSound (h : s.SendsTicket t p j rest job m) (sound : s.auditSound)
    (low : s.audited p → ∀ a, s.auditPort p = some a → s.auditLoad p a < 64) : t.auditSound := fun a => by
  have function : ∀ q, t.function q = s.function q := fun q => by
    unfold State.function State.printerEntry
    rw [h.printers]
  have entry : ∀ q, t.printerEntry q = s.printerEntry q := fun q => by
    unfold State.printerEntry
    rw [h.printers]
  have lines : (t.ports.at a).audit = (s.ports.at a).audit := by
    rw [h.ports, Vector.at_put]
    split
    · rename_i same
      subst same
      rfl
    · rfl
  refine ⟨by rw [lines]; exact (sound a).1, fun q ticket asked named => ?_⟩
  rw [function] at ticket
  rw [entry] at asked
  rw [State.auditPort_congr h.printers] at named
  have before := (sound a).2 q ticket asked named
  unfold State.auditLoad at before ⊢
  rw [lines, h.entries]
  by_cases same : p = q
  · subst same
    have short := low ⟨ticket, asked⟩ a named
    unfold State.auditLoad at short
    rw [if_pos rfl, List.length_append, List.length_singleton]
    exact short
  · rw [if_neg same]
    exact before

end SendsTicket

/-! ### Grants -/

theorem Claim.places_pos (c : Claim) : 1 ≤ c.places := by
  unfold Claim.places
  split
  · exact Nat.le_succ 1
  · exact Nat.le_refl 1
  · exact Nat.le_refl 1

/-- A claim that is granted is on the list and fits (R157). -/
theorem Journal.grantable_fits {j : Journal} {c : Claim} (h : j.grantable = some c) :
    c ∈ j.claims ∧ j.queue.length + j.reserved + c.places ≤ 32 := by
  unfold Journal.grantable at h
  split at h
  · rename_i d _ claims
    split at h
    · rename_i fits
      cases h
      simp only [Bool.and_eq_true, decide_eq_true_eq] at fits
      refine ⟨claims ▸ List.mem_cons_self, ?_⟩
      have room := fits.2
      have some_ := c.places_pos
      unfold Journal.freeRoom at room
      have full : Config.journalPlaces = 32 := rfl
      omega
    · cases h
  · cases h

theorem State.claim_busy {s : State} {c : Claim} (m : c ∈ s.journal.claims) : ¬ s.Empty := fun e => by
  rw [e.claims] at m
  cases m

/-- An engine's grant sends its head job. -/
theorem State.grant_engine_sends {s : State} {p : Printer} (gate : s.gate p = true) : ∃ j rest job m,
    s.queues.at p = j :: rest ∧ s.jobs.at j = some job ∧ s.SendsTicket (s.grant (.engine p)) p j rest job m := by
  obtain ⟨_, _, _, _, j, rest, job, b, queue, record, loaded, _⟩ := (s.gate_iff p).mp gate
  refine ⟨j, rest, job, .image (s.ports.at p).nextImage
    (composeImage (s.store.tables.layouts.at job.stockType) job (s.clerkOf job.session) b.id), queue, record, ?_⟩
  rw [State.grant_engine queue record loaded]
  exact ⟨rfl, rfl, rfl, rfl, rfl, rfl, rfl, rfl, rfl, List.filter_sublist⟩

/-- A grant of a closing or SIGN_OFF record (R83, R108). -/
theorem State.grant_record_kept (s : State) (c : Claim) (granted : s.journal.grantable = some c) (record : ∀ p, c ≠ .engine p) :
    s.KeptAll (s.grant c) := by
  obtain ⟨m, fits⟩ := Journal.grantable_fits granted
  have busy : s.phase ≠ .running → ¬ s.Empty := fun _ => State.claim_busy m
  have withdrawn := State.withdrawClaim_kept (.refl s) c
  have free : (s.withdrawClaim c).journal.queue.length + (s.withdrawClaim c).journal.reserved < 32 := by
    show s.journal.queue.length + s.journal.reserved < 32
    have some_ := c.places_pos
    omega
  unfold State.grant
  dsimp only
  generalize s.withdrawClaim c = t at *
  cases c with
  | engine p => exact absurd rfl (record p)
  | batch id =>
    dsimp only
    split
    · exact State.hand_kept (State.setLoaded_kept withdrawn _ _) busy _ _ free nofun
    · exact withdrawn
  | session n =>
    dsimp only
    split
    · refine State.hand_kept (State.modifySession_kept withdrawn _ _) busy _ _ free fun j => ?_
      split <;> exact nofun
    · exact withdrawn

theorem State.grant_kept (s : State) (c : Claim) (granted : s.journal.grantable = some c)
    (gate : ∀ p, c = .engine p → s.gate p = true) : s.KeptPool (s.grant c) := by
  cases c with
  | engine p =>
    obtain ⟨j, rest, job, m, queue, record, sends⟩ := State.grant_engine_sends (gate p rfl)
    exact sends.kept (gate p rfl) queue record (Journal.grantable_fits granted).2
  | batch id => exact (s.grant_record_kept _ granted nofun).toKeptPool
  | session n => exact (s.grant_record_kept _ granted nofun).toKeptPool

theorem State.settle_keptPool (s : State) : s.KeptPool s.settle :=
  State.settle_induct (R := State.KeptPool) (fun s => (State.KeptAll.refl s).toKeptPool) (fun _ _ _ => .trans)
    (fun s p => (s.testAudit_kept p).toKeptPool) (fun s p => (s.sendRoll_kept p).toKeptPool)
    (fun s p => (s.refreshClaim_kept p).toKeptPool) State.grant_kept s

/-! ### The audit load (R66) -/

/-- The load of a source marked "audit required" is at its limit. -/
def State.auditFull (s : State) (p : Printer) : Prop :=
  s.audited p ∧ ∃ a, s.auditPort p = some a ∧ 64 ≤ s.auditLoad p a

/-- A test that leaves the loads of all TICKET ports. -/
structure State.LoadsStand (s t : State) : Prop where
  printers : t.store.tables.printers = s.store.tables.printers
  lines : ∀ q, (t.ports.at q).audit = (s.ports.at q).audit
  entries : ∀ q, s.function q = .ticket → (t.ports.at q).entries = (s.ports.at q).entries

theorem State.LoadsStand.full {s t : State} (h : s.LoadsStand t) {p : Printer} (full : t.auditFull p) : s.auditFull p := by
  obtain ⟨⟨ticket, asked⟩, a, named, load⟩ := full
  have entry : t.printerEntry p = s.printerEntry p := by unfold State.printerEntry; rw [h.printers]
  unfold State.function at ticket
  rw [entry] at ticket asked
  rw [State.auditPort_congr h.printers] at named
  refine ⟨⟨ticket, asked⟩, a, named, ?_⟩
  unfold State.auditLoad at load ⊢
  rw [h.lines, h.entries p ticket] at load
  exact load

theorem State.testAudit_loads (s : State) (p : Printer) : s.LoadsStand (s.testAudit p) := by
  obtain ⟨x, ports, entries, audit⟩ := s.testAudit_ports p
  have at_ : ∀ q, (s.testAudit p).ports.at q = if p = q then x else s.ports.at q := fun q => by rw [ports, Vector.at_put]
  refine ⟨by rw [(State.testAudit_quiet (.refl s) p).keeps.tables], fun q => ?_, fun q _ => ?_⟩
  all_goals
    rw [at_]
    split
    · rename_i same
      subst same
      assumption
    · rfl

/-- A port whose audit load is at its limit is under AUDIT once it has been tested. -/
theorem State.testAudits_full (s : State) (p : Printer) (full : (allPrinters.foldl State.testAudit s).auditFull p) :
    ((allPrinters.foldl State.testAudit s).ports.at p).holds .audit = true := by
  have fold : ∀ (l : List Printer) (s : State), (p ∉ l → s.auditFull p → (s.ports.at p).holds .audit = true) →
      (l.foldl State.testAudit s).auditFull p → ((l.foldl State.testAudit s).ports.at p).holds .audit = true := by
    intro l
    induction l with
    | nil => exact fun s h => h List.not_mem_nil
    | cons q l ih =>
      refine fun s h => ih _ fun out full => ?_
      have before := (s.testAudit_loads q).full full
      by_cases same : q = p
      · subst same
        obtain ⟨asked, a, named, load⟩ := before
        refine (s.testAudit_holds q).1 ⟨asked, fun b named' => Or.inr ?_⟩
        cases named.symm.trans named'
        exact load
      · obtain ⟨x, ports, _⟩ := s.testAudit_ports q
        rw [ports, Vector.at_put_other _ _ same]
        exact h (fun m => (List.mem_cons.mp m).elim (Ne.symm same) out) before
  exact fold allPrinters s (fun out => absurd (mem_allPrinters p) out) full

theorem State.testEngines_full (s : State) (p : Printer) (full : s.testEngines.auditFull p) :
    (s.testEngines.ports.at p).holds .audit = true := by
  have tested := s.testAudits_full p
  unfold State.testEngines at full ⊢
  dsimp only at full ⊢
  generalize allPrinters.foldl State.testAudit s = a at *
  obtain ⟨stands, hold⟩ := State.sendAllRolls_stands allPrinters a
  generalize allPrinters.foldl State.sendRolls a = r at *
  have rest := State.refreshClaims_rest allPrinters r
  generalize allPrinters.foldl State.refreshClaim r = t at *
  have loads : a.LoadsStand t := by
    rw [rest]
    exact ⟨by rw [stands.tables], stands.lines, stands.entries⟩
  unfold Port.holds
  rw [rest, hold p]
  exact tested (loads.full full)

theorem State.KeptAll.fold {f : State → Printer → State} (each : ∀ (s : State) p, s.KeptAll (f s p)) (l : List Printer) (s : State) :
    s.KeptAll (l.foldl f s) := by
  induction l generalizing s with
  | nil => exact .refl s
  | cons p l ih => exact (each s p).trans (ih _)

theorem State.testEngines_kept (s : State) : s.KeptAll s.testEngines := by
  have rolls : ∀ (s : State) (p : Printer), s.KeptAll (s.sendRolls p) := fun s p =>
    (((s.sendRoll_kept p).trans (State.sendRoll_kept _ p)).trans (State.sendRoll_kept _ p)).trans (State.sendRoll_kept _ p)
  exact ((State.KeptAll.fold State.testAudit_kept _ s).trans (.fold rolls _ _)).trans (.fold State.refreshClaim_kept _ _)

/-- A port whose gate holds is not under AUDIT, so one more image keeps its load. -/
theorem State.granted_auditSound {s : State} {c : Claim} (granted : s.testEngines.journal.grantable = some c)
    (ports : s.testEngines.portsSound) (sound : s.testEngines.auditSound) : (s.testEngines.grant c).auditSound := by
  have gate := fun p => s.testEngines_claims p
  have full := s.testEngines_full
  generalize s.testEngines = t at *
  cases c with
  | engine p =>
    have gate := gate p (Journal.grantable_fits granted).1
    obtain ⟨j, rest, job, m, _, _, sends⟩ := State.grant_engine_sends gate
    refine sends.auditSound sound fun asked a named => ?_
    by_contra high
    have held := full p ⟨asked, a, named, Nat.le_of_not_lt high⟩
    have free := (ports p).1 ((t.gate_iff p).mp gate).1
    unfold Port.holds at held
    rw [free, noHolds_at] at held
    cases held
  | batch id => exact (t.grant_record_kept _ granted nofun).audit ports sound
  | session n => exact (t.grant_record_kept _ granted nofun).audit ports sound

theorem State.serve_auditSound (n : Nat) (s : State) (ports : s.portsSound) (sound : s.auditSound) :
    (State.serve n s).auditSound := by
  induction n generalizing s with
  | zero =>
    rw [State.serve_zero]
    exact s.testEngines_kept.audit ports sound
  | succ n ih =>
    have ports' := s.testEngines_kept.ports ports
    have sound' := s.testEngines_kept.audit ports sound
    rw [State.serve_succ]
    unfold State.grantOldest
    split
    · rename_i c granted
      refine ih _ ?_ (State.granted_auditSound granted ports' sound')
      refine (State.grant_kept _ c granted fun p is => ?_).ports ports'
      exact s.testEngines_claims p (is ▸ (Journal.grantable_fits granted).1)
    · exact sound'

/-- The tests after an event keep every limit. -/
theorem State.settle_kept {s₀ s : State} (h : s₀.KeptAll s) : s₀.KeptAll s.settle :=
  h.trans ⟨s.settle_keptPool, s.serve_auditSound Config.journalPlaces⟩

end Sys2Proof.Machine
end

