-- ==== Sys2Proof/Proofs/LimitsOfEvents.lean ====
section
/-! SUPPORT. What a whole event keeps, and a CAPS, after which a port takes items again (R43). -/

namespace Sys2Proof.Machine

/-! ### Limits across an event -/

/-- What is sent to a printer across an event, which may begin or end what the port takes. -/
structure State.Turned (s t : State) (p : Printer) : Prop where
  sent : s.sent <+: t.sent
  items : ∀ (k : Nat) (n : ImageNumber), (s.itemsSent t p)[k]? = some n → n.val = ((s.ports.at p).nextImage.val + k) % 16
  images : (t.images p).Sublist (s.images p ++ s.itemsSent t p)
  next : (t.ports.at p).nextImage.val = ((s.ports.at p).nextImage.val + (s.itemsSent t p).length) % 16 ∨
    (t.ports.at p).attached = false

theorem State.Turns.turned {s t : State} {p : Printer} (h : s.Turns t p) : s.Turned t p := ⟨h.sent, h.items, h.images, h.next⟩

theorem State.Turned.trans {s t u : State} {p : Printer} (a : s.Turned t p) (b : t.Turns u p) : s.Turned u p := by
  have split := State.itemsSent_trans a.sent b.sent p
  refine ⟨a.sent.trans b.sent, fun k n h => ?_, ?_, ?_⟩
  · rw [split] at h
    by_cases short : k < (s.itemsSent t p).length
    · rw [List.getElem?_append_left short] at h
      exact a.items k n h
    · rw [List.getElem?_append_right (Nat.le_of_not_lt short)] at h
      have turn := b.items _ n h
      rcases a.next with e | off
      · rw [turn, e]
        omega
      · rw [(b.idle off).1] at h
        cases h
  · rw [split, ← List.append_assoc]
    exact b.images.trans (a.images.append_right _)
  · rcases b.next with e | off
    · rcases a.next with d | off
      · left
        rw [e, d, split, List.length_append]
        omega
      · exact Or.inr (b.idle off).2
    · exact Or.inr off

/-- Nothing is sent and the port keeps its window and its next image number. -/
theorem State.Turned.of_same {s t : State} {p : Printer} (sent : t.sent = s.sent)
    (entries : (t.ports.at p).entries = (s.ports.at p).entries) (next : (t.ports.at p).nextImage = (s.ports.at p).nextImage) :
    s.Turned t p := by
  have none_ : s.itemsSent t p = [] := State.itemsSent_of_append (ms := []) (by rw [sent, List.append_nil]) p
  have low := (s.ports.at p).nextImage.isLt
  refine ⟨by rw [sent], fun k n h => ?_, ?_, Or.inl ?_⟩
  · rw [none_] at h
    cases h
  · unfold State.images
    rw [none_, entries, List.append_nil]
  · rw [none_, next, List.length_nil, Nat.add_zero, Nat.mod_eq_of_lt low]

/-- The limits that an event keeps. -/
structure State.Limits (s t : State) : Prop where
  room : s.roomSound → t.roomSound
  pool : s.PoolSound → t.PoolSound
  claims : s.journal.claims.Nodup → t.journal.claims.Nodup
  ports : s.portsSound → t.portsSound
  audit : s.portsSound → s.auditSound → t.auditSound
  turned : ∀ p, s.Turned t p

theorem State.Kept.roomSound {s t : State} (h : s.Kept t) (g : s.roomSound) : t.roomSound := by
  obtain ⟨held, placed, empty⟩ := s.roomSound_iff.mp g
  exact t.roomSound_iff.mpr ⟨h.room empty placed held, h.placed placed, h.emptyUntilRunning empty⟩

theorem State.KeptPool.poolSound {s t : State} (h : s.KeptPool t) (g : s.PoolSound) : t.PoolSound := by
  obtain ⟨pool, placed, empty⟩ := s.PoolSound_iff.mp g
  exact t.PoolSound_iff.mpr ⟨h.pool empty placed pool, h.placed placed, h.emptyUntilRunning empty⟩

theorem State.KeptAll.limits {s t : State} (h : s.KeptAll t) : s.Limits t :=
  ⟨h.roomSound, h.poolSound, h.claims, h.ports, h.audit, fun p => (h.turns p).turned⟩

theorem State.Limits.then {s t u : State} (a : s.Limits t) (b : t.KeptAll u) : s.Limits u where
  room h := b.roomSound (a.room h)
  pool h := b.poolSound (a.pool h)
  claims h := b.claims (a.claims h)
  ports h := b.ports (a.ports h)
  audit p h := b.audit (a.ports p) (a.audit p h)
  turned p := (a.turned p).trans (b.turns p)

/-! ### CAPS (R43) -/

/-- A port becomes ACTIVE or HELD with a window of its own; its entries, image numbers, lines and slips stand. -/
structure State.Wakes (s t : State) (p : Printer) (y : Port) : Prop where
  phase : t.phase = s.phase
  printers : t.store.tables.printers = s.store.tables.printers
  jobs : t.jobs = s.jobs
  queues : t.queues = s.queues
  journal : t.journal = s.journal
  sent : t.sent = s.sent
  ports : t.ports = s.ports.put p y
  entries : y.entries = (s.ports.at p).entries
  next : y.nextImage = (s.ports.at p).nextImage
  audit : y.audit = (s.ports.at p).audit
  slips : y.slips = (s.ports.at p).slips
  asleep : (s.ports.at p).attached = false
  active : y.state = .active → y.hold = noHolds
  held : y.state = .held → y.hold ≠ noHolds
  low : 1 ≤ y.window
  high : y.window ≤ 4

theorem State.Wakes.limits {s t : State} {p : Printer} {y : Port} (h : s.Wakes t p y) : s.Limits t := by
  have at_ : ∀ q, t.ports.at q = if p = q then y else s.ports.at q := fun q => by rw [h.ports, Vector.at_put]
  have same : ∀ q, (t.ports.at q).entries = (s.ports.at q).entries ∧ (t.ports.at q).nextImage = (s.ports.at q).nextImage ∧
      (t.ports.at q).audit = (s.ports.at q).audit := fun q => by
    rw [at_]
    split
    · rename_i is
      subst is
      exact ⟨h.entries, h.next, h.audit⟩
    · exact ⟨rfl, rfl, rfl⟩
  have entries := fun q => (same q).1
  have entry : ∀ q, t.printerEntry q = s.printerEntry q := fun q => by unfold State.printerEntry; rw [h.printers]
  have function : ∀ q, t.function q = s.function q := fun q => by unfold State.function; rw [entry]
  have placed : s.ticketsPlaced → t.ticketsPlaced := fun g q e m k => by
    rw [entries] at m
    rw [function]
    exact g q e m k
  have empty : s.emptyUntilRunning → t.emptyUntilRunning := fun g off => by
    rw [h.phase] at off
    obtain ⟨queue, reserved, claims, jobs, ports⟩ := g off
    rw [h.journal, h.jobs, h.queues]
    exact ⟨queue, reserved, claims, jobs, fun q => ⟨(ports q).1, fun e m => (ports q).2 e (entries q ▸ m)⟩⟩
  refine ⟨fun g => ?_, fun g => ?_, fun g => by rw [h.journal]; exact g, fun g q => ?_, fun _ g a => ⟨?_, fun q ticket asked named => ?_⟩,
    fun q => .of_same h.sent (entries q) (same q).2.1⟩
  · obtain ⟨held, at_home, off⟩ := s.roomSound_iff.mp g
    exact t.roomSound_iff.mpr ⟨held.congr (by rw [h.journal]) (by rw [h.journal]) entries, placed at_home, empty off⟩
  · obtain ⟨pool, at_home, off⟩ := s.PoolSound_iff.mp g
    exact t.PoolSound_iff.mpr ⟨pool.congr h.jobs h.queues entries fun j => by unfold State.links; rw [h.journal],
      placed at_home, empty off⟩
  · rw [at_]
    split
    · obtain ⟨_, _, _, _, _, none_, few⟩ := g p
      have none_ : y.entries = [] := h.entries.trans (none_ h.asleep)
      exact ⟨h.active, h.held, h.low, h.high, by rw [none_]; exact Nat.zero_le _, fun _ => none_, h.slips ▸ few⟩
    · exact g q
  · rw [(same a).2.2]
    exact (g a).1
  · have before := (g a).2 q (function q ▸ ticket) (entry q ▸ asked) (State.auditPort_congr h.printers q ▸ named)
    unfold State.auditLoad at before ⊢
    rw [entries, (same a).2.2]
    exact before

theorem codeLimit_range (code : Nat) : 1 ≤ codeLimit code ∧ codeLimit code ≤ 4 := by
  rw [codeLimit_eq]
  split <;> omega

theorem State.takeCaps_limits {s : State} {p : Printer} (asleep : (s.ports.at p).attached = false) (body : List Byte) :
    s.Limits (s.takeCaps p body) := by
  obtain ⟨rest, _⟩ := s.capsHeard_effect p
  have heard : s.KeptAll (s.capsHeard p) := State.endCondition_kept (State.updatePort_kept_of_eq (.refl s) p
    (fun x => { x with attachTimer := none, absentTimer := none, unanswered := 0 }) (fun _ => rfl) (fun _ => rfl)
    (fun _ => rfl) (fun _ => rfl) (fun _ => rfl) (fun _ => rfl) fun _ => rfl) _
  rw [State.takeCaps_eq]
  split
  · exact (State.failPort_kept heard p _).limits
  · rename_i kind depth checked
    obtain ⟨_, _, low, _⟩ := (State.capsCheck_eq_some _ p body kind depth).mp checked
    obtain ⟨least, most⟩ := codeLimit_range (s.printerEntry p).windowCode
    have wakes : ∀ y : Port, y.entries = (s.ports.at p).entries → y.nextImage = (s.ports.at p).nextImage →
        y.audit = (s.ports.at p).audit → y.slips = (s.ports.at p).slips → (y.state = .active → y.hold = noHolds) →
        (y.state = .held → y.hold ≠ noHolds) → y.window = min depth (codeLimit (s.printerEntry p).windowCode) →
        s.Wakes ((s.capsHeard p).setPort p y) p y := fun y entries next audit slips active held window =>
      ⟨by rw [State.setPort_phase, rest], by rw [State.setPort_store, rest], by rw [State.setPort_jobs, rest],
        by rw [State.setPort_queues, rest], by rw [State.setPort_journal, rest], by rw [State.setPort_sent, rest],
        by rw [State.setPort_ports, rest]; exact Vector.put_put _ _ _ _, entries, next, audit, slips, asleep, active, held,
        by omega, by omega⟩
    dsimp only
    split
    · rename_i free
      exact (wakes ((s.ports.at p).capable (s.printerEntry p) kind depth) rfl rfl rfl rfl (fun _ => free) nofun rfl).limits
    · rename_i bound
      have held : ((s.capsHeard p).setPort p ((s.ports.at p).capable (s.printerEntry p) kind depth)).updatePort p
          (fun x => { x with state := .held }) =
          (s.capsHeard p).setPort p { (s.ports.at p).capable (s.printerEntry p) kind depth with state := .held } := by
        unfold State.updatePort State.setPort
        dsimp only
        rw [Vector.put_put, Vector.at_put_same]
      unfold State.enterHeld
      rw [held]
      refine State.Limits.then (wakes
        { (s.ports.at p).capable (s.printerEntry p) kind depth with state := .held } rfl rfl rfl rfl nofun (fun _ => bound) rfl).limits ?_
      exact State.resolveQueue_kept (.refl _) _ _ _

end Sys2Proof.Machine
end

