-- ==== Sys2Proof/Proofs/LimitsOfReports.lean ====
section
/-! SUPPORT. Reports, STATUS and the timers of the engines keep the limits (R44 to R48, R54 to R62, R65, R134, R135). -/

namespace Sys2Proof.Machine

theorem State.mismatch_kept {s₀ s : State} (h : s₀.KeptAll s) (p : Printer) (c : PrinterFault) : s₀.KeptAll (s.mismatch p c) := by
  unfold State.mismatch
  split
  · exact State.settle_kept (State.failPort_kept h p _)
  · exact h

/-! ### Filters (R134, R135) -/

theorem State.setFilter_kept {s₀ s : State} (h : s₀.KeptAll s) (p : Printer) (c : Sensed) (f : Filter) :
    s₀.KeptAll (s.setFilter p c f) :=
  h.trans (State.Aside.kept ⟨rfl, rfl, rfl, rfl, rfl, rfl, rfl, rfl, rfl⟩)

theorem State.sensedBegins_kept {s₀ s : State} (h : s₀.KeptAll s) (p : Printer) (c : Sensed) :
    s₀.KeptAll (s.sensedBegins p c) := by
  have held : s₀.KeptAll (match c.holdReason with
      | some r => (s.raise (.sensed p c)).addHold p r
      | none => s.raise (.sensed p c)) := by
    split
    · exact State.addHold_kept (State.raise_kept h _) _ _
    · exact State.raise_kept h _
  have mismatched : ∀ (v : State) (q : Prop) [Decidable q], s₀.KeptAll v → s₀.KeptAll (if q then v.stockMismatch p else v) := by
    intro v q _ kept
    split
    · exact State.stockMismatch_kept kept p
    · exact kept
  exact mismatched _ _ held

theorem State.sensedEnds_kept {s₀ s : State} (h : s₀.KeptAll s) (p : Printer) (c : Sensed) : s₀.KeptAll (s.sensedEnds p c) := by
  have ended := State.endCondition_kept h (.sensed p c)
  unfold State.sensedEnds
  dsimp only
  split
  · split
    · exact ended
    · exact State.removeHold_kept ended _ _
  · exact ended

theorem State.filterStep_kept {s₀ s : State} (h : s₀.KeptAll s) (sensed : SensedSet) (p : Printer) (c : Sensed) :
    s₀.KeptAll (State.filterStep sensed p s c) := by
  unfold State.filterStep
  dsimp only
  split
  · exact State.settle_kept (State.sensedBegins_kept (State.setFilter_kept h _ _ _) _ _)
  · exact State.settle_kept (State.sensedEnds_kept (State.setFilter_kept h _ _ _) _ _)
  · exact State.setFilter_kept h _ _ _

/-! ### Reconciliation (R61, R62, R65) -/

section Running

variable {s₀ s : State} (running : s₀.phase = .running)

include running

theorem State.impliedFeed_kept (h : s₀.KeptAll s) (p : Printer) (k : Nat) : s₀.KeptAll (State.impliedFeed p s k) := by
  unfold State.impliedFeed
  split
  · rename_i due
    exact State.settle_kept (State.takeFeed_kept h running p k due.2)
  · exact h

theorem State.impliedPrint_kept (h : s₀.KeptAll s) (p : Printer) : s₀.KeptAll (s.impliedPrint p) := by
  unfold State.impliedPrint
  split
  · rename_i fed
    exact State.takePrint_kept h running p 0 fed
  · exact h

theorem State.impliedPresent_kept (h : s₀.KeptAll s) (p : Printer) (ticket : s.function p = .ticket) :
    s₀.KeptAll (s.impliedPresent p) := by
  have fed := State.impliedFeed_kept running h p 0
  have function := State.function_congr (State.impliedFeed_loud (.refl s) p 0).keeps.tables p
  unfold State.impliedPresent
  dsimp only
  generalize State.impliedFeed p s 0 = t at *
  split
  · refine State.settle_kept (State.takePresent_kept (State.impliedPrint_kept running fed p) running p 0 ?_)
    rw [State.function_congr (State.impliedPrint_quiet (.refl t) p).keeps.tables p, function]
    exact ticket
  · exact fed

omit running in
/-- Steps that keep the limits and the tables, one after the other. -/
theorem State.KeptAll.foldl {α : Type} {f : State → α → State} {q : State → Prop} (l : List α) (h : s₀.KeptAll s) (at_ : q s)
    (each : ∀ (t : State) (a : α), s₀.KeptAll t → q t → s₀.KeptAll (f t a) ∧ q (f t a)) : s₀.KeptAll (l.foldl f s) := by
  induction l generalizing s with
  | nil => exact h
  | cons a l ih =>
    obtain ⟨h', at'⟩ := each s a h at_
    exact ih h' at'

theorem State.reconcile_kept (h : s₀.KeptAll s) (p : Printer) (st : StatusReport) : s₀.KeptAll (s.reconcile p st) := by
  have tables := fun (t u : State) (loud : t.Loud u) => State.function_congr loud.keeps.tables p
  unfold State.reconcile
  split
  · rename_i ticket
    have fed : s₀.KeptAll ((List.range ((s.ports.at p).through st.fedThrough)).foldl (State.impliedFeed p) s) :=
      State.KeptAll.foldl (q := fun _ => True) _ h trivial fun t k kept _ => ⟨State.impliedFeed_kept running kept p k, trivial⟩
    have function := tables s _ (State.Loud.foldl (fun t k => State.impliedFeed_loud (.refl t) p k)
      (List.range ((s.ports.at p).through st.fedThrough)) s)
    unfold State.reconcileTicket
    dsimp only
    generalize (List.range _).foldl (State.impliedFeed p) s = t at *
    refine State.KeptAll.foldl (q := fun u => u.function p = .ticket) _ fed (function.trans ticket) fun u k kept at_ => ?_
    exact ⟨State.impliedPresent_kept running kept p at_, (tables u _ (State.impliedPresent_loud (.refl u) p)).trans at_⟩
  · rename_i roll
    unfold State.reconcileRoll
    refine State.KeptAll.foldl (q := fun u => u.function p ≠ .ticket) _ h roll fun u k kept at_ => ?_
    refine ⟨State.settle_kept (State.takeRollPrint_kept kept running p at_), ?_⟩
    rw [tables u _ (State.settle_quiet (State.takeRollPrint_quiet (.refl u) p)).loud]
    exact at_

theorem State.impliedJam_kept (h : s₀.KeptAll s) (p : Printer) (st : StatusReport) : s₀.KeptAll (s.impliedJam p st) := by
  unfold State.impliedJam
  dsimp only
  split
  · apply State.settle_kept
    split
    · exact State.takeJam_kept h running p 0
    · rename_i roll
      exact State.takeRollJam_kept h running p 0 roll
  · exact h

omit running in
theorem State.clearLatch_kept (h : s₀.KeptAll s) (p : Printer) (st : StatusReport) : s₀.KeptAll (s.clearLatch p st) := by
  have cleared := State.updatePort_kept_of_eq h p (fun x => { x with jamLatch := false }) (fun _ => rfl) (fun _ => rfl)
    (fun _ => rfl) (fun _ => rfl) (fun _ => rfl) (fun _ => rfl) fun _ => rfl
  unfold State.clearLatch
  split
  · exact h
  · dsimp only
    split
    · exact cleared
    · exact State.settle_kept (State.removeHold_kept cleared _ _)

theorem State.takeStatus_kept (h : s₀.KeptAll s) (p : Printer) (st : StatusReport) : s₀.KeptAll (s.takeStatus p st) := by
  have answered := State.updatePort_kept_of_eq h p (fun x => { x with replyTimer := none, unanswered := 0, lastStatus := some st })
    (fun _ => rfl) (fun _ => rfl) (fun _ => rfl) (fun _ => rfl) (fun _ => rfl) (fun _ => rfl) fun _ => rfl
  have filtered := State.KeptAll.foldl (q := fun _ => True) allSensed answered trivial fun t c kept _ =>
    ⟨State.filterStep_kept kept st.sensed p c, trivial⟩
  have taken := State.clearLatch_kept (State.impliedJam_kept running (State.reconcile_kept running filtered p st) p st) p st
  unfold State.takeStatus
  dsimp only
  split
  · exact State.updatePort_kept_of_eq taken p _ (fun _ => rfl) (fun _ => rfl) (fun _ => rfl) (fun _ => rfl) (fun _ => rfl)
      (fun _ => rfl) fun _ => rfl
  · exact taken

end Running

/-! ### Reports about an image (R54) -/

theorem State.isRunning_iff (s : State) : s.isRunning = true ↔ s.phase = .running := by
  unfold State.isRunning
  exact beq_iff_eq

theorem State.takeReport_kept (s : State) (p : Printer) (body : List Byte) (take : Nat → State)
    (taken : s.phase = .running → ∀ k, s.KeptAll (take k)) : s.KeptAll (s.takeReport p body take) := by
  unfold State.takeReport
  split
  · rename_i ready
    have running := (s.isRunning_iff).mp ((Bool.and_eq_true _ _ ▸ ready).1)
    split
    · exact State.mismatch_kept (.refl s) _ _
    · exact State.mismatch_kept (.refl s) _ _
    · split
      · exact State.mismatch_kept (.refl s) _ _
      · exact taken running _
  · exact .refl s

theorem State.ticketReport_kept (s : State) (p : Printer) (allowed : Bool) (taken : State)
    (kept : s.function p = .ticket → allowed = true → s.KeptAll taken) : s.KeptAll (s.ticketReport p allowed taken) := by
  unfold State.ticketReport
  split
  · rename_i ok
    exact State.settle_kept (kept ok.1 ok.2)
  · exact State.mismatch_kept (.refl s) _ _

theorem State.ticketOnly_kept (s : State) (p : Printer) (report : State) (kept : s.KeptAll report) :
    s.KeptAll (s.ticketOnly p report) := by
  unfold State.ticketOnly
  split
  · exact State.mismatch_kept (.refl s) _ _
  · exact kept

theorem Port.allowsFed_sent {x : Port} {k : Nat} (h : x.allowsFed k = true) : x.phaseAt k = some .sent := by
  unfold Port.allowsFed at h
  simp only [Bool.and_eq_true, beq_iff_eq] at h
  exact h.1

theorem Port.allowsPrinted_fed {x : Port} {k : Nat} (h : x.allowsPrinted k = true) : x.phaseAt k = some .fed := by
  unfold Port.allowsPrinted at h
  simp only [Bool.and_eq_true, beq_iff_eq] at h
  exact h.1

/-! ### The commands of the printer lines -/

theorem State.linkCheck_kept (s : State) (p : Printer) : s.KeptAll (s.linkCheck p) := by
  unfold State.linkCheck
  split
  · exact State.raise_kept (.refl s) _
  · exact .refl s

/-- A port that is neither ACTIVE nor HELD changes between such states; its window is empty as it was. -/
theorem Port.Tame.of_asleep {x y : Port} (asleep : x.attached = false) (state : y.attached = false)
    (window : y.window = x.window) (entries : y.entries = x.entries) (audit : y.audit = x.audit) (slips : y.slips = x.slips) :
    x.Tame y := by
  refine ⟨fun ⟨_, _, low, high, _, none_, few⟩ => ?_, by rw [entries], fun e m k => ⟨e, entries ▸ m, k⟩, by rw [audit],
    Or.inr state, fun _ => state⟩
  have none_ : y.entries = [] := entries.trans (none_ asleep)
  refine ⟨fun active => ?_, fun held => ?_, window ▸ low, window ▸ high, by rw [none_]; exact Nat.zero_le _, fun _ => none_,
    slips ▸ few⟩
  · unfold Port.attached at state
    rw [active] at state
    cases state
  · unfold Port.attached at state
    rw [held] at state
    cases state

theorem State.enterAbsent_kept_of_asleep {s₀ s : State} (h : s₀.KeptAll s) (p : Printer)
    (asleep : (s.ports.at p).attached = false) : s₀.KeptAll (s.enterAbsent p) := by
  unfold State.enterAbsent
  exact State.refuseQueue_kept (State.updatePort_kept h p _ (.of_asleep asleep rfl rfl rfl rfl rfl) rfl) p

theorem execAttachTimerExpiry_kept {p : Printer} {s t : State} (h : execAttachTimerExpiry p s = .next t) : s.KeptAll t := by
  unfold execAttachTimerExpiry at h
  cases h
  split
  · rename_i due
    refine State.settle_kept (State.enterAbsent_kept_of_asleep (State.raise_kept (.refl s) _) p ?_)
    rw [(State.raise_notes s _).ports]
    unfold Port.attached
    rw [due.1]
    rfl
  · exact .refl s

theorem execAbsentRepeatTimerExpiry_kept {p : Printer} {s t : State} (h : execAbsentRepeatTimerExpiry p s = .next t) :
    s.KeptAll t := by
  unfold execAbsentRepeatTimerExpiry at h
  cases h
  split
  · rename_i due
    have asleep : (s.ports.at p).attached = false := by
      unfold Port.attached
      rw [due.1]
      rfl
    exact State.updatePort_kept (State.transmit_kept (.refl s) p .enquire rfl) p _
      (.of_asleep asleep asleep rfl rfl rfl rfl) rfl
  · exact .refl s

theorem execPollIntervalTimerExpiry_kept {p : Printer} {s t : State} (h : execPollIntervalTimerExpiry p s = .next t) :
    s.KeptAll t := by
  unfold execPollIntervalTimerExpiry at h
  cases h
  split
  · exact State.updatePort_kept_of_eq (State.transmit_kept (.refl s) p .poll rfl) p _ (fun _ => rfl) (fun _ => rfl)
      (fun _ => rfl) (fun _ => rfl) (fun _ => rfl) (fun _ => rfl) fun _ => rfl
  · exact .refl s

theorem execPollReplyTimerExpiry_kept {p : Printer} {s t : State} (h : execPollReplyTimerExpiry p s = .next t) :
    s.KeptAll t := by
  unfold execPollReplyTimerExpiry at h
  cases h
  split
  · have counted := State.updatePort_kept_of_eq (.refl s) p (fun x => { x with replyTimer := none, unanswered := x.unanswered + 1 })
      (fun _ => rfl) (fun _ => rfl) (fun _ => rfl) (fun _ => rfl) (fun _ => rfl) (fun _ => rfl) fun _ => rfl
    dsimp only
    split
    · exact State.settle_kept (State.goAbsent_kept counted p)
    · exact State.updatePort_kept_of_eq counted p _ (fun _ => rfl) (fun _ => rfl)
        (fun _ => rfl) (fun _ => rfl) (fun _ => rfl) (fun _ => rfl) fun _ => rfl
  · exact .refl s

theorem execCaps_limits {p : Printer} {body : List Byte} {s t : State} (h : execCaps p body s = .next t) : s.Limits t := by
  have wakes : (s.ports.at p).attached = false → s.Limits (s.takeCaps p body).settle := fun asleep =>
    (State.takeCaps_limits asleep body).then (State.settle_kept (.refl _))
  unfold execCaps at h
  cases h
  split
  · split <;> rename_i state
    · exact wakes (by unfold Port.attached; rw [state]; rfl)
    · exact wakes (by unfold Port.attached; rw [state]; rfl)
    · exact (State.mismatch_kept (.refl s) p .protocol).limits
    · exact (State.mismatch_kept (.refl s) p .protocol).limits
    · exact (State.KeptAll.refl s).limits
    · exact (State.KeptAll.refl s).limits
  · exact (State.KeptAll.refl s).limits

theorem execStatus_kept {p : Printer} {body : List Byte} {s t : State} (h : execStatus p body s = .next t) : s.KeptAll t := by
  unfold execStatus at h
  cases h
  split
  · rename_i ready
    have running := (s.isRunning_iff).mp ((Bool.and_eq_true _ _ ▸ ready).1)
    split
    · exact State.mismatch_kept (.refl s) _ _
    · split
      · exact State.takeStatus_kept running (.refl s) p _
      · exact .refl s
  · exact .refl s

/-- What every event of a printer line keeps. -/
theorem exec_limits_of_printer {c : Instr} {s t : State} (g : ofPrinterLine c = true) (h : exec c s = .next t) : s.Limits t := by
  cases c
  case caps p body => exact execCaps_limits h
  case status p body => exact (execStatus_kept h).limits
  case attachTimerExpiry p => exact (execAttachTimerExpiry_kept h).limits
  case absentRepeatTimerExpiry p => exact (execAbsentRepeatTimerExpiry_kept h).limits
  case pollIntervalTimerExpiry p => exact (execPollIntervalTimerExpiry_kept h).limits
  case pollReplyTimerExpiry p => exact (execPollReplyTimerExpiry_kept h).limits
  case fed p body =>
    cases h
    exact (s.ticketOnly_kept p _ (s.takeReport_kept p body _ fun running k => s.ticketReport_kept p _ _ fun _ allowed =>
      State.takeFeed_kept (.refl s) running p k (Port.allowsFed_sent allowed))).limits
  case doublefed p body =>
    cases h
    exact (s.ticketOnly_kept p _ (s.takeReport_kept p body _ fun running k => s.ticketReport_kept p _ _ fun _ allowed =>
      State.takeDoubleFeed_kept (.refl s) running p k allowed)).limits
  case presented p body =>
    cases h
    exact (s.ticketOnly_kept p _ (s.takeReport_kept p body _ fun running k => s.ticketReport_kept p _ _ fun ticket _ =>
      State.takePresent_kept (.refl s) running p k ticket)).limits
  case printed p body =>
    cases h
    refine (s.takeReport_kept p body _ fun running k => ?_).limits
    split
    · exact s.ticketReport_kept p _ _ fun _ allowed => State.takePrint_kept (.refl s) running p k (Port.allowsPrinted_fed allowed)
    · rename_i roll
      split
      · exact State.settle_kept (State.takeRollPrint_kept (.refl s) running p roll)
      · exact State.mismatch_kept (.refl s) _ _
  case jammed p body =>
    cases h
    refine (s.takeReport_kept p body _ fun running k => ?_).limits
    split
    · exact s.ticketReport_kept p _ _ fun _ _ => State.takeJam_kept (.refl s) running p k
    · rename_i roll
      exact State.settle_kept (State.takeRollJam_kept (.refl s) running p k roll)
  case printerMessageDiscarded p => cases h; exact (s.linkCheck_kept p).limits
  case printerGapTimerExpiry p => cases h; exact (s.linkCheck_kept p).limits
  case nonReportMessage p kind =>
    cases h
    split
    · exact (State.mismatch_kept (.refl s) p .protocol).limits
    · exact (State.KeptAll.refl s).limits
  all_goals exact absurd g Bool.false_ne_true

end Sys2Proof.Machine
end

