-- ==== Sys2Proof/Proofs/LimitsOfRequests.lean ====
section
/-! SUPPORT. Requests keep the limits (R4, R18, R50, R77 to R80, R95, R102, R105, R107, R115, R124, R143, R175, R191). -/

namespace Sys2Proof.Machine

/-! ### A granted place (R156) -/

theorem Journal.grantsRequest_free {j : Journal} (h : j.grantsRequest = true) : j.queue.length + j.reserved < 32 := by
  unfold Journal.grantsRequest Journal.freeRoom at h
  simp only [Bool.and_eq_true, decide_eq_true_eq] at h
  have full : Config.journalPlaces = 32 := rfl
  omega

/-- The last check of a request that needs a journal place. -/
theorem granted_of_ite {ε α : Type} {g : Bool} {e : ε} {x y : α} (h : (if g = true then Except.ok x else Except.error e) = .ok y) :
    g = true := by
  by_contra no
  rw [if_neg no] at h
  cases h

theorem signonCheck_granted {s : State} {w : Window} {clerk float : Nat} {i : Fin 24} (h : s.signonCheck w clerk float = .ok i) :
    s.journal.grantsRequest = true := by
  unfold State.signonCheck at h
  split at h
  · cases h
  · split at h
    · cases h
    · split at h
      · cases h
      · exact granted_of_ite h

theorem voidCheck_granted {s : State} {w : Window} {ty serial : Nat} {e : LogEntry} (h : s.voidCheck w ty serial = .ok e) :
    s.journal.grantsRequest = true := by
  unfold State.voidCheck at h
  split at h
  · cases h
  · split at h
    · cases h
    · split at h
      · cases h
      · split at h
        · cases h
        · split at h
          · cases h
          · exact granted_of_ite h

theorem refundCheck_granted {s : State} {w : Window} {a : RefundBody} {x : Session × Option LogEntry}
    (h : s.refundCheck w a = .ok x) : s.journal.grantsRequest = true := by
  unfold State.refundCheck at h
  split at h
  · cases h
  · split at h
    · cases h
    · dsimp only at h
      split at h
      · cases h
      · exact granted_of_ite h

theorem stockloadCheck_granted {s : State} {id n : Nat} {x : Printer × Batch} (h : s.stockloadCheck id n = .ok x) :
    s.journal.grantsRequest = true := by
  unfold State.stockloadCheck at h
  split at h
  · cases h
  · split at h
    · cases h
    · split at h
      · cases h
      · split at h
        · cases h
        · split at h
          · cases h
          · split at h
            · cases h
            · split at h
              · cases h
              · exact granted_of_ite h

theorem stockoutCheck_granted {s : State} {n : Nat} {x : Printer × Batch} (h : s.stockoutCheck n = .ok x) :
    s.journal.grantsRequest = true := by
  unfold State.stockoutCheck at h
  split at h
  · cases h
  · split at h
    · cases h
    · split at h
      · cases h
      · split at h
        · cases h
        · split at h
          · cases h
          · exact granted_of_ite h

theorem stockcountCheck_granted {s : State} {n m : Nat} {x : Printer × Batch} (h : s.stockcountCheck n m = .ok x) :
    s.journal.grantsRequest = true := by
  unfold State.stockcountCheck at h
  split at h
  · cases h
  · split at h
    · cases h
    · split at h
      · cases h
      · split at h
        · cases h
        · split at h
          · cases h
          · exact granted_of_ite h

theorem declareCheck_granted {s : State} {n : Nat} {d : PerTender Nat} {x : Session} (h : s.declareCheck n d = .ok x) :
    s.journal.grantsRequest = true := by
  unfold State.declareCheck at h
  split at h
  · cases h
  · split at h
    · cases h
    · split at h
      · cases h
      · split at h
        · cases h
        · exact granted_of_ite h

theorem closeCheck_granted {s : State} {n : Nat} {given : Bool} {b : Band} (h : s.closeCheck n given = .ok b) :
    s.journal.grantsRequest = true := by
  unfold State.closeCheck at h
  split at h
  · cases h
  · split at h
    · cases h
    · split at h
      · cases h
      · dsimp only at h
        split at h
        · cases h
        · exact granted_of_ite h

section Owners

variable {s : State} (running : s.phase = .running)

/-! ### What every owner shares -/

theorem State.refuse_kept {s₀ s : State} (h : s₀.KeptAll s) (r : Reply) (code : AnswerCode) : s₀.KeptAll (s.refuse r code) :=
  State.answer_kept h r code .nothing

theorem State.withJournal_kept (s : State) (r : Reply) (own : State) (kept : s.KeptAll own) : s.KeptAll (s.withJournal r own) := by
  unfold State.withJournal
  split
  · exact State.refuse_kept (.refl s) _ _
  · exact kept

theorem State.updateSessions_kept {s₀ s : State} (h : s₀.KeptAll s) (f : SessionUnit → SessionUnit) :
    s₀.KeptAll (s.updateSessions f) :=
  h.trans (State.Aside.kept ⟨rfl, rfl, rfl, rfl, rfl, rfl, rfl, rfl, rfl⟩)

/-- A state that differs in its live stock alone. -/
theorem State.KeptAll.stock {s₀ s t : State} (h : s₀.KeptAll s) (rest : t = { s with stock := t.stock }) : s₀.KeptAll t := by
  refine h.trans (State.Aside.kept ?_)
  rw [rest]
  exact ⟨rfl, rfl, rfl, rfl, rfl, rfl, rfl, rfl, rfl⟩

include running

/-- The record of an accepted request on its granted place. -/
theorem State.handFor_kept {t : State} (h : s.KeptAll t) (granted : s.journal.grantsRequest = true)
    (queue : t.journal.queue = s.journal.queue) (reserved : t.journal.reserved = s.journal.reserved) (record : JRecord)
    (r : Reply) (code : AnswerCode) (figures : Figures) : s.KeptAll (t.handFor record r code figures) :=
  State.hand_kept h (fun off => absurd running off) _ _ (by rw [queue, reserved]; exact Journal.grantsRequest_free granted) nofun

/-! ### Clerk requests -/

theorem ownSignon_kept (r : Reply) (a : Nat × Nat) : s.KeptAll (ownSignon s r a) := by
  apply State.withJournal_kept
  split
  · exact State.refuse_kept (.refl s) _ _
  · rename_i i checked
    exact State.handFor_kept running (State.updateSessions_kept (.refl s) _) (signonCheck_granted checked) rfl rfl _ _ _ _

theorem ownSignoff_kept (r : Reply) (a : Unit) : s.KeptAll (ownSignoff s r a) := by
  apply State.withJournal_kept
  split
  · exact State.refuse_kept (.refl s) _ _
  · exact State.settle_kept (State.signOffTest_kept (State.modifySession_kept (.refl s) _ _) _ running)

omit running in
/-- A job in a free record at the tail of its printer's queue (R1, R7). -/
theorem State.PoolPlaced.joined {t : State} (pool : s.PoolPlaced) {j : JobNumber} {job : Job} (free : s.jobs.at j = none)
    (queued : job.state = .queued) (image : job.image = none) (serial : job.serial = none)
    (jobs : t.jobs = s.jobs.put j (some job)) (queues : t.queues = s.queues.put job.printer (s.queues.at job.printer ++ [j]))
    (ports : t.ports = s.ports) (queue : t.journal.queue = s.journal.queue) : t.PoolPlaced := by
  have out : ∀ p, j ∉ s.queues.at p := fun p m => by
    obtain ⟨x, record, _⟩ := ((pool.jobs j).queued p).mp m
    rw [free] at record
    cases record
  have unmarked : ∀ p, s.marks p j = [] := fun p => by
    by_contra k
    obtain ⟨x, record, _⟩ := ((pool.jobs j).outstanding p).mp k
    rw [free] at record
    cases record
  have unlinked : s.links j = 0 := by rw [(pool.jobs j).presented, free]; rfl
  have marks : ∀ p i, t.marks p i = s.marks p i := fun p i => by unfold State.marks; rw [ports]
  have links : ∀ i, t.links i = s.links i := fun i => by unfold State.links; rw [queue]
  refine ⟨fun i => ?_, fun p => ?_, fun p => by rw [ports]; exact pool.single p⟩
  · by_cases same : j = i
    · subst same
      refine .of_queued (x := job) (by rw [jobs, Vector.at_put_same]) queued image serial (fun p => ?_)
        (fun p => (marks p j).trans (unmarked p)) ((links j).trans unlinked)
      rw [queues, Vector.at_put]
      split
      · rename_i is
        simp [is]
      · rename_i is
        simp [out p, is]
    · refine (pool.jobs i).congr (by rw [jobs, Vector.at_put_other _ _ same]) (fun p => ?_) (fun p => marks p i) (links i)
      rw [queues, Vector.at_put]
      split
      · rename_i is
        subst is
        simp [Ne.symm same]
      · rfl
  · rw [queues, Vector.at_put]
    split
    · rw [List.nodup_append]
      refine ⟨pool.once _, List.nodup_singleton j, fun a k b l same => ?_⟩
      rw [List.mem_singleton] at l
      exact out job.printer (l ▸ same ▸ k)
    · exact pool.once p

theorem State.acceptJob_kept {job : Job} (queued : job.state = .queued) (image : job.image = none) (serial : job.serial = none) :
    s.KeptAll (s.acceptJob job) := by
  cases free : s.freeJob with
  | none =>
    unfold State.acceptJob
    rw [free]
    exact State.refuse_kept (.refl s) _ _
  | some j =>
    have record : s.jobs.at j = none := by simpa using List.find?_some free
    rw [State.acceptJob_eq free]
    refine State.settle_kept ((State.KeptAll.refl s).busy_step (fun off => absurd running off) (.of_ports rfl rfl rfl rfl)
      (fun g => g.congr rfl rfl fun _ => rfl) id fun pool => ?_)
    exact pool.joined record queued image serial rfl rfl rfl rfl

theorem ownIssue_kept (r : Reply) (a : IssueBody) : s.KeptAll (ownIssue s r a) := by
  apply State.withJournal_kept
  split
  · exact State.refuse_kept (.refl s) _ _
  · rename_i job made
    unfold State.issueJob at made
    split at made
    · cases made
    · split at made
      · cases made
      · split at made
        · cases made
        · cases made
          exact State.acceptJob_kept running rfl rfl rfl

theorem ownTestprint_kept (r : Reply) (a : Nat) : s.KeptAll (ownTestprint s r a) := by
  apply State.withJournal_kept
  split
  · exact State.refuse_kept (.refl s) _ _
  · rename_i job made
    unfold State.testJob at made
    split at made
    · cases made
    · split at made
      · cases made
      · split at made
        · cases made
        · cases made
          exact State.acceptJob_kept running rfl rfl rfl

omit running in
theorem jobWithTag_some {w : Window} {n : Nat} {j : JobNumber} {job : Job} (h : s.jobWithTag w n = some (j, job)) :
    s.jobs.at j = some job := by
  unfold State.jobWithTag at h
  obtain ⟨i, _, at_⟩ := List.exists_of_findSome?_eq_some h
  split at at_
  · split at at_
    · cases at_
      assumption
    · cases at_
  · cases at_

theorem ownCancel_kept (r : Reply) (a : Nat) : s.KeptAll (ownCancel s r a) := by
  unfold ownCancel
  split
  · exact State.refuse_kept (.refl s) _ _
  · rename_i j job found
    have record := jobWithTag_some found
    split
    · rename_i queued
      refine State.settle_kept (State.refuse_kept (State.refuseJob_kept ?_ running j job .cancelled ?_ queued) _ _)
      · split
        · exact State.withdrawClaim_kept (.refl s) _
        · exact .refl s
      · split
        · exact record
        · exact record
    · exact State.refuse_kept (.refl s) _ _

theorem ownVoid_kept (r : Reply) (a : Nat × Nat) : s.KeptAll (ownVoid s r a) := by
  apply State.withJournal_kept
  split
  · exact State.refuse_kept (.refl s) _ _
  · rename_i e checked
    exact State.handFor_kept running (State.updateSessions_kept (.refl s) _) (voidCheck_granted checked) rfl rfl _ _ _ _

theorem ownRefund_kept (r : Reply) (a : RefundBody) : s.KeptAll (ownRefund s r a) := by
  apply State.withJournal_kept
  split
  · exact State.refuse_kept (.refl s) _ _
  · rename_i x entry checked
    have granted := refundCheck_granted checked
    unfold State.acceptRefund
    split
    · exact State.handFor_kept running (State.updateSessions_kept (.refl s) _) granted rfl rfl _ _ _ _
    · exact State.handFor_kept running (.refl s) granted rfl rfl _ _ _ _

/-! ### Stock requests -/

theorem ownStockin_kept (r : Reply) (a : StockinBody) : s.KeptAll (ownStockin s r a) := by
  apply State.withJournal_kept
  split
  · exact State.refuse_kept (.refl s) _ _
  · split
    · exact State.refuse_kept (.refl s) _ _
    · split
      · rename_i granted
        refine State.handFor_kept running ?_ granted ?_ ?_ _ _ _ _
        · exact (State.KeptAll.refl s).stock rfl
        · rfl
        · rfl
      · exact State.refuse_kept (.refl s) _ _

omit running in
theorem State.clearClosing_kept (s : State) (p : Printer) : s.KeptAll (s.clearClosing p) ∧
    (s.clearClosing p).journal.queue = s.journal.queue ∧ (s.clearClosing p).journal.reserved = s.journal.reserved := by
  unfold State.clearClosing
  split
  · exact ⟨State.withdrawClaim_kept (.refl s) _, rfl, rfl⟩
  · exact ⟨.refl s, rfl, rfl⟩

theorem State.acceptStockload_kept (granted : s.journal.grantsRequest = true) (r : Reply) (p : Printer) (b : Batch) :
    s.KeptAll (s.acceptStockload r p b) := by
  obtain ⟨cleared, queue, reserved⟩ := s.clearClosing_kept p
  unfold State.acceptStockload
  dsimp only
  generalize s.clearClosing p = t at *
  apply State.settle_kept
  apply State.resolveQueue_kept
  apply State.lowStockTest_kept
  apply State.endCondition_kept
  apply State.removeHold_kept
  refine State.handFor_kept running ?_ granted ?_ ?_ _ _ _ _
  · exact cleared.stock rfl
  · exact queue
  · exact reserved

theorem ownStockload_kept (r : Reply) (a : Nat × Nat) : s.KeptAll (ownStockload s r a) := by
  apply State.withJournal_kept
  split
  · exact State.refuse_kept (.refl s) _ _
  · rename_i checked
    exact State.acceptStockload_kept running (stockloadCheck_granted checked) _ _ _

theorem State.acceptStockout_kept (granted : s.journal.grantsRequest = true) (r : Reply) (p : Printer) (b : Batch) :
    s.KeptAll (s.acceptStockout r p b) := by
  obtain ⟨cleared, queue, reserved⟩ := s.clearClosing_kept p
  unfold State.acceptStockout
  dsimp only
  generalize s.clearClosing p = t at *
  apply State.settle_kept
  apply State.addStockHold_kept
  split
  · refine State.handFor_kept running ?_ granted ?_ ?_ _ _ _ _
    · exact cleared.stock rfl
    · exact queue
    · exact reserved
  · exact State.handFor_kept running (State.setLoaded_kept cleared _ _) granted queue reserved _ _ _ _

theorem ownStockout_kept (r : Reply) (a : Nat) : s.KeptAll (ownStockout s r a) := by
  apply State.withJournal_kept
  split
  · exact State.refuse_kept (.refl s) _ _
  · rename_i checked
    exact State.acceptStockout_kept running (stockoutCheck_granted checked) _ _ _

theorem State.acceptStockcount_kept (granted : s.journal.grantsRequest = true) (r : Reply) (p : Printer) (b : Batch) (n : Nat) :
    s.KeptAll (s.acceptStockcount r p b n) := by
  have ended : s.KeptAll ((((s.setLoaded p (some (b.settleTo n))).handFor (.count b.id p n (b.counted n) (b.settleTo n).state) r .done
      (.counted (b.counted n))).removeHold p .stockUnverified).endCondition (.printer p .stockMismatch)) :=
    State.endCondition_kept (State.removeHold_kept (State.handFor_kept running (State.setLoaded_kept (.refl s) _ _) granted rfl rfl
      _ _ _ _) _ _) _
  unfold State.acceptStockcount
  dsimp only
  generalize State.endCondition _ _ = t at *
  apply State.settle_kept
  apply State.lowStockTest_kept
  split
  · exact State.exhaust_kept ended _ _ running
  · exact ended

theorem ownStockcount_kept (r : Reply) (a : Nat × Nat) : s.KeptAll (ownStockcount s r a) := by
  apply State.withJournal_kept
  split
  · exact State.refuse_kept (.refl s) _ _
  · rename_i checked
    exact State.acceptStockcount_kept running (stockcountCheck_granted checked) _ _ _ _

/-! ### HOLD and RELEASE -/

omit running in
theorem ownHold_kept (s : State) (r : Reply) (a : Nat) : s.KeptAll (ownHold s r a) := by
  unfold ownHold
  split
  · exact State.refuse_kept (.refl s) _ _
  · exact State.settle_kept (State.refuse_kept (State.addHold_kept (.refl s) _ _) _ _)

omit running in
theorem State.beginAttach_kept_of_asleep {s₀ s : State} (h : s₀.KeptAll s) (p : Printer)
    (asleep : (s.ports.at p).attached = false) : s₀.KeptAll (s.beginAttach p) := by
  unfold State.beginAttach
  exact State.updatePort_kept (State.transmit_kept h p .enquire rfl) p _ (.of_asleep asleep rfl rfl rfl rfl rfl) rfl

omit running in
theorem State.release_kept (s : State) (p : Printer) : s.KeptAll (s.release p) := by
  have released := State.removeHold_kept (.refl s) p .supervisor
  unfold State.release
  dsimp only
  generalize s.removeHold p .supervisor = t at *
  split
  · rename_i failed
    refine State.beginAttach_kept_of_asleep (State.endCondition_kept (State.endCondition_kept released _) _) p ?_
    rw [(State.endCondition_notes _ _).ports, (State.endCondition_notes t _).ports]
    unfold Port.attached
    rw [failed]
    rfl
  · exact released

omit running in
theorem ownRelease_kept (s : State) (r : Reply) (a : Nat) : s.KeptAll (ownRelease s r a) := by
  unfold ownRelease
  split
  · exact State.refuse_kept (.refl s) _ _
  · exact State.settle_kept (State.refuse_kept (s.release_kept _) _ _)

/-! ### Cash-up, table store writes and reads -/

theorem ownDeclare_kept (r : Reply) (a : Nat × PerTender Nat) : s.KeptAll (ownDeclare s r a) := by
  apply State.withJournal_kept
  split
  · exact State.refuse_kept (.refl s) _ _
  · rename_i x checked
    have free := Journal.grantsRequest_free (declareCheck_granted checked)
    exact State.hand_kept (State.modifySession_kept (.refl s) _ _) (fun off => absurd running off) _ _ free nofun

theorem ownClose_kept (r : Reply) (a : Nat × Bool) : s.KeptAll (ownClose s r a) := by
  apply State.withJournal_kept
  split
  · exact State.refuse_kept (.refl s) _ _
  · rename_i band checked
    exact State.handFor_kept running (State.modifySession_kept (.refl s) _ _) (closeCheck_granted checked) rfl rfl _ _ _ _

end Owners

theorem State.beginWrite_kept (s : State) (w : StoreWrite) : s.KeptAll (s.beginWrite w) :=
  State.Aside.kept ⟨rfl, rfl, rfl, rfl, rfl, rfl, rfl, rfl, rfl⟩

theorem ownTableload_kept (s : State) (r : Reply) (a : Option TableEntries) : s.KeptAll (ownTableload s r a) := by
  unfold ownTableload
  split
  · exact State.refuse_kept (.refl s) _ _
  · split
    · exact State.refuse_kept (.refl s) _ _
    · split
      · exact State.refuse_kept (.refl s) _ _
      · split
        · exact State.refuse_kept (.refl s) _ _
        · exact s.beginWrite_kept _

theorem ownReporting_kept (s : State) (r : Reply) (a : Bool) : s.KeptAll (ownReporting s r a) := by
  unfold ownReporting
  split
  · exact State.refuse_kept (.refl s) _ _
  · exact s.beginWrite_kept _

theorem ownCauseclear_kept (s : State) (r : Reply) (a : Unit) : s.KeptAll (ownCauseclear s r a) := by
  unfold ownCauseclear
  split
  · exact State.refuse_kept (.refl s) _ _
  · exact s.beginWrite_kept _

theorem State.answerRead_kept (s : State) (r : Reply) (f : Option Figures) : s.KeptAll (s.answerRead r f) := by
  unfold State.answerRead
  split
  · exact State.answer_kept (.refl s) _ _ _
  · exact State.refuse_kept (.refl s) _ _

theorem ownSessionread_kept (s : State) (r : Reply) (a : SessionSelector) : s.KeptAll (ownSessionread s r a) := by
  unfold ownSessionread
  split
  · split
    · exact State.refuse_kept (.refl s) _ _
    · split
      · exact State.answer_kept (.refl s) _ _ _
      · exact State.refuse_kept (.refl s) _ _
  · split
    · exact State.refuse_kept (.refl s) _ _
    · split
      · exact State.refuse_kept (.refl s) _ _
      · exact State.answer_kept (.refl s) _ _ _

theorem ownFaultclear_kept (s : State) (r : Reply) (a : List (Nat × Nat)) : s.KeptAll (ownFaultclear s r a) := by
  unfold ownFaultclear
  split
  · exact State.refuse_kept (.refl s) _ _
  · refine State.answer_kept ?_ _ _ _
    exact State.Aside.kept ⟨rfl, rfl, rfl, rfl, rfl, rfl, rfl, rfl, rfl⟩

theorem State.setOffice_kept {s₀ s : State} (h : s₀.KeptAll s) (w : Window) (x : OfficePort) : s₀.KeptAll (s.setOffice w x) :=
  h.trans (State.Aside.kept ⟨rfl, rfl, rfl, rfl, rfl, rfl, rfl, rfl, rfl⟩)

theorem ownResetFull_kept (s : State) (r : Reply) (a : Bool) : s.KeptAll (ownResetFull s r a) := by
  unfold ownResetFull
  split
  · exact State.refuse_kept (.refl s) _ _
  · exact State.setOffice_kept (.refl s) _ _

end Sys2Proof.Machine
end

