-- ==== Sys2Proof/Proofs/LimitsOfOffice.lean ====
section
/-! SUPPORT. A path reset and the events of an office line keep the limits (R182, R184 to R188). -/

namespace Sys2Proof.Machine

/-! ### A path reset -/

theorem State.resetEngines_claims (s : State) :
    (allPrinters.foldl State.resetEngine s).journal.claims = s.journal.claims := by
  rw [s.resetEngines_reset.rest]

theorem State.resetRequest_nodup (t : State) (q : Window × OpenRequest) (once : t.journal.claims.Nodup) :
    (t.resetRequest q).journal.claims.Nodup := by
  rcases t.resetRequest_cases q with ⟨_, shape⟩ | ⟨j, job, _, shape⟩ <;> rw [shape]
  · exact once
  · rcases t.endJob_claims j job .reset job.resetFigures with claims | ⟨absent, claims, _⟩ <;> rw [claims]
    · exact once
    · rw [List.nodup_append]
      refine ⟨once, List.nodup_singleton _, fun a m b n same => absent ?_⟩
      rw [List.mem_singleton] at n
      exact n ▸ same ▸ m

theorem State.poolReset_nodup (s : State) (once : s.journal.claims.Nodup) : s.poolReset.journal.claims.Nodup := by
  obtain ⟨_, _, _, _, _, _, _, _, claims, _⟩ := s.poolReset_effect.leaves
  have fold : ∀ (qs : List (Window × OpenRequest)) (t : State), t.journal.claims.Nodup →
      (qs.foldl State.resetRequest t).journal.claims.Nodup := by
    intro qs
    induction qs with
    | nil => exact fun _ h => h
    | cons q qs ih => exact fun t h => ih _ (t.resetRequest_nodup q h)
  have cut : ∀ t : State, t.cutAnswers.journal.claims = t.journal.claims := fun _ => rfl
  rw [claims]
  refine fold _ _ ?_
  unfold State.blocksReset
  rw [cut, State.resetEngines_claims]
  exact once.filter _

/-- The records of the serials that a path reset spoils take no more than the places of their entries. -/
theorem State.allSpoils_length (s : State) (entries : ∀ p : Printer, ∀ e ∈ (s.ports.at p).entries, e.held) (ps : List Printer) :
    (ps.flatMap fun p => s.spoils .reset p (s.ports.at p).entries).length ≤ (ps.map fun p => (s.ports.at p).places).sum := by
  induction ps with
  | nil => exact Nat.le_refl 0
  | cons p ps ih =>
    rw [List.flatMap_cons, List.length_append, List.map_cons, List.sum_cons]
    exact Nat.add_le_add (s.spoils_length .reset p _ fun e m t own => (entries p e m t own).1) ih

/-- What is left after a path reset: nothing in the pool, the windows and the audit and slip queues. -/
theorem State.poolReset_kept {s : State} (running : s.phase = .running) : s.KeptAll s.poolReset := by
  have blocks := s.blocksReset_effect
  have link := s.poolReset_effect
  have once := s.poolReset_nodup
  have keeps := blocks.keeps.trans link.keeps
  obtain ⟨ports, _, _, sent, _, _, _, _, _, journal⟩ := link.leaves
  have jobs := link.jobs
  have queues := link.queues
  generalize s.poolReset = u at *
  generalize s.blocksReset = c at *
  have port : ∀ p, u.ports.at p = (s.ports.at p).pathReset (s.printerEntry p) := fun p => by rw [ports, blocks.ports]
  have entries : ∀ p, (u.ports.at p).entries = [] := fun p => by rw [port]; rfl
  have asleep : ∀ p, (u.ports.at p).attached = false := fun p => by
    rw [port]
    unfold Port.attached Port.pathReset
    dsimp only
    split <;> rfl
  have marks : ∀ p j, u.marks p j = [] := fun p j => by
    unfold State.marks
    rw [entries]
    rfl
  have links : ∀ j, u.links j = 0 := fun j => by
    unfold State.links
    rw [journal, List.countP_eq_zero]
    intro q m
    rw [blocks.links q m]
    exact Bool.false_ne_true
  have sent_u := sent.trans blocks.sent
  have items : ∀ p, s.itemsSent u p = [] := fun p => by
    rw [State.itemsSent_of_append sent_u, itemsFor, List.filterMap_eq_nil_iff]
    intro m in_
    obtain ⟨q, _, rfl⟩ := List.mem_map.mp in_
    exact ite_self _
  refine ⟨⟨⟨keeps.phase, fun off => absurd running off, fun _ p e m => ?_, fun empty placed room => ⟨?_, ?_, fun p e m => ?_⟩, once,
    fun sound p => ?_, fun p => ⟨⟨_, sent_u.symm⟩, fun k n is => ?_, ?_, Or.inr (asleep p), fun _ => ⟨items p, asleep p⟩⟩⟩,
    fun _ _ _ => ⟨fun j => .of_none (jobs j) (fun p => ?_) (fun p => marks p j) (links j), fun p => ?_, fun p => ?_⟩⟩,
    fun _ _ a => ⟨?_, fun p _ _ _ => ?_⟩⟩
  · rw [entries] at m
    cases m
  · have reserved := blocks.reserved (s.roomSound_iff.mpr ⟨room, placed, empty⟩)
    have records := congrArg List.length blocks.records
    rw [List.length_append, List.length_map, List.length_map] at records
    have count : (allPrinters.flatMap fun p => (s.spoils .reset p (s.ports.at p).entries).map Queued.record).length =
        (allPrinters.flatMap fun p => s.spoils .reset p (s.ports.at p).entries).length := by
      simp only [List.length_flatMap, List.length_map]
    have spoils := s.allSpoils_length room.entries allPrinters
    have held := room.reserved
    have full := room.room
    unfold State.heldPlaces at held
    rw [journal]
    show c.journal.queue.length + c.journal.reserved ≤ 32
    omega
  · have reserved := blocks.reserved (s.roomSound_iff.mpr ⟨room, placed, empty⟩)
    rw [journal]
    show c.journal.reserved = _
    rw [reserved]
    unfold State.heldPlaces Port.places
    simp [entries]
  · rw [entries] at m
    cases m
  · obtain ⟨_, _, low, high, _⟩ := sound p
    have away := asleep p
    have none_ := entries p
    rw [port] at away none_ ⊢
    refine ⟨fun active => ?_, fun held => ?_, low, high, by rw [none_]; exact Nat.zero_le _, fun _ => none_, Nat.zero_le _⟩
    · unfold Port.attached at away
      rw [active] at away
      cases away
    · unfold Port.attached at away
      rw [held] at away
      cases away
  · rw [items] at is
    cases is
  · unfold State.images
    rw [entries]
    exact List.nil_sublist _
  · rw [queues]
    exact List.not_mem_nil
  · rw [queues]
    exact List.nodup_nil
  · rw [entries]
    exact List.nodup_nil
  · rw [port]
    exact Nat.zero_le _
  · unfold State.auditLoad
    rw [port a, entries]
    exact Nat.zero_le _

theorem ownResetPath_kept {s : State} (running : s.phase = .running) (r : Reply) (a : Bool) : s.KeptAll (ownResetPath s r a) := by
  have answered := State.refuse_kept (.refl s) r .done
  unfold ownResetPath
  rw [State.pathReset_eq]
  exact answered.trans (State.settle_kept (State.poolReset_kept (answered.running running)))

/-! ### Taking a frame -/

theorem State.takeCredit_kept {s₀ s : State} (h : s₀.KeptAll s) (w : Window) (tag : Byte) : s₀.KeptAll (s.takeCredit w tag).1 :=
  h.trans (State.Aside.kept ⟨rfl, rfl, rfl, rfl, rfl, rfl, rfl, rfl, rfl⟩)

theorem State.takeFrame_kept (s : State) (w : Window) (mine : Frame → Bool) (cancel : Bool)
    (check : State → Reply → Frame → State)
    (kept : ∀ (t : State) (r : Reply) (f : Frame), t.phase = .running → t.KeptAll (check t r f)) :
    s.KeptAll (s.takeFrame w mine cancel check) := by
  unfold State.takeFrame
  split
  · exact .refl s
  · rename_i f rest _
    have popped := State.setOffice_kept (.refl s) w { s.office.at w with buffer := rest }
    split
    · split
      · exact .refl s
      · exact State.refuse_kept popped _ _
      · rename_i running
        dsimp only
        generalize s.setOffice w { s.office.at w with buffer := rest } = t at *
        split
        · split
          · split
            · exact popped.trans (kept t _ f (popped.running running))
            · exact State.refuse_kept popped _ _
          · have credited := State.takeCredit_kept popped w f.tag
            exact credited.trans (kept _ _ f (credited.running running))
        · exact popped
    · exact .refl s

theorem State.checked_kept {α : Type} {kind : RequestKind} {read : List Byte → Option α} {owner : State → Reply → α → State}
    (kept : ∀ (t : State) (r : Reply) (a : α), t.phase = .running → t.KeptAll (owner t r a)) (s : State) (r : Reply) (f : Frame)
    (running : s.phase = .running) : s.KeptAll (State.checked kind read owner s r f) := by
  unfold State.checked
  split
  · exact State.refuse_kept (.refl s) _ _
  · split
    · exact State.refuse_kept (.refl s) _ _
    · exact kept s r _ running

theorem State.takeRequest_kept {α : Type} (s : State) (w : Window) (kind : RequestKind) (read : List Byte → Option α)
    (owner : State → Reply → α → State) (kept : ∀ (t : State) (r : Reply) (a : α), t.phase = .running → t.KeptAll (owner t r a)) :
    s.KeptAll (s.takeRequest w kind read owner) :=
  s.takeFrame_kept w _ _ _ (State.checked_kept kept)

/-! ### Line events -/

theorem State.endLineConditions_kept {s₀ s : State} (h : s₀.KeptAll s) (w : Window) : s₀.KeptAll (s.endLineConditions w) := by
  unfold State.endLineConditions
  refine State.KeptAll.foldl (q := fun _ => True) _ h trivial fun t k kept _ => ⟨?_, trivial⟩
  split
  · exact State.endCondition_kept kept _
  · exact kept

theorem execFrameReceived_kept {w : Window} {kind tag : Byte} {body : List Byte} {s t : State}
    (h : execFrameReceived w kind tag body s = .next t) : s.KeptAll t := by
  unfold execFrameReceived at h
  cases h
  split
  · split
    · dsimp only
      split
      · exact State.endLineConditions_kept (State.setOffice_kept (.refl s) _ _) w
      · exact State.raise_kept (.refl s) _
    · exact State.refuse_kept (State.endLineConditions_kept (.refl s) w) _ _
  · exact .refl s

theorem State.lineError_kept (s : State) (w : Window) (c : LineFault) : s.KeptAll (s.lineError w c) := by
  unfold State.lineError
  split
  · exact State.raise_kept (.refl s) _
  · exact .refl s

/-- What every event of an office line keeps. -/
theorem exec_kept_of_office {c : Instr} {s t : State} (g : ofOfficeLine c = true) (h : exec c s = .next t) : s.KeptAll t := by
  cases c
  case frameReceived => exact execFrameReceived_kept h
  case frameDiscarded => cases h; exact s.lineError_kept _ _
  case gapTimerExpiry => cases h; exact s.lineError_kept _ _
  case signon => cases h; exact s.takeRequest_kept _ _ _ _ fun _ r a running => ownSignon_kept running r a
  case signoff => cases h; exact s.takeRequest_kept _ _ _ _ fun _ r a running => ownSignoff_kept running r a
  case issue => cases h; exact s.takeRequest_kept _ _ _ _ fun _ r a running => ownIssue_kept running r a
  case testprint => cases h; exact s.takeRequest_kept _ _ _ _ fun _ r a running => ownTestprint_kept running r a
  case cancel => cases h; exact s.takeRequest_kept _ _ _ _ fun _ r a running => ownCancel_kept running r a
  case void => cases h; exact s.takeRequest_kept _ _ _ _ fun _ r a running => ownVoid_kept running r a
  case refund => cases h; exact s.takeRequest_kept _ _ _ _ fun _ r a running => ownRefund_kept running r a
  case tableload => cases h; exact s.takeRequest_kept _ _ _ _ fun t r a _ => ownTableload_kept t r a
  case tableread => cases h; exact s.takeRequest_kept _ _ _ _ fun t r _ _ => t.answerRead_kept r _
  case stockin => cases h; exact s.takeRequest_kept _ _ _ _ fun _ r a running => ownStockin_kept running r a
  case stockload => cases h; exact s.takeRequest_kept _ _ _ _ fun _ r a running => ownStockload_kept running r a
  case stockout => cases h; exact s.takeRequest_kept _ _ _ _ fun _ r a running => ownStockout_kept running r a
  case stockcount => cases h; exact s.takeRequest_kept _ _ _ _ fun _ r a running => ownStockcount_kept running r a
  case stockread => cases h; exact s.takeRequest_kept _ _ _ _ fun t r _ _ => t.answerRead_kept r _
  case hold => cases h; exact s.takeRequest_kept _ _ _ _ fun t r a _ => ownHold_kept t r a
  case release => cases h; exact s.takeRequest_kept _ _ _ _ fun t r a _ => ownRelease_kept t r a
  case declare => cases h; exact s.takeRequest_kept _ _ _ _ fun _ r a running => ownDeclare_kept running r a
  case close => cases h; exact s.takeRequest_kept _ _ _ _ fun _ r a running => ownClose_kept running r a
  case sessionread => cases h; exact s.takeRequest_kept _ _ _ _ fun t r a _ => ownSessionread_kept t r a
  case faultread => cases h; exact s.takeRequest_kept _ _ _ _ fun t r _ _ => t.answerRead_kept r _
  case faultclear => cases h; exact s.takeRequest_kept _ _ _ _ fun t r a _ => ownFaultclear_kept t r a
  case reporting => cases h; exact s.takeRequest_kept _ _ _ _ fun t r a _ => ownReporting_kept t r a
  case journalread => cases h; exact s.takeRequest_kept _ _ _ _ fun t r _ _ => t.answerRead_kept r _
  case statusread => cases h; exact s.takeRequest_kept _ _ _ _ fun t r _ _ => State.answer_kept (.refl t) r _ _
  case causeclear => cases h; exact s.takeRequest_kept _ _ _ _ fun t r a _ => ownCauseclear_kept t r a
  case resetFull => cases h; exact s.takeFrame_kept _ _ _ _ (State.checked_kept fun t r a _ => ownResetFull_kept t r a)
  case resetPath => cases h; exact s.takeFrame_kept _ _ _ _ (State.checked_kept fun _ r a running => ownResetPath_kept running r a)
  case nonRequestFrame => cases h; exact s.takeFrame_kept _ _ _ _ fun t r _ _ => State.refuse_kept (.refl t) r _
  all_goals exact absurd g Bool.false_ne_true

end Sys2Proof.Machine
end

