-- ==== Sys2Proof/Proofs/LimitsOfWrites.lean ====
section
/-! SUPPORT. The ends of journal writes and the supply's warnings keep the limits (R150, R151, R159, R161, R162, R171,
R172). -/

namespace Sys2Proof.Machine

/-! ### A record that leaves the write queue -/

/-- The jobs once a queued record has been written: the one it completes is gone (R19, R20). -/
def State.jobsAfter (s : State) (link : Link) : Tab (Option Job) 32 :=
  match link with
  | .job j => s.jobs.put j none
  | .nothing => s.jobs
  | .request _ _ _ => s.jobs
  | .declare _ => s.jobs

theorem State.jobsAfter_at (s : State) (link : Link) (i : JobNumber) :
    (s.jobsAfter link).at i = if link = .job i then none else s.jobs.at i := by
  unfold State.jobsAfter
  split
  · rename_i j
    rw [Vector.at_put]
    by_cases same : j = i <;> simp [same]
  all_goals simp

theorem State.PoolPlaced.written {s t : State} (pool : s.PoolPlaced) {q : Queued} {rest : List Queued}
    (queue : s.journal.queue = q :: rest) (left : t.journal.queue = rest) (jobs : t.jobs = s.jobsAfter q.link)
    (queues : t.queues = s.queues) (entries : ∀ p, (t.ports.at p).entries = (s.ports.at p).entries) : t.PoolPlaced := by
  have marks : ∀ p i, t.marks p i = s.marks p i := fun p i => by unfold State.marks; rw [entries]
  have links : ∀ i, s.links i = t.links i + if q.link = .job i then 1 else 0 := fun i => by
    unfold State.links
    rw [queue, left, List.countP_cons]
    simp
  refine ⟨fun i => ?_, fun p => by rw [queues]; exact pool.once p, fun p => by rw [entries]; exact pool.single p⟩
  have record : t.jobs.at i = if q.link = .job i then none else s.jobs.at i := by rw [jobs, s.jobsAfter_at]
  have count := links i
  by_cases own : q.link = .job i
  · rw [if_pos own] at record count
    have behind := (pool.jobs i).presented
    have one : s.links i = 1 ∧ (s.jobs.at i).any (fun x => x.state == .presented) = true := by
      split at behind
      · rename_i is
        exact ⟨behind, is⟩
      · omega
    obtain ⟨x, here, state⟩ := (Option.any_eq_true _ _).mp one.2
    have state : x.state = .presented := by simpa using state
    refine .of_none record (fun p m => ?_) (fun p => ?_) (by omega)
    · rw [queues] at m
      obtain ⟨y, there, _, queued⟩ := ((pool.jobs i).queued p).mp m
      cases here.symm.trans there
      rw [state] at queued
      cases queued
    · rw [marks]
      by_contra k
      obtain ⟨y, there, _, _, no⟩ := ((pool.jobs i).outstanding p).mp k
      cases here.symm.trans there
      exact no state
  · rw [if_neg own] at record count
    exact (pool.jobs i).congr record (fun p => by rw [queues]) (fun p => marks p i) count.symm

/-- The oldest queued record has been written, and the job it completes is gone. -/
theorem State.KeptAll.written {s t : State} {q : Queued} {rest : List Queued} (queue : s.journal.queue = q :: rest)
    (calm : s.Calm t) (left : t.journal.queue = rest) (reserved : t.journal.reserved = s.journal.reserved)
    (claims : s.journal.claims.Nodup → t.journal.claims.Nodup) (jobs : t.jobs = s.jobsAfter q.link)
    (queues : t.queues = s.queues) (entries : ∀ p, (t.ports.at p).entries = (s.ports.at p).entries) : s.KeptAll t := by
  refine (State.KeptAll.refl s).busy_step (fun _ e => ?_) calm (fun g => ⟨?_, ?_, fun p e m => g.entries p e (entries p ▸ m)⟩)
    claims fun g => g.written queue left jobs queues entries
  · have none_ := e.queue
    rw [queue] at none_
    cases none_
  · have room := g.room
    rw [queue, List.length_cons] at room
    rw [left, reserved]
    omega
  · rw [reserved, g.reserved]
    exact (State.heldPlaces_congr fun p => by unfold Port.places; rw [entries]).symm

/-! ### Claims where something waits -/

section Busy

variable {s₀ s : State} (h : s₀.KeptAll s) (busy : s₀.phase ≠ .running → ¬ s₀.Empty)

include h busy

theorem State.addClaim_kept_of_busy (c : Claim) : s₀.KeptAll (s.addClaim c) := by
  refine h.busy_step busy (.of_ports rfl rfl rfl rfl) (fun g => g.congr ?_ ?_ fun _ => rfl) (s.addClaim_nodup c)
    fun g => g.congr rfl rfl (fun _ => rfl) fun j => ?_
  all_goals
    unfold State.addClaim
    try unfold State.links
    simp only [State.updateJournal_journal]
    split <;> rfl

theorem State.signOffTest_kept_of_busy (n : Nat) : s₀.KeptAll (s.signOffTest n) := by
  unfold State.signOffTest
  split
  · split
    · exact State.addClaim_kept_of_busy (State.modifySession_kept h _ _) busy _
    · exact h
  · exact h

theorem State.jobEnded_kept_of_busy (n : Nat) : s₀.KeptAll (s.jobEnded n) :=
  State.signOffTest_kept_of_busy (State.modifySession_kept h _ _) busy _

end Busy

/-! ### A written record reported -/

theorem State.handSlip_kept {s₀ s : State} (h : s₀.KeptAll s) (slip : List Text) : s₀.KeptAll (s.handSlip slip).1 := by
  unfold State.handSlip
  split
  · exact h
  · rename_i p _
    by_cases room : (s.ports.at p).slips.length < Config.slipQueueSlips
    · rw [if_pos room]
      refine State.updatePort_kept h p (fun x => { x with slips := x.slips ++ [slip] }) ?_ rfl
      refine ⟨fun ⟨a, b, c, d, e, f, _⟩ => ⟨a, b, c, d, e, f, ?_⟩, .refl _, fun e m k => ⟨e, m, k⟩, Nat.le_refl _, Or.inl rfl, id⟩
      rw [List.length_append, List.length_singleton]
      exact room
    · rw [if_neg room]
      exact h

theorem State.slipFor_kept {s₀ s : State} (h : s₀.KeptAll s) (n : Nat) : s₀.KeptAll (s.slipFor n).1 := by
  unfold State.slipFor
  split
  · split
    · exact State.handSlip_kept h _
    · exact h
  · exact h

theorem State.enteredFor_nodup (s : State) (r : JRecord) (once : s.journal.claims.Nodup) :
    (s.enteredFor r).journal.claims.Nodup := by
  unfold State.enteredFor
  split
  · exact State.signOffTest_nodup _ _ once
  · exact once

/-- A record that has been written and reported. -/
theorem State.reportWritten_kept {s : State} {q : Queued} {rest : List Queued} (queue : s.journal.queue = q :: rest)
    (slot : List Byte) : s.KeptAll ((s.slotWritten slot rest).reportWritten q) := by
  have busy : s.phase ≠ .running → ¬ s.Empty := fun _ e => by
    have none_ := e.queue
    rw [queue] at none_
    cases none_
  have shape := (s.slotWritten slot rest).enteredFor_rest q.record
  have nodup := (s.slotWritten slot rest).enteredFor_nodup q.record
  rw [State.reportWritten_eq]
  generalize (s.slotWritten slot rest).enteredFor q.record = d at *
  have jobs_d : d.jobs = s.jobs := by rw [shape]; rfl
  have entered : s.jobsAfter q.link = s.jobs → s.KeptAll d := fun jobs => by
    refine .written queue (.of_ports ?_ ?_ ?_ ?_) ?_ ?_ nodup (jobs_d.trans jobs.symm) ?_ fun p => ?_
    all_goals
      rw [shape]
      rfl
  unfold State.answerWritten
  split
  · rename_i link
    have kept := entered (by rw [link]; rfl)
    split
    · exact State.slipFor_kept kept _
    · exact kept
  · rename_i link
    exact State.answer_kept (entered (by rw [link]; rfl)) _ _ _
  · rename_i j link
    have gone : s.KeptAll (d.setJob j none) := by
      refine .written queue (.of_ports ?_ ?_ ?_ ?_) ?_ ?_ nodup (by rw [link, State.setJob_jobs, jobs_d]; rfl) ?_ fun p => ?_
      all_goals
        rw [shape]
        rfl
    split
    · exact State.jobEnded_kept_of_busy (State.answer_kept gone _ _ _) busy _
    · rename_i none_
      refine entered ?_
      rw [link]
      rw [jobs_d] at none_
      show s.jobs.put j none = _
      rw [← none_]
      exact Vector.put_at _ _
  · rename_i link
    have kept := entered (by rw [link]; rfl)
    split
    · exact State.answer_kept (State.slipFor_kept kept _) _ _ _
    · exact kept

/-! ### The writer -/

/-- A change of the journal that leaves its queue, places and claims. -/
theorem State.updateJournal_aside (s : State) (f : Journal → Journal) (queue : (f s.journal).queue = s.journal.queue)
    (reserved : (f s.journal).reserved = s.journal.reserved) (claims : (f s.journal).claims = s.journal.claims) :
    s.Aside (s.updateJournal f) := ⟨rfl, rfl, rfl, rfl, rfl, rfl, queue, reserved, claims⟩

theorem State.stopJournal_kept {s₀ s : State} (h : s₀.KeptAll s) : s₀.KeptAll s.stopJournal :=
  State.raise_kept (h.trans (s.updateJournal_aside _ rfl rfl rfl).kept) _

theorem State.startNext_kept {s₀ s : State} (h : s₀.KeptAll s) : s₀.KeptAll s.startNext := by
  unfold State.startNext State.beginCheckpoint
  split
  · exact h.trans (s.updateJournal_aside _ rfl rfl rfl).kept
  · exact h.trans (s.updateJournal_aside _ rfl rfl rfl).kept

theorem State.afterRecord_kept {s₀ s : State} (h : s₀.KeptAll s) (before : Journal) : s₀.KeptAll (s.afterRecord before) := by
  unfold State.afterRecord
  split
  · exact State.stopJournal_kept h
  · split
    · exact h.trans (s.updateJournal_aside _ rfl rfl rfl).kept
    · exact State.startNext_kept h

theorem State.afterCheckpointRecord_kept {s₀ s : State} (h : s₀.KeptAll s) (before : Journal) (rest : List JRecord)
    (abandoned : Bool) : s₀.KeptAll (s.afterCheckpointRecord before rest abandoned) := by
  unfold State.afterCheckpointRecord
  split
  · exact State.stopJournal_kept h
  · split
    · split
      · exact h.trans (s.updateJournal_aside _ rfl rfl rfl).kept
      · exact State.startNext_kept h
    · split
      · exact h.trans (s.updateJournal_aside _ rfl rfl rfl).kept
      · exact h.trans (s.updateJournal_aside _ rfl rfl rfl).kept

theorem execRecordWriteEnds_kept {found : Option (List Byte)} {s t : State} (h : execRecordWriteEnds found s = .next t) :
    s.KeptAll t := by
  unfold execRecordWriteEnds at h
  cases h
  dsimp only
  split
  · rename_i q rest _ queue
    generalize readBack (recordSlot s.journal.nextSequence q.record) found = read
    split
    · exact State.settle_kept (State.afterRecord_kept (State.reportWritten_kept queue read.1) _)
    · exact State.stopJournal_kept (s.updateJournal_aside _ rfl rfl rfl).kept
  · exact .refl s

theorem execEraseEnds_kept {found : Option (List Byte)} {s t : State} (h : execEraseEnds found s = .next t) :
    s.KeptAll t := by
  unfold execEraseEnds at h
  cases h
  dsimp only
  generalize readBack (freshPage s.journal.pageSequence) found = read
  have erased : s.KeptAll (if read.2 = true then s.updateJournal fun j => j.pageDone read.1
      else (s.updateJournal fun j => j.putPage read.1).stopJournal) := by
    split
    · exact (s.updateJournal_aside _ rfl rfl rfl).kept
    · exact State.stopJournal_kept (s.updateJournal_aside _ rfl rfl rfl).kept
  generalize (if read.2 = true then s.updateJournal fun j => j.pageDone read.1
      else (s.updateJournal fun j => j.putPage read.1).stopJournal) = e at *
  split
  · split
    · exact State.startNext_kept erased
    · exact erased
  · split
    · exact erased
    · split
      · exact State.startNext_kept erased
      · exact erased.trans (e.updateJournal_aside _ rfl rfl rfl).kept
  all_goals exact .refl s

theorem execCheckpointRecordWriteEnds_kept {found : Option (List Byte)} {s t : State}
    (h : execCheckpointRecordWriteEnds found s = .next t) : s.KeptAll t := by
  unfold execCheckpointRecordWriteEnds at h
  cases h
  dsimp only
  split
  · rename_i r rest abandoned _
    generalize readBack (recordSlot s.journal.nextSequence r) found = read
    split
    · exact State.settle_kept (State.afterCheckpointRecord_kept (s.updateJournal_aside _ rfl rfl rfl).kept _ _ _)
    · exact State.stopJournal_kept (s.updateJournal_aside _ rfl rfl rfl).kept
  · exact .refl s

/-! ### Table-store writes that concern no printer, and the supply -/

theorem execReportingWriteEnds_kept {s t : State} (h : execReportingWriteEnds s = .next t) : s.KeptAll t := by
  unfold execReportingWriteEnds at h
  cases h
  split
  · refine State.answerIf_kept ?_ _ _ _
    exact State.Aside.kept ⟨rfl, rfl, rfl, rfl, rfl, rfl, rfl, rfl, rfl⟩
  · exact .refl s

theorem execCauseclearWriteEnds_kept {s t : State} (h : execCauseclearWriteEnds s = .next t) : s.KeptAll t := by
  unfold execCauseclearWriteEnds at h
  cases h
  split
  · refine State.answerIf_kept ?_ _ _ _
    exact State.Aside.kept ⟨rfl, rfl, rfl, rfl, rfl, rfl, rfl, rfl, rfl⟩
  · exact .refl s

theorem State.settleRunning_kept {s₀ s : State} (h : s₀.KeptAll s) : s₀.KeptAll s.settleRunning := by
  unfold State.settleRunning
  split
  · exact State.settle_kept h
  · exact h

theorem Journal.warned_rest (j : Journal) :
    j.warned.queue = j.queue ∧ j.warned.reserved = j.reserved ∧ j.warned.claims = j.claims := by
  unfold Journal.warned
  split <;> exact ⟨rfl, rfl, rfl⟩

theorem execWarningCrossingDown_kept {s t : State} (h : execWarningCrossingDown s = .next t) : s.KeptAll t := by
  unfold execWarningCrossingDown at h
  cases h
  split
  · obtain ⟨queue, reserved, claims⟩ := s.journal.warned_rest
    exact State.settleRunning_kept (State.Aside.kept ⟨rfl, rfl, rfl, rfl, rfl, rfl, queue, reserved, claims⟩)
  · exact .refl s

theorem execWarningCrossingUp_kept {s t : State} (h : execWarningCrossingUp s = .next t) : s.KeptAll t := by
  have resumed : ∀ u : State, s.KeptAll u → s.KeptAll u.resumeWriter := fun u kept => by
    unfold State.resumeWriter
    split
    · exact State.startNext_kept kept
    · exact kept
  unfold execWarningCrossingUp at h
  cases h
  split
  · refine State.settleRunning_kept (resumed _ (State.raise_kept ?_ _))
    exact State.Aside.kept ⟨rfl, rfl, rfl, rfl, rfl, rfl, rfl, rfl, rfl⟩
  · exact .refl s

end Sys2Proof.Machine
end

