-- ==== Sys2Proof/Proofs/LimitsOfRestarts.lean ====
section
/-! SUPPORT. A restart and recovery keep the limits (R173 to R178, R71). -/

namespace Sys2Proof.Machine

/-! ### Ports and stores set anew -/

/-- A port at which nothing stands and which takes no item. -/
structure Port.Bare (x : Port) : Prop where
  attached : x.attached = false
  window : x.window = 1
  entries : x.entries = []
  audit : x.audit = []
  slips : x.slips = []

theorem Port.Bare.sound {x : Port} (h : x.Bare) : x.sound := by
  obtain ⟨attached, window, entries, _, slips⟩ := h
  refine ⟨fun is => ?_, fun is => ?_, by omega, by omega, by rw [entries]; exact Nat.zero_le _, fun _ => entries,
    by rw [slips]; exact Nat.zero_le _⟩
  all_goals simp [Port.attached, is] at attached

theorem emptyPort_bare : emptyPort.Bare := ⟨rfl, rfl, rfl, rfl, rfl⟩

theorem Port.restarted_bare (function : PortFunction) (timeout : Nat) (hold : HoldSet) :
    (Port.restarted function timeout hold).Bare := by
  unfold Port.restarted
  split <;> exact ⟨rfl, rfl, rfl, rfl, rfl⟩

/-- No job stands anywhere, no place is reserved, and what waits or is claimed waits at a controller that runs. -/
structure State.Cleared (s : State) : Prop where
  room : s.journal.queue.length ≤ 32
  links : ∀ j, s.links j = 0
  reserved : s.journal.reserved = 0
  jobs : ∀ j : JobNumber, s.jobs.at j = none
  queues : ∀ p : Printer, s.queues.at p = []
  waiting : s.phase ≠ .running → s.journal.queue = [] ∧ s.journal.claims = []

/-- Every port is set anew and no item is sent. -/
structure State.Renews (s t : State) : Prop where
  ports : ∀ p : Printer, (t.ports.at p).Bare
  sent : ∃ ms, t.sent = s.sent ++ ms ∧ ∀ m ∈ ms, m.2.item? = none
  claims : s.journal.claims.Nodup → t.journal.claims.Nodup
  cleared : s.emptyUntilRunning → t.Cleared

theorem State.Cleared.held {t : State} (h : t.Cleared) (ports : ∀ p : Printer, (t.ports.at p).Bare) :
    t.RoomHeld ∧ t.PoolPlaced ∧ t.emptyUntilRunning := by
  have entries := fun p => (ports p).entries
  have marks : ∀ p j, t.marks p j = [] := fun p j => by
    unfold State.marks
    rw [entries]
    rfl
  have held : t.heldPlaces = 0 := by
    unfold State.heldPlaces Port.places
    simp [entries]
  refine ⟨⟨?_, h.reserved.trans held.symm, fun p e m => ?_⟩, ⟨fun j => ?_, fun p => ?_, fun p => ?_⟩, fun off => ?_⟩
  · have room := h.room
    rw [h.reserved]
    omega
  · rw [entries] at m
    cases m
  · exact .of_none (h.jobs j) (fun p => by rw [h.queues p]; exact List.not_mem_nil) (fun p => marks p j) (h.links j)
  · rw [h.queues p]
    exact List.nodup_nil
  · rw [entries]
    exact List.nodup_nil
  · obtain ⟨queue, claims⟩ := h.waiting off
    refine ⟨queue, h.reserved, claims, h.jobs, fun p => ⟨h.queues p, fun e m => ?_⟩⟩
    rw [entries] at m
    cases m

theorem State.Renews.limits {s t : State} (h : s.Renews t) : s.Limits t := by
  obtain ⟨ms, sent, none_⟩ := h.sent
  have items : ∀ p, s.itemsSent t p = [] := fun p => by
    rw [State.itemsSent_of_append sent]
    unfold itemsFor
    rw [List.filterMap_eq_nil_iff]
    intro m is
    rw [none_ m is]
    split <;> rfl
  have placed : t.ticketsPlaced := fun p e m => by
    rw [(h.ports p).entries] at m
    cases m
  refine ⟨fun g => ?_, fun g => ?_, h.claims, fun _ p => (h.ports p).sound, fun _ _ a => ⟨?_, fun p _ _ _ => ?_⟩, fun p => ?_⟩
  · obtain ⟨_, _, empty⟩ := s.roomSound_iff.mp g
    obtain ⟨held, _, until_⟩ := (h.cleared empty).held h.ports
    exact t.roomSound_iff.mpr ⟨held, placed, until_⟩
  · obtain ⟨_, _, empty⟩ := s.PoolSound_iff.mp g
    obtain ⟨_, pool, until_⟩ := (h.cleared empty).held h.ports
    exact t.PoolSound_iff.mpr ⟨pool, placed, until_⟩
  · rw [(h.ports a).audit]
    exact Nat.zero_le _
  · unfold State.auditLoad
    rw [(h.ports a).audit, (h.ports p).entries]
    exact Nat.zero_le _
  · refine ⟨⟨ms, sent.symm⟩, fun k n is => ?_, ?_, Or.inr (h.ports p).attached⟩
    · rw [items] at is
      cases is
    · unfold State.images
      rw [(h.ports p).entries]
      exact List.nil_sublist _

/-! ### A restart (R173, R174) -/

theorem State.restart_renews {s t : State} (sent : t.sent = s.sent) (cause : RestartCause) : s.Renews (t.restart cause) where
  ports p := by
    show ((Vector.replicate 12 emptyPort).at p).Bare
    rw [Vector.at_replicate]
    exact emptyPort_bare
  sent := ⟨[], by rw [List.append_nil]; exact sent, nofun⟩
  claims _ := List.nodup_nil
  cleared _ := ⟨Nat.zero_le _, fun _ => rfl, rfl, fun j => Vector.at_replicate 32 _ j, fun p => Vector.at_replicate 12 _ p,
    fun _ => ⟨rfl, rfl⟩⟩

theorem execFrameTransmitted_limits {w : Window} {s t : State} (h : execFrameTransmitted w s = .next t) : s.Limits t := by
  unfold execFrameTransmitted at h
  cases h
  split
  · exact (State.KeptAll.refl s).limits
  · dsimp only
    split
    · exact (State.restart_renews rfl _).limits
    · exact (State.setOffice_kept (.refl s) _ _).limits

/-! ### Recovery begins (R176) -/

theorem factory_function (s : State) (p : Printer) (factory : s.store.tables = factoryTables) : s.function p = .off := by
  unfold State.function State.printerEntry
  rw [factory]
  show ((Vector.replicate 12 factoryPrinter).at p).function = .off
  rw [Vector.at_replicate]
  rfl

theorem State.beginRecovery_limits {s : State} {cause : RestartCause} (off : s.phase ≠ .running) :
    s.Limits (s.beginRecovery cause) := by
  have journal : (s.beginRecovery cause).journal.queue = s.journal.queue ∧
      (s.beginRecovery cause).journal.reserved = s.journal.reserved ∧
      (s.beginRecovery cause).journal.claims = s.journal.claims := by
    unfold State.beginRecovery
    dsimp only
    split <;> exact ⟨rfl, rfl, rfl⟩
  obtain ⟨queue, reserved, claims⟩ := journal
  have empty : s.emptyUntilRunning → (s.beginRecovery cause).emptyUntilRunning := fun h _ => by
    obtain ⟨a, b, c, rest⟩ := h off
    exact ⟨queue.trans a, reserved.trans b, claims.trans c, rest⟩
  have placed : s.emptyUntilRunning → (s.beginRecovery cause).ticketsPlaced := fun h p e m ticket =>
    absurd (((h off).2.2.2.2 p).2 e m) ticket
  refine ⟨fun g => ?_, fun g => ?_, fun g => by rw [claims]; exact g, fun g p => g p,
    fun _ g a => ⟨(g a).1, fun p ticket asked named => ?_⟩, fun p => .of_same rfl rfl rfl⟩
  · obtain ⟨held, _, none_⟩ := s.roomSound_iff.mp g
    exact (State.roomSound_iff _).mpr ⟨held.congr (by rw [queue]) reserved fun _ => rfl, placed none_, empty none_⟩
  · obtain ⟨pool, _, none_⟩ := s.PoolSound_iff.mp g
    exact (State.PoolSound_iff _).mpr ⟨pool.congr rfl rfl (fun _ => rfl) fun j => by unfold State.links; rw [queue],
      placed none_, empty none_⟩
  · by_cases valid : s.store.valid = true
    · have tables : (s.beginRecovery cause).store.tables = s.store.tables := by
        unfold State.beginRecovery TableStore.loadedContents
        rw [if_pos valid]
      have entry : (s.beginRecovery cause).printerEntry p = s.printerEntry p := by
        unfold State.printerEntry
        rw [tables]
      rw [State.function, entry] at ticket
      rw [entry] at asked
      rw [State.auditPort_congr (congrArg Tables.printers tables)] at named
      exact (g a).2 p ticket asked named
    · have factory : (s.beginRecovery cause).store.tables = factoryTables := by
        unfold State.beginRecovery TableStore.loadedContents
        rw [if_neg valid]
      rw [factory_function _ p factory] at ticket
      cases ticket

theorem execRecoveryBegins_limits {s t : State} (h : execRecoveryBegins s = .next t) : s.Limits t := by
  unfold execRecoveryBegins at h
  cases h
  split
  · rename_i cause phase
    exact State.beginRecovery_limits (by rw [phase]; exact nofun)
  · exact (State.KeptAll.refl s).limits
  · exact (State.KeptAll.refl s).limits

/-! ### Replay and the third step (R166, R178) -/

theorem State.Aside.trans {s t u : State} (a : s.Aside t) (b : t.Aside u) : s.Aside u :=
  ⟨b.phase.trans a.phase, b.printers.trans a.printers, b.jobs.trans a.jobs, b.queues.trans a.queues, b.ports.trans a.ports,
    b.sent.trans a.sent, b.queue.trans a.queue, b.reserved.trans a.reserved, b.claims.trans a.claims⟩

theorem Journal.placeHead_rest (j : Journal) (head : Fin 128 × Nat) (last : Option FoundSlot) :
    (j.placeHead head last).queue = j.queue ∧ (j.placeHead head last).reserved = j.reserved ∧
      (j.placeHead head last).claims = j.claims := by
  unfold Journal.placeHead
  dsimp only
  split
  · split
    · split <;> exact ⟨rfl, rfl, rfl⟩
    · exact ⟨rfl, rfl, rfl⟩
  · split <;> exact ⟨rfl, rfl, rfl⟩

theorem State.startNext_aside (s : State) : s.Aside s.startNext := by
  have hands := s.startNext_hands
  exact ⟨by rw [hands.rest], by rw [hands.store], hands.jobs, hands.queues, hands.ports, hands.sent, s.startNext_queue,
    s.startNext_reserved, hands.claims⟩

theorem State.stopJournal_aside (s : State) : s.Aside s.stopJournal :=
  (s.updateJournal_aside _ rfl rfl rfl).trans (State.raise_notes _ _).aside

theorem State.startWriter_aside (s : State) : s.Aside s.startWriter := by
  unfold State.startWriter
  split
  · exact s.startNext_aside
  · exact ⟨rfl, rfl, rfl, rfl, rfl, rfl, rfl, rfl, rfl⟩

theorem State.replay_aside (s : State) (cause : RestartCause) : s.Aside (s.replay cause).1 := by
  unfold State.replay
  split
  · exact s.updateJournal_aside _ rfl rfl rfl
  · rename_i f _
    dsimp only
    have rebuilt : ∀ g : Journal → Journal, (g s.journal).queue = s.journal.queue → (g s.journal).reserved = s.journal.reserved →
        (g s.journal).claims = s.journal.claims →
        s.Aside (State.updateJournal { s with stock := f.stock, standing := f.stock, sessions := f.sessions } g) :=
      fun g queue reserved claims => ⟨rfl, rfl, rfl, rfl, rfl, rfl, queue, reserved, claims⟩
    obtain ⟨queue, reserved, claims⟩ := s.journal.placeHead_rest f.head f.lastSlot
    have after := rebuilt (fun j => j.afterReplay f) queue reserved claims
    split
    · split
      · exact rebuilt _ rfl rfl rfl
      · exact after.trans (State.stopJournal_aside _)
    · exact after.trans (State.startWriter_aside _)

theorem State.recordReport_notes (s : State) (r : Report) : s.Notes (s.recordReport r) := by
  cases r with
  | occurred c => exact State.recordOccurrence_notes s c
  | ended c => exact ⟨rfl⟩

theorem State.recordWaiting_notes (s : State) : s.Notes s.recordWaiting := by
  have fold : ∀ (l : List Report) (t : State), s.Notes t → s.Notes (l.foldl State.recordReport t) := by
    intro l
    induction l with
    | nil => exact fun _ notes => notes
    | cons r l ih => exact fun t notes => ih _ (notes.trans (t.recordReport_notes r))
  exact fold s.monitor.waiting _ ⟨rfl⟩

/-- Engines set anew send ENQUIREs alone. -/
theorem State.restartPorts_sent (l : List Printer) (s : State) :
    ∃ ms, (l.foldl State.restartPort s).sent = s.sent ++ ms ∧ ∀ m ∈ ms, m.2.item? = none := by
  induction l generalizing s with
  | nil => exact ⟨[], (List.append_nil _).symm, nofun⟩
  | cons p l ih =>
    have own : ∃ ms, (s.restartPort p).sent = s.sent ++ ms ∧ ∀ m ∈ ms, m.2.item? = none := by
      unfold State.restartPort
      dsimp only
      split
      · exact ⟨[], (List.append_nil _).symm, nofun⟩
      · exact ⟨[(p, .enquire)], rfl, fun m is => by rw [List.mem_singleton.mp is]; rfl⟩
    obtain ⟨ms, sent, none_⟩ := own
    obtain ⟨ns, later, none_'⟩ := ih (s.restartPort p)
    refine ⟨ms ++ ns, ?_, fun m is => ?_⟩
    · rw [List.foldl_cons, later, sent, List.append_assoc]
    · rcases List.mem_append.mp is with is | is
      · exact none_ m is
      · exact none_' m is

/-- Recovery's third step from a controller that did not run (R178). -/
theorem State.recovered_renews {s u : State} (aside : s.Aside u) (off : s.phase ≠ .running) (cause : RestartCause)
    (last : Nat) : s.Renews (u.recovered cause last) := by
  obtain ⟨hands, queue, reserved⟩ := u.hand_effect (.restart cause last) .nothing
  obtain ⟨_, _, ports⟩ := u.recovered_effect cause last
  have notes := (u.hand (.restart cause last) .nothing).recordWaiting_notes.aside
  obtain ⟨rest, _⟩ := (u.hand (.restart cause last) .nothing).recordWaiting.restartPorts_effect allPrinters
  obtain ⟨ms, sent, none_⟩ := State.restartPorts_sent allPrinters (u.hand (.restart cause last) .nothing).recordWaiting
  unfold State.recovered at *
  generalize u.hand (.restart cause last) .nothing = h at *
  generalize h.recordWaiting = w at *
  generalize allPrinters.foldl State.restartPort w = v at *
  have journal : v.journal = w.journal := by rw [rest]
  refine ⟨fun p => ?_, ⟨ms, ?_, none_⟩, fun g => ?_, fun empty => ?_⟩
  · rw [ports p]
    exact Port.restarted_bare ..
  · show v.sent = _
    rw [sent, notes.sent, hands.sent, aside.sent]
  · show v.journal.claims.Nodup
    rw [journal, notes.claims, hands.claims, aside.claims]
    exact g
  · obtain ⟨none_queue, none_reserved, _, none_jobs, none_queues⟩ := empty off
    have one : v.journal.queue = [{ record := .restart cause last, link := .nothing }] := by
      rw [journal, notes.queue, queue, aside.queue, none_queue]
      rfl
    refine ⟨?_, fun j => ?_, ?_, fun j => ?_, fun p => ?_, fun no => absurd rfl no⟩
    · show v.journal.queue.length ≤ 32
      rw [one, List.length_singleton]
      omega
    · show v.journal.queue.countP _ = 0
      rw [one]
      rfl
    · show v.journal.reserved = 0
      rw [journal, notes.reserved, reserved, aside.reserved, none_reserved]
    · show v.jobs.at j = none
      have jobs : v.jobs = w.jobs := by rw [rest]
      rw [jobs, notes.jobs, hands.jobs, aside.jobs]
      exact none_jobs j
    · show v.queues.at p = []
      have queues : v.queues = w.queues := by rw [rest]
      rw [queues, notes.queues, hands.queues, aside.queues]
      exact (none_queues p).1

theorem execCauseWriteEnds_limits {s t : State} (h : execCauseWriteEnds s = .next t) : s.Limits t := by
  unfold execCauseWriteEnds at h
  cases h
  split
  · rename_i cause _ phase _
    unfold State.finishRecovery
    dsimp only
    rw [State.completeRecovery_eq]
    have stored : s.Aside { s with store :=
        { s.store with valid := true, causes := s.store.causes.put cause.place true, write := none } } :=
      ⟨rfl, rfl, rfl, rfl, rfl, rfl, rfl, rfl, rfl⟩
    have renews := State.recovered_renews (stored.trans (State.replay_aside _ cause)) (by rw [phase]; exact nofun) cause
      (State.replay { s with store :=
        { s.store with valid := true, causes := s.store.causes.put cause.place true, write := none } } cause).2
    exact renews.limits.then (State.settle_kept (.refl _))
  · exact (State.KeptAll.refl s).limits

end Sys2Proof.Machine
end

