-- ==== Sys2Proof/Proofs/LimitsOfLoads.lean ====
section
/-! SUPPORT. The end of a TABLELOAD's write keeps the limits (R69, R190, R193). -/

namespace Sys2Proof.Machine

/-! ### The load stored -/

/-- An entry of a table after entries were replaced is the one before or one of those put in. -/
theorem replaceEntries_at {α : Type} {n : Nat} (es : List (Fin n × α)) (t : Tab α n) (i : Fin n) :
    (replaceEntries t es).at i = t.at i ∨ ∃ e ∈ es, e.1 = i ∧ e.2 = (replaceEntries t es).at i := by
  induction es generalizing t with
  | nil => exact Or.inl rfl
  | cons e es ih =>
    have shape : replaceEntries t (e :: es) = replaceEntries (t.put e.1 e.2) es := rfl
    rw [shape]
    rcases ih (t.put e.1 e.2) with same | ⟨f, m, at_, is⟩
    · rw [Vector.at_put] at same
      split at same
      · rename_i own
        exact Or.inr ⟨e, List.mem_cons_self, own, same.symm⟩
      · exact Or.inl same
    · exact Or.inr ⟨f, List.mem_cons_of_mem e m, at_, is⟩

/-- The windows of the ports whose entries a load changes are empty (R191 check 4). -/
theorem State.changed_window {s : State} {es : List (Printer × PrinterEntry)} (free : s.changesBusyPort (.printers es) = false)
    {p : Printer} (changed : s.store.tables.printers.at p ≠ (replaceEntries s.store.tables.printers es).at p) :
    (s.ports.at p).entries = [] := by
  rcases replaceEntries_at es s.store.tables.printers p with same | ⟨e, m, rfl, is⟩
  · exact absurd same.symm changed
  · unfold State.changesBusyPort at free
    have here := List.any_eq_false.mp free e m
    rw [← is] at changed
    by_contra busy
    exact here (by simp [State.printerEntry, changed, busy])

theorem State.loadStored_printers (s : State) (es : List (Printer × PrinterEntry)) (reply : Option Reply) :
    (s.loadStored es reply).store.tables.printers = replaceEntries s.store.tables.printers es := by
  rw [s.loadStored_rest]
  rfl

/-- The load stored, before it acts. -/
theorem State.loadStored_keptPool {s : State} {es : List (Printer × PrinterEntry)}
    (free : s.changesBusyPort (.printers es) = false) (reply : Option Reply) : s.KeptPool (s.loadStored es reply) := by
  have printers := s.loadStored_printers es reply
  have rest := s.loadStored_rest es reply
  generalize s.loadStored es reply = t at *
  have ports : t.ports = s.ports := by rw [rest]
  have journal : t.journal = s.journal := by rw [rest]
  have jobs : t.jobs = s.jobs := by rw [rest]
  have queues : t.queues = s.queues := by rw [rest]
  have sent : t.sent = s.sent := by rw [rest]
  have phase : t.phase = s.phase := by rw [rest]
  have none_ : ∀ p, s.itemsSent t p = [] := fun p => State.itemsSent_of_append (ms := []) (by rw [sent, List.append_nil]) p
  refine ⟨⟨phase, fun _ e => ?_, fun g p e m ticket => ?_, fun _ _ g => g.congr (by rw [journal]) (by rw [journal])
    fun p => by rw [ports], fun g => by rw [journal]; exact g, fun g p => by rw [ports]; exact g p, fun p => ?_⟩,
    fun _ _ g => g.congr jobs queues (fun p => by rw [ports]) fun j => by unfold State.links; rw [journal]⟩
  · obtain ⟨a, b, c, d, e, f⟩ := e
    exact ⟨by rw [journal]; exact a, by rw [journal]; exact b, by rw [journal]; exact c, by rw [jobs]; exact d,
      by rw [queues]; exact e, by rw [ports]; exact f⟩
  · rw [ports] at m
    have same : t.printerEntry p = s.printerEntry p := by
      by_contra changed
      have empty : (s.ports.at p).entries = [] := State.changed_window free fun same => changed (by
        unfold State.printerEntry
        rw [printers, same])
      rw [empty] at m
      cases m
    unfold State.function
    rw [same]
    exact g p e m ticket
  · obtain ⟨before, items, images, next⟩ := State.Turned.of_same (p := p) sent (by rw [ports]) (by rw [ports])
    exact ⟨before, items, images, next, fun off => ⟨none_ p, by rw [ports]; exact off⟩⟩

/-! ### The load acts -/

section Acts

variable {s₀ s : State} (h : s₀.KeptAll s)

include h

theorem State.endPresent_kept (p : Printer) (c : PrinterFault) (present : Bool) : s₀.KeptAll (s.endPresent p c present) := by
  unfold State.endPresent
  split
  · exact State.endCondition_kept h _
  · exact h

theorem State.clearRuns_kept (p : Printer) : s₀.KeptAll (s.clearRuns p) :=
  State.KeptAll.foldl (q := fun _ => True) _ h trivial fun _ _ kept _ => ⟨State.setFilter_kept kept _ _ _, trivial⟩

theorem State.endFiltered_kept (p : Printer) : s₀.KeptAll (s.endFiltered p) := by
  refine State.KeptAll.foldl (q := fun _ => True) _ h trivial fun t c kept _ => ⟨?_, trivial⟩
  split
  · exact State.sensedEnds_kept (State.setFilter_kept kept _ _ _) _ _
  · exact State.setFilter_kept kept _ _ _

/-- A changed entry at a port with an empty window. -/
theorem State.applyEntry_kept {p : Printer} (empty : (s.ports.at p).entries = []) (old : PrinterEntry) :
    s₀.KeptAll (s.applyEntry p old) := by
  have ended := State.endPresent_kept (State.endPresent_kept h p .protocol (s.monitor.lasting.at p).protocol) p .overrun
    (s.monitor.lasting.at p).overrun
  have ports : ∀ (t : State) (c : PrinterFault) (present : Bool), (t.endPresent p c present).ports = t.ports := by
    intro t c present
    unfold State.endPresent
    split
    · exact (State.endCondition_notes _ _).ports
    · rfl
  have empty' : (((s.endPresent p .protocol (s.monitor.lasting.at p).protocol).endPresent p .overrun
      (s.monitor.lasting.at p).overrun).ports.at p).entries = [] := by
    rw [ports, ports]
    exact empty
  unfold State.applyEntry
  dsimp only
  generalize (s.endPresent p .protocol _).endPresent p .overrun _ = t at *
  have cleared : s₀.KeptAll (if old.filterDepth = (s.printerEntry p).filterDepth then t else t.clearRuns p) ∧
      ((if old.filterDepth = (s.printerEntry p).filterDepth then t else t.clearRuns p).ports.at p).entries = [] := by
    split
    · exact ⟨ended, empty'⟩
    · refine ⟨State.clearRuns_kept ended p, ?_⟩
      rw [(t.clearRuns_at p).2.1]
      exact empty'
  generalize (if old.filterDepth = (s.printerEntry p).filterDepth then t else t.clearRuns p) = u at *
  obtain ⟨kept, none_⟩ := cleared
  split
  · refine State.endFiltered_kept (State.updatePort_kept (State.endPresent_kept kept _ _ _) p (fun x => { x with
      state := .unused, attachTimer := none, pollTimer := none, replyTimer := none, absentTimer := none }) ?_ rfl) p
    refine .of_leaving rfl rfl ?_ rfl rfl
    rw [ports]
    exact none_
  · exact State.beginAttach_kept kept p none_

theorem State.becomesTicket_kept (p : Printer) : s₀.KeptAll (s.becomesTicket p) := by
  have held : ∀ (t : State) (q : Prop) [Decidable q] (r : HoldReason), s₀.KeptAll t →
      s₀.KeptAll (if q then t.addHold p r else t) := by
    intro t q _ r kept
    split
    · exact State.addHold_kept kept p r
    · exact kept
  unfold State.becomesTicket
  split
  · exact State.addHold_kept h p _
  · exact held _ _ _ (held _ _ _ h)

theorem State.applyFunction_kept (p : Printer) (old : PrinterEntry) : s₀.KeptAll (s.applyFunction p old) := by
  have left : s₀.KeptAll (if old.function = (s.printerEntry p).function then s
      else
        match old.function with
        | .ticket => (((s.removeHold p .noStock).removeHold p .stockUnverified).removeHold p .audit).refuseQueue p
        | .audit => s.updatePort p fun x => { x with audit := [] }
        | .report => s.updatePort p fun x => { x with slips := [] }
        | .off => s) := by
    split
    · exact h
    · split
      · exact State.refuseQueue_kept (State.removeHold_kept (State.removeHold_kept (State.removeHold_kept h _ _) _ _) _ _) p
      · exact State.updatePort_kept h p (fun x => { x with audit := [] })
          ⟨id, .refl _, fun e m k => ⟨e, m, k⟩, Nat.zero_le _, Or.inl rfl, id⟩ rfl
      · exact State.updatePort_kept h p (fun x => { x with slips := [] })
          ⟨fun ⟨a, b, c, d, e, f, _⟩ => ⟨a, b, c, d, e, f, Nat.zero_le _⟩, .refl _, fun e m k => ⟨e, m, k⟩, Nat.le_refl _,
            Or.inl rfl, id⟩ rfl
      · exact h
  have joined : ∀ (t : State) (q : Prop) [Decidable q], s₀.KeptAll t → s₀.KeptAll (if q then t.becomesTicket p else t) := by
    intro t q _ kept
    split
    · exact State.becomesTicket_kept kept p
    · exact kept
  have tested : ∀ (t : State) (q : Prop) [Decidable q], s₀.KeptAll t → s₀.KeptAll (if q then t else t.lowStockTest p) := by
    intro t q _ kept
    split
    · exact kept
    · exact State.lowStockTest_kept kept p
  unfold State.applyFunction
  exact tested _ _ (joined _ _ left)

end Acts

theorem State.printerTableWritten_kept {s : State} {before : Tab PrinterEntry 12}
    (empty : ∀ p ∈ changedPorts before s.store.tables.printers, (s.ports.at p).entries = []) :
    s.KeptAll (s.printerTableWritten before) := by
  have entries : ∀ (l : List Printer) (t : State), (∀ p ∈ l, (t.ports.at p).entries = []) → s.KeptAll t →
      s.KeptAll (l.foldl (fun t p => t.applyEntry p (before.at p)) t) := by
    intro l
    induction l with
    | nil => exact fun _ _ kept => kept
    | cons p l ih =>
      intro t none_ kept
      refine ih _ (fun q m => ?_) (State.applyEntry_kept kept (none_ p List.mem_cons_self) _)
      have applied := t.applyEntry_applied p (before.at p)
      have stood := none_ q (List.mem_cons_of_mem p m)
      by_cases same : q = p
      · rw [same] at stood ⊢
        by_cases off : (t.printerEntry p).function = .off
        · rw [(applied.off off).1]
          exact stood
        · rw [(applied.attach off).1]
          exact stood
      · rw [applied.ports q same]
        exact stood
  rw [State.printerTableWritten_eq]
  exact State.settle_kept (State.KeptAll.foldl (q := fun _ => True) _ (entries _ s empty (.refl s)) trivial
    fun _ p kept _ => ⟨State.applyFunction_kept kept p _, trivial⟩)

/-! ### Audit lines through a load -/

/-- No audit queue grows. -/
def State.AuditShrinks (s t : State) : Prop := ∀ a : Printer, (t.ports.at a).audit.length ≤ (s.ports.at a).audit.length

theorem State.AuditShrinks.of_ports {s t : State} (ports : t.ports = s.ports) : s.AuditShrinks t := fun a => by rw [ports]

theorem State.AuditShrinks.trans {s t u : State} (a : s.AuditShrinks t) (b : t.AuditShrinks u) : s.AuditShrinks u :=
  fun p => Nat.le_trans (b p) (a p)

theorem Port.refitted_audit (x : Port) (old new : PortFunction) (batch : Option Batch) :
    (x.refitted old new batch).audit.length ≤ x.audit.length := by
  have left : (x.unfitted old new).audit.length ≤ x.audit.length := by
    unfold Port.unfitted
    split
    · exact Nat.le_refl _
    · split
      · exact Nat.le_refl _
      · exact Nat.zero_le _
      · exact Nat.le_refl _
      · exact Nat.le_refl _
  have joins : ∀ y : Port, (y.joinsTicket batch).audit = y.audit := by
    intro y
    unfold Port.joinsTicket
    split
    · rfl
    · dsimp only
      split
      · split <;> rfl
      · split <;> rfl
  unfold Port.refitted
  split
  · rw [joins]
    exact left
  · exact left

theorem State.functionsApplied_audit (before : Tab PrinterEntry 12) {ports : List Printer} :
    ∀ {s : State}, (∀ q ∈ ports, (s.ports.at q).idle) → s.AuditShrinks (s.functionsApplied before ports) := by
  induction ports with
  | nil => exact fun {s} _ => .of_ports rfl
  | cons q ports ih =>
    intro s idle
    have first := State.applyFunction_applied (idle q List.mem_cons_self) (before.at q)
    obtain ⟨apart, states, _⟩ := first.rest
    have own : s.AuditShrinks (s.applyFunction q (before.at q)) := fun a => by
      by_cases same : a = q
      · rw [same, first.port]
        exact Port.refitted_audit _ _ _ _
      · rw [(apart a same).port]
    exact own.trans (ih fun r m => (idle r (List.mem_cons_of_mem q m)).of_state (states r))

theorem State.Tests.audit {s t : State} (h : s.Tests t) : s.AuditShrinks t := fun a => by
  have same := congrArg Port.audit (h.ports a).rest
  dsimp only at same
  rw [same]

theorem State.printerTableWritten_audit (s : State) (before : Tab PrinterEntry 12) :
    s.AuditShrinks (s.printerTableWritten before) := by
  have taken := s.entriesApplied_at before
  have first : s.AuditShrinks (s.entriesApplied before) := fun a => by
    obtain ⟨apart, changed⟩ := taken a
    by_cases same : before.at a = s.printerEntry a
    · rw [(apart same).port]
    · by_cases off : (s.printerEntry a).function = .off
      · rw [((changed same).off off).1]
      · rw [((changed same).attach off).1]
  have idle : ∀ q ∈ changedPorts before s.store.tables.printers, ((s.entriesApplied before).ports.at q).idle :=
    fun q m => ((taken q).2 ((mem_changedPorts _ _ q).mp m)).idle
  rw [State.printerTableWritten_eq]
  exact (first.trans (State.functionsApplied_audit before idle)).trans (State.settle_tests _).audit

/-! ### The end of the write -/

/-- What the end of a TABLELOAD's write is. -/
theorem execTableloadWriteEnds_cases {s t : State} (h : execTableloadWriteEnds s = .next t) :
    s.Aside t ∨ ∃ es reply, s.store.write = some (.tableload (.printers es) reply) ∧
      s.changesBusyPort (.printers es) = false ∧ t = (s.loadStored es reply).printerTableWritten s.store.tables.printers := by
  have answered : ∀ (u : State) (r : Option Reply) (code : AnswerCode), s.Aside u → s.Aside (u.answerIf r code .nothing) := by
    intro u r code aside
    cases r with
    | none => exact aside
    | some r => exact aside.trans ⟨rfl, rfl, rfl, rfl, rfl, rfl, rfl, rfl, rfl⟩
  unfold execTableloadWriteEnds at h
  split at h
  · rename_i load reply writing
    dsimp only at h
    split at h
    · cases h
      exact Or.inl (answered _ _ _ ⟨rfl, rfl, rfl, rfl, rfl, rfl, rfl, rfl, rfl⟩)
    · rename_i free
      split at h
      · rename_i printers
        cases load with
        | printers es =>
          exact Or.inr ⟨es, reply, writing, Bool.eq_false_of_not_eq_true free, (Host.Outcome.next.inj h).symm⟩
        | _ => cases printers
      · rename_i other
        cases h
        refine Or.inl (answered _ _ _ ⟨rfl, ?_, rfl, rfl, rfl, rfl, rfl, rfl, rfl⟩)
        cases load with
        | printers es => exact absurd rfl other
        | _ => rfl
  · cases h
    exact Or.inl ⟨rfl, rfl, rfl, rfl, rfl, rfl, rfl, rfl, rfl⟩

theorem execTableloadWriteEnds_kept {s t : State} (h : execTableloadWriteEnds s = .next t) : s.KeptPool t := by
  rcases execTableloadWriteEnds_cases h with aside | ⟨es, reply, _, free, acts⟩
  · exact aside.kept.toKeptPool
  · rw [acts]
    refine (State.loadStored_keptPool free reply).trans (State.printerTableWritten_kept fun p m => ?_).toKeptPool
    have changed := (mem_changedPorts _ _ p).mp m
    rw [State.loadStored_printers] at changed
    have ports : (s.loadStored es reply).ports = s.ports := by rw [s.loadStored_rest]
    rw [ports]
    exact State.changed_window free changed

theorem execTableloadWriteEnds_audit {s t : State} (h : execTableloadWriteEnds s = .next t) : s.AuditShrinks t := by
  rcases execTableloadWriteEnds_cases h with aside | ⟨es, reply, _, _, acts⟩
  · exact .of_ports aside.ports
  · rw [acts]
    have stored : s.AuditShrinks (s.loadStored es reply) := .of_ports (by rw [s.loadStored_rest])
    exact stored.trans (State.printerTableWritten_audit _ _)

end Sys2Proof.Machine
end

