-- ==== Sys2Proof/Proofs/SessionNumbers.lean ====
section
/-! SUPPORT. Session numbers, current sessions and clerks: what leaves them in order, and the number of a new session
(R93, R94). -/

namespace Sys2Proof.Machine

/-! ### Records of the table -/

theorem mem_allRecords (i : Fin 24) : i ∈ allRecords := by
  revert i
  decide

theorem SessionUnit.find_some {u : SessionUnit} {q : Session → Bool} {i : Fin 24} (h : u.find q = some i) :
    ∃ x, u.table.at i = some x ∧ q x = true :=
  (Option.any_eq_true _ _).mp (List.find?_some (p := fun i => (u.table.at i).any q) h)

theorem SessionUnit.find_none {u : SessionUnit} {q : Session → Bool} (h : u.find q = none) {i : Fin 24} {x : Session}
    (at_ : u.table.at i = some x) : q x = false := by
  have no := List.find?_eq_none.mp h i (mem_allRecords i)
  rw [at_] at no
  simpa using no

theorem SessionUnit.get_some {u : SessionUnit} {q : Session → Bool} {x : Session} (h : u.get q = some x) :
    ∃ i, u.find q = some i ∧ u.table.at i = some x ∧ q x = true := by
  obtain ⟨i, found, at_⟩ := Option.bind_eq_some_iff.mp h
  obtain ⟨y, here, holds⟩ := SessionUnit.find_some found
  cases at_.symm.trans here
  exact ⟨i, found, here, holds⟩

theorem SessionUnit.get_none {u : SessionUnit} {q : Session → Bool} (h : u.get q = none) {i : Fin 24} {x : Session}
    (at_ : u.table.at i = some x) : q x = false := by
  refine SessionUnit.find_none (u := u) ?_ at_
  cases found : u.find q with
  | none => rfl
  | some j =>
    obtain ⟨y, here, _⟩ := SessionUnit.find_some found
    unfold SessionUnit.get at h
    rw [found, Option.bind_some, here] at h
    cases h

/-! ### Sessions that stand -/

/-- A session keeps its number, its window and its clerk, and is current only if it was. -/
structure Session.Stands (x y : Session) : Prop where
  number : y.number = x.number
  window : y.window = x.window
  clerk : y.clerk = x.clerk
  current : y.current = true → x.current = true

theorem Session.Stands.refl (x : Session) : x.Stands x := ⟨rfl, rfl, rfl, id⟩

theorem Session.Stands.of_state {x y : Session} (number : y.number = x.number) (window : y.window = x.window)
    (clerk : y.clerk = x.clerk) (state : y.state = x.state) : x.Stands y := by
  refine ⟨number, window, clerk, fun is => ?_⟩
  unfold Session.current at is ⊢
  rw [← state]
  exact is

theorem Session.Stands.of_left {x y : Session} (number : y.number = x.number) (window : y.window = x.window)
    (clerk : y.clerk = x.clerk) (left : y.current = false) : x.Stands y :=
  ⟨number, window, clerk, fun is => by rw [left] at is; cases is⟩

/-- Sessions only leave, and those that stay stand. -/
structure SessionUnit.Steady (u v : SessionUnit) : Prop where
  nextNumber : v.nextNumber = u.nextNumber
  table : ∀ (i : Fin 24) (y : Session), v.table.at i = some y → ∃ x, u.table.at i = some x ∧ x.Stands y

theorem SessionUnit.Steady.of_table {u v : SessionUnit} (nextNumber : v.nextNumber = u.nextNumber)
    (table : v.table = u.table) : u.Steady v :=
  ⟨nextNumber, fun _ y at_ => ⟨y, table ▸ at_, .refl y⟩⟩

theorem SessionUnit.Steady.sound {u v : SessionUnit} (h : u.Steady v) (g : u.sound) : v.sound := by
  obtain ⟨low, high, each⟩ := g
  refine ⟨by rw [h.nextNumber]; exact low, by rw [h.nextNumber]; exact high, fun i y at_ => ?_⟩
  obtain ⟨x, here, stands⟩ := h.table i y at_
  obtain ⟨least, most, others⟩ := each i x here
  refine ⟨by rw [stands.number]; exact least, by rw [stands.number]; exact most, fun k other z there => ?_⟩
  obtain ⟨w, place, stands'⟩ := h.table k z there
  obtain ⟨number, apart⟩ := others k other w place
  rw [stands.number, stands'.number, stands.window, stands'.window, stands.clerk, stands'.clerk]
  exact ⟨number, fun a b => apart (stands.current a) (stands'.current b)⟩

/-- One session changes and stands. -/
theorem SessionUnit.modify_steady_of {u : SessionUnit} {n : Nat} {f : Session → Session}
    (stands : ∀ i x, u.table.at i = some x → x.number = n → x.Stands (f x)) : u.Steady (u.modify n f) := by
  refine ⟨SessionUnit.modify_nextNumber .., fun i y at_ => ?_⟩
  rw [SessionUnit.modify_at] at at_
  split at at_
  · rename_i found
    obtain ⟨x, here, number⟩ := SessionUnit.find_some found
    rw [here] at at_
    cases at_
    exact ⟨x, here, stands i x here (by simpa using number)⟩
  · exact ⟨y, at_, .refl y⟩

theorem SessionUnit.modify_steady (u : SessionUnit) (n : Nat) {f : Session → Session} (stands : ∀ x : Session, x.Stands (f x)) :
    u.Steady (u.modify n f) := SessionUnit.modify_steady_of fun _ x _ _ => stands x

theorem SessionUnit.Steady.of_books {u v : SessionUnit} (nextNumber : v.nextNumber = u.nextNumber)
    (books : ∀ i, (v.table.at i).map Session.books = (u.table.at i).map Session.books) : u.Steady v := by
  refine ⟨nextNumber, fun i y at_ => ?_⟩
  have same := books i
  rw [at_, Option.map_some] at same
  obtain ⟨x, here, books⟩ := Option.map_eq_some_iff.mp same.symm
  have number := congrArg Session.number books
  have window := congrArg Session.window books
  have clerk := congrArg Session.clerk books
  have state := congrArg Session.state books
  exact ⟨x, here, .of_state number.symm window.symm clerk.symm state.symm⟩

theorem State.SameBooks.steady {s t : State} (h : s.SameBooks t) : s.sessions.Steady t.sessions := .of_books h.nextNumber h.sessions

/-! ### Written records -/

theorem SessionUnit.addFigures_steady (u : SessionUnit) (r : JRecord) : u.Steady (u.addFigures r) := by
  have figures : ∀ (n : Nat) (f : Session → Session), (∀ x, (f x).number = x.number ∧ (f x).window = x.window ∧
      (f x).clerk = x.clerk ∧ (f x).state = x.state) → u.Steady (u.modify n f) := fun n f same =>
    u.modify_steady n fun x => by
      obtain ⟨number, window, clerk, state⟩ := same x
      exact .of_state number window clerk state
  unfold SessionUnit.addFigures
  split
  · exact figures _ _ fun _ => ⟨rfl, rfl, rfl, rfl⟩
  · exact figures _ _ fun _ => ⟨rfl, rfl, rfl, rfl⟩
  · exact figures _ _ fun _ => ⟨rfl, rfl, rfl, rfl⟩
  · exact figures _ _ fun _ => ⟨rfl, rfl, rfl, rfl⟩
  · exact figures _ _ fun _ => ⟨rfl, rfl, rfl, rfl⟩
  · exact .of_table rfl rfl

/-- A declaration ends no one's being current and makes no one current (R121). -/
theorem Session.declared_stands (x : Session) : x.Stands x.declared := by
  by_cases awaiting : x.state = .awaiting
  · refine .of_left rfl rfl rfl ?_
    unfold Session.current Session.declared
    simp [awaiting]
  · exact .of_state rfl rfl rfl (if_neg awaiting)

/-- A session whose SIGN_ON is written was current before (R95). -/
theorem Session.opened_stands (x : Session) : x.Stands { x with state := if x.state = .opening then .open_ else x.state } := by
  by_cases opening : x.state = .opening
  · refine ⟨rfl, rfl, rfl, fun _ => ?_⟩
    unfold Session.current
    simp [opening]
  · exact .of_state rfl rfl rfl (if_neg opening)

theorem SessionUnit.written_steady (u : SessionUnit) (rest : List Queued) (r : JRecord) : u.Steady (u.written rest r) := by
  unfold SessionUnit.written
  split
  · exact u.modify_steady _ Session.opened_stands
  · exact u.modify_steady _ fun _ => .of_left rfl rfl rfl rfl
  · exact .of_table rfl rfl
  · unfold SessionUnit.settleVoid
    split
    · exact .of_table rfl rfl
    · exact .of_table rfl rfl
  · exact u.modify_steady _ Session.declared_stands
  · split
    · rename_i i _
      refine ⟨rfl, fun k y at_ => ⟨y, ?_, .refl y⟩⟩
      rw [Vector.at_put] at at_
      split at at_
      · cases at_
      · exact at_
    · exact .of_table rfl rfl
  · exact .of_table rfl rfl

/-! ### The number of a new session (R93) -/

/-- A session of the table has a number. -/
def SessionUnit.holds (u : SessionUnit) (n : Nat) : Prop := ∃ i x, u.table.at i = some x ∧ x.number = n

theorem SessionUnit.find_number (u : SessionUnit) (n : Nat) : (u.find fun x => x.number == n).isSome = true ↔ u.holds n := by
  constructor
  · intro is
    obtain ⟨i, found⟩ := Option.isSome_iff_exists.mp is
    obtain ⟨x, at_, number⟩ := SessionUnit.find_some found
    exact ⟨i, x, at_, by simpa using number⟩
  · rintro ⟨i, x, at_, number⟩
    cases found : u.find fun x => x.number == n with
    | some j => rfl
    | none =>
      have no := SessionUnit.find_none found at_
      simp [number] at no

theorem nextSessionNumber_range {n : Nat} (low : 1 ≤ n) (high : n ≤ 65535) :
    1 ≤ nextSessionNumber n ∧ nextSessionNumber n ≤ 65535 := by
  unfold nextSessionNumber
  split <;> omega

/-- The numbers run on in a ring of 65,535. -/
theorem nextSessionNumber_iterate {n : Nat} (low : 1 ≤ n) (high : n ≤ 65535) (k : Nat) :
    nextSessionNumber^[k] n = (n - 1 + k) % 65535 + 1 := by
  induction k with
  | zero =>
    show n = _
    omega
  | succ k ih =>
    rw [Function.iterate_succ_apply', ih]
    unfold nextSessionNumber
    split <;> omega

theorem freeSessionNumber_spec (u : SessionUnit) (fuel : Nat) {n : Nat} (low : 1 ≤ n) (high : n ≤ 65535) :
    1 ≤ freeSessionNumber u fuel n ∧ freeSessionNumber u fuel n ≤ 65535 ∧
      (u.holds (freeSessionNumber u fuel n) → ∀ k ≤ fuel, u.holds (nextSessionNumber^[k] n)) := by
  induction fuel generalizing n with
  | zero =>
    refine ⟨low, high, fun taken k at_most => ?_⟩
    obtain rfl : k = 0 := Nat.le_zero.mp at_most
    exact taken
  | succ fuel ih =>
    unfold freeSessionNumber
    split
    · rename_i taken
      obtain ⟨least, most⟩ := nextSessionNumber_range low high
      obtain ⟨low', high', run⟩ := ih least most
      refine ⟨low', high', fun last k at_most => ?_⟩
      cases k with
      | zero => exact (u.find_number n).mp taken
      | succ k => exact run last k (Nat.le_of_succ_le_succ at_most)
    · rename_i free
      exact ⟨low, high, fun taken => absurd ((u.find_number n).mpr taken) free⟩

/-- No session has the number taken for a new one: 24 records do not hold 25 numbers. -/
theorem SessionUnit.takenNumber_fresh {u : SessionUnit} (low : 1 ≤ u.nextNumber) (high : u.nextNumber ≤ 65535) :
    1 ≤ u.takenNumber ∧ u.takenNumber ≤ 65535 ∧ ¬ u.holds u.takenNumber := by
  obtain ⟨least, most, run⟩ := freeSessionNumber_spec u 24 low high
  refine ⟨least, most, fun taken => ?_⟩
  have all : ∀ k : Fin 25, u.holds (nextSessionNumber^[k.val] u.nextNumber) := fun k => run taken k.val (Nat.le_of_lt_succ k.isLt)
  choose record session at_ number using all
  obtain ⟨j, k, differ, same⟩ := Fintype.exists_ne_map_eq_of_card_lt record (by decide)
  have one : session j = session k := Option.some.inj ((at_ j).symm.trans (same ▸ at_ k))
  have twice := (number j).symm.trans ((congrArg Session.number one).trans (number k))
  rw [nextSessionNumber_iterate low high, nextSessionNumber_iterate low high] at twice
  have := j.isLt
  have := k.isLt
  exact differ (Fin.ext (by omega))

/-- A session opened in a free record, under a fresh number, for a window and a clerk with no current session. -/
theorem SessionUnit.sound.opened {u : SessionUnit} (h : u.sound) {i : Fin 24} {x : Session} {next : Nat}
    (least : 1 ≤ next) (most : next ≤ 65535) (low : 1 ≤ x.number) (high : x.number ≤ 65535)
    (fresh : ¬ u.holds x.number)
    (apart : ∀ k y, u.table.at k = some y → y.current = true → y.window ≠ x.window ∧ y.clerk ≠ x.clerk) :
    ({ u with table := u.table.put i (some x), nextNumber := next } : SessionUnit).sound := by
  obtain ⟨_, _, each⟩ := h
  refine ⟨least, most, fun k y at_ => ?_⟩
  have at_ : (u.table.put i (some x)).at k = some y := at_
  rw [Vector.at_put] at at_
  split at at_
  · rename_i own
    cases at_
    refine ⟨low, high, fun l other z there => ?_⟩
    have there : (u.table.put i (some x)).at l = some z := there
    rw [Vector.at_put, if_neg fun e => other (e.symm.trans own)] at there
    exact ⟨fun number => fresh ⟨l, z, there, number⟩, fun _ current => apart l z there current⟩
  · obtain ⟨low', high', others⟩ := each k y at_
    refine ⟨low', high', fun l other z there => ?_⟩
    have there : (u.table.put i (some x)).at l = some z := there
    rw [Vector.at_put] at there
    split at there
    · cases there
      refine ⟨fun number => fresh ⟨k, y, at_, number.symm⟩, fun current _ => ?_⟩
      obtain ⟨window, clerk⟩ := apart k y at_ current
      exact ⟨window.symm, clerk.symm⟩
    · exact others l other z there

end Sys2Proof.Machine
end

