-- ==== Sys2Proof/Proofs/SessionsOfRequests.lean ====
section
/-! SUPPORT. Session numbers, current sessions and clerks stand in order through every request (R93, R94). -/

namespace Sys2Proof.Machine

/-- Session numbers, current sessions and clerks stay in order. -/
def State.SessionsKept (s t : State) : Prop := s.sessions.sound → t.sessions.sound

theorem State.SessionsKept.refl (s : State) : s.SessionsKept s := id

theorem State.SessionsKept.trans {s t u : State} (a : s.SessionsKept t) (b : t.SessionsKept u) : s.SessionsKept u :=
  fun h => b (a h)

theorem State.SessionsKept.of_same {s t : State} (same : t.sessions = s.sessions) : s.SessionsKept t := fun h => by
  rw [same]
  exact h

theorem SessionUnit.Steady.kept {s t : State} (h : s.sessions.Steady t.sessions) : s.SessionsKept t := h.sound

theorem State.Loud.sessionsKept {s t : State} (h : s.Loud t) : s.SessionsKept t := h.books.steady.kept

theorem State.Quiet.sessionsKept {s t : State} (h : s.Quiet t) : s.SessionsKept t := h.books.steady.kept

theorem State.refuse_sessionsKept (s : State) (r : Reply) (code : AnswerCode) : s.SessionsKept (s.refuse r code) :=
  (State.refuse_loud (.refl s) r code).sessionsKept

theorem State.withJournal_sessionsKept {s : State} (r : Reply) {own : State} (kept : s.SessionsKept own) :
    s.SessionsKept (s.withJournal r own) := by
  unfold State.withJournal
  split
  · exact s.refuse_sessionsKept r _
  · exact kept

theorem State.hand_sessionsKept {s t : State} (h : s.SessionsKept t) (r : JRecord) (link : Link) :
    s.SessionsKept (t.hand r link) := h.trans (State.hand_quiet (.refl t) r link).sessionsKept

theorem State.modifySession_sessionsKept (s : State) (n : Nat) {f : Session → Session}
    (stands : ∀ x : Session, x.Stands (f x)) : s.SessionsKept (s.modifySession n f) := (s.sessions.modify_steady n stands).sound

/-! ### Clerk requests -/

theorem signonCheck_ok {s : State} {w : Window} {clerk float : Nat} {i : Fin 24} (h : s.signonCheck w clerk float = .ok i) :
    (s.currentSession w).isSome = false ∧ s.clerkSignedOn clerk = false := by
  unfold State.signonCheck at h
  split at h
  · cases h
  · split at h
    · cases h
    · rename_i free
      simpa using free

/-- The session that an accepted SIGNON opens (R93, R94, R95). -/
theorem State.openSessionRecord_sessionsKept {s : State} {w : Window} {clerk float : Nat} {i : Fin 24}
    (ok : s.signonCheck w clerk float = .ok i) (r : Reply) : s.SessionsKept (s.openSessionRecord w clerk float i r) := by
  obtain ⟨window, signed⟩ := signonCheck_ok ok
  unfold State.openSessionRecord
  refine State.hand_sessionsKept (fun sound => ?_) _ _
  have ⟨low, high, _⟩ := sound
  obtain ⟨least, most, fresh⟩ := SessionUnit.takenNumber_fresh low high
  obtain ⟨low', high'⟩ := nextSessionNumber_range least most
  refine SessionUnit.sound.opened sound low' high' least most fresh fun k y at_ current => ⟨fun same => ?_, fun same => ?_⟩
  · have none_ : s.currentSession w = none := by simpa using window
    have no := SessionUnit.get_none none_ at_
    have same : y.window = w := same
    simp [same, current] at no
  · have none_ : s.sessions.find (fun x => x.clerk == clerk && x.current) = none := by
      simpa [State.clerkSignedOn] using signed
    have no := SessionUnit.find_none none_ at_
    have same : y.clerk = clerk := same
    simp [same, current] at no

theorem ownSignon_sessionsKept (s : State) (r : Reply) (a : Nat × Nat) : s.SessionsKept (ownSignon s r a) := by
  refine State.withJournal_sessionsKept r ?_
  split
  · exact s.refuse_sessionsKept r _
  · rename_i ok
    exact State.openSessionRecord_sessionsKept ok r

/-- The session that a SIGNOFF closes was current (R94, R107). -/
theorem State.closing_sessionsKept {s : State} {w : Window} {x : Session} (h : s.openSession w = some x) (r : Reply) :
    s.SessionsKept (s.modifySession x.number fun x => { x with state := .closing, signOff := some r }) := by
  obtain ⟨i, _, at_, is⟩ := SessionUnit.get_some h
  have current : x.current = true := by
    unfold Session.current
    simp only [Bool.and_eq_true, beq_iff_eq] at is
    simp [is.2]
  intro sound
  refine SessionUnit.Steady.sound (u := s.sessions) ?_ sound
  refine SessionUnit.modify_steady_of fun k y there number => ⟨rfl, rfl, rfl, fun _ => ?_⟩
  by_cases same : k = i
  · rw [same] at there
    cases at_.symm.trans there
    exact current
  · exact absurd number ((sound.2.2 i x at_).2.2 k same y there).1

theorem ownSignoff_sessionsKept (s : State) (r : Reply) (a : Unit) : s.SessionsKept (ownSignoff s r a) := by
  refine State.withJournal_sessionsKept r ?_
  split
  · exact s.refuse_sessionsKept r _
  · rename_i x found
    refine (State.closing_sessionsKept found r).trans ?_
    exact (State.settle_quiet (State.signOffTest_quiet (.refl _) _)).sessionsKept

theorem State.acceptJob_sessionsKept (s : State) (job : Job) : s.SessionsKept (s.acceptJob job) := by
  unfold State.acceptJob
  split
  · exact s.refuse_sessionsKept _ _
  · refine (State.settle_quiet (State.modifySession_quiet ?_ _ _ ?_)).sessionsKept
    · exact State.setQueue_quiet (State.setJob_quiet (.refl s) _ _) _ _
    · exact fun _ => rfl

theorem ownIssue_sessionsKept (s : State) (r : Reply) (a : IssueBody) : s.SessionsKept (ownIssue s r a) := by
  refine State.withJournal_sessionsKept r ?_
  split
  · exact s.refuse_sessionsKept r _
  · exact s.acceptJob_sessionsKept _

theorem ownTestprint_sessionsKept (s : State) (r : Reply) (a : Nat) : s.SessionsKept (ownTestprint s r a) := by
  refine State.withJournal_sessionsKept r ?_
  split
  · exact s.refuse_sessionsKept r _
  · exact s.acceptJob_sessionsKept _

theorem ownCancel_sessionsKept (s : State) (r : Reply) (a : Nat) : s.SessionsKept (ownCancel s r a) := by
  unfold ownCancel
  split
  · exact s.refuse_sessionsKept r _
  · split
    · unfold State.cancelJob
      dsimp only
      refine (State.settle_loud (State.refuse_loud (State.refuseJob_loud ?_ _ _ _) _ _)).sessionsKept
      split
      · exact (State.withdrawClaim_quiet (.refl _) _).loud
      · exact .refl _
    · exact s.refuse_sessionsKept r _

theorem State.setLogState_sessionsKept (s : State) (serial : Nat) (ty : StockType) (st : LogState) :
    s.SessionsKept (s.updateSessions fun u => u.setLogState serial ty st) :=
  (SessionUnit.Steady.of_table (u := s.sessions) (v := s.sessions.setLogState serial ty st) rfl rfl).sound

theorem ownVoid_sessionsKept (s : State) (r : Reply) (a : Nat × Nat) : s.SessionsKept (ownVoid s r a) := by
  refine State.withJournal_sessionsKept r ?_
  split
  · exact s.refuse_sessionsKept r _
  · exact State.hand_sessionsKept (s.setLogState_sessionsKept _ _ _) _ _

theorem ownRefund_sessionsKept (s : State) (r : Reply) (a : RefundBody) : s.SessionsKept (ownRefund s r a) := by
  refine State.withJournal_sessionsKept r ?_
  split
  · exact s.refuse_sessionsKept r _
  · unfold State.acceptRefund
    split
    · exact State.hand_sessionsKept (s.setLogState_sessionsKept _ _ _) _ _
    · exact State.hand_sessionsKept (.refl s) _ _

/-! ### Management requests -/

theorem ownStockin_sessionsKept (s : State) (r : Reply) (a : StockinBody) : s.SessionsKept (ownStockin s r a) := by
  refine State.withJournal_sessionsKept r ?_
  split
  · exact s.refuse_sessionsKept r _
  · split
    · exact s.refuse_sessionsKept r _
    · split
      · exact State.hand_sessionsKept (State.setStock_quiet (.refl s) _).sessionsKept _ _
      · exact s.refuse_sessionsKept r _

theorem ownStockload_sessionsKept (s : State) (r : Reply) (a : Nat × Nat) : s.SessionsKept (ownStockload s r a) := by
  refine State.withJournal_sessionsKept r ?_
  split
  · exact s.refuse_sessionsKept r _
  · unfold State.acceptStockload
    dsimp only
    refine (State.settle_loud (State.resolveQueue_loud (State.lowStockTest_loud (State.endCondition_loud ?_ _) _)
      _ _ _)).sessionsKept
    exact (State.removeHold_quiet (State.hand_quiet (State.setLoaded_quiet (State.setStock_quiet
      (State.clearClosing_quiet (.refl s) _) _) _ _) _ _) _ _).loud

theorem ownStockout_sessionsKept (s : State) (r : Reply) (a : Nat) : s.SessionsKept (ownStockout s r a) := by
  refine State.withJournal_sessionsKept r ?_
  split
  · exact s.refuse_sessionsKept r _
  · rename_i p b _
    have left : s.Quiet ((s.clearClosing p).setLoaded p none) :=
      State.setLoaded_quiet (State.clearClosing_quiet (.refl s) _) _ _
    unfold State.acceptStockout
    dsimp only
    generalize (s.clearClosing p).setLoaded p none = t at *
    refine (State.settle_quiet (State.addStockHold_quiet (State.hand_quiet ?_ _ _) _ _)).sessionsKept
    split
    · exact State.setStock_quiet left _
    · exact left

theorem ownStockcount_sessionsKept (s : State) (r : Reply) (a : Nat × Nat) : s.SessionsKept (ownStockcount s r a) := by
  refine State.withJournal_sessionsKept r ?_
  split
  · exact s.refuse_sessionsKept r _
  · rename_i p b _
    have counted : s.Loud ((((s.setLoaded p (some (b.settleTo a.2))).handFor
        (.count b.id p a.2 (b.counted a.2) (b.settleTo a.2).state) r .done (.counted (b.counted a.2))).removeHold p
        .stockUnverified).endCondition (.printer p .stockMismatch)) :=
      State.endCondition_loud (State.removeHold_quiet (State.hand_quiet (State.setLoaded_quiet (.refl s) _ _) _ _)
        _ _).loud _
    unfold State.acceptStockcount
    dsimp only
    generalize State.endCondition _ _ = t at *
    refine (State.settle_loud (State.lowStockTest_loud ?_ _)).sessionsKept
    split
    · exact counted.quiet (State.exhaust_quiet (.refl t) _ _)
    · exact counted

theorem ownHold_sessionsKept (s : State) (r : Reply) (a : Nat) : s.SessionsKept (ownHold s r a) := by
  unfold ownHold
  split
  · exact s.refuse_sessionsKept r _
  · exact (State.settle_loud (State.refuse_loud (State.addHold_quiet (.refl s) _ _).loud _ _)).sessionsKept

theorem ownRelease_sessionsKept (s : State) (r : Reply) (a : Nat) : s.SessionsKept (ownRelease s r a) := by
  unfold ownRelease
  split
  · exact s.refuse_sessionsKept r _
  · exact (State.settle_loud (State.refuse_loud (State.release_loud (.refl s) _) _ _)).sessionsKept

theorem ownDeclare_sessionsKept (s : State) (r : Reply) (a : Nat × PerTender Nat) : s.SessionsKept (ownDeclare s r a) := by
  refine State.withJournal_sessionsKept r ?_
  split
  · exact s.refuse_sessionsKept r _
  · refine State.hand_sessionsKept (s.modifySession_sessionsKept _ fun x => ?_) _ _
    exact .of_state rfl rfl rfl rfl

theorem ownClose_sessionsKept (s : State) (r : Reply) (a : Nat × Bool) : s.SessionsKept (ownClose s r a) := by
  refine State.withJournal_sessionsKept r ?_
  split
  · exact s.refuse_sessionsKept r _
  · refine State.hand_sessionsKept (s.modifySession_sessionsKept _ fun x => ?_) _ _
    exact .of_left rfl rfl rfl rfl

theorem ownTableload_sessionsKept (s : State) (r : Reply) (a : Option TableEntries) : s.SessionsKept (ownTableload s r a) := by
  unfold ownTableload
  split
  · exact s.refuse_sessionsKept r _
  · split
    · exact s.refuse_sessionsKept r _
    · split
      · exact s.refuse_sessionsKept r _
      · split
        · exact s.refuse_sessionsKept r _
        · exact .of_same rfl

theorem ownReporting_sessionsKept (s : State) (r : Reply) (a : Bool) : s.SessionsKept (ownReporting s r a) := by
  unfold ownReporting
  split
  · exact s.refuse_sessionsKept r _
  · exact .of_same rfl

theorem ownCauseclear_sessionsKept (s : State) (r : Reply) (a : Unit) : s.SessionsKept (ownCauseclear s r a) := by
  unfold ownCauseclear
  split
  · exact s.refuse_sessionsKept r _
  · exact .of_same rfl

theorem State.answer_sessionsKept (s : State) (r : Reply) (code : AnswerCode) (f : Figures) :
    s.SessionsKept (s.answer r code f) := (State.answer_loud (.refl s) r code f).sessionsKept

theorem State.answerRead_sessionsKept (s : State) (r : Reply) (f : Option Figures) : s.SessionsKept (s.answerRead r f) := by
  unfold State.answerRead
  split
  · exact s.answer_sessionsKept r _ _
  · exact s.refuse_sessionsKept r _

theorem ownSessionread_sessionsKept (s : State) (r : Reply) (a : SessionSelector) : s.SessionsKept (ownSessionread s r a) := by
  unfold ownSessionread
  repeat' split
  all_goals exact s.answer_sessionsKept r _ _

theorem ownFaultclear_sessionsKept (s : State) (r : Reply) (a : List (Nat × Nat)) : s.SessionsKept (ownFaultclear s r a) := by
  unfold ownFaultclear
  split
  · exact s.refuse_sessionsKept r _
  · exact .of_same rfl

theorem ownResetFull_sessionsKept (s : State) (r : Reply) (a : Bool) : s.SessionsKept (ownResetFull s r a) := by
  unfold ownResetFull
  split
  · exact s.refuse_sessionsKept r _
  · exact .of_same rfl

theorem ownResetPath_sessionsKept (s : State) (r : Reply) (a : Bool) : s.SessionsKept (ownResetPath s r a) := by
  have emptied : (s.refuse r .done).SessionsKept (s.refuse r .done).poolReset := by
    generalize s.refuse r .done = t
    obtain ⟨_, _, loud, shape, _⟩ := t.poolReset_effect
    have blocks := t.blocksReset_effect
    generalize t.blocksReset = c at *
    have cut : t.SessionsKept c := (SessionUnit.Steady.of_books blocks.accounts.2 blocks.books).sound
    refine (cut.trans loud.sessionsKept).trans (.of_same ?_)
    rw [shape]
  unfold ownResetPath
  rw [State.pathReset_eq]
  exact ((s.refuse_sessionsKept r _).trans emptied).trans (State.settle_quiet (.refl _)).sessionsKept

/-! ### Taking a frame -/

theorem State.takeFrame_sessionsKept (s : State) (w : Window) (mine : Frame → Bool) (cancel : Bool)
    (check : State → Reply → Frame → State) (kept : ∀ (t : State) (r : Reply) (f : Frame), t.SessionsKept (check t r f)) :
    s.SessionsKept (s.takeFrame w mine cancel check) := by
  unfold State.takeFrame
  split
  · exact .refl s
  · rename_i f rest _
    have popped : s.SessionsKept (s.setOffice w { s.office.at w with buffer := rest }) := .of_same rfl
    split
    · split
      · exact .refl s
      · exact popped.trans (State.refuse_sessionsKept _ _ _)
      · dsimp only
        generalize s.setOffice w { s.office.at w with buffer := rest } = t at *
        split
        · split
          · split
            · exact popped.trans (kept t _ f)
            · exact popped.trans (State.refuse_sessionsKept _ _ _)
          · have credited : t.SessionsKept (t.takeCredit w f.tag).1 := .of_same rfl
            exact (popped.trans credited).trans (kept _ _ f)
        · exact popped
    · exact .refl s

theorem State.checked_sessionsKept {α : Type} {kind : RequestKind} {read : List Byte → Option α}
    {owner : State → Reply → α → State} (kept : ∀ (t : State) (r : Reply) (a : α), t.SessionsKept (owner t r a)) (s : State)
    (r : Reply) (f : Frame) : s.SessionsKept (State.checked kind read owner s r f) := by
  unfold State.checked
  split
  · exact s.refuse_sessionsKept r _
  · split
    · exact s.refuse_sessionsKept r _
    · exact kept s r _

theorem State.takeRequest_sessionsKept {α : Type} (s : State) (w : Window) (kind : RequestKind) (read : List Byte → Option α)
    (owner : State → Reply → α → State) (kept : ∀ (t : State) (r : Reply) (a : α), t.SessionsKept (owner t r a)) :
    s.SessionsKept (s.takeRequest w kind read owner) := s.takeFrame_sessionsKept w _ _ _ (State.checked_sessionsKept kept)

/-! ### Line events -/

theorem execFrameReceived_sessionsKept {w : Window} {kind tag : Byte} {body : List Byte} {s t : State}
    (h : execFrameReceived w kind tag body s = .next t) : s.SessionsKept t := by
  unfold execFrameReceived at h
  cases h
  split
  · split
    · dsimp only
      split
      · exact (State.endLineConditions_loud (.refl (s.setOffice w _)) w).sessionsKept
      · exact (State.raise_loud (.refl s) _).sessionsKept
    · exact (State.refuse_loud (State.endLineConditions_loud (.refl s) w) _ _).sessionsKept
  · exact .refl s

theorem State.lineError_sessionsKept (s : State) (w : Window) (c : LineFault) : s.SessionsKept (s.lineError w c) := by
  unfold State.lineError
  split
  · exact (State.raise_loud (.refl s) _).sessionsKept
  · exact .refl s

/-- What every event of an office line keeps of the sessions. -/
theorem exec_sessionsKept_of_office {c : Instr} {s t : State} (g : ofOfficeLine c = true) (h : exec c s = .next t) :
    s.SessionsKept t := by
  cases c
  case frameReceived => exact execFrameReceived_sessionsKept h
  case frameDiscarded => cases h; exact s.lineError_sessionsKept _ _
  case gapTimerExpiry => cases h; exact s.lineError_sessionsKept _ _
  case signon => cases h; exact s.takeRequest_sessionsKept _ _ _ _ ownSignon_sessionsKept
  case signoff => cases h; exact s.takeRequest_sessionsKept _ _ _ _ ownSignoff_sessionsKept
  case issue => cases h; exact s.takeRequest_sessionsKept _ _ _ _ ownIssue_sessionsKept
  case testprint => cases h; exact s.takeRequest_sessionsKept _ _ _ _ ownTestprint_sessionsKept
  case cancel => cases h; exact s.takeRequest_sessionsKept _ _ _ _ ownCancel_sessionsKept
  case void => cases h; exact s.takeRequest_sessionsKept _ _ _ _ ownVoid_sessionsKept
  case refund => cases h; exact s.takeRequest_sessionsKept _ _ _ _ ownRefund_sessionsKept
  case tableload => cases h; exact s.takeRequest_sessionsKept _ _ _ _ ownTableload_sessionsKept
  case tableread => cases h; exact s.takeRequest_sessionsKept _ _ _ _ fun t r _ => t.answerRead_sessionsKept r _
  case stockin => cases h; exact s.takeRequest_sessionsKept _ _ _ _ ownStockin_sessionsKept
  case stockload => cases h; exact s.takeRequest_sessionsKept _ _ _ _ ownStockload_sessionsKept
  case stockout => cases h; exact s.takeRequest_sessionsKept _ _ _ _ ownStockout_sessionsKept
  case stockcount => cases h; exact s.takeRequest_sessionsKept _ _ _ _ ownStockcount_sessionsKept
  case stockread => cases h; exact s.takeRequest_sessionsKept _ _ _ _ fun t r _ => t.answerRead_sessionsKept r _
  case hold => cases h; exact s.takeRequest_sessionsKept _ _ _ _ ownHold_sessionsKept
  case release => cases h; exact s.takeRequest_sessionsKept _ _ _ _ ownRelease_sessionsKept
  case declare => cases h; exact s.takeRequest_sessionsKept _ _ _ _ ownDeclare_sessionsKept
  case close => cases h; exact s.takeRequest_sessionsKept _ _ _ _ ownClose_sessionsKept
  case sessionread => cases h; exact s.takeRequest_sessionsKept _ _ _ _ ownSessionread_sessionsKept
  case faultread => cases h; exact s.takeRequest_sessionsKept _ _ _ _ fun t r _ => t.answerRead_sessionsKept r _
  case faultclear => cases h; exact s.takeRequest_sessionsKept _ _ _ _ ownFaultclear_sessionsKept
  case reporting => cases h; exact s.takeRequest_sessionsKept _ _ _ _ ownReporting_sessionsKept
  case journalread => cases h; exact s.takeRequest_sessionsKept _ _ _ _ fun t r _ => t.answerRead_sessionsKept r _
  case statusread => cases h; exact s.takeRequest_sessionsKept _ _ _ _ fun t r _ => t.answer_sessionsKept r _ _
  case causeclear => cases h; exact s.takeRequest_sessionsKept _ _ _ _ ownCauseclear_sessionsKept
  case resetFull => cases h; exact s.takeFrame_sessionsKept _ _ _ _ (State.checked_sessionsKept ownResetFull_sessionsKept)
  case resetPath => cases h; exact s.takeFrame_sessionsKept _ _ _ _ (State.checked_sessionsKept ownResetPath_sessionsKept)
  case nonRequestFrame => cases h; exact s.takeFrame_sessionsKept _ _ _ _ fun t r _ => t.refuse_sessionsKept r _
  all_goals exact absurd g Bool.false_ne_true

end Sys2Proof.Machine
end

