-- ==== Sys2Proof/Proofs/OrderlyEvents.lean ====
section
/-! SUPPORT. Office ports, the fault queue, the issue log and the sessions stand in order through every event (R93, R94, R100,
R138, R185). -/

namespace Sys2Proof.Machine

/-- Office ports, the fault queue, the issue log and the sessions stay in order. -/
structure State.Orderly (s t : State) : Prop where
  office : s.officeSound → t.officeSound
  faults : s.faultsDistinct → t.faultsDistinct
  log : s.sessions.logSound → t.sessions.logSound
  sessions : s.SessionsKept t

theorem State.Orderly.refl (s : State) : s.Orderly s := ⟨id, id, id, .refl s⟩

theorem State.Orderly.trans {s t u : State} (a : s.Orderly t) (b : t.Orderly u) : s.Orderly u :=
  ⟨fun h => b.office (a.office h), fun h => b.faults (a.faults h), fun h => b.log (a.log h), a.sessions.trans b.sessions⟩

theorem State.Mild.orderly {s t : State} (h : s.Mild t) (sessions : s.SessionsKept t) : s.Orderly t :=
  ⟨h.office, h.faults, h.log, sessions⟩

theorem State.Loud.orderly {s t : State} (h : s.Loud t) : s.Orderly t := h.mild.orderly h.sessionsKept

/-- Nothing is said or recorded and the session unit stands. -/
theorem State.Orderly.of_same {s t : State} (office : t.office = s.office) (next : t.nextRequest = s.nextRequest)
    (faults : t.monitor.faults = s.monitor.faults) (sessions : t.sessions = s.sessions) : s.Orderly t := by
  refine ⟨fun h w => ?_, fun h => ?_, fun h => ?_, .of_same sessions⟩
  · rw [office, next]
    exact h w
  · unfold State.faultsDistinct
    rw [faults]
    exact h
  · rw [sessions]
    exact h

theorem State.updateJournal_orderly (s : State) (f : Journal → Journal) : s.Orderly (s.updateJournal f) :=
  .of_same rfl rfl rfl rfl

theorem State.settle_orderly {s t : State} (h : s.Orderly t) : s.Orderly t.settle :=
  h.trans (State.settle_quiet (.refl t)).loud.orderly

/-! ### The journal's writes -/

theorem State.stopJournal_orderly (s : State) : s.Orderly s.stopJournal := (State.stopJournal_loud (.refl s)).orderly

theorem State.startNext_orderly (s : State) : s.Orderly s.startNext := by
  unfold State.startNext State.beginCheckpoint
  split
  · exact s.updateJournal_orderly _
  · exact s.updateJournal_orderly _

/-- A written record is reported to the blocks (R151, R152). -/
theorem State.reportWritten_orderly (s : State) (q : Queued) : s.Orderly (s.reportWritten q) := by
  refine (s.reportWritten_mild q).orderly ?_
  rw [State.reportWritten_eq]
  have entered : s.SessionsKept (s.entered q.record) := fun sound =>
    (SessionUnit.written_steady _ s.journal.queue q.record).sound ((s.sessions.addFigures_steady q.record).sound sound)
  exact (entered.trans (s.enteredFor_books q.record).steady.kept).trans
    (State.answerWritten_loud (s.enteredFor q.record) q.record q.link).sessionsKept

theorem State.afterRecord_orderly (s : State) (before : Journal) : s.Orderly (s.afterRecord before) := by
  unfold State.afterRecord
  split
  · exact s.stopJournal_orderly
  · split
    · exact s.updateJournal_orderly _
    · exact s.startNext_orderly

theorem State.afterCheckpointRecord_orderly (s : State) (before : Journal) (rest : List JRecord) (abandoned : Bool) :
    s.Orderly (s.afterCheckpointRecord before rest abandoned) := by
  unfold State.afterCheckpointRecord
  split
  · exact s.stopJournal_orderly
  · split
    · split
      · exact s.updateJournal_orderly _
      · exact s.startNext_orderly
    · split
      · exact s.updateJournal_orderly _
      · exact s.updateJournal_orderly _

theorem execRecordWriteEnds_orderly {found : Option (List Byte)} {s t : State} (h : execRecordWriteEnds found s = .next t) :
    s.Orderly t := by
  unfold execRecordWriteEnds at h
  cases h
  dsimp only
  split
  · rename_i q rest _ _
    generalize readBack (recordSlot s.journal.nextSequence q.record) found = read
    split
    · exact State.settle_orderly (((s.updateJournal_orderly _).trans (State.reportWritten_orderly _ q)).trans
        (State.afterRecord_orderly _ _))
    · exact (s.updateJournal_orderly _).trans (State.stopJournal_orderly _)
  · exact .refl s

theorem execEraseEnds_orderly {found : Option (List Byte)} {s t : State} (h : execEraseEnds found s = .next t) :
    s.Orderly t := by
  unfold execEraseEnds at h
  cases h
  dsimp only
  generalize readBack (freshPage s.journal.pageSequence) found = read
  have erased : s.Orderly (if read.2 = true then s.updateJournal fun j => j.pageDone read.1
      else (s.updateJournal fun j => j.putPage read.1).stopJournal) := by
    split
    · exact s.updateJournal_orderly _
    · exact (s.updateJournal_orderly _).trans (State.stopJournal_orderly _)
  generalize (if read.2 = true then s.updateJournal fun j => j.pageDone read.1
      else (s.updateJournal fun j => j.putPage read.1).stopJournal) = e at *
  split
  · split
    · exact erased.trans e.startNext_orderly
    · exact erased
  · split
    · exact erased
    · split
      · exact erased.trans e.startNext_orderly
      · exact erased.trans (e.updateJournal_orderly _)
  all_goals exact .refl s

theorem execCheckpointRecordWriteEnds_orderly {found : Option (List Byte)} {s t : State}
    (h : execCheckpointRecordWriteEnds found s = .next t) : s.Orderly t := by
  unfold execCheckpointRecordWriteEnds at h
  cases h
  dsimp only
  split
  · rename_i r rest abandoned _
    generalize readBack (recordSlot s.journal.nextSequence r) found = read
    split
    · exact State.settle_orderly ((s.updateJournal_orderly _).trans (State.afterCheckpointRecord_orderly _ _ _ _))
    · exact (s.updateJournal_orderly _).trans (State.stopJournal_orderly _)
  · exact .refl s

/-! ### Table-store writes and the supply -/

/-- The table store changes and the request, if any, is answered. -/
theorem State.stored_orderly (s : State) (store : TableStore) (r : Option Reply) (code : AnswerCode) :
    s.Orderly (State.answerIf { s with store := store } r code .nothing) := by
  refine State.Orderly.trans (t := { s with store := store }) (.of_same rfl rfl rfl rfl) ?_
  exact (State.answerIf_loud (.refl _) r code _).orderly

theorem execTableloadWriteEnds_orderly {s t : State} (h : execTableloadWriteEnds s = .next t) : s.Orderly t := by
  unfold execTableloadWriteEnds at h
  split at h
  · dsimp only at h
    split at h
    · rw [← Host.Outcome.next.inj h]
      exact s.stored_orderly _ _ _
    · split at h
      · rw [← Host.Outcome.next.inj h]
        exact (s.stored_orderly _ _ _).trans (State.printerTableWritten_loud _ _).orderly
      · rw [← Host.Outcome.next.inj h]
        exact s.stored_orderly _ _ _
  · cases h
    exact .refl s

theorem execReportingWriteEnds_orderly {s t : State} (h : execReportingWriteEnds s = .next t) : s.Orderly t := by
  unfold execReportingWriteEnds at h
  cases h
  split
  · exact s.stored_orderly _ _ _
  · exact .refl s

theorem execCauseclearWriteEnds_orderly {s t : State} (h : execCauseclearWriteEnds s = .next t) : s.Orderly t := by
  unfold execCauseclearWriteEnds at h
  cases h
  split
  · exact s.stored_orderly _ _ _
  · exact .refl s

theorem State.settleRunning_orderly {s t : State} (h : s.Orderly t) : s.Orderly t.settleRunning := by
  unfold State.settleRunning
  split
  · exact State.settle_orderly h
  · exact h

theorem execWarningCrossingDown_orderly {s t : State} (h : execWarningCrossingDown s = .next t) : s.Orderly t := by
  unfold execWarningCrossingDown at h
  cases h
  split
  · exact State.settleRunning_orderly (.of_same rfl rfl rfl rfl)
  · exact .refl s

theorem execWarningCrossingUp_orderly {s t : State} (h : execWarningCrossingUp s = .next t) : s.Orderly t := by
  have resumed : ∀ u : State, s.Orderly u → s.Orderly u.resumeWriter := fun u kept => by
    unfold State.resumeWriter
    split
    · exact kept.trans u.startNext_orderly
    · exact kept
  unfold execWarningCrossingUp at h
  cases h
  split
  · refine State.settleRunning_orderly (resumed _ ?_)
    refine State.Orderly.trans (t := { s with supply := .normal }) (.of_same rfl rfl rfl rfl) ?_
    exact (State.raise_loud (.refl _) _).orderly
  · exact .refl s

/-! ### Restart and recovery -/

theorem State.restart_orderly (s t : State) (cause : RestartCause) : s.Orderly (t.restart cause) := by
  obtain ⟨office, faults, log⟩ := t.restart_sound cause
  refine ⟨fun _ => office, fun _ => faults, fun _ => log, fun _ => ⟨Nat.le_refl _, ?_, fun i x at_ => ?_⟩⟩
  · show 1 ≤ 65535
    omega
  · have at_ : (Vector.replicate 24 none).at i = some x := at_
    rw [Vector.at_replicate] at at_
    cases at_

theorem execFrameTransmitted_orderly {w : Window} {s t : State} (h : execFrameTransmitted w s = .next t) : s.Orderly t := by
  unfold execFrameTransmitted at h
  cases h
  split
  · exact .refl s
  · rename_i f rest sending
    dsimp only
    split
    · exact s.restart_orderly _ _
    · refine (State.setOffice_mild (.refl s) w _ fun sound => ?_).orderly (.of_same rfl)
      obtain ⟨buffer, credit, notices, numbers⟩ := sound
      refine ⟨buffer, credit, Nat.le_trans ?_ notices, numbers⟩
      rw [sending]
      exact (List.sublist_cons_self f rest).countP_le

theorem execRecoveryBegins_orderly {s t : State} (h : execRecoveryBegins s = .next t) : s.Orderly t := by
  unfold execRecoveryBegins at h
  cases h
  split
  · exact .of_same rfl rfl rfl rfl
  · exact .refl s
  · exact .refl s

/-- What recovery leaves of the office ports, the fault queue and the issue log (R176 to R178). -/
theorem execCauseWriteEnds_mild {s t : State} (h : execCauseWriteEnds s = .next t) :
    (s.officeSound → t.officeSound) ∧ (s.faultsDistinct → t.faultsDistinct) ∧
      (s.sessions.logSound → t.sessions.logSound) := by
  unfold execCauseWriteEnds at h
  cases h
  split
  · rename_i cause _ _ _
    unfold State.finishRecovery
    dsimp only
    generalize stored : ({ s with store := { s.store with
      valid := true, causes := s.store.causes.put cause.place true, write := none } } : State) = z
    have begun : s.Orderly z := by
      rw [← stored]
      exact .of_same rfl rfl rfl rfl
    have replayed := z.replay_replayed cause
    generalize (z.replay cause).2 = last
    generalize (z.replay cause).1 = r at *
    have handed := (State.hand_quiet (.refl r) (.restart cause last) .nothing).loud
    have waiting := (r.hand (.restart cause last) .nothing).recordWaiting_served
    have distinct := (r.hand (.restart cause last) .nothing).recordWaiting_distinct
    unfold State.completeRecovery
    dsimp only
    generalize r.hand (.restart cause last) .nothing = v at *
    generalize v.recordWaiting = w at *
    have engines := (State.Quiet.foldl (fun t p => State.restartPort_quiet (.refl t) p) allPrinters w).loud.orderly
    generalize allPrinters.foldl State.restartPort w = e at *
    have ran : e.Orderly { e with phase := .running } := .of_same rfl rfl rfl rfl
    have last := engines.trans (State.settle_orderly ran)
    refine ⟨fun sound => last.office (waiting.1.sound (handed.office.sound (replayed.office.sound (begun.office sound)))),
      fun _ => last.faults distinct, fun sound => last.log ?_⟩
    unfold SessionUnit.logSound
    rw [waiting.2.2, handed.books.log]
    rcases replayed.log with none_ | same
    · rw [none_]
      exact ⟨Nat.zero_le _, List.nodup_nil⟩
    · rw [same]
      exact begun.log sound
  · exact ⟨id, id, id⟩

end Sys2Proof.Machine
end

