-- ==== Sys2Proof/Proofs/LimitsOfSteps.lean ====
section
/-! SUPPORT. Every event put together: the limits and the order of the records. -/

namespace Sys2Proof.Machine

/-- The end of a frame's sending, the ends of writes, the supply, restart and recovery. -/
theorem exec_limits_of_no_line {c : Instr} {s t : State} (off : (ofOfficeLine c || ofPrinterLine c) = false)
    (load : c ≠ .tableloadWriteEnds)
    (h : exec c s = .next t) : s.Limits t := by
  cases c
  case frameTransmitted => exact execFrameTransmitted_limits h
  case recordWriteEnds => exact (execRecordWriteEnds_kept h).limits
  case eraseEnds => exact (execEraseEnds_kept h).limits
  case checkpointRecordWriteEnds => exact (execCheckpointRecordWriteEnds_kept h).limits
  case tableloadWriteEnds => exact absurd rfl load
  case reportingWriteEnds => exact (execReportingWriteEnds_kept h).limits
  case causeclearWriteEnds => exact (execCauseclearWriteEnds_kept h).limits
  case causeWriteEnds => exact execCauseWriteEnds_limits h
  case warningCrossingDown => exact (execWarningCrossingDown_kept h).limits
  case warningCrossingUp => exact (execWarningCrossingUp_kept h).limits
  case restartCrossingDown => cases h; exact (State.restart_renews rfl _).limits
  case powerOn => cases h; exact (State.restart_renews rfl _).limits
  case resetLineAsserted => cases h; exact (State.restart_renews rfl _).limits
  case recoveryBegins => exact execRecoveryBegins_limits h
  all_goals exact absurd off.symm Bool.false_ne_true

/-- What every event but the end of a TABLELOAD's write keeps of the limits. -/
theorem exec_limits {c : Instr} {s t : State} (load : c ≠ .tableloadWriteEnds) (h : exec c s = .next t) : s.Limits t := by
  cases office : ofOfficeLine c with
  | true => exact (exec_kept_of_office office h).limits
  | false =>
    cases printer : ofPrinterLine c with
    | true => exact exec_limits_of_printer printer h
    | false => exact exec_limits_of_no_line (by rw [office, printer]; rfl) load h

theorem exec_orderly_of_no_line {c : Instr} {s t : State} (off : (ofOfficeLine c || ofPrinterLine c) = false)
    (cause : c ≠ .causeWriteEnds)
    (h : exec c s = .next t) : s.Orderly t := by
  cases c
  case frameTransmitted => exact execFrameTransmitted_orderly h
  case recordWriteEnds => exact execRecordWriteEnds_orderly h
  case eraseEnds => exact execEraseEnds_orderly h
  case checkpointRecordWriteEnds => exact execCheckpointRecordWriteEnds_orderly h
  case tableloadWriteEnds => exact execTableloadWriteEnds_orderly h
  case reportingWriteEnds => exact execReportingWriteEnds_orderly h
  case causeclearWriteEnds => exact execCauseclearWriteEnds_orderly h
  case causeWriteEnds => exact absurd rfl cause
  case warningCrossingDown => exact execWarningCrossingDown_orderly h
  case warningCrossingUp => exact execWarningCrossingUp_orderly h
  case restartCrossingDown => cases h; exact s.restart_orderly s _
  case powerOn => cases h; exact s.restart_orderly s _
  case resetLineAsserted => cases h; exact s.restart_orderly s _
  case recoveryBegins => exact execRecoveryBegins_orderly h
  all_goals exact absurd off.symm Bool.false_ne_true

/-- What every event but the end of recovery keeps of the records. -/
theorem exec_orderly {c : Instr} {s t : State} (cause : c ≠ .causeWriteEnds) (h : exec c s = .next t) : s.Orderly t := by
  cases office : ofOfficeLine c with
  | true => exact (exec_mild_of_office office h).orderly (exec_sessionsKept_of_office office h)
  | false =>
    cases printer : ofPrinterLine c with
    | true => exact (exec_loud_of_printer printer h).orderly
    | false => exact exec_orderly_of_no_line (by rw [office, printer]; rfl) cause h

/-! ### One event -/

/-- What one event keeps, the event known. -/
structure EventKeeps (c : Instr) (s t : State) : Prop where
  office : s.officeSound → t.officeSound
  faults : s.faultsDistinct → t.faultsDistinct
  log : s.sessions.logSound → t.sessions.logSound
  room : s.roomSound → t.roomSound
  pool : s.PoolSound → t.PoolSound
  claims : s.journal.claims.Nodup → t.journal.claims.Nodup
  ports : s.portsSound → t.portsSound
  sessions : c ≠ .causeWriteEnds → s.sessions.sound → t.sessions.sound
  audit : c ≠ .tableloadWriteEnds → s.portsSound → s.auditSound → t.auditSound
  lines : c = .tableloadWriteEnds → s.AuditShrinks t
  turned : ∀ p, s.Turned t p

theorem exec_keeps {c : Instr} {s t : State} (h : exec c s = .next t) : EventKeeps c s t := by
  by_cases load : c = .tableloadWriteEnds
  · subst load
    have kept := execTableloadWriteEnds_kept h
    have orderly := execTableloadWriteEnds_orderly h
    exact ⟨orderly.office, orderly.faults, orderly.log, kept.roomSound, kept.poolSound, kept.claims, kept.ports,
      fun _ => orderly.sessions, fun no => absurd rfl no, fun _ => execTableloadWriteEnds_audit h,
      fun p => (kept.turns p).turned⟩
  · have limits := exec_limits load h
    by_cases cause : c = .causeWriteEnds
    · subst cause
      obtain ⟨office, faults, log⟩ := execCauseWriteEnds_mild h
      exact ⟨office, faults, log, limits.room, limits.pool, limits.claims, limits.ports, fun no => absurd rfl no,
        fun _ => limits.audit, fun is => absurd is load, limits.turned⟩
    · have orderly := exec_orderly cause h
      exact ⟨orderly.office, orderly.faults, orderly.log, limits.room, limits.pool, limits.claims, limits.ports,
        fun _ => orderly.sessions, fun _ => limits.audit, fun is => absurd is load, limits.turned⟩

/-- Image numbers stay distinct where those sent differ from those outstanding (R41). -/
theorem State.Turned.distinct {s t : State} {p : Printer} (h : s.Turned t p)
    (once : (s.images p ++ s.itemsSent t p).Nodup) : (t.images p).Nodup := once.sublist h.images

end Sys2Proof.Machine

open Sys2Proof Sys2Proof.Machine

/-- Settles O5: each event keeps the limits by what its operations keep one after another, a restart and recovery by setting
everything anew, and the end of a TABLELOAD's write because the windows of the ports it changes are empty. -/
theorem limitsKept : Obligations.LimitsKept := by
  intro s t stepped
  unfold step at stepped
  cases pending : s.pending with
  | nil =>
    rw [pending] at stepped
    cases stepped
    have turned := fun p => ((State.KeptAll.refl s).turns p).turned
    exact ⟨id, id, id, id, id, id, id, fun _ => id, fun _ _ => id, nofun,
      fun p => ⟨(turned p).sent, (turned p).items, (turned p).images, (turned p).distinct⟩⟩
  | cons c rest =>
    rw [pending] at stepped
    have kept : EventKeeps c { s with pending := rest } t := exec_keeps stepped
    refine ⟨kept.office, kept.faults, kept.log, kept.room, fun pool => kept.pool ?_, kept.claims, kept.ports,
      fun other => kept.sessions (other c rfl), fun other => kept.audit (other c rfl), fun front few a => ?_,
      fun p => ⟨(kept.turned p).sent, (kept.turned p).items, (kept.turned p).images, (kept.turned p).distinct⟩⟩
    · obtain ⟨a, b, d, e, f, g, i, j, k⟩ := pool
      exact ⟨a, b, d, e, f, g, i, j, k⟩
    · exact Nat.le_trans (kept.lines (Option.some.inj front) a) (few a)
end
